-- ==== Sys2Proof/Word.lean ====
section
/-! DEFINITION. The word types of the Camzen Z9: bytes, 32-bit registers, 64-bit pairs and code addresses
(spec/02 R25, R35; spec/04 R69). -/

namespace Sys2Proof

/-- A byte of memory or of tile memory. -/
abbrev Byte := BitVec 8

/-- A 32-bit register value (spec/02 R25, R26). -/
abbrev W32 := BitVec 32

/-- A 64-bit value: a register pair, an instruction word or a special register. -/
abbrev W64 := BitVec 64

/-- A code address, 48 bits (spec/02 R35). -/
abbrev Addr48 := BitVec 48

end Sys2Proof
end

