-- ==== Sys2Proof/Syntax.lean ====
section
/-! DEFINITION. The syntax: operands, modifiers and the one inductive `Instr`, a constructor for every row of the
opcode table. Rows 0 to 143 are instructions of Fenryn (spec/06 R93, R98); rows 144 to 221 are the part's other
steps, each whole and indivisible (spec/95), whose parameters say at which unit the step happens. -/

namespace Sys2Proof

/-! ## Operands -/

/-- The read-only special values, codes 0x1C0 to 0x1CF in order (spec/04 R80). -/
inductive Special
  | zero | ones | homelane | quadlane | homewarp | threadid | blockid | clusterid
  | dieid | coreid | gtlo | gthi | depth | helper | spawned | nthreads
  deriving DecidableEq, Repr, Inhabited

/-- An operand named by a 10-bit code (spec/04 R78). A literal carries its 32 bits from the literal slot (R83). -/
inductive Operand
  | v (i : Fin 384)
  | k (i : Fin 64)
  | sp (x : Special)
  | s (i : Fin 64)
  | g (i : Fin 64)
  | p (i : Fin 8)
  | t (i : Fin 192)
  | lit (x : W32)
  | none
  deriving DecidableEq, Repr, Inhabited

/-- The predicate of a word: PNEG and PIDX (spec/04 R75, R76). -/
structure Guard where
  neg : Bool
  idx : Fin 8
  deriving DecidableEq, Repr, Inhabited

/-- The four operand fields of a word (spec/04 R75). -/
structure Ops where
  d : Operand
  a : Operand
  b : Operand
  c : Operand
  deriving DecidableEq, Repr, Inhabited

/-! ## Modifiers -/

/-- Scopes 0 to 5 (spec/06 R95). -/
inductive Scope
  | warp | block | cluster | die | device | system
  deriving DecidableEq, Repr, Inhabited

/-- The RM field of a word: a rounding mode, or 7 for the mode register's (spec/06 R96). -/
inductive Rm
  | rne | rz | ru | rd | rna | rs | mode
  deriving DecidableEq, Repr, Inhabited

/-- Element formats, codes 0 to 13 (spec/03 R43). -/
inductive Fmt
  | fp32 | bf16 | fp16 | e4m3 | e5m2 | e3m2 | e2m3 | int8 | uint8 | int4 | int32 | uint32 | aq64 | fp64
  deriving DecidableEq, Repr, Inhabited

/-- Integer comparisons of ITEST, codes 0 to 5 (spec/06 R98). -/
inductive ICmp
  | eq | ne | lt | le | gt | ge
  deriving DecidableEq, Repr, Inhabited

/-- Comparisons of WAITW and PARK, codes 0 to 5 (spec/06 R98). -/
inductive WCmp
  | eq | ne | ge | gt | le | lt
  deriving DecidableEq, Repr, Inhabited

/-- Comparisons of FTEST, codes 0 to 13 (spec/08 R130). -/
inductive FCmp
  | eq | ne | lt | le | gt | ge | num | nan | equ | neu | ltu | leu | gtu | geu
  deriving DecidableEq, Repr, Inhabited

/-- XM of QSWAP, codes 1 to 3 (spec/06 R98). -/
inductive SwapMode
  | x | y | xy
  deriving DecidableEq, Repr, Inhabited

/-- Modes of WSHFL (spec/06 R98). -/
inductive ShflMode
  | idx | up | down | xor
  deriving DecidableEq, Repr, Inhabited

/-- Modes of VOTE (spec/06 R98). -/
inductive VoteMode
  | all | any | uni | bal
  deriving DecidableEq, Repr, Inhabited

/-- Operations of WRED and WSCAN, codes 0 to 10 (spec/06 R98). -/
inductive RedOp
  | iadd | imin | imax | umin | umax | and | or | xor | fadd | fmin | fmax
  deriving DecidableEq, Repr, Inhabited

/-- Access sizes, codes 0 to 6 (spec/13 R227). -/
inductive MemSize
  | b32 | b64 | b128 | u8 | s8 | u16 | s16
  deriving DecidableEq, Repr, Inhabited

/-- Operations of ATOM and RED, codes 0 to 10 (spec/13 R229). -/
inductive AtomOp
  | iadd | exch | imin | imax | umin | umax | and | or | xor | fadd | aq64
  deriving DecidableEq, Repr, Inhabited

/-- ORD of the atomics, codes 0 to 3 (spec/06 R98). -/
inductive AtomOrd
  | none | acq | rel | acqrel
  deriving DecidableEq, Repr, Inhabited

/-- Streams of a pair (spec/13 R238). -/
inductive Fifo
  | a | b | m
  deriving DecidableEq, Repr, Inhabited

/-- Tile levels (spec/11 R186). -/
inductive TileLevel
  | core | pair | cluster
  deriving DecidableEq, Repr, Inhabited

/-- Group sizes of MMAQ, codes 1 to 3 (spec/06 R98). -/
inductive GroupSize
  | g32 | g64 | g128
  deriving DecidableEq, Repr, Inhabited

/-- Functions of TACT, codes 0 to 4 (spec/15 R269). -/
inductive ActFn
  | relu | gelu | silu | exp | square
  deriving DecidableEq, Repr, Inhabited

/-- Barrier levels (spec/10 R171). -/
inductive BarLevel
  | warp | block | cluster | grid
  deriving DecidableEq, Repr, Inhabited

/-- What TLBINV drops (spec/24 R368): a page of 64 KiB, 2 MiB or 1 GiB, an address space, everything. -/
inductive TlbWhat
  | page64k | page2m | page1g | ctx | all
  deriving DecidableEq, Repr, Inhabited

/-- Special registers by name (spec/02 R31). -/
inductive SReg
  | mode | trapv | rsb | seed | pondt | th (i : Fin 4)
  | gt | acwin | gstat | fault (i : Fin 4) | launch
  | ktrapv | lease | poolmin | poolcap | priv
  deriving DecidableEq, Repr, Inhabited

/-- The two control ports (spec/26 R377). -/
inductive Port
  | ucie | pcie
  deriving DecidableEq, Repr, Inhabited

/-- An agent that can hold a semaphore (spec/26 R378): a control port, or the firmware of a die. -/
inductive Agent
  | port (p : Port)
  | firmware (die : Fin 8)
  deriving DecidableEq, Repr, Inhabited

/-- How a host names an address (spec/26 R380, R381): physically, which is BAR4 of the PCIe port too, or by an offset of
the PCIe port's BAR0 or BAR2. -/
inductive HostAddr
  | phys (pa : Nat)
  | bar0 (off : Nat)
  | bar2 (off : Nat)
  deriving DecidableEq, Repr, Inhabited

/-- A cache that holds leases: a core's L1, or a die's L2 for lines homed elsewhere (spec/12 R204). -/
inductive CacheId
  | l1 (core : Nat)
  | l2 (die : Nat)
  /-- What a copy engine holds of its source lines (spec/12 R212, R214): core, and engine 0 or 1. -/
  | engine (core : Nat) (eng : Bool)
  deriving DecidableEq, Repr, Inhabited

/-- Where an element of storage stands, for the machine-check log (spec/26 R370, R374). -/
inductive Site
  | mem (granule : Nat)                        -- 32-byte granule of a home slice, by number
  | hbm (granule : Nat)                        -- 64-byte granule of an HBM base die, by number
  | dram (granule : Nat)                       -- the same bytes in the HBM5 DRAM dies
  | l1 (core dword : Nat)                      -- 8 bytes of a core's L1, by the number of the doubleword held there
  | icache (core dword : Nat)                  -- the same of a core's instruction cache
  | window (dword : Nat)                       -- 8-byte word of a coherent host window, by number
  | lane (laneKey : Nat) (operand : Operand)   -- 64 bits of the register files, by a register of the granule
  | loaded (laneKey : Nat) (operand : Operand) -- data in a register that arrived with a failing code (spec/26 R371)
  | tile (core handle dword : Nat)
  | acc (pair row col : Nat)
  | fifo (pair stream : Nat) (which : Fifo) (word : Nat)  -- a 64-bit word, counted from the stream's head
  | firmware (die word : Nat)
  | link (hop die : Nat)                       -- a link that a die's end detects errors on
  deriving DecidableEq, Repr, Inhabited

/-- An entry of a die's Fenlink route table: die, peer, and the ranges of the peer that its grant covers (spec/23
R350). -/
abbrev RouteEntry := Nat × Nat × List (Nat × Nat)

/-! ## Instructions and events -/

/-- Every row of the opcode table. -/
inductive Instr
  -- integer, bit and predicate instructions (spec/07)
  | nop (g : Guard)
  | mov (g : Guard) (o : Ops)
  | iadd (g : Guard) (o : Ops)
  | isub (g : Guard) (o : Ops)
  | imul (g : Guard) (o : Ops)
  | imulh (g : Guard) (o : Ops) (u : Bool)
  | imad (g : Guard) (o : Ops)
  | imadw (g : Guard) (o : Ops) (u : Bool)
  | iadd64 (g : Guard) (o : Ops)
  | lea (g : Guard) (o : Ops)
  | ineg (g : Guard) (o : Ops)
  | iabs (g : Guard) (o : Ops)
  | imin (g : Guard) (o : Ops) (u : Bool)
  | imax (g : Guard) (o : Ops) (u : Bool)
  | idiv (g : Guard) (o : Ops) (u : Bool)
  | irem (g : Guard) (o : Ops) (u : Bool)
  | shl (g : Guard) (o : Ops)
  | shr (g : Guard) (o : Ops) (u : Bool)
  | rot (g : Guard) (o : Ops) (r : Bool)
  | and (g : Guard) (o : Ops)
  | or (g : Guard) (o : Ops)
  | xor (g : Guard) (o : Ops)
  | andn (g : Guard) (o : Ops)
  | bfe (g : Guard) (o : Ops) (u : Bool)
  | bfi (g : Guard) (o : Ops)
  | popc (g : Guard) (o : Ops)
  | clz (g : Guard) (o : Ops)
  | brev (g : Guard) (o : Ops)
  | bswz (g : Guard) (o : Ops)
  | itest (g : Guard) (o : Ops) (u : Bool) (cmp : ICmp)
  | mux (g : Guard) (o : Ops)
  | plut (g : Guard) (o : Ops) (lut : BitVec 8)
  -- floating-point, conversion and quantisation instructions (spec/08)
  | fadd (g : Guard) (o : Ops) (rm : Rm)
  | fsub (g : Guard) (o : Ops) (rm : Rm)
  | fmul (g : Guard) (o : Ops) (rm : Rm)
  | ffma (g : Guard) (o : Ops) (rm : Rm)
  | fmin (g : Guard) (o : Ops) (nan : Bool)
  | fmax (g : Guard) (o : Ops) (nan : Bool)
  | ftest (g : Guard) (o : Ops) (cmp : FCmp)
  | fclass (g : Guard) (o : Ops) (mask : BitVec 10)
  | frcp (g : Guard) (o : Ops) (rm : Rm)
  | frsq (g : Guard) (o : Ops) (rm : Rm)
  | fsqrt (g : Guard) (o : Ops) (rm : Rm)
  | fexp2 (g : Guard) (o : Ops) (rm : Rm)
  | flog2 (g : Guard) (o : Ops) (rm : Rm)
  | fsinpi (g : Guard) (o : Ops) (rm : Rm)
  | fcospi (g : Guard) (o : Ops) (rm : Rm)
  | fdiv (g : Guard) (o : Ops) (rm : Rm)
  | frnd (g : Guard) (o : Ops) (rm : Rm)
  | fscale (g : Guard) (o : Ops) (rm : Rm)
  | hadd2 (g : Guard) (o : Ops) (bf : Bool) (rm : Rm)
  | hmul2 (g : Guard) (o : Ops) (bf : Bool) (rm : Rm)
  | hfma2 (g : Guard) (o : Ops) (bf : Bool) (rm : Rm)
  | hdot2 (g : Guard) (o : Ops) (bf : Bool) (rm : Rm)
  | cvt (g : Guard) (o : Ops) (dst src : Fmt) (rm : Rm)
  | f2i (g : Guard) (o : Ops) (dst src : Fmt) (rm : Rm)
  | i2f (g : Guard) (o : Ops) (u : Bool) (rm : Rm)
  | pack (g : Guard) (o : Ops) (fmt : Fmt) (rm : Rm)
  | unpack (g : Guard) (o : Ops) (idx : Fin 8) (fmt : Fmt)
  | qnt (g : Guard) (o : Ops) (asym : Bool) (fmt : Fmt) (rm : Rm)
  | dqnt (g : Guard) (o : Ops) (asym : Bool) (fmt : Fmt) (rm : Rm)
  | fabsmax (g : Guard) (o : Ops)
  -- special registers and predicate sets (spec/07 R121, R122)
  | movsrRead (g : Guard) (o : Ops) (sr : SReg)
  | movsrWrite (g : Guard) (o : Ops) (sr : SReg)
  | movpRead (g : Guard) (o : Ops)
  | movpWrite (g : Guard) (o : Ops)
  -- exchanges (spec/10 R180 to R184; V2S spec/07 R123)
  | qswap (g : Guard) (o : Ops) (xm : SwapMode)
  | qbcast (g : Guard) (o : Ops) (src : Fin 4)
  | wshfl (g : Guard) (o : Ops) (mode : ShflMode)
  | vote (g : Guard) (o : Ops) (mode : VoteMode)
  | wred (g : Guard) (o : Ops) (op : RedOp)
  | wscan (g : Guard) (o : Ops) (excl : Bool) (op : RedOp)
  | wmatch (g : Guard) (o : Ops)
  | elect (g : Guard) (o : Ops)
  | v2s (g : Guard) (o : Ops)
  -- guarded reals (spec/16)
  | gld (g : Guard) (o : Ops) (disp : BitVec 10) (f64 : Bool)
  | gmov (g : Guard) (o : Ops)
  | gadd (g : Guard) (o : Ops)
  | gsub (g : Guard) (o : Ops)
  | gmul (g : Guard) (o : Ops)
  | gneg (g : Guard) (o : Ops)
  | gsqr (g : Guard) (o : Ops)
  | gsgn (g : Guard) (o : Ops)
  | gcmp (g : Guard) (o : Ops)
  | gmid (g : Guard) (o : Ops) (rm : Rm)
  | gbnd (g : Guard) (o : Ops)
  | gsever (g : Guard) (o : Ops)
  | gdrop (g : Guard) (o : Ops)
  | gstat (g : Guard) (o : Ops) (clr : Bool)
  -- memory, atomics, copies and tiles (spec/13)
  | ld (g : Guard) (o : Ops) (disp : BitVec 10) (acq : Option Scope) (size : MemSize)
  | st (g : Guard) (o : Ops) (disp : BitVec 10) (rel : Option Scope) (size : MemSize)
  | ldt (g : Guard) (o : Ops) (size : MemSize)
  | stt (g : Guard) (o : Ops) (size : MemSize)
  | atom (g : Guard) (o : Ops) (scope : Scope) (ord : AtomOrd) (w64 : Bool) (op : AtomOp)
  | atomcas (g : Guard) (o : Ops) (scope : Scope) (ord : AtomOrd) (w64 : Bool)
  | red (g : Guard) (o : Ops) (scope : Scope) (rel : Bool) (w64 : Bool) (op : AtomOp)
  | fence (g : Guard) (o : Ops) (scope : Scope)
  | waitw (g : Guard) (o : Ops) (scope : Scope) (w64 : Bool) (cmp : WCmp)
  | copy (g : Guard) (o : Ops) (scope : Scope) (w64 : Bool) (eng : Bool) (store : Bool)
  | gather (g : Guard) (o : Ops) (scope : Scope) (w64 : Bool)
  | scatter (g : Guard) (o : Ops) (scope : Scope) (w64 : Bool)
  | feed (g : Guard) (o : Ops) (tr : Bool) (fifo : Fifo)
  | pref (g : Guard) (o : Ops) (disp : BitVec 10) (l2 : Bool)
  | talloc (g : Guard) (o : Ops) (fmt : Fmt) (lvl : TileLevel)
  | tfree (g : Guard) (o : Ops)
  | tinfo (g : Guard) (o : Ops)
  | ttag (g : Guard) (o : Ops)
  | ttagW (g : Guard) (o : Ops)
  | flush (g : Guard) (o : Ops)
  -- the matrix engine (spec/14)
  | mxwin (g : Guard) (o : Ops)
  | mxzero (g : Guard) (o : Ops)
  | mma (g : Guard) (o : Ops) (fa fb : Fmt)
  | mmaq (g : Guard) (o : Ops) (grp : GroupSize) (fa fb : Fmt)
  | mxld (g : Guard) (o : Ops)
  | mxst (g : Guard) (o : Ops)
  | mxdrain (g : Guard) (o : Ops) (amax : Option Scope) (add haar : Bool) (fmt : Fmt) (rm : Rm)
  -- tile operations (spec/15)
  | tadd (g : Guard) (o : Ops) (rm : Rm)
  | tscale (g : Guard) (o : Ops) (rm : Rm)
  | taxpy (g : Guard) (o : Ops) (rm : Rm)
  | tact (g : Guard) (o : Ops) (fn : ActFn) (rm : Rm)
  | tmul (g : Guard) (o : Ops) (rm : Rm)
  | trowred (g : Guard) (o : Ops) (max : Bool) (rm : Rm)
  | hfwd (g : Guard) (o : Ops) (lev : Fin 6) (rm : Rm)
  | hinv (g : Guard) (o : Ops) (lev : Fin 6) (rm : Rm)
  | hthr (g : Guard) (o : Ops) (th : Fin 4)
  | tnorm (g : Guard) (o : Ops) (rm : Rm)
  | tcvt (g : Guard) (o : Ops) (fmt : Fmt) (rm : Rm)
  -- control (spec/10, spec/17)
  | bra (g : Guard) (off : BitVec 30) (y : Bool)
  | brx (g : Guard) (o : Ops) (y : Bool)
  | call (g : Guard) (off : BitVec 30)
  | callx (g : Guard) (o : Ops)
  | ret (g : Guard)
  | exit (g : Guard)
  | meet (g : Guard) (off : BitVec 30)
  | bar (g : Guard) (idx : Fin 16) (level : BarLevel)
  | spawn (g : Guard) (off : BitVec 30) (d : Operand) (narg : Fin 9) (t : Bool)
  | park (g : Guard) (o : Ops) (scope : Scope) (w64 : Bool) (cmp : WCmp) (t : Bool)
  | fetcht (g : Guard) (o : Ops)
  | trap (g : Guard) (code : BitVec 12)
  | bkpt (g : Guard) (code : BitVec 12)
  -- system (spec/24)
  | rtt (g : Guard)
  | srwr (g : Guard) (o : Ops) (sr : SReg)
  | tlbinv (g : Guard) (o : Ops) (what : TlbWhat)
  | pcfg (g : Guard) (o : Ops) (cap : Bool) (q : Fin 32)
  -- events: issue and lanes (spec/09, spec/13 R391, spec/02 R42, spec/24 R367)
  | issueGroupForm (core part : Nat)
  | progressForcedLead (core part : Nat)
  | runFaultDelivery (lane : Nat)
  | translationResolved (lane : Nat) (resolved : Bool) (entryAddr : Nat) (entry : Option W64)
  | tableWalk (core : Nat) (va : W64)
  -- events: memory (spec/12, spec/11 R199, R390)
  | loadResponse (id : Nat)
  | writeCompletionResponse (id : Nat)
  | writePerformed (id : Nat)
  | atomicPerformed (id : Nat)
  | combineBufferSend (id : Nat)
  | leaseEnd (cache : CacheId) (line : Nat)
  | eviction (cache : CacheId) (line : Nat)
  | wakeNotice (lane : Nat)
  | unwatchedReread (lane : Nat)
  | releaseStallEnd (core part path : Nat)
  | slotWaitEnd (core part path : Nat)
  -- events: tiles and engines (spec/11, spec/13, spec/14, spec/15)
  | tileClearEnd (core handle : Nat)
  | copyEngineRun (core : Nat) (eng : Bool) (n : Nat)
  | completionWrite (core : Nat) (eng : Bool)
  | fifoAppend (id : Nat)
  | mmaStart (pair : Nat)
  | mmaRetire (pair : Nat)
  | drainRun (pair : Nat) (n : Nat)
  | amaxUpdate (pair : Nat)
  | tileOpStart (core : Nat)
  | tileOpComplete (core : Nat)
  -- events: the Gecko, the log and the pond (spec/16, spec/17)
  | geckoStart (core : Nat)
  | geckoReturn (core : Nat)
  | reclaim (core : Nat)
  | pondBinTimer (core bin : Nat)
  | binToWarp (core : Nat)
  | resumeRecordTake (core : Nat)
  | eftRoundStart (launch : Nat)
  | eftTokenArrive (launch : Nat)
  | eftForward (launch : Nat)
  | eftDecide (launch : Nat)
  -- events: queues and launches (spec/23)
  | launchComplete (launch : Nat)
  | qnotify (die q : Nat) (w : W64)
  | cpPoll (die q : Nat)
  | packetDispatch (die q : Nat)
  | launchPacket (die q : Nat)
  | coreGrant (core : Nat)
  | launchPlace (die q : Nat)
  | copyPacket (die q : Nat) (idx : Nat)
  | dependPacket (die q : Nat) (idx : Nat)
  | sealPacket (die q : Nat) (idx : Nat)
  | flushPacket (die q : Nat) (idx : Nat)
  | signalPacket (die q : Nat) (idx : Nat)
  | netwritePacket (die q : Nat) (idx : Nat)
  | netwriteReceive (capx : Nat) (va : W64) (payload : List Byte) (signal : W64) (release : Bool)
  | netwriteAck (die q : Nat) (idx : Nat)
  | flushWritebackDone (id : Nat)
  -- events: contexts and integrity (spec/24, spec/26)
  | preemptRequest (launch : Nat)
  | contextHalted (launch : Nat) (core : Option Nat)
  | flitReplay (hop : BitVec 8) (die : Nat) (replays : Fin 17)
  | linkRetrain (hop : BitVec 8) (die port : Nat) (ok : Bool) (users : List Nat)
  | scrub (site : Site)
  | createq (port : Port) (die q : Nat)
  | resetq (port : Port) (die : Nat)
  | preempt (port : Port) (die : Nat)
  | loadimg (port : Port) (die : Nat)
  | kill (port : Port) (die : Nat)
  | attest (port : Port) (die : Nat)
  | fwupdate (port : Port) (die : Nat)
  | devreset (port : Port) (die : Nat)
  -- events: ports and service (spec/26, spec/12 R218, R219, spec/01 R14)
  | semClaimRead (agent : Agent) (sem : Nat)
  | semReleaseWrite (agent : Agent) (sem : Nat) (w : W64)
  | portLinkDown (port : Port)
  | registerWrite (port : Port) (addr : HostAddr) (w : W64)
  | hostWindowWrite (port : Port) (addr : Nat) (bytes : List Byte)
  | hostAliasRead (port : Port) (addr n : Nat)
  | hostWrite (port : Port) (addr : Nat) (bytes : List Byte)
  | hostRead (port : Port) (addr : HostAddr) (n : Nat)
  | temperatureLimitReached
  | temperatureLimitCleared
  | moduleReset
  | boot (retired : List (List Nat))
  | fenlinkLinkChange (port : Nat) (up : Bool) (entries : List RouteEntry)
  deriving DecidableEq, Repr, Inhabited

end Sys2Proof
end

