-- ==== Sys2Proof/Config.lean ====
section
/-! DEFINITION. What an implementation fixes, and the free values: constants with no body, so that no proof can see
what they are. -/

namespace Sys2Proof

/-- What moves next (log entry 8): a partition path runs the next slot of its group, one of the other steps of the
opcode table happens, time passes, or a storage error strikes. -/
inductive Turn
  /-- The group on a path of a partition runs its next slot (spec/04 R73). -/
  | slot (core part path : Nat)
  /-- A step of another agent (spec/95). -/
  | event (i : Instr)
  /-- `n` ticks of GT pass; the dies' clocks then stand `skew` ticks ahead of the slowest (spec/01 R13). -/
  | tick (n : Nat) (skew : List (Fin 3))
  /-- A granule is struck by an error, correctable or not, with its syndrome (spec/26 R370). -/
  | upset (site : Site) (unc : Bool) (synd : W32)
  deriving DecidableEq, Repr, Inhabited

/-- Which step comes next, for each number of turns taken: R151 leaves every interleaving open (log entry 8). -/
opaque Config.turn : Nat → Turn

/-- Free values, a fresh one for each number: values the spec leaves open (log entries 9, 10). -/
opaque Config.free : Nat → W64

/-- The rounded result of a function of spec/08 R133 or spec/15 R269 whose enclosures settle at no precision the model
tries, by function and operand (log entry 11). -/
opaque Config.unsettled : Nat → W32 → W32

/-- The home die of a line, by boot number and line number: a hash firmware fixes at boot (spec/12 R392). -/
opaque Config.homeDie : Nat → Nat → Fin 8

/-- The slice of an L2 that holds a line, by boot number and line number: the same hash's (spec/12 R392, spec/01 R15). -/
opaque Config.slice : Nat → Nat → Fin 32

/-- SR.KTRAPV as firmware sets it at each launch (spec/02 R42). -/
opaque Config.firmwareKtrapv : W64

/-- The table root that firmware binds to a capability index when it first creates a queue for it (spec/24 R366). -/
opaque Config.root : Nat → Nat

/-- SHA3-512 of some bytes (spec/26 R384, R385). -/
opaque Config.sha3 : List Byte → BitVec 512

/-- The public key, the version and the signature that a firmware image carries, whose places in it the spec does not
give (spec/26 R384). -/
opaque Config.imageKey : List Byte → BitVec 20736
/-- The version of a firmware image. -/
opaque Config.imageVersion : List Byte → W64
/-- The signature of a firmware image. -/
opaque Config.imageSignature : List Byte → BitVec 37016

/-- Does an ML-DSA-87 signature over a digest verify under a public key (spec/26 R384)? -/
opaque Config.mlDsaVerifies : BitVec 20736 → BitVec 512 → BitVec 37016 → Bool

/-- The SHA3-512 digests of public keys that the fuses hold: the first four count (spec/26 R384). -/
opaque Config.fusedKeys : List (BitVec 512)

/-- The bytes of the fuse contents, by the fused minimum version (spec/26 R385). -/
opaque Config.fuseContents : W64 → List Byte

/-- The bytes of the repair maps: the physical cluster each die has retired, and the spare rows each stack has used
(spec/26 R385 to R387). -/
opaque Config.repairMaps : List (Option Nat) → List (Nat × Nat) → List Byte

/-- The module's serial number (spec/26 R385). -/
opaque Config.serial : BitVec 128

/-- The host die's signature over a digest, with the module's identity key (spec/26 R385). -/
opaque Config.identitySignature : BitVec 512 → BitVec 37016

/-- The firmware image that a die holds before any FWUPDATE; 8 is the host die (spec/26 R384). -/
opaque Config.factoryFirmware : Nat → List Byte

/-- The HBM row that a 64-byte granule lies in, by the granule's number (spec/26 R387). -/
opaque Config.rowOf : Nat → Nat

/-- The HBM stack of a row, and the spare rows of a stack (spec/26 R387). -/
opaque Config.stackOf : Nat → Nat
/-- The spare rows of a stack. -/
opaque Config.spareRows : Nat → Nat

/-- Where firmware places a context image, by the image's number (spec/24 R356; spec/26 R382). -/
opaque Config.imageAddr : Nat → Nat

/-- Cores of the module (spec/01 R11). -/
def Config.cores : Nat := 1536

/-- Dies of the module (spec/01 R10). -/
def Config.dies : Nat := 8

/-- Bytes of HBM, 1 TiB (spec/26 R381). -/
def Config.hbmBytes : Nat := 0x10000000000

/-- What a byte of memory reads as that nothing has written (log entry 4). -/
def Config.unwritten : Byte := 0

end Sys2Proof
end

