-- ==== Sys2Proof/Decode.lean ====
section
/-! DEFINITION. Decoding of instruction words, total on any bits and rejecting by name (spec/04 R75 to R85, spec/06
R93 to R100), and the encoder. -/

namespace Sys2Proof

/-! ## The fields of a word -/

/-- The fields of an instruction word as R75 lays them out. -/
structure RawWord where
  opc : BitVec 8
  d : BitVec 10
  a : BitVec 10
  b : BitVec 10
  c : BitVec 10
  pneg : BitVec 1
  pidx : BitVec 3
  mod : BitVec 12
  deriving DecidableEq, Repr

/-- Bits of a word into fields (R75). -/
def RawWord.ofWord (w : W64) : RawWord where
  opc := w.extractLsb' 56 8
  d := w.extractLsb' 46 10
  a := w.extractLsb' 36 10
  b := w.extractLsb' 26 10
  c := w.extractLsb' 16 10
  pneg := w.extractLsb' 15 1
  pidx := w.extractLsb' 12 3
  mod := w.extractLsb' 0 12

/-- Fields into the bits of a word (R75). -/
def RawWord.toWord (r : RawWord) : W64 :=
  (r.opc ++ r.d ++ r.a ++ r.b ++ r.c ++ r.pneg ++ r.pidx ++ r.mod).cast rfl

/-- The 30 bits of a branch offset, [45:16] (R84). -/
def RawWord.off (r : RawWord) : BitVec 30 := (r.a ++ r.b ++ r.c).cast rfl

/-- The predicate of a word (R76). -/
def RawWord.guard (r : RawWord) : Guard where
  neg := r.pneg = 1
  idx := r.pidx.toFin

/-! ## Operand codes (R78) -/

/-- The special value of each code 0x1C0 to 0x1CF (R80). -/
def Special.ofIndex : Nat → Option Special
  | 0 => some .zero | 1 => some .ones | 2 => some .homelane | 3 => some .quadlane
  | 4 => some .homewarp | 5 => some .threadid | 6 => some .blockid | 7 => some .clusterid
  | 8 => some .dieid | 9 => some .coreid | 10 => some .gtlo | 11 => some .gthi
  | 12 => some .depth | 13 => some .helper | 14 => some .spawned | 15 => some .nthreads
  | _ => none

/-- The offset of a special value's code from 0x1C0 (R80). -/
def Special.index : Special → Nat
  | .zero => 0 | .ones => 1 | .homelane => 2 | .quadlane => 3
  | .homewarp => 4 | .threadid => 5 | .blockid => 6 | .clusterid => 7
  | .dieid => 8 | .coreid => 9 | .gtlo => 10 | .gthi => 11
  | .depth => 12 | .helper => 13 | .spawned => 14 | .nthreads => 15

/-- The operand of a 10-bit code, `none` for the codes R78 leaves undefined. A literal's value comes later (R83). -/
def Operand.ofCode (x : BitVec 10) : Option Operand :=
  let n := x.toNat
  if h : n < 384 then some (.v ⟨n, h⟩)
  else if h : n - 384 < 64 then some (.k ⟨n - 384, h⟩)
  else if n < 0x1D0 then (Special.ofIndex (n - 0x1C0)).map .sp
  else if n < 0x200 then Option.none
  else if h : n - 0x200 < 64 then some (.s ⟨n - 0x200, h⟩)
  else if h : n - 0x240 < 64 then some (.g ⟨n - 0x240, h⟩)
  else if h : n - 0x280 < 8 then some (.p ⟨n - 0x280, h⟩)
  else if n < 0x2C0 then Option.none
  else if h : n - 0x2C0 < 192 then some (.t ⟨n - 0x2C0, h⟩)
  else if n = 0x3FE then some (.lit 0)
  else if n = 0x3FF then some .none
  else Option.none

/-- The 10-bit code of an operand (R78). -/
def Operand.code : Operand → BitVec 10
  | .v i => BitVec.ofNat 10 i.val
  | .k i => BitVec.ofNat 10 (384 + i.val)
  | .sp x => BitVec.ofNat 10 (0x1C0 + x.index)
  | .s i => BitVec.ofNat 10 (0x200 + i.val)
  | .g i => BitVec.ofNat 10 (0x240 + i.val)
  | .p i => BitVec.ofNat 10 (0x280 + i.val)
  | .t i => BitVec.ofNat 10 (0x2C0 + i.val)
  | .lit _ => 0x3FE
  | .none => 0x3FF

/-- Is the operand a literal? -/
def Operand.isLit : Operand → Bool
  | .lit _ => true
  | _ => false

/-! ## Modifier codes (spec/06 R95 to R98) -/

/-- Scope codes (R95). -/
def Scope.ofCode : Nat → Option Scope
  | 0 => some .warp | 1 => some .block | 2 => some .cluster | 3 => some .die
  | 4 => some .device | 5 => some .system | _ => none

/-- Scope codes (R95). -/
def Scope.code : Scope → Nat
  | .warp => 0 | .block => 1 | .cluster => 2 | .die => 3 | .device => 4 | .system => 5

/-- Rounding codes; 6 is reserved (R96). -/
def Rm.ofCode : Nat → Option Rm
  | 0 => some .rne | 1 => some .rz | 2 => some .ru | 3 => some .rd | 4 => some .rna
  | 5 => some .rs | 7 => some .mode | _ => none

/-- Rounding codes (R96). -/
def Rm.code : Rm → Nat
  | .rne => 0 | .rz => 1 | .ru => 2 | .rd => 3 | .rna => 4 | .rs => 5 | .mode => 7

/-- Format codes; 14 and 15 are reserved (R97, spec/03 R43). -/
def Fmt.ofCode : Nat → Option Fmt
  | 0 => some .fp32 | 1 => some .bf16 | 2 => some .fp16 | 3 => some .e4m3 | 4 => some .e5m2
  | 5 => some .e3m2 | 6 => some .e2m3 | 7 => some .int8 | 8 => some .uint8 | 9 => some .int4
  | 10 => some .int32 | 11 => some .uint32 | 12 => some .aq64 | 13 => some .fp64 | _ => none

/-- Format codes (spec/03 R43). -/
def Fmt.code : Fmt → Nat
  | .fp32 => 0 | .bf16 => 1 | .fp16 => 2 | .e4m3 => 3 | .e5m2 => 4 | .e3m2 => 5 | .e2m3 => 6
  | .int8 => 7 | .uint8 => 8 | .int4 => 9 | .int32 => 10 | .uint32 => 11 | .aq64 => 12 | .fp64 => 13

/-- ITEST's comparison codes (R98). -/
def ICmp.ofCode : Nat → Option ICmp
  | 0 => some .eq | 1 => some .ne | 2 => some .lt | 3 => some .le | 4 => some .gt | 5 => some .ge
  | _ => none

/-- ITEST's comparison codes (R98). -/
def ICmp.code : ICmp → Nat
  | .eq => 0 | .ne => 1 | .lt => 2 | .le => 3 | .gt => 4 | .ge => 5

/-- WAITW's and PARK's comparison codes (R98). -/
def WCmp.ofCode : Nat → Option WCmp
  | 0 => some .eq | 1 => some .ne | 2 => some .ge | 3 => some .gt | 4 => some .le | 5 => some .lt
  | _ => none

/-- WAITW's and PARK's comparison codes (R98). -/
def WCmp.code : WCmp → Nat
  | .eq => 0 | .ne => 1 | .ge => 2 | .gt => 3 | .le => 4 | .lt => 5

/-- FTEST's comparison codes (spec/08 R130). -/
def FCmp.ofCode : Nat → Option FCmp
  | 0 => some .eq | 1 => some .ne | 2 => some .lt | 3 => some .le | 4 => some .gt | 5 => some .ge
  | 6 => some .num | 7 => some .nan | 8 => some .equ | 9 => some .neu | 10 => some .ltu
  | 11 => some .leu | 12 => some .gtu | 13 => some .geu | _ => none

/-- FTEST's comparison codes (spec/08 R130). -/
def FCmp.code : FCmp → Nat
  | .eq => 0 | .ne => 1 | .lt => 2 | .le => 3 | .gt => 4 | .ge => 5 | .num => 6 | .nan => 7
  | .equ => 8 | .neu => 9 | .ltu => 10 | .leu => 11 | .gtu => 12 | .geu => 13

/-- QSWAP's XM; 0 is reserved (R98). -/
def SwapMode.ofCode : Nat → Option SwapMode
  | 1 => some .x | 2 => some .y | 3 => some .xy | _ => none

/-- QSWAP's XM (R98). -/
def SwapMode.code : SwapMode → Nat
  | .x => 1 | .y => 2 | .xy => 3

/-- WSHFL's modes (R98). -/
def ShflMode.ofCode : Nat → Option ShflMode
  | 0 => some .idx | 1 => some .up | 2 => some .down | 3 => some .xor | _ => none

/-- WSHFL's modes (R98). -/
def ShflMode.code : ShflMode → Nat
  | .idx => 0 | .up => 1 | .down => 2 | .xor => 3

/-- VOTE's modes (R98). -/
def VoteMode.ofCode : Nat → Option VoteMode
  | 0 => some .all | 1 => some .any | 2 => some .uni | 3 => some .bal | _ => none

/-- VOTE's modes (R98). -/
def VoteMode.code : VoteMode → Nat
  | .all => 0 | .any => 1 | .uni => 2 | .bal => 3

/-- Operations of WRED and WSCAN (R98). -/
def RedOp.ofCode : Nat → Option RedOp
  | 0 => some .iadd | 1 => some .imin | 2 => some .imax | 3 => some .umin | 4 => some .umax
  | 5 => some .and | 6 => some .or | 7 => some .xor | 8 => some .fadd | 9 => some .fmin
  | 10 => some .fmax | _ => none

/-- Operations of WRED and WSCAN (R98). -/
def RedOp.code : RedOp → Nat
  | .iadd => 0 | .imin => 1 | .imax => 2 | .umin => 3 | .umax => 4 | .and => 5 | .or => 6
  | .xor => 7 | .fadd => 8 | .fmin => 9 | .fmax => 10

/-- SIZE; 7 is reserved (spec/13 R227). -/
def MemSize.ofCode : Nat → Option MemSize
  | 0 => some .b32 | 1 => some .b64 | 2 => some .b128 | 3 => some .u8 | 4 => some .s8
  | 5 => some .u16 | 6 => some .s16 | _ => none

/-- SIZE (spec/13 R227). -/
def MemSize.code : MemSize → Nat
  | .b32 => 0 | .b64 => 1 | .b128 => 2 | .u8 => 3 | .s8 => 4 | .u16 => 5 | .s16 => 6

/-- Is the size one a store may have? `.S8` and `.S16` are reserved in ST and STT (spec/13 R227). -/
def MemSize.storable : MemSize → Bool
  | .s8 => false | .s16 => false | _ => true

/-- Operations of ATOM and RED (spec/13 R229). -/
def AtomOp.ofCode : Nat → Option AtomOp
  | 0 => some .iadd | 1 => some .exch | 2 => some .imin | 3 => some .imax | 4 => some .umin
  | 5 => some .umax | 6 => some .and | 7 => some .or | 8 => some .xor | 9 => some .fadd
  | 10 => some .aq64 | _ => none

/-- Operations of ATOM and RED (spec/13 R229). -/
def AtomOp.code : AtomOp → Nat
  | .iadd => 0 | .exch => 1 | .imin => 2 | .imax => 3 | .umin => 4 | .umax => 5 | .and => 6
  | .or => 7 | .xor => 8 | .fadd => 9 | .aq64 => 10

/-- ORD of the atomics (R98). -/
def AtomOrd.ofCode : Nat → Option AtomOrd
  | 0 => some .none | 1 => some .acq | 2 => some .rel | 3 => some .acqrel | _ => Option.none

/-- ORD of the atomics (R98). -/
def AtomOrd.code : AtomOrd → Nat
  | .none => 0 | .acq => 1 | .rel => 2 | .acqrel => 3

/-- FIFO; 3 is reserved (R98). -/
def Fifo.ofCode : Nat → Option Fifo
  | 0 => some .a | 1 => some .b | 2 => some .m | _ => none

/-- FIFO (R98). -/
def Fifo.code : Fifo → Nat
  | .a => 0 | .b => 1 | .m => 2

/-- Tile levels; 3 is reserved (R98). -/
def TileLevel.ofCode : Nat → Option TileLevel
  | 0 => some .core | 1 => some .pair | 2 => some .cluster | _ => none

/-- Tile levels (R98). -/
def TileLevel.code : TileLevel → Nat
  | .core => 0 | .pair => 1 | .cluster => 2

/-- GRP; 0 is reserved (R98). -/
def GroupSize.ofCode : Nat → Option GroupSize
  | 1 => some .g32 | 2 => some .g64 | 3 => some .g128 | _ => none

/-- GRP (R98). -/
def GroupSize.code : GroupSize → Nat
  | .g32 => 1 | .g64 => 2 | .g128 => 3

/-- FN of TACT (R98). -/
def ActFn.ofCode : Nat → Option ActFn
  | 0 => some .relu | 1 => some .gelu | 2 => some .silu | 3 => some .exp | 4 => some .square
  | _ => none

/-- FN of TACT (R98). -/
def ActFn.code : ActFn → Nat
  | .relu => 0 | .gelu => 1 | .silu => 2 | .exp => 3 | .square => 4

/-- LEVEL of BAR (R98). -/
def BarLevel.ofCode : Nat → Option BarLevel
  | 0 => some .warp | 1 => some .block | 2 => some .cluster | 3 => some .grid | _ => none

/-- LEVEL of BAR (R98). -/
def BarLevel.code : BarLevel → Nat
  | .warp => 0 | .block => 1 | .cluster => 2 | .grid => 3

/-- PSZ and WHAT of TLBINV (R98). -/
def TlbWhat.ofCode : Nat → Option TlbWhat
  | 0 => some .page64k | 4 => some .page2m | 8 => some .page1g | 1 => some .ctx | 2 => some .all
  | _ => none

/-- PSZ and WHAT of TLBINV (R98). -/
def TlbWhat.code : TlbWhat → Nat
  | .page64k => 0 | .page2m => 4 | .page1g => 8 | .ctx => 1 | .all => 2

/-- Special register numbers (spec/02 R31). -/
def SReg.ofCode : Nat → Option SReg
  | 0x00 => some .mode | 0x01 => some .trapv | 0x02 => some .rsb | 0x03 => some .seed
  | 0x04 => some .pondt | 0x05 => some (.th 0) | 0x06 => some (.th 1) | 0x07 => some (.th 2)
  | 0x08 => some (.th 3) | 0x10 => some .gt | 0x11 => some .acwin | 0x12 => some .gstat
  | 0x13 => some (.fault 0) | 0x14 => some (.fault 1) | 0x15 => some (.fault 2)
  | 0x16 => some (.fault 3) | 0x17 => some .launch | 0x20 => some .ktrapv | 0x21 => some .lease
  | 0x22 => some .poolmin | 0x23 => some .poolcap | 0x24 => some .priv | _ => none

/-- Special register numbers (spec/02 R31). -/
def SReg.code : SReg → Nat
  | .mode => 0x00 | .trapv => 0x01 | .rsb => 0x02 | .seed => 0x03 | .pondt => 0x04
  | .th i => 0x05 + i.val | .gt => 0x10 | .acwin => 0x11 | .gstat => 0x12 | .fault i => 0x13 + i.val
  | .launch => 0x17 | .ktrapv => 0x20 | .lease => 0x21 | .poolmin => 0x22 | .poolcap => 0x23
  | .priv => 0x24

/-- Is the special register read-only to MOVSR (spec/02 R31)? -/
def SReg.readOnly : SReg → Bool
  | .gt => true | .acwin => true | .gstat => true | .fault _ => true | .launch => true | _ => false

/-- Is the special register privileged (spec/02 R31)? -/
def SReg.privileged : SReg → Bool
  | .ktrapv => true | .lease => true | .poolmin => true | .poolcap => true | .priv => true
  | _ => false

/-- Is the special register 64 bits wide (spec/02 R31)? -/
def SReg.wide : SReg → Bool
  | .mode => true | .trapv => true | .rsb => true | .seed => true | .gt => true | .fault _ => true
  | .ktrapv => true | _ => false

/-- The K class of a matrix format: 32, 64 or 128 elements a chunk (spec/03 R65). -/
def Fmt.kClass : Fmt → Nat
  | .bf16 => 32 | .fp16 => 32 | .int4 => 128 | _ => 64

/-- Formats 1 to 9. -/
def Fmt.isMatrix (f : Fmt) : Bool := 1 ≤ f.code && f.code ≤ 9

/-- Formats 0 to 6, the floating formats that are not FP64. -/
def Fmt.isFloat (f : Fmt) : Bool := f.code ≤ 6

/-- The conversion pairs that R59 marks F: AQ64 from anything but FP32, and AQ64 to anything but FP32 and FP64. -/
def cvtAllowed (dst src : Fmt) : Bool :=
  match src, dst with
  | .aq64, .fp32 => true
  | .aq64, .fp64 => true
  | .aq64, _ => false
  | .fp32, .aq64 => true
  | _, .aq64 => false
  | _, _ => true

/-! ## What each operand field accepts -/

/-- The kinds of operand field (spec/07 R105, spec/08 R125, spec/13 R225, spec/14, spec/15, spec/16 R295). -/
inductive FieldKind
  /-- Not an operand: bits of a displacement or an offset. -/
  | raw
  /-- Must hold NONE, or RESERVED_FIELD (R79). -/
  | unused
  /-- V, S, P, K, special value or LIT. -/
  | src32
  /-- As `src32`, or NONE. -/
  | src32Opt
  /-- V, S, K or LIT. -/
  | srcPacked
  /-- Even V or S pair, K, LIT, special value or P. -/
  | srcPair
  /-- Even V or S pair, K or LIT. -/
  | srcData
  /-- Even V or S pair. -/
  | pair
  /-- V or S, a multiple of 4, the first of four. -/
  | quad
  /-- V, S or P. -/
  | dst32
  /-- V or S. -/
  | dstReg
  /-- S only. -/
  | dstS
  /-- V only. -/
  | dstV
  /-- P only. -/
  | dstP
  /-- P or NONE. -/
  | dstPOpt
  /-- A tile handle. -/
  | handle
  /-- A tile handle or an even pair. -/
  | handleOrPair
  /-- A guarded register. -/
  | guarded
  /-- V or S, the first of a run of `n`. -/
  | run (n : Nat)
  /-- V, even, the first of a run of `n`. -/
  | evenRun (n : Nat)
  /-- As `evenRun`, or NONE. -/
  | evenRunOpt (n : Nat)
  /-- V, the first of a run of `n`. -/
  | vrun (n : Nat)
  /-- S, a multiple of 8, the first of 24. -/
  | record
  deriving DecidableEq, Repr

/-- How many registers a launch allocates: V, S and G (spec/02 R25, R26, R30). -/
structure Alloc where
  nv : Nat
  ns : Nat
  ng : Nat
  deriving DecidableEq, Repr

/-- The largest allocation. -/
def Alloc.full : Alloc := { nv := 384, ns := 64, ng := 64 }

/-- A run of `n` V or S registers from `i`, `i` a multiple of `m`, inside the allocation (R25, R26). -/
def Alloc.runOk (al : Alloc) (vOk sOk : Bool) (m n : Nat) : Operand → Bool
  | .v i => vOk && i.val % m == 0 && i.val + n ≤ al.nv
  | .s i => sOk && i.val % m == 0 && i.val + n ≤ al.ns
  | _ => false

/-- Does a field of kind `k` accept the operand under the allocation? NONE in an unused field is accepted; another
code there is RESERVED_FIELD and is found earlier. -/
def FieldKind.accepts (al : Alloc) (k : FieldKind) (o : Operand) : Bool :=
  match k with
  | .raw => true
  | .unused => o == .none
  | .src32 => scalar o || al.runOk true true 1 1 o
  | .src32Opt => o == .none || scalar o || al.runOk true true 1 1 o
  | .srcPacked => constant o || al.runOk true true 1 1 o
  | .srcPair => scalar o || al.runOk true true 2 2 o
  | .srcData => constant o || al.runOk true true 2 2 o
  | .pair => al.runOk true true 2 2 o
  | .quad => al.runOk true true 4 4 o
  | .dst32 => pred o || al.runOk true true 1 1 o
  | .dstReg => al.runOk true true 1 1 o
  | .dstS => al.runOk false true 1 1 o
  | .dstV => al.runOk true false 1 1 o
  | .dstP => pred o
  | .dstPOpt => o == .none || pred o
  | .handle => tile o
  | .handleOrPair => tile o || al.runOk true true 2 2 o
  | .guarded => match o with
    | .g i => i.val < al.ng
    | _ => false
  | .run n => al.runOk true true 1 n o
  | .evenRun n => al.runOk true false 2 n o
  | .evenRunOpt n => o == .none || al.runOk true false 2 n o
  | .vrun n => al.runOk true false 1 n o
  | .record => al.runOk false true 8 24 o
where
  constant : Operand → Bool
    | .k _ => true | .lit _ => true | _ => false
  pred : Operand → Bool
    | .p _ => true | _ => false
  tile : Operand → Bool
    | .t _ => true | _ => false
  scalar : Operand → Bool
    | .k _ => true | .lit _ => true | .p _ => true | .sp _ => true | _ => false

/-- The kinds of the four fields of a word. -/
structure Shape where
  d : FieldKind
  a : FieldKind
  b : FieldKind
  c : FieldKind
  deriving DecidableEq, Repr

/-- The source or destination kind of a format's register (spec/08 R136). -/
def Fmt.srcKind : Fmt → FieldKind
  | .aq64 => .pair | .fp64 => .pair | _ => .src32

/-- The destination kind of a format's register (spec/08 R136). -/
def Fmt.dstKind : Fmt → FieldKind
  | .aq64 => .pair | .fp64 => .pair | _ => .dst32

/-- The destination kind of a load (spec/13 R227). -/
def MemSize.dstKind : MemSize → FieldKind
  | .b64 => .pair | .b128 => .quad | _ => .dst32

/-- The data kind of a store (spec/13 R225). -/
def MemSize.srcKind : MemSize → FieldKind
  | .b64 => .srcData | .b128 => .quad | _ => .src32

/-- The data kind of an atomic (spec/13 R225). -/
def wordSrc (w64 : Bool) : FieldKind := if w64 then .srcData else .src32

/-- The result kind of an atomic (spec/13 R225). -/
def wordDst (w64 : Bool) : FieldKind := if w64 then .pair else .dst32

/-- The kinds of an instruction's fields, from its entry. Events have no word. -/
def Instr.shape : Instr → Shape
  | .nop _ => ⟨.unused, .unused, .unused, .unused⟩
  | .mov _ _ | .ineg _ _ | .iabs _ _ | .popc _ _ | .clz _ _ | .brev _ _ => ⟨.dst32, .src32, .unused, .unused⟩
  | .iadd _ _ | .isub _ _ | .imul _ _ | .imulh _ _ _ | .imin _ _ _ | .imax _ _ _ | .idiv _ _ _ | .irem _ _ _
  | .shl _ _ | .shr _ _ _ | .rot _ _ _ | .and _ _ | .or _ _ | .xor _ _ | .andn _ _ | .itest _ _ _ _ =>
    ⟨.dst32, .src32, .src32, .unused⟩
  | .imad _ _ | .bfe _ _ _ | .bfi _ _ | .bswz _ _ | .mux _ _ => ⟨.dst32, .src32, .src32, .src32⟩
  | .imadw _ _ _ => ⟨.pair, .src32, .src32, .srcPair⟩
  | .iadd64 _ _ => ⟨.pair, .srcPair, .srcPair, .unused⟩
  | .lea _ _ => ⟨.pair, .srcPair, .src32, .src32⟩
  | .plut _ _ _ => ⟨.dst32, .src32Opt, .src32Opt, .src32Opt⟩
  | .fadd _ _ _ | .fsub _ _ _ | .fmul _ _ _ | .fmin _ _ _ | .fmax _ _ _ | .ftest _ _ _ | .fdiv _ _ _
  | .fscale _ _ _ | .fabsmax _ _ | .qnt _ _ _ _ _ | .dqnt _ _ _ _ _ => ⟨.dst32, .src32, .src32, .unused⟩
  | .ffma _ _ _ => ⟨.dst32, .src32, .src32, .src32⟩
  | .fclass _ _ _ | .frcp _ _ _ | .frsq _ _ _ | .fsqrt _ _ _ | .fexp2 _ _ _ | .flog2 _ _ _ | .fsinpi _ _ _
  | .fcospi _ _ _ | .frnd _ _ _ | .i2f _ _ _ _ => ⟨.dst32, .src32, .unused, .unused⟩
  | .unpack _ _ _ _ => ⟨.dst32, .srcPacked, .unused, .unused⟩
  | .hadd2 _ _ _ _ | .hmul2 _ _ _ _ => ⟨.dst32, .srcPacked, .srcPacked, .unused⟩
  | .hfma2 _ _ _ _ => ⟨.dst32, .srcPacked, .srcPacked, .srcPacked⟩
  | .hdot2 _ _ _ _ => ⟨.dst32, .srcPacked, .srcPacked, .src32⟩
  | .cvt _ _ dst src _ =>
    ⟨dst.dstKind, src.srcKind, if dst == .aq64 || (src == .aq64 && dst != .aq64) then .src32 else .unused, .unused⟩
  | .f2i _ _ _ src _ => ⟨.dst32, src.srcKind, .unused, .unused⟩
  | .pack _ _ _ _ => ⟨.dst32, .src32, .src32, .src32Opt⟩
  | .movsrRead _ _ sr => ⟨if sr.wide then .pair else .dst32, .unused, .unused, .unused⟩
  | .movsrWrite _ _ sr => ⟨.unused, if sr.wide then .srcPair else .src32, .unused, .unused⟩
  | .movpRead _ _ => ⟨.dstReg, .unused, .unused, .unused⟩
  | .movpWrite _ _ => ⟨.unused, .src32, .src32Opt, .unused⟩
  | .qswap _ _ _ | .qbcast _ _ _ | .vote _ _ _ | .wred _ _ _ | .wscan _ _ _ _ | .wmatch _ _ =>
    ⟨.dst32, .src32, .unused, .src32Opt⟩
  | .wshfl _ _ _ => ⟨.dst32, .src32, .src32, .src32Opt⟩
  | .elect _ _ => ⟨.dst32, .src32Opt, .unused, .unused⟩
  | .v2s _ _ => ⟨.dstS, .src32, .src32, .unused⟩
  | .gld _ _ _ _ => ⟨.guarded, .pair, .unused, .raw⟩
  | .gmov _ _ | .gneg _ _ | .gsqr _ _ => ⟨.guarded, .guarded, .unused, .unused⟩
  | .gadd _ _ | .gsub _ _ | .gmul _ _ => ⟨.guarded, .guarded, .guarded, .unused⟩
  | .gsgn _ _ => ⟨.dstP, .dstPOpt, .guarded, .unused⟩
  | .gcmp _ _ => ⟨.dstP, .dstPOpt, .guarded, .guarded⟩
  | .gmid _ _ _ => ⟨.dst32, .guarded, .unused, .unused⟩
  | .gbnd _ _ => ⟨.pair, .guarded, .unused, .unused⟩
  | .gsever _ _ | .gdrop _ _ => ⟨.guarded, .unused, .unused, .unused⟩
  | .gstat _ _ _ => ⟨.dst32, .unused, .unused, .unused⟩
  | .ld _ _ _ _ size => ⟨size.dstKind, .pair, .unused, .raw⟩
  | .st _ _ _ _ size => ⟨.unused, .pair, size.srcKind, .raw⟩
  | .ldt _ _ size => ⟨size.dstKind, .handle, .src32, .unused⟩
  | .stt _ _ size => ⟨.unused, .handle, .src32, size.srcKind⟩
  | .atom _ _ _ _ w64 _ => ⟨wordDst w64, .pair, wordSrc w64, .unused⟩
  | .atomcas _ _ _ _ w64 => ⟨wordDst w64, .pair, wordSrc w64, wordSrc w64⟩
  | .red _ _ _ _ w64 op => ⟨.unused, .pair, wordSrc w64, if op == .aq64 then .src32 else .unused⟩
  | .fence _ _ _ => ⟨.unused, .unused, .unused, .unused⟩
  | .waitw _ o _ w64 _ => ⟨.unused, .handleOrPair, wordSrc w64, match o.a with
    | .t _ => .src32
    | _ => .unused⟩
  | .copy _ _ _ _ _ _ => ⟨.handle, .record, .run 1, .evenRunOpt 3⟩
  | .gather _ _ _ _ | .scatter _ _ _ _ => ⟨.handle, .record, .evenRun 4, .evenRunOpt 3⟩
  | .feed _ _ _ _ => ⟨.unused, .handle, .src32, .src32⟩
  | .pref _ _ _ _ => ⟨.unused, .pair, .unused, .raw⟩
  | .talloc _ _ _ _ => ⟨.dst32, .handle, .src32, .src32⟩
  | .tfree _ _ => ⟨.unused, .handle, .unused, .unused⟩
  | .tinfo _ _ => ⟨.pair, .handle, .unused, .unused⟩
  | .ttag _ _ => ⟨.dst32, .handle, .unused, .unused⟩
  | .ttagW _ _ => ⟨.unused, .handle, .src32, .unused⟩
  | .flush _ _ => ⟨.unused, .pair, .src32, .unused⟩
  | .mxwin _ _ => ⟨.unused, .src32, .src32, .src32⟩
  | .mxzero _ _ => ⟨.unused, .src32, .src32, .unused⟩
  | .mma _ _ _ _ | .mmaq _ _ _ _ _ => ⟨.unused, .src32, .unused, .unused⟩
  | .mxld _ _ => ⟨.dstV, .src32, .src32, .unused⟩
  | .mxst _ _ => ⟨.unused, .src32, .src32, .src32⟩
  | .mxdrain _ _ amax _ haar _ _ =>
    ⟨.handleOrPair, .src32, if amax.isSome then .pair else .unused, if haar then .src32 else .unused⟩
  | .tadd _ _ _ | .tmul _ _ _ => ⟨.handle, .handle, .handle, .unused⟩
  | .tscale _ _ _ | .tnorm _ _ _ => ⟨.handle, .handle, .src32, .unused⟩
  | .taxpy _ _ _ => ⟨.handle, .handle, .handle, .src32⟩
  | .tact _ _ _ _ | .trowred _ _ _ _ | .hfwd _ _ _ _ | .hinv _ _ _ _ | .hthr _ _ _ | .tcvt _ _ _ _ =>
    ⟨.handle, .handle, .unused, .unused⟩
  | .bra _ _ _ | .call _ _ | .meet _ _ => ⟨.unused, .raw, .raw, .raw⟩
  | .spawn _ _ _ narg _ => ⟨if narg.val = 0 then .unused else .run narg.val, .raw, .raw, .raw⟩
  | .brx _ _ _ | .callx _ _ => ⟨.unused, .pair, .unused, .unused⟩
  | .ret _ | .exit _ | .bar _ _ _ | .trap _ _ | .bkpt _ _ | .rtt _ => ⟨.unused, .unused, .unused, .unused⟩
  | .park _ _ _ w64 _ _ => ⟨.unused, .pair, wordSrc w64, .src32⟩
  | .fetcht _ _ => ⟨.vrun 3, .unused, .unused, .unused⟩
  | .srwr _ _ sr => ⟨.unused, if sr.wide then .srcPair else .src32, .unused, .unused⟩
  | .tlbinv _ _ what => ⟨.unused, match what with
    | .page64k | .page2m | .page1g => .pair
    | .ctx | .all => .unused, .unused, .unused⟩
  | .pcfg _ _ _ _ => ⟨.unused, .src32, .unused, .unused⟩
  | _ => ⟨.unused, .unused, .unused, .unused⟩

/-! ## Opcode and MOD to instruction -/

/-- Why a word is no instruction, in the order of R41 (spec/02 R40, spec/04 R85). -/
inductive EncFault
  /-- Opcode outside its clause's class, or an operand legal only in another class. -/
  | cls (opnd : Nat)
  /-- Reserved opcode. -/
  | illegalOp
  /-- Reserved bits of the word (`info` 0) or of its literal slot (`info` 1). -/
  | reservedField (info : Nat)
  /-- An operand the field does not accept: the slot 0 D, 1 A, 2 B, 3 C, 4 special register, and the code. -/
  | illegalOperand (info : Nat) (opnd : Nat)
  deriving DecidableEq, Repr

/-- The class of an opcode: 0 ALU, 1 GRD, 2 MEM, 3 MTX, 4 CTL, 5 SYS (spec/04 R85). -/
def opcodeClass (opc : Nat) : Nat :=
  if opc < 0x60 then 0 else if opc < 0x70 then 1 else if opc < 0xA0 then 2 else if opc < 0xC0 then 3
  else if opc < 0xE0 then 4 else 5

/-- Is the opcode reserved within its class (spec/06 R93, spec/04 R85)? -/
def opcodeReserved (opc : Nat) : Bool :=
  (0x49 ≤ opc && opc < 0x60) || opc == 0x6E || opc == 0x6F || (0x83 ≤ opc && opc < 0xA0)
    || (0xB2 ≤ opc && opc < 0xC0) || (0xCD ≤ opc && opc < 0xE0) || 0xE4 ≤ opc

/-- Bits [lo+n−1 : lo] of MOD, as a number. -/
def modField (m : BitVec 12) (lo n : Nat) : Nat := (m.toNat >>> lo) % 2 ^ n

/-- A bit of MOD. -/
def modBit (m : BitVec 12) (i : Nat) : Bool := (m.toNat >>> i) % 2 == 1

/-- Are the bits of MOD from `n` upward zero? -/
def modBelow (m : BitVec 12) (n : Nat) : Bool := m.toNat < 2 ^ n

/-- What MOD gives: an instruction, RESERVED_FIELD, or an undefined or read-only special register number. -/
inductive ModResult
  | ok (i : Instr)
  | reserved
  | badSReg
  deriving DecidableEq, Repr

/-- A modifier or RESERVED_FIELD. -/
def ModResult.ofOption : Option Instr → ModResult
  | some i => .ok i
  | none => .reserved

/-- A word whose MOD has no bits. -/
def modNone (m : BitVec 12) (i : Instr) : ModResult := if m = 0 then .ok i else .reserved

/-- A word whose MOD is one flag. -/
def modFlag (m : BitVec 12) (f : Bool → Instr) : ModResult :=
  if modBelow m 1 then .ok (f (modBit m 0)) else .reserved

/-- A word whose MOD is RM alone. -/
def modRm (m : BitVec 12) (f : Rm → Instr) : ModResult :=
  if modBelow m 3 then .ofOption ((Rm.ofCode (modField m 0 3)).map f) else .reserved

/-- A word whose MOD is BF and RM. -/
def modBfRm (m : BitVec 12) (f : Bool → Rm → Instr) : ModResult :=
  if modBelow m 4 then .ofOption ((Rm.ofCode (modField m 0 3)).map (f (modBit m 3))) else .reserved

/-- The formats allowed in a field. -/
def fmtIf (p : Fmt → Bool) (n : Nat) : Option Fmt :=
  match Fmt.ofCode n with
  | some f => if p f then some f else none
  | none => none

/-- Opcodes 0x00 to 0x1F (spec/06 R98). -/
def decodeInt (opc : Nat) (g : Guard) (o : Ops) (m : BitVec 12) : ModResult :=
  match opc with
  | 0x00 => modNone m (.nop g)
  | 0x01 => modNone m (.mov g o)
  | 0x02 => modNone m (.iadd g o)
  | 0x03 => modNone m (.isub g o)
  | 0x04 => modNone m (.imul g o)
  | 0x05 => modFlag m (.imulh g o)
  | 0x06 => modNone m (.imad g o)
  | 0x07 => modFlag m (.imadw g o)
  | 0x08 => modNone m (.iadd64 g o)
  | 0x09 => modNone m (.lea g o)
  | 0x0A => modNone m (.ineg g o)
  | 0x0B => modNone m (.iabs g o)
  | 0x0C => modFlag m (.imin g o)
  | 0x0D => modFlag m (.imax g o)
  | 0x0E => modFlag m (.idiv g o)
  | 0x0F => modFlag m (.irem g o)
  | 0x10 => modNone m (.shl g o)
  | 0x11 => modFlag m (.shr g o)
  | 0x12 => modFlag m (.rot g o)
  | 0x13 => modNone m (.and g o)
  | 0x14 => modNone m (.or g o)
  | 0x15 => modNone m (.xor g o)
  | 0x16 => modNone m (.andn g o)
  | 0x17 => modFlag m (.bfe g o)
  | 0x18 => modNone m (.bfi g o)
  | 0x19 => modNone m (.popc g o)
  | 0x1A => modNone m (.clz g o)
  | 0x1B => modNone m (.brev g o)
  | 0x1C => modNone m (.bswz g o)
  | 0x1D => if modBelow m 4 then .ofOption ((ICmp.ofCode (modField m 0 3)).map (.itest g o (modBit m 3)))
            else .reserved
  | 0x1E => modNone m (.mux g o)
  | 0x1F => if modBelow m 8 then .ok (.plut g o (m.extractLsb' 0 8)) else .reserved
  | _ => .reserved

/-- Opcodes 0x20 to 0x3F (spec/06 R98). -/
def decodeFloat (opc : Nat) (g : Guard) (o : Ops) (m : BitVec 12) : ModResult :=
  match opc with
  | 0x20 => modRm m (.fadd g o)
  | 0x21 => modRm m (.fsub g o)
  | 0x22 => modRm m (.fmul g o)
  | 0x23 => modRm m (.ffma g o)
  | 0x24 => modFlag m (.fmin g o)
  | 0x25 => modFlag m (.fmax g o)
  | 0x26 => if modBelow m 4 then .ofOption ((FCmp.ofCode (modField m 0 4)).map (.ftest g o)) else .reserved
  | 0x27 => if modBelow m 10 then .ok (.fclass g o (m.extractLsb' 0 10)) else .reserved
  | 0x28 => modRm m (.frcp g o)
  | 0x29 => modRm m (.frsq g o)
  | 0x2A => modRm m (.fsqrt g o)
  | 0x2B => modRm m (.fexp2 g o)
  | 0x2C => modRm m (.flog2 g o)
  | 0x2D => modRm m (.fsinpi g o)
  | 0x2E => modRm m (.fcospi g o)
  | 0x2F => modRm m (.fdiv g o)
  | 0x30 => modRm m (.frnd g o)
  | 0x31 => modRm m (.fscale g o)
  | 0x32 => modBfRm m (.hadd2 g o)
  | 0x33 => modBfRm m (.hmul2 g o)
  | 0x34 => modBfRm m (.hfma2 g o)
  | 0x35 => modBfRm m (.hdot2 g o)
  | 0x36 => if modBelow m 11 then
      match Fmt.ofCode (modField m 7 4), Fmt.ofCode (modField m 3 4), Rm.ofCode (modField m 0 3) with
      | some dst, some src, some rm => if cvtAllowed dst src then .ok (.cvt g o dst src rm) else .reserved
      | _, _, _ => .reserved
    else .reserved
  | 0x37 => if modBelow m 11 then
      match fmtIf (fun f => 7 ≤ f.code && f.code ≤ 11) (modField m 7 4),
        fmtIf (fun f => f.isFloat || f == .fp64) (modField m 3 4), Rm.ofCode (modField m 0 3) with
      | some dst, some src, some rm => .ok (.f2i g o dst src rm)
      | _, _, _ => .reserved
    else .reserved
  | 0x38 => if modBelow m 4 then .ofOption ((Rm.ofCode (modField m 0 3)).map (.i2f g o (modBit m 3))) else .reserved
  | 0x39 => if modBelow m 7 then
      match fmtIf Fmt.isMatrix (modField m 3 4), Rm.ofCode (modField m 0 3) with
      | some f, some rm => .ok (.pack g o f rm)
      | _, _ => .reserved
    else .reserved
  | 0x3A => if modBelow m 10 && modField m 0 3 == 0 then
      match fmtIf Fmt.isMatrix (modField m 3 4) with
      | some f => if unpackIdxOk f (modField m 7 3)
        then .ok (.unpack g o ⟨modField m 7 3, Nat.mod_lt _ (by decide)⟩ f) else .reserved
      | none => .reserved
    else .reserved
  | 0x3B => if modBelow m 8 then quant (.qnt g o) m else .reserved
  | 0x3C => if modBelow m 8 then quant (.dqnt g o) m else .reserved
  | 0x3D => modNone m (.fabsmax g o)
  | 0x3E => if modBelow m 9 then
      match SReg.ofCode (modField m 0 8) with
      | some sr => if modBit m 8 then (if sr.readOnly then .badSReg else .ok (.movsrWrite g o sr))
                   else .ok (.movsrRead g o sr)
      | none => .badSReg
    else .reserved
  | 0x3F => if modBelow m 1 then (if modBit m 0 then .ok (.movpWrite g o) else .ok (.movpRead g o)) else .reserved
  | _ => .reserved
where
  /-- Is the element index below 32 ÷ width (spec/08 R141)? -/
  unpackIdxOk (f : Fmt) (i : Nat) : Bool :=
    match f with
    | .bf16 => i < 2 | .fp16 => i < 2 | .int4 => i < 8 | _ => i < 4
  quant (k : Bool → Fmt → Rm → Instr) (m : BitVec 12) : ModResult :=
    match fmtIf (fun f => 3 ≤ f.code && f.code ≤ 9 && (!modBit m 7 || 8 ≤ f.code)) (modField m 3 4),
      Rm.ofCode (modField m 0 3) with
    | some f, some rm => .ok (k (modBit m 7) f rm)
    | _, _ => .reserved

/-- Opcodes 0x40 to 0x48 (spec/06 R98). -/
def decodeExchange (opc : Nat) (g : Guard) (o : Ops) (m : BitVec 12) : ModResult :=
  match opc with
  | 0x40 => if modBelow m 2 then .ofOption ((SwapMode.ofCode (modField m 0 2)).map (.qswap g o)) else .reserved
  | 0x41 => if modBelow m 2 then .ok (.qbcast g o ⟨modField m 0 2, Nat.mod_lt _ (by decide)⟩) else .reserved
  | 0x42 => if modBelow m 2 then .ofOption ((ShflMode.ofCode (modField m 0 2)).map (.wshfl g o)) else .reserved
  | 0x43 => if modBelow m 2 then .ofOption ((VoteMode.ofCode (modField m 0 2)).map (.vote g o)) else .reserved
  | 0x44 => if modBelow m 4 then .ofOption ((RedOp.ofCode (modField m 0 4)).map (.wred g o)) else .reserved
  | 0x45 => if modBelow m 5 then .ofOption ((RedOp.ofCode (modField m 0 4)).map (.wscan g o (modBit m 4)))
            else .reserved
  | 0x46 => modNone m (.wmatch g o)
  | 0x47 => modNone m (.elect g o)
  | 0x48 => modNone m (.v2s g o)
  | _ => .reserved

/-- Opcodes 0x60 to 0x6D (spec/06 R98). -/
def decodeGuarded (opc : Nat) (g : Guard) (o : Ops) (m : BitVec 12) (disp : BitVec 10) : ModResult :=
  match opc with
  | 0x60 => modFlag m (.gld g o disp)
  | 0x61 => modNone m (.gmov g o)
  | 0x62 => modNone m (.gadd g o)
  | 0x63 => modNone m (.gsub g o)
  | 0x64 => modNone m (.gmul g o)
  | 0x65 => modNone m (.gneg g o)
  | 0x66 => modNone m (.gsqr g o)
  | 0x67 => modNone m (.gsgn g o)
  | 0x68 => modNone m (.gcmp g o)
  | 0x69 => modRm m (.gmid g o)
  | 0x6A => modNone m (.gbnd g o)
  | 0x6B => modNone m (.gsever g o)
  | 0x6C => modNone m (.gdrop g o)
  | 0x6D => modFlag m (.gstat g o)
  | _ => .reserved

/-- Opcodes 0x70 to 0x82 (spec/06 R98). -/
def decodeMem (opc : Nat) (g : Guard) (o : Ops) (m : BitVec 12) (disp : BitVec 10) : ModResult :=
  match opc with
  | 0x70 => if memClear m then
      match MemSize.ofCode (modField m 0 3), ordered m 1 with
      | some size, some acq => .ok (.ld g o disp acq size)
      | _, _ => .reserved
    else .reserved
  | 0x71 => if memClear m then
      match MemSize.ofCode (modField m 0 3), ordered m 2 with
      | some size, some rel => if size.storable then .ok (.st g o disp rel size) else .reserved
      | _, _ => .reserved
    else .reserved
  | 0x72 => if modBelow m 3 then .ofOption ((MemSize.ofCode (modField m 0 3)).map (.ldt g o)) else .reserved
  | 0x73 => if modBelow m 3 then
      match MemSize.ofCode (modField m 0 3) with
      | some size => if size.storable then .ok (.stt g o size) else .reserved
      | none => .reserved
    else .reserved
  | 0x74 => if atomClear m then
      match Scope.ofCode (modField m 8 3), AtomOrd.ofCode (modField m 6 2), AtomOp.ofCode (modField m 0 4) with
      | some sc, some ord, some op => if op == .aq64 then .reserved else .ok (.atom g o sc ord (modBit m 4) op)
      | _, _, _ => .reserved
    else .reserved
  | 0x75 => if atomClear m && modField m 0 4 == 0 then
      match Scope.ofCode (modField m 8 3), AtomOrd.ofCode (modField m 6 2) with
      | some sc, some ord => .ok (.atomcas g o sc ord (modBit m 4))
      | _, _ => .reserved
    else .reserved
  | 0x76 => if atomClear m then
      match Scope.ofCode (modField m 8 3), AtomOrd.ofCode (modField m 6 2), AtomOp.ofCode (modField m 0 4) with
      | some sc, some ord, some op => if redAllowed ord op (modBit m 4)
        then .ok (.red g o sc (ord == .rel) (modBit m 4) op) else .reserved
      | _, _, _ => .reserved
    else .reserved
  | 0x77 => if modBelow m 11 && modField m 0 8 == 0 then
      .ofOption ((Scope.ofCode (modField m 8 3)).map (.fence g o)) else .reserved
  | 0x78 => if modBelow m 11 && modField m 4 4 == 0 then
      match Scope.ofCode (modField m 8 3), WCmp.ofCode (modField m 0 3) with
      | some sc, some cmp => .ok (.waitw g o sc (modBit m 3) cmp)
      | _, _ => .reserved
    else .reserved
  | 0x79 => if modBelow m 11 && modField m 4 4 == 0 && modField m 0 2 < 2 then
      .ofOption ((Scope.ofCode (modField m 8 3)).map
        fun sc => .copy g o sc (modBit m 3) (modBit m 2) (modBit m 0)) else .reserved
  | 0x7A => if modBelow m 11 && modField m 4 4 == 0 && modField m 0 3 == 0 then
      .ofOption ((Scope.ofCode (modField m 8 3)).map fun sc => .gather g o sc (modBit m 3)) else .reserved
  | 0x7B => if modBelow m 11 && modField m 4 4 == 0 && modField m 0 3 == 0 then
      .ofOption ((Scope.ofCode (modField m 8 3)).map fun sc => .scatter g o sc (modBit m 3)) else .reserved
  | 0x7C => if modBelow m 3 then
      match Fifo.ofCode (modField m 0 2) with
      | some f => if f == .m && modBit m 2 then .reserved else .ok (.feed g o (modBit m 2) f)
      | none => .reserved
    else .reserved
  | 0x7D => if modBelow m 1 then .ok (.pref g o disp (modBit m 0)) else .reserved
  | 0x7E => if modBelow m 6 then
      match Fmt.ofCode (modField m 2 4), TileLevel.ofCode (modField m 0 2) with
      | some f, some lvl => .ok (.talloc g o f lvl)
      | _, _ => .reserved
    else .reserved
  | 0x7F => modNone m (.tfree g o)
  | 0x80 => modNone m (.tinfo g o)
  | 0x81 => if modBelow m 1 then (if modBit m 0 then .ok (.ttagW g o) else .ok (.ttag g o)) else .reserved
  | 0x82 => modNone m (.flush g o)
  | _ => .reserved
where
  /-- Undefined bits of LD and ST: [11] and [5:3]. -/
  memClear (m : BitVec 12) : Bool := modBelow m 11 && modField m 3 3 == 0
  /-- ORD and SCOPE of LD (`code` 1) and ST (`code` 2): ORD 0 with SCOPE 0, or ORD `code` with a scope. -/
  ordered (m : BitVec 12) (code : Nat) : Option (Option Scope) :=
    if modField m 6 2 = 0 then (if modField m 8 3 = 0 then some none else none)
    else if modField m 6 2 = code then (Scope.ofCode (modField m 8 3)).map some
    else none
  /-- Undefined bits of ATOM, ATOMCAS and RED: [11] and [5]. -/
  atomClear (m : BitVec 12) : Bool := modBelow m 11 && !modBit m 5
  /-- RED takes no .EXCH, no acquire, and .AQ64 only without W64. -/
  redAllowed (ord : AtomOrd) (op : AtomOp) (w64 : Bool) : Bool :=
    (ord == .none || ord == .rel) && op != .exch && !(op == .aq64 && w64)

/-- Opcodes 0xA0 to 0xB1 (spec/06 R98, R100). -/
def decodeMtx (opc : Nat) (g : Guard) (o : Ops) (m : BitVec 12) : ModResult :=
  match opc with
  | 0xA0 => modNone m (.mxwin g o)
  | 0xA1 => modNone m (.mxzero g o)
  | 0xA2 => if modBelow m 8 then
      match fmtIf Fmt.isMatrix (modField m 0 4), fmtIf Fmt.isMatrix (modField m 4 4) with
      | some fa, some fb => if fa.kClass == fb.kClass then .ok (.mma g o fa fb) else .reserved
      | _, _ => .reserved
    else .reserved
  | 0xA3 => if modBelow m 10 then
      match GroupSize.ofCode (modField m 8 2), fmtIf (fun f => f == .uint8 || f == .int4) (modField m 0 4),
        fmtIf (fun f => 3 ≤ f.code && f.code ≤ 9) (modField m 4 4) with
      | some grp, some fa, some fb => if fa.kClass == fb.kClass then .ok (.mmaq g o grp fa fb) else .reserved
      | _, _, _ => .reserved
    else .reserved
  | 0xA4 => modNone m (.mxld g o)
  | 0xA5 => modNone m (.mxst g o)
  | 0xA6 =>
    match amaxOf (modField m 9 3), Fmt.ofCode (modField m 3 4), Rm.ofCode (modField m 0 3) with
    | some amax, some f, some rm => .ok (.mxdrain g o amax (modBit m 8) (modBit m 7) f rm)
    | _, _, _ => .reserved
  | 0xA7 => modRm m (.tadd g o)
  | 0xA8 => modRm m (.tscale g o)
  | 0xA9 => modRm m (.taxpy g o)
  | 0xAA => if modBelow m 7 then
      match ActFn.ofCode (modField m 3 4), Rm.ofCode (modField m 0 3) with
      | some fn, some rm => .ok (.tact g o fn rm)
      | _, _ => .reserved
    else .reserved
  | 0xAB => modRm m (.tmul g o)
  | 0xAC => if modBelow m 5 && modField m 3 2 < 2 then
      .ofOption ((Rm.ofCode (modField m 0 3)).map (.trowred g o (modBit m 3))) else .reserved
  | 0xAD => haar m (.hfwd g o)
  | 0xAE => haar m (.hinv g o)
  | 0xAF => if modBelow m 2 then .ok (.hthr g o ⟨modField m 0 2, Nat.mod_lt _ (by decide)⟩) else .reserved
  | 0xB0 => modRm m (.tnorm g o)
  | 0xB1 => if modBelow m 7 then
      match fmtIf (fun f => f.code ≤ 9) (modField m 3 4), Rm.ofCode (modField m 0 3) with
      | some f, some rm => .ok (.tcvt g o f rm)
      | _, _ => .reserved
    else .reserved
  | _ => .reserved
where
  amaxOf : Nat → Option (Option Scope)
    | 7 => some none
    | n => (Scope.ofCode n).map some
  haar (m : BitVec 12) (k : Fin 6 → Rm → Instr) : ModResult :=
    if modBelow m 6 then
      match Rm.ofCode (modField m 0 3) with
      | some rm => match modField m 3 3 with
        | 1 => .ok (k 0 rm) | 2 => .ok (k 1 rm) | 3 => .ok (k 2 rm)
        | 4 => .ok (k 3 rm) | 5 => .ok (k 4 rm) | 6 => .ok (k 5 rm)
        | _ => .reserved
      | none => .reserved
    else .reserved

/-- Opcodes 0xC0 to 0xCC (spec/06 R98). -/
def decodeCtl (opc : Nat) (g : Guard) (o : Ops) (m : BitVec 12) (off : BitVec 30) : ModResult :=
  match opc with
  | 0xC0 => modFlag m (.bra g off)
  | 0xC1 => modFlag m (.brx g o)
  | 0xC2 => modNone m (.call g off)
  | 0xC3 => modNone m (.callx g o)
  | 0xC4 => modNone m (.ret g)
  | 0xC5 => modNone m (.exit g)
  | 0xC6 => modNone m (.meet g off)
  | 0xC7 => if modBelow m 6 then
      match BarLevel.ofCode (modField m 0 2) with
      | some lvl => if lvl == .grid && 8 ≤ modField m 2 4 then .reserved
        else .ok (.bar g ⟨modField m 2 4, Nat.mod_lt _ (by decide)⟩ lvl)
      | none => .reserved
    else .reserved
  | 0xC8 => if modBelow m 5 then
      (if h : modField m 1 4 < 9 then .ok (.spawn g off o.d ⟨modField m 1 4, h⟩ (modBit m 0)) else .reserved)
    else .reserved
  | 0xC9 => if modBelow m 11 && modField m 5 3 == 0 then
      match Scope.ofCode (modField m 8 3), WCmp.ofCode (modField m 1 3) with
      | some sc, some cmp => .ok (.park g o sc (modBit m 4) cmp (modBit m 0))
      | _, _ => .reserved
    else .reserved
  | 0xCA => modNone m (.fetcht g o)
  | 0xCB => .ok (.trap g m)
  | 0xCC => .ok (.bkpt g m)
  | _ => .reserved

/-- Opcodes 0xE0 to 0xE3 (spec/06 R98). -/
def decodeSys (opc : Nat) (g : Guard) (o : Ops) (m : BitVec 12) : ModResult :=
  match opc with
  | 0xE0 => modNone m (.rtt g)
  | 0xE1 => if modBelow m 8 then
      match SReg.ofCode (modField m 0 8) with
      | some sr => if sr == .gt || sr == .launch then .badSReg else .ok (.srwr g o sr)
      | none => .badSReg
    else .reserved
  | 0xE2 => if modBelow m 4 then .ofOption ((TlbWhat.ofCode (modField m 0 4)).map (.tlbinv g o)) else .reserved
  | 0xE3 => if modBelow m 6 then .ok (.pcfg g o (modBit m 5) ⟨modField m 0 5, Nat.mod_lt _ (by decide)⟩) else .reserved
  | _ => .reserved

/-- The instruction of an opcode, a MOD and operands. -/
def buildInstr (opc : Nat) (g : Guard) (o : Ops) (r : RawWord) : ModResult :=
  if opc < 0x20 then decodeInt opc g o r.mod
  else if opc < 0x40 then decodeFloat opc g o r.mod
  else if opc < 0x60 then decodeExchange opc g o r.mod
  else if opc < 0x70 then decodeGuarded opc g o r.mod r.c
  else if opc < 0xA0 then decodeMem opc g o r.mod r.c
  else if opc < 0xC0 then decodeMtx opc g o r.mod
  else if opc < 0xE0 then decodeCtl opc g o r.mod r.off
  else decodeSys opc g o r.mod

/-! ## The decoder -/

/-- Does a field that the instruction uses hold a code of its class: G codes belong to GRD clauses, T codes to MEM and
MTX (R78)? DEDUCED: an unused field is not asked, and is RESERVED_FIELD whatever class its code is of (log entry 31).
-/
def operandClassOk (cls : Nat) (k : FieldKind) (code : BitVec 10) : Bool :=
  match k with
  | .raw => true
  | .unused => true
  | _ => match Operand.ofCode code with
    | some (.g _) => cls == 1
    | some (.t _) => cls == 2 || cls == 3
    | _ => true

/-- Does an unused field hold NONE (R79)? -/
def unusedOk (k : FieldKind) (code : BitVec 10) : Bool :=
  match k with
  | .unused => code == 0x3FF
  | _ => true

/-- An operand of a field: nothing where the field is no operand. -/
def fieldOperand (k : FieldKind) (code : BitVec 10) : Option Operand :=
  match k with
  | .raw => some .none
  | .unused => some .none
  | _ => Operand.ofCode code

/-- The operands of a word by code, literals still 0; an undefined code reads as NONE here and is refused by the
field checks. -/
def rawOps (sh : Shape) (r : RawWord) : Ops where
  d := (fieldOperand sh.d r.d).getD .none
  a := (fieldOperand sh.a r.a).getD .none
  b := (fieldOperand sh.b r.b).getD .none
  c := (fieldOperand sh.c r.c).getD .none

/-- The value of each literal: [63:32] of the literal slot for the first LIT source in the order A, B, C, and [31:0]
for the second (R83). -/
def fillLits (o : Ops) (lit : W64) : Ops :=
  let hi := lit.extractLsb' 32 32
  let lo := lit.extractLsb' 0 32
  let a := if o.a.isLit then .lit hi else o.a
  let b := if o.b.isLit then (if o.a.isLit then .lit lo else .lit hi) else o.b
  let c := if o.c.isLit then (if o.a.isLit || o.b.isLit then .lit lo else .lit hi) else o.c
  { d := o.d, a := a, b := b, c := c }

/-- The number of LIT sources. -/
def litCount (o : Ops) : Nat :=
  (if o.a.isLit then 1 else 0) + (if o.b.isLit then 1 else 0) + (if o.c.isLit then 1 else 0)

/-- The first field that does not accept its code, in the order D, A, B, C, as ILLEGAL_OPERAND (R78, R83). `lits`
counts the LIT sources seen so far: a third is refused, and so is any without a literal slot. -/
def checkField (al : Alloc) (slot : Nat) (k : FieldKind) (code : BitVec 10) (hasLit : Bool) (lits : Nat) :
    Option EncFault :=
  match k with
  | .raw => none
  | .unused => none
  | _ =>
    match Operand.ofCode code with
    | none => some (.illegalOperand slot code.toNat)
    | some o =>
      if o.isLit && (slot == 0 || !hasLit || 2 ≤ lits) then some (.illegalOperand slot code.toNat)
      else if k.accepts al o then none
      else some (.illegalOperand slot code.toNat)

/-- The field checks of a word, in order. -/
def checkFields (al : Alloc) (sh : Shape) (r : RawWord) (hasLit : Bool) : Option EncFault :=
  let isLit (k : FieldKind) (code : BitVec 10) : Nat := if k != .raw && code == 0x3FE then 1 else 0
  let la := isLit sh.a r.a
  let lb := isLit sh.b r.b
  (checkField al 0 sh.d r.d hasLit 0).or <|
  (checkField al 1 sh.a r.a hasLit 0).or <|
  (checkField al 2 sh.b r.b hasLit la).or <|
  checkField al 3 sh.c r.c hasLit (la + lb)

/-- The first operand of a word that is legal only in another class. -/
def classFields (cls : Nat) (sh : Shape) (r : RawWord) : Option EncFault :=
  let check (k : FieldKind) (code : BitVec 10) : Option EncFault :=
    if operandClassOk cls k code then none else some (.cls code.toNat)
  (check sh.d r.d).or <| (check sh.a r.a).or <| (check sh.b r.b).or <| check sh.c r.c

/-- The unused fields of a word. -/
def unusedFields (sh : Shape) (r : RawWord) : Bool :=
  unusedOk sh.d r.d && unusedOk sh.a r.a && unusedOk sh.b r.b && unusedOk sh.c r.c

/-- All operand fields by code, whatever their kind: what a shape that looks at an operand looks at. -/
def codeOps (r : RawWord) : Ops where
  d := (Operand.ofCode r.d).getD .none
  a := (Operand.ofCode r.a).getD .none
  b := (Operand.ofCode r.b).getD .none
  c := (Operand.ofCode r.c).getD .none

/-- The instruction with its operands replaced, the same modifiers: the second pass of the decoder, once the shape
and the literals are known. -/
def finishInstr (opc : Nat) (r : RawWord) (sh : Shape) (lit : W64) : ModResult :=
  buildInstr opc r.guard (fillLits (rawOps sh r) lit) r

/-- The shape of a special register move whose number is undefined, for its unused fields. -/
def badSRegShape (opc : Nat) (m : BitVec 12) : Shape :=
  if opc == 0x3E && !modBit m 8 then ⟨.dst32, .unused, .unused, .unused⟩ else ⟨.unused, .src32, .unused, .unused⟩

/-- The bits of MOD on which it depends which fields of an opcode are operands (R98): the formats of CVT, the number and
direction of MOVSR and SRWR, the direction of MOVP and TTAG, RED's operation, MXDRAIN's AMAX and HAAR, SPAWN's count,
TLBINV's page size and kind; and, where a field of them is reserved, the others. -/
def shapeMasks (opc : Nat) : List (BitVec 12) :=
  match opc with
  | 0x36 => [0x7F8, 0x780, 0x078]
  | 0x3E => [0x1FF, 0x100]
  | 0x3F => [1]
  | 0x76 => [0x1F, 0xF]
  | 0x81 => [1]
  | 0xA6 => [0xF80, 0x180]
  | 0xC8 => [0x1E, 0x10]
  | 0xE1 => [0xFF]
  | 0xE2 => [0xF, 3]
  | _ => []

/-- The shape of an opcode whose MOD is refused: that of the first MOD that is not, the bits of its own word kept on
which the operand fields depend. -/
def anyShape (opc : Nat) (r : RawWord) : Shape :=
  let shapeOf (m : BitVec 12) : Option Shape :=
    match buildInstr opc r.guard (codeOps r) { r with mod := m } with
    | .ok i => some i.shape
    | .badSReg => some (badSRegShape opc m)
    | .reserved => none
  (((shapeMasks opc).map (r.mod &&& ·) ++ [0, 1, 8, 24, 0x380, 0x11, 0x138]).filterMap shapeOf).head?.getD
    ⟨.unused, .unused, .unused, .unused⟩

/-- What the decoder answers: an instruction, or the first encoding fault in the order of R41. -/
inductive Decoded
  | ok (i : Instr)
  | error (f : EncFault)
  deriving DecidableEq, Repr

/-- Decode a word in a clause of class `cls` under an allocation. `lit` is the slot after it, when the clause has one.
The checks come in the order of R41: CLASS, ILLEGAL_OP, RESERVED_FIELD, ILLEGAL_OPERAND. DEDUCED: MOVSR's number is
reported before its operands (log entry 31). -/
def decode (al : Alloc) (cls : Nat) (w : W64) (lit : Option W64) : Decoded :=
  let r := RawWord.ofWord w
  let opc := r.opc.toNat
  if opc ≠ 0 ∧ opcodeClass opc ≠ cls then .error (.cls 0x3FF)
  else
    match buildInstr opc r.guard (codeOps r) r with
    | .reserved =>
      if opcodeReserved opc then .error .illegalOp
      else .error ((classFields cls (anyShape opc r) r).getD (.reservedField 0))
    | .badSReg =>
      let sh := badSRegShape opc r.mod
      match classFields cls sh r with
      | some f => .error f
      | none =>
        if !unusedFields sh r then .error (.reservedField 0)
        else if litCount (rawOps sh r) = 1 && lit.any (fun l => l.extractLsb' 0 32 != 0) then .error (.reservedField 1)
        else .error (.illegalOperand 4 0x3FF)
    | .ok i =>
      let sh := i.shape
      match classFields cls sh r with
      | some f => .error f
      | none =>
      if !unusedFields sh r then .error (.reservedField 0)
      else if litCount (rawOps sh r) = 1 && lit.any (fun l => l.extractLsb' 0 32 != 0) then
        .error (.reservedField 1)
      else match checkFields al sh r lit.isSome with
        | some f => .error f
        | none => match finishInstr opc r sh (lit.getD 0) with
          | .ok j => .ok j
          | _ => .error (.reservedField 0)

/-! ## The encoder -/

/-- The opcode of an instruction; 0 for an event, which has no word. -/
def Instr.opcode : Instr → Nat
  | .nop _ => 0x00 | .mov _ _ => 0x01 | .iadd _ _ => 0x02 | .isub _ _ => 0x03 | .imul _ _ => 0x04
  | .imulh _ _ _ => 0x05 | .imad _ _ => 0x06 | .imadw _ _ _ => 0x07 | .iadd64 _ _ => 0x08 | .lea _ _ => 0x09
  | .ineg _ _ => 0x0A | .iabs _ _ => 0x0B | .imin _ _ _ => 0x0C | .imax _ _ _ => 0x0D | .idiv _ _ _ => 0x0E
  | .irem _ _ _ => 0x0F | .shl _ _ => 0x10 | .shr _ _ _ => 0x11 | .rot _ _ _ => 0x12 | .and _ _ => 0x13
  | .or _ _ => 0x14 | .xor _ _ => 0x15 | .andn _ _ => 0x16 | .bfe _ _ _ => 0x17 | .bfi _ _ => 0x18
  | .popc _ _ => 0x19 | .clz _ _ => 0x1A | .brev _ _ => 0x1B | .bswz _ _ => 0x1C | .itest _ _ _ _ => 0x1D
  | .mux _ _ => 0x1E | .plut _ _ _ => 0x1F | .fadd _ _ _ => 0x20 | .fsub _ _ _ => 0x21 | .fmul _ _ _ => 0x22
  | .ffma _ _ _ => 0x23 | .fmin _ _ _ => 0x24 | .fmax _ _ _ => 0x25 | .ftest _ _ _ => 0x26
  | .fclass _ _ _ => 0x27 | .frcp _ _ _ => 0x28 | .frsq _ _ _ => 0x29 | .fsqrt _ _ _ => 0x2A
  | .fexp2 _ _ _ => 0x2B | .flog2 _ _ _ => 0x2C | .fsinpi _ _ _ => 0x2D | .fcospi _ _ _ => 0x2E
  | .fdiv _ _ _ => 0x2F | .frnd _ _ _ => 0x30 | .fscale _ _ _ => 0x31 | .hadd2 _ _ _ _ => 0x32
  | .hmul2 _ _ _ _ => 0x33 | .hfma2 _ _ _ _ => 0x34 | .hdot2 _ _ _ _ => 0x35 | .cvt _ _ _ _ _ => 0x36
  | .f2i _ _ _ _ _ => 0x37 | .i2f _ _ _ _ => 0x38 | .pack _ _ _ _ => 0x39 | .unpack _ _ _ _ => 0x3A
  | .qnt _ _ _ _ _ => 0x3B | .dqnt _ _ _ _ _ => 0x3C | .fabsmax _ _ => 0x3D | .movsrRead _ _ _ => 0x3E
  | .movsrWrite _ _ _ => 0x3E | .movpRead _ _ => 0x3F | .movpWrite _ _ => 0x3F | .qswap _ _ _ => 0x40
  | .qbcast _ _ _ => 0x41 | .wshfl _ _ _ => 0x42 | .vote _ _ _ => 0x43 | .wred _ _ _ => 0x44
  | .wscan _ _ _ _ => 0x45 | .wmatch _ _ => 0x46 | .elect _ _ => 0x47 | .v2s _ _ => 0x48
  | .gld _ _ _ _ => 0x60 | .gmov _ _ => 0x61 | .gadd _ _ => 0x62 | .gsub _ _ => 0x63 | .gmul _ _ => 0x64
  | .gneg _ _ => 0x65 | .gsqr _ _ => 0x66 | .gsgn _ _ => 0x67 | .gcmp _ _ => 0x68 | .gmid _ _ _ => 0x69
  | .gbnd _ _ => 0x6A | .gsever _ _ => 0x6B | .gdrop _ _ => 0x6C | .gstat _ _ _ => 0x6D
  | .ld _ _ _ _ _ => 0x70 | .st _ _ _ _ _ => 0x71 | .ldt _ _ _ => 0x72 | .stt _ _ _ => 0x73
  | .atom _ _ _ _ _ _ => 0x74 | .atomcas _ _ _ _ _ => 0x75 | .red _ _ _ _ _ _ => 0x76 | .fence _ _ _ => 0x77
  | .waitw _ _ _ _ _ => 0x78 | .copy _ _ _ _ _ _ => 0x79 | .gather _ _ _ _ => 0x7A | .scatter _ _ _ _ => 0x7B
  | .feed _ _ _ _ => 0x7C | .pref _ _ _ _ => 0x7D | .talloc _ _ _ _ => 0x7E | .tfree _ _ => 0x7F
  | .tinfo _ _ => 0x80 | .ttag _ _ => 0x81 | .ttagW _ _ => 0x81 | .flush _ _ => 0x82
  | .mxwin _ _ => 0xA0 | .mxzero _ _ => 0xA1 | .mma _ _ _ _ => 0xA2 | .mmaq _ _ _ _ _ => 0xA3
  | .mxld _ _ => 0xA4 | .mxst _ _ => 0xA5 | .mxdrain _ _ _ _ _ _ _ => 0xA6 | .tadd _ _ _ => 0xA7
  | .tscale _ _ _ => 0xA8 | .taxpy _ _ _ => 0xA9 | .tact _ _ _ _ => 0xAA | .tmul _ _ _ => 0xAB
  | .trowred _ _ _ _ => 0xAC | .hfwd _ _ _ _ => 0xAD | .hinv _ _ _ _ => 0xAE | .hthr _ _ _ => 0xAF
  | .tnorm _ _ _ => 0xB0 | .tcvt _ _ _ _ => 0xB1
  | .bra _ _ _ => 0xC0 | .brx _ _ _ => 0xC1 | .call _ _ => 0xC2 | .callx _ _ => 0xC3 | .ret _ => 0xC4
  | .exit _ => 0xC5 | .meet _ _ => 0xC6 | .bar _ _ _ => 0xC7 | .spawn _ _ _ _ _ => 0xC8
  | .park _ _ _ _ _ _ => 0xC9 | .fetcht _ _ => 0xCA | .trap _ _ => 0xCB | .bkpt _ _ => 0xCC
  | .rtt _ => 0xE0 | .srwr _ _ _ => 0xE1 | .tlbinv _ _ _ => 0xE2 | .pcfg _ _ _ _ => 0xE3
  | _ => 0

/-- A flag as a bit. -/
def bit (b : Bool) : Nat := if b then 1 else 0

/-- ORD and SCOPE of LD (`code` 1) and ST (`code` 2). -/
def ordBits (code : Nat) : Option Scope → Nat
  | none => 0
  | some sc => sc.code * 256 + code * 64

/-- The MOD of an instruction, as a number (spec/06 R98). -/
def Instr.modBits : Instr → Nat
  | .imulh _ _ u | .imadw _ _ u | .imin _ _ u | .imax _ _ u | .idiv _ _ u | .irem _ _ u | .shr _ _ u | .rot _ _ u
  | .bfe _ _ u => bit u
  | .itest _ _ u cmp => bit u * 8 + cmp.code
  | .plut _ _ lut => lut.toNat
  | .fadd _ _ rm | .fsub _ _ rm | .fmul _ _ rm | .ffma _ _ rm | .frcp _ _ rm | .frsq _ _ rm | .fsqrt _ _ rm
  | .fexp2 _ _ rm | .flog2 _ _ rm | .fsinpi _ _ rm | .fcospi _ _ rm | .fdiv _ _ rm | .frnd _ _ rm
  | .fscale _ _ rm | .gmid _ _ rm | .tadd _ _ rm | .tscale _ _ rm | .taxpy _ _ rm | .tmul _ _ rm
  | .tnorm _ _ rm => rm.code
  | .fmin _ _ n | .fmax _ _ n => bit n
  | .ftest _ _ cmp => cmp.code
  | .fclass _ _ mask => mask.toNat
  | .hadd2 _ _ bf rm | .hmul2 _ _ bf rm | .hfma2 _ _ bf rm | .hdot2 _ _ bf rm => bit bf * 8 + rm.code
  | .cvt _ _ dst src rm | .f2i _ _ dst src rm => dst.code * 128 + src.code * 8 + rm.code
  | .i2f _ _ u rm => bit u * 8 + rm.code
  | .pack _ _ f rm => f.code * 8 + rm.code
  | .unpack _ _ idx f => idx.val * 128 + f.code * 8
  | .qnt _ _ asym f rm | .dqnt _ _ asym f rm => bit asym * 128 + f.code * 8 + rm.code
  | .movsrRead _ _ sr => sr.code
  | .movsrWrite _ _ sr => 256 + sr.code
  | .movpWrite _ _ => 1
  | .qswap _ _ xm => xm.code
  | .qbcast _ _ src => src.val
  | .wshfl _ _ mode => mode.code
  | .vote _ _ mode => mode.code
  | .wred _ _ op => op.code
  | .wscan _ _ excl op => bit excl * 16 + op.code
  | .gld _ _ _ f64 => bit f64
  | .gstat _ _ clr => bit clr
  | .ld _ _ _ acq size => ordBits 1 acq + size.code
  | .st _ _ _ rel size => ordBits 2 rel + size.code
  | .ldt _ _ size | .stt _ _ size => size.code
  | .atom _ _ sc ord w64 op => sc.code * 256 + ord.code * 64 + bit w64 * 16 + op.code
  | .atomcas _ _ sc ord w64 => sc.code * 256 + ord.code * 64 + bit w64 * 16
  | .red _ _ sc rel w64 op => sc.code * 256 + bit rel * 128 + bit w64 * 16 + op.code
  | .fence _ _ sc => sc.code * 256
  | .waitw _ _ sc w64 cmp => sc.code * 256 + bit w64 * 8 + cmp.code
  | .copy _ _ sc w64 eng store => sc.code * 256 + bit w64 * 8 + bit eng * 4 + bit store
  | .gather _ _ sc w64 | .scatter _ _ sc w64 => sc.code * 256 + bit w64 * 8
  | .feed _ _ tr fifo => bit tr * 4 + fifo.code
  | .pref _ _ _ l2 => bit l2
  | .talloc _ _ f lvl => f.code * 4 + lvl.code
  | .ttagW _ _ => 1
  | .mma _ _ fa fb => fb.code * 16 + fa.code
  | .mmaq _ _ grp fa fb => grp.code * 256 + fb.code * 16 + fa.code
  | .mxdrain _ _ amax add haar f rm =>
    (match amax with
      | none => 7
      | some sc => sc.code) * 512 + bit add * 256 + bit haar * 128 + f.code * 8 + rm.code
  | .tact _ _ fn rm => fn.code * 8 + rm.code
  | .trowred _ _ max rm => bit max * 8 + rm.code
  | .hfwd _ _ lev rm | .hinv _ _ lev rm => (lev.val + 1) * 8 + rm.code
  | .hthr _ _ th => th.val
  | .tcvt _ _ f rm => f.code * 8 + rm.code
  | .bra _ _ y | .brx _ _ y => bit y
  | .bar _ idx lvl => idx.val * 4 + lvl.code
  | .spawn _ _ _ narg t => narg.val * 2 + bit t
  | .park _ _ sc w64 cmp t => sc.code * 256 + bit w64 * 16 + cmp.code * 2 + bit t
  | .trap _ code | .bkpt _ code => code.toNat
  | .srwr _ _ sr => sr.code
  | .tlbinv _ _ what => what.code
  | .pcfg _ _ cap q => bit cap * 32 + q.val
  | _ => 0

/-- The guard and operands of an instruction: NONE in every field it does not use; `none` for an event. -/
def Instr.fields : Instr → Option (Guard × Ops)
  | .nop g | .ret g | .exit g | .bar g _ _ | .trap g _ | .bkpt g _ | .rtt g | .bra g _ _ | .call g _ | .meet g _ =>
    some (g, ⟨.none, .none, .none, .none⟩)
  | .spawn g _ d _ _ => some (g, ⟨d, .none, .none, .none⟩)
  | .mov g o | .iadd g o | .isub g o | .imul g o | .imulh g o _ | .imad g o | .imadw g o _ | .iadd64 g o | .lea g o
  | .ineg g o | .iabs g o | .imin g o _ | .imax g o _ | .idiv g o _ | .irem g o _ | .shl g o | .shr g o _
  | .rot g o _ | .and g o | .or g o | .xor g o | .andn g o | .bfe g o _ | .bfi g o | .popc g o | .clz g o
  | .brev g o | .bswz g o | .itest g o _ _ | .mux g o | .plut g o _ | .fadd g o _ | .fsub g o _ | .fmul g o _
  | .ffma g o _ | .fmin g o _ | .fmax g o _ | .ftest g o _ | .fclass g o _ | .frcp g o _ | .frsq g o _
  | .fsqrt g o _ | .fexp2 g o _ | .flog2 g o _ | .fsinpi g o _ | .fcospi g o _ | .fdiv g o _ | .frnd g o _
  | .fscale g o _ | .hadd2 g o _ _ | .hmul2 g o _ _ | .hfma2 g o _ _ | .hdot2 g o _ _ | .cvt g o _ _ _
  | .f2i g o _ _ _ | .i2f g o _ _ | .pack g o _ _ | .unpack g o _ _ | .qnt g o _ _ _ | .dqnt g o _ _ _
  | .fabsmax g o | .movsrRead g o _ | .movsrWrite g o _ | .movpRead g o | .movpWrite g o | .qswap g o _
  | .qbcast g o _ | .wshfl g o _ | .vote g o _ | .wred g o _ | .wscan g o _ _ | .wmatch g o | .elect g o | .v2s g o
  | .gld g o _ _ | .gmov g o | .gadd g o | .gsub g o | .gmul g o | .gneg g o | .gsqr g o | .gsgn g o | .gcmp g o
  | .gmid g o _ | .gbnd g o | .gsever g o | .gdrop g o | .gstat g o _ | .ld g o _ _ _ | .st g o _ _ _ | .ldt g o _
  | .stt g o _ | .atom g o _ _ _ _ | .atomcas g o _ _ _ | .red g o _ _ _ _ | .fence g o _ | .waitw g o _ _ _
  | .copy g o _ _ _ _ | .gather g o _ _ | .scatter g o _ _ | .feed g o _ _ | .pref g o _ _ | .talloc g o _ _
  | .tfree g o | .tinfo g o | .ttag g o | .ttagW g o | .flush g o | .mxwin g o | .mxzero g o | .mma g o _ _
  | .mmaq g o _ _ _ | .mxld g o | .mxst g o | .mxdrain g o _ _ _ _ _ | .tadd g o _ | .tscale g o _ | .taxpy g o _
  | .tact g o _ _ | .tmul g o _ | .trowred g o _ _ | .hfwd g o _ _ | .hinv g o _ _ | .hthr g o _ | .tnorm g o _
  | .tcvt g o _ _ | .brx g o _ | .callx g o | .park g o _ _ _ _ | .fetcht g o | .srwr g o _ | .tlbinv g o _
  | .pcfg g o _ _ => some (g, o)
  | _ => none

/-- The displacement count of LD, ST, PREF and GLD, held in C (spec/13 R226). -/
def Instr.dispBits : Instr → Option (BitVec 10)
  | .ld _ _ d _ _ | .st _ _ d _ _ | .pref _ _ d _ | .gld _ _ d _ => some d
  | _ => none

/-- The offset of BRA, CALL, MEET and SPAWN, held in [45:16] (spec/04 R84). -/
def Instr.offBits : Instr → Option (BitVec 30)
  | .bra _ off _ | .call _ off | .meet _ off | .spawn _ off _ _ _ => some off
  | _ => none

/-- The literal slot of a wide instruction (R83). -/
def litSlot (o : Ops) : Option W64 :=
  let vals := [o.a, o.b, o.c].filterMap fun x => match x with
    | .lit v => some v
    | _ => none
  match vals with
  | [] => none
  | [x] => some ((x ++ (0 : W32)).cast rfl)
  | x :: y :: _ => some ((x ++ y).cast rfl)

/-- The fields of an instruction's word. -/
def Instr.rawWord (i : Instr) (g : Guard) (o : Ops) : RawWord :=
  let opc := BitVec.ofNat 8 i.opcode
  let pneg := if g.neg then 1 else 0
  let pidx := BitVec.ofNat 3 g.idx.val
  let mod := BitVec.ofNat 12 i.modBits
  match i.offBits with
  | some off => { opc, d := o.d.code, a := off.extractLsb' 20 10, b := off.extractLsb' 10 10,
                  c := off.extractLsb' 0 10, pneg, pidx, mod }
  | none => { opc, d := o.d.code, a := o.a.code, b := o.b.code, c := (i.dispBits).getD o.c.code, pneg, pidx, mod }

/-- The words of an instruction: one, or two when it is wide; none for an event, which has no encoding. -/
def encode (i : Instr) : List W64 :=
  match i.fields with
  | none => []
  | some (g, o) =>
    let w := (i.rawWord g o).toWord
    match litSlot o with
    | none => [w]
    | some l => [w, l]

/-- The class of the clause an instruction stands in; NOP stands in any (spec/04 R85). -/
def Instr.cls (i : Instr) : Nat := opcodeClass i.opcode

/-- The instruction the decoder reads from the bits `w`, as the opcode table numbers bits: the first word is bits 63
to 0, its literal slot bits 127 to 64, in a clause of the opcode's own class. -/
def decodeTableWord (_nbits w : Nat) : Option Instr :=
  let word := BitVec.ofNat 64 w
  match decode Alloc.full (opcodeClass (RawWord.ofWord word).opc.toNat) word (some (BitVec.ofNat 64 (w >>> 64))) with
  | .ok i => some i
  | .error _ => none

end Sys2Proof
end

