-- ==== Sys2Proof/Machine/State.lean ====
section
/-! DEFINITION. The state of the Camzen Z9, plain data: every piece of state the spec gives the machine (INVENTORY.md,
under State, names the rule of each), the state after reset, and the reasons a step can stop. Sparse tables list the
entries that differ from what an unlisted entry holds, in rising order of their keys. -/

namespace Sys2Proof.Machine

/-- Why the machine stops. -/
inductive Fault
  /-- A step names a core, die, pair, partition, queue or semaphore that the spec says does not exist (spec/01 R10,
  R11, R15; spec/23 R329; spec/26 R378). Raised by the events' meanings. Safe: no such unit takes a step. -/
  | noSuchUnit
  deriving DecidableEq, Repr, Inhabited

/-- Why an instruction has no meaning. -/
inductive Refusal
  /-- The instruction has no meaning yet. Raised by arms of `exec` alone. Safe: nothing is claimed of it. -/
  | notModelled (mnemonic : String)
  deriving DecidableEq, Repr, Inhabited

/-- A sparse table: keys rise strictly, and no entry holds what an unlisted key reads as. -/
abbrev Tab (α : Type) := List (Nat × α)

/-! ## Lanes and warps -/

/-- A guarded register (spec/16, spec/02 R30). HANDLE 0 makes it empty. -/
structure GReg where
  lo : W32 := 0
  hi : W32 := 0
  handle : BitVec 24 := 0
  pinned : Bool := false
  sinx : Bool := false
  leaf : Bool := false
  point : Bool := false
  deriving DecidableEq, Repr, Inhabited

/-- What a fault records (spec/02 R39). -/
structure FaultRec where
  code : BitVec 8
  slot : Nat := 0
  cls : Nat := 0
  pc : Addr48 := 0
  word : W64 := 0
  addr : W64 := 0
  opnd : Nat := 0x3FF
  info : Nat := 0
  deriving DecidableEq, Repr, Inhabited

/-- A word in memory, by physical address, or an element of a tile, by the tile's key. -/
inductive WordRef
  | mem (pa : Nat)
  | tile (tile elem : Nat)
  deriving DecidableEq, Repr, Inhabited

/-- What a lane asleep at WAITW waits for (spec/11 R199, spec/13 R232), and the slot it stands at. -/
structure Watch where
  word : WordRef
  w64 : Bool
  cmp : WCmp
  value : W64
  scope : Scope
  /-- The clause after its own (spec/04 R77). -/
  next : Addr48 := 0
  /-- A notice is under way: the comparison held at a test (spec/11 R390). -/
  fired : Bool := false
  /-- The completion times of the write it saw (spec/19 R320), by scope code. -/
  times : Tab Nat := []
  deriving DecidableEq, Repr, Inhabited

/-- A clause as it was fetched: its address, header and words (spec/04 R71). -/
structure Clause where
  pc : Addr48
  header : W64
  words : List W64
  deriving DecidableEq, Repr, Inhabited

/-- The life of a lane (spec/09 R148). A lane Ready, Blocked or Meeting is `idle`: which of the three follows from
its MEET, its resume slot and its warp's counters. An absent lane has no entry. -/
inductive LaneStatus
  | idle
  | inFlight
  /-- Held at an exchange slot, with the member mask its warp used there (spec/09 R162). -/
  | held (mask : W32)
  | asleepWaitw (watched : Bool) (w : Watch)
  | asleepBar (bar : Nat)
  | refining
  /-- TRANSLATION holds the lane, with what firmware is told of it (spec/02 R42). -/
  | translating (f : FaultRec)
  /-- Stopped at a faulting slot until firmware kills its context (spec/02 R42). -/
  | stopped
  | dormant
  | retired
  deriving DecidableEq, Repr, Inhabited

/-- Which handler a lane is in (spec/24 R357, R362). -/
inductive HMode
  | normal | user | kernel
  deriving DecidableEq, Repr, Inhabited

/-- A lane's registers and control state (spec/02 R25, R27, R29 to R36, R39; spec/24 R357). -/
structure Lane where
  status : LaneStatus := .idle
  helper : Bool := false
  spawned : Bool := false
  /-- A thread of the launch's own blocks: a member of barriers (spec/10 R171). -/
  member : Bool := false
  /-- Restored from an image and not yet issued (spec/24 R357). -/
  restored : Bool := false
  pc : Addr48 := 0
  meet : Addr48 := 0
  depth : BitVec 10 := 0
  defer : Bool := false
  /-- Return addresses, newest first (spec/02 R36). -/
  stack : List Addr48 := []
  rslot : Nat := 0
  /-- The clause as fetched that the lane stands part-way through, outside any group (spec/04 R71, R73; spec/02 R22). -/
  kept : Option Clause := none
  /-- The clauses whose faults its handlers took, newest first; none for a fault of a fetch or of an engine's run. -/
  faulted : List (Option Clause) := []
  v : Tab W32 := []
  p : BitVec 7 := 0
  g : Tab GReg := []
  gstat : W32 := 0
  f0 : W64 := 0
  f1 : W64 := 0
  f2 : W64 := 0
  f3 : W64 := 0
  hmode : HMode := .normal
  kprev : Bool := false
  uprev : Bool := false
  priv : W32 := 0
  rsb : W64 := 0
  rsctr : W32 := 0
  /-- Faults of engine runs still to be taken, by the operation's number, which rises in issue order (spec/13 R391). -/
  runFaults : Tab FaultRec := []
  /-- The handler in which the lane has taken such a fault, up to its RTT; `normal` for none (R391). -/
  runHandler : HMode := .normal
  /-- The cycle since which the lane has not issued (spec/09 R165). -/
  readyAt : Nat := 0
  deriving DecidableEq, Repr, Inhabited

/-- SR.MODE after reset and at each launch (spec/02 R32). -/
def modeReset : W64 := 0x000A208208200000

/-- A home warp's registers, wait counters and write times (spec/02 R26, R28, R31, R32, R34, R37, R38). Times are
by scope code. -/
structure Warp where
  s : Tab W32 := []
  th : Tab W32 := []
  mode : W64 := modeReset
  trapv : W64 := 0
  seed : W64 := 0
  acwin : W32 := 0
  ldc : Nat := 0
  stc : Nat := 0
  mxc : Nat := 0
  tlc : Nat := 0
  swt : Tab Nat := []
  owt : Tab Nat := []
  deriving DecidableEq, Repr, Inhabited

/-! ## What an operation carries of the instruction that started it -/

/-- The instruction an engine's operation came from: the supplying lane, and what its fault record and its roundings
need (spec/13 R391, spec/03 R54, spec/08 R124). -/
structure Origin where
  lane : Nat
  warp : Nat
  core : Nat
  launch : Nat
  pc : Addr48 := 0
  slot : Nat := 0
  cls : Nat := 0
  word : W64 := 0
  mode : W64 := modeReset
  seed : W64 := 0
  gtid : W32 := 0
  rsctr : W32 := 0
  deriving DecidableEq, Repr, Inhabited

/-- A completion word and the value it is to receive (spec/11 R198, spec/13 R235). -/
structure Completion where
  word : WordRef
  /-- The address of a memory word, translated again when the word is written (spec/13 R235). -/
  va : W64 := 0
  value : W32
  w64 : Bool
  scope : Scope
  /-- Max of the issuing warp's SWT and OWT at the scope when the operation issued (R198). -/
  after : Nat := 0
  deriving DecidableEq, Repr, Inhabited

/-! ## Tiles and copy engines -/

/-- A bound or freeing tile (spec/11 R186, R187; spec/15 R260). Its key says its home core, level and handle. -/
structure Tile where
  /-- The launch that bound it (spec/11 R190). -/
  launch : Nat := 0
  lvl : TileLevel := .core
  fmt : Fmt := .fp32
  rows : Nat := 1
  cols : Nat := 1
  imode : Nat := 0
  igran : Nat := 0
  base : Nat := 0
  /-- The number of its binding: no two tiles bound have the same (spec/15 R273). -/
  bind : Nat := 0
  dom : Bool := false
  hlev : Nat := 0
  thk : Nat := 0
  pv : Bool := false
  /-- Presence bitmaps by number; an unlisted bitmap is zero. -/
  pres : Tab W64 := []
  clearing : Bool := false
  engine : Bool := false
  freeing : Bool := false
  /-- The warps that count the clear and the free in TLC. -/
  binders : List Nat := []
  freers : List Nat := []
  data : Tab Byte := []
  deriving DecidableEq, Repr, Inhabited

/-- A tile's domain tag and presence bitmaps (spec/15 R260). -/
structure TileTag where
  dom : Bool := false
  hlev : Nat := 0
  thk : Nat := 0
  pv : Bool := false
  pres : Tab W64 := []
  deriving DecidableEq, Repr, Inhabited

/-- The kinds of operation a copy engine runs (spec/13 R235, R237). -/
inductive CopyKind
  | load | store | gather | scatter
  deriving DecidableEq, Repr, Inhabited

/-- A queued copy, gather or scatter, with every operand it read at issue (spec/13 R235, R237; spec/24 R355). -/
structure CopyOp where
  id : Nat
  kind : CopyKind
  org : Origin
  tile : Nat
  record : List W32
  origin : List Int := []
  index : W64 := 0
  count : Nat := 0
  done : Option Completion := none
  /-- The run has begun: a load or gather holds its tile in ENGINE. -/
  started : Bool := false
  /-- The tile's tag as the run met it. -/
  tag : TileTag := {}
  /-- Elements moved so far, in ascending order. -/
  pos : Nat := 0
  /-- The index read for the tile row in progress (spec/13 R237). -/
  idx : Int := 0
  /-- The headers read so far, each with its group (spec/15 R275). -/
  heads : List (Int × List Nat) := []
  /-- Flags of the roundings so far. -/
  flags : BitVec 5 := 0
  /-- The payload is in place; the completion write is pending. -/
  moved : Bool := false
  /-- Completion times of the payload so far, by scope code. -/
  times : Tab Nat := []
  deriving DecidableEq, Repr, Inhabited

/-- The tile operations (spec/15 R268 to R272). -/
inductive TOp
  | add | scale | axpy | act (fn : ActFn) | mul | rowred (max : Bool) | fwd (l : Nat) | inv (l : Nat)
  | thr (k : Nat) (threshold : W32) | norm | cvt (fmt : Fmt)
  deriving DecidableEq, Repr, Inhabited

/-- A queued tile operation (spec/15 R266, R267). -/
structure TileOp where
  id : Nat
  op : TOp
  org : Origin
  d : Nat
  a : Nat
  b : Option Nat := none
  scalar : W32 := 0
  rm : Rm := .mode
  started : Bool := false
  /-- The sources' tags as the start met them (spec/15 R266). -/
  tagA : TileTag := {}
  tagB : TileTag := {}
  /-- The elements are written; the tag and the flags that the end leaves (spec/26 R375). -/
  left : Option (TileTag × BitVec 5) := none
  deriving DecidableEq, Repr, Inhabited

/-! ## The matrix engine -/

/-- How a step of a stream is tagged (spec/15 R273). -/
inductive StepDir
  | spatial | alongI | alongK | alongJ
  deriving DecidableEq, Repr, Inhabited

/-- Elements appended to a stream from one row or column of a tile, with the tag of its steps (spec/14 R246,
spec/15 R273). `nibbles` is the element's width in half bytes. -/
structure FeedRun where
  elems : List W64
  nibbles : Nat
  dir : StepDir := .spatial
  handle : Nat := 0
  /-- The number of the tile's binding. -/
  bind : Nat := 0
  rows : Nat := 0
  hlev : Nat := 0
  row : Nat := 0
  /-- Elements of the row or column already taken. -/
  offset : Nat := 0
  /-- Which rows of the tile are present. -/
  present : List Bool := []
  deriving DecidableEq, Repr, Inhabited

/-- A FEED accepted and not yet appended (spec/13 R238). -/
structure FeedOp where
  id : Nat
  org : Origin
  tile : Nat
  stream : Nat
  fifo : Fifo
  tr : Bool
  first : Nat
  count : Nat
  deriving DecidableEq, Repr, Inhabited

/-- A queued MMA or MMAQ (spec/14 R245 to R249). `stream` 0 serves the leader core's block, 1 the follower's. -/
structure MmaOp where
  id : Nat
  org : Origin
  fa : Fmt
  fb : Fmt
  grp : Option GroupSize := none
  row : Nat
  stream : Nat
  deriving DecidableEq, Repr, Inhabited

/-- A matrix operation in the arrays: what it took from its streams, row i of A, column j of B (spec/14 R247,
R248; spec/15 R273). -/
structure MmaRun where
  op : MmaOp
  a : List (List W32)
  b : List (List W32)
  params : List W32 := []
  /-- Weights by step as exponents −w; all 0 for spatial steps (R273). -/
  weights : List Nat := []
  /-- Rows of A skipped. -/
  skip : List Bool := []
  deriving DecidableEq, Repr, Inhabited

/-- Where a drain writes (spec/14 R254). -/
inductive DrainDest
  | tile (key : Nat)
  | mem (va : W64)
  deriving DecidableEq, Repr, Inhabited

/-- A drain in the pair's drain engine (spec/14 R254 to R257). -/
structure DrainOp where
  id : Nat
  org : Origin
  first : Nat
  n : Nat
  dest : DrainDest
  add : Bool
  haar : Option (Nat × Nat × W32) := none
  fmt : Fmt
  rm : Rm
  amax : Option (W64 × Scope) := none
  after : Nat := 0
  /-- The run has begun: a tile destination is in ENGINE. -/
  started : Bool := false
  /-- A tag mismatch was resolved at the start: the rows are added untransformed, and the tile becomes spatial (spec/15
  R278). -/
  mixed : Bool := false
  /-- Accumulator rows read before the first is written: all of them for a transform. -/
  taken : List (List Nat) := []
  /-- The first row not yet written (spec/14 R258). -/
  row : Nat := 0
  /-- Flags of the roundings so far. -/
  flags : BitVec 5 := 0
  /-- The payload is written. -/
  moved : Bool := false
  /-- Completion times of the payload so far, by scope code, and the largest magnitude read. -/
  times : Tab Nat := []
  max : W32 := 0
  deriving DecidableEq, Repr, Inhabited

/-- A pair's accumulators, by row × 64 + column, and its engine (spec/11 R195, spec/14 R243). Streams are by block × 4
+ FIFO code. -/
structure Pair where
  acc : Tab W32 := []
  queue : List MmaOp := []
  arrays : List MmaRun := []
  streams : Tab (List FeedRun) := []
  drains : List DrainOp := []
  deriving DecidableEq, Repr, Inhabited

/-! ## Guarded reals -/

/-- A node of the log (spec/16 R283). -/
structure Node where
  op : BitVec 4 := 0
  ref : Nat := 0
  a : Nat := 0
  b : Nat := 0
  inx : Bool := false
  val : W64 := 0
  deriving DecidableEq, Repr, Inhabited

/-- A block's log: the header of R284, nodes on chip and spilled by handle, and the pending roots (R286). -/
structure Log where
  freehead : Nat := 0
  next : Nat := 1
  live : Nat := 0
  nodes : Tab Node := []
  pending : List Nat := []
  deriving DecidableEq, Repr, Inhabited

/-- What the Gecko is asked (spec/16 R299, R302). -/
inductive GeckoAsk
  | sign (b : Nat) (c : Option Nat) (dneg : Nat) (dzero : Option Nat) (reg : Nat)
  | sever (d : Nat)
  deriving DecidableEq, Repr, Inhabited

/-- A lane handed to the Gecko (spec/16 R291, R292). -/
structure GeckoReq where
  lane : Nat
  slot : Nat
  /-- NSLOT of the clause. -/
  nslot : Nat := 0
  ask : GeckoAsk
  gcap : Nat
  word : W64
  started : Bool := false
  deriving DecidableEq, Repr, Inhabited

/-- The last write of a byte: when it was performed, the core it came from, when it entered that core's L1, and the
lease ends granted before it (spec/12 R205). -/
structure WriteRec where
  seq : Nat
  gt : Nat
  core : Option Nat := none
  entered : Nat := 0
  leases : List (CacheId × Nat) := []
  deriving DecidableEq, Repr, Inhabited

/-! ## The pond -/

/-- A thread in a bin: its arguments or its record's registers and predicates (spec/17 R305, R307). -/
structure BinThread where
  regs : Tab W32 := []
  preds : BitVec 7 := 0
  /-- Times of the watched write that a resumed thread has observed (R314). -/
  times : Tab Nat := []
  deriving DecidableEq, Repr, Inhabited

/-- A pond bin that is not empty (spec/17 R305, R306). -/
structure Bin where
  key : Addr48
  threads : List BinThread := []
  /-- Cycles left; none once it has expired. -/
  timer : Option Nat := none
  deriving DecidableEq, Repr, Inhabited

/-- A continuation record of a launch's pool (spec/17 R311, R313): the sixteen doublewords, where its word is, and
where the record stands. -/
inductive RecPlace
  | watched | queued (die : Nat) | taken (core : Nat)
  deriving DecidableEq, Repr, Inhabited

/-- A continuation record in use. -/
structure Continuation where
  cw : List W64
  pa : Nat
  place : RecPlace
  die : Nat
  /-- The write that satisfied the watch, byte by byte (R314). -/
  recs : List WriteRec := []
  deriving DecidableEq, Repr, Inhabited

/-! ## Cores, blocks, launches -/

/-- A core's registers and units (spec/02 R31; spec/11 R200; spec/13 R235; spec/15 R267; spec/16 R291; spec/17 R305,
R316). Pool minimums and caps list the queues whose values differ from those of R201. -/
structure Core where
  pondt : W32 := 256
  lease : W32 := 256
  ktrapv : W64 := 0
  poolMin : Tab Nat := []
  poolCap : Tab Nat := []
  /-- The launch the core is granted to, waiting or running. -/
  launch : Option Nat := none
  /-- Launches that ask for the core, in the order of their arrival (spec/23 R339). -/
  requests : List Nat := []
  /-- The leader core of the block it carries; none for a core held beside a block, or free. -/
  block : Option Nat := none
  copy0 : List CopyOp := []
  copy1 : List CopyOp := []
  tileOps : List TileOp := []
  gecko : List GeckoReq := []
  /-- Lines that its instruction cache holds, newest first (spec/01 R15). -/
  icache : List Nat := []
  bins : Tab Bin := []
  eligible : List Nat := []
  /-- Records taken and not yet in a bin: launch and record number. -/
  resume : List (Nat × Nat) := []
  black : Bool := false
  count : Int := 0
  /-- The launch's per-core maximum of times, by scope code (spec/23 R344). -/
  times : Tab Nat := []
  deriving DecidableEq, Repr, Inhabited

/-- A block (spec/09 R145, spec/14 R244), by its leader core. -/
structure Block where
  launch : Nat
  id : Nat
  cores : List Nat
  threads : Nat
  /-- The block has the pair's whole engine (R244). -/
  whole : Bool
  log : Log := {}
  /-- Not ended under R315. -/
  running : Bool := true
  deriving DecidableEq, Repr, Inhabited

/-- A barrier's generation and the members arrived in it (spec/10 R172). -/
structure Bar where
  gen : Nat := 0
  arrived : List Nat := []
  deriving DecidableEq, Repr, Inhabited

/-- Where the eft's token is: at a place of the ring or on its way to it (spec/17 R316, R317). -/
structure Token where
  place : Nat := 0
  /-- A round is under way. -/
  round : Bool := false
  travelling : Bool := false
  black : Bool := false
  sum : Int := 0
  times : Tab Nat := []
  decided : Bool := false
  /-- The cycle at which the last round started. -/
  startedAt : Option Nat := none
  deriving DecidableEq, Repr, Inhabited

/-- How far a launch is (spec/23 R339 to R345, spec/24 R352, R353). -/
inductive LaunchState
  | waiting | running | halting | halted (image : Nat) | complete | killed
  deriving DecidableEq, Repr, Inhabited

/-- A launch: its record, its packet, its cores and its launch-wide state (spec/23 R340 to R345). -/
structure Launch where
  num : W32 := 0
  record : List W64 := []
  packet : List W64 := []
  queue : Option (Nat × Nat) := none
  index : Nat := 0
  capx : Nat := 0
  cores : List Nat := []
  held : List Nat := []
  state : LaunchState := .waiting
  prio : Nat := 0
  /-- Dispenser ranges: front and back positions not yet given out, one range, or one a die under DIE. -/
  disp : List (Nat × Nat) := []
  token : Token := {}
  /-- Barriers by level, instance and index. -/
  bars : Tab Bar := []
  pool : Tab Continuation := []
  /-- A halt was asked with the release flag (spec/24 R361). -/
  release : Bool := false
  /-- The halt is a kill (spec/26 R373). -/
  killing : Bool := false
  /-- The cores that a halt under way has reached. -/
  stopped : List Nat := []
  /-- The image whose sections are written, its header and digest still to come (spec/26 R375). -/
  saving : Option Nat := none
  /-- The numbers it had before it was last loaded from an image (spec/23 R342). -/
  earlier : List W32 := []
  /-- Mailbox commands that wait for the halt: die, port code, and whether the command is KILL (spec/26 R382). -/
  askers : List (Nat × Nat × Bool) := []
  deriving DecidableEq, Repr, Inhabited

/-! ## Issue groups -/

/-- Why a slot waits (spec/13 R389, spec/12 R207). -/
inductive Wait
  /-- A release of some warps at a scope: their operations before `upTo` must have returned, and GT must pass. -/
  | release (warps : List Nat) (scope : Scope) (upTo : Nat)
  /-- Every named wait that ends by trying the slot again. -/
  | retry
  deriving DecidableEq, Repr, Inhabited

/-- An issue group in flight on a partition path, with the clause it has fetched (spec/04 R71, R73; spec/09 R150). -/
structure Group where
  lanes : List Nat
  pc : Addr48
  header : W64
  words : List W64
  slot : Nat := 0
  wait : Option Wait := none
  /-- The stall of the slot's release is over, and the warps that it held: none of their other groups runs a slot before
  this one has run (spec/12 R207, R209). -/
  released : Bool := false
  relWarps : List Nat := []
  /-- Lanes already served at the slot in progress. -/
  served : List Nat := []
  deriving DecidableEq, Repr, Inhabited

/-! ## Memory -/

/-- A line held under a lease (spec/12 R204): the bytes as fetched, the records of their writes, and the cores whose
own later writes it does not hold. `fails` lists the doublewords whose code fails, by number, with their syndromes and
where they first failed (spec/26 R371). -/
structure LeaseCopy where
  cache : CacheId
  line : Nat
  leaseEnd : Nat
  cells : List Host.Cell := []
  recs : Tab WriteRec := []
  notFor : List Nat := []
  fails : Tab (W32 × Site) := []
  deriving DecidableEq, Repr, Inhabited

/-- What a memory operation in flight is. -/
inductive MemKind
  | load (dst : Operand) (size : MemSize) (acq : Option Scope)
  | gload (d : Nat) (f64 : Bool) (handle : Nat)
  | tload (tile : Nat) (dst : Operand) (size : MemSize)
  | store
  | tstore (tile : Nat)
  | atom (op : AtomOp) (w64 : Bool) (dst : Option Operand) (acq : Option Scope) (b : W64) (c : W64)
  | cas (w64 : Bool) (dst : Operand) (acq : Option Scope) (b : W64) (c : W64)
  | flush (ranges : List (Nat × Nat))
  deriving DecidableEq, Repr, Inhabited

/-- A memory operation of one lane in flight (spec/12 R205, R206; spec/13 R223). `ins` names the instruction it is
part of; for a tile `pa` is the byte offset in the tile. -/
structure MemOp where
  id : Nat
  ins : Nat
  kind : MemKind
  lane : Nat
  warp : Nat
  core : Nat
  launch : W32
  pa : Nat
  n : Nat
  /-- The address it names, translated anew when its context is loaded elsewhere (spec/24 R359). -/
  va : W64 := 0
  data : List Byte := []
  /-- Completion times of a write, by scope code. -/
  times : Tab Nat := []
  /-- Times of the last write that a fetching atomic's value reflects. -/
  seen : Tab Nat := []
  /-- Does the returned value go to the register: always but for a scalar destination's other lanes (spec/02 R22)? -/
  writes : Bool := true
  /-- The upper eight bytes of a B128 access, which is two of eight (spec/12 R203). -/
  second : Bool := false
  /-- Performed at its home slice. -/
  performed : Bool := false
  /-- Sent on by the combining buffer, and the combined group of an atomic, by its first member (spec/12 R217). -/
  sent : Bool := true
  grp : Nat := 0
  /-- The value is in the register; the response of an own store is still awaited (spec/12 R206). -/
  returned : Bool := false
  /-- The completion times have returned (R205). -/
  answered : Bool := false
  waitsFor : List Nat := []
  /-- GT at which a store entered the core's L1. -/
  entered : Nat := 0
  /-- A machine check found when the operation is performed names this place (spec/26 R372). -/
  here : FaultRec := { code := 0xF0 }
  deriving DecidableEq, Repr, Inhabited

/-- A cached translation (spec/24 R367): which TLB, the address space, the page and the leaf. TLBs are numbered by
core, then 1,536 + cluster. -/
structure TlbEntry where
  tlb : Nat
  capx : Nat
  page : Nat
  sizeLog : Nat
  leaf : W64
  deriving DecidableEq, Repr, Inhabited

/-! ## Queues, firmware and ports -/

/-- A bounds-tagged capability of firmware (spec/26 R383). -/
structure Capability where
  tag : Bool := false
  base : W64 := 0
  length : BitVec 40 := 0
  otype : BitVec 8 := 0
  perms : BitVec 6 := 0
  deriving DecidableEq, Repr, Inhabited

/-- A packet acted on and not yet complete (spec/23 R337, R345). -/
structure Act where
  idx : Nat
  packet : List W64
  /-- The action is done; its times by scope code. -/
  acted : Bool := false
  times : Tab Nat := []
  launch : Option Nat := none
  deriving DecidableEq, Repr, Inhabited

/-- A dependence counter under watch for a head packet (spec/23 R338): its address, and the value, not above 0, that a
test has found. -/
structure HeadWatch where
  pa : Nat
  seen : Option W64 := none
  deriving DecidableEq, Repr, Inhabited

/-- A queue (spec/23 R329 to R333). -/
structure Queue where
  qd0 : W64
  qd1 : W64
  qread : W64 := 0
  qwrite : W64 := 0
  qerridx : W64 := 0
  errcode : BitVec 8 := 0
  depunder : Bool := false
  error : Bool := false
  /-- VALID of the head has been read as 1 (R336). -/
  valid : Bool := false
  watch : Option HeadWatch := none
  /-- The head packet once its checks are made and its acquire done, waiting on cores, a counter or an answer. -/
  head : Option Act := none
  /-- Packets dispatched and not complete. -/
  acts : List Act := []
  deriving DecidableEq, Repr, Inhabited

/-- A payload that a peer's NETWRITE has written here, its signal still to be decremented (spec/23 R350). -/
structure Arrival where
  capx : Nat
  signal : W64
  times : Tab Nat := []
  deriving DecidableEq, Repr, Inhabited

/-- A page that SEAL made read-only (spec/12 R222): the sealing queue's address space, the page's address there, and the
number of its 64 KiB in memory. -/
structure Seal where
  capx : Nat
  va : W64
  page : Nat
  deriving DecidableEq, Repr, Inhabited

/-- A machine-check log entry MC0 to MC3 (spec/26 R374). -/
structure McEntry where
  mc0 : W64 := 0
  mc1 : W64 := 0
  mc2 : W64 := 0
  mc3 : W64 := 0
  deriving DecidableEq, Repr, Inhabited

/-- A Fenlink route: the port, and the ranges of the peer that its grant covers (spec/23 R350). -/
structure Route where
  port : Nat
  grant : List (Nat × Nat) := []
  deriving DecidableEq, Repr, Inhabited

/-- A die's firmware: not started, in service, or failed (spec/26 R384, R386). -/
inductive DieState
  | off | ready | failed
  deriving DecidableEq, Repr, Inhabited

/-- What a mailbox is at: nothing, a command written to MB0, or that command under way (spec/26 R382). -/
inductive MailJob
  | idle | asked (code : Nat) | running
  deriving DecidableEq, Repr, Inhabited

/-- A die's command processor, firmware and log (spec/23, spec/26). Mailboxes are by port code: MB1 as it was last
written, the command at hand, and MB2 to MB511 by port code × 512 + number. -/
structure Die where
  state : DieState := .off
  placed : Nat := 0
  queues : Tab Queue := []
  lastQueue : Nat := 0
  resume : List (Nat × Nat) := []
  routes : Tab Route := []
  mailbox : Tab W64 := []
  jobs : Tab MailJob := []
  mailArgs : Tab W64 := []
  mcHead : Nat := 0
  mcLog : Tab McEntry := []
  corrected : Nat := 0
  retired : Option Nat := none
  /-- Physical clusters that have logged an uncorrectable error in a register file or a tile since the last boot (spec/26
  R386). -/
  worn : List Nat := []
  /-- The event counters of the unprivileged view as they were last read (spec/26 R380). -/
  counters : Tab W64 := []
  /-- Times that the command processor's own writes and reads have given it, by scope code (spec/23 R348). -/
  times : Tab Nat := []
  /-- The firmware image it runs, or failed to verify (spec/26 R384). -/
  image : List Byte := []
  /-- Firmware's memory, and the slots of sixteen bytes that hold a capability whose tag is set (spec/26 R383). -/
  sram : Tab Byte := []
  capTags : List Nat := []
  deriving DecidableEq, Repr, Inhabited

/-- A storage error waiting to be met (spec/26 R370, R371). `src`: the hop at which the data first failed, where it has
moved on with its failing code. -/
structure Upset where
  site : Site
  unc : Bool
  synd : W32
  src : Option Site := none
  deriving DecidableEq, Repr, Inhabited

/-- A lane in an image: its record LR0 to LR5 (spec/24 R357), its registers and what the launch part holds of it. -/
structure ImageLane where
  lr : List W64
  v : Tab W32 := []
  g : Tab GReg := []
  spawned : Bool := false
  member : Bool := false
  bar : Option Nat := none
  held : Option W32 := none
  qsel : Nat := 0
  runFaults : Tab FaultRec := []
  runHandler : HMode := .normal
  deriving DecidableEq, Repr, Inhabited

/-- A core's sections of an image, placed by its position in the core set (spec/24 R356). -/
structure ImageCore where
  core : Core
  /-- Lanes by home warp × 32 + home lane. -/
  lanes : Tab ImageLane := []
  warps : Tab Warp := []
  block : Option Block := none
  deriving DecidableEq, Repr, Inhabited

/-- A context image (spec/24 R356): where it lies and its contents. `whole`: its header and digest stand over its
sections. -/
structure Image where
  addr : Nat := 0
  version : Nat := 1
  whole : Bool := true
  gt : Nat
  launch : Launch
  cores : List ImageCore
  pairs : Tab Pair := []
  tiles : Tab Tile := []
  ops : List MemOp := []
  feeds : List FeedOp := []
  /-- Records that waited in dies' resume queues, oldest first: die and record. -/
  resume : List (Nat × Nat) := []
  deriving DecidableEq, Repr, Inhabited

/-- A control port's or firmware's last answer to a read: none yet, an error response, or data (spec/26 R372). -/
inductive HostAnswer
  | none | error | data (w : W64)
  deriving DecidableEq, Repr, Inhabited

/-! ## The whole machine -/

/-- The machine. Keys: a warp is core × 128 + home warp; a lane is warp × 32 + home lane; a group is core × 16 +
partition × 4 + path. -/
structure State where
  lanes : Tab Lane := []
  warps : Tab Warp := []
  cores : Tab Core := []
  blocks : Tab Block := []
  pairs : Tab Pair := []
  tiles : Tab Tile := []
  groups : Tab Group := []
  launches : Tab Launch := []
  dies : Tab Die := []
  feeds : List FeedOp := []
  /-- The group whose slot runs. -/
  cur : Option Nat := none
  mem : List Host.Cell := []
  hbm : List Host.Cell := []
  writes : Tab WriteRec := []
  /-- Dirty L2 lines: the launch number of the last writer (spec/12 R221). -/
  dirty : Tab W32 := []
  /-- Closed dirty generations: the launch number and the address of its completion signal (R221). -/
  generations : List (W32 × Nat) := []
  copies : List LeaseCopy := []
  /-- The latest lease end granted for a line to each cache (spec/12 R205). -/
  granted : Tab (List (CacheId × Nat)) := []
  ops : List MemOp := []
  tlb : List TlbEntry := []
  seals : List Seal := []
  arrivals : List Arrival := []
  roots : Tab Nat := []
  images : Tab Image := []
  sems : Tab W64 := []
  upsets : List Upset := []
  /-- Errors by site since boot (spec/26 R374). -/
  errors : List (Site × Nat) := []
  /-- When an HBM row's last corrections were logged, newest first (R387). -/
  rowTimes : Tab (List Nat) := []
  /-- HBM rows listed for repair, and spare rows used by each stack (R387). -/
  repairRows : List Nat := []
  sparesUsed : Tab Nat := []
  links : Tab Bool := []
  minVersion : W64 := 0
  /-- Firmware images stored for the next boot, by die, where FWUPDATE has replaced the first one (spec/26 R384). -/
  firmware : Tab (List Byte) := []
  /-- The host die's own firmware has verified (R384). -/
  hostUp : Bool := false
  inService : Bool := false
  boots : Nat := 0
  gt : Nat := 0
  skew : List (Fin 3) := []
  cycles : Nat := 0
  cycleRem : Nat := 0
  clock : Nat := 18
  hot : Bool := false
  nextId : Nat := 0
  freeCtr : Nat := 0
  /-- The last answer to each agent, by OWNER code (spec/26 R378). -/
  lastRead : Tab HostAnswer := []
  turn : Turn := .tick 0 []
  turns : Nat := 0
  deriving DecidableEq, Repr, Inhabited

/-- The first turn after reset: every die boots, and no cluster fails its self-test (log entry 8). -/
def firstTurn : Turn := .event (.boot (List.replicate 8 []))

/-- The machine right after module reset (spec/26 R376, R384): no context, no queue, every cache empty, the dies not
yet booted. Values the spec does not give are those of log entries 1 to 8. -/
def State.reset : State := { turn := firstTurn }

end Sys2Proof.Machine
end

