-- ==== Sys2Proof/Machine/Tab.lean ====
section
/-! DEFINITION. Sparse tables and memory as such a table: looking up, writing in canonical form, and the form itself. -/

namespace Sys2Proof.Machine

/-- The entry of a key. -/
def tfind {α : Type} : Tab α → Nat → Option α
  | [], _ => none
  | (i, x) :: t, k => if i = k then some x else tfind t k

/-- What a key reads as: its entry, or `d` when it is unlisted. -/
def tget {α : Type} (d : α) (t : Tab α) (k : Nat) : α := (tfind t k).getD d

/-- The table without a key. -/
def tdel {α : Type} : Tab α → Nat → Tab α
  | [], _ => []
  | (i, x) :: t, k => if i = k then tdel t k else (i, x) :: tdel t k

/-- The table with an entry, in its place by key. -/
def tset {α : Type} : Tab α → Nat → α → Tab α
  | [], k, v => [(k, v)]
  | (i, x) :: t, k, v =>
    if k < i then (k, v) :: (i, x) :: t
    else if k = i then (k, v) :: t
    else (i, x) :: tset t k v

/-- The table with a key reading as `v`, where unlisted keys read as `d`: writing `d` removes the entry. -/
def tput {α : Type} [DecidableEq α] (d : α) (t : Tab α) (k : Nat) (v : α) : Tab α :=
  if v = d then tdel t k else tset t k v

/-- The table with an entry changed, if it is there. -/
def tmod {α : Type} (t : Tab α) (k : Nat) (f : α → α) : Tab α :=
  match tfind t k with
  | some x => tset t k (f x)
  | none => t

/-- Do the keys rise strictly? -/
def tsorted {α : Type} : Tab α → Bool
  | [] => true
  | [_] => true
  | (i, _) :: (j, y) :: t => i < j && tsorted ((j, y) :: t)

/-- Is the table in canonical form: keys rising, no entry equal to what an unlisted key reads as? -/
def tcanon {α : Type} [DecidableEq α] (d : α) (t : Tab α) : Bool :=
  tsorted t && t.all fun p => p.2 ≠ d

/-- The entries whose keys lie in a range. -/
def trange {α : Type} (t : Tab α) (lo n : Nat) : Tab α := t.filter fun p => lo ≤ p.1 && p.1 < lo + n

/-- The table without the keys of a range. -/
def tclear {α : Type} (t : Tab α) (lo n : Nat) : Tab α := t.filter fun p => !(lo ≤ p.1 && p.1 < lo + n)

/-- Is memory in canonical form (log entry 4)? -/
def Memory.wf (m : List Host.Cell) : Bool := tcanon Config.unwritten m

/-- One byte of memory. -/
def Memory.read (m : List Host.Cell) (a : Nat) : Byte := tget Config.unwritten m a

/-- Memory with one byte written. -/
def Memory.write (m : List Host.Cell) (a : Nat) (b : Byte) : List Host.Cell := tput Config.unwritten m a b

/-- `n` bytes from an address upward. -/
def Memory.readBytes (m : List Host.Cell) (a : Nat) : Nat → List Byte
  | 0 => []
  | n + 1 => Memory.read m a :: Memory.readBytes m (a + 1) n

/-- Bytes written from an address upward. -/
def Memory.writeBytes (m : List Host.Cell) (a : Nat) : List Byte → List Host.Cell
  | [] => m
  | b :: bs => Memory.writeBytes (Memory.write m a b) (a + 1) bs

/-- The number that bytes hold, least significant first (spec/03 R50). -/
def leNat : List Byte → Nat
  | [] => 0
  | b :: bs => b.toNat + 256 * leNat bs

/-- The `n` bytes of a number, least significant first (spec/03 R50). -/
def toLe (x : Nat) : Nat → List Byte
  | 0 => []
  | n + 1 => BitVec.ofNat 8 x :: toLe (x / 256) n

/-- The first element that satisfies a test, with the rest of the list in order. -/
def takeFirst {α : Type} (p : α → Bool) : List α → Option (α × List α)
  | [] => none
  | x :: xs => if p x then some (x, xs) else (takeFirst p xs).map fun r => (r.1, x :: r.2)

end Sys2Proof.Machine
end

