-- ==== Sys2Proof/Machine/Ops.lean ====
section
/-! DEFINITION. The named operations: reaching lanes, warps, cores and launches, the group whose slot runs, sticky
flags, the clocks, and the one operation that takes an exception, with its return (spec/02 R39 to R42, spec/24 R362,
R363). -/

namespace Sys2Proof.Machine

/-- What a meaning answers. -/
abbrev Out := Host.Outcome State Fault Refusal

/-! ## Bytes in a table -/

/-- Bytes put in a table from an offset. -/
def putBytes (d : Tab Byte) (off : Nat) : List Byte → Tab Byte
  | [] => d
  | b :: bs => putBytes (tput 0 d off b) (off + 1) bs

/-! ## Keys -/

/-- A lane's home lane. -/
def homeLane (l : Nat) : Nat := l % 32
/-- A lane's warp. -/
def warpOf (l : Nat) : Nat := l / 32
/-- A lane's home warp within its block. -/
def homeWarp (l : Nat) : Nat := l / 32 % 128
/-- A lane's core. -/
def coreOf (l : Nat) : Nat := l / 4096
/-- A core's die (spec/01 R11). -/
def dieOf (core : Nat) : Nat := core / 192
/-- A core's cluster in the package (spec/01 R11). -/
def clusterOf (core : Nat) : Nat := core / 8
/-- The handle of a tile's key. -/
def keyHandle (k : Nat) : Nat := k % 256
/-- The home core of a tile's key. -/
def keyCore (k : Nat) : Nat := k / 256 / 3
/-- A core's pair (spec/01 R11). -/
def pairOf (core : Nat) : Nat := core / 2
/-- A group's key. -/
def groupKey (core part path : Nat) : Nat := core * 16 + part * 4 + path
/-- A group's core. -/
def groupCore (g : Nat) : Nat := g / 16

/-! ## Reaching the state -/

/-- A lane; an absent one reads as a new lane that is retired. -/
def State.lane (s : State) (l : Nat) : Lane := tget { status := .retired } s.lanes l
/-- The state with a lane changed. -/
def State.setLane (s : State) (l : Nat) (x : Lane) : State := { s with lanes := tset s.lanes l x }
/-- The state with a lane changed, if it is there. -/
def State.modLane (s : State) (l : Nat) (f : Lane → Lane) : State := { s with lanes := tmod s.lanes l f }

/-- A warp's registers and counters. -/
def State.warp (s : State) (w : Nat) : Warp := tget {} s.warps w
/-- The state with a warp changed. -/
def State.setWarp (s : State) (w : Nat) (x : Warp) : State := { s with warps := tput {} s.warps w x }
/-- The state with a warp changed. -/
def State.modWarp (s : State) (w : Nat) (f : Warp → Warp) : State := s.setWarp w (f (s.warp w))

/-- A core's registers and units. -/
def State.core (s : State) (c : Nat) : Core := tget {} s.cores c
/-- The state with a core changed. -/
def State.setCore (s : State) (c : Nat) (x : Core) : State := { s with cores := tput {} s.cores c x }
/-- The state with a core changed. -/
def State.modCore (s : State) (c : Nat) (f : Core → Core) : State := s.setCore c (f (s.core c))

/-- A pair's accumulators and engine. -/
def State.pair (s : State) (p : Nat) : Pair := tget {} s.pairs p
/-- The state with a pair changed. -/
def State.setPair (s : State) (p : Nat) (x : Pair) : State := { s with pairs := tput {} s.pairs p x }
/-- The state with a pair changed. -/
def State.modPair (s : State) (p : Nat) (f : Pair → Pair) : State := s.setPair p (f (s.pair p))

/-- A die's command processor and firmware. -/
def State.die (s : State) (d : Nat) : Die := tget {} s.dies d
/-- The state with a die changed. -/
def State.setDie (s : State) (d : Nat) (x : Die) : State := { s with dies := tput {} s.dies d x }
/-- The state with a die changed. -/
def State.modDie (s : State) (d : Nat) (f : Die → Die) : State := s.setDie d (f (s.die d))

/-- The state with a launch changed. -/
def State.modLaunch (s : State) (i : Nat) (f : Launch → Launch) : State :=
  { s with launches := tmod s.launches i f }
/-- The state with a block changed. -/
def State.modBlock (s : State) (c : Nat) (f : Block → Block) : State := { s with blocks := tmod s.blocks c f }

/-- The block a core carries. -/
def State.blockOf (s : State) (c : Nat) : Option Block :=
  match (s.core c).block with
  | some b => tfind s.blocks b
  | none => none

/-- The leader core of a core's block; the core itself when it has none. -/
def State.leader (s : State) (c : Nat) : Nat := ((s.core c).block).getD c

/-- The launch a core runs. -/
def State.launchOf (s : State) (c : Nat) : Option Launch :=
  match (s.core c).launch with
  | some i => tfind s.launches i
  | none => none

/-- May a core go on with its launch: is the launch running, or has the halt asked of it not yet reached the core
(spec/24 R352, spec/26 R373)? -/
def State.issues (s : State) (c : Nat) : Bool :=
  (s.launchOf c).any fun x => x.state == .running || x.state == .halting && !x.stopped.contains c

/-- SR.LAUNCH of a core's launch; 0 while it has none (log entry 1). -/
def State.launchNum (s : State) (c : Nat) : W32 := ((s.launchOf c).map (·.num)).getD 0

/-- The address space of a core's launch. -/
def State.capxOf (s : State) (c : Nat) : Nat := ((s.launchOf c).map (·.capx)).getD 0

/-- The cores a block stands on; a core without a block stands alone. -/
def State.blockCores (s : State) (c : Nat) : List Nat := ((s.blockOf c).map (·.cores)).getD [c]

/-- A new operation number. -/
def State.fresh (s : State) : Nat × State := (s.nextId, { s with nextId := s.nextId + 1 })

/-- A free value (log entry 9). -/
def State.free (s : State) : W64 × State := (Config.free s.freeCtr, { s with freeCtr := s.freeCtr + 1 })

/-! ## A launch's record (spec/23 R340) -/

/-- A doubleword of a list. -/
def dword (l : List W64) (i : Nat) : W64 := l.getD i 0

/-- A field of a doubleword. -/
def field (w : W64) (lo n : Nat) : Nat := w.toNat >>> lo % 2 ^ n

/-- How a launch allocates registers. -/
def Launch.alloc (l : Launch) : Alloc where
  nv := field (dword l.record 1) 16 9
  ng := field (dword l.record 1) 25 7
  ns := field (dword l.record 1) 32 8

/-- Threads of a block. -/
def Launch.threads (l : Launch) : Nat := field (dword l.record 1) 0 13
/-- Does a block occupy a pair? -/
def Launch.paired (l : Launch) : Bool := field (dword l.record 14) 0 1 = 1
/-- Home warps a block is launched with (spec/09 R147). -/
def Launch.warps (l : Launch) : Nat := (l.threads + 31) / 32
/-- On-chip log nodes (spec/16 R281). -/
def Launch.nchip (l : Launch) : Nat := field (dword l.record 2) 0 15
/-- Spill nodes of a block (spec/16 R282). -/
def Launch.nspill (l : Launch) : Nat := field (dword l.record 2) 16 24
/-- Tile budget of a core in bytes (spec/11 R187). -/
def Launch.tileBytes (l : Launch) : Nat := field (dword l.record 1) 40 9 * 1024
/-- Continuation records in the pool (spec/17 R311). -/
def Launch.poolN (l : Launch) : Nat := field (dword l.record 5) 0 32
/-- The dispenser's order, 0 ROW, 1 COL, 2 MORTON, 3 DIE (spec/10 R176). -/
def Launch.order (l : Launch) : Nat := field (dword l.record 1) 52 2
/-- The packet's scope of release (spec/23 R334). -/
def Launch.rscope (l : Launch) : Scope := (Scope.ofCode (field (dword l.packet 0) 19 3)).getD .device
/-- An index extent: the packet's, or the record's where that is 0 (spec/23 R335). -/
def Launch.extent (l : Launch) (i : Nat) : Nat :=
  let q := match i with
    | 0 => field (dword l.packet 5) 0 32
    | 1 => field (dword l.packet 5) 32 32
    | _ => field (dword l.packet 6) 0 32
  let r := match i with
    | 0 => field (dword l.record 6) 0 32
    | 1 => field (dword l.record 6) 32 32
    | _ => field (dword l.record 7) 0 32
  if q = 0 then r else q

/-- A lane's block number in its launch. -/
def State.blockId (s : State) (c : Nat) : Nat := ((s.blockOf c).map (·.id)).getD 0

/-- A lane's THREADID (spec/09 R145). -/
def threadId (l : Nat) : Nat := 32 * homeWarp l + homeLane l

/-- A lane's GTID (spec/09 R145, spec/03 R54). -/
def State.gtid (s : State) (l : Nat) : W32 := BitVec.ofNat 32 (s.blockId (coreOf l) * 4096 + threadId l)

/-! ## The clocks (spec/01 R13) -/

/-- GT as a die reads it. -/
def State.dieGt (s : State) (d : Nat) : Nat := s.gt + ((s.skew.getD d 0).val)

/-- GT as a core reads it. -/
def State.coreGt (s : State) (c : Nat) : Nat := s.dieGt (dieOf c)

/-! ## Lanes of a warp, a core, a block -/

/-- Is the lane live (spec/09 R148)? -/
def Lane.live (x : Lane) : Bool := x.status != .retired

/-- Lanes of a warp. -/
def State.warpLanes (s : State) (w : Nat) : List Nat := (trange s.lanes (w * 32) 32).map (·.1)

/-- Lanes of a core. -/
def State.coreLanes (s : State) (c : Nat) : List Nat := (trange s.lanes (c * 4096) 4096).map (·.1)

/-- The lanes of a lane's quad. -/
def State.quadLanes (s : State) (l : Nat) : List Nat := (trange s.lanes (l / 4 * 4) 4).map (·.1)

/-! ## The group whose slot runs -/

/-- The group whose slot runs; without one, a group of no lane. -/
def State.group (s : State) : Group :=
  match s.cur with
  | some k => tget { lanes := [], pc := 0, header := 0, words := [] } s.groups k
  | none => { lanes := [], pc := 0, header := 0, words := [] }

/-- The state with the current group changed. -/
def State.modGroup (s : State) (f : Group → Group) : State :=
  match s.cur with
  | some k => { s with groups := tmod s.groups k f }
  | none => s

/-- The core of the current group. -/
def State.curCore (s : State) : Nat := (s.cur.getD 0) / 16

/-- The slot's word. -/
def Group.word (g : Group) : W64 := g.words.getD g.slot 0

/-- NSLOT of a header (spec/04 R70). -/
def nslot (h : W64) : Nat := field h 52 4

/-- CLASS of a header (spec/04 R70). -/
def classOf (h : W64) : Nat := field h 56 4

/-- The address of the clause after one (spec/04 R69). -/
def nextClause (pc : Addr48) (h : W64) : Addr48 := pc + BitVec.ofNat 48 (8 * (nslot h + 2))

/-- The predicate bits of a lane: P7 reads as 1 (spec/02 R27). -/
def Lane.pred (x : Lane) (i : Nat) : Bool := if i = 7 then true else x.p.getLsbD i

/-- A lane with a predicate written: a write to P7 is discarded (spec/02 R27). -/
def Lane.setPred (x : Lane) (i : Nat) (b : Bool) : Lane :=
  if i < 7 then { x with p := if b then x.p ||| (1#7 <<< i) else x.p &&& ~~~(1#7 <<< i) } else x

/-- Does the lane execute the slot (spec/04 R76)? -/
def Lane.guardHolds (x : Lane) (g : Guard) : Bool := x.pred g.idx.val != g.neg

/-- The group's lanes in flight and not yet served at this slot whose predicate holds, in order of home warp and home
lane. -/
def State.exec (s : State) (g : Guard) : List Nat :=
  s.group.lanes.filter fun l => (s.lane l).status == .inFlight && (s.lane l).guardHolds g && !s.group.served.contains l

/-- Of these, those that are no helpers. -/
def State.execThreads (s : State) (g : Guard) : List Nat := (s.exec g).filter fun l => !(s.lane l).helper

/-- The warps of some lanes, each once, in order. -/
def warpsOf (ls : List Nat) : List Nat := (ls.map warpOf).eraseDups

/-- For each warp of some lanes, its lowest lane. -/
def lowestOf (ls : List Nat) : List Nat :=
  (warpsOf ls).filterMap fun w => ls.find? fun l => warpOf l == w

/-! ## Sticky status (spec/02 R33) -/

/-- A lane with bits of SR.GSTAT [4:0] set: INVALID 1, DIVZERO 2, OVERFLOW 4, UNDERFLOW 8, INEXACT 16. -/
def Lane.sticky (x : Lane) (f : BitVec 5) : Lane := { x with gstat := x.gstat ||| f.setWidth 32 }

/-- A lane with STAGE written (R33). -/
def Lane.setStage (x : Lane) (k : Nat) : Lane :=
  { x with gstat := (x.gstat &&& ~~~(0x1C00#32)) ||| BitVec.ofNat 32 (k % 8 * 1024) }

/-! ## The fault record (spec/02 R39, R40) -/

namespace Code
def illegalOp : BitVec 8 := 0x01
def illegalOperand : BitVec 8 := 0x02
def cls : BitVec 8 := 0x03
def header : BitVec 8 := 0x04
def reservedField : BitVec 8 := 0x05
def placement : BitVec 8 := 0x06
def align : BitVec 8 := 0x10
def translation : BitVec 8 := 0x11
def access : BitVec 8 := 0x12
def tileHandle : BitVec 8 := 0x13
def tileBounds : BitVec 8 := 0x14
def accWindow : BitVec 8 := 0x15
def domain : BitVec 8 := 0x16
def retUnderflow : BitVec 8 := 0x18
def depthOverflow : BitVec 8 := 0x19
def guardLimit : BitVec 8 := 0x21
def guardLogFull : BitVec 8 := 0x22
def userTrap : BitVec 8 := 0x30
def bkpt : BitVec 8 := 0x31
def priv : BitVec 8 := 0x40
def machineCheck : BitVec 8 := 0xF0
end Code

/-- A condition found at a slot, before the slot's place is added. -/
structure Trap where
  code : BitVec 8
  addr : W64 := 0
  opnd : Nat := 0x3FF
  info : Nat := 0
  deriving DecidableEq, Repr, Inhabited

/-- The fault record of a condition at the current slot (R39). -/
def State.faultHere (s : State) (t : Trap) : FaultRec :=
  let g := s.group
  { code := t.code, slot := g.slot, cls := classOf g.header, pc := g.pc, word := g.word, addr := t.addr,
    opnd := t.opnd, info := t.info }

/-- The fault record of an engine's operation: it names the starting instruction (spec/13 R391). -/
def Origin.fault (o : Origin) (t : Trap) : FaultRec :=
  { code := t.code, slot := o.slot, cls := o.cls, pc := o.pc, word := o.word, addr := t.addr, opnd := t.opnd,
    info := t.info }

/-- SR.FAULT0 of a record. -/
def FaultRec.f0 (f : FaultRec) : W64 :=
  BitVec.ofNat 64 (f.code.toNat * 2 ^ 56 + f.slot % 16 * 2 ^ 52 + f.cls % 16 * 2 ^ 48 + f.pc.toNat)

/-- SR.FAULT3 of a record. -/
def FaultRec.f3 (f : FaultRec) : W64 := BitVec.ofNat 64 (f.opnd % 1024 * 2 ^ 22 + f.info % 65536)

/-- A lane with a fault recorded (R39). -/
def Lane.record (x : Lane) (f : FaultRec) : Lane :=
  { x with f0 := f.f0, f1 := f.word, f2 := f.addr, f3 := f.f3 }

/-! ## Leaving a group -/

/-- The clause a lane stands in, as fetched: its group's, or the one it has kept (spec/04 R71). -/
def State.clauseOf (s : State) (l : Nat) : Option Clause :=
  match s.groups.find? fun p => groupCore p.1 == coreOf l && p.2.lanes.contains l with
  | some (_, g) => some { pc := g.pc, header := g.header, words := g.words }
  | none => (s.lane l).kept

/-- The state with a lane out of every group of its core. -/
def State.leaveGroup (s : State) (l : Nat) : State :=
  { s with groups := s.groups.map fun p =>
      if groupCore p.1 = coreOf l then (p.1, { p.2 with lanes := p.2.lanes.filter (· ≠ l) }) else p }

/-! ## Killing a context (spec/26 R373, spec/23 R347) -/

/-- The launches that wait for cores for a queue's head packet. -/
def State.waitingOf (s : State) (d q : Nat) : List Nat :=
  s.launches.filterMap fun p => if p.2.state == .waiting && p.2.queue == some (d, q) then some p.1 else none

/-- The state without some launches that wait for cores: their grants and requests go (spec/23 R333, R339). -/
def State.withdraw (s : State) (is : List Nat) : State :=
  { s with
    launches := s.launches.filter fun p => !is.contains p.1
    cores := s.cores.map fun p => (p.1, { p.2 with
      launch := p.2.launch.filter fun i => !is.contains i
      requests := p.2.requests.filter fun i => !is.contains i }) }

/-- A head packet that has had its effect though QREAD has not passed it: a NETWRITE whose payload is out, unless its own
link is what stops the queue (spec/23 R350). -/
def Queue.sent (y : Queue) (code : BitVec 8) : Option Act :=
  y.head.filter fun a => field (dword a.packet 0) 8 8 == 7 && a.acted && code != 0x09

/-- The queue stopped in ERROR at a packet that has had no effect (spec/23 R333): a head that is already sent counts as
dispatched, and its acknowledgement is still to come. -/
def Queue.stopAt (y : Queue) (code : BitVec 8) (idx : W64) : Queue :=
  let sent := y.sent code
  let at_ := if sent.isSome then idx + 1 else idx
  { y with error := true, errcode := code, qerridx := at_, qread := at_, watch := none
           depunder := y.depunder || code == 0x05, head := none, valid := false
           acts := y.acts ++ (sent.map fun a => { a with acted := false }).toList }

/-- The state with a queue stopped in ERROR (spec/23 R333); a queue already in ERROR keeps its reason. -/
def State.stopQueue (s : State) (d q : Nat) (code : BitVec 8) (idx : W64) : State :=
  let f (y : Queue) : Queue := if y.error then y else y.stopAt code idx
  (s.withdraw (s.waitingOf d q)).modDie d fun x => { x with queues := tmod x.queues q f }

/-- The state with a launch's context killed: it halts without an image, and its queue stops with KILLED at the first
packet not yet dispatched. -/
def State.killLaunch (s : State) (i : Nat) : State :=
  match tfind s.launches i with
  | none => s
  | some l =>
    match l.state with
    | .complete => s
    | .killed => s
    | _ =>
      if l.killing then s
      else
        let s := s.modLaunch i fun x => { x with killing := true, state := match x.state with
          | .running => .halting
          | st => st }
        match l.queue with
        | none => s
        | some (d, q) => match tfind (s.die d).queues q with
          | some y =>
            let s := s.stopQueue d q 0x08 y.qread
            match l.state with
            | .halted _ => s.withdraw [i]
            | _ => s
          | none => s

/-- The state with the context of a core's launch killed. -/
def State.killCore (s : State) (c : Nat) : State :=
  match (s.core c).launch with
  | some i => s.killLaunch i
  | none => s

/-- A lane with MACHINE_CHECK recorded; in a kernel handler it keeps the record that entered the handler (spec/02 R42,
spec/24 R362). -/
def Lane.noteCheck (x : Lane) (f : FaultRec) : Lane := if x.hmode = .kernel then x else x.record f

/-- MACHINE_CHECK to a lane, wherever it stands: it stops, and the context is killed (spec/26 R372). -/
def State.checkLane (s : State) (l core : Nat) (f : FaultRec) : State :=
  let x := s.lane l
  (if x.live && !x.helper then (s.leaveGroup l).setLane l { x.noteCheck f with status := .stopped } else s).killCore core

/-! ## Taking an exception (spec/02 R42, spec/24 R362) -/

/-- The lane as it enters a handler (spec/24 R362); `c` is the clause whose fault it takes, as fetched, to which RTT may
return (spec/04 R71). -/
def Lane.enter (x : Lane) (f : FaultRec) (target : W64) (kernel : Bool) (c : Option Clause) : Lane :=
  let y := x.record f
  let z := if kernel then
      { y with kprev := x.priv.getLsbD 0, uprev := x.hmode == .user, hmode := .kernel, priv := x.priv ||| 1#32 }
    else { y with hmode := .user }
  { z with pc := target.setWidth 48, rslot := 0, status := .idle, kept := none, faulted := c :: x.faulted }

/-- The state after a fault of a lane is delivered (spec/02 R42, spec/09 R160, spec/24 R362): a helper becomes dormant;
TRANSLATION holds the lane at its slot, SR.FAULT0–3 as they were (log entry 16); MACHINE_CHECK kills the context; a
fault inside a kernel handler, or one bound for an SR.KTRAPV of 0, kills it too, and only the second is recorded (log
entry 51); every other fault enters the user or the kernel handler. -/
def State.deliver (s : State) (l : Nat) (f : FaultRec) : State :=
  let x := s.lane l
  let c := s.clauseOf l
  let s := s.leaveGroup l
  if x.helper then s.setLane l { x with status := .dormant }
  else if f.code = Code.machineCheck then
    (s.setLane l { x.noteCheck f with status := .stopped, rslot := f.slot }).killCore (coreOf l)
  else if f.code = Code.translation then
    s.setLane l { x with status := .translating f, rslot := f.slot, pc := f.pc, kept := c }
  else if x.hmode = .kernel then
    (s.setLane l { x with status := .stopped, rslot := f.slot, pc := f.pc }).killCore (coreOf l)
  else
    let user := (s.warp (warpOf l)).trapv
    let ktrapv := (s.core (coreOf l)).ktrapv
    if user ≠ 0 ∧ x.hmode = .normal then s.setLane l (x.enter f user false c)
    else if ktrapv ≠ 0 then s.setLane l (x.enter f ktrapv true c)
    else (s.setLane l { x.record f with status := .stopped, rslot := f.slot, pc := f.pc }).killCore (coreOf l)

/-- The state after a condition at the current slot faults in a lane. -/
def State.trap (s : State) (l : Nat) (t : Trap) : State := s.deliver l (s.faultHere t)

/-- The state after a condition at the current slot faults in each of some lanes. -/
def State.trapAll (s : State) (ls : List Nat) (t : Trap) : State := ls.foldl (fun s l => s.trap l t) s

/-- The state after the faults of some lanes at the current slot. -/
def State.trapEach (s : State) (fs : List (Nat × Trap)) : State := fs.foldl (fun s p => s.trap p.1 p.2) s

/-- A fault found in an engine's run waits for its lane to stand between clauses; a lane that has retired, parked or
become a helper takes it no more, and the context is killed (spec/13 R391). `id` is the operation's number. -/
def State.runFault (s : State) (id : Nat) (o : Origin) (t : Trap) : State :=
  let x := s.lane o.lane
  if x.status = .retired || x.helper then s.killCore o.core
  else s.setLane o.lane { x with runFaults := tset x.runFaults id (o.fault t) }

/-- The clause that the handler's lane left, when it stands at an address (spec/04 R71). -/
def Lane.faultedAt (x : Lane) (pc : Addr48) : Option Clause :=
  match x.faulted.head? with
  | some (some c) => if c.pc = pc then some c else none
  | _ => none

/-- The lane after RTT (spec/24 R363): `n` is NSLOT of the clause its record names, as the machine reads it. A PC that
is no multiple of 8 stays so, and its fetch then raises ALIGN (log entry 51). A lane that returns into the middle of
the clause whose fault it took goes on with the words fetched then (spec/04 R71, log entry 52). DESIGN CHOICE: it may
return to a literal slot, whose word is then decoded (log entry 72). -/
def Lane.returnFrom (x : Lane) (n : Nat) : Lane :=
  let code := x.f0.extractLsb' 56 8
  let k := field x.f0 52 4 + (if code = Code.userTrap ∨ code = Code.bkpt then 1 else 0)
  let h : Addr48 := x.f0.setWidth 48
  let y := if n < k then { x with pc := h + BitVec.ofNat 48 (8 * (n + 2)), rslot := 0, kept := none }
           else { x with pc := h, rslot := k, kept := if k = 0 then none else x.faultedAt h }
  let z := if x.hmode = .kernel then
      { y with priv := (x.priv &&& ~~~1#32) ||| (if x.kprev then 1 else 0),
               hmode := if x.uprev then .user else .normal }
    else { y with hmode := .normal }
  { z with f0 := 0, f1 := 0, f2 := 0, f3 := 0, faulted := x.faulted.tail
           runHandler := if x.runHandler = x.hmode then .normal else x.runHandler }

/-! ## Meetings (spec/09 R154) -/

/-- Is the lane in the Meeting state? -/
def Lane.meeting (x : Lane) : Bool := x.status == .idle && x.meet != 0 && x.pc == x.meet && x.rslot == 0

/-- One meeting address of a warp: when no lane is still coming, MEET is cleared in every live lane that names it. -/
def State.evalMeeting (s : State) (w : Nat) (m : Addr48) : State :=
  let named := (s.warpLanes w).filter fun l => (s.lane l).live && (s.lane l).meet == m
  let arrived := named.filter fun l => (s.lane l).meeting
  let d0 := arrived.foldl (fun d l => min d (s.lane l).depth.toNat) 1024
  let coming := named.filter fun l => !(s.lane l).meeting && d0 ≤ (s.lane l).depth.toNat
  if m != 0 && !arrived.isEmpty && coming.isEmpty then
    named.foldl (fun s l => s.modLane l fun x => { x with meet := 0 }) s
  else s

/-- Every meeting of a warp. -/
def State.evalMeetings (s : State) (w : Nat) : State :=
  (((s.warpLanes w).map fun l => (s.lane l).meet).eraseDups).foldl (fun s m => s.evalMeeting w m) s

/-! ## Where the group's slots go -/

/-- The state with a wait set on the current slot: it runs again once the wait has ended, and a release of it is made
anew (spec/12 R207). -/
def State.hold (s : State) (w : Wait) : State := s.modGroup fun g => { g with wait := some w, released := false }

/-- The state with lanes marked as served at the current slot. -/
def State.serve (s : State) (ls : List Nat) : State :=
  s.modGroup fun g => { g with served := g.served ++ ls }

/-- The state with a wait counter of a warp raised by one at issue (spec/02 R37). -/
def Warp.count (x : Warp) (which : Nat) (up : Bool) : Warp :=
  let f (n : Nat) : Nat := if up then n + 1 else n - 1
  match which with
  | 0 => { x with ldc := f x.ldc }
  | 1 => { x with stc := f x.stc }
  | 2 => { x with mxc := f x.mxc }
  | _ => { x with tlc := f x.tlc }

/-- The wait counters by number: 0 LDC, 1 STC, 2 MXC, 3 TLC. -/
def Warp.counter (x : Warp) (which : Nat) : Nat :=
  match which with
  | 0 => x.ldc | 1 => x.stc | 2 => x.mxc | _ => x.tlc

/-- A counter raised. -/
def State.countUp (s : State) (w which : Nat) : State := s.modWarp w fun x => x.count which true
/-- A counter lowered. -/
def State.countDown (s : State) (w which : Nat) : State := s.modWarp w fun x => x.count which false

/-- Would raising a counter of one of the warps pass 1,023 (spec/02 R37)? -/
def State.counterFull (s : State) (ws : List Nat) (which : Nat) : Bool :=
  ws.any fun w => 1023 ≤ (s.warp w).counter which

/-- Raise a counter of each warp. -/
def State.countAll (s : State) (ws : List Nat) (which : Nat) : State := ws.foldl (fun s w => s.countUp w which) s

end Sys2Proof.Machine
end

