-- ==== Sys2Proof/Machine/Flags.lean ====
section
/-! DEFINITION. Numbers: decoding of the formats, rounding with its flags, exact sums and products, conversions
(spec/03 R43 to R61). Flags are the bits of SR.GSTAT [4:0]: INVALID 1, DIVZERO 2, OVERFLOW 4, UNDERFLOW 8,
INEXACT 16. -/

namespace Sys2Proof.Machine

/-! ## Flags -/

/-- Sticky conditions of one operation (spec/02 R33, spec/03 R57). -/
abbrev Flags := BitVec 5

def flagInvalid : Flags := 1
def flagDivZero : Flags := 2
def flagOverflow : Flags := 4
def flagUnderflow : Flags := 8
def flagInexact : Flags := 16

/-- A flag, if a condition holds. -/
def flagIf (b : Bool) (f : Flags) : Flags := if b then f else 0

end Sys2Proof.Machine

namespace Sys2Proof

/-! ## Formats (R43, R44) -/

/-- Exponent bits of a floating format. -/
def Fmt.eBits : Fmt → Nat
  | .fp32 => 8 | .bf16 => 8 | .fp16 => 5 | .e4m3 => 4 | .e5m2 => 5 | .e3m2 => 3 | .e2m3 => 2 | .fp64 => 11 | _ => 0

/-- Fraction bits of a floating format. -/
def Fmt.mBits : Fmt → Nat
  | .fp32 => 23 | .bf16 => 7 | .fp16 => 10 | .e4m3 => 3 | .e5m2 => 2 | .e3m2 => 2 | .e2m3 => 3 | .fp64 => 52
  | _ => 0

/-- Exponent bias of a floating format. -/
def Fmt.bias : Fmt → Nat
  | .fp32 => 127 | .bf16 => 127 | .fp16 => 15 | .e4m3 => 7 | .e5m2 => 15 | .e3m2 => 3 | .e2m3 => 1 | .fp64 => 1023
  | _ => 0

/-- Bits of an element (R43). -/
def Fmt.width : Fmt → Nat
  | .fp32 => 32 | .bf16 => 16 | .fp16 => 16 | .e4m3 => 8 | .e5m2 => 8 | .e3m2 => 6 | .e2m3 => 6 | .int8 => 8
  | .uint8 => 8 | .int4 => 4 | .int32 => 32 | .uint32 => 32 | .aq64 => 64 | .fp64 => 64

/-- Has the format infinities and several NaNs (R44)? -/
def Fmt.ieee : Fmt → Bool
  | .fp32 => true | .bf16 => true | .fp16 => true | .e5m2 => true | .fp64 => true | _ => false

/-- Is the format E3M2 or E2M3, without infinity or NaN (R44)? -/
def Fmt.fp6 : Fmt → Bool
  | .e3m2 => true | .e2m3 => true | _ => false

/-- Is it an integer format? -/
def Fmt.isInt : Fmt → Bool
  | .int8 => true | .uint8 => true | .int4 => true | .int32 => true | .uint32 => true | _ => false

/-- The place of the sign bit. -/
def Fmt.signBit (f : Fmt) : Nat := 2 ^ (f.eBits + f.mBits)

/-- The magnitude bits of the largest finite value (R44). -/
def Fmt.maxBits (f : Fmt) : Nat :=
  if f.ieee then f.signBit - 2 ^ f.mBits - 1 else if f.fp6 then f.signBit - 1 else f.signBit - 2

/-- The magnitude bits of infinity, in a format that has it. -/
def Fmt.infBits (f : Fmt) : Nat := f.signBit - 2 ^ f.mBits

/-- The magnitude bits of the canonical NaN; MAX in a format without NaN (R44, R55). -/
def Fmt.nanBits (f : Fmt) : Nat :=
  if f.ieee then f.infBits + 2 ^ (f.mBits - 1) else f.signBit - 1

/-- A magnitude with a sign. -/
def Fmt.signed (f : Fmt) (neg : Bool) (mag : Nat) : Nat := if neg then f.signBit + mag else mag

/-- The range of an integer format (R46). -/
def Fmt.range : Fmt → Int × Int
  | .int8 => (-128, 127) | .uint8 => (0, 255) | .int4 => (-8, 7) | .uint32 => (0, 4294967295)
  | _ => (-2147483648, 2147483647)

end Sys2Proof

namespace Sys2Proof.Machine

/-! ## Values -/

/-- A value to compute with: a NaN with its sign and whether it signals, an infinity, or ±m × 2^e. -/
inductive FVal
  | nan (neg sig : Bool)
  | inf (neg : Bool)
  | fin (neg : Bool) (m : Nat) (e : Int)
  deriving DecidableEq, Repr, Inhabited

/-- Is it a NaN? -/
def FVal.isNan : FVal → Bool
  | .nan _ _ => true | _ => false
/-- Is it a signalling NaN? -/
def FVal.isSig : FVal → Bool
  | .nan _ sig => sig | _ => false
/-- Is it an infinity? -/
def FVal.isInf : FVal → Bool
  | .inf _ => true | _ => false
/-- Is it a zero? -/
def FVal.isZero : FVal → Bool
  | .fin _ m _ => m == 0 | _ => false
/-- Is it finite? -/
def FVal.isFin : FVal → Bool
  | .fin _ _ _ => true | _ => false
/-- Its sign. -/
def FVal.neg : FVal → Bool
  | .nan n _ => n | .inf n => n | .fin n _ _ => n
/-- Its negation. -/
def FVal.negate : FVal → FVal
  | .nan n s => .nan (!n) s | .inf n => .inf (!n) | .fin n m e => .fin (!n) m e
/-- Its magnitude. -/
def FVal.abs : FVal → FVal
  | .nan _ s => .nan false s | .inf _ => .inf false | .fin _ m e => .fin false m e
/-- An integer as a value. -/
def FVal.ofInt (n : Int) : FVal := .fin (n < 0) n.natAbs 0

/-- The canonical NaN as a value. -/
def FVal.canonical : FVal := .nan false false

/-- The signed mantissa. -/
def FVal.int (neg : Bool) (m : Nat) : Int := if neg then -(m : Int) else (m : Int)

/-- The value of a bit pattern (R44, R45). -/
def decodeFmt (f : Fmt) (bits : Nat) : FVal :=
  let neg := bits / f.signBit % 2 = 1
  let ex := bits / 2 ^ f.mBits % 2 ^ f.eBits
  let fr := bits % 2 ^ f.mBits
  if f.ieee ∧ ex = 2 ^ f.eBits - 1 then
    (if fr = 0 then .inf neg else .nan neg (fr < 2 ^ (f.mBits - 1)))
  else if f = .e4m3 ∧ bits % 128 = 127 then .nan neg false
  else if ex = 0 then .fin neg fr (1 - (f.bias : Int) - f.mBits)
  else .fin neg (2 ^ f.mBits + fr) ((ex : Int) - f.bias - f.mBits)

/-- FTZI: a subnormal of the format becomes a zero of the same sign (R56). -/
def FVal.flush (f : Fmt) : FVal → FVal
  | .fin neg m e => if m < 2 ^ f.mBits ∧ e = 1 - (f.bias : Int) - f.mBits then .fin neg 0 e else .fin neg m e
  | x => x

/-! ## Rounding (R52, R53) -/

/-- The rounding controls in force (R58). -/
structure Ctl where
  rm : Rm
  sat : Bool
  ftzo : Bool
  deriving DecidableEq, Repr

/-- Round to nearest even, without saturation or flushing. -/
def Ctl.nearest : Ctl := { rm := .rne, sat := false, ftzo := false }

/-- Bits of a number. -/
def bitLen (m : Nat) : Nat := if m = 0 then 0 else Nat.log2 m + 1

/-- m × 2^e as a multiple of 2^q: the multiple chosen by the mode, and whether it differs (R53). `rs` is RSBits. -/
def roundTo (rm : Rm) (rs : Nat) (neg : Bool) (m : Nat) (e q : Int) : Nat × Bool :=
  if q ≤ e then (m <<< (e - q).toNat, false)
  else
    let k := (q - e).toNat
    let lo := m >>> k
    let rem := m % 2 ^ k
    if rem = 0 then (lo, false)
    else
      let twice := 2 * rem
      let up := match rm with
        | .rz => false
        | .ru => !neg
        | .rd => neg
        | .rna => 2 ^ k ≤ twice
        | .rs =>
          let frac := ((if neg then 2 ^ k - rem else rem) <<< 32) >>> k
          (rs < frac) != neg
        | _ => 2 ^ k < twice || (twice == 2 ^ k && lo % 2 == 1)
      (if up then lo + 1 else lo, true)

/-- The value an overflow takes (R55). -/
def overflowBits (f : Fmt) (c : Ctl) (neg : Bool) : Nat :=
  let away := match c.rm with
    | .rz => false
    | .ru => !neg
    | .rd => neg
    | _ => true
  if c.sat || f.fp6 || !away then f.signed neg f.maxBits
  else f.signed neg (if f.ieee then f.infBits else f.nanBits)

/-- A finite real in a format, rounded once (R52). -/
def roundFin (f : Fmt) (c : Ctl) (rs : Nat) (neg : Bool) (m : Nat) (e : Int) : Nat × Flags :=
  if m = 0 then (f.signed neg 0, 0)
  else
    let p := f.mBits + 1
    let q := e + (bitLen m : Int) - p
    let r := roundTo c.rm rs neg m e q
    let carry := r.1 = 2 ^ p
    let y := if carry then 2 ^ f.mBits else r.1
    let qe := if carry then q + 1 else q
    let least : Int := 1 - (f.bias : Int) - f.mBits
    -- biased exponent field of y, when y is normal
    let ex := qe + f.bias + f.mBits
    if qe < least then
      if c.ftzo then (f.signed neg 0, flagUnderflow ||| flagInexact)
      else
        let t := roundTo c.rm rs neg m e least
        (f.signed neg t.1, flagIf t.2 (flagUnderflow ||| flagInexact))
    else if (f.maxBits : Int) < ex * 2 ^ f.mBits + (y - 2 ^ f.mBits : Nat) then
      (overflowBits f c neg, flagOverflow ||| flagInexact)
    else (f.signed neg (ex.toNat * 2 ^ f.mBits + (y - 2 ^ f.mBits)), flagIf r.2 flagInexact)

/-- A value in a format: Round of R52 for a finite one, R45 and R55 for the others. A NaN keeps its sign here; an
arithmetic NaN is the canonical one already. DESIGN CHOICE: an infinity that the format keeps sets no flag (log entry
64). -/
def FVal.round (f : Fmt) (c : Ctl) (rs : Nat) : FVal → Nat × Flags
  | .nan neg sig => (f.signed neg (if f.fp6 then f.maxBits else f.nanBits), flagIf (sig || f.fp6) flagInvalid)
  | .inf neg =>
    if f.ieee then (f.signed neg f.infBits, 0)
    else if f = .e4m3 ∧ !c.sat then (f.signed neg f.nanBits, flagOverflow)
    else (f.signed neg f.maxBits, flagOverflow)
  | .fin neg m e => roundFin f c rs neg m e

/-! ## Exact arithmetic (R45, R53) -/

/-- a × b, exact, with INVALID where R45 sets it. -/
def exactMul (a b : FVal) : FVal × Flags :=
  let sig := flagIf (a.isSig || b.isSig) flagInvalid
  match a, b with
  | .fin na ma ea, .fin nb mb eb => (.fin (na != nb) (ma * mb) (ea + eb), 0)
  | .nan _ _, _ => (.canonical, sig)
  | _, .nan _ _ => (.canonical, sig)
  | _, _ => if a.isZero || b.isZero then (.canonical, flagInvalid) else (.inf (a.neg != b.neg), 0)

/-- The least exponent of some values' nonzero terms, and `d` if there is none. -/
def leastExp (d : Int) : List FVal → Int
  | [] => d
  | .fin _ m e :: xs => leastExp (if m ≠ 0 ∧ e < d then e else d) xs
  | _ :: xs => leastExp d xs

/-- The first nonzero term's exponent. -/
def firstExp : List FVal → Int
  | [] => 0
  | .fin _ m e :: xs => if m = 0 then firstExp xs else e
  | _ :: xs => firstExp xs

/-- The sum of finite values as a multiple of 2^e, e at or below each exponent. -/
def sumAt (e : Int) : List FVal → Int
  | [] => 0
  | .fin neg m x :: xs => (if m = 0 then 0 else FVal.int neg (m <<< (x - e).toNat)) + sumAt e xs
  | _ :: xs => sumAt e xs

/-- Are there infinities of both signs among some values? -/
def oppositeInfs (xs : List FVal) : Bool := xs.contains (.inf false) && xs.contains (.inf true)

/-- The exact sum of some values (R45, R53): infinities of opposite sign are invalid, a NaN beside them or not (spec/08
R135); a zero sum of nonzero terms, or of zeros of two signs, is +0, and −0 in RD. -/
def exactSum (rm : Rm) (xs : List FVal) : FVal × Flags :=
  if xs.any FVal.isNan || oppositeInfs xs then
    (.canonical, flagIf (xs.any FVal.isSig || oppositeInfs xs) flagInvalid)
  else if xs.any FVal.isInf then (.inf (xs.contains (.inf true)), 0)
  else if xs.all FVal.isZero then
    if xs.all FVal.neg then (.fin true 0 0, 0)
    else if xs.all (fun x => !x.neg) then (.fin false 0 0, 0)
    else (.fin (rm == .rd) 0 0, 0)
  else
    let e := leastExp (firstExp xs) xs
    let t := sumAt e xs
    if t = 0 then (.fin (rm == .rd) 0 0, 0) else (.fin (t < 0) t.natAbs e, 0)

/-- −1, 0 or 1 as the values compare, zeros equal; none when one is a NaN. -/
def FVal.cmp (a b : FVal) : Option Int :=
  match a, b with
  | .nan _ _, _ => none
  | _, .nan _ _ => none
  | .inf na, .inf nb => some (if na = nb then 0 else if na then -1 else 1)
  | .inf na, .fin _ _ _ => some (if na then -1 else 1)
  | .fin _ _ _, .inf nb => some (if nb then 1 else -1)
  | .fin na ma ea, .fin nb mb eb =>
    let e := min ea eb
    let x := FVal.int na (ma <<< (ea - e).toNat)
    let y := FVal.int nb (mb <<< (eb - e).toNat)
    some (if x < y then -1 else if x = y then 0 else 1)

/-- n / d of nonzero numbers with `p` bits and more, the last one set when the quotient goes on. -/
def divBits (p n d : Nat) : Nat × Int :=
  let k := p + bitLen d
  let q := (n <<< k) / d
  (2 * q + (if (n <<< k) % d = 0 then 0 else 1), -(k : Int) - 1)

/-- a / b with its specials and flags (spec/08 R128): exact, or exact to more bits than any rounding here reads. -/
def exactDiv (a b : FVal) : FVal × Flags :=
  let sig := flagIf (a.isSig || b.isSig) flagInvalid
  match a, b with
  | .nan _ _, _ => (.canonical, sig)
  | _, .nan _ _ => (.canonical, sig)
  | .inf _, .inf _ => (.canonical, flagInvalid)
  | .inf na, .fin nb _ _ => (.inf (na != nb), 0)
  | .fin na _ _, .inf nb => (.fin (na != nb) 0 0, 0)
  | .fin na ma ea, .fin nb mb eb =>
    if mb = 0 then (if ma = 0 then (.canonical, flagInvalid) else (.inf (na != nb), flagDivZero))
    else if ma = 0 then (.fin (na != nb) 0 0, 0)
    else
      let r := divBits 400 ma mb
      (.fin (na != nb) r.1 (r.2 + ea - eb), 0)

/-! ## Integers (R60, R61) -/

/-- A finite real rounded to an integer by a mode. -/
def roundInt (rm : Rm) (rs : Nat) (neg : Bool) (m : Nat) (e : Int) : Int × Bool :=
  let r := roundTo rm rs neg m e 0
  (FVal.int neg r.1, r.2)

/-- An integer clamped to a range. -/
def clamp (lo hi n : Int) : Int := if n < lo then lo else if hi < n then hi else n

/-- Float to integer (R60): the integer and its flags. -/
def FVal.toInt (f : Fmt) (rm : Rm) (rs : Nat) : FVal → Int × Flags
  | .nan _ _ => (0, flagInvalid)
  | .inf neg => (if neg then f.range.1 else f.range.2, flagInvalid)
  | .fin neg m e =>
    let r := roundInt rm rs neg m e
    let c := clamp f.range.1 f.range.2 r.1
    if c = r.1 then (c, flagIf r.2 flagInexact) else (c, flagInvalid)

/-- The low `w` bits of an integer, two's complement. -/
def lowBits (w : Nat) (n : Int) : Nat := (n % (2 : Int) ^ w).toNat

/-- The integer that `w` bits hold in two's complement. -/
def signedOf (w n : Nat) : Int := if n % 2 ^ w < 2 ^ (w - 1) then (n % 2 ^ w : Nat) else (n % 2 ^ w : Nat) - (2 : Int) ^ w

/-- The integer an element of an integer format holds (R46). -/
def intOf (f : Fmt) (bits : Nat) : Int :=
  match f with
  | .uint8 => (bits % 256 : Nat)
  | .uint32 => (bits % 2 ^ 32 : Nat)
  | _ => signedOf f.width bits

/-- Integer narrowing or change of sign (R61). -/
def narrow (f : Fmt) (sat : Bool) (n : Int) : Nat × Flags :=
  let c := clamp f.range.1 f.range.2 n
  if c = n then (lowBits f.width n, 0)
  else (lowBits f.width (if sat then c else n), flagOverflow)

/-! ## AQ64 (R48, R49) -/

/-- The conversion step of R48: q, saturated, NaN. -/
def aqQuant (x : FVal) (anchor : Int) : Int × Bool × Bool :=
  let hi : Int := 2 ^ 63 - 1
  let lo : Int := -(2 ^ 63)
  match x with
  | .nan _ _ => (0, false, true)
  | .inf neg => (if neg then lo else hi, true, false)
  | .fin neg m e =>
    let q := (roundInt .rne 0 neg m (e + 62 - anchor)).1
    let c := clamp lo hi q
    (c, c != q, false)

/-- AddAQ64 (R48): the cell's word and status after an addend. -/
def aqAdd (word status : W64) (x : FVal) (anchor : Int) : W64 × W64 :=
  let q := aqQuant x anchor
  if q.2.2 then (word, status ||| 0x4000000000000000)
  else
    let t := word.toInt + q.1
    let c := clamp (-(2 ^ 63)) (2 ^ 63 - 1) t
    (BitVec.ofInt 64 c, if q.2.1 || c != t then status ||| 0x8000000000000000 else status)

/-- CVT from AQ64 (R49). -/
def aqValue (word : W64) (anchor : Int) (f : Fmt) (sat : Bool) : Nat × Flags :=
  roundFin f { rm := .rne, sat := sat, ftzo := false } 0 (word.toInt < 0) word.toInt.natAbs (anchor - 62)

/-! ## Conversions (R59) -/

/-- Which conversion a pair of formats is (R59). -/
inductive CvtKind
  | exact | rounded | toInt | narrow | copy | toAq | fromAq
  deriving DecidableEq, Repr

/-- Are all values of the integer format in the floating format? -/
def exactFromInt (src dst : Fmt) : Bool :=
  match src, dst with
  | _, .fp64 => true
  | .int8, .fp32 => true | .int8, .bf16 => true | .int8, .fp16 => true
  | .uint8, .fp32 => true | .uint8, .bf16 => true | .uint8, .fp16 => true
  | .int4, .e2m3 => false
  | .int4, _ => true
  | _, _ => false

/-- Are all values of the floating source in the floating destination? -/
def exactFromFloat (src dst : Fmt) : Bool :=
  match src, dst with
  | _, .fp64 => true
  | .bf16, .fp32 => true
  | .fp16, .fp32 => true
  | .e4m3, .fp32 => true | .e4m3, .bf16 => true | .e4m3, .fp16 => true
  | .e5m2, .fp32 => true | .e5m2, .bf16 => true | .e5m2, .fp16 => true
  | .e3m2, .fp32 => true | .e3m2, .bf16 => true | .e3m2, .fp16 => true | .e3m2, .e4m3 => true | .e3m2, .e5m2 => true
  | .e2m3, .fp32 => true | .e2m3, .bf16 => true | .e2m3, .fp16 => true | .e2m3, .e4m3 => true
  | _, _ => false

/-- Does the integer destination hold every value of the integer source? -/
def exactIntToInt (src dst : Fmt) : Bool :=
  match src, dst with
  | .int8, .int32 => true
  | .uint8, .int32 => true | .uint8, .uint32 => true
  | .int4, .int8 => true | .int4, .int32 => true
  | _, _ => false

/-- The table of R59; the pairs it marks F are no instructions. -/
def cvtKind (src dst : Fmt) : CvtKind :=
  if src = dst then .copy
  else if dst = .aq64 then .toAq
  else if src = .aq64 then .fromAq
  else if src.isInt then
    if dst.isInt then (if exactIntToInt src dst then .exact else .narrow)
    else if exactFromInt src dst then .exact else .rounded
  else if dst.isInt then .toInt
  else if exactFromFloat src dst then .exact else .rounded

end Sys2Proof.Machine
end

