-- ==== Sys2Proof/Machine/Functions.lean ====
section
/-! DEFINITION. Correctly rounded functions (spec/03 R67, spec/08 R133): 1/a, 1/√a and √a from exact integer
arithmetic; 2^a, log2 a, sin πa and cos πa from enclosures in fixed point, taken with more and more bits until the
enclosure leaves one cell of a grid finer than any rounding here reads. -/

namespace Sys2Proof.Machine

/-! ## Square roots -/

/-- Newton's steps to the integer square root from above. -/
def isqrtLoop (n : Nat) : Nat → Nat → Nat
  | 0, x => x
  | k + 1, x =>
    let y := (x + n / x) / 2
    if x ≤ y then x else isqrtLoop n k y

/-- The integer square root. -/
def isqrt (n : Nat) : Nat := if n = 0 then 0 else isqrtLoop n (bitLen n + 8) (2 ^ ((bitLen n + 1) / 2))

/-- √(m × 2^e) of a positive number, exact or to 100 bits and more with the last one set. -/
def sqrtFin (m : Nat) (e : Int) : FVal :=
  let k : Nat := 200 + (if (e - 200) % 2 = 0 then 0 else 1)
  let n := m <<< k
  let r := isqrt n
  .fin false (2 * r + (if r * r = n then 0 else 1)) ((e - k) / 2 - 1)

/-- 1/√(m × 2^e) of a positive number, exact or to 100 bits and more. -/
def rsqrtFin (m : Nat) (e : Int) : FVal :=
  let k : Nat := 2 * (bitLen m + 120) + (if e % 2 = 0 then 0 else 1)
  let n := 2 ^ k
  let r := isqrt (n / m)
  .fin false (2 * r + (if r * r * m = n then 0 else 1)) (-((e + k) / 2) - 1)

/-! ## Enclosures

A pair (lo, hi) encloses a real x: lo ≤ x × 2^p ≤ hi, the precision p known from the context. -/

/-- An enclosure, in units of 2^−p. -/
abbrev Encl := Int × Int

/-- Floor and ceiling of a / 2^p. -/
def floorShift (a : Int) (p : Nat) : Int := a / 2 ^ p
def ceilShift (a : Int) (p : Nat) : Int := -((-a) / 2 ^ p)

def enclAdd (x y : Encl) : Encl := (x.1 + y.1, x.2 + y.2)
def enclSub (x y : Encl) : Encl := (x.1 - y.2, x.2 - y.1)
def enclNeg (x : Encl) : Encl := (-x.2, -x.1)
def enclScale (n : Int) (x : Encl) : Encl := if 0 ≤ n then (n * x.1, n * x.2) else (n * x.2, n * x.1)

/-- The product of two enclosures at precision p. -/
def enclMul (p : Nat) (x y : Encl) : Encl :=
  let a := x.1 * y.1
  let b := x.1 * y.2
  let c := x.2 * y.1
  let d := x.2 * y.2
  (floorShift (min (min a b) (min c d)) p, ceilShift (max (max a b) (max c d)) p)

/-- The quotient by a positive natural number. -/
def enclDivNat (n : Nat) (x : Encl) : Encl := (x.1 / n, -((-x.2) / n))

/-- The quotient of two enclosures, the divisor positive. -/
def enclDiv (p : Nat) (x y : Encl) : Encl :=
  let fl (a b : Int) : Int := (a * 2 ^ p) / b
  let ce (a b : Int) : Int := -((-a * 2 ^ p) / b)
  (min (fl x.1 y.1) (fl x.1 y.2), max (ce x.2 y.1) (ce x.2 y.2))

/-- A rational number. -/
def enclRat (p : Nat) (n : Int) (d : Nat) : Encl := ((n * 2 ^ p) / d, -((-n * 2 ^ p) / d))

/-- A dyadic number m × 2^e. -/
def enclDyadic (p : Nat) (m e : Int) : Encl :=
  if 0 ≤ e + p then (m * 2 ^ (e + p).toNat, m * 2 ^ (e + p).toNat)
  else (floorShift m (-(e + p)).toNat, ceilShift m (-(e + p)).toNat)

/-- Widened by r on both sides. -/
def enclWiden (r : Int) (x : Encl) : Encl := (x.1 - r, x.2 + r)

/-- Terms z, z³/3, z⁵/5, … of the area tangent, for |z| ≤ 1/2; z2 is z². The rest after the last term is below it. -/
def atanhLoop (p : Nat) (z2 : Encl) : Nat → Nat → Encl → Encl → Encl
  | 0, _, pow, acc => enclWiden (pow.1.natAbs + pow.2.natAbs + 1) acc
  | k + 1, n, pow, acc =>
    atanhLoop p z2 k (n + 2) (enclMul p pow z2) (enclAdd acc (enclDivNat n pow))

/-- ln((1 + z)/(1 − z)) for |z| ≤ 1/2: twice the area tangent. -/
def lnRatio (p : Nat) (z : Encl) : Encl :=
  enclScale 2 (atanhLoop p (enclMul p z z) (p / 2 + 8) 1 z (0, 0))

/-- ln 2. -/
def ln2 (p : Nat) : Encl := lnRatio p (enclRat p 1 3)

/-- Terms of e^x for |x| ≤ 1: `pow` is x^(n−1)/(n−1)!. -/
def expLoop (p : Nat) (x : Encl) : Nat → Nat → Encl → Encl → Encl
  | 0, _, pow, acc => enclWiden (2 * (pow.1.natAbs + pow.2.natAbs + 1)) acc
  | k + 1, n, pow, acc => expLoop p x k (n + 1) (enclDivNat n (enclMul p pow x)) (enclAdd acc pow)

/-- e^x for |x| ≤ 1. -/
def expSmall (p : Nat) (x : Encl) : Encl := expLoop p x (p / 3 + 12) 1 (2 ^ p, 2 ^ p) (0, 0)

/-- Terms of the arc tangent of 1/k: `pow` is (1/k)^(2j+1). -/
def atanLoop (p k2 : Nat) : Nat → Nat → Bool → Encl → Encl → Encl
  | 0, _, _, pow, acc => enclWiden (pow.1.natAbs + pow.2.natAbs + 1) acc
  | k + 1, n, neg, pow, acc =>
    let t := enclDivNat n pow
    atanLoop p k2 k (n + 2) (!neg) (enclDivNat k2 pow) (if neg then enclSub acc t else enclAdd acc t)

/-- The arc tangent of 1/k, k ≥ 2. -/
def atanInv (p k : Nat) : Encl := atanLoop p (k * k) (p / 4 + 8) 1 false (enclRat p 1 k) (0, 0)

/-- π, by Machin's formula. -/
def piEncl (p : Nat) : Encl :=
  enclScale 4 (enclSub (enclScale 4 (atanInv p 5)) (atanInv p 239))

/-- Terms of a sine or cosine series for |x| ≤ 2: `pow` is x^(n−1)/(n−1)!, signs alternate. -/
def trigLoop (p : Nat) (x2 : Encl) : Nat → Nat → Bool → Encl → Encl → Encl
  | 0, _, _, pow, acc => enclWiden (2 * (pow.1.natAbs + pow.2.natAbs + 1)) acc
  | k + 1, n, neg, pow, acc =>
    trigLoop p x2 k (n + 2) (!neg) (enclDivNat (n * (n + 1)) (enclMul p pow x2))
      (if neg then enclSub acc pow else enclAdd acc pow)

/-- sin x for |x| ≤ 2. -/
def sinEncl (p : Nat) (x : Encl) : Encl := trigLoop p (enclMul p x x) (p / 6 + 12) 2 false x (0, 0)

/-- cos x for |x| ≤ 2. -/
def cosEncl (p : Nat) (x : Encl) : Encl := trigLoop p (enclMul p x x) (p / 6 + 12) 1 false (2 ^ p, 2 ^ p) (0, 0)

/-! ## From an enclosure to a value to round -/

/-- The value an enclosure settles at precision p: all of it lies in one cell of a grid of 64 bits. The value never lies
on the grid, so that cell with its last bit set rounds as the value does. -/
def settle (p : Nat) (x : Encl) : Option FVal :=
  let go (neg : Bool) (lo hi : Nat) : Option FVal :=
    let k := bitLen hi - 64
    if bitLen hi < 70 then none
    else if lo >>> k = hi >>> k then some (.fin neg (2 * (lo >>> k) + 1) ((k : Int) - p - 1))
    else none
  if 0 < x.1 then go false x.1.toNat x.2.toNat
  else if x.2 < 0 then go true (-x.2).toNat (-x.1).toNat
  else none

/-- The first precision of a list that settles an enclosure. -/
def settleAt (f : Nat → Encl) : List Nat → Option FVal
  | [] => none
  | p :: ps =>
    match settle p (f p) with
    | some v => some v
    | none => settleAt f ps

/-- Precisions tried in turn (log entry 11). -/
def precisions : List Nat := [256, 512, 1024]

/-- A dyadic number's floor, and the rest as an enclosure. -/
def splitDyadic (p : Nat) (m e : Int) : Int × Encl :=
  if 0 ≤ e then (m * 2 ^ e.toNat, (0, 0))
  else
    let n := floorShift m (-e).toNat
    (n, enclDyadic p (m - n * 2 ^ (-e).toNat) e)

/-- A value times a power of two. -/
def FVal.scale (k : Int) : FVal → FVal
  | .fin neg m e => .fin neg m (e + k)
  | x => x

/-- 2^(m × 2^e) of a number that is no integer and lies in −400 to 400. -/
def exp2Fin (m e : Int) : Option FVal :=
  let n := (splitDyadic 0 m e).1
  (settleAt (fun p => expSmall p (enclMul p (splitDyadic p m e).2 (ln2 p))) precisions).map (FVal.scale n)

/-- log2 of m × 2^e, m no power of two. -/
def log2Fin (m : Nat) (e : Int) : Option FVal :=
  let b := bitLen m
  -- m × 2^−(b−1) lies in (1, 2); above 3/2 it is halved
  let up : Nat := if 3 * 2 ^ (b - 1) ≤ 2 * m then 1 else 0
  let n : Int := e + (b - 1 : Nat) + up
  let one : Nat := 2 ^ (b - 1 + up)
  settleAt (fun p =>
    let z := enclRat p ((m : Int) - one) (m + one)
    enclAdd (enclScale n (2 ^ p, 2 ^ p)) (enclDiv p (lnRatio p z) (ln2 p))) precisions

/-- sin(πr) and cos(πr) of r = m × 2^e, 0 < r < 1/2. -/
def sinPiSmall (m : Nat) (e : Int) : Option FVal :=
  settleAt (fun p => sinEncl p (enclMul p (enclDyadic p m e) (piEncl p))) precisions
def cosPiSmall (m : Nat) (e : Int) : Option FVal :=
  settleAt (fun p => cosEncl p (enclMul p (enclDyadic p m e) (piEncl p))) precisions

/-- sin(πa) or cos(πa) of a magnitude a = m × 2^e that is no multiple of 1/2: a mod 2 by quarter turns. -/
def trigPi (cos : Bool) (neg : Bool) (m : Nat) (e : Int) : Option FVal :=
  let k := (-e).toNat
  let half := 2 ^ (k - 1)
  let q := m / half % 4
  let r := m % half
  -- sin(π(q/2 + r)): by quarter, sin r, cos r, −sin r, −cos r; the cosine one quarter later
  let turn := if cos then (q + 1) % 4 else q
  let v := if turn % 2 = 0 then sinPiSmall r e else cosPiSmall r e
  v.map fun x => if (2 ≤ turn) != (neg && !cos) then x.negate else x

/-! ## The functions with their special cases (R133) -/

/-- The functions of R133. -/
inductive RealFn
  | rcp | rsq | sqrt | exp2 | log2 | sinpi | cospi
  deriving DecidableEq, Repr

/-- The value of a function to be rounded once, with the flags of its special cases; none when the precisions do not
settle it. -/
def realFn (f : RealFn) (a : FVal) : Option (FVal × Flags) :=
  let one : FVal := .fin false 1 0
  let invalid : Option (FVal × Flags) := some (.canonical, flagInvalid)
  match a with
  | .nan _ sig => some (.canonical, flagIf sig flagInvalid)
  | .inf neg =>
    match f with
    | .rcp => some (.fin neg 0 0, 0)
    | .rsq => if neg then invalid else some (.fin false 0 0, 0)
    | .sqrt => if neg then invalid else some (.inf false, 0)
    | .exp2 => some (if neg then .fin false 0 0 else .inf false, 0)
    | .log2 => if neg then invalid else some (.inf false, 0)
    | .sinpi => invalid
    | .cospi => invalid
  | .fin neg m e =>
    if m = 0 then
      match f with
      | .rcp => some (.inf neg, flagDivZero)
      | .rsq => some (.inf neg, flagDivZero)
      | .sqrt => some (.fin neg 0 0, 0)
      | .exp2 => some (one, 0)
      | .log2 => some (.inf true, flagDivZero)
      | .sinpi => some (.fin neg 0 0, 0)
      | .cospi => some (one, 0)
    else
      match f with
      | .rcp => some (exactDiv one a)
      | .rsq => if neg then invalid else some (rsqrtFin m e, 0)
      | .sqrt => if neg then invalid else some (sqrtFin m e, 0)
      | .exp2 =>
        let x := FVal.int neg m
        -- beyond ±400 every result overflows, or lies below 2^−300 and rounds alike
        if 0 ≤ e ∧ 400 ≤ m * 2 ^ e.toNat ∨ e < 0 ∧ 400 ≤ m >>> (-e).toNat then
          some (.fin false 1 (if neg then -400 else 400), 0)
        else if 0 ≤ e ∨ m % 2 ^ (-e).toNat = 0 then some (.fin false 1 (splitDyadic 0 x e).1, 0)
        else (exp2Fin x e).map fun v => (v, 0)
      | .log2 =>
        if neg then invalid
        else if m = 2 ^ (bitLen m - 1) then some (FVal.ofInt (e + (bitLen m - 1 : Nat)), 0)
        else (log2Fin m e).map fun v => (v, 0)
      | .sinpi =>
        -- 2a as an integer, where it is one
        if 0 ≤ e ∨ m % 2 ^ (-e).toNat = 0 then some (.fin neg 0 0, 0)
        else if m % 2 ^ (-e - 1).toNat = 0 then
          some (.fin ((m >>> (-e).toNat % 2 == 1) != neg) 1 0, 0)
        else (trigPi false neg m e).map fun v => (v, 0)
      | .cospi =>
        if 0 ≤ e ∨ m % 2 ^ (-e).toNat = 0 then
          some (.fin (if 0 ≤ e then m * 2 ^ e.toNat % 2 == 1 else m >>> (-e).toNat % 2 == 1) 1 0, 0)
        else if m % 2 ^ (-e - 1).toNat = 0 then some (.fin false 0 0, 0)
        else (trigPi true neg m e).map fun v => (v, 0)

end Sys2Proof.Machine
end

