-- ==== Sys2Proof/Machine/Operands.lean ====
section
/-! DEFINITION. Operand forms: what each operand reads as in each type, where results go, the rounding controls and
random bits of a lane, and which registers an instruction names (spec/02 R21 to R30; spec/04 R78 to R83; spec/03 R54,
R58; spec/07 R105; spec/08 R125). -/

namespace Sys2Proof.Machine

/-! ## Inline constants (spec/04 R81) -/

/-- The FP32 bits of K25 to K56. -/
def kReals : List W32 :=
  [0x3B800000, 0x3C000000, 0x3C800000, 0x3D000000, 0x3D800000, 0x3E000000, 0x3E800000, 0x3F000000,
   0x3F800000, 0x40000000, 0x40800000, 0x41000000, 0x41800000, 0x42000000, 0x42800000, 0x43000000]
  ++ [0x3EAAAAAB, 0x3E4CCCCD, 0x3E2AAAAB, 0x3E124925, 0x3DE38E39, 0x3DCCCCCD, 0x3DAAAAAB, 0x3C23D70A,
   0x3F317218, 0x3FB8AA3B, 0x40490FDB, 0x3EA2F983, 0x3FB504F3, 0x3F3504F3, 0x40549A78, 0x3E9A209B]

/-- The bits of K57 to K63. -/
def kPatterns : List W32 :=
  [0x000000FF, 0x0000FFFF, 0x00FF00FF, 0x0F0F0F0F, 0x33333333, 0x55555555, 0x80000000]

/-- The kind and value of an entry: an integer, the FP32 bits of a real, or a pattern. -/
inductive KEntry
  | int (n : Int)
  | real (bits : W32)
  | pattern (bits : W32)
  deriving DecidableEq, Repr

/-- Entry Ki. -/
def kEntry (i : Nat) : KEntry :=
  if i < 17 then .int i
  else if i < 25 then .int (16 - (i : Int))
  else if i < 57 then .real (kReals.getD (i - 25) 0)
  else .pattern (kPatterns.getD (i - 57) 0)

/-- The 32-bit integer reading. -/
def kInt (i : Nat) : W32 :=
  match kEntry i with
  | .int n => BitVec.ofInt 32 n
  | .real b => b
  | .pattern b => b

/-- The FP32 reading. -/
def kFp32 (i : Nat) : W32 :=
  match kEntry i with
  | .int n => BitVec.ofNat 32 ((FVal.ofInt n).round .fp32 Ctl.nearest 0).1
  | .real b => b
  | .pattern b => b

/-- Bits of the position an element of a format takes in a register (spec/03 R50). -/
def posWidth (f : Fmt) : Nat := if f.width = 6 then 8 else f.width

/-- An element in every position of a 32-bit word. -/
def replicateElem (f : Fmt) (x : Nat) : W32 :=
  BitVec.ofNat 32 ((List.range (32 / posWidth f)).foldl (fun acc i => acc + x * 2 ^ (posWidth f * i)) 0)

/-- The reading in an element type of 16, 8, 6 or 4 bits: the same element in every position. -/
def kElem (f : Fmt) (i : Nat) : W32 :=
  match kEntry i with
  | .int n =>
    if f.isInt then replicateElem f (lowBits f.width n)
    else replicateElem f ((FVal.ofInt n).round f { rm := .rne, sat := true, ftzo := false } 0).1
  | .real b =>
    if f.isInt then replicateElem f (b.toNat % 2 ^ f.width)
    else replicateElem f ((decodeFmt .fp32 b.toNat).round f { rm := .rne, sat := true, ftzo := false } 0).1
  | .pattern b => replicateElem f (b.toNat % 2 ^ f.width)

/-- The type a 32-bit field is read in. -/
inductive RType
  | int | fp32 | elem (f : Fmt)
  deriving DecidableEq, Repr

/-- The type in which a field of a format is read. -/
def rtypeOf (f : Fmt) : RType :=
  match f with
  | .fp32 => .fp32
  | .int32 => .int
  | .uint32 => .int
  | .aq64 => .int
  | .fp64 => .int
  | f => .elem f

/-- Entry Ki in a type. -/
def kRead (ty : RType) (i : Nat) : W32 :=
  match ty with
  | .int => kInt i
  | .fp32 => kFp32 i
  | .elem f => kElem f i

/-! ## Reading operands -/

/-- The special values (spec/04 R80). -/
def State.special (s : State) (l : Nat) (x : Special) : W32 :=
  let c := coreOf l
  match x with
  | .zero => 0
  | .ones => 0xFFFFFFFF
  | .homelane => BitVec.ofNat 32 (homeLane l)
  | .quadlane => BitVec.ofNat 32 (homeLane l % 4)
  | .homewarp => BitVec.ofNat 32 (homeWarp l)
  | .threadid => BitVec.ofNat 32 (threadId l)
  | .blockid => BitVec.ofNat 32 (s.blockId c)
  | .clusterid => BitVec.ofNat 32 (clusterOf c)
  | .dieid => BitVec.ofNat 32 (dieOf c)
  | .coreid => BitVec.ofNat 32 c
  | .gtlo => BitVec.ofNat 32 (s.coreGt c)
  | .gthi => BitVec.ofNat 32 (s.coreGt c / 2 ^ 32)
  | .depth => (s.lane l).depth.setWidth 32
  | .helper => if (s.lane l).helper then 1 else 0
  | .spawned => if (s.lane l).spawned then 1 else 0
  | .nthreads => BitVec.ofNat 32 (((s.launchOf c).map Launch.threads).getD 0)

/-- A V register of a lane. -/
def State.vreg (s : State) (l i : Nat) : W32 := tget 0 (s.lane l).v i

/-- An S register of a lane's warp. -/
def State.sreg (s : State) (l i : Nat) : W32 := tget 0 (s.warp (warpOf l)).s i

/-- A 32-bit source. NONE, and what no 32-bit field accepts, reads as 0. -/
def State.src (s : State) (l : Nat) (ty : RType) (o : Operand) : W32 :=
  match o with
  | .v i => s.vreg l i.val
  | .k i => kRead ty i.val
  | .sp x => s.special l x
  | .s i => s.sreg l i.val
  | .p i => if (s.lane l).pred i.val then 1 else 0
  | .lit x => x
  | .g _ => 0
  | .t _ => 0
  | .none => 0

/-- Two words as a pair, low word first (spec/02 R25). -/
def pairOfWords (lo hi : W32) : W64 := (hi ++ lo).cast rfl

/-- A 64-bit source: K and LIT sign-extended, special values and P zero-extended. -/
def State.src64 (s : State) (l : Nat) (o : Operand) : W64 :=
  match o with
  | .v i => pairOfWords (s.vreg l i.val) (s.vreg l (i.val + 1))
  | .s i => pairOfWords (s.sreg l i.val) (s.sreg l (i.val + 1))
  | .k i => (kInt i.val).signExtend 64
  | .lit x => x.signExtend 64
  | o => (s.src l .int o).setWidth 64

/-- `n` words from a V or S register upward. -/
def State.srcRun (s : State) (l n : Nat) (o : Operand) : List W32 :=
  match o with
  | .v i => (List.range n).map fun k => s.vreg l (i.val + k)
  | .s i => (List.range n).map fun k => s.sreg l (i.val + k)
  | o => (List.range n).map fun _ => s.src l .int o

/-- A source of one or two words, as a number of 64 bits. -/
def State.srcWord (s : State) (l : Nat) (w64 : Bool) (o : Operand) : W64 :=
  if w64 then s.src64 l o else (s.src l .int o).setWidth 64

/-! ## Writing results -/

/-- Words of a pair, low first. -/
def wordsOf (x : W64) : List W32 := [x.setWidth 32, x.extractLsb' 32 32]

/-- Consecutive entries written. -/
def putRun (t : Tab W32) (i : Nat) : List W32 → Tab W32
  | [] => t
  | x :: xs => putRun (tput 0 t i x) (i + 1) xs

/-- A lane with a result in its own registers: V, or P as result ≠ 0 (spec/02 R27). -/
def Lane.put (x : Lane) (d : Operand) (vals : List W32) : Lane :=
  match d with
  | .v i => { x with v := putRun x.v i.val vals }
  | .p i => x.setPred i.val ((vals.getD 0 0) != 0)
  | _ => x

/-- A warp with a result in its S registers. -/
def Warp.put (x : Warp) (d : Operand) (vals : List W32) : Warp :=
  match d with
  | .s i => { x with s := putRun x.s i.val vals }
  | _ => x

/-- The register `n` places after one of V or S; any other operand stands for itself. -/
def laterReg (d : Operand) (n : Nat) : Operand :=
  match d with
  | .v i => if h : i.val + n < 384 then .v ⟨i.val + n, h⟩ else d
  | .s i => if h : i.val + n < 64 then .s ⟨i.val + n, h⟩ else d
  | _ => d

/-- Is the operand a warp register? -/
def isSReg : Operand → Bool
  | .s _ => true
  | _ => false

/-- Results of some lanes: a lane register in each lane; an S register once for each warp, from its lowest lane that is
no helper (spec/02 R22). -/
def State.commit (s : State) (d : Operand) (rs : List (Nat × List W32)) : State :=
  if isSReg d then
    let ls := (rs.map (·.1)).filter fun l => !(s.lane l).helper
    let low := lowestOf ls
    rs.foldl (fun t r => if low.contains r.1 then t.modWarp (warpOf r.1) (·.put d r.2) else t) s
  else rs.foldl (fun t r => t.modLane r.1 (·.put d r.2)) s

/-! ## Rounding controls (spec/03 R58) and random bits (R54) -/

/-- SR.MODE's six bits for a format; for an integer format its INT field (spec/02 R32). -/
def modeField (m : W64) (f : Fmt) : Nat :=
  match f with
  | .fp32 => field m 0 6
  | .bf16 => field m 6 6
  | .fp16 => field m 12 6
  | .e4m3 => field m 18 6
  | .e5m2 => field m 24 6
  | .e3m2 => field m 30 6
  | .e2m3 => field m 36 6
  | .fp64 => 0
  | _ => field m 42 6

/-- The controls of a result in a format: the instruction's mode, or the mode register's. -/
def ctlOf (m : W64) (f : Fmt) (rm : Rm) : Ctl where
  rm := if rm = .mode then (Rm.ofCode (modeField m f % 8)).getD .rne else rm
  sat := modeField m f / 8 % 2 = 1
  ftzo := modeField m f / 32 % 2 = 1

/-- FTZI of a format. -/
def ftzi (m : W64) (f : Fmt) : Bool := f ≠ .fp64 && !f.isInt && modeField m f / 16 % 2 = 1

/-- A value after FTZI. -/
def flushIn (m : W64) (f : Fmt) (x : FVal) : FVal := if ftzi m f then x.flush f else x

/-- SR.MODE of a lane's warp. -/
def State.mode (s : State) (l : Nat) : W64 := (s.warp (warpOf l)).mode

/-- Mix (R54). -/
def mix (z : W64) : W64 :=
  let z := (z ^^^ (z >>> 30)) * 0xBF58476D1CE4E5B9
  let z := (z ^^^ (z >>> 27)) * 0x94D049BB133111EB
  z ^^^ (z >>> 31)

/-- RSBits (R54). -/
def rsBits (seed iaddr : W64) (gtid rsctr : W32) (e : Nat) : Nat :=
  let h := mix (seed ^^^ iaddr)
  let h := mix (h ^^^ gtid.setWidth 64)
  let h := mix (h ^^^ rsctr.setWidth 64)
  (mix (h ^^^ BitVec.ofNat 64 e)).toNat % 2 ^ 32

/-- The address of a slot. -/
def slotAddr (pc : Addr48) (slot : Nat) : W64 := pc.setWidth 64 + BitVec.ofNat 64 (8 * (slot + 1))

/-- RSBits of a lane at the current slot. -/
def State.rs (s : State) (l e : Nat) : Nat :=
  rsBits (s.warp (warpOf l)).seed (slotAddr s.group.pc s.group.slot) (s.gtid l) (s.lane l).rsctr e

/-- RSBits of an engine's operation: those of the lane that issued it (R54). -/
def Origin.rs (o : Origin) (e : Nat) : Nat := rsBits o.seed (slotAddr o.pc o.slot) o.gtid o.rsctr e

/-! ## Instructions with a result in each lane -/

/-- What a lane's part of an instruction gives: result words, flags and whether it rounded under RS; or a fault. -/
inductive LaneRes
  | ok (vals : List W32) (flags : Flags := 0) (rs : Bool := false)
  | fault (t : Trap)
  deriving DecidableEq, Repr, Inhabited

/-- The results among some lanes' answers. -/
def goodOf (rs : List (Nat × LaneRes)) : List (Nat × List W32) :=
  rs.filterMap fun r => match r.2 with
    | .ok vals _ _ => some (r.1, vals)
    | .fault _ => none

/-- The faults among some lanes' answers. -/
def badOf (rs : List (Nat × LaneRes)) : List (Nat × Trap) :=
  rs.filterMap fun r => match r.2 with
    | .ok _ _ _ => none
    | .fault t => some (r.1, t)

/-- A lane with the flags of a result and its RS counter advanced from what the slot started with (spec/03 R54, R57). -/
def Lane.after (x : Lane) (flags : Flags) (rs : Bool) (ctr : W32) : Lane :=
  { x.sticky flags with rsctr := if rs then ctr + 1 else x.rsctr }

/-- The state with the flags and RS counters of some lanes' answers. -/
def State.noteFlags (s : State) (rs : List (Nat × LaneRes)) : State :=
  rs.foldl (fun t r => match r.2 with
    | .ok _ f u => t.modLane r.1 (·.after f u (s.lane r.1).rsctr)
    | .fault _ => t) s

/-- Each executing lane computes its result from the state at the slot's start; then all results are written, and the
lanes that faulted take their faults. -/
def State.perLane (s : State) (g : Guard) (d : Operand) (f : Nat → LaneRes) : State :=
  let rs := (s.exec g).map fun l => (l, f l)
  (((s.commit d (goodOf rs)).noteFlags rs)).trapEach (badOf rs)

/-- The meaning of an instruction that computes one result in each executing lane. -/
def perLane (g : Guard) (d : Operand) (s : State) (f : Nat → LaneRes) : Out := .next (s.perLane g d f)

/-! ## Which registers an instruction names (spec/04 R73) -/

/-- Registers a field of a kind spans. -/
def fieldSpan : FieldKind → Nat
  | .srcPair => 2 | .srcData => 2 | .pair => 2 | .quad => 4 | .handleOrPair => 2 | .record => 24
  | .run n => n | .evenRun n => n | .evenRunOpt n => n | .vrun n => n | _ => 1

/-- The operands of an instruction with the registers each spans. -/
def instrSpans (i : Instr) : List (Operand × Nat) :=
  match i.fields with
  | none => []
  | some (_, o) =>
    let sh := i.shape
    [(o.d, fieldSpan sh.d), (o.a, fieldSpan sh.a), (o.b, fieldSpan sh.b), (o.c, fieldSpan sh.c)]

/-- Do two runs of registers of one file meet? -/
def spansMeet (a : Operand) (n : Nat) (b : Operand) (m : Nat) : Bool :=
  match a, b with
  | .v i, .v j => i.val < j.val + m && j.val < i.val + n
  | .s i, .s j => i.val < j.val + m && j.val < i.val + n
  | .p i, .p j => i == j
  | .g i, .g j => i == j
  | _, _ => false

/-- Half bytes an element takes. -/
def elemNibbles (f : Fmt) : Nat :=
  match f with
  | .fp32 | .int32 | .uint32 => 8
  | .bf16 | .fp16 => 4
  | .int4 => 1
  | .fp64 => 16
  | .aq64 => 32
  | _ => 2

end Sys2Proof.Machine
end

