-- ==== Sys2Proof/Machine/Float.lean ====
section
/-! DEFINITION. Floating-point, conversion and quantisation instructions (spec/08 R124 to R144). -/

namespace Sys2Proof.Machine

/-! ## What the instructions share -/

/-- A 32-bit source as a value of a format, before FTZI. -/
def State.rawVal (s : State) (l : Nat) (f : Fmt) (o : Operand) : FVal :=
  decodeFmt f ((s.src l (rtypeOf f) o).toNat % 2 ^ f.width)

/-- A 32-bit source as a value of a format, after FTZI of the format. -/
def State.val (s : State) (l : Nat) (f : Fmt) (o : Operand) : FVal := flushIn (s.mode l) f (s.rawVal l f o)

/-- The controls of a result of a lane (spec/03 R58). -/
def State.ctl (s : State) (l : Nat) (f : Fmt) (rm : Rm) : Ctl := ctlOf (s.mode l) f rm

/-- Is RS in force? -/
def Ctl.isRs (c : Ctl) : Bool := c.rm == .rs

/-- A value rounded as a lane's result, with flags found before. DESIGN CHOICE: under RS it counts as rounded, whatever
the value is (log entry 61). -/
def State.rounded (s : State) (l : Nat) (f : Fmt) (rm : Rm) (x : FVal × Flags) : LaneRes :=
  let c := s.ctl l f rm
  let r := x.1.round f c (s.rs l 0)
  .ok [BitVec.ofNat 32 r.1] (x.2 ||| r.2) c.isRs

/-- A NaN result of arithmetic is the canonical NaN with sign 0 (R45). -/
def arith (x : FVal) : FVal × Flags :=
  match x with
  | .nan _ sig => (.canonical, flagIf sig flagInvalid)
  | x => (x, 0)

/-- The sum of an exact product and a value. -/
def exactFma (rm : Rm) (a b c : FVal) : FVal × Flags :=
  let p := exactMul a b
  let r := exactSum rm [p.1, c]
  (r.1, p.2 ||| r.2)

/-! ## Basic arithmetic (R128) -/

/-- FADD. -/
def execFadd (g : Guard) (o : Ops) (rm : Rm) (s : State) : Out :=
  perLane g o.d s fun l =>
    s.rounded l .fp32 rm (exactSum (s.ctl l .fp32 rm).rm [s.val l .fp32 o.a, s.val l .fp32 o.b])
/-- FSUB. -/
def execFsub (g : Guard) (o : Ops) (rm : Rm) (s : State) : Out :=
  perLane g o.d s fun l =>
    s.rounded l .fp32 rm (exactSum (s.ctl l .fp32 rm).rm [s.val l .fp32 o.a, (s.val l .fp32 o.b).negate])
/-- FMUL. -/
def execFmul (g : Guard) (o : Ops) (rm : Rm) (s : State) : Out :=
  perLane g o.d s fun l => s.rounded l .fp32 rm (exactMul (s.val l .fp32 o.a) (s.val l .fp32 o.b))
/-- FFMA. -/
def execFfma (g : Guard) (o : Ops) (rm : Rm) (s : State) : Out :=
  perLane g o.d s fun l =>
    s.rounded l .fp32 rm
      (exactFma (s.ctl l .fp32 rm).rm (s.val l .fp32 o.a) (s.val l .fp32 o.b) (s.val l .fp32 o.c))
/-- FDIV. -/
def execFdiv (g : Guard) (o : Ops) (rm : Rm) (s : State) : Out :=
  perLane g o.d s fun l => s.rounded l .fp32 rm (exactDiv (s.val l .fp32 o.a) (s.val l .fp32 o.b))
/-- FSCALE: beyond ±1000 every nonzero result overflows, or lies below 2^−800 and rounds alike. -/
def execFscale (g : Guard) (o : Ops) (rm : Rm) (s : State) : Out :=
  perLane g o.d s fun l =>
    s.rounded l .fp32 rm (arith ((s.val l .fp32 o.a).scale (clamp (-1000) 1000 (s.src l .int o.b).toInt)))

/-! ## Minimum, maximum, comparison and class (R129 to R131) -/

/-- An FP32 source's bits after FTZI: a flushed subnormal is a zero with its sign. -/
def State.valBits (s : State) (l : Nat) (o : Operand) : W32 :=
  let b := s.src l .fp32 o
  if ftzi (s.mode l) .fp32 && b &&& 0x7F800000 == 0 then b &&& 0x80000000 else b

/-- FMIN and FMAX of two FP32 values, with −0 below +0 (R129). -/
def minMax (max nanForm : Bool) (a b : W32) : W32 × Flags :=
  let x := decodeFmt .fp32 a.toNat
  let y := decodeFmt .fp32 b.toNat
  let flags := flagIf (x.isSig || y.isSig) flagInvalid
  let nan : W32 := 0x7FC00000
  if (x.isNan && y.isNan) || ((x.isNan || y.isNan) && nanForm) then (nan, flags)
  else if x.isNan then (b, flags)
  else if y.isNan then (a, flags)
  else
    let c := (x.cmp y).getD 0
    let lt := c < 0 || (c == 0 && x.neg && !y.neg)
    (if max then (if lt then b else a)
     else if lt then a else if c == 0 && !y.neg then a else b, flags)

/-- FMIN. -/
def execFmin (g : Guard) (o : Ops) (nan : Bool) (s : State) : Out :=
  perLane g o.d s fun l =>
    let r := minMax false nan (s.valBits l o.a) (s.valBits l o.b)
    .ok [r.1] r.2
/-- FMAX. -/
def execFmax (g : Guard) (o : Ops) (nan : Bool) (s : State) : Out :=
  perLane g o.d s fun l =>
    let r := minMax true nan (s.valBits l o.a) (s.valBits l o.b)
    .ok [r.1] r.2

/-- The relations of R130, on how two values compare. -/
def fcmpHolds (cmp : FCmp) (c : Option Int) : Bool :=
  match cmp, c with
  | .num, c => c.isSome
  | .nan, c => c.isNone
  | .eq, some c => c == 0
  | .ne, some c => c != 0
  | .lt, some c => c < 0
  | .le, some c => c ≤ 0
  | .gt, some c => 0 < c
  | .ge, some c => 0 ≤ c
  | .equ, some c => c == 0
  | .neu, some c => c != 0
  | .ltu, some c => c < 0
  | .leu, some c => c ≤ 0
  | .gtu, some c => 0 < c
  | .geu, some c => 0 ≤ c
  | .eq, none => false
  | .ne, none => false
  | .lt, none => false
  | .le, none => false
  | .gt, none => false
  | .ge, none => false
  | .equ, none => true
  | .neu, none => true
  | .ltu, none => true
  | .leu, none => true
  | .gtu, none => true
  | .geu, none => true

/-- FTEST (R130). -/
def execFtest (g : Guard) (o : Ops) (cmp : FCmp) (s : State) : Out :=
  perLane g o.d s fun l =>
    let a := s.val l .fp32 o.a
    let b := s.val l .fp32 o.b
    .ok [if fcmpHolds cmp (a.cmp b) then 1 else 0] (flagIf (a.isSig || b.isSig) flagInvalid)

/-- The class of an FP32 pattern: bits 0 to 9 of R98. -/
def classBit (b : W32) : Nat :=
  let x := decodeFmt .fp32 b.toNat
  match x with
  | .nan _ sig => if sig then 8 else 9
  | .inf neg => if neg then 0 else 7
  | .fin neg m _ =>
    if m = 0 then (if neg then 3 else 4)
    else if m < 2 ^ 23 then (if neg then 2 else 5)
    else if neg then 1 else 6

/-- FCLASS (R131). -/
def execFclass (g : Guard) (o : Ops) (mask : BitVec 10) (s : State) : Out :=
  perLane g o.d s fun l => .ok [if mask.getLsbD (classBit (s.src l .fp32 o.a)) then 1 else 0]

/-! ## Functions (R132, R133) -/

/-- FRND (R132). DESIGN CHOICE: values that R132 returns unchanged, and a NaN, are not rounded, and do not advance
RSCTR (log entry 61). -/
def execFrnd (g : Guard) (o : Ops) (rm : Rm) (s : State) : Out :=
  perLane g o.d s fun l =>
    match s.val l .fp32 o.a with
    | .nan _ sig => .ok [0x7FC00000] (flagIf sig flagInvalid)
    | .inf _ => .ok [s.valBits l o.a]
    | .fin neg m e =>
      if m = 0 ∨ 0 ≤ e then .ok [s.valBits l o.a]
      else
        let c := s.ctl l .fp32 rm
        let r := roundTo c.rm (s.rs l 0) neg m e 0
        .ok [BitVec.ofNat 32 (roundFin .fp32 Ctl.nearest 0 neg r.1 0).1] (flagIf r.2 flagInexact) c.isRs

/-- The number of a function, for its free value. -/
def RealFn.number : RealFn → Nat
  | .rcp => 0 | .rsq => 1 | .sqrt => 2 | .exp2 => 3 | .log2 => 4 | .sinpi => 5 | .cospi => 6

/-- The integer that a finite value is, if it is one. -/
def FVal.integer : FVal → Option Int
  | .fin neg m e =>
    if 0 ≤ e then some (FVal.int neg (m * 2 ^ e.toNat))
    else if m % 2 ^ (-e).toNat = 0 then some (FVal.int neg (m / 2 ^ (-e).toNat)) else none
  | _ => none

/-- The FP32 bits of 2^n, −149 ≤ n ≤ 127: FEXP2 of such an integer is exact, whatever FTZO says (R133). -/
def exactExp2 (n : Int) : Option W32 :=
  if n < -149 ∨ 127 < n then none
  else some (BitVec.ofInt 32 (if n < -126 then 2 ^ (n + 149).toNat else (n + 127) * 2 ^ 23))

/-- The exact result that the table of R133 gives a function, if it gives one that R52 does not. -/
def exactResult (f : RealFn) (a : FVal) : Option W32 :=
  match f with
  | .exp2 => a.integer.bind exactExp2
  | _ => none

/-- An instruction of R133: one rounding of the exact function. DEDUCED: what the table calls exact is returned so
under FTZO too (log entry 69). -/
def functionOf (f : RealFn) (g : Guard) (o : Ops) (rm : Rm) (s : State) : Out :=
  perLane g o.d s fun l =>
    let a := s.val l .fp32 o.a
    match exactResult f a with
    | some b => .ok [b] 0 (s.ctl l .fp32 rm).isRs
    | none => match realFn f a with
      | some x => s.rounded l .fp32 rm x
      | none => .ok [Config.unsettled f.number (s.src l .fp32 o.a)] flagInexact (s.ctl l .fp32 rm).isRs

/-- FRCP. -/
def execFrcp (g : Guard) (o : Ops) (rm : Rm) (s : State) : Out := functionOf .rcp g o rm s
/-- FRSQ. -/
def execFrsq (g : Guard) (o : Ops) (rm : Rm) (s : State) : Out := functionOf .rsq g o rm s
/-- FSQRT. -/
def execFsqrt (g : Guard) (o : Ops) (rm : Rm) (s : State) : Out := functionOf .sqrt g o rm s
/-- FEXP2. -/
def execFexp2 (g : Guard) (o : Ops) (rm : Rm) (s : State) : Out := functionOf .exp2 g o rm s
/-- FLOG2. -/
def execFlog2 (g : Guard) (o : Ops) (rm : Rm) (s : State) : Out := functionOf .log2 g o rm s
/-- FSINPI. -/
def execFsinpi (g : Guard) (o : Ops) (rm : Rm) (s : State) : Out := functionOf .sinpi g o rm s
/-- FCOSPI. -/
def execFcospi (g : Guard) (o : Ops) (rm : Rm) (s : State) : Out := functionOf .cospi g o rm s

/-! ## Packed halves (R134, R135) -/

/-- The element format of a packed instruction. -/
def halfFmt (bf : Bool) : Fmt := if bf then .bf16 else .fp16

/-- Element i of a packed source after FTZI. -/
def State.half (s : State) (l : Nat) (f : Fmt) (o : Operand) (i : Nat) : FVal :=
  flushIn (s.mode l) f (decodeFmt f ((s.src l (.elem f) o).toNat >>> (16 * i) % 65536))

/-- A packed instruction: an exact result for each element, rounded once. -/
def packed (g : Guard) (o : Ops) (bf : Bool) (rm : Rm) (s : State)
    (f : Rm → FVal → FVal → FVal → FVal × Flags) : Out :=
  let h := halfFmt bf
  perLane g o.d s fun l =>
    let c := s.ctl l h rm
    let one (i : Nat) : Nat × Flags :=
      let x := f c.rm (s.half l h o.a i) (s.half l h o.b i) (s.half l h o.c i)
      let r := x.1.round h c (s.rs l i)
      (r.1, x.2 ||| r.2)
    .ok [BitVec.ofNat 32 ((one 0).1 + 65536 * (one 1).1)] ((one 0).2 ||| (one 1).2) c.isRs

/-- HADD2. -/
def execHadd2 (g : Guard) (o : Ops) (bf : Bool) (rm : Rm) (s : State) : Out :=
  packed g o bf rm s fun rm a b _ => exactSum rm [a, b]
/-- HMUL2. -/
def execHmul2 (g : Guard) (o : Ops) (bf : Bool) (rm : Rm) (s : State) : Out :=
  packed g o bf rm s fun _ a b _ => exactMul a b
/-- HFMA2. -/
def execHfma2 (g : Guard) (o : Ops) (bf : Bool) (rm : Rm) (s : State) : Out :=
  packed g o bf rm s fun rm a b c => exactFma rm a b c

/-- HDOT2 (R135). -/
def execHdot2 (g : Guard) (o : Ops) (bf : Bool) (rm : Rm) (s : State) : Out :=
  let h := halfFmt bf
  perLane g o.d s fun l =>
    let p := exactMul (s.half l h o.a 0) (s.half l h o.b 0)
    let q := exactMul (s.half l h o.a 1) (s.half l h o.b 1)
    let r := exactSum (s.ctl l .fp32 rm).rm [p.1, q.1, s.val l .fp32 o.c]
    s.rounded l .fp32 rm (r.1, p.2 ||| q.2 ||| r.2)

/-! ## Conversions (R136 to R139) -/

/-- Words of a result of a format: a pair for FP64 and AQ64. -/
def resultWords (f : Fmt) (x : Nat) : List W32 :=
  if f = .fp64 ∨ f = .aq64 then wordsOf (BitVec.ofNat 64 x) else [BitVec.ofNat 32 x]

/-- The source bits of a conversion under the widths of R136. -/
def State.cvtBits (s : State) (l : Nat) (f : Fmt) (o : Operand) : Nat :=
  if f = .fp64 ∨ f = .aq64 then (s.src64 l o).toNat else (s.src l (rtypeOf f) o).toNat % 2 ^ f.width

/-- A conversion that is neither with AQ64 nor a copy: the result's bits, its flags and whether RS was in force. -/
def convert (mode : W64) (rs : Nat) (dst src : Fmt) (rm : Rm) (bits : Nat) : Nat × Flags × Bool :=
  let c := ctlOf mode dst rm
  if src.isInt then
    let n := intOf src bits
    match cvtKind src dst with
    | .narrow =>
      let r := narrow dst c.sat n
      (r.1, r.2, false)
    | .rounded =>
      let r := (FVal.ofInt n).round dst c rs
      (r.1, r.2, c.isRs)
    | _ => if dst.isInt then (lowBits dst.width n, 0, false) else (((FVal.ofInt n).round dst Ctl.nearest 0).1, 0, false)
  else
    let x := flushIn mode src (decodeFmt src bits)
    match cvtKind src dst with
    | .toInt =>
      let r := x.toInt dst c.rm rs
      (lowBits dst.width r.1, r.2, c.isRs)
    | .rounded =>
      let r := x.round dst c rs
      (r.1, r.2, c.isRs)
    | _ =>
      let r := x.round dst Ctl.nearest 0
      (r.1, flagIf x.isSig flagInvalid, false)

/-- CVT (R136, R137). -/
def execCvt (g : Guard) (o : Ops) (dst src : Fmt) (rm : Rm) (s : State) : Out :=
  perLane g o.d s fun l =>
    let bits := s.cvtBits l src o.a
    let anchor := (s.src l .int o.b).toInt
    let badAnchor := anchor < -128 ∨ 127 < anchor
    match cvtKind src dst with
    | .copy => .ok (resultWords dst bits)
    | .toAq =>
      if badAnchor then .fault { code := Code.reservedField }
      else
        let q := aqQuant (decodeFmt .fp32 bits) anchor
        .ok (wordsOf (BitVec.ofInt 64 q.1)) (flagIf q.2.2 flagInvalid ||| flagIf q.2.1 flagOverflow)
    | .fromAq =>
      if badAnchor then .fault { code := Code.reservedField }
      else
        let r := aqValue (BitVec.ofNat 64 bits) anchor dst (s.ctl l .fp32 rm).sat
        .ok (resultWords dst r.1) r.2
    | _ =>
      let r := convert (s.mode l) (s.rs l 0) dst src rm bits
      .ok (resultWords dst r.1) r.2.1 r.2.2

/-- F2I (R138): as CVT, the result sign-extended or zero-extended. -/
def execF2i (g : Guard) (o : Ops) (dst src : Fmt) (rm : Rm) (s : State) : Out :=
  perLane g o.d s fun l =>
    let r := convert (s.mode l) (s.rs l 0) dst src rm (s.cvtBits l src o.a)
    .ok [BitVec.ofInt 32 (intOf dst r.1)] r.2.1 r.2.2

/-- I2F (R139). -/
def execI2f (g : Guard) (o : Ops) (u : Bool) (rm : Rm) (s : State) : Out :=
  perLane g o.d s fun l =>
    let a := s.src l .int o.a
    s.rounded l .fp32 rm (FVal.ofInt (if u then (a.toNat : Int) else a.toInt), 0)

/-! ## Packing and unpacking (R140, R141) -/

/-- PACK (R140). -/
def execPack (g : Guard) (o : Ops) (fmt : Fmt) (rm : Rm) (s : State) : Out :=
  let w := posWidth fmt
  perLane g o.d s fun l =>
    let e (i : Nat) (x : Operand) := convert (s.mode l) (s.rs l i) fmt .fp32 rm (s.src l .fp32 x).toNat
    let e0 := e 0 o.a
    let e1 := e 1 o.b
    .ok [BitVec.ofNat 32 ((s.src l .int o.c).toNat * 2 ^ (2 * w) % 2 ^ 32 + e1.1 * 2 ^ w + e0.1)]
      (e0.2.1 ||| e1.2.1) (e0.2.2 || e1.2.2)

/-- UNPACK (R141). -/
def execUnpack (g : Guard) (o : Ops) (idx : Fin 8) (fmt : Fmt) (s : State) : Out :=
  perLane g o.d s fun l =>
    let e := (s.src l (.elem fmt) o.a).toNat >>> (posWidth fmt * idx.val) % 2 ^ fmt.width
    let r := convert (s.mode l) 0 .fp32 fmt .rne e
    .ok [BitVec.ofNat 32 r.1] r.2.1

/-! ## Quantisation (R142 to R144) -/

/-- The scale and zero point of QNT and DQNT; none when a group word fails its check (R62). -/
def State.quantScale (s : State) (l : Nat) (asym : Bool) (fmt : Fmt) (o : Operand) : Option (FVal × Int) :=
  if asym then
    let w := (s.src l .int o).toNat
    if w >>> 8 % 256 ≠ 0 ∨ (fmt = .int4 ∧ w >>> 4 % 16 ≠ 0) then none
    else some (decodeFmt .fp16 (w >>> 16), (w % 256 : Nat))
  else some (s.val l .fp32 o, 0)

/-- QNT's integer part: v = x / s rounded, offset and clamped (R142). -/
def quantInt (rm : Rm) (rs : Nat) (lo hi : Int) (x sc : FVal) (z : Int) : Int × Flags :=
  let v := exactDiv x sc
  match v.1 with
  | .nan _ _ => (0, v.2 ||| flagInvalid)
  | .inf neg => (if neg then lo else hi, v.2 ||| flagOverflow)
  | .fin neg m e =>
    let r := roundInt rm rs neg m e
    let n := r.1 + z
    let q := clamp lo hi n
    (q, v.2 ||| flagIf r.2 flagInexact ||| flagIf (q ≠ n) flagOverflow)

/-- QNT (R142). -/
def execQnt (g : Guard) (o : Ops) (asym : Bool) (fmt : Fmt) (rm : Rm) (s : State) : Out :=
  perLane g o.d s fun l =>
    match s.quantScale l asym fmt o.b with
    | none => .fault { code := Code.reservedField }
    | some (sc, z) =>
      let x := s.val l .fp32 o.a
      let c := s.ctl l fmt rm
      if fmt.isInt then
        let lo := if asym then 0 else fmt.range.1
        let hi := if asym && fmt == .int4 then 15 else fmt.range.2
        let r := quantInt c.rm (s.rs l 0) lo hi x sc z
        .ok [BitVec.ofNat 32 (lowBits fmt.width r.1)] r.2 c.isRs
      else s.rounded l fmt rm (exactDiv x sc)

/-- DQNT (R143). DESIGN CHOICE: of an integer element equal to z the difference is the integer 0, a +0 in every mode
(log entry 75). -/
def execDqnt (g : Guard) (o : Ops) (asym : Bool) (fmt : Fmt) (rm : Rm) (s : State) : Out :=
  perLane g o.d s fun l =>
    match s.quantScale l asym fmt o.b with
    | none => .fault { code := Code.reservedField }
    | some (sc, z) =>
      let bits := (s.src l (rtypeOf fmt) o.a).toNat % 2 ^ fmt.width
      let v := if fmt.isInt then FVal.ofInt ((if asym then (bits : Int) else intOf fmt bits) - z)
        else flushIn (s.mode l) fmt (decodeFmt fmt bits)
      s.rounded l .fp32 rm (exactMul sc v)

/-- The greater of two magnitudes (R144). -/
def absMaxWord (a b : W32) : W32 :=
  let x := a &&& 0x7FFFFFFF
  let y := b &&& 0x7FFFFFFF
  if x.toNat ≤ y.toNat then y else x

/-- FABSMAX (R144). DESIGN CHOICE: a K source is read as FP32 (log entry 76). -/
def execFabsmax (g : Guard) (o : Ops) (s : State) : Out :=
  perLane g o.d s fun l => .ok [absMaxWord (s.src l .fp32 o.a) (s.src l .fp32 o.b)]

end Sys2Proof.Machine
end

