-- ==== Sys2Proof/Machine/Exchange.lean ====
section
/-! DEFINITION. Exchanges among the lanes of a home warp, ELECT and V2S (spec/09 R161 to R163; spec/10 R180 to R184;
spec/03 R66; spec/07 R123). -/

namespace Sys2Proof.Machine

/-! ## Who is named (spec/09 R161) -/

/-- How a lane that a mask names stands to an exchange at depth `d` of the clause at `pc`, the lanes of the group
apart: awaited, departed, or neither (a dormant helper contributes 0, R160). -/
inductive Standing
  | inGroup | awaited | departed | silent
  deriving DecidableEq, Repr

/-- The standing of a lane. -/
def State.standing (s : State) (grp : List Nat) (d : Nat) (pc : Addr48) (l : Nat) : Standing :=
  if grp.contains l then .inGroup
  else match tfind s.lanes l with
    | none => .departed
    | some x =>
      if x.status = .retired then .departed
      else if x.status = .dormant then .silent
      else if 1023 - x.depth.toNat < 1023 - d then .awaited
      else if 1023 - x.depth.toNat = 1023 - d ∧ x.pc.toNat ≤ pc.toNat then .awaited
      else .departed

/-- The lanes of a warp that a mask names. -/
def maskLanes (w : Nat) (mask : W32) : List Nat := ((List.range 32).filter fun i => mask.getLsbD i).map (w * 32 + ·)

/-- Is some lane that the mask names awaited? -/
def State.awaits (s : State) (grp : List Nat) (d : Nat) (pc : Addr48) (w : Nat) (mask : W32) : Bool :=
  (maskLanes w mask).any fun l => s.standing grp d pc l == .awaited

/-- Lanes of a warp held at a slot of a clause at a depth. -/
def State.heldAt (s : State) (w : Nat) (pc : Addr48) (slot d : Nat) : List Nat :=
  (s.warpLanes w).filter fun l =>
    let x := s.lane l
    (match x.status with
      | .held _ => true
      | _ => false) && x.pc == pc && x.rslot == slot && x.depth.toNat == d

/-- May the lanes held with this one resume (R162): none of the lanes their mask names is awaited any more? -/
def State.heldReady (s : State) (l : Nat) : Bool :=
  let x := s.lane l
  match x.status with
  | .held mask =>
    let set := s.heldAt (warpOf l) x.pc x.rslot x.depth.toNat
    !s.awaits set x.depth.toNat x.pc (warpOf l) mask
  | _ => false

/-- A lane put in its place in a rising list. -/
def insertLane (l : Nat) : List Nat → List Nat
  | [] => [l]
  | x :: xs => if l ≤ x then l :: x :: xs else x :: insertLane l xs

/-- A list of lanes in rising order. -/
def sortLanes (ls : List Nat) : List Nat := ls.foldr insertLane []

/-- The state with every lane held at the current slot, in a warp of the group and at its depth, joined to the group
(R162). -/
def State.joinHeld (s : State) : State :=
  let grp := s.group
  let d := ((grp.lanes.head?).map fun l => (s.lane l).depth.toNat).getD 0
  let ls := (warpsOf grp.lanes).flatMap fun w => s.heldAt w grp.pc grp.slot d
  if ls.isEmpty then s
  else
    let s := ls.foldl (fun t l => t.modLane l fun x => { x with status := .inFlight, rslot := 0, kept := none, restored := false }) s
    s.modGroup fun x => { x with lanes := sortLanes (x.lanes ++ ls) }

/-! ## Carrying out an exchange -/

/-- The member mask of a warp: C of its lowest executing lane. -/
def State.memberMask (s : State) (c : Operand) (l : Nat) : W32 :=
  if c = .none then 0xFFFFFFFF else s.src l .int c

/-- What a receiving lane gets: the home lanes it combined, and its value. -/
abbrev Combine := (vals : List W32) → (parts : List Bool) → (mask : W32) → (lane : Nat) → List Nat × W32

/-- One warp's exchange, once no lane is awaited: each participant's value and departure flag. -/
def State.exchangeWarp (s : State) (ty : RType) (a : Operand) (f : Combine) (w : Nat) (mask : W32) (ls : List Nat) :
    List (Nat × W32 × Bool) :=
  let grp := s.group
  let d := ((grp.lanes.head?).map fun l => (s.lane l).depth.toNat).getD 0
  let part (i : Nat) : Bool := mask.getLsbD i && ls.contains (w * 32 + i)
  let parts := (List.range 32).map part
  let vals := (List.range 32).map fun i => if part i then s.src (w * 32 + i) ty a else 0
  let gone (i : Nat) : Bool := mask.getLsbD i && s.standing grp.lanes d grp.pc (w * 32 + i) == .departed
  (ls.filter fun l => mask.getLsbD (homeLane l)).map fun l =>
    let r := f vals parts mask l
    (l, r.2, r.1.any gone)

/-- An exchange (R162, R180): lanes held at the slot join; a warp with an awaited lane is held, participants only; the
others exchange at once, and P6 is written after the result. -/
def exchange (g : Guard) (o : Ops) (ty : RType) (s : State) (f : Combine) : Out :=
  let s := s.joinHeld
  let grp := s.group
  let d := ((grp.lanes.head?).map fun l => (s.lane l).depth.toNat).getD 0
  let ex := s.exec g
  let per := (lowestOf ex).map fun l0 =>
    let w := warpOf l0
    let mask := s.memberMask o.c l0
    let ls := ex.filter fun l => warpOf l == w
    (w, mask, ls, s.awaits grp.lanes d grp.pc w mask)
  let done := (per.filter fun p => !p.2.2.2).flatMap fun p => s.exchangeWarp ty o.a f p.1 p.2.1 p.2.2.1
  let wait := (per.filter fun p => p.2.2.2).flatMap fun p =>
    (p.2.2.1.filter fun l => p.2.1.getLsbD (homeLane l)).map fun l => (l, p.2.1)
  let t := s.commit o.d (done.map fun r => (r.1, [r.2.1]))
  let t := done.foldl (fun t r => t.modLane r.1 (·.setPred 6 r.2.2)) t
  .next (wait.foldl (fun t p => (t.leaveGroup p.1).modLane p.1 fun x =>
    { x with status := .held p.2, rslot := grp.slot, pc := grp.pc, kept := s.clauseOf p.1 }) t)

/-- A lane that takes another's value. -/
def fromLane (src : Nat → Nat) : Combine := fun vals _ _ l =>
  let j := src (homeLane l)
  ([j], vals.getD j 0)

/-- The home lanes a mask names. -/
def maskBits (mask : W32) : List Nat := (List.range 32).filter fun i => mask.getLsbD i

/-- A word with bit j set where a test holds. -/
def bitsWhere (p : Nat → Bool) : W32 :=
  BitVec.ofNat 32 ((List.range 32).foldl (fun n j => n + (if p j then 2 ^ j else 0)) 0)

/-! ## Reductions (R66, R182) -/

/-- Round(a + b, FP32, RNE). -/
def addFp32 (a b : W32) : W32 :=
  BitVec.ofNat 32
    (((exactSum .rne [decodeFmt .fp32 a.toNat, decodeFmt .fp32 b.toNat]).1.round .fp32 Ctl.nearest 0).1)

/-- One level of the tree: adjacent nodes added. -/
def pairUp : List W32 → List W32
  | a :: b :: xs => addFp32 a b :: pairUp xs
  | xs => xs

/-- The node over an aligned block of 2^k lanes. -/
def treeNode : Nat → List W32 → W32
  | 0, xs => xs.getD 0 0
  | k + 1, xs => treeNode k (pairUp xs)

/-- FP32 words compared with −0 below +0, NaNs apart. -/
def fpBelow (a b : W32) : Bool :=
  let key (x : W32) : Int := if x.msb then -((x &&& 0x7FFFFFFF).toNat : Int) - 1 else (x.toNat : Int)
  key a < key b

/-- Is the word an FP32 NaN? -/
def isNanWord (a : W32) : Bool := 0x7F800000 < (a &&& 0x7FFFFFFF).toNat

/-- The least or greatest of two contributions that are not NaN (R182). -/
def pickFp (max : Bool) (a b : W32) : W32 :=
  if isNanWord a then b else if isNanWord b then a
  else if max then (if fpBelow a b then b else a) else (if fpBelow b a then b else a)

/-- An operation of WRED other than FADD, on two contributions. -/
def redPair (op : RedOp) (a b : W32) : W32 :=
  match op with
  | .iadd => a + b
  | .imin => pickWordS false a b
  | .imax => pickWordS true a b
  | .umin => if a.toNat ≤ b.toNat then a else b
  | .umax => if a.toNat ≤ b.toNat then b else a
  | .and => a &&& b
  | .or => a ||| b
  | .xor => a ^^^ b
  | .fadd => addFp32 a b
  | .fmin => pickFp false a b
  | .fmax => pickFp true a b
where
  pickWordS (max : Bool) (a b : W32) : W32 :=
    if max then (if a.toInt ≤ b.toInt then b else a) else (if a.toInt ≤ b.toInt then a else b)

/-- A result that is a NaN is the canonical one, for FMIN and FMAX. -/
def redFinish (op : RedOp) (x : W32) : W32 :=
  match op with
  | .fmin | .fmax => if isNanWord x then 0x7FC00000 else x
  | _ => x

/-- An operation over contributions, left to right; nothing gives 0. -/
def redFold (op : RedOp) : List W32 → W32
  | [] => 0
  | x :: xs => redFinish op (xs.foldl (redPair op) x)

/-- The aligned blocks of the first n lanes, largest first, as (start, log2 of size). -/
def scanBlocks (n : Nat) : List (Nat × Nat) :=
  let step (acc : Nat × List (Nat × Nat)) (k : Nat) : Nat × List (Nat × Nat) :=
    if n / 2 ^ k % 2 = 1 then (acc.1 + 2 ^ k, acc.2 ++ [(acc.1, k)]) else acc
  ([5, 4, 3, 2, 1, 0].foldl step (0, [])).2

/-- An operation over the first n lanes (R66, R182). -/
def redPrefix (op : RedOp) (vals : List W32) (n : Nat) : W32 :=
  match op with
  | .fadd =>
    match (scanBlocks n).map fun b => treeNode b.2 ((vals.drop b.1).take (2 ^ b.2)) with
    | [] => 0
    | x :: xs => xs.foldl addFp32 x
  | op => redFold op (vals.take n)

/-- The type A is read in (R180). -/
def redType (op : RedOp) : RType :=
  match op with
  | .fadd | .fmin | .fmax => .fp32
  | _ => .int

/-! ## The instructions -/

/-- QSWAP (R181). -/
def execQswap (g : Guard) (o : Ops) (xm : SwapMode) (s : State) : Out :=
  exchange g o .int s (fromLane fun i => i ^^^ xm.code)

/-- QBCAST (R181). -/
def execQbcast (g : Guard) (o : Ops) (src : Fin 4) (s : State) : Out :=
  exchange g o .int s (fromLane fun i => i / 4 * 4 + src.val)

/-- WSHFL (R181): each lane reads B itself. -/
def execWshfl (g : Guard) (o : Ops) (mode : ShflMode) (s : State) : Out :=
  exchange g o .int s fun vals _ _ l =>
    let b := (s.src l .int o.b).toNat
    let i := homeLane l
    let j := match mode with
      | .idx => b % 32
      | .up => if b ≤ i then i - b else i
      | .down => if i + b ≤ 31 then i + b else i
      | .xor => i ^^^ (b % 32)
    ([j], vals.getD j 0)

/-- VOTE (R181). -/
def execVote (g : Guard) (o : Ops) (mode : VoteMode) (s : State) : Out :=
  exchange g o .int s fun vals _ mask _ =>
    let ms := maskBits mask
    let on (j : Nat) : Bool := vals.getD j 0 != 0
    (ms, match mode with
      | .all => if ms.all on then 1 else 0
      | .any => if ms.any on then 1 else 0
      | .uni => if ms.all on || ms.all (fun j => !on j) then 1 else 0
      | .bal => bitsWhere fun j => mask.getLsbD j && on j)

/-- WRED (R181, R182). -/
def execWred (g : Guard) (o : Ops) (op : RedOp) (s : State) : Out :=
  exchange g o (redType op) s fun vals _ mask _ => (maskBits mask, redPrefix op vals 32)

/-- WSCAN (R181, R182). -/
def execWscan (g : Guard) (o : Ops) (excl : Bool) (op : RedOp) (s : State) : Out :=
  exchange g o (redType op) s fun vals _ _ l =>
    let n := if excl then homeLane l else homeLane l + 1
    (List.range n, redPrefix op vals n)

/-- WMATCH (R181). -/
def execWmatch (g : Guard) (o : Ops) (s : State) : Out :=
  exchange g o .int s fun vals parts mask l =>
    (maskBits mask, bitsWhere fun j => parts.getD j false && vals.getD j 0 == vals.getD (homeLane l) 0)

/-- ELECT (R184). -/
def execElect (g : Guard) (o : Ops) (s : State) : Out :=
  let cand := (s.execThreads g).filter fun l => o.a == .none || s.src l .int o.a != 0
  perLane g o.d s fun l => .ok [if cand.head? = some l then 1 else 0]

/-- V2S (R123). -/
def execV2s (g : Guard) (o : Ops) (s : State) : Out :=
  let ls := s.execThreads g
  .next ((lowestOf ls).foldl (fun t l0 =>
    let l := warpOf l0 * 32 + (s.src l0 .int o.b).toNat % 32
    if ls.contains l then t.modWarp (warpOf l0) (·.put o.d [s.src l .int o.a]) else t) s)

end Sys2Proof.Machine
end

