-- ==== Sys2Proof/Machine/Integrity.lean ====
section
/-! DEFINITION. Check codes and the machine-check log: meeting storage errors, correcting them, and logging them
(spec/26 R370 to R374, R386, R387). -/

namespace Sys2Proof.Machine

/-- Entries of a die's log ring (R374). -/
def mcEntries : Nat := 1024

/-! ## Granules (R370) -/

/-- The granule that a site names (R370): 64 bits are two V or S registers, a G register, or two accumulators of a row;
an S register is its warp's. DESIGN CHOICE: a lane's predicates are one granule (log entry 86). -/
def granuleOf : Site → Site
  | .lane l (.v i) => .lane l (.v ⟨i.val / 2 * 2, by omega⟩)
  | .lane l (.s i) => .lane (l / 32 * 32) (.s ⟨i.val / 2 * 2, by omega⟩)
  | .lane l (.p _) => .lane l (.p 0)
  | .acc p r c => .acc p r (c % 64 / 2 * 2)
  | x => x

/-- Does an error stand in the granule that a site names: at the granule, or in a register of it that holds failing
data? -/
def inGranule (site x : Site) : Bool :=
  granuleOf x == granuleOf site || match x with
    | .loaded l o => granuleOf (.lane l o) == granuleOf site
    | _ => false

/-- Sites of a warp's registers. -/
def warpSite (w : Nat) : Site → Bool
  | .lane l _ => l / 32 == w
  | .loaded l _ => l / 32 == w
  | _ => false

/-- Where an error's data first failed: the hop that its log entries name (R371, R374). -/
def Upset.origin (u : Upset) : Site := u.src.getD u.site

/-- A stream's key in its pair. -/
def streamKey (stream : Nat) (f : Fifo) : Nat := stream * 4 + f.code

/-- Half bytes that a stream holds. -/
def heldNibbles (runs : List FeedRun) : Nat := runs.foldl (fun n r => n + r.elems.length * r.nibbles) 0

/-- The HOP code of a site (R370). -/
def hopOf : Site → Nat
  | .dram _ => 0x01
  | .hbm _ => 0x02
  | .mem _ => 0x03
  | .l1 _ _ => 0x08
  | .icache _ _ => 0x09
  | .lane _ _ => 0x0A
  | .loaded _ _ => 0x0A
  | .tile _ _ _ => 0x0B
  | .acc _ _ _ => 0x0C
  | .fifo _ _ _ _ => 0x0D
  | .window _ => 0x0E
  | .firmware _ _ => 0x0F
  | .link hop _ => hop

/-- The selector form of a tile element (spec/13 R235). -/
def tileSelector (handle elem : Nat) : W64 := BitVec.ofNat 64 (0xC0 * 2 ^ 56 + handle % 256 * 2 ^ 32 + elem % 2 ^ 32)

/-- The bound tile of a core with a handle, as firmware names it in the log. -/
def State.loggedTile (s : State) (core handle : Nat) : Option Tile :=
  (s.tiles.find? fun p => keyCore p.1 == core && keyHandle p.1 == handle).map (·.2)

/-- SITE of a log entry (R374), a bank word of a tile by its first element; for an accumulator, a FIFO, firmware or a
link, for which R374 gives none, a free value. -/
def State.siteWord (s : State) (site : Site) (other : W64) : W64 :=
  match site with
  | .mem g => BitVec.ofNat 64 (32 * g)
  | .hbm g => BitVec.ofNat 64 (64 * g)
  | .dram g => BitVec.ofNat 64 (64 * g)
  | .l1 _ d => BitVec.ofNat 64 (8 * d)
  | .icache _ d => BitVec.ofNat 64 (8 * d)
  | .window d => BitVec.ofNat 64 (0x100000000000 + 8 * d)
  | .lane _ o => o.code.setWidth 64
  | .loaded _ o => o.code.setWidth 64
  | .tile c h d => tileSelector h (16 * d / ((s.loggedTile c h).map fun t => elemNibbles t.fmt).getD 16)
  | .acc _ _ _ => other
  | .fifo _ _ _ _ => other
  | .firmware _ _ => other
  | .link _ _ => other

/-- Does R374 give no SITE for it? -/
def siteUnnamed : Site → Bool
  | .acc _ _ _ => true
  | .fifo _ _ _ _ => true
  | .firmware _ _ => true
  | .link _ _ => true
  | _ => false

/-- The die that holds a site; HBM and L2 granules stand on the die that is home to them. -/
def State.siteDie (s : State) (site : Site) : Nat :=
  match site with
  | .mem g => (Config.homeDie s.boots (g / 8)).val
  | .hbm g => (Config.homeDie s.boots (g / 4)).val
  | .dram g => (Config.homeDie s.boots (g / 4)).val
  | .l1 c _ => dieOf c
  | .icache c _ => dieOf c
  | .window d => d / 131072 % 8
  | .lane l _ => dieOf (coreOf l)
  | .loaded l _ => dieOf (coreOf l)
  | .tile c _ _ => dieOf c
  | .acc p _ _ => dieOf (2 * p)
  | .fifo p _ _ _ => dieOf (2 * p)
  | .firmware d _ => d
  | .link _ d => d

/-- Errors counted at a site since boot. -/
def State.siteErrors (s : State) (site : Site) : Nat := ((s.errors.find? fun e => e.1 == site).map (·.2)).getD 0

/-! ## HBM rows (R387) -/

/-- 24 hours in GT ticks. -/
def dayTicks : Nat := 86400000000000

/-- The HBM row of a site. -/
def siteRow : Site → Option Nat
  | .hbm g => some (Config.rowOf g)
  | .dram g => some (Config.rowOf g)
  | _ => none

/-- An error counted at its HBM row: one that is uncorrectable, or the third correction in 24 hours, lists the row for
repair. -/
def State.listRow (s : State) (site : Site) (unc : Bool) : State :=
  match siteRow site with
  | none => s
  | some r =>
    let ts := if unc then tget [] s.rowTimes r else (s.gt :: tget [] s.rowTimes r).take 3
    let s : State := { s with rowTimes := tput [] s.rowTimes r ts }
    let due := unc || ts.length ≥ 3 && s.gt ≤ ts.getD 2 0 + dayTicks
    if due && !s.repairRows.contains r then { s with repairRows := s.repairRows ++ [r] } else s

/-! ## Physical clusters (R386; spec/01 R11, R12) -/

/-- The physical cluster that carries a cluster of a die. With all 25 good, R386 leaves open which one stays out; the
model leaves out the last (log entry 56). -/
def Die.physical (x : Die) (c : Nat) : Nat :=
  match x.retired with
  | some r => if r ≤ c then c + 1 else c
  | none => c

/-- An uncorrectable error in a core's register files or tiles counts against its physical cluster. -/
def Die.wear (x : Die) (site : Site) (unc : Bool) : Die :=
  let c := match site with
    | .lane k _ => some (coreOf k)
    | .tile c _ _ => if c < Config.cores then some c else none
    | _ => none
  match c with
  | some c =>
    let p := x.physical (clusterOf c % 24)
    if unc && !x.worn.contains p then { x with worn := x.worn ++ [p] } else x
  | none => x

/-! ## The log (R374) -/

/-- An entry written to a die's log ring (R374). -/
def Die.log (x : Die) (e : McEntry) (unc : Bool) : Die :=
  { x with mcLog := tset x.mcLog x.mcHead e, mcHead := (x.mcHead + 1) % mcEntries,
           corrected := if unc then x.corrected else x.corrected + 1 }

/-- MC0 of an entry. -/
def mcWord (unc : Bool) (hop die core : Nat) (launch : W32) : W64 :=
  BitVec.ofNat 64 (2 ^ 63 + (if unc then 2 ^ 62 else 0) + hop % 256 * 2 ^ 48 + die % 8 * 2 ^ 45 + core % 2048 * 2 ^ 34
    + launch.toNat)

/-- The state with one error logged: `core` 0x7FF when no core is involved, `launch` the killed context or 0. -/
def State.logError (s : State) (site : Site) (unc : Bool) (synd : W32) (core : Nat) (launch : W32) : State :=
  let d := s.siteDie site
  let n := min (s.siteErrors site + 1) 0xFFFFFFFF
  let (other, s) := if siteUnnamed site then s.free else ((0 : W64), s)
  let e : McEntry :=
    { mc0 := mcWord unc (hopOf site) d core launch, mc1 := s.siteWord site other,
      mc2 := BitVec.ofNat 64 (s.dieGt d), mc3 := BitVec.ofNat 64 (synd.toNat * 2 ^ 32 + n) }
  let s := s.modDie d fun x => (x.log e unc).wear site unc
  let s : State := { s with errors := (site, n) :: s.errors.filter (fun x => x.1 ≠ site) }
  s.listRow site unc

/-- An entry for a link or a replay (R372, R374), with a free syndrome. -/
def State.logLink (s : State) (hop die : Nat) (unc : Bool) (launch : W32) : State :=
  let (synd, s) := s.free
  s.logError (.link hop die) unc (synd.setWidth 32) 0x7FF launch

/-! ## Meeting errors (R371, R372) -/

/-- An agent uses the data of some sites: what the code corrects is written back and logged; anything else is logged with
UNC 1, keeps its failing code, and the consumer is told. -/
def State.consume (s : State) (p : Site → Bool) (core : Nat) (launch : W32) : State × Bool :=
  let hit := s.upsets.filter fun u => p u.site
  let bad := hit.any (·.unc)
  let s := { s with upsets := s.upsets.filter fun u => u.unc || !p u.site }
  (hit.foldl (fun s u => s.logError u.origin u.unc u.synd core (if u.unc then launch else 0)) s, bad)

/-- What a code corrects at some sites is corrected and logged; what it cannot stays (R371). -/
def State.correct (s : State) (p : Site → Bool) (core : Nat) : State :=
  if s.upsets.isEmpty then s else (s.consume (fun x => p x && !s.upsets.any fun u => u.unc && u.site == x) core 0).1

/-- An error at some sites that no code corrects: its syndrome, and where it first failed. -/
def State.badSite (s : State) (p : Site → Bool) : Option (W32 × Site) :=
  (s.upsets.find? fun u => u.unc && p u.site).map fun u => (u.synd, u.origin)

/-- The state without the errors of sites that a write covers whole (R372). -/
def State.overwrite (s : State) (p : Site → Bool) : State :=
  if s.upsets.isEmpty then s else { s with upsets := s.upsets.filter fun u => !p u.site }

/-- The state in which some storage has received data whose code fails, with the syndrome and the hop of the failure
(R371). -/
def State.fails (s : State) (site : Site) (e : W32 × Site) : State :=
  if s.upsets.any fun u => u.unc && u.site == site then s
  else { s with upsets := s.upsets ++ [{ site := site, unc := true, synd := e.1, src := some e.2 }] }

/-- Does a second error of a site make it uncorrectable? HBM corrects by codewords and symbols of which a granule has
several, so there it need not (R370). -/
def siteSingle : Site → Bool
  | .hbm _ => false
  | .dram _ => false
  | _ => true

/-- Does a place hold data that an error can strike: a line that the instruction cache holds, a word that a stream
holds? A link stores nothing, and data that arrived failing is no place of its own. -/
def State.holdsData (s : State) : Site → Bool
  | .icache c d => (s.core c).icache.contains (d / 32)
  | .fifo p st f w => 16 * w < heldNibbles (tget [] (s.pair p).streams (streamKey st f))
  | .link _ _ => false
  | .loaded _ _ => false
  | _ => true

/-- Can what fails the code of a site always be fetched again (R370)? -/
def siteRefetched : Site → Bool
  | .icache _ _ => true
  | _ => false

/-- A granule is struck by an error (R370): one that already holds an error then holds two. What fails the instruction
cache's parity is fetched again. -/
def State.strike (s : State) (site : Site) (unc : Bool) (synd : W32) : State :=
  let g := granuleOf site
  let old := s.upsets.filter (·.site == g)
  let bad := (unc || old.any (·.unc) || siteSingle g && !old.isEmpty) && !siteRefetched g
  if !s.holdsData g then s
  else { s with upsets := s.upsets.filter (·.site ≠ g) ++ [{ site := g, unc := bad, synd := synd }] }

end Sys2Proof.Machine
end

