-- ==== Sys2Proof/Machine/Special.lean ====
section
/-! DEFINITION. Special registers: reading, checking and writing them, MOVSR and SRWR; the core's buffer pool and PCFG
(spec/02 R31 to R34; spec/07 R122; spec/11 R200, R201; spec/24 R364, R365). -/

namespace Sys2Proof.Machine

/-! ## The buffer pool (spec/11 R200, R201) -/

/-- The minimum firmware sets at each launch (R201). -/
def poolMinReset (q : Nat) : Nat := if q < 16 then 16 else if q = 16 then 128 else if q < 19 then 64 else 2048

/-- The cap firmware sets at each launch (R201). -/
def poolCapReset (q : Nat) : Nat := if q < 16 then 32 else if q < 19 then 512 else 4096

/-- A queue's minimum. -/
def State.poolMin (s : State) (c q : Nat) : Nat := tget (poolMinReset q) (s.core c).poolMin q
/-- A queue's cap. -/
def State.poolCap (s : State) (c q : Nat) : Nat := tget (poolCapReset q) (s.core c).poolCap q

/-- Entries a queue uses: threads in a bin, records taken, copy commands queued, lanes watched (R200). DESIGN CHOICE: a
copy gives its entry back once its payload has moved (log entry 77). -/
def State.poolCount (s : State) (c q : Nat) : Nat :=
  let k := s.core c
  if q < 16 then ((tfind k.bins q).map fun b => b.threads.length).getD 0
  else if q = 16 then k.resume.length
  else if q = 17 then (k.copy0.filter fun x => !x.moved).length
  else if q = 18 then (k.copy1.filter fun x => !x.moved).length
  else ((s.coreLanes c).filter fun l => match (s.lane l).status with
    | .asleepWaitw watched _ => watched
    | _ => false).length

/-- Is queue `q` granted a new entry (R200)? -/
def State.granted? (s : State) (c q : Nat) : Bool :=
  let used := (List.range 20).foldl (fun n j => n + s.poolCount c j) 0
  let owed := (List.range 20).foldl (fun n j => if j = q then n else n + (s.poolMin c j - s.poolCount c j)) 0
  s.poolCount c q < s.poolCap c q && (s.poolCount c q < s.poolMin c q || used + owed + 1 ≤ 4096)

/-- The sum of a core's minimums, with one replaced. -/
def State.poolSum (s : State) (c q m : Nat) : Nat :=
  (List.range 20).foldl (fun n j => n + (if j = q then m else s.poolMin c j)) 0

/-- May the minimum of a queue be `m` (R31, R365)? -/
def State.poolMinOk (s : State) (c q m : Nat) : Bool := q < 20 && m ≤ s.poolCap c q && s.poolSum c q m ≤ 4096
/-- May the cap of a queue be `m` (R31, R365)? -/
def State.poolCapOk (s : State) (c q m : Nat) : Bool := q < 20 && m ≤ 4096 && s.poolMin c q ≤ m

/-- The minimum set; a value equal to firmware's is not listed. -/
def State.setPoolMin (s : State) (c q m : Nat) : State :=
  s.modCore c fun x => { x with poolMin := tput (poolMinReset q) x.poolMin q m }
/-- The cap set. -/
def State.setPoolCap (s : State) (c q m : Nat) : State :=
  s.modCore c fun x => { x with poolCap := tput (poolCapReset q) x.poolCap q m }

/-! ## Reading and writing special registers (spec/02 R31) -/

/-- QSEL of SR.PRIV. -/
def Lane.qsel (x : Lane) : Nat := field (x.priv.setWidth 64) 8 5

/-- The value of a special register as a lane reads it. -/
def State.readSr (s : State) (l : Nat) (sr : SReg) : W64 :=
  let x := s.lane l
  let w := s.warp (warpOf l)
  let c := coreOf l
  match sr with
  | .mode => w.mode
  | .trapv => w.trapv
  | .rsb => x.rsb
  | .seed => w.seed
  | .pondt => (s.core c).pondt.setWidth 64
  | .th i => (tget 0 w.th i.val).setWidth 64
  | .gt => BitVec.ofNat 64 (s.coreGt c)
  | .acwin => w.acwin.setWidth 64
  | .gstat => x.gstat.setWidth 64
  | .fault 0 => x.f0
  | .fault 1 => x.f1
  | .fault 2 => x.f2
  | .fault 3 => x.f3
  | .launch => (s.launchNum c).setWidth 64
  | .ktrapv => (s.core c).ktrapv
  | .lease => (s.core c).lease.setWidth 64
  | .poolmin => if x.qsel < 20 then BitVec.ofNat 64 (s.poolMin c x.qsel) else 0
  | .poolcap => if x.qsel < 20 then BitVec.ofNat 64 (s.poolCap c x.qsel) else 0
  | .priv => x.priv.setWidth 64

/-- Is a rounding field of SR.MODE one of 0 to 5? -/
def modeRmOk (v : W64) (lo : Nat) : Bool := field v lo 3 < 6

/-- What is wrong with a value for a special register (R31, R32, R122, R364). DESIGN CHOICE: its fault names no operand
(log entry 74). -/
def State.checkSr (s : State) (l : Nat) (sr : SReg) (v : W64) : Option Trap :=
  let bad : Trap := { code := Code.reservedField }
  let no (b : Bool) : Option Trap := if b then none else some bad
  match sr with
  | .mode => no (field v 52 12 = 0 && field v 49 3 < 6 && field v 46 2 = 0
      && [0, 6, 12, 18, 24, 30, 36, 42].all (modeRmOk v))
  | .trapv | .ktrapv =>
    if field v 48 16 ≠ 0 then some bad
    else if field v 0 3 ≠ 0 then some { code := Code.align, addr := v, info := 3 } else none
  | .pondt => no (v.toNat ≤ 65535)
  | .lease => no (16 ≤ v.toNat && v.toNat ≤ 65535)
  | .priv => no (v.toNat &&& 0xFFFFE0FE = 0)
  | .poolmin => no (s.poolMinOk (coreOf l) (s.lane l).qsel v.toNat)
  | .poolcap => no (s.poolCapOk (coreOf l) (s.lane l).qsel v.toNat)
  | .gstat => no (v.toNat &&& 0xFFFFE0E0 = 0)
  | .fault 3 => no (field v 32 32 = 0 && field v 16 6 = 0)
  | _ => none

/-- SR.MODE as it is stored: the SAT bits of E3M2 and E2M3 read 1 (R32). -/
def modeStored (v : W64) : W64 := v ||| 0x0000008200000000

/-- The state with a special register written by a lane. DESIGN CHOICE: SR.ACWIN keeps every bit of its value (R34,
R364; log entry 71). -/
def State.writeSr (s : State) (l : Nat) (sr : SReg) (v : W64) : State :=
  let w := warpOf l
  let c := coreOf l
  match sr with
  | .mode => s.modWarp w fun x => { x with mode := modeStored v }
  | .trapv => s.modWarp w fun x => { x with trapv := v }
  | .seed => s.modWarp w fun x => { x with seed := v }
  | .th i => s.modWarp w fun x => { x with th := tput 0 x.th i.val (v.setWidth 32) }
  | .acwin => s.modWarp w fun x => { x with acwin := v.setWidth 32 }
  | .pondt => s.modCore c fun x => { x with pondt := v.setWidth 32 }
  | .ktrapv => s.modCore c fun x => { x with ktrapv := v }
  | .lease => s.modCore c fun x => { x with lease := v.setWidth 32 }
  | .poolmin => s.setPoolMin c (s.lane l).qsel v.toNat
  | .poolcap => s.setPoolCap c (s.lane l).qsel v.toNat
  | .rsb => s.modLane l fun x => { x with rsb := v &&& ~~~7#64 }
  | .gstat => s.modLane l fun x => { x with gstat := v.setWidth 32 }
  | .priv => s.modLane l fun x => { x with priv := v.setWidth 32 }
  | .fault 0 => s.modLane l fun x => { x with f0 := v }
  | .fault 1 => s.modLane l fun x => { x with f1 := v }
  | .fault 2 => s.modLane l fun x => { x with f2 := v }
  | .fault 3 => s.modLane l fun x => { x with f3 := v }
  | .gt => s
  | .launch => s

/-- Who holds a special register. -/
inductive Holder
  | lane | warp | core
  deriving DecidableEq, Repr

/-- The holder of a special register (R31). -/
def holderOf (sr : SReg) : Holder :=
  match sr with
  | .mode | .trapv | .seed | .th _ | .acwin => .warp
  | .pondt | .ktrapv | .lease | .poolmin | .poolcap => .core
  | _ => .lane

/-- Of the lanes that pass their checks, those whose value a register of a holder takes (spec/02 R22, R23). -/
def State.suppliers (s : State) (h : Holder) (ls : List Nat) : List Nat :=
  let threads := ls.filter fun l => !(s.lane l).helper
  match h with
  | .lane => ls
  | .warp => lowestOf threads
  | .core => threads.take 1

/-- A special register written by the executing lanes: each lane's value is checked, the holder takes its value, and
the lanes that fail take their faults. DESIGN CHOICE: they do so after the write, and enter at the vector it leaves (log
entry 73). -/
def State.storeSr (s : State) (g : Guard) (sr : SReg) (value : Nat → W64) : State :=
  let ls := s.exec g
  let good := ls.filter fun l => (s.checkSr l sr (value l)).isNone
  let bad := ls.filterMap fun l => (s.checkSr l sr (value l)).map fun t => (l, t)
  ((s.suppliers (holderOf sr) good).foldl (fun t l => t.writeSr l sr (value l)) s).trapEach bad

/-! ## Privilege (spec/02 R40, R41) -/

/-- Is the lane in privileged mode (R31)? -/
def Lane.privileged (x : Lane) : Bool := x.priv.getLsbD 0

/-- PRIV in every lane of the group that is in user mode, whatever its predicate (spec/04 R76, R85). -/
def State.denyUser (s : State) : State :=
  s.trapAll (s.group.lanes.filter fun l => !(s.lane l).privileged)
    { code := Code.priv, info := (s.group.word.extractLsb' 56 8).toNat }

/-- The state after the privilege check of an access to a special register. -/
def State.checkSrPriv (s : State) (sr : SReg) : State := if sr.privileged then s.denyUser else s

/-! ## The instructions -/

/-- MOVSR D, SR.name (R122). -/
def execMovsrRead (g : Guard) (o : Ops) (sr : SReg) (s : State) : Out :=
  let s := s.checkSrPriv sr
  perLane g o.d s fun l =>
    let v := s.readSr l sr
    .ok (if sr.wide then wordsOf v else [v.setWidth 32])

/-- The value operand of a write to a special register. -/
def State.srValue (s : State) (sr : SReg) (a : Operand) (l : Nat) : W64 := s.srcWord l sr.wide a

/-- MOVSR SR.name, A (R122). -/
def execMovsrWrite (g : Guard) (o : Ops) (sr : SReg) (s : State) : Out :=
  let s := s.checkSrPriv sr
  .next (s.storeSr g sr (s.srValue sr o.a))

/-- SRWR (spec/24 R364). -/
def execSrwr (g : Guard) (o : Ops) (sr : SReg) (s : State) : Out :=
  let s := s.denyUser
  .next (s.storeSr g sr (s.srValue sr o.a))

/-- PCFG (spec/24 R365): once for the group, with the value of its lowest executing lane that is no helper; a queue
number of 20 to 31 faults there, with the word's address (R79). -/
def execPcfg (g : Guard) (o : Ops) (cap : Bool) (q : Fin 32) (s : State) : Out :=
  let s := s.denyUser
  match (s.execThreads g).head? with
  | none => .next s
  | some l =>
    let m := (s.src l .int o.a).toNat
    let c := coreOf l
    let ok := if cap then s.poolCapOk c q.val m else s.poolMinOk c q.val m
    .next (if 20 ≤ q.val then s.trap l { code := Code.reservedField, addr := slotAddr s.group.pc s.group.slot }
      else if !ok then s.trap l { code := Code.reservedField }
      else if cap then s.setPoolCap c q.val m else s.setPoolMin c q.val m)

end Sys2Proof.Machine
end

