-- ==== Sys2Proof/Machine/Memory.lean ====
section
/-! DEFINITION. Memory as the device's agents see it: the physical map, translation, homes and leases, completion times
by scope, reads and writes at home, watches, acquires, releases and the operations in flight (spec/12; spec/13 R223 to
R226; spec/24 R366, R367; spec/26 R381). -/

namespace Sys2Proof.Machine

/-! ## The physical map (spec/26 R381) -/

/-- What a physical address names. -/
inductive Region
  | hbm
  /-- A die's coherent window, or its acquire alias. -/
  | window (die : Nat) (isAlias : Bool)
  /-- A register: die, privileged view or not, offset. -/
  | mmio (die : Nat) (priv : Bool) (off : Nat)
  | absent
  deriving DecidableEq, Repr

/-- First address of the coherent host windows. -/
def windowBase : Nat := 0x100000000000
/-- First address of the MMIO views. -/
def mmioBase : Nat := 0x200000000000

/-- The region of a physical address. -/
def regionOf (pa : Nat) : Region :=
  if pa < Config.hbmBytes then .hbm
  else if windowBase ≤ pa ∧ pa < windowBase + 0x800000 then
    .window ((pa - windowBase) / 0x100000) (0x80000 ≤ (pa - windowBase) % 0x100000)
  else if mmioBase ≤ pa ∧ pa < mmioBase + 0x4000000 then
    let o := pa - mmioBase
    .mmio (o / 0x800000) (0x400000 ≤ o % 0x800000) (o % 0x400000)
  else .absent

/-- Does the address lie in memory or a window, not in registers? -/
def isMemory (pa : Nat) : Bool :=
  match regionOf pa with
  | .hbm => true
  | .window _ _ => true
  | _ => false

/-- The address at which a byte is held: an alias names the window's own word (spec/12 R218). -/
def canonPa (pa : Nat) : Nat :=
  match regionOf pa with
  | .window _ true => pa - 0x80000
  | _ => pa

/-- Does a range of `n` bytes lie in one region: HBM, the windows, or the views? -/
def regionSpan (pa n : Nat) : Bool :=
  pa + n ≤ Config.hbmBytes
    || (windowBase ≤ pa && pa + n ≤ windowBase + 0x800000)
    || (mmioBase ≤ pa && pa + n ≤ mmioBase + 0x4000000)

/-- The 256-byte line of an address. -/
def lineOf (pa : Nat) : Nat := pa / 256

/-- The die that is home to an address (spec/12 R392, R218). -/
def State.homeOf (s : State) (pa : Nat) : Nat :=
  match regionOf pa with
  | .window d _ => d
  | .mmio d _ _ => d
  | _ => (Config.homeDie s.boots (lineOf pa)).val

/-- A doubleword as the home slices hold it. -/
def State.dwordAt (s : State) (pa : Nat) : W64 := BitVec.ofNat 64 (leNat (Memory.readBytes s.mem (canonPa pa) 8))

/-- Some consecutive doublewords. -/
def State.dwordsAt (s : State) (pa n : Nat) : List W64 := (List.range n).map fun i => s.dwordAt (pa + 8 * i)

/-! ## Storage errors under memory (spec/26 R370 to R372) -/

/-- Do two ranges of bytes meet? -/
def meets (a n b m : Nat) : Bool := a < b + m && b < a + n

/-- Errors of granules that a write covers whole vanish (R372). -/
def coversSite (pa n : Nat) : Site → Bool
  | .mem g => pa ≤ 32 * g && 32 * g + 32 ≤ pa + n
  | .window d => pa ≤ windowBase + 8 * d && windowBase + 8 * d + 8 ≤ pa + n
  | _ => false

/-- The sites that bytes of memory stand in at their home. -/
def touchesSite (pa n : Nat) : Site → Bool
  | .mem g => meets pa n (32 * g) 32
  | .window d => meets pa n (windowBase + 8 * d) 8
  | _ => false

/-- A write that merges with part of a granule reads the granule (R372). -/
def mergesSite (pa n : Nat) (x : Site) : Bool := touchesSite pa n x && !coversSite pa n x

/-- The sites of HBM under a range. -/
def hbmSite (pa n : Nat) : Site → Bool
  | .hbm g => meets pa n (64 * g) 64
  | .dram g => meets pa n (64 * g) 64
  | _ => false

/-- An error that a use of bytes at their home would meet and no code corrects. -/
def State.failsHome (s : State) (pa n : Nat) : Option (W32 × Site) :=
  if s.upsets.isEmpty then none
  else s.badSite fun x => touchesSite (canonPa pa) n x || (tfind s.dirty (lineOf pa)).isNone && hbmSite (canonPa pa) n x

/-! ## Translation (spec/24 R366, R367) -/

/-- Log2 of the page a leaf of a level maps. -/
def levelLog (level : Nat) : Nat := if level = 0 then 16 else 12 + 9 * level

/-- The index of an address in a table of a level. -/
def levelIndex (level va : Nat) : Nat := if level = 0 then va / 2 ^ 16 % 32 else va / 2 ^ levelLog level % 512

/-- Physical address [51:8] of an entry. -/
def entryAddr (e : W64) : Nat := field e 8 44 * 256

/-- Is the entry valid at its level (R366; R381 for the address it names)? -/
def entryValid (level : Nat) (e : W64) : Bool :=
  let kind := field e 1 2
  let a := entryAddr e
  let size := if kind = 1 then 2 ^ levelLog level else if level = 1 then 256 else 4096
  e.getLsbD 0 && field e 52 12 = 0 && !e.getLsbD 7 && (kind = 0 && level ≠ 0 || kind = 1 && level ≤ 2)
    && a % size = 0 && regionSpan a size

/-- An entry of a table of a level as a walk reads it; none where it is not valid. DESIGN CHOICE: an entry whose code
fails is not valid (log entry 87). -/
def State.tableEntry (s : State) (level va table : Nat) : Option W64 :=
  let a := table + 8 * levelIndex level va
  let e := s.dwordAt a
  if entryValid level e && (s.failsHome a 8).isNone then some e else none

/-- A walk from a table of a level: the leaf and log2 of its page, or none at an invalid entry. -/
def State.walkFrom (s : State) (va table : Nat) : Nat → Option (W64 × Nat)
  | 0 => (s.tableEntry 0 va table).map fun e => (e, levelLog 0)
  | l + 1 => match s.tableEntry (l + 1) va table with
    | none => none
    | some e => if field e 1 2 = 1 then some (e, levelLog (l + 1)) else s.walkFrom va (entryAddr e) l

/-- The addresses of the entries that a walk from a table of a level reads, in order. -/
def State.walkReads (s : State) (va table : Nat) : Nat → List Nat
  | 0 => [table + 8 * levelIndex 0 va]
  | l + 1 => (table + 8 * levelIndex (l + 1) va) :: match s.tableEntry (l + 1) va table with
    | none => []
    | some e => if field e 1 2 = 1 then [] else s.walkReads va (entryAddr e) l

/-- A walk of an address space's tree; a space whose root is not bound has no valid entry. -/
def State.walk (s : State) (capx va : Nat) : Option (W64 × Nat) :=
  match tfind s.roots capx with
  | some root => s.walkFrom va root 4
  | none => none

/-- The TLB of a core's cluster. -/
def clusterTlb (c : Nat) : Nat := Config.cores + clusterOf c

/-- A cached translation of a core's TLB, or its cluster's. -/
def State.tlbFind (s : State) (c capx va : Nat) : Option (W64 × Nat) :=
  let hit (t : Nat) := s.tlb.find? fun e => e.tlb == t && e.capx == capx && e.page == va / 2 ^ e.sizeLog
  ((hit c).orElse fun _ => hit (clusterTlb c)).map fun e => (e.leaf, e.sizeLog)

/-- What an access asks of a leaf: a program's read, write or clause fetch, or an access of the log unit, the pond, the
context engine or firmware, which alone reach SYS pages (R366). -/
inductive Ask
  | read | write | fetch | sys (write : Bool)
  deriving DecidableEq, Repr

/-- Does a leaf permit it? A program never writes a code page (spec/13 R226, spec/04 R71). -/
def leafAllows (e : W64) : Ask → Bool
  | .read => e.getLsbD 3 && !e.getLsbD 6
  | .write => e.getLsbD 4 && !e.getLsbD 5 && !e.getLsbD 6
  | .fetch => e.getLsbD 5 && !e.getLsbD 6
  | .sys w => if w then e.getLsbD 4 else e.getLsbD 3

/-- The answer of a translation. -/
inductive Xlate
  | ok (pa : Nat)
  /-- TRANSLATION: an entry is invalid. -/
  | miss
  /-- ACCESS: the leaf does not permit it. -/
  | denied
  deriving DecidableEq, Repr

/-- Is the address canonical (spec/13 R226)? -/
def canonical (va : W64) : Bool := field va 57 7 = 0 && !va.getLsbD 56 || field va 57 7 = 127 && va.getLsbD 56

/-- Does an address lie in a sealed page (R222)? -/
def State.sealed (s : State) (pa : Nat) : Bool := s.seals.any fun x => x.page == pa / 65536

/-- Does the access write? -/
def Ask.writes : Ask → Bool
  | .write => true
  | .sys w => w
  | _ => false

/-- The translation of a canonical address for an agent at a core: a cached leaf if there is one, else a walk. No access
writes a sealed page (R222). -/
def State.translate (s : State) (c capx : Nat) (ask : Ask) (va : W64) : Xlate :=
  let v := field va 0 57
  match (s.tlbFind c capx v).orElse fun _ => s.walk capx v with
  | none => .miss
  | some (e, k) =>
    let pa := entryAddr e + v % 2 ^ k
    if leafAllows e ask && !(ask.writes && s.sealed pa) then .ok pa else .denied

/-- INFO of TRANSLATION and ACCESS. -/
def Ask.info (a : Ask) : Nat := if a.writes then 1 else 0

/-- An access checked in the order of R226, at an agent of core `c` in an address space: the physical address, or the
fault. The accesses are aligned to a page's divisors, so one never crosses a page. -/
def State.checkVa (s : State) (c capx : Nat) (ask : Ask) (align : Nat) (va : W64) : Nat ⊕ Trap :=
  if !canonical va then .inr { code := Code.access, addr := va, info := ask.info }
  else if va.toNat % align ≠ 0 then .inr { code := Code.align, addr := va, info := Nat.log2 align }
  else match s.translate c capx ask va with
    | .ok pa => .inl pa
    | .miss => .inr { code := Code.translation, addr := va, info := ask.info }
    | .denied => .inr { code := Code.access, addr := va, info := ask.info }

/-- A lane's access. -/
def State.laneVa (s : State) (l : Nat) (ask : Ask) (align : Nat) (va : W64) : Nat ⊕ Trap :=
  s.checkVa (coreOf l) (s.capxOf (coreOf l)) ask align va

/-! ## Scopes and their instances (spec/12 R202) -/

/-- Is a core in the instance of a scope that core `c` stands in? -/
def State.inScope (s : State) (c : Nat) (sc : Scope) (x : Nat) : Bool :=
  match sc with
  | .warp => x == c
  | .block => (s.blockCores c).contains x
  | .cluster => clusterOf x == clusterOf c
  | .die => dieOf x == dieOf c
  | .device => true
  | .system => true

/-- Is a cache in the instance? -/
def State.cacheInScope (s : State) (c : Nat) (sc : Scope) (k : CacheId) : Bool :=
  match k, sc with
  | .l1 x, sc => s.inScope c sc x
  | .engine x _, sc => s.inScope c sc x
  | .l2 _, .device => true
  | .l2 _, .system => true
  | .l2 d, _ => d == dieOf c

/-- Is the instance made of core `c` alone? -/
def State.aloneScope (s : State) (c : Nat) (sc : Scope) : Bool :=
  match sc with
  | .warp => true
  | .block => s.blockCores c == [c]
  | _ => false

/-- The scopes, by code. -/
def scopes : List Scope := [.warp, .block, .cluster, .die, .device, .system]

/-- A write's completion time C for the instance of a scope at core `c` (R205). -/
def State.doneAt (s : State) (c : Nat) (sc : Scope) (r : WriteRec) : Nat :=
  if s.aloneScope c sc && r.core == some c then r.entered
  else (r.leases.filter fun p => s.cacheInScope c sc p.1).foldl (fun m p => max m p.2) r.gt

/-- The completion times of some writes at a core, by scope code. -/
def State.timesOf (s : State) (c : Nat) (rs : List WriteRec) : Tab Nat :=
  scopes.foldl (fun t sc => tput 0 t sc.code (rs.foldl (fun m r => max m (s.doneAt c sc r)) 0)) []

/-- The later of two tables of times, scope by scope. -/
def laterTimes (t u : Tab Nat) : Tab Nat := u.foldl (fun t p => tput 0 t p.1 (max (tget 0 t p.1) p.2)) t

/-- A warp that has had write times returned (R205). -/
def Warp.wrote (x : Warp) (t : Tab Nat) : Warp := { x with swt := laterTimes x.swt t }
/-- A warp that has observed write times (R206). -/
def Warp.observed (x : Warp) (t : Tab Nat) : Warp := { x with owt := laterTimes x.owt t }

/-! ## How failing data moves (spec/26 R371) -/

/-- The 32-byte granules of L2 that a granule of HBM fills. -/
def siteFilled : Site → List Site
  | .hbm g => [.mem (2 * g), .mem (2 * g + 1)]
  | .dram g => [.mem (2 * g), .mem (2 * g + 1)]
  | _ => []

/-- A home slice holds a clean line as it came from HBM: what HBM's codes correct is corrected there and logged, what
they cannot correct stands failing in L2 too (R371). -/
def State.fillL2 (s : State) (line : Nat) : State :=
  if s.upsets.isEmpty || (tfind s.dirty line).isSome then s
  else
    let bad := s.upsets.filter fun u => u.unc && hbmSite (line * 256) 256 u.site
    bad.foldl (fun t u => (siteFilled u.site).foldl (fun t x => t.fails x (u.synd, u.origin)) t)
      (s.correct (hbmSite (line * 256) 256) 0x7FF)

/-- The doublewords of a line whose code fails at home, with their syndromes and origins. -/
def State.lineFails (s : State) (line : Nat) : Tab (W32 × Site) :=
  if s.upsets.isEmpty then []
  else (List.range 32).filterMap fun i => (s.badSite (touchesSite (line * 256 + 8 * i) 8)).map fun x => (line * 32 + i, x)

/-- The lines of a range. -/
def linesOf (pa n : Nat) : List Nat :=
  if n = 0 then [] else (List.range (lineOf (pa + n - 1) + 1 - lineOf pa)).map (lineOf pa + ·)

/-- HBM's granules of a line receive what the home slice holds: their own errors are gone, what L2's code corrects is
corrected, and what it cannot stands failing in HBM too (spec/26 R371). -/
def State.sendErrors (s : State) (line : Nat) : State :=
  if s.upsets.isEmpty then s
  else
    let s := s.overwrite (hbmSite (line * 256) 256)
    let bad := s.upsets.filter fun u => u.unc && touchesSite (line * 256) 256 u.site
    bad.foldl (fun t u => match u.site with
      | .mem g => t.fails (.hbm (g / 2)) (u.synd, u.origin)
      | _ => t) (s.correct (touchesSite (line * 256) 256) 0x7FF)

/-- A line written back: HBM holds what the home slice holds, and the line is clean. -/
def State.writeBack (s : State) (line : Nat) : State :=
  match tfind s.dirty line with
  | none => s
  | some _ =>
    let s := s.sendErrors line
    { s with hbm := Memory.writeBytes s.hbm (line * 256) (Memory.readBytes s.mem (line * 256) 256)
             dirty := tdel s.dirty line }

/-- Lines of a core's L1, and of a die's L2 (spec/01 R10, R15). -/
def l1Lines : Nat := 512
/-- Lines of one of the 32 slices of a die's L2. -/
def sliceLines : Nat := 6144

/-- The slice of an L2 that holds a line (spec/12 R392). -/
def State.sliceOf (s : State) (line : Nat) : Fin 32 := Config.slice s.boots line

/-- Lines that a slice of a die's L2 holds and cannot drop without writing back: the dirty ones homed there. -/
def State.dirtyOn (s : State) (d : Nat) (k : Fin 32) : List Nat :=
  (s.dirty.map (·.1)).filter fun l => s.homeOf (l * 256) == d && s.sliceOf l == k

/-- An agent at the home of a range uses its data, all of it or the granules that satisfy `p` (R371, R372). -/
def State.consumeHome (s : State) (p : Nat → Nat → Site → Bool) (pa n core : Nat) (launch : W32) : State × Bool :=
  if s.upsets.isEmpty then (s, false)
  else ((linesOf (canonPa pa) n).foldl State.fillL2 s).consume (p (canonPa pa) n) core launch

/-! ## Leases (spec/12 R204) -/

/-- A cache's GT. -/
def State.cacheGt (s : State) (k : CacheId) : Nat :=
  match k with
  | .l1 c => s.coreGt c
  | .l2 d => s.dieGt d
  | .engine c _ => s.coreGt c

/-- A cache's copy of a line whose lease has not ended. -/
def State.copyOf (s : State) (k : CacheId) (line : Nat) : Option LeaseCopy :=
  s.copies.find? fun x => x.cache == k && x.line == line && s.cacheGt k < x.leaseEnd

/-- The state without a cache's copy of a line. -/
def State.dropCopy (s : State) (k : CacheId) (line : Nat) : State :=
  { s with copies := s.copies.filter fun x => !(x.cache == k && x.line == line) }

/-- The state without any copy in a cache. -/
def State.dropCache (s : State) (k : CacheId) : State :=
  { s with copies := s.copies.filter fun x => x.cache ≠ k }

/-- The slice of a die's L2 that holds a line keeps within its lines (spec/01 R15): when it is full a copy of another
die's line goes, else a dirty line is written back (log entry 57). -/
def State.roomL2 (s : State) (d line : Nat) : State :=
  if s.dirty.length + s.copies.length ≤ sliceLines then s
  else
    let lines := s.dirtyOn d (s.sliceOf line)
    let mine := s.copies.filter fun x => x.cache == .l2 d && s.sliceOf x.line == s.sliceOf line
    if lines.length + mine.length ≤ sliceLines then s
    else match mine.getLast?, lines.head? with
      | some x, _ => s.dropCopy (.l2 d) x.line
      | none, some l => s.writeBack l
      | none, none => s

/-- The lease ends granted for a line, with one more: the latest of each cache stays. -/
def grant (g : List (CacheId × Nat)) (k : CacheId) (e : Nat) : List (CacheId × Nat) :=
  let old := ((g.find? fun p => p.1 == k).map (·.2)).getD 0
  (k, max old e) :: g.filter fun p => p.1 ≠ k

/-- The first `n` entries that satisfy `p`, and every other entry. -/
def keepFirst {α : Type} (p : α → Bool) : Nat → List α → List α
  | _, [] => []
  | n, x :: xs => if !p x then x :: keepFirst p n xs
    else match n with
      | 0 => keepFirst p 0 xs
      | m + 1 => x :: keepFirst p m xs

/-- A copy enters its cache: an L1 that is full drops its oldest (spec/01 R15), and errors that its cells held are gone
with what they held. -/
def State.addCopy (s : State) (x : LeaseCopy) : State :=
  let s := s.dropCopy x.cache x.line
  match x.cache with
  | .l1 c =>
    { s.overwrite (fun site => match site with
        | .l1 k d => k == c && d / 32 == x.line
        | _ => false) with copies := keepFirst (fun y => y.cache == .l1 c) l1Lines (x :: s.copies) }
  | .l2 d => ({ s with copies := x :: s.copies } : State).roomL2 d x.line
  | .engine _ _ => { s with copies := x :: s.copies }

/-- The state with a line fetched from its home into a cache, under a lease of a core's length; what fails its code at
home arrives failing (spec/26 R371). -/
def State.fetchLine (s : State) (c : Nat) (k : CacheId) (line : Nat) : State :=
  let s := (s.fillL2 line).correct (touchesSite (line * 256) 256) 0x7FF
  let e := s.dieGt (s.homeOf (line * 256)) + (s.core c).lease.toNat
  let copy : LeaseCopy := { cache := k, line := line, leaseEnd := e, cells := trange s.mem (line * 256) 256,
                            recs := trange s.writes (line * 256) 256, fails := s.lineFails line }
  { s.addCopy copy with granted := tset s.granted line (grant (tget [] s.granted line) k e) }

/-- Does the core's L1 miss reach a home on another die through its own die's L2? -/
def State.remote (s : State) (c line : Nat) : Bool := s.homeOf (line * 256) ≠ dieOf c

/-- The state with a line in a core's L1: kept while its lease runs, else taken from the die's L2 copy of a remote line
while that lease runs and the copy holds the core's own writes, else fetched from home (R204). -/
def State.fillL1 (s : State) (c line : Nat) : State :=
  match s.copyOf (.l1 c) line with
  | some _ => s
  | none =>
    if s.remote c line then
      let s := match s.copyOf (.l2 (dieOf c)) line with
        | some x => if x.notFor.contains c then s.fetchLine c (.l2 (dieOf c)) line else s
        | none => s.fetchLine c (.l2 (dieOf c)) line
      match s.copyOf (.l2 (dieOf c)) line with
      | some x => s.addCopy { x with cache := .l1 c, notFor := [] }
      | none => s
    else s.fetchLine c (.l1 c) line

/-! ## Operations in flight -/

/-- Is the operation a store that has entered its core's L1 and not reached home (R206)? -/
def MemOp.pendingStore (o : MemOp) : Bool :=
  match o.kind with
  | .store => !o.performed
  | _ => false

/-- The state with an operation changed. -/
def State.modOp (s : State) (id : Nat) (f : MemOp → MemOp) : State :=
  { s with ops := s.ops.map fun o => if o.id = id then f o else o }

/-- An operation in flight. -/
def State.op (s : State) (id : Nat) : Option MemOp := s.ops.find? fun o => o.id == id

/-- Has the part of an operation that LDC counts ended (R223)? -/
def MemOp.loadDone (o : MemOp) : Bool :=
  match o.kind with
  | .load _ _ _ => o.returned && o.waitsFor.isEmpty
  | .gload _ _ _ => o.returned && o.waitsFor.isEmpty
  | .atom _ _ (some _) _ _ _ => o.returned && o.waitsFor.isEmpty
  | .cas _ _ _ _ _ => o.returned && o.waitsFor.isEmpty
  | _ => true

/-- Has the part that STC counts ended? -/
def MemOp.storeDone (o : MemOp) : Bool :=
  match o.kind with
  | .store => o.answered
  | .atom _ _ _ _ _ _ => o.answered
  | .cas _ _ _ _ _ => o.answered
  | .flush _ => o.answered
  | _ => true

/-- Has the part that TLC counts ended? -/
def MemOp.tileDone (o : MemOp) : Bool :=
  match o.kind with
  | .tload _ _ _ => o.returned
  | .tstore _ => o.performed
  | _ => true

/-- Has the part that a counter counts ended: 0 LDC, 1 STC, 3 TLC? -/
def MemOp.partDone (o : MemOp) (which : Nat) : Bool :=
  match which with
  | 0 => o.loadDone
  | 1 => o.storeDone
  | _ => o.tileDone

/-- Does a counter count the operation at all? -/
def MemOp.counts (o : MemOp) (which : Nat) : Bool :=
  !({ o with returned := false, answered := false, performed := false } : MemOp).partDone which

/-- An operation changed by an event that ends its part in a counter: the counter falls when every operation of the
instruction in that warp has ended its part (R223), and a finished operation leaves. -/
def State.finishOp (s : State) (o : MemOp) (which : Nat) : State :=
  let s := s.modOp o.id fun _ => o
  let rest := s.ops.any fun x => x.ins == o.ins && x.warp == o.warp && !x.partDone which
  let s := if o.counts which && o.partDone which && !rest then s.countDown o.warp which else s
  { s with ops := s.ops.filter fun x => !(x.id == o.id && x.loadDone && x.storeDone && x.tileDone) }

/-- Requests of a core outstanding in memory (spec/01 R15): a B128 access is one. -/
def State.outstanding (s : State) (c : Nat) : Nat :=
  (s.ops.filter fun o => o.core == c && o.tileDone && !o.second).length

/-- Is no acquire of a warp under way (R208)? -/
def State.acquireFree (s : State) (w : Nat) : Bool :=
  s.ops.all fun o => o.warp ≠ w || o.returned || (match o.kind with
    | .load _ _ a => a.isNone
    | .atom _ _ _ a _ _ => a.isNone
    | .cas _ _ a _ _ => a.isNone
    | _ => true)

/-- Have a warp's operations before one returned, as a release asks (R207)? -/
def State.opsReturned (s : State) (w upTo : Nat) : Bool := s.ops.all fun o => o.warp ≠ w || upTo ≤ o.id

/-- A completion write that times of its warp's earlier operations hold back: they returned after it had issued. -/
def Completion.raise (d : Completion) (t : Tab Nat) : Completion := { d with after := max d.after (tget 0 t d.scope.code) }

/-- An AMAX update that such times hold back. -/
def DrainOp.raise (d : DrainOp) (t : Tab Nat) : DrainOp :=
  { d with after := (d.amax.map fun a => Nat.max d.after (tget 0 t a.2.code)).getD d.after }

/-- Times that an operation of a warp has returned, for the releases of the engine operations that the warp issued
after it (R198, R207; spec/14 R257). -/
def State.raiseAfter (s : State) (w id : Nat) (t : Tab Nat) : State :=
  let k := s.core (w / 128)
  let later (o : CopyOp) : Bool := o.org.warp == w && id < o.id && o.done.isSome
  let late (d : DrainOp) : Bool := d.org.warp == w && id < d.id && d.amax.isSome
  let up (q : List CopyOp) : List CopyOp := q.map fun o => if later o then { o with done := o.done.map (·.raise t) } else o
  let s := if (k.copy0 ++ k.copy1).any later then
      s.modCore (w / 128) fun k => { k with copy0 := up k.copy0, copy1 := up k.copy1 } else s
  if (s.pair (pairOf (w / 128))).drains.any late then
    s.modPair (pairOf (w / 128)) fun p => { p with drains := p.drains.map fun d => if late d then d.raise t else d }
  else s

/-- Are a warp's earlier operations returned and performed as a release at a scope asks (R207), and is GT past its
times by 2? -/
def State.releaseReady (s : State) (w : Nat) (sc : Scope) (upTo : Nat) : Bool :=
  let x := s.warp w
  s.opsReturned w upTo && max (tget 0 x.swt sc.code) (tget 0 x.owt sc.code) + 2 ≤ s.coreGt (w / 128)

/-- Why a memory instruction of some warps, with `n` accesses of counters `cs`, does not issue yet (spec/13 R389): its
release stalls (R207), a counter is full (spec/02 R37), an acquire is under way (R208), or the core's requests are
(spec/01 R15). -/
def State.gate (s : State) (ws : List Nat) (cs : List Nat) (n : Nat) (rel : Option Scope) : Option Wait :=
  let stalled := match rel with
    | some sc => !s.group.released && !ws.all fun w => s.releaseReady w sc s.nextId
    | none => false
  if stalled then rel.map fun sc => .release ws sc s.nextId
  else if cs.any (fun k => s.counterFull ws k) || !ws.all (fun w => s.acquireFree w)
      || 1024 < s.outstanding s.curCore + n then some .retry
  else none

/-- The state with operations accepted for one instruction: each takes a number, in order. -/
def State.accept (s : State) (os : List MemOp) : State :=
  let (ins, s) := s.fresh
  os.foldl (fun s o => { s with ops := s.ops ++ [{ o with id := s.nextId, ins := ins }], nextId := s.nextId + 1 }) s

/-! ## Reading -/

/-- The bytes a copy holds, and the records of their writes. -/
def LeaseCopy.read (x : LeaseCopy) (pa n : Nat) : List Byte × Tab WriteRec :=
  (Memory.readBytes x.cells pa n, trange x.recs pa n)

/-- The stores of a core that lie over a byte for a reader, oldest first (R206): of its own warp, those issued before
it; of other warps, those that entered L1 before any store its own warp issued after it, since the read comes before
that store in the byte's coherence order (R203). -/
def State.over (s : State) (c w id a : Nat) : List MemOp :=
  let on := s.ops.filter fun o => o.pendingStore && o.core == c && meets o.pa o.n a 1
  let later := on.filter fun o => o.warp == w && id ≤ o.id
  on.filter fun o => if o.warp = w then o.id < id else later.all fun p => o.id < p.id

/-- A value read: bytes, records of the writes it reflects, and stores whose response it must await (R206). -/
structure ReadRes where
  bytes : List Byte
  recs : List WriteRec := []
  awaits : List Nat := []
  deriving DecidableEq, Repr

/-- QSTATUS (spec/23 R331). -/
def Queue.status (q : Queue) : W64 :=
  BitVec.ofNat 64 (q.errcode.toNat * 256 + (if q.depunder then 8 else 0)
    + (if q.error then 2 else if q.qread = q.qwrite then 0 else 1))

/-- An event counter read: it has counted on since its last reading by a free number, since the spec does not say what it
counts (log entry 7). -/
def State.readCounterReg (s : State) (d k : Nat) : State × W64 :=
  let (x, s) := s.free
  let w := tget 0 (s.die d).counters k + x
  (s.modDie d fun y => { y with counters := tput 0 y.counters k w }, w)

/-- A register of a die's unprivileged view, read with 8 bytes (spec/23 R330, spec/26 R380). -/
def State.userView (s : State) (d off : Nat) : State × W64 :=
  if off % 8 ≠ 0 then (s, 0)
  else if off < 0x40000 then
    match tfind (s.die d).queues (off / 4096) with
    | none => (s, 0)
    | some q =>
      (s, match off % 4096 with
        | 0x008 => q.status
        | 0x010 => q.qread
        | 0x018 => q.qwrite
        | 0x020 => q.qerridx
        | _ => 0)
  else if off = 0x40000 then (s, BitVec.ofNat 64 (s.dieGt d))
  else if 0x41000 ≤ off ∧ off < 0x42000 then s.readCounterReg d ((off - 0x41000) / 8)
  else (s, 0)

/-- What a reader of a core sees of memory at this moment (R204, R206, R218), and the state with the line cached.
`w` and `id` are the reader's warp and the number of its operation. -/
def State.readAs (s : State) (c w id pa n : Nat) : State × ReadRes :=
  match regionOf pa with
  | .hbm =>
    let s := s.fillL1 c (lineOf pa)
    let base : List Byte × Tab WriteRec := match s.copyOf (.l1 c) (lineOf pa) with
      | some x => x.read pa n
      | none => (Memory.readBytes s.mem pa n, trange s.writes pa n)
    let bytes := base.1
    let tops := (List.range n).map fun i => (s.over c w id (pa + i)).getLast?
    let recs := (base.2.filter fun r => (tops.getD (r.1 - pa) none).isNone).map (·.2)
    let out := (List.range n).map fun i => match tops.getD i none with
      | some o => o.data.getD (pa + i - o.pa) 0
      | none => bytes.getD i 0
    let own := (tops.filterMap fun o : Option MemOp => o.map (·.id)) ++
      (recs.filterMap fun r => if r.core == some c && s.ops.any (fun o => o.id == r.seq && !o.answered) then some r.seq
        else none)
    (s, { bytes := out, recs := recs, awaits := own.eraseDups })
  | .window _ _ =>
    let a := canonPa pa
    (s, { bytes := Memory.readBytes s.mem a n, recs := (trange s.writes a n).map (·.2) })
  | .mmio d false off =>
    if n = 8 then
      let (s, x) := s.userView d off
      (s, { bytes := toLe x.toNat 8 })
    else (s, { bytes := List.replicate n 0 })
  | _ => (s, { bytes := List.replicate n 0 })

/-- What an agent that reads at home sees. -/
def State.readHome (s : State) (pa n : Nat) : List Byte × List WriteRec :=
  if isMemory pa then (Memory.readBytes s.mem (canonPa pa) n, (trange s.writes (canonPa pa) n).map (·.2))
  else (List.replicate n 0, [])

/-! ## Watches (spec/11 R199, R390) -/

/-- Does a word satisfy a comparison of WAITW and PARK, unsigned (spec/13 R232)? -/
def wcmpHolds (c : WCmp) (a b : Nat) : Bool :=
  match c with
  | .eq => a = b
  | .ne => a ≠ b
  | .ge => b ≤ a
  | .gt => b < a
  | .le => a ≤ b
  | .lt => a < b

/-- Bytes of a watched word. -/
def wordBytes (w64 : Bool) : Nat := if w64 then 8 else 4

/-- A watched word as its home holds it: memory, or a register read with 8 bytes. -/
def State.readWatched (s : State) (pa n : Nat) : List Byte × List WriteRec :=
  match regionOf pa with
  | .mmio d false off => (if n = 8 then toLe (s.userView d off).2.toNat 8 else List.replicate n 0, [])
  | _ => s.readHome pa n

/-- A lane's watch of a memory word tested. -/
def State.testWatch (s : State) (l : Nat) : State :=
  match (s.lane l).status with
  | .asleepWaitw true w =>
    match w.word with
    | .mem pa =>
      let (b, recs) := s.readHome pa (wordBytes w.w64)
      if !w.fired && wcmpHolds w.cmp (leNat b) w.value.toNat then
        s.modLane l fun x =>
          { x with status := .asleepWaitw true { w with fired := true, times := s.timesOf (coreOf l) recs } }
      else s
    | .tile _ _ => s
  | _ => s

/-- The lanes that watch bytes of memory in a range. -/
def State.watchers (s : State) (pa n : Nat) : List Nat :=
  s.lanes.filterMap fun p => match p.2.status with
    | .asleepWaitw true w => match w.word with
      | .mem a => if meets a (wordBytes w.w64) pa n then some p.1 else none
      | .tile _ _ => none
    | _ => none

/-- A parked record's word tested (spec/17 R313): when it holds, the record goes to the resume queue of its die. -/
def State.testRecord (s : State) (launch k : Nat) : State :=
  match (tfind s.launches launch).bind fun x => tfind x.pool k with
  | some r =>
    let cw2 := dword r.cw 2
    let w64 := cw2.getLsbD 33
    let (b, recs) := s.readWatched r.pa (wordBytes w64)
    let cmp := [WCmp.eq, .ne, .ge, .gt, .le, .lt].getD (field cw2 30 3) .eq
    if r.place = .watched ∧ wcmpHolds cmp (leNat b) (dword r.cw 4).toNat then
      let s := s.modLaunch launch fun x =>
        { x with pool := tset x.pool k { r with place := .queued r.die, recs := recs } }
      s.modDie r.die fun d => { d with resume := d.resume ++ [(launch, k)] }
    else s
  | none => s

/-- The parked records whose word meets a range. -/
def State.parkedOn (s : State) (pa n : Nat) : List (Nat × Nat) :=
  s.launches.flatMap fun p => p.2.pool.filterMap fun r =>
    if r.2.place = .watched ∧ meets r.2.pa 8 pa n then some (p.1, r.1) else none

/-- A head packet's watch of its counter tested with the value there (spec/23 R338). -/
def HeadWatch.test (w : HeadWatch) (x : W64) : HeadWatch := if x.toInt ≤ 0 && w.seen.isNone then { w with seen := some x } else w

/-- The counters of head packets that a write meets, tested again (spec/23 R338). -/
def State.testHeads (s : State) (pa n : Nat) : State :=
  { s with dies := s.dies.map fun d => (d.1, { d.2 with queues := d.2.queues.map fun q => (q.1, { q.2 with
      watch := q.2.watch.map fun w => if meets w.pa 8 pa n then w.test (s.dwordAt w.pa) else w }) }) }

/-- Every watch that a write meets, tested again (R199, R313, spec/23 R338). -/
def State.retest (s : State) (pa n : Nat) : State :=
  let s := (s.watchers pa n).foldl State.testWatch s
  let s := (s.parkedOn pa n).foldl (fun s p => s.testRecord p.1 p.2) s
  if s.dies.any fun d => d.2.queues.any fun q => q.2.watch.any fun w => meets w.pa 8 pa n then s.testHeads pa n else s

/-! ## Writing at home (spec/12 R203, R205) -/

/-- The record of a write performed now at an address. -/
def State.recordAt (s : State) (id : Nat) (core : Option Nat) (entered pa : Nat) : WriteRec :=
  match regionOf pa with
  | .hbm =>
    let g := s.dieGt (s.homeOf pa)
    { seq := id, gt := g, core := core, entered := entered,
      leases := (tget [] s.granted (lineOf pa)).filter fun p => g < p.2 }
  | _ => { seq := id, gt := s.dieGt (s.homeOf pa) }

/-- Entries for consecutive keys. -/
def setRange {α : Type} (t : Tab α) (k : Nat) (x : α) : Nat → Tab α
  | 0 => t
  | n + 1 => setRange (tset t k x) (k + 1) x n

/-- A write performed at the home slice: its bytes are in place, its record stands, its line is dirty under the launch
of its writer, and its watches are tested. Addresses that are no memory take no write. -/
def State.writeHome (s : State) (r : WriteRec) (launch : W32) (pa : Nat) (data : List Byte) : State :=
  if !isMemory pa then s
  else
    let a := canonPa pa
    let n := data.length
    let hbm := decide (regionOf a = Region.hbm)
    let s := (if hbm then s.fillL2 (lineOf a) else s).overwrite (coversSite a n)
    let s : State := { s with
      mem := Memory.writeBytes s.mem a data
      writes := setRange s.writes a r n
      dirty := if hbm then tset s.dirty (lineOf a) launch else s.dirty }
    let s := s.retest a n
    if hbm then s.roomL2 (s.homeOf a) (lineOf a) else s

/-- The home slice merges a write into granules that it covers in part: what their code corrects is corrected; what it
cannot stays failing (spec/26 R371, R372; log entry 88). -/
def State.merge (s : State) (pa n : Nat) : State :=
  if s.upsets.isEmpty then s else ((linesOf (canonPa pa) n).foldl State.fillL2 s).correct (mergesSite (canonPa pa) n) 0x7FF

/-- A write of an engine, the pond, the command processor or a host, performed at home: its record, and the state. -/
def State.agentWrite (s : State) (launch : W32) (pa : Nat) (data : List Byte) : State × WriteRec :=
  let (id, s) := (s.merge pa data.length).fresh
  let r := s.recordAt id none 0 (canonPa pa)
  (s.writeHome r launch pa data, r)

/-- Bytes of a copy updated by its core's own store. -/
def LeaseCopy.update (x : LeaseCopy) (r : WriteRec) (pa : Nat) (data : List Byte) : LeaseCopy :=
  { x with cells := Memory.writeBytes x.cells pa data, recs := setRange x.recs pa r data.length
           fails := x.fails.filter fun f => !(pa ≤ 8 * f.1 && 8 * f.1 + 8 ≤ pa + data.length) }

/-- The core's own L1 copy holds its store, and the die's L2 copy of a remote line no longer serves that core (R206). -/
def State.ownWrite (s : State) (c : Nat) (r : WriteRec) (pa : Nat) (data : List Byte) : State :=
  { s with copies := s.copies.map fun x =>
      if x.line ≠ lineOf pa then x
      else if x.cache = .l1 c then x.update r pa data
      else if x.cache = .l2 (dieOf c) then { x with notFor := c :: x.notFor }
      else x }

/-- An atomic drops the issuing core's L1 copy of its line (R210 note 4); the L2 copy no longer serves that core. -/
def State.ownDrop (s : State) (c pa : Nat) : State :=
  let s := s.dropCopy (.l1 c) (lineOf pa)
  { s with copies := s.copies.map fun x =>
      if x.line = lineOf pa ∧ x.cache = .l2 (dieOf c) then { x with notFor := c :: x.notFor } else x }

/-! ## Writing back to HBM (spec/12 R219 to R221) -/

/-- Every dirty line of a launch written back. -/
def State.writeBackLaunch (s : State) (num : W32) : State :=
  ((s.dirty.filter fun p => p.2 = num).map (·.1)).foldl State.writeBack s

/-- The seals of pages that firmware has since taken out of the sealing space (spec/23 R349) end. -/
def State.unseal (s : State) : State :=
  { s with seals := s.seals.filter fun x => match s.walk x.capx (field x.va 0 57) with
      | some (e, k) => (entryAddr e + field x.va 0 57 % 2 ^ k) / 65536 == x.page
      | none => false }

/-! ## Acquires (spec/12 R208, R221) -/

/-- The leases an acquire at a scope drops at a core. -/
def State.acquire (s : State) (c : Nat) (sc : Scope) : State :=
  match sc with
  | .warp => s
  | .block => if s.blockCores c == [c] then s else s.dropCache (.l1 c)
  | .cluster => s.dropCache (.l1 c)
  | .die => s.dropCache (.l1 c)
  | .device => s.dropCache (.l1 c)
  | .system => (s.dropCache (.l1 c)).dropCache (.l2 (dieOf c))

/-- An acquire at SYSTEM scope of a completion signal pulls its launch's closed generation to HBM (R221). -/
def State.pull (s : State) (pa n : Nat) : State :=
  let due := s.generations.filter fun g => meets g.2 8 (canonPa pa) n
  let s := due.foldl (fun s g => s.writeBackLaunch g.1) s
  { s with generations := s.generations.filter fun g => !meets g.2 8 (canonPa pa) n }

/-- An acquire through a word: the leases dropped, and at SYSTEM scope the pull. -/
def State.acquireWord (s : State) (c : Nat) (sc : Scope) (pa n : Nat) : State :=
  let s := s.acquire c sc
  if sc = .system then s.pull pa n else s

/-! ## Memory of the device's own agents, by virtual address -/

/-- Bytes of an address space read page by page by the command processor, a walker or another agent of the device, at
home; none where some byte does not translate. -/
def State.readVa (s : State) (c capx : Nat) (ask : Ask) (va : W64) : Nat → Option (List Byte)
  | 0 => some []
  | n + 1 =>
    match s.checkVa c capx ask 1 va, s.readVa c capx ask (va + 1) n with
    | .inl pa, some bs => some ((s.readHome pa 1).1 ++ bs)
    | _, _ => none

/-- A number of `n` bytes read at an aligned virtual address. -/
def State.loadVa (s : State) (c capx : Nat) (ask : Ask) (va : W64) (n : Nat) : Nat ⊕ Trap :=
  match s.checkVa c capx ask n va with
  | .inl pa => .inl (leNat (s.readHome pa n).1)
  | .inr t => .inr t

/-- The state with bytes written at a virtual address within one page, and the record of the write. -/
def State.storeVa (s : State) (c capx : Nat) (ask : Ask) (launch : W32) (va : W64) (data : List Byte) :
    (State × WriteRec) ⊕ Trap :=
  match s.checkVa c capx ask 1 va with
  | .inl pa => .inl (s.agentWrite launch pa data)
  | .inr t => .inr t

end Sys2Proof.Machine
end

