-- ==== Sys2Proof/Machine/Tiles.lean ====
section
/-! DEFINITION. Tiles: the tile table, placement in tile memory, elements and their bytes, the busy states, and the
instructions TALLOC, TFREE, TINFO, TTAG, LDT and STT (spec/11 R185 to R194; spec/13 R228, R241, R242). -/

namespace Sys2Proof.Machine

/-! ## Which tile a handle names -/

/-- Cores that share a level (R187). -/
def levelCores : TileLevel → Nat
  | .core => 1
  | .pair => 2
  | .cluster => 8

/-- The first of the cores that hold a tile of a level bound at core `c`. -/
def levelHome (lvl : TileLevel) (c : Nat) : Nat := c / levelCores lvl * levelCores lvl

/-- A tile's key: its home core, level and handle. -/
def tileKey (lvl : TileLevel) (c h : Nat) : Nat := (levelHome lvl c * 3 + lvl.code) * 256 + h

/-- The cores that hold a tile. -/
def tileCores (k : Nat) (t : Tile) : List Nat := (List.range (levelCores t.lvl)).map (keyCore k + ·)

/-- A tile by its key. -/
def State.tile (s : State) (k : Nat) : Tile := tget {} s.tiles k
/-- The state with a tile changed, if it is there. -/
def State.modTile (s : State) (k : Nat) (f : Tile → Tile) : State := { s with tiles := tmod s.tiles k f }

/-- The entry of a handle in a core's tile table, bound or FREEING (R188). -/
def State.tileEntry (s : State) (c h : Nat) : Option Nat :=
  ([TileLevel.core, .pair, .cluster].map fun lvl => tileKey lvl c h).find? fun k => (tfind s.tiles k).isSome

/-- The tile a handle is bound to at a core. -/
def State.tileBound (s : State) (c h : Nat) : Option Nat :=
  (s.tileEntry c h).filter fun k => !(s.tile k).freeing

/-- The handle an operand names. -/
def handleOf : Operand → Nat
  | .t i => i.val
  | _ => 0

/-- TILE_HANDLE for a handle (spec/02 R40). -/
def handleTrap (h : Nat) : Trap := { code := Code.tileHandle, info := h }

/-! ## Sizes and placement (R187) -/

/-- Bytes of so many elements. -/
def tileBytes (f : Fmt) (n : Nat) : Nat := (n * elemNibbles f + 1) / 2

/-- Elements of a tile. -/
def Tile.count (t : Tile) : Nat := t.rows * t.cols
/-- Bytes of a tile. -/
def Tile.bytes (t : Tile) : Nat := tileBytes t.fmt t.count

/-- Granules of so many bytes. -/
def granulesOf (bytes : Nat) : Nat := (bytes + 511) / 512

/-- Granules that a spread tile of `n` granules takes on the core in position `p` of `m`. -/
def granulesAt (n m p : Nat) : Nat := (n - p + m - 1) / m

/-- Granules a tile takes on a core that holds it. -/
def tileGranules (k : Nat) (t : Tile) (c : Nat) : Nat :=
  granulesAt (granulesOf t.bytes) (levelCores t.lvl) (c - keyCore k)

/-- The tiles with granules on a core. -/
def State.tilesOn (s : State) (c : Nat) : List (Nat × Tile) := s.tiles.filter fun p => (tileCores p.1 p.2).contains c

/-- Granules of a core's log tile T255 (R187, spec/16 R281): they end at granule 895. -/
def State.logGranules (s : State) (c : Nat) : Nat :=
  match s.blockOf c, s.launchOf c with
  | some b, some l => if l.alloc.ng = 0 ∨ !b.running then 0 else l.nchip / 32
  | _, _ => 0

/-- Are `n` granules from `base` free on a core? -/
def State.granulesFree (s : State) (c base n : Nat) : Bool :=
  base + n + s.logGranules c ≤ 896 &&
    (s.tilesOn c).all fun p => !meets base n p.2.base (tileGranules p.1 p.2 c)

/-- Is there budget on a core for `n` granules more (R187)? -/
def State.budgetFree (s : State) (c n : Nat) : Bool :=
  (((s.tilesOn c).foldl (fun m p => m + tileGranules p.1 p.2 c) 0) + n) * 512
    ≤ ((s.launchOf c).map Launch.tileBytes).getD 0

/-- The lowest BASE for a tile of `n` granules at a level, or none on a shortage (R187, R188). DEDUCED: each core needs
its share of the granules free from BASE on (log entry 70). -/
def State.placeTile (s : State) (lvl : TileLevel) (c n : Nat) : Option Nat :=
  let m := levelCores lvl
  let need := (List.range m).map fun p => (levelHome lvl c + p, granulesAt n m p)
  if need.all fun q => s.budgetFree q.1 q.2 then
    (List.range 896).find? fun base => need.all fun q => s.granulesFree q.1 base q.2
  else none

/-! ## Elements (R191; spec/03 R50) -/

/-- A byte of a tile. -/
def Tile.byte (t : Tile) (i : Nat) : Byte := tget 0 t.data i

/-- Bytes of a tile from an offset. -/
def Tile.read (t : Tile) (off n : Nat) : List Byte := (List.range n).map fun i => t.byte (off + i)

/-- An element's bits. -/
def Tile.elem (t : Tile) (e : Nat) : Nat :=
  let w := elemNibbles t.fmt
  if w = 1 then (t.byte (e / 2)).toNat / 16 ^ (e % 2) % 16 else leNat (t.read (e * w / 2) (w / 2))

/-- Tile data with an element written. -/
def putElem (f : Fmt) (d : Tab Byte) (e x : Nat) : Tab Byte :=
  let w := elemNibbles f
  if w = 1 then
    let old := (tget 0 d (e / 2)).toNat
    let new := if e % 2 = 0 then old / 16 * 16 + x % 16 else old % 16 + x % 16 * 16
    tput 0 d (e / 2) (BitVec.ofNat 8 new)
  else putBytes d (e * w / 2) (toLe x (w / 2))

/-- A row's elements. -/
def Tile.row (t : Tile) (r : Nat) : List Nat := (List.range t.cols).map fun c => t.elem (r * t.cols + c)

/-- Is a row present (spec/15 R260)? -/
def Tile.present (t : Tile) (r : Nat) : Bool :=
  !(t.dom && t.pv) || (tget 0 t.pres (r / 64)).getLsbD (r % 64)

/-- A tile's tag. -/
def Tile.tag (t : Tile) : TileTag := { dom := t.dom, hlev := t.hlev, thk := t.thk, pv := t.pv, pres := t.pres }
/-- A tile with a tag. -/
def Tile.withTag (t : Tile) (x : TileTag) : Tile :=
  { t with dom := x.dom, hlev := x.hlev, thk := x.thk, pv := x.pv, pres := x.pres }

/-- Presence bitmaps with every row of so many present. -/
def allPresent (rows : Nat) : Tab W64 :=
  (List.range ((rows + 63) / 64)).map fun q => (q, BitVec.ofNat 64 (2 ^ min 64 (rows - 64 * q) - 1))

/-! ## The log of a tile's errors and its watchers -/

/-- Sites in a tile's bytes. -/
def tileSite (k off n : Nat) : Site → Bool
  | .tile c h d => c == keyCore k && h == keyHandle k && meets off n (8 * d) 8
  | _ => false

/-- Sites whose bank word a write covers whole. -/
def tileCovers (k off n : Nat) : Site → Bool
  | .tile c h d => c == keyCore k && h == keyHandle k && off ≤ 8 * d && 8 * d + 8 ≤ off + n
  | _ => false

/-- Sites under `n` elements of a tile from one on. -/
def elemSite (k : Nat) (f : Fmt) (e n : Nat) : Site → Bool :=
  let a := e * elemNibbles f / 2
  tileSite k a (((e + n) * elemNibbles f + 1) / 2 - a)

/-- A lane's watch of a tile word tested (R199). -/
def State.testTileWatch (s : State) (l : Nat) : State :=
  match (s.lane l).status with
  | .asleepWaitw true w =>
    match w.word with
    | .tile k e =>
      if !w.fired && wcmpHolds w.cmp ((s.tile k).elem e) w.value.toNat then
        s.modLane l fun x => { x with status := .asleepWaitw true { w with fired := true } }
      else s
    | .mem _ => s
  | _ => s

/-- The lanes that watch elements of a tile. -/
def State.tileWatchers (s : State) (k : Nat) : List Nat :=
  s.lanes.filterMap fun p => match p.2.status with
    | .asleepWaitw _ w => match w.word with
      | .tile j _ => if j = k then some p.1 else none
      | .mem _ => none
    | _ => none

/-- The state with a tile's data changed: its watchers are tested again. -/
def State.setTileData (s : State) (k : Nat) (d : Tab Byte) : State :=
  let s := s.modTile k fun t => { t with data := d }
  (s.tileWatchers k).foldl State.testTileWatch s

/-- The state with `n` bytes of a tile from an offset written: the new data, errors in the bank words that the bytes
complete gone (spec/26 R372). -/
def State.fillTile (s : State) (k off n : Nat) (d : Tab Byte) : State :=
  let m := if off + n = (s.tile k).bytes then (off % 8 + n + 7) / 8 * 8 else off % 8 + n
  (s.overwrite (tileCovers k (off / 8 * 8) m)).setTileData k d

/-- The state with bytes of a tile written. -/
def State.writeTile (s : State) (k off : Nat) (data : List Byte) : State :=
  (s.overwrite (tileCovers k off data.length)).setTileData k (putBytes (s.tile k).data off data)

/-! ## Engine operations on a tile (R193) -/

/-- Does a copy operation write its tile? -/
def CopyOp.writesTile (o : CopyOp) : Bool := o.kind == .load || o.kind == .gather

/-- An engine operation on a tile: its number and warp, whether it writes the tile, whether it is under way, and whether
the tile unit runs it. -/
structure TileUse where
  id : Nat
  warp : Nat
  writes : Bool
  started : Bool := false
  unit : Bool := false
  deriving DecidableEq, Repr

/-- The engine operations on a tile not yet ended. -/
def State.tileEngines (s : State) (k : Nat) : List TileUse :=
  let copies := s.cores.flatMap fun p => (p.2.copy0 ++ p.2.copy1).filterMap fun o =>
    if o.tile = k ∧ !o.moved then some { id := o.id, warp := o.org.warp, writes := o.writesTile, started := o.started } else none
  let ops := s.cores.flatMap fun p => p.2.tileOps.filterMap fun o =>
    if o.d = k ∨ o.a = k ∨ o.b = some k then
      some { id := o.id, warp := o.org.warp, writes := o.d == k, started := o.started, unit := true } else none
  let feeds := s.feeds.filterMap fun f => if f.tile = k then some { id := f.id, warp := f.org.warp, writes := false } else none
  let drains := s.pairs.flatMap fun p => p.2.drains.filterMap fun d =>
    if d.dest = .tile k ∧ !d.moved then some { id := d.id, warp := d.org.warp, writes := true, started := d.started } else none
  copies ++ ops ++ feeds ++ drains

/-- A tile's BUSY field (R186). -/
def Tile.busy (t : Tile) : Nat := if t.freeing then 3 else if t.clearing then 1 else if t.engine then 2 else 0

/-- A thread access waiting at the tile. -/
def State.tileAccesses (s : State) (k : Nat) : List MemOp :=
  s.ops.filter fun o => match o.kind with
    | .tload t _ _ => t == k
    | .tstore t => t == k
    | _ => false

/-- Must a warp's access numbered `id` wait at the tile (R193, R194): for the clear, for the warp's earlier engine
operations, and for its own earlier access to the same bytes? -/
def State.tileHeld (s : State) (k w id off n : Nat) : Bool :=
  let t := s.tile k
  t.clearing
    || (s.tileEngines k).any (fun e => e.warp == w && e.id < id && (e.writes || t.engine))
    || (s.tileAccesses k).any (fun o => o.warp == w && o.id < id && meets o.pa o.n off n)

/-- A FREEING tile's storage returns to the pool once its clear, its engine operations and the accesses accepted before
TFREE have ended (R191); TLC falls in the warps that freed it. -/
def State.settleTile (s : State) (k : Nat) : State :=
  let t := s.tile k
  if t.freeing && !t.clearing && (s.tileEngines k).isEmpty && (s.tileAccesses k).isEmpty then
    t.freers.foldl (fun s w => s.countDown w 3) { s with tiles := tdel s.tiles k }
  else s

/-- A tile unbound: FREEING, and the lanes asleep on its words run their WAITW again (R191, spec/13 R232). -/
def State.freeTile (s : State) (k : Nat) (ws : List Nat) : State :=
  let ls := s.tileWatchers k
  let s := s.modTile k fun t => { t with freeing := true, freers := ws }
  let s := ls.foldl (fun s l => s.modLane l fun x => { x with status := .idle }) s
  s.settleTile k

/-- The end of a tile's clear (R189). -/
def execTileClearEnd (core handle : Nat) (s : State) : Out :=
  match s.tileEntry core handle with
  | some k =>
    let t := s.tile k
    if t.clearing then
      let s := t.binders.foldl (fun s w => s.countDown w 3) (s.modTile k fun t => { t with clearing := false, binders := [] })
      .next (s.settleTile k)
    else .next s
  | none => .next s

/-! ## TALLOC, TFREE, TINFO, TTAG (spec/13 R241, R242) -/

/-- The lowest executing lane that is no helper (R185). -/
def State.actor (s : State) (g : Guard) : Option Nat := (s.execThreads g).head?

/-- The state with one value written to D of every executing lane. -/
def State.commitAll (s : State) (g : Guard) (d : Operand) (vals : List W32) : State :=
  s.commit d ((s.exec g).map fun l => (l, vals))

/-- RESERVED_FIELD for a written or record value. -/
def reservedTrap (info : Nat := 0) : Trap := { code := Code.reservedField, info := info }

/-- The shape a TALLOC asks for: rows, columns, IMODE, IGRAN; none for RESERVED_FIELD (R241). -/
def tallocShape (f : Fmt) (b c : Nat) (lvl : TileLevel) : Option (Nat × Nat × Nat × Nat) :=
  let rows := b % 2048
  let im := b / 2 ^ 16 % 8
  let ig := b / 2 ^ 20 % 16
  let ok := b / 2 ^ 24 = 0 && b / 2 ^ 19 % 2 = 0 && b / 2 ^ 11 % 32 = 0 && f ≠ .aq64 && im ≤ 3
    && (if im = 0 then ig = 0 else 3 ≤ ig && ig ≤ 10) && 1 ≤ rows && rows ≤ 1024 && 1 ≤ c && c ≤ 4096
    && (f ≠ .int4 || c % 2 = 0) && granulesAt (granulesOf (tileBytes f (rows * c))) (levelCores lvl) 0 ≤ 896
  if ok then some (rows, c, im, ig) else none

/-- TALLOC (R188, R241): the checks in order, the wait on a FREEING handle, the shortage, the binding; the clear replaces
every byte (spec/26 R372). -/
def execTalloc (g : Guard) (o : Ops) (fmt : Fmt) (lvl : TileLevel) (s : State) : Out :=
  match s.actor g with
  | none => .next (s.commitAll g o.d [0])
  | some l =>
    let c := coreOf l
    let h := handleOf o.a
    match tallocShape fmt (s.src l .int o.b).toNat (s.src l .int o.c).toNat lvl with
    | none => .next (s.trap l (reservedTrap))
    | some (rows, cols, im, ig) =>
      let on := (List.range (levelCores lvl)).map (levelHome lvl c + ·)
      let ws := warpsOf (s.exec g)
      if on.any fun x => (s.tileBound x h).isSome then .next (s.trap l (handleTrap h))
      else if (on.any fun x => (s.tileEntry x h).isSome) || s.counterFull ws 3 then .next (s.hold .retry)
      else match s.placeTile lvl c (granulesOf (tileBytes fmt (rows * cols))) with
        | none => .next (s.commitAll g o.d [0])
        | some base =>
          let (id, s) := s.fresh
          let t : Tile := { launch := (s.core c).launch.getD 0, lvl := lvl, fmt := fmt, rows := rows, cols := cols, imode := im, igran := ig, base := base,
                            bind := id, clearing := true, binders := ws }
          let s : State := { s with tiles := tset s.tiles (tileKey lvl c h) t }
          .next (((s.overwrite (tileSite (tileKey lvl c h) 0 t.bytes)).countAll ws 3).commitAll g o.d [1])

/-- TFREE (R191, R242). -/
def execTfree (g : Guard) (o : Ops) (s : State) : Out :=
  match s.actor g with
  | none => .next s
  | some l =>
    match s.tileBound (coreOf l) (handleOf o.a) with
    | none => .next (s.trap l (handleTrap (handleOf o.a)))
    | some k =>
      let ws := warpsOf (s.exec g)
      if s.counterFull ws 3 then .next (s.hold .retry) else .next ((s.countAll ws 3).freeTile k ws)

/-- The 64-bit entry that TINFO reads (R186). -/
def Tile.entry (t : Tile) : W64 :=
  BitVec.ofNat 64 (2 ^ 63 + t.lvl.code * 2 ^ 61 + t.fmt.code * 2 ^ 57 + t.rows * 2 ^ 46 + t.cols * 2 ^ 33
    + t.imode * 2 ^ 30 + t.igran * 2 ^ 26 + t.busy * 2 ^ 24 + (if t.dom then 2 ^ 23 else 0) + t.hlev * 2 ^ 20
    + t.thk * 2 ^ 18 + (if t.pv then 2 ^ 17 else 0) + t.base)

/-- TINFO (R242): 0 for an unbound handle, without fault. -/
def execTinfo (g : Guard) (o : Ops) (s : State) : Out :=
  perLane g o.d s fun l => match s.tileBound (coreOf l) (handleOf o.a) with
    | some k => .ok (wordsOf (s.tile k).entry)
    | none => .ok [0, 0]

/-- The tag word (R242). -/
def Tile.tagWord (t : Tile) : W32 :=
  BitVec.ofNat 32 ((if t.dom then 64 else 0) + t.hlev * 8 + t.thk * 2 + (if t.pv then 1 else 0))

/-- TTAG, the read. -/
def execTtag (g : Guard) (o : Ops) (s : State) : Out :=
  perLane g o.d s fun l => match s.tileBound (coreOf l) (handleOf o.a) with
    | some k => .ok [(s.tile k).tagWord]
    | none => .fault (handleTrap (handleOf o.a))

/-- A tile with a tag written; PV 1 makes every row present (R242). -/
def Tile.setTag (t : Tile) (dom : Bool) (hlev thk : Nat) (pv : Bool) : Tile :=
  { t with dom := dom, hlev := hlev, thk := thk, pv := pv, pres := if pv then allPresent t.rows else t.pres }

/-- May the tag word be written to a tile (R242)? -/
def Tile.tagOk (t : Tile) (v : Nat) : Bool :=
  v < 128 && (if v / 64 = 0 then v = 0 else 1 ≤ v / 8 % 8 && v / 8 % 8 ≤ 6 && t.rows % 2 ^ (v / 8 % 8) = 0)

/-- TTAG.W (R242): it waits while the tile is CLEAR or ENGINE. -/
def execTtagW (g : Guard) (o : Ops) (s : State) : Out :=
  match s.actor g with
  | none => .next s
  | some l =>
    match s.tileBound (coreOf l) (handleOf o.a) with
    | none => .next (s.trap l (handleTrap (handleOf o.a)))
    | some k =>
      let t := s.tile k
      let v := (s.src l .int o.b).toNat
      if t.clearing || t.engine then .next (s.hold .retry)
      else if t.tagOk v then .next (s.modTile k fun t => t.setTag (v / 64 = 1) (v / 8 % 8) (v / 2 % 4) (v % 2 = 1))
      else .next (s.trap l (reservedTrap))

/-! ## LDT and STT (spec/13 R228) -/

/-- Bytes of an access (spec/13 R227). -/
def sizeBytes : MemSize → Nat
  | .b32 => 4
  | .b64 => 8
  | .b128 => 16
  | .u8 => 1
  | .s8 => 1
  | .u16 => 2
  | .s16 => 2

/-- The words a loaded value gives its destination (R227). -/
def loadWords (size : MemSize) (bs : List Byte) : List W32 :=
  let n := leNat bs
  match size with
  | .b32 => [BitVec.ofNat 32 n]
  | .b64 => wordsOf (BitVec.ofNat 64 n)
  | .b128 => (List.range 4).map fun i => BitVec.ofNat 32 (n / 2 ^ (32 * i))
  | .s8 => [(BitVec.ofNat 8 n).signExtend 32]
  | .s16 => [(BitVec.ofNat 16 n).signExtend 32]
  | _ => [BitVec.ofNat 32 n]

/-- The bytes a store writes (R227). -/
def State.storeBytes (s : State) (l : Nat) (size : MemSize) (o : Operand) : List Byte :=
  match size with
  | .b64 => toLe (s.src64 l o).toNat 8
  | .b128 => (s.srcRun l 4 o).flatMap fun w => toLe w.toNat 4
  | size => toLe (s.src l .int o).toNat (sizeBytes size)

/-- A lane's tile access: the tile and the byte offset, or the fault (R191, R228). -/
def State.tileVa (s : State) (l : Nat) (a b : Operand) (n : Nat) : (Nat × Nat) ⊕ Trap :=
  let h := handleOf a
  match s.tileBound (coreOf l) h with
  | none => .inr (handleTrap h)
  | some k =>
    let t := s.tile k
    let e := (s.src l .int b).toNat
    let w := elemNibbles t.fmt
    if 2 * t.bytes < e * w + 2 * n then .inr { code := Code.tileBounds, addr := BitVec.ofNat 64 e, info := h }
    else if e * w % (2 * n) ≠ 0 then .inr { code := Code.align, addr := BitVec.ofNat 64 e, info := Nat.log2 n }
    else .inl (k, e * w / 2)

/-- What went well among lanes' answers. -/
def leftsOf {α β : Type} (xs : List (Nat × (α ⊕ β))) : List (Nat × α) :=
  xs.filterMap fun p => match p.2 with
    | .inl a => some (p.1, a)
    | .inr _ => none

/-- What faulted among lanes' answers. -/
def rightsOf {α β : Type} (xs : List (Nat × (α ⊕ β))) : List (Nat × β) :=
  xs.filterMap fun p => match p.2 with
    | .inl _ => none
    | .inr b => some (p.1, b)

/-- The lanes whose value goes to a destination (spec/02 R22): every one, or for an S register the lowest thread of
each warp. -/
def State.receivers (s : State) (d : Operand) (ls : List Nat) : List Nat :=
  if isSReg d then lowestOf (ls.filter fun l => !(s.lane l).helper) else ls

/-- A memory operation of a lane. -/
def State.laneOp (s : State) (l : Nat) (kind : MemKind) (pa n : Nat) : MemOp :=
  { id := 0, ins := 0, kind := kind, lane := l, warp := warpOf l, core := coreOf l, launch := s.launchNum (coreOf l),
    pa := pa, n := n, here := s.faultHere { code := Code.machineCheck } }

/-- LDT: each lane's access is accepted by the tile banks, counted in TLC. -/
def execLdt (g : Guard) (o : Ops) (size : MemSize) (s : State) : Out :=
  let n := sizeBytes size
  let rs := (s.exec g).map fun l => (l, s.tileVa l o.a o.b n)
  let good := leftsOf rs
  let ws := warpsOf (good.map (·.1))
  match s.gate ws [3] 0 none with
  | some w => .next (s.hold w)
  | none =>
    let take := s.receivers o.d (good.map (·.1))
    let t := (s.countAll ws 3).accept (good.map fun p =>
      { s.laneOp p.1 (.tload p.2.1 o.d size) p.2.2 n with writes := take.contains p.1 })
    .next (t.trapEach (rightsOf rs))

/-- STT: whole bytes, counted in TLC until the bank has them. -/
def execStt (g : Guard) (o : Ops) (size : MemSize) (s : State) : Out :=
  let n := sizeBytes size
  let rs := (s.execThreads g).map fun l => (l, s.tileVa l o.a o.b n)
  let good := leftsOf rs
  let ws := warpsOf (good.map (·.1))
  match s.gate ws [3] 0 none with
  | some w => .next (s.hold w)
  | none =>
    let t := (s.countAll ws 3).accept (good.map fun p =>
      { s.laneOp p.1 (.tstore p.2.1) p.2.2 n with data := s.storeBytes p.1 size o.c })
    .next (t.trapEach (rightsOf rs))

end Sys2Proof.Machine
end

