-- ==== Sys2Proof/Machine/Haar.lean ====
section
/-! DEFINITION. The Haar domain: the transform and its inverse over rows, a tile's rows as the operations read them,
thresholding, and rounding of many elements with their flags (spec/15 R260 to R265). -/

namespace Sys2Proof.Machine

/-- A row of values. -/
abbrev VRow := List FVal

/-- A value rounded to FP32 with RNE, as the transform's steps are (R261). -/
def toFp32 (x : FVal) : FVal := decodeFmt .fp32 (x.round .fp32 Ctl.nearest 0).1

/-- Half a value. -/
def halfOf : FVal → FVal
  | .fin n m e => .fin n m (e - 1)
  | x => x

/-- Sum or difference of two values, rounded to FP32. -/
def haarStep (minus : Bool) (a b : FVal) : FVal := toFp32 (exactSum .rne [a, if minus then b.negate else b]).1

/-- Half the sum or difference, rounded to FP32. -/
def haarBack (minus : Bool) (a b : FVal) : FVal := toFp32 (halfOf (exactSum .rne [a, if minus then b.negate else b]).1)

/-- A row of sums or differences. -/
def rowStep (f : FVal → FVal → FVal) (a b : VRow) : VRow := List.zipWith f a b

/-- One level forward: the sums of adjacent rows, and their differences. -/
def haarLevel : List VRow → List VRow × List VRow
  | a :: b :: xs =>
    let r := haarLevel xs
    (rowStep (haarStep false) a b :: r.1, rowStep (haarStep true) a b :: r.2)
  | _ => ([], [])

/-- The forward transform over so many levels, with the detail blocks found so far (R261). -/
def haarForward : Nat → List VRow → List VRow → List VRow
  | 0, w, details => w ++ details
  | l + 1, w, details =>
    let r := haarLevel w
    haarForward l r.1 (r.2 ++ details)

/-- One level back: rows of sums and differences interleaved (R262). -/
def haarUnlevel : List VRow → List VRow → List VRow
  | s :: ss, d :: ds => rowStep (haarBack false) s d :: rowStep (haarBack true) s d :: haarUnlevel ss ds
  | _, _ => []

/-- The inverse from level l down, over the rows of a tree of n rows: `w` holds the approximation so far. -/
def haarInverse (n : Nat) (x : List VRow) : Nat → List VRow → List VRow
  | 0, w => w
  | l + 1, w => haarInverse n x l (haarUnlevel w ((x.drop (n / 2 ^ (l + 1))).take (n / 2 ^ (l + 1))))

/-- Rows of a tree transformed back over L levels. -/
def reconstruct (n l : Nat) (x : List VRow) : List VRow := haarInverse n x l (x.take (n / 2 ^ l))

/-- An element's value: integers as integers, floats as stored. -/
def elemValue (f : Fmt) (x : Nat) : FVal :=
  if f.isInt then .ofInt (intOf f (x % 2 ^ f.width)) else decodeFmt f (x % 2 ^ f.width)

/-- A value rounded into an element: a float under R52 and R55, an integer under R60. -/
def roundElem (f : Fmt) (c : Ctl) (rs : Nat) (x : FVal) : Nat × Flags :=
  if f.isInt then
    let r := x.toInt f c.rm rs
    (lowBits f.width r.1, r.2)
  else x.round f c rs

/-- A tile's stored values, row by row; an absent row is +0 (R260). -/
def Tile.values (t : Tile) : List VRow :=
  (List.range t.rows).map fun r =>
    if t.present r then (t.row r).map (elemValue t.fmt)
    else List.replicate t.cols (.fin false 0 0)

/-- A tile's values with FTZI of its format, as a tile operation reads them (R266). -/
def Tile.valuesFtzi (t : Tile) (mode : W64) : List VRow := t.values.map fun r => r.map (flushIn mode t.fmt)

/-- Spatial values of rows that a tile holds: reconstructed if it is a Haar tile (R262). -/
def Tile.spatial (t : Tile) (rows : List VRow) : List VRow :=
  if t.dom then reconstruct t.rows t.hlev rows else rows

/-- A list with the index of each element. -/
def indexed {α : Type} (xs : List α) : List (Nat × α) := (List.range xs.length).zip xs

/-- Flags of some results together. -/
def flagsOf (rs : List (List (Nat × Flags))) : Flags :=
  rs.foldl (fun f r => r.foldl (fun f x => f ||| x.2) f) 0

/-- Rows rounded into a format: bits and flags; `rs e` gives the random bits of element e = stride × row + column. DESIGN
CHOICE: an integer element is rounded as TCVT rounds one (log entry 83). -/
def roundRows (f : Fmt) (c : Ctl) (rs : Nat → Nat) (stride : Nat) (rows : List VRow) : List (List (Nat × Flags)) :=
  (indexed rows).map fun r => (indexed r.2).map fun x => roundElem f c (rs (stride * r.1 + x.1)) x.2

/-- The bits of rounded rows. -/
def bitsOf (rs : List (List (Nat × Flags))) : List (List Nat) := rs.map fun r => r.map (·.1)

/-- Tile data holding rows of bits. -/
def dataOf (f : Fmt) (cols : Nat) (rows : List (List Nat)) : Tab Byte :=
  (indexed rows).foldl (fun d r => (indexed r.2).foldl (fun d x => putElem f d (cols * r.1 + x.1) x.2) d) []

/-- The largest magnitude of a row at or below a threshold: the IEEE comparison max|d| ≤ TH, false for a NaN (spec/02
R28). -/
def rowBelow (th : W32) (f : Fmt) (row : List Nat) : Bool :=
  row.all fun b => match ((decodeFmt f (b % 2 ^ f.width)).abs).cmp (decodeFmt .fp32 th.toNat) with
    | some c => c ≤ 0
    | none => false

/-- Is a row a detail row of a tree of n rows and L levels (R261)? -/
def isDetail (n l r : Nat) : Bool := n / 2 ^ l ≤ r

/-- Presence bitmaps from a row test. -/
def presenceOf (rows : Nat) (p : Nat → Bool) : Tab W64 :=
  ((List.range ((rows + 63) / 64)).map fun q =>
    (q, BitVec.ofNat 64 ((List.range 64).foldl (fun n i => n + (if 64 * q + i < rows && p (64 * q + i) then 2 ^ i else 0)) 0))
    ).filter fun x => x.2 ≠ 0

/-- Rows thresholded (R263): which rows stay present, and the rows with the dropped ones as zeros. -/
def threshold (th : W32) (f : Fmt) (n l : Nat) (present : Nat → Bool) (rows : List (List Nat)) :
    List (Bool × List Nat) :=
  (indexed rows).map fun r =>
    if !present r.1 || isDetail n l r.1 && rowBelow th f r.2 then (false, r.2.map fun _ => 0) else (true, r.2)

end Sys2Proof.Machine
end

