-- ==== Sys2Proof/Machine/Layout.lean ====
section
/-! DEFINITION. The layout record, element addresses and what engines own: which bytes of memory a copy, gather, scatter
or drain reads and writes, and the order among one warp's operations (spec/13 R233 to R237; spec/12 R210, R213; spec/15
R267, R275, R276; spec/03 R51). -/

namespace Sys2Proof.Machine

/-! ## The layout record (R233) -/

/-- A record's fields. -/
structure Layout where
  base : Nat
  fmt : Fmt
  rank : Nat
  fill : Nat
  fillv : Nat
  imode : Nat
  igran : Nat
  dom : Bool
  hlev : Nat
  hpack : Bool
  ext : List Nat
  st : List Int
  wb : List Nat
  plane2 : Int
  deriving DecidableEq, Repr, Inhabited

/-- Word k of a record. -/
def recWord (w : List W32) (k : Nat) : Nat := (w.getD k 0).toNat

/-- Two words as a number. -/
def recPair (w : List W32) (k : Nat) : Nat := recWord w k + recWord w (k + 1) * 2 ^ 32

/-- FMT codes of records. -/
def recFmt (w : List W32) : Option Fmt :=
  match Fmt.ofCode (recWord w 2 % 16) with
  | some .aq64 => none
  | f => f

/-- Rank of a record. -/
def recRank (w : List W32) : Nat := recWord w 2 / 2 ^ 4 % 8 + 1
/-- DOM of a record. -/
def recDom (w : List W32) : Nat := recWord w 2 / 2 ^ 17 % 4
/-- HLEV of a record. -/
def recHlev (w : List W32) : Nat := recWord w 2 / 2 ^ 19 % 8
/-- Box k of a record. -/
def recBox (w : List W32) (k : Nat) : Nat :=
  match k with
  | 0 => recWord w 17 % 4096
  | 1 => recWord w 17 / 4096 % 4096
  | 2 => recWord w 18 % 4096
  | 3 => recWord w 18 / 4096 % 4096
  | _ => recWord w 19 % 4096
/-- Stride k of a record, signed. -/
def recStride (w : List W32) (k : Nat) : Int := signedOf 64 (recPair w (7 + 2 * k))

/-- Is word 2 in order? -/
def recWord2Ok (w : List W32) : Bool :=
  let x := recWord w 2
  let im := x / 2 ^ 10 % 8
  let ig := x / 2 ^ 13 % 16
  let dom := recDom w
  let h := recHlev w
  x / 2 ^ 23 = 0 && x / 2 ^ 7 % 2 = 0 && (recFmt w).isSome && recRank w ≤ 5 && x / 2 ^ 8 % 4 ≤ 2 && im ≤ 3
    && (if im = 0 then ig = 0 else 3 ≤ ig && ig ≤ 10) && dom ≤ 1
    && (if dom = 1 then 1 ≤ h && h ≤ 6 && x % 16 ≤ 2 && recRank w = 2 else h = 0 && x / 2 ^ 22 % 2 = 0)

/-- Bytes of an element, 0 below a byte. -/
def fmtBytes (f : Fmt) : Nat := if f.fp6 then 0 else f.width / 8

/-- Is a used dimension's field nonzero, an unused one's zero? -/
def usedOk (used : Bool) (x : Nat) : Bool := used != (x == 0)

/-- Is word k of a record in order, once word 2 is? -/
def recWordOk (w : List W32) (k : Nat) : Bool :=
  let rank := recRank w
  let f := (recFmt w).getD .fp32
  let dom := recDom w = 1
  let used (d : Nat) : Bool := d < rank
  if k = 2 then recWord2Ok w
  else if k = 3 then recWord w 2 / 2 ^ 8 % 4 = 1 || recWord w 3 = 0
  else if 4 ≤ k ∧ k ≤ 8 then usedOk (used (k - 4)) (recWord w k)
  else if 9 ≤ k ∧ k ≤ 16 then
    let d := (k - 7) / 2
    if used d then k % 2 = 0 || fmtBytes f = 0 || recStride w d % fmtBytes f = 0 else recWord w k = 0
  else if k = 17 then
    recWord w 17 / 2 ^ 24 = 0 && usedOk (used 1) (recBox w 1) && (!dom || recBox w 1 % 2 ^ recHlev w = 0)
  else if k = 18 then recWord w 18 / 2 ^ 24 = 0 && usedOk (used 2) (recBox w 2) && usedOk (used 3) (recBox w 3)
  else if k = 19 then recWord w 19 / 2 ^ 12 = 0 && usedOk (used 4) (recBox w 4)
  else if k = 20 then
    if dom then recPair w 20 % 64 = 0 else f.fp6 || recWord w 20 = 0
  else if k = 21 then dom || f.fp6 || recWord w 21 = 0
  else if 22 ≤ k then recWord w k = 0
  else true

/-- The fields of a record. -/
def recFields (w : List W32) : Layout :=
  let x := recWord w 2
  let rank := recRank w
  let b0 := recBox w 0
  { base := recPair w 0, fmt := (recFmt w).getD .fp32, rank := rank, fill := x / 2 ^ 8 % 4, fillv := recWord w 3,
    imode := x / 2 ^ 10 % 8, igran := x / 2 ^ 13 % 16, dom := recDom w = 1, hlev := recHlev w,
    hpack := x / 2 ^ 22 % 2 = 1,
    ext := (List.range rank).map fun k => recWord w (4 + k),
    st := (List.range rank).map fun k => if k = 0 then 0 else recStride w k,
    wb := (List.range rank).map fun k => if k = 0 then (if b0 = 0 then 4096 else b0) else recBox w k,
    plane2 := signedOf 64 (recPair w 20) }

/-- A record checked (R233): BASE and an FP6 PLANE2 first, by ALIGN; then the first word out of order. GATHER and SCATTER
require DOM 0 (R237). -/
def parseRecord (w : List W32) (spatial : Bool) (opnd : Nat) : Layout ⊕ Trap :=
  let base := recPair w 0
  if base % 64 ≠ 0 then .inr { code := Code.align, addr := BitVec.ofNat 64 base, info := 6, opnd := opnd }
  else if recWord2Ok w && ((recFmt w).getD .fp32).fp6 && recPair w 20 % 64 ≠ 0 then
    .inr { code := Code.align, addr := BitVec.ofNat 64 (base + recPair w 20), info := 6, opnd := opnd }
  else match (List.range 24).find? fun k => !recWordOk w k || k = 2 && spatial && recDom w ≠ 0 with
    | some k => .inr { code := Code.reservedField, info := k, opnd := opnd }
    | none => .inl (recFields w)

/-- Rows of a window (R235). -/
def Layout.rows (l : Layout) : Nat := (l.wb.drop 1).foldl (· * ·) 1
/-- Columns of a window. -/
def Layout.cols (l : Layout) : Nat := l.wb.getD 0 0

/-! ## Element addresses (R234, R51) -/

/-- A piece of an element: its first bit's address, its width, and where it stands in the element. -/
structure Piece where
  bit : Nat
  width : Nat
  shift : Nat
  deriving DecidableEq, Repr, Inhabited

/-- Bit addresses wrap with 64-bit byte addresses. -/
def bitAddr (x : Int) : Nat := (x % (2 : Int) ^ 67).toNat

/-- Bits an element takes in memory. -/
def memWidth (f : Fmt) : Nat := if f.fp6 then 4 else f.width

/-- The bit offset of coordinates from BASE. -/
def Layout.offset (l : Layout) (i : List Int) : Int :=
  (memWidth l.fmt : Int) * i.getD 0 0 + 8 * (((i.zip l.st).drop 1).foldl (fun n p => n + p.1 * p.2) 0)

/-- The pieces of the element at some coordinates: an FP6 element has its low two bits in the crumb plane. -/
def Layout.pieces (l : Layout) (i : List Int) : List Piece :=
  let off := l.offset i
  if l.fmt.fp6 then
    [⟨bitAddr (8 * l.base + off), 4, 2⟩, ⟨bitAddr (8 * (l.base + l.plane2) + off / 2), 2, 0⟩]
  else [⟨bitAddr (8 * l.base + off), l.fmt.width, 0⟩]

/-- Coordinates of a window's element (R234). -/
def Layout.coords (l : Layout) (org : List Int) (row col : Nat) : List Int :=
  let hi := ((l.wb.drop 1).foldl (fun (acc : Nat × List Nat) b => (acc.1 / b, acc.2 ++ [acc.1 % b])) (row, [])).2
  (org.getD 0 0 + col) :: (((org.drop 1).take (l.rank - 1)).zip hi).map fun p => p.1 + p.2

/-- Are coordinates in range? -/
def Layout.inRange (l : Layout) (i : List Int) : Bool := (i.zip l.ext).all fun p => 0 ≤ p.1 && p.1 < p.2

/-- Coordinates clamped to the edges. -/
def Layout.clamped (l : Layout) (i : List Int) : List Int := (i.zip l.ext).map fun p => clamp 0 (p.2 - 1) p.1

/-- Coordinates that an index names (R237), and whether it is valid: an invalid one is clamped. -/
def Layout.indexCoords (l : Layout) (x : Int) (i0 : Int) : Bool × List Int :=
  let e : List Int := (l.ext.drop 1).map fun (n : Nat) => (n : Int)
  let total : Int := e.foldl (fun m n => m * n) 1
  let valid := decide (0 ≤ x ∧ x < total)
  let hi : List Int := if valid then
      (e.foldl (fun (acc : Int × List Int) n => (acc.1 / n, acc.2 ++ [acc.1 % n])) (x, [])).2
    else e.map fun n => if x < 0 then 0 else n - 1
  (valid, i0 :: hi)

/-! ## Engines' reads and writes (R212 to R214) -/

/-- A doubleword's or a byte range's pieces, as one. -/
def dwordPiece (va : Int) : Piece := ⟨bitAddr (8 * va), 64, 0⟩

/-- The bits of a piece in the bytes that hold it, in their place in the element. -/
def Piece.take (p : Piece) (bytes : List Byte) : Nat := leNat bytes / 2 ^ (p.bit % 8) % 2 ^ p.width * 2 ^ p.shift

/-- The bytes a piece stands in. -/
def Piece.bytes (p : Piece) : Nat := (p.width + 7) / 8

/-- The state with the line of a source piece in an engine's hands: under the lease it has, or a new one (R214). -/
def State.leasePiece (s : State) (k : CacheId) (c capx : Nat) (p : Piece) : State :=
  match s.checkVa c capx .read 1 (BitVec.ofNat 64 (p.bit / 8)) with
  | .inl pa => if decide (regionOf pa = .hbm) && (s.copyOf k (lineOf pa)).isNone then s.fetchLine c k (lineOf pa) else s
  | .inr _ => s

/-- The state with the lines of some source pieces in an engine's hands. -/
def State.leasePieces (s : State) (k : CacheId) (c capx : Nat) (ps : List Piece) : State :=
  ps.foldl (fun s p => s.leasePiece k c capx p) s

/-- What an engine sees of memory: its copy of the line, else the home slice. -/
def State.engineBytes (s : State) (k : CacheId) (pa n : Nat) : List Byte :=
  match s.copyOf k (lineOf pa) with
  | some x => (x.read pa n).1
  | none => (s.readHome pa n).1

/-- A source piece read by an engine; the leaf must permit it. -/
def State.readPiece (s : State) (k : CacheId) (c capx : Nat) (p : Piece) : Nat ⊕ Trap :=
  match s.checkVa c capx .read 1 (BitVec.ofNat 64 (p.bit / 8)) with
  | .inl pa => .inl (p.take (s.engineBytes k pa p.bytes))
  | .inr t => .inr t

/-- An element read piece by piece. -/
def State.readPieces (s : State) (k : CacheId) (c capx : Nat) : List Piece → Nat ⊕ Trap
  | [] => .inl 0
  | p :: ps =>
    match s.readPiece k c capx p with
    | .inr t => .inr t
    | .inl x => match s.readPieces k c capx ps with
      | .inr t => .inr t
      | .inl y => .inl (x + y)

/-- A piece of a line an engine owns, read at home (R213, R215). -/
def State.readOwned (s : State) (c capx : Nat) (p : Piece) : Nat ⊕ Trap :=
  match s.checkVa c capx .read 1 (BitVec.ofNat 64 (p.bit / 8)) with
  | .inl pa => .inl (p.take (s.readHome pa p.bytes).1)
  | .inr t => .inr t

/-- An engine's writes so far: the state and the records of its payload. -/
abbrev EngineRun := State × List WriteRec

/-- A piece of an element written at home: no older copy of its line serves the engine's core again (R213). -/
def writePiece (c capx : Nat) (launch : W32) (r : EngineRun) (p : Piece) (x : Nat) : EngineRun ⊕ Trap :=
  let s := r.1
  let n := p.bytes
  match s.checkVa c capx .write 1 (BitVec.ofNat 64 (p.bit / 8)) with
  | .inr t => .inr t
  | .inl pa =>
    let old := leNat (s.readHome pa n).1
    let sh := p.bit % 8
    let v := x / 2 ^ p.shift % 2 ^ p.width
    let new := old - old / 2 ^ sh % 2 ^ p.width * 2 ^ sh + v * 2 ^ sh
    let w := s.agentWrite launch pa (toLe new n)
    .inl (w.1.ownDrop c (canonPa pa), w.2 :: r.2)

/-- An element written; on a fault, what was written before stands. -/
def writePieces (c capx : Nat) (launch : W32) (r : EngineRun) : List Piece → Nat → EngineRun × Option Trap
  | [], _ => (r, none)
  | p :: ps, x =>
    match writePiece c capx launch r p x with
    | .inr t => (r, some t)
    | .inl r => writePieces c capx launch r ps x

/-- Elements written in order, up to the first fault. -/
def writeItems (c capx : Nat) (launch : W32) (r : EngineRun) : List (List Piece × Nat) → EngineRun × Option Trap
  | [] => (r, none)
  | (ps, x) :: rest =>
    match writePieces c capx launch r ps x with
    | (r, some t) => (r, some t)
    | (r, none) => writeItems c capx launch r rest

/-! ## What a store writes (R235, R276) -/

/-- A spatial store's elements in order; one out of range has no piece. -/
def Layout.storeItems (l : Layout) (org : List Int) (rows : List (List Nat)) : List (List Piece × Nat) :=
  (indexed rows).flatMap fun r => (indexed r.2).map fun x =>
    let i := l.coords org r.1 x.1
    (if l.inRange i then l.pieces i else [], x.2)

/-- One row of a scatter, placed by its index; an element out of range has no piece. -/
def Layout.scatterRow (l : Layout) (o0 x : Int) (row : List Nat) : List (List Piece × Nat) :=
  (indexed row).map fun e =>
    let v := l.indexCoords x (o0 + (e.1 : Nat))
    (if v.1 && l.inRange v.2 then l.pieces v.2 else [], e.2)

/-- The address of header g (R275). -/
def Layout.header (l : Layout) (g : Int) : Int := l.base + l.plane2 + 64 * g

/-- The groups of 64 rows that a window of Haar rows meets and a store writes: none below row 0, which is out of range
(R234). DESIGN CHOICE: such a group has no header (log entry 82). -/
def Layout.groups (_l : Layout) (o1 : Int) (rows : Nat) : List Int :=
  ((List.range ((rows + 63) / 64)).map fun q => o1 / 64 + (q : Nat)).filter (0 ≤ ·)

/-- One group of a Haar store: its rows' elements, then its header, and the next group's ROWOFF. -/
def Layout.groupItems (l : Layout) (org : List Int) (t : Tile) (g : Int) (off : Nat) : List (List Piece × Nat) × Nat :=
  let o0 := org.getD 0 0
  let o1 := org.getD 1 0
  let rowsIn := (List.range 64).filterMap fun b =>
    let r := 64 * g + (b : Nat) - o1
    if 0 ≤ r && r < t.rows then some (b, r.toNat) else none
  let pres := rowsIn.foldl (fun n p => n + (if t.present p.2 then 2 ^ p.1 else 0)) 0
  let count := (rowsIn.filter fun p => t.present p.2).length
  let placed := (rowsIn.foldl (fun (acc : Nat × List (Nat × Nat × Int)) p =>
    let here := t.present p.2
    let at_ : Int := if l.hpack then (off + acc.1 : Nat) else 64 * g + (p.1 : Nat)
    (if here then acc.1 + 1 else acc.1, if here || !l.hpack then acc.2 ++ [(p.1, p.2, at_)] else acc.2)) (0, [])).2
  let items := placed.flatMap fun p =>
    if 64 * g + (p.1 : Nat) < (l.ext.getD 1 0 : Nat) then
      (List.range t.cols).filterMap fun c =>
        let i0 := o0 + (c : Nat)
        if 0 ≤ i0 && i0 < (l.ext.getD 0 0 : Nat) then
          some (l.pieces [i0, p.2.2], if t.present p.2.1 then t.elem (p.2.1 * t.cols + c) else 0)
        else none
    else []
  let first : Int := if l.hpack then (off : Nat) else 64 * g
  let hd1 := (first % 2 ^ 32).toNat * 2 ^ 32 + count * 2 ^ 8 + t.thk * 8 + t.hlev
  let hb := l.header g
  let head := (List.range 8).map fun k =>
    ([dwordPiece (hb + 8 * (k : Nat))], if k = 0 then pres else if k = 1 then hd1 else 0)
  (items ++ head, off + count)

/-- A Haar store's elements and headers, group after group (R276). -/
def Layout.haarItems (l : Layout) (org : List Int) (t : Tile) (off0 : Nat) : List (List Piece × Nat) :=
  ((l.groups (org.getD 1 0) t.rows).foldl (fun (acc : List (List Piece × Nat) × Nat) g =>
    let r := l.groupItems org t g acc.2
    (acc.1 ++ r.1, r.2)) ([], off0)).1

/-! ## Lines and bytes that engines touch -/

/-- The elements a copy writes to memory whose places it knows, in the order of writing, and how many it has written
(R213): a scatter knows one row at a time, a packed Haar store none before it has read the first header. -/
def CopyOp.dests (o : CopyOp) (t : Tile) : List (List Piece) × Nat :=
  let l := recFields o.record
  let t := if o.started then t.withTag o.tag else t
  match o.kind with
  | .store =>
    if l.dom then
      if l.hpack then
        match o.heads with
        | [] => ([], 0)
        | h :: _ => ((l.haarItems o.origin t (h.2.getD 1 0 / 2 ^ 32)).map (·.1), o.pos)
      else ((l.haarItems o.origin t 0).map (·.1), o.pos)
    else ((l.storeItems o.origin ((List.range t.rows).map fun _ => List.replicate t.cols 0)).map (·.1), o.pos)
  | .scatter =>
    if o.pos % t.cols = 0 then ([], 0)
    else ((l.scatterRow (o.origin.getD 0 0) o.idx (List.replicate t.cols 0)).map (·.1), o.pos % t.cols)
  | _ => ([], 0)

/-- The rows a drain writes to memory, in order, and how many it has written (spec/14 R254). -/
def DrainOp.dests (d : DrainOp) : List (List Piece) × Nat :=
  match d.dest with
  | .tile _ => ([], 0)
  | .mem va => ((List.range d.n).map fun i => (List.range 64).map fun j =>
      ⟨bitAddr ((8 * (va.toNat + d.fmt.width / 8 * (64 * i + j)) : Nat) : Int), d.fmt.width, 0⟩, d.row)

/-- What is still to be written. -/
def destsLeft (x : List (List Piece) × Nat) : List Piece := (x.1.drop x.2).flatten
/-- What has been written. -/
def destsDone (x : List (List Piece) × Nat) : List Piece := (x.1.take x.2).flatten

/-- Does a piece touch bytes of a physical range, its address translated now? -/
def State.pieceMeets (s : State) (c capx : Nat) (p : Piece) (pa n : Nat) : Bool :=
  match s.translate c capx (.sys false) (BitVec.ofNat 64 (p.bit / 8)) with
  | .ok a => meets a ((p.width + 7) / 8) pa n
  | _ => false

/-- Does a piece touch a line? -/
def State.pieceLine (s : State) (c capx : Nat) (p : Piece) (line : Nat) : Bool := s.pieceMeets c capx p (line * 256) 256

/-- The line a piece stands in. -/
def State.lineOfPiece (s : State) (c capx : Nat) (p : Piece) : Option Nat :=
  match s.translate c capx (.sys false) (BitVec.ofNat 64 (p.bit / 8)) with
  | .ok a => some (lineOf a)
  | _ => none

/-- A destination in a sealed page raises ACCESS (spec/12 R222). -/
def State.sealedTrap (s : State) (c capx : Nat) (ps : List Piece) : Option Trap :=
  if s.seals.isEmpty then none
  else (ps.find? fun p => match s.translate c capx (.sys false) (BitVec.ofNat 64 (p.bit / 8)) with
    | .ok pa => s.sealed pa
    | _ => false).map fun p => { code := Code.access, addr := BitVec.ofNat 64 (p.bit / 8), info := 1 }

/-- The engine operations of a warp that own lines of memory: number, and the pieces they are still to write. -/
def State.owners (s : State) (w : Nat) : List (Nat × List Piece) :=
  let k := s.core (w / 128)
  let copies := (k.copy0 ++ k.copy1).filterMap fun o =>
    if o.org.warp = w ∧ !o.moved then some (o.id, destsLeft (o.dests (s.tile o.tile))) else none
  let drains := (s.pair (pairOf (w / 128))).drains.filterMap fun d =>
    if d.org.warp = w ∧ !d.moved then some (d.id, destsLeft d.dests) else none
  copies ++ drains

/-- The engine operations under way that write to memory: number, core, and what they have written and are to write. -/
def State.writers (s : State) : List (Nat × Nat × List (List Piece) × Nat) :=
  (s.cores.flatMap fun p => (p.2.copy0 ++ p.2.copy1).filterMap fun o =>
    if o.started && !o.moved then some (o.id, p.1, o.dests (s.tile o.tile)) else none)
  ++ s.pairs.flatMap fun p => p.2.drains.filterMap fun d =>
    if d.started && !d.moved then some (d.id, d.org.core, d.dests) else none

/-- Has an engine operation written a byte of a line and is to write another there? No other access meets the line
until it has (R213). -/
def State.halfWritten (s : State) (id line : Nat) : Bool :=
  s.writers.any fun e => e.1 ≠ id
    && (destsDone e.2.2).any (fun p => s.pieceLine e.2.1 (s.capxOf e.2.1) p line)
    && (destsLeft e.2.2).any fun p => s.pieceLine e.2.1 (s.capxOf e.2.1) p line

/-- Is no line of some bytes half written by another operation, so that an access may meet them (R213)? -/
def State.lineFree (s : State) (id pa n : Nat) : Bool :=
  s.writers.isEmpty || (linesOf (canonPa pa) n).all fun line => !s.halfWritten id line

/-- Is an engine operation under way still to write in a line? -/
def State.lineOwned (s : State) (line : Nat) : Bool :=
  s.writers.any fun e => (destsLeft e.2.2).any fun p => s.pieceLine e.2.1 (s.capxOf e.2.1) p line

/-- Is no line of some pieces, of core `c`'s engine, half written by another operation? -/
def State.piecesWhole (s : State) (id c : Nat) (ps : List Piece) : Bool :=
  s.writers.isEmpty || ps.all fun p => match s.lineOfPiece c (s.capxOf c) p with
    | some line => !s.halfWritten id line
    | none => true

/-- May an engine's operation begin to write some pieces: no operation already under way is still to write one of
their lines (R213)? -/
def State.mayOwn (s : State) (id c : Nat) (ps : List Piece) : Bool :=
  s.writers.all fun e => e.1 = id || (destsLeft e.2.2).all fun q =>
    match s.lineOfPiece e.2.1 (s.capxOf e.2.1) q with
    | some line => ps.all fun p => !s.pieceLine c (s.capxOf c) p line
    | none => true

/-- Does an access wait by recall (R213): an earlier engine operation of its warp owns the line, or any has half written
it? -/
def State.recalled (s : State) (w id pa : Nat) : Bool :=
  let c := w / 128
  (s.owners w).any (fun o => o.1 < id && o.2.any fun p => s.pieceLine c (s.capxOf c) p (lineOf pa))
    || s.halfWritten id (lineOf pa)

/-- Has an operation of memory been performed: a read when its value is bound, a write at its home (R210)? -/
def MemOp.done (o : MemOp) : Bool :=
  match o.kind with
  | .load _ _ _ => o.returned
  | .gload _ _ _ => o.returned
  | .flush _ => true
  | .tload _ _ _ => true
  | .tstore _ => true
  | _ => o.performed

/-- Must an operation wait for an earlier one of its warp to the same bytes (R203, R210): one that `p` picks? -/
def State.behind (s : State) (w id pa n : Nat) (p : MemOp → Bool) : Bool :=
  s.ops.any fun o => o.warp == w && o.id < id && !o.done && meets o.pa o.n pa n && p o

/-- Does an earlier load of a warp on the bytes still await the response of a store of its core (R206)? -/
def State.awaiting (s : State) (w id pa n : Nat) : Bool :=
  s.ops.any fun o => o.warp == w && o.id < id && !o.waitsFor.isEmpty && meets o.pa o.n pa n

/-- Are the warp's earlier thread accesses to the lines of some pieces performed, so that a lease taken now holds what
they wrote (R210 note 2, R214)? -/
def State.linesClear (s : State) (w id : Nat) (ps : List Piece) : Bool :=
  let c := w / 128
  s.ops.all fun o => o.warp ≠ w || id ≤ o.id || o.done
    || !ps.any fun p => s.lineOfPiece c (s.capxOf c) p == some (lineOf o.pa)

/-- Are the warp's earlier thread accesses that meet some pieces performed (R210 note 2)? -/
def State.piecesClear (s : State) (w id : Nat) (ps : List Piece) : Bool :=
  let c := w / 128
  s.ops.all fun o => o.warp ≠ w || id ≤ o.id || o.done || !ps.any fun p => s.pieceMeets c (s.capxOf c) p o.pa o.n

/-- Do no earlier engine operations of the warp own lines that meet some pieces (R210 note 7)? -/
def State.enginesClear (s : State) (w id : Nat) (ps : List Piece) : Bool :=
  let c := w / 128
  let capx := s.capxOf c
  (s.owners w).all fun o => id ≤ o.1 || o.2.all fun q =>
    match s.lineOfPiece c capx q with
    | some line => ps.all fun p => !s.pieceLine c capx p line
    | none => true

/-- Must an operation of a warp on a tile, one of the tile unit or not, wait for another there? For an earlier one of
its warp unless both only read, and of another warp where both write (R193, R210); and where one of the two is the tile
unit's and one of them writes, for one of another warp that is under way: each is applied whole (spec/15 R267). -/
def TileUse.holds (e : TileUse) (w id : Nat) (writes unit : Bool) : Bool :=
  e.id < id && (if e.warp = w then e.writes || writes else e.writes && writes)
    || e.id ≠ id && e.warp ≠ w && e.started && (e.unit || unit) && (e.writes || writes)

/-- Is an operation one whose answer a halt collects: every load, store and atomic, but no FLUSH (spec/24 R352, R354)? -/
def MemOp.owed (o : MemOp) : Bool :=
  match o.kind with
  | .flush _ => false
  | _ => true

/-- Has an engine operation written a part of a line alone? At a halt it stops at a line boundary (spec/24 R354). -/
def State.halfLine (s : State) (id : Nat) : Bool :=
  s.writers.any fun e => e.1 == id && (destsDone e.2.2).any fun p => match s.lineOfPiece e.2.1 (s.capxOf e.2.1) p with
    | some line => (destsLeft e.2.2).any fun q => s.pieceLine e.2.1 (s.capxOf e.2.1) q line
    | none => false

/-- May an engine of a core go on with an operation: its launch runs there; or a halt has stopped the core, and an
access of the launch that came later is still to be answered, or the operation is at `half` of a line (spec/24 R352,
R354; log entry 48)? -/
def State.runsOn (s : State) (c id : Nat) (half : Bool) : Bool :=
  s.issues c || (s.launchOf c).any fun x => x.state == .halting && x.saving.isNone
    && (half || s.ops.any fun o => o.owed && id < o.id && (s.core o.core).launch == (s.core c).launch)

/-- May an engine operation act on a tile: no other operation there holds it, its warp's earlier thread accesses there
are performed, and the clear is over (R193, R210, spec/15 R267)? -/
def State.tileTurn (s : State) (k w id : Nat) (writes : Bool) (unit : Bool := false) : Bool :=
  !(s.tile k).clearing && (s.tileEngines k).all (fun e => !e.holds w id writes unit)
    && (s.tileAccesses k).all fun o => o.warp ≠ w || id ≤ o.id

end Sys2Proof.Machine
end

