-- ==== Sys2Proof/Machine/LoadStore.lean ====
section
/-! DEFINITION. Thread accesses to memory: LD, ST, ATOM, ATOMCAS, RED, FENCE, WAITW, PREF and FLUSH (spec/13 R223 to
R232, R239, R240; spec/12 R205 to R209, R216, R217). An access is accepted here and carried out by the events of
MemEvents. -/

namespace Sys2Proof

/-- ORD as a release. -/
def AtomOrd.releases (o : AtomOrd) : Bool := o == .rel || o == .acqrel
/-- ORD as an acquire. -/
def AtomOrd.acquires (o : AtomOrd) : Bool := o == .acq || o == .acqrel

/-- The register `k` after an operand's first. -/
def Operand.plus (o : Operand) (k : Nat) : Operand :=
  match o with
  | .v i => .v (Fin.ofNat 384 (i.val + k))
  | .s i => .s (Fin.ofNat 64 (i.val + k))
  | o => o

end Sys2Proof

namespace Sys2Proof.Machine

/-! ## LD and ST (R227) -/

/-- The byte displacement of a count (R226). -/
def dispOf (disp : BitVec 10) (unit : Nat) : W64 := disp.signExtend 64 * BitVec.ofNat 64 unit

/-- Each lane's address checked. -/
def State.laneVas (s : State) (ls : List Nat) (a : Operand) (d : W64) (ask : Ask) (align : Nat) :
    List (Nat × (Nat ⊕ Trap)) := ls.map fun l => (l, s.laneVa l ask align (s.src64 l a + d))

/-- A load or store split as memory carries it out: a B128 access to memory is two of eight bytes (spec/12 R203). -/
def splitAccess (size : MemSize) (pa : Nat) (op : MemSize → Nat → MemOp) : List MemOp :=
  if size = .b128 && isMemory pa then [op .b64 0, { op .b64 8 with second := true }] else [op size 0]

/-- LD. -/
def execLd (g : Guard) (o : Ops) (disp : BitVec 10) (acq : Option Scope) (size : MemSize) (s : State) : Out :=
  let n := sizeBytes size
  let rs := s.laneVas (s.exec g) o.a (dispOf disp n) .read n
  let good := leftsOf rs
  let ws := warpsOf (good.map (·.1))
  match s.gate ws [0] good.length none with
  | some w => .next (s.hold w)
  | none =>
    let take := s.receivers o.d (good.map (·.1))
    let t := (s.countAll ws 0).accept (good.flatMap fun p => splitAccess size p.2 fun z k =>
      { s.laneOp p.1 (.load (o.d.plus (k / 4)) z acq) (p.2 + k) (sizeBytes z) with
        va := s.src64 p.1 o.a + dispOf disp n + BitVec.ofNat 64 k, writes := take.contains p.1 })
    .next (t.trapEach (rightsOf rs))

/-- ST: the bytes enter the core's L1 now and go through to home (R206). -/
def execSt (g : Guard) (o : Ops) (disp : BitVec 10) (rel : Option Scope) (size : MemSize) (s : State) : Out :=
  let n := sizeBytes size
  let ls := s.execThreads g
  let rs := s.laneVas ls o.a (dispOf disp n) .write n
  let good := leftsOf rs
  let ws := warpsOf (good.map (·.1))
  match s.gate (warpsOf ls) [1] good.length rel with
  | some w => .next (s.hold w)
  | none =>
    let t := (s.countAll ws 1).accept (good.flatMap fun p => splitAccess size p.2 fun z k =>
      { s.laneOp p.1 .store (p.2 + k) (sizeBytes z) with
        va := s.src64 p.1 o.a + dispOf disp n + BitVec.ofNat 64 k
        data := ((s.storeBytes p.1 size o.b).drop k).take (sizeBytes z), entered := s.coreGt (coreOf p.1) })
    .next (t.trapEach (rightsOf rs))

/-! ## Atomics and reductions (R229, R230) -/

/-- Bits of an atomic's word. -/
def atomBits (w64 : Bool) : Nat := if w64 then 64 else 32

/-- The new word of an atomic from the old one and its operand (R229). -/
def atomNew (op : AtomOp) (w64 : Bool) (w b : Nat) : Nat :=
  let n := atomBits w64
  let sw := signedOf n w
  let sb := signedOf n b
  match op with
  | .iadd => (w + b) % 2 ^ n
  | .exch => b
  | .imin => if sb < sw then b else w
  | .imax => if sw < sb then b else w
  | .umin => min w b
  | .umax => max w b
  | .and => w &&& b
  | .or => w ||| b
  | .xor => w ^^^ b
  | .fadd =>
    let f : Fmt := if w64 then .fp64 else .fp32
    ((exactSum .rne [decodeFmt f w, decodeFmt f b]).1.round f Ctl.nearest 0).1
  | .aq64 => w

/-- An atomic's operand: an FP32 source for FADD and AQ64, else an integer word or pair. -/
def State.atomSrc (s : State) (l : Nat) (op : AtomOp) (w64 : Bool) (o : Operand) : W64 :=
  if w64 then s.src64 l o
  else match op with
    | .fadd => (s.src l .fp32 o).setWidth 64
    | .aq64 => (s.src l .fp32 o).setWidth 64
    | _ => (s.src l .int o).setWidth 64

/-- Entries of a cluster's combining buffer: groups not yet sent on (R217). -/
def State.combining (s : State) (c : Nat) : Nat :=
  (((s.ops.filter fun o => !o.sent && clusterOf o.core == clusterOf c).map (·.grp)).eraseDups).length

/-- Do two atomics combine: the same operation on the same word (log entry 60)? -/
def MemOp.combines (o p : MemOp) : Bool :=
  o.pa == p.pa && o.n == p.n && match o.kind, p.kind with
    | .atom x w _ _ _ _, .atom y v _ _ _ _ => x == y && w == v
    | .cas w _ _ _ _, .cas v _ _ _ _ => w == v
    | _, _ => false

/-- Does nothing hold an atomic of a group back at its home: an engine's line, an earlier operation of its warp on the
bytes outside the group, or a load of its warp that still awaits a store (R203, R206, R210, R213)? -/
def State.atomicFree (s : State) (p : MemOp) : Bool :=
  !s.recalled p.warp p.id p.pa && !s.behind p.warp p.id p.pa p.n (fun q => q.grp != p.grp || q.grp == 0)
    && !s.awaiting p.warp p.id p.pa p.n

/-- An atomic on its way to its home (R217): it joins the last group at its word, of its own instruction in its warp, or
held in its cluster's buffer with nothing that holds a member back, if that is of its operation and nothing holds itself
back; else it is a group of its own, held where the buffer has room. -/
def State.combine (s : State) (id : Nat) : State :=
  match s.op id with
  | none => s
  | some o =>
    let last := (s.ops.filter fun p => p.id < id && p.grp ≠ 0 && !p.performed && clusterOf p.core == clusterOf o.core
      && meets p.pa p.n o.pa o.n && (!p.sent || p.ins == o.ins && p.warp == o.warp)).getLast?
    let room := s.combining o.core < 256
    match last with
    | some p =>
      let joins := o.combines p && !s.recalled o.warp id o.pa && !s.awaiting o.warp id o.pa o.n
        && !s.behind o.warp id o.pa o.n (fun q => q.grp != p.grp)
        && (p.ins == o.ins && p.warp == o.warp || (s.ops.filter fun q => q.grp == p.grp && !q.performed).all s.atomicFree)
      s.modOp id fun o => if joins then { o with grp := p.grp, sent := p.sent } else { o with grp := id + 1, sent := !room }
    | none => s.modOp id fun o => { o with grp := id + 1, sent := !room }

/-- A fetching atomic reads and writes, and asks as a read first (log entry 80); a reduction writes (R230). -/
def State.atomVa (s : State) (l : Nat) (fetch : Bool) (align : Nat) (va : W64) : Nat ⊕ Trap :=
  match (if fetch then s.laneVa l .read align va else .inl 0) with
  | .inr t => .inr t
  | .inl _ => s.laneVa l .write align va

/-- An atomic or reduction issued: `d` its destination, `n` the bytes of its word, `extra` a fault of its own. -/
def State.issueAtomic (s : State) (g : Guard) (a : Operand) (d : Option Operand) (w64 : Bool) (n : Nat)
    (rel : Option Scope) (kind : Nat → MemKind) (extra : Nat → Option Trap) : State :=
  let ls := s.execThreads g
  let rs : List (Nat × (Nat ⊕ Trap)) := ls.map fun l => (l, match s.atomVa l d.isSome n (s.src64 l a) with
    | .inr t => .inr t
    | .inl pa => match extra l with
      | some t => .inr t
      | none => .inl pa)
  let good := leftsOf rs
  let ws := warpsOf (good.map (·.1))
  match s.gate (warpsOf ls) (if d.isSome then [0, 1] else [1]) good.length rel with
  | some w => s.hold w
  | none =>
    let take : List Nat := match d with
      | some x => s.receivers x (good.map (·.1))
      | none => []
    let t := if d.isSome then (s.countAll ws 0).countAll ws 1 else s.countAll ws 1
    let u := t.accept (good.map fun (p : Nat × Nat) =>
      { s.laneOp p.1 (kind p.1) p.2 n with va := s.src64 p.1 a, writes := d.isNone || take.contains p.1 })
    let t := (((u.ops.filter fun o => s.nextId ≤ o.id).map (·.id))).foldl State.combine u
    let t := match d with
      | some x => t.commit x (((s.exec g).filter fun l => (s.lane l).helper).map fun l =>
          (l, if w64 then [0, 0] else [0]))
      | none => t
    t.trapEach (rightsOf rs)

/-- ATOM. -/
def execAtom (g : Guard) (o : Ops) (scope : Scope) (ord : AtomOrd) (w64 : Bool) (op : AtomOp) (s : State) : Out :=
  .next (s.issueAtomic g o.a (some o.d) w64 (atomBits w64 / 8) (if ord.releases then some scope else none)
    (fun l => .atom op w64 (some o.d) (if ord.acquires then some scope else none) (s.atomSrc l op w64 o.b) 0)
    (fun _ => none))

/-- ATOMCAS. -/
def execAtomcas (g : Guard) (o : Ops) (scope : Scope) (ord : AtomOrd) (w64 : Bool) (s : State) : Out :=
  .next (s.issueAtomic g o.a (some o.d) w64 (atomBits w64 / 8) (if ord.releases then some scope else none)
    (fun l => .cas w64 o.d (if ord.acquires then some scope else none) (s.srcWord l w64 o.b) (s.srcWord l w64 o.c))
    (fun _ => none))

/-- The anchor of a lane's RED.AQ64. -/
def State.anchor (s : State) (l : Nat) (o : Operand) : Int := (s.src l .int o).toInt

/-- RED: AQ64 works on a 16-byte cell, and its anchor lies in −128 to 127. -/
def execRed (g : Guard) (o : Ops) (scope : Scope) (rel : Bool) (w64 : Bool) (op : AtomOp) (s : State) : Out :=
  let n := if op = .aq64 then 16 else atomBits w64 / 8
  .next (s.issueAtomic g o.a none w64 n (if rel then some scope else none)
    (fun l => .atom op w64 none none (s.atomSrc l op w64 o.b) ((s.src l .int o.c).setWidth 64))
    (fun l => if op = .aq64 ∧ (s.anchor l o.c < -128 ∨ 127 < s.anchor l o.c) then some reservedTrap else none))

/-! ## FENCE (R231) -/

/-- FENCE: the release, then the acquire, of every executing lane's warp. -/
def execFence (g : Guard) (_o : Ops) (scope : Scope) (s : State) : Out :=
  let ls := s.exec g
  match s.gate (warpsOf ls) [] 0 (some scope) with
  | some w => .next (s.hold w)
  | none => .next (if ls.isEmpty then s else s.acquire s.curCore scope)

/-! ## WAITW (R232) -/

/-- Is the slot the clause's last, the literal slot of a wide instruction counted (spec/04 R77)? -/
def State.lastSlot (s : State) (o : Ops) : Bool :=
  let g := s.group
  let lit := match o.a, o.b, o.c with
    | .lit _, _, _ => true
    | _, .lit _, _ => true
    | _, _, .lit _ => true
    | _, _, _ => false
  g.slot + (if lit then 1 else 0) = nslot g.header

/-- PLACEMENT in every lane of the group, whatever its predicate (spec/04 R76, R77). -/
def State.misplaced (s : State) : State := s.trapAll s.group.lanes { code := Code.placement }

/-- The word a lane's WAITW names, or its fault. -/
def State.waitWord (s : State) (l : Nat) (o : Ops) (w64 : Bool) : WordRef ⊕ Trap :=
  match o.a with
  | .t h =>
    match s.tileBound (coreOf l) h.val with
    | none => .inr (handleTrap h.val)
    | some k =>
      let f := (s.tile k).fmt
      if (if w64 then f ≠ .fp64 else f ≠ .int32 ∧ f ≠ .uint32) then .inr (handleTrap h.val)
      else match s.tileVa l o.a o.c (wordBytes w64) with
        | .inr t => .inr t
        | .inl _ => .inl (.tile k (s.src l .int o.c).toNat)
  | a =>
    match s.laneVa l .read (wordBytes w64) (s.src64 l a) with
    | .inr t => .inr t
    | .inl pa => .inl (.mem (canonPa pa))

/-- Must a warp's read of a word wait in its slot: for its earlier loads of the same bytes, its own stores to a window
or not yet answered, an engine's ownership, or the tile (R210, R213, R193)? -/
def State.wordHeld (s : State) (l : Nat) (w64 : Bool) (r : WordRef) : Bool :=
  let w := warpOf l
  let n := wordBytes w64
  match r with
  | .mem pa =>
    s.recalled w s.nextId pa
      || s.behind w s.nextId pa n (fun o => match o.kind with
        | .load _ _ _ => true
        | .gload _ _ _ => true
        | .store => regionOf pa ≠ .hbm
        | _ => false)
      || !(s.readAs (coreOf l) w s.nextId pa n).2.awaits.isEmpty
  | .tile k e => s.tileHeld k w s.nextId (e * n) n

/-- A lane put to sleep on a word. DESIGN CHOICE: on a word of an MMIO view, which no home slice watches, it sleeps
unwatched (log entry 79). -/
def State.sleep (s : State) (l : Nat) (w : Watch) : State :=
  let g := s.group
  let watched := s.granted? (coreOf l) 19 && (match w.word with
    | .mem pa => isMemory pa
    | .tile _ _ => true)
  let s := (s.leaveGroup l).modLane l fun x =>
    { x with status := .asleepWaitw watched w, pc := g.pc, rslot := g.slot }
  match w.word with
  | .mem _ => s.testWatch l
  | .tile _ _ => s.testTileWatch l

/-- One lane's WAITW: it reads the word; if the comparison holds it observes the write and acquires, else it sleeps. -/
def State.waitLane (s : State) (l : Nat) (r : WordRef) (w : Watch) : State :=
  match r with
  | .mem pa =>
    let (s, x) := s.readAs (coreOf l) (warpOf l) s.nextId pa (wordBytes w.w64)
    if wcmpHolds w.cmp (leNat x.bytes) w.value.toNat then
      let s := s.modWarp (warpOf l) (·.observed (s.timesOf (coreOf l) x.recs))
      s.acquireWord (coreOf l) w.scope pa (wordBytes w.w64)
    else s.sleep l w
  | .tile k e =>
    if wcmpHolds w.cmp ((s.tile k).elem e) w.value.toNat then s.acquire (coreOf l) w.scope else s.sleep l w

/-- WAITW: in the clause's last slot; a helper completes at once. -/
def execWaitw (g : Guard) (o : Ops) (scope : Scope) (w64 : Bool) (cmp : WCmp) (s : State) : Out :=
  if !s.lastSlot o then .next s.misplaced
  else
    let ls := s.execThreads g
    let rs := ls.map fun l => (l, s.waitWord l o w64)
    let good := leftsOf rs
    if !(warpsOf ls).all (fun w => s.acquireFree w) || good.any fun p => s.wordHeld p.1 w64 p.2 then .next (s.hold .retry)
    else
      let next := nextClause s.group.pc s.group.header
      let t := good.foldl (fun t p => t.waitLane p.1 p.2
        { word := p.2, w64 := w64, cmp := cmp, value := s.srcWord p.1 w64 o.b, scope := scope, next := next }) s
      .next (t.trapEach (rightsOf rs))

/-! ## PREF and FLUSH (R239, R240) -/

/-- PREF of one address: dropped silently unless it is canonical, mapped and readable. -/
def State.prefetch (s : State) (l : Nat) (l2 : Bool) (va : W64) : State :=
  match s.laneVa l .read 1 va with
  | .inr _ => s
  | .inl pa =>
    let c := coreOf l
    if regionOf pa ≠ .hbm then s
    else if !l2 then s.fillL1 c (lineOf pa)
    else if s.remote c (lineOf pa) ∧ (s.copyOf (.l2 (dieOf c)) (lineOf pa)).isNone then
      s.fetchLine c (.l2 (dieOf c)) (lineOf pa)
    else s

/-- PREF. -/
def execPref (g : Guard) (o : Ops) (disp : BitVec 10) (l2 : Bool) (s : State) : Out :=
  .next ((s.exec g).foldl (fun t l => t.prefetch l l2 (s.src64 l o.a + dispOf disp 64)) s)

/-- The pieces of a byte range, each within a 64 KiB page: virtual address and length. -/
def pagePieces (va : W64) (n : Nat) : List (W64 × Nat) :=
  let off := va.toNat % 65536
  if n = 0 then []
  else if off + n ≤ 65536 then [(va, n)]
  else (va, 65536 - off) ::
    (List.range ((n - (65536 - off) + 65535) / 65536)).map fun i =>
      (va + BitVec.ofNat 64 (65536 - off + 65536 * i), min 65536 (n - (65536 - off) - 65536 * i))

/-- Each piece translated for a read, or the fault of the first that fails, at its page's address. -/
def State.flushRanges (s : State) (l : Nat) : List (W64 × Nat) → List (Nat × Nat) ⊕ Trap
  | [] => .inl []
  | (va, n) :: rest =>
    match s.laneVa l .read 1 va with
    | .inr t => .inr { t with addr := va &&& ~~~(0xFFFF#64) }
    | .inl pa => match s.flushRanges l rest with
      | .inr t => .inr t
      | .inl rs => .inl ((pa, n) :: rs)

/-- FLUSH: every page translated, then the write-back goes on its way, counted in STC. -/
def execFlush (g : Guard) (o : Ops) (s : State) : Out :=
  let rs := ((s.execThreads g).filter fun l => s.src l .int o.b ≠ 0).map fun l =>
    (l, s.flushRanges l (pagePieces (s.src64 l o.a) (s.src l .int o.b).toNat))
  let good := leftsOf rs
  let ws := warpsOf (good.map (·.1))
  match s.gate ws [1] good.length none with
  | some w => .next (s.hold w)
  | none =>
    let t := (s.countAll ws 1).accept (good.map fun p =>
      { s.laneOp p.1 (.flush p.2) 0 (s.src p.1 .int o.b).toNat with va := s.src64 p.1 o.a })
    .next (t.trapEach (rightsOf rs))

end Sys2Proof.Machine
end

