-- ==== Sys2Proof/Machine/Log.lean ====
section
/-! DEFINITION. The log of guarded reals: nodes, references, allocation and reclaim, and what happens to a lane's guarded
registers when it retires (spec/16 R281 to R288). -/

namespace Sys2Proof.Machine

/-! ## Node kinds (R283) -/

namespace NodeOp
def leaf32 : BitVec 4 := 1
def leaf64 : BitVec 4 := 2
def add : BitVec 4 := 3
def sub : BitVec 4 := 4
def mul : BitVec 4 := 5
def neg : BitVec 4 := 6
def sqr : BitVec 4 := 7
def severed : BitVec 4 := 8
end NodeOp

/-- Does a node of the kind have a second operand? -/
def twoOperands (op : BitVec 4) : Bool := op == NodeOp.add || op == NodeOp.sub || op == NodeOp.mul

/-- The count at which a node is pinned (R287). -/
def pinnedRef : Nat := 4095

/-! ## The log -/

/-- A node by its handle. -/
def Log.node (x : Log) (h : Nat) : Node := tget {} x.nodes h
/-- The log with a node written. -/
def Log.setNode (x : Log) (h : Nat) (n : Node) : Log := { x with nodes := tput {} x.nodes h n }

/-- Inc (R286). -/
def Log.inc (x : Log) (h : Nat) : Log :=
  let n := x.node h
  if h = 0 ∨ n.ref = pinnedRef then x else x.setNode h { n with ref := n.ref + 1 }

/-- Dec (R286): a count that reaches zero queues its node as a pending root. -/
def Log.dec (x : Log) (h : Nat) : Log :=
  let n := x.node h
  if h = 0 ∨ n.ref = pinnedRef then x
  else
    let y := x.setNode h { n with ref := n.ref - 1 }
    if n.ref = 1 then { y with pending := y.pending ++ [h] } else y

/-- A node returned to the free list. -/
def Log.release (x : Log) (h : Nat) : Log :=
  { x.setNode h { op := 0, ref := 0, a := x.freehead, b := 0, val := 0 } with
    freehead := h, live := x.live - 1 }

/-- Reclaim, depth first, A's subtree before B's: a stack of handles still to be Dec'd. -/
def Log.reclaimLoop (x : Log) : Nat → List Nat → Log
  | 0, _ => x
  | _ + 1, [] => x
  | k + 1, h :: hs =>
    let n := x.node h
    if h = 0 ∨ n.ref = pinnedRef then x.reclaimLoop k hs
    else if n.ref = 1 then
      (x.release h).reclaimLoop k (n.a :: (if twoOperands n.op then n.b else 0) :: hs)
    else (x.setNode h { n with ref := n.ref - 1 }).reclaimLoop k hs

/-- Reclaim of a pending root, whose count is 0 (R286). -/
def Log.reclaim (x : Log) (h : Nat) : Log :=
  let n := x.node h
  (x.release h).reclaimLoop (3 * x.nodes.length + 3) [n.a, if twoOperands n.op then n.b else 0]

/-- Alloc (R285): the free list, then a handle never given out; none when both are empty. `limit` is NCHIP + NSPILL. -/
def Log.alloc (x : Log) (limit : Nat) : Option (Nat × Log) :=
  if x.freehead ≠ 0 then some (x.freehead, { x with freehead := (x.node x.freehead).a, live := x.live + 1 })
  else if x.next < limit then some (x.next, { x with next := x.next + 1, live := x.live + 1 })
  else none

/-- Handles still to be had without a reclaim. -/
def Log.room (x : Log) (limit : Nat) : Nat := limit - 1 - x.live

/-! ## The log of a core's block -/

/-- The two doublewords of a node, [63:0] first (R283); B of a SEVERED node holds INX. -/
def Node.words (n : Node) : List W64 :=
  let b := if n.op = NodeOp.severed then (if n.inx then 1 else 0) else n.b
  [n.val, BitVec.ofNat 64 (n.op.toNat * 2 ^ 60 + n.ref % 4096 * 2 ^ 48 + n.a % 2 ^ 24 * 2 ^ 24 + b % 2 ^ 24)]

/-- The node of two doublewords. -/
def Node.ofWords (lo hi : W64) : Node :=
  let op := hi.extractLsb' 60 4
  let sev := op == NodeOp.severed
  { op := op, ref := field hi 48 12, a := field hi 24 24, b := if sev then 0 else field hi 0 24,
    inx := sev && hi.getLsbD 0, val := lo }

/-- Is a handle that of a spill node of a core's block (R282)? -/
def State.spilled (s : State) (c h : Nat) : Bool :=
  (s.launchOf c).any fun l => l.nspill ≠ 0 && l.nchip ≤ h && h < l.nchip + l.nspill

/-- The address of a spill node: SB + 16 × (h − NCHIP) (R282). -/
def State.spillVa (s : State) (c h : Nat) : W64 :=
  match s.launchOf c with
  | some l => dword l.record 3 + BitVec.ofNat 64 (16 * (l.nspill * s.blockId c + (h - l.nchip)))
  | none => 0

/-- A spill node as memory holds it. -/
def State.spillNode (s : State) (c h : Nat) : Node :=
  let at_ (k : Nat) : W64 := match s.loadVa c (s.capxOf c) (.sys false) (s.spillVa c h + BitVec.ofNat 64 (8 * k)) 8 with
    | .inl x => BitVec.ofNat 64 x
    | .inr _ => 0
  Node.ofWords (at_ 0) (at_ 1)

/-- The state with a spill node written to memory by the log unit, on behalf of no thread. -/
def State.putSpill (s : State) (c h : Nat) (n : Node) : State :=
  match s.storeVa c (s.capxOf c) (.sys true) (s.launchNum c) (s.spillVa c h) (n.words.flatMap fun w => toLe w.toNat 8) with
  | .inl r => r.1
  | .inr _ => s

/-- The spill nodes of a core's block that have been given out, those that are not zero. -/
def State.spillNodes (s : State) (c : Nat) (next : Nat) : Tab Node :=
  match s.launchOf c with
  | some l =>
    if l.nspill = 0 then []
    else (List.range (next - l.nchip)).filterMap fun k =>
      let n := s.spillNode c (l.nchip + k)
      if n = {} then none else some (l.nchip + k, n)
  | none => []

/-- The log of a core's block: its header and T255's nodes, and the spill nodes as memory holds them (R281 to R284). -/
def State.log (s : State) (c : Nat) : Log :=
  let x := ((s.blockOf c).map (·.log)).getD {}
  { x with nodes := x.nodes ++ s.spillNodes c x.next }

/-- The state with the log of a core's block changed: T255's nodes on chip, and the spill nodes that differ in memory. -/
def State.modLog (s : State) (c : Nat) (f : Log → Log) : State :=
  let x := s.log c
  let y := f x
  let t := s.modBlock (s.leader c) fun b => { b with log := { y with nodes := y.nodes.filter fun p => !s.spilled c p.1 } }
  let hs := ((x.nodes ++ y.nodes).map (·.1)).filter fun h => s.spilled c h && x.node h != y.node h
  hs.eraseDups.foldl (fun t h => t.putSpill c h (y.node h)) t

/-- Does the page of a node's place translate? T255's do; the log unit waits for firmware to map a spill node's. -/
def State.nodeMapped (s : State) (c h : Nat) : Bool :=
  !s.spilled c h || (match s.checkVa c (s.capxOf c) (.sys true) 16 (s.spillVa c h) with
    | .inl _ => true
    | .inr _ => false)

/-- NCHIP + NSPILL of a core's launch. -/
def State.logLimit (s : State) (c : Nat) : Nat := ((s.launchOf c).map fun l => l.nchip + l.nspill).getD 0

/-- A guarded register of a lane. -/
def State.greg (s : State) (l i : Nat) : GReg := tget {} (s.lane l).g i
/-- The state with a guarded register written. -/
def State.setGreg (s : State) (l i : Nat) (x : GReg) : State :=
  s.modLane l fun y => { y with g := tput {} y.g i x }

/-- The state with a guarded register written and the handle it held Dec'd (R286). -/
def State.replaceGreg (s : State) (l i : Nat) (x : GReg) : State :=
  (s.setGreg l i x).modLog (coreOf l) (·.dec (s.greg l i).handle.toNat)

/-- The log unit performs its oldest pending root (R286). -/
def execReclaim (core : Nat) (s : State) : Out :=
  .next (s.modLog core fun x => match x.pending with
    | [] => x
    | h :: hs => { x with pending := hs }.reclaim h)

/-! ## Retirement (R148, R288; spec/13 R391) -/

/-- When a home warp has no live lane left, its write times fold into its core's maximum (spec/23 R344). -/
def State.foldWarp (s : State) (w : Nat) : State :=
  if (s.warpLanes w).any fun l => (s.lane l).live then s
  else s.modCore (w / 128) fun k => { k with times := laterTimes (laterTimes k.times (s.warp w).swt) (s.warp w).owt }

/-- Completion times returned to a warp; when it has no live lane left they reach its core (spec/23 R344). -/
def State.wrote (s : State) (w : Nat) (t : Tab Nat) : State :=
  if (s.warpLanes w).any fun l => (s.lane l).live then s.modWarp w (·.wrote t)
  else s.modCore (w / 128) fun k => { k with times := laterTimes k.times t }

/-- Times observed by a warp, in the same way (spec/12 R206). -/
def State.observed (s : State) (w : Nat) (t : Tab Nat) : State :=
  if (s.warpLanes w).any fun l => (s.lane l).live then s.modWarp w (·.observed t)
  else s.modCore (w / 128) fun k => { k with times := laterTimes k.times t }

/-- A lane retired: it leaves its group, its guarded registers are Dec'd in order and left empty, the Gecko drops it,
and a run's fault that it had still to take kills the context. -/
def State.retire (s : State) (l : Nat) : State :=
  let x := s.lane l
  let c := coreOf l
  let s := (s.leaveGroup l).modLog c fun g => x.g.foldl (fun g p => g.dec p.2.handle.toNat) g
  let s := s.modCore c fun k => { k with gecko := k.gecko.filter fun r => r.lane ≠ l }
  let s := s.setLane l { x with status := .retired, g := [], meet := 0, rslot := 0, runFaults := []
                                kept := none, faulted := [], runHandler := .normal }
  let s := s.foldWarp (warpOf l)
  if x.runFaults.isEmpty then s else s.killCore c

/-- Every live lane of a lane's quad retired (R158). -/
def State.retireQuad (s : State) (l : Nat) : State :=
  ((s.quadLanes l).filter fun x => (s.lane x).live).foldl State.retire s

/-- Is another lane of the quad live and no helper? -/
def State.quadGoesOn (s : State) (l : Nat) : Bool :=
  (s.quadLanes l).any fun x => x ≠ l && (s.lane x).live && !(s.lane x).helper

end Sys2Proof.Machine
end

