-- ==== Sys2Proof/Machine/Block.lean ====
section
/-! DEFINITION. What happens when lanes go on elsewhere, wait at barriers, or leave: control transfers, barrier arrival and
release, and the end of a block (spec/09 R154, R158; spec/10 R171 to R173; spec/17 R315; spec/11 R190). -/

namespace Sys2Proof.Machine

/-! ## Going on at an address -/

/-- A lane leaves its group and stands before the clause at an address. -/
def State.goTo (s : State) (l : Nat) (pc : Addr48) : State :=
  (s.leaveGroup l).modLane l fun x => { x with pc := pc, rslot := 0, status := .idle, kept := none, readyAt := s.cycles }

/-- Lanes act in order; the first that must wait, and those after it, hold the slot. `f` answers none for a wait. -/
def State.inOrder (s : State) (ls : List Nat) (f : State → Nat → Option State) : State :=
  match ls with
  | [] => s
  | l :: rest => match f s l with
    | none => s.hold .retry
    | some t => (t.serve [l]).inOrder rest f

/-- The meetings of some lanes' warps evaluated again (R154). -/
def State.meet (s : State) (ls : List Nat) : State := (warpsOf ls).foldl State.evalMeetings s

/-- Is the current slot the clause's last (spec/04 R77)? -/
def State.atEnd (s : State) : Bool := s.group.slot = nslot s.group.header

/-- The address of the clause after the current one. -/
def State.following (s : State) : Addr48 := nextClause s.group.pc s.group.header

/-- A target that an offset names from the clause's header (spec/04 R84). -/
def State.offsetTarget (s : State) (off : BitVec 30) : Addr48 ⊕ Trap :=
  let t : Int := (s.group.pc.toNat : Int) + 8 * off.toInt
  if t < 0 ∨ (2 : Int) ^ 48 ≤ t then .inr { code := Code.access, addr := BitVec.ofInt 64 t }
  else .inl (BitVec.ofInt 48 t)

/-- A target that a pair holds (spec/10 R167). -/
def pairTarget (t : W64) : Addr48 ⊕ Trap :=
  if field t 48 16 ≠ 0 then .inr { code := Code.access, addr := t }
  else if field t 0 3 ≠ 0 then .inr { code := Code.align, addr := t, info := 3 }
  else .inl (t.setWidth 48)

/-! ## Barriers (spec/10 R171, R172) -/

/-- The scope of a level. -/
def barScope : BarLevel → Scope
  | .warp => .warp
  | .block => .block
  | .cluster => .cluster
  | .grid => .device

/-- A barrier's key in its launch: level, instance, index. -/
def barKey (lvl : BarLevel) (inst idx : Nat) : Nat := (lvl.code * 2 ^ 20 + inst) * 16 + idx

/-- The level of a barrier's key. -/
def barLevelOf (key : Nat) : BarLevel := (BarLevel.ofCode (key / 16 / 2 ^ 20)).getD .warp
/-- The instance of a barrier's key. -/
def barInstOf (key : Nat) : Nat := key / 16 % 2 ^ 20

/-- The barrier a lane names. -/
def State.barOf (s : State) (l : Nat) (lvl : BarLevel) (idx : Nat) : Nat :=
  barKey lvl (match lvl with
    | .warp => warpOf l
    | .block => s.leader (coreOf l)
    | .cluster => clusterOf (coreOf l)
    | .grid => 0) idx

/-- The cores that a launch holds. -/
def Launch.all (x : Launch) : List Nat := x.cores ++ x.held

/-- The lanes a barrier can count. -/
def State.barLanes (s : State) (i key : Nat) : List Nat :=
  let inst := barInstOf key
  let cores := ((tfind s.launches i).map Launch.all).getD []
  match barLevelOf key with
  | .warp => s.warpLanes inst
  | .block => (s.blockCores inst).flatMap s.coreLanes
  | .cluster => (cores.filter fun c => clusterOf c == inst).flatMap s.coreLanes
  | .grid => cores.flatMap s.coreLanes

/-- Is the lane a member that holds barriers back: a thread of the launch's blocks, live and no helper? -/
def Lane.holdsBars (x : Lane) : Bool := x.member && x.live && !x.helper

/-- A barrier of a launch. -/
def State.bar (s : State) (i key : Nat) : Bar := ((tfind s.launches i).map fun x => tget {} x.bars key).getD {}

/-- A barrier whose members have all been counted opens: its sleepers wake and acquire, and the generation advances. -/
def State.checkBar (s : State) (i key : Nat) : State :=
  let b := s.bar i key
  let ls := s.barLanes i key
  if b.arrived.isEmpty || ls.any (fun l => (s.lane l).holdsBars && !b.arrived.contains l) then s
  else
    let sleepers := ls.filter fun l => (s.lane l).status == .asleepBar key
    let s := s.modLaunch i fun x => { x with bars := tset x.bars key { gen := b.gen + 1, arrived := [] } }
    let s := sleepers.foldl (fun s l =>
      (s.modLane l fun x => { x with status := .idle, readyAt := s.cycles }).acquire (coreOf l) (barScope (barLevelOf key))) s
    s.meet sleepers

/-- Every barrier of a launch where someone waits. -/
def State.checkBars (s : State) (i : Nat) : State :=
  (((tfind s.launches i).map (·.bars)).getD []).foldl (fun s p => s.checkBar i p.1) s

/-- A member counted arrived and put to sleep; it goes on at the following clause. -/
def State.arrive (s : State) (i l key : Nat) : State :=
  let s := s.modLaunch i fun x =>
    let b := tget {} x.bars key
    { x with bars := tset x.bars key { b with arrived := b.arrived ++ [l] } }
  (s.goTo l s.following).modLane l fun x => { x with status := .asleepBar key }

/-! ## The end of a block (spec/17 R315; spec/11 R190; spec/16 R288) -/

/-- Has a core no live lane, no bin thread and no record in hand? -/
def State.coreEmpty (s : State) (c : Nat) : Bool :=
  (s.coreLanes c).all (fun l => !(s.lane l).live) && (s.core c).bins.isEmpty && (s.core c).resume.isEmpty

/-- Does some core of a tile still carry a running block of the launch that bound it? -/
def State.tileInUse (s : State) (k : Nat) (t : Tile) : Bool :=
  (tileCores k t).any fun c => (s.core c).launch == some t.launch && ((s.blockOf c).map (·.running)).getD false

/-- The tiles a block's end unbinds: CORE tiles on its cores, and those that no block of their own launch uses any
more. -/
def State.endedTiles (s : State) (b : Block) : List Nat :=
  s.tiles.filterMap fun p =>
    let on := (tileCores p.1 p.2).any b.cores.contains
    let core := decide (p.2.lvl = TileLevel.core)
    if on && !p.2.freeing && (core || !s.tileInUse p.1 p.2) then some p.1 else none

/-- The operations in flight once a block's log is discarded: a guarded load's node is gone with it (spec/16 R288). -/
def MemOp.withoutNode (o : MemOp) (cores : List Nat) : MemOp :=
  match o.kind with
  | .gload d f64 _ => if cores.contains o.core then { o with kind := .gload d f64 0 } else o
  | _ => o

/-- The block of a core ends once its cores are empty: its tiles and its log are unbound. -/
def State.checkBlockEnd (s : State) (c : Nat) : State :=
  match s.blockOf c with
  | none => s
  | some b =>
    if !b.running || !b.cores.all s.coreEmpty then s
    else
      let s := s.modBlock (s.leader c) fun b => { b with running := false, log := {} }
      let s : State := { s with ops := s.ops.map fun o => o.withoutNode b.cores }
      (s.endedTiles b).foldl (fun s k => s.freeTile k []) s

/-- What follows when lanes of a core have retired or become helpers: barriers, the block's end, meetings. -/
def State.afterLeave (s : State) (c : Nat) (ls : List Nat) : State :=
  let s := match (s.core c).launch with
    | some i => s.checkBars i
    | none => s
  (s.checkBlockEnd c).meet ls

/-- A lane turned into a helper (R158): a run's fault it had still to take kills the context (spec/13 R391). -/
def State.becomeHelper (s : State) (l : Nat) : State :=
  let x := s.lane l
  if x.helper then s
  else
    let s := s.setLane l { x with helper := true, runFaults := [] }
    if x.runFaults.isEmpty then s else s.killCore (coreOf l)

/-- A lane that leaves for good: it becomes a helper while another thread of its quad goes on; with the last one the
whole quad retires (R158, R169). -/
def State.leave (s : State) (l : Nat) : State :=
  if !(s.lane l).live then s
  else if (s.lane l).helper || s.quadGoesOn l then s.becomeHelper l
  else s.retireQuad l

end Sys2Proof.Machine
end

