-- ==== Sys2Proof/Machine/Control.lean ====
section
/-! DEFINITION. Control instructions: branches, calls and returns, EXIT, MEET, BAR, FETCHT, TRAP and BKPT (spec/10 R166 to
R179; spec/02 R36). -/

namespace Sys2Proof.Machine

/-! ## Branches (R167) -/

/-- A lane branches: it stands at its target, and .Y defers it. -/
def State.branch (s : State) (y : Bool) (l : Nat) (t : Addr48) : State :=
  (s.goTo l t).modLane l fun x => { x with defer := x.defer || y }

/-- The executing lanes branch, each to its own target, or take its fault. -/
def State.branchAll (s : State) (g : Guard) (y : Bool) (target : Nat → Addr48 ⊕ Trap) : State :=
  if !s.atEnd then s.misplaced
  else
    let ls := s.exec g
    let rs := ls.map fun l => (l, target l)
    let t := (leftsOf rs).foldl (fun t p => t.branch y p.1 p.2) s
    (t.trapEach (rightsOf rs)).meet ls

/-- BRA. -/
def execBra (g : Guard) (off : BitVec 30) (y : Bool) (s : State) : Out :=
  .next (s.branchAll g y fun _ => s.offsetTarget off)

/-- BRX. -/
def execBrx (g : Guard) (o : Ops) (y : Bool) (s : State) : Out :=
  .next (s.branchAll g y fun l => pairTarget (s.src64 l o.a))

/-! ## Calls and returns (R168; spec/02 R36) -/

/-- What a lane's CALL or RET comes to: a fault, a wait for earlier accesses, or to go on, with the physical address of
its spill or refill. -/
inductive CallStep
  | fault (t : Trap)
  | wait
  | go (t : Addr48) (spill : Option Nat)
  deriving DecidableEq, Repr

/-- Must a spill or refill wait for the warp's earlier accesses to the same bytes, for an engine's line, or for an
acquire of its warp under way (spec/12 R208)? -/
def State.stackHeld (s : State) (l pa : Nat) : Bool :=
  let w := warpOf l
  s.recalled w s.nextId pa || s.behind w s.nextId pa 8 (fun _ => true) || !s.acquireFree w

/-- The address of the spill doubleword of a call made at a depth. -/
def Lane.spillVa (x : Lane) (k : Nat) : W64 := x.rsb + BitVec.ofNat 64 (8 * k)

/-- A lane's CALL. -/
def State.callStep (s : State) (l : Nat) (target : Addr48 ⊕ Trap) : CallStep :=
  let x := s.lane l
  match target with
  | .inr t => .fault t
  | .inl t =>
    if x.depth.toNat = 1023 then .fault { code := Code.depthOverflow }
    else if x.stack.length < 16 then .go t none
    else match s.laneVa l .write 8 (x.spillVa (x.depth.toNat - 16)) with
      | .inr t => .fault t
      | .inl pa => if s.stackHeld l pa then .wait else .go t (some pa)

/-- A store of a lane performed at its home at once, in its warp's order; its times return with it. -/
def State.storeNow (s : State) (l pa : Nat) (data : List Byte) : State :=
  let c := coreOf l
  let (id, s) := s.fresh
  let r := s.recordAt id (some c) (s.coreGt c) pa
  let s := (s.writeHome r (s.launchNum c) pa data).ownWrite c r pa data
  s.modWarp (warpOf l) (·.wrote (s.timesOf c [r]))

/-- A lane's CALL carried out: the oldest entry of a full stack is spilled. -/
def State.callLane (s : State) (l : Nat) (t n : Addr48) (spill : Option Nat) : State :=
  let x := s.lane l
  let s := match spill with
    | some pa => s.storeNow l pa (toLe (x.stack.getLastD 0).toNat 8)
    | none => s
  let kept := if spill.isSome then x.stack.dropLast else x.stack
  (s.goTo l t).modLane l fun x => { x with stack := n :: kept, depth := x.depth + 1 }

/-- Does some lane's step wait? -/
def anyWaits (rs : List (Nat × CallStep)) : Bool := rs.any fun r => r.2 == .wait

/-- The executing lanes call, each its own target. -/
def State.callAll (s : State) (g : Guard) (target : Nat → Addr48 ⊕ Trap) : State :=
  if !s.atEnd then s.misplaced
  else
    let ls := s.exec g
    let rs := ls.map fun l => (l, s.callStep l (target l))
    if anyWaits rs then s.hold .retry
    else (rs.foldl (fun t r => match r.2 with
      | .fault e => t.trap r.1 e
      | .wait => t
      | .go a spill => t.callLane r.1 a s.following spill) s).meet ls

/-- CALL. -/
def execCall (g : Guard) (off : BitVec 30) (s : State) : Out := .next (s.callAll g fun _ => s.offsetTarget off)

/-- CALLX. -/
def execCallx (g : Guard) (o : Ops) (s : State) : Out := .next (s.callAll g fun l => pairTarget (s.src64 l o.a))

/-- A lane's RET: the newest entry, or the refill; a value not yet returned to the core is waited for. -/
def State.retStep (s : State) (l : Nat) : CallStep :=
  let x := s.lane l
  if x.depth = 0 then .fault { code := Code.retUnderflow }
  else match x.stack with
    | r :: _ => .go r none
    | [] => match s.laneVa l .read 8 (x.spillVa (x.depth.toNat - 1)) with
      | .inr t => .fault t
      | .inl pa =>
        let v := (s.readAs (coreOf l) (warpOf l) s.nextId pa 8).2
        if s.stackHeld l pa || !v.awaits.isEmpty then .wait
        else
          let r := BitVec.ofNat 48 (leNat v.bytes)
          if field (r.setWidth 64) 0 3 ≠ 0 then .fault { code := Code.align, addr := r.setWidth 64, info := 3 }
          else .go r (some pa)

/-- A lane's RET carried out: a refill is a load of the lane's own. -/
def State.retLane (s : State) (l : Nat) (t : Addr48) (refill : Option Nat) : State :=
  let c := coreOf l
  let s := match refill with
    | some pa =>
      let (s, v) := s.readAs c (warpOf l) s.nextId pa 8
      s.modWarp (warpOf l) (·.observed (s.timesOf c v.recs))
    | none => s
  (s.goTo l t).modLane l fun x => { x with stack := x.stack.tail, depth := x.depth - 1 }

/-- RET. -/
def execRet (g : Guard) (s : State) : Out :=
  if !s.atEnd then .next s.misplaced
  else
    let ls := s.exec g
    let rs := ls.map fun l => (l, s.retStep l)
    if anyWaits rs then .next (s.hold .retry)
    else .next ((rs.foldl (fun t r => match r.2 with
      | .fault e => t.trap r.1 e
      | .wait => t
      | .go a refill => t.retLane r.1 a refill) s).meet ls)

/-! ## EXIT and MEET (R169, R170) -/

/-- EXIT. -/
def execExit (g : Guard) (s : State) : Out :=
  if !s.atEnd then .next s.misplaced
  else
    let ls := s.exec g
    let c := s.curCore
    .next ((ls.foldl State.leave s).afterLeave c ls)

/-- MEET: offset 0 clears it. -/
def execMeet (g : Guard) (off : BitVec 30) (s : State) : Out :=
  let ls := s.exec g
  let set (m : Addr48) : State := ((ls.foldl (fun t l => t.modLane l fun x => { x with meet := m }) s)).meet ls
  if off = 0 then .next (set 0)
  else match s.offsetTarget off with
    | .inr t => .next ((s.trapAll ls t).meet ls)
    | .inl m => .next (set m)

/-! ## BAR (R171, R172) -/

/-- BAR: members release, arrive and sleep; other lanes go on. -/
def execBar (g : Guard) (idx : Fin 16) (level : BarLevel) (s : State) : Out :=
  if !s.atEnd then .next s.misplaced
  else
    let ls := (s.execThreads g).filter fun l => (s.lane l).member
    match (s.core s.curCore).launch, s.gate (warpsOf ls) [] 0 (if ls.isEmpty then none else some (barScope level)) with
    | some i, none =>
      let keys := (ls.map fun l => s.barOf l level idx.val).eraseDups
      let t := ls.foldl (fun t l => t.arrive i l (s.barOf l level idx.val)) s
      .next ((keys.foldl (fun t k => t.checkBar i k) t).meet ls)
    | some _, some w => .next (s.hold w)
    | none, _ => .next s

/-! ## FETCHT (R175 to R178) -/

/-- Items of a plane of Morton codes whose bits above `k` are fixed at (x0, y0). -/
def mortonCount (ex ey k x0 y0 : Nat) : Nat := min (2 ^ k) (ex - x0) * min (2 ^ k) (ey - y0)

/-- The item at a position of the plane's Morton order. -/
def mortonAt (ex ey : Nat) : Nat → Nat → Nat → Nat → Nat × Nat
  | 0, x0, y0, _ => (x0, y0)
  | k + 1, x0, y0, n =>
    let h := 2 ^ k
    let c0 := mortonCount ex ey k x0 y0
    let c1 := mortonCount ex ey k (x0 + h) y0
    let c2 := mortonCount ex ey k x0 (y0 + h)
    if n < c0 then mortonAt ex ey k x0 y0 n
    else if n < c0 + c1 then mortonAt ex ey k (x0 + h) y0 (n - c0)
    else if n < c0 + c1 + c2 then mortonAt ex ey k x0 (y0 + h) (n - c0 - c1)
    else mortonAt ex ey k (x0 + h) (y0 + h) (n - c0 - c1 - c2)

/-- The item at a position of the launch's order (R176). -/
def Launch.item (x : Launch) (n : Nat) : List W32 :=
  let ex := x.extent 0
  let ey := x.extent 1
  let z := n / (ex * ey)
  let p := match x.order with
    | 0 => (n % ex, n / ex % ey)
    | 1 => (n / ey % ex, n % ey)
    | _ => mortonAt ex ey 32 0 0 (n % (ex * ey))
  [p.1, p.2, z].map (BitVec.ofNat 32)

/-- Items of a launch. -/
def Launch.items (x : Launch) : Nat := x.extent 0 * x.extent 1 * x.extent 2

/-- The dies that hold cores of the core set, rising. -/
def Launch.dies (x : Launch) : List Nat := (sortLanes (x.all.map dieOf)).eraseDups

/-- The ranges of positions still to be given out, before any is. -/
def Launch.ranges (x : Launch) : List (Nat × Nat) :=
  let n := x.items
  let k := x.dies.length
  if x.order = 3 then (List.range k).map fun j => (n * j / k, n * (j + 1) / k) else [(0, n)]

/-- Die indexes in the order a request of the j-th die tries the others: j + 1, j − 1, j + 2, … (R177). -/
def otherDies (k j : Nat) : List Nat := (List.range k).flatMap fun i => [(j + i + 1) % k, (j + k - (i + 1) % k) % k]

/-- A position taken for a core: from the front of its own range, else from the back of another die's. -/
def Launch.take (x : Launch) (core : Nat) : Option (Nat × Launch) :=
  let j := if x.order = 3 then x.dies.findIdx (· == dieOf core) else 0
  let full (i : Nat) : Bool := (x.disp.getD i (0, 0)).1 < (x.disp.getD i (0, 0)).2
  if full j then
    let r := x.disp.getD j (0, 0)
    some (r.1, { x with disp := x.disp.set j (r.1 + 1, r.2) })
  else match (otherDies x.disp.length j).find? full with
    | some i =>
      let r := x.disp.getD i (0, 0)
      some (r.2 - 1, { x with disp := x.disp.set i (r.1, r.2 - 1) })
    | none => none

/-- Is the index space exhausted (R178)? -/
def Launch.exhausted (x : Launch) : Bool := x.disp.all fun r => r.2 ≤ r.1

/-- What a lane that finds no item receives. -/
def noItem : List W32 := [0xFFFFFFFF, 0xFFFFFFFF, 0xFFFFFFFF]

/-- Items for some lanes of a core, in order. -/
def Launch.takeAll (x : Launch) (core : Nat) : List Nat → Launch × List (Nat × List W32)
  | [] => (x, [])
  | l :: ls =>
    match x.take core with
    | some (n, y) =>
      let r := y.takeAll core ls
      (r.1, (l, x.item n) :: r.2)
    | none =>
      let r := x.takeAll core ls
      (r.1, (l, noItem) :: r.2)

/-- FETCHT. -/
def execFetcht (g : Guard) (o : Ops) (s : State) : Out :=
  let c := s.curCore
  let helpers := ((s.exec g).filter fun l => (s.lane l).helper).map fun l => (l, noItem)
  match (s.core c).launch with
  | none => .next (s.commit o.d helpers)
  | some i =>
    match tfind s.launches i with
    | none => .next (s.commit o.d helpers)
    | some x =>
      let r := x.takeAll c (s.execThreads g)
      .next ((s.modLaunch i fun _ => r.1).commit o.d (r.2 ++ helpers))

/-! ## TRAP and BKPT (R179) -/

/-- TRAP. -/
def execTrap (g : Guard) (code : BitVec 12) (s : State) : Out :=
  .next (s.trapAll (s.execThreads g) { code := Code.userTrap, info := code.toNat })

/-- BKPT. -/
def execBkpt (g : Guard) (code : BitVec 12) (s : State) : Out :=
  .next (s.trapAll (s.execThreads g) { code := Code.bkpt, info := code.toNat })

end Sys2Proof.Machine
end

