-- ==== Sys2Proof/Machine/Copy.lean ====
section
/-! DEFINITION. Copies between memory and tiles, and FEED: COPY, GATHER, SCATTER and FEED as they issue, the copy
engines' runs, their completion writes, and the append to a stream (spec/13 R233 to R238, R391; spec/11 R198, R200;
spec/15 R273 to R277; spec/20 R323). -/

namespace Sys2Proof.Machine

/-! ## Issue (R235, R237, R323) -/

/-- What an operation keeps of the lane that supplies its operands (R391; spec/03 R54). -/
def State.originOf (s : State) (l : Nat) : Origin :=
  let g := s.group
  let w := s.warp (warpOf l)
  { lane := l, warp := warpOf l, core := coreOf l, launch := ((s.core (coreOf l)).launch).getD 0, pc := g.pc,
    slot := g.slot, cls := classOf g.header, word := g.word, mode := w.mode, seed := w.seed, gtid := s.gtid l,
    rsctr := (s.lane l).rsctr }

/-- A fault in a value read from an operand's run: INFO 256 × field + i, OPND the operand's code (R235). -/
def runTrap (field i : Nat) (o : Operand) : Trap :=
  { code := Code.reservedField, info := 256 * field + i, opnd := o.code.toNat }

/-- ILLEGAL_OPERAND at a field. -/
def operandTrap (field : Nat) (o : Operand) : Trap :=
  { code := Code.illegalOperand, info := field, opnd := o.code.toNat }

/-- Are `n` registers from an operand allocated (spec/02 R25, R26)? -/
def State.runAllocated (s : State) (l n : Nat) (o : Operand) : Bool :=
  match (s.launchOf (coreOf l)).map Launch.alloc, o with
  | some al, .v i => i.val + n ≤ al.nv
  | some al, .s i => i.val + n ≤ al.ns
  | _, _ => false

/-- The completion word that a triple names, checked at issue (R235, R198), or none. -/
def State.completionOf (s : State) (l : Nat) (o : Operand) (w64 : Bool) (scope : Scope) : Option Completion ⊕ Trap :=
  if o = .none then .inl none
  else
    let sel := s.src64 l o
    let value := (s.srcRun l 3 o).getD 2 0
    let w := s.warp (warpOf l)
    let after := max (tget 0 w.swt scope.code) (tget 0 w.owt scope.code)
    if field sel 56 8 = 0xC0 then
      let h := field sel 32 8
      let e := field sel 0 32
      if field sel 40 16 ≠ 0 ∨ 192 ≤ h then .inr (runTrap 3 0 o)
      else match s.tileBound (coreOf l) h with
        | none => .inr (handleTrap h)
        | some k =>
          let t := s.tile k
          if (if w64 then t.fmt ≠ .fp64 else t.fmt ≠ .int32 ∧ t.fmt ≠ .uint32) then .inr (runTrap 3 0 o)
          else if t.count ≤ e then .inr { code := Code.tileBounds, addr := BitVec.ofNat 64 e, info := h }
          else .inl (some { word := .tile k e, value := value, w64 := w64, scope := scope, after := after })
    else match s.laneVa l .write (wordBytes w64) sel with
      | .inr t => .inr t
      | .inl pa => .inl (some { word := .mem pa, va := sel, value := value, w64 := w64, scope := scope, after := after })

/-- The origin and index descriptor of an operation, checked with the record: origin, index list, rows the tile needs. -/
def State.windowOf (s : State) (l : Nat) (kind : CopyKind) (b : Operand) (ly : Layout) :
    (List Int × W64 × Nat × Nat) ⊕ Trap :=
  match kind with
  | .gather | .scatter =>
    let r := s.srcRun l 4 b
    let n := (r.getD 2 0).toNat
    let list := s.src64 l b
    if n = 0 ∨ 1024 < n then .inr (runTrap 2 2 b)
    else if list.toNat % 4 ≠ 0 then .inr { code := Code.align, addr := list, info := 2, opnd := b.code.toNat }
    else .inl ([(r.getD 3 0).toInt], list, n, n)
  | _ =>
    if !s.runAllocated l ly.rank b then .inr (operandTrap 2 b)
    else
      let org := (s.srcRun l ly.rank b).map BitVec.toInt
      if ly.dom ∧ org.getD 1 0 % 64 ≠ 0 then .inr (runTrap 2 1 b)
      else .inl (org, 0, 0, ly.rows)

/-- The checks of R323 in order: record, tile, completion triple; then a sealed destination (spec/12 R222). The
operation, or the fault. -/
def State.copyOf? (s : State) (l : Nat) (kind : CopyKind) (o : Ops) (scope : Scope) (w64 : Bool) : CopyOp ⊕ Trap :=
  let rec_ := s.srcRun l 24 o.a
  match parseRecord rec_ (kind == .gather || kind == .scatter) o.a.code.toNat with
  | .inr t => .inr t
  | .inl ly =>
    match s.windowOf l kind o.b ly with
    | .inr t => .inr t
    | .inl (org, list, n, rows) =>
      let h := handleOf o.d
      match s.tileBound (coreOf l) h with
      | none => .inr (handleTrap h)
      | some k =>
        let t := s.tile k
        if t.fmt ≠ ly.fmt ∨ t.cols ≠ ly.cols ∨ t.rows ≠ rows then
          .inr { code := Code.tileBounds, addr := BitVec.ofNat 64 (ly.cols * rows), info := h }
        else if t.imode ≠ ly.imode ∨ t.igran ≠ ly.igran then .inr { reservedTrap 2 with opnd := o.a.code.toNat }
        else match s.completionOf l o.c w64 scope with
          | .inr t => .inr t
          | .inl done =>
            let op : CopyOp := { id := 0, kind := kind, org := s.originOf l, tile := k, record := rec_, origin := org,
                                 index := list, count := n, done := done }
            match s.sealedTrap (coreOf l) (s.capxOf (coreOf l)) (destsLeft (op.dests t)) with
            | some e => .inr e
            | none => .inl op

/-- The state with an operation in a copy engine's queue, counted in TLC. -/
def State.enqueueCopy (s : State) (eng : Bool) (op : CopyOp) : State :=
  let (id, s) := s.fresh
  let op := { op with id := id }
  let s := s.modCore op.org.core fun k =>
    if eng then { k with copy1 := k.copy1 ++ [op] } else { k with copy0 := k.copy0 ++ [op] }
  s.countUp op.org.warp 3

/-- Warps whose part of the slot is still to be served, each by its lowest executing thread (R224). -/
def State.servants (s : State) (g : Guard) : List Nat := lowestOf (s.execThreads g)

/-- One warp's copy command: a fault goes to the supplying lane; without a grant or a counter the slot waits; else it
joins the queue. Answers the state and whether the slot waits. -/
def State.copyOne (s : State) (l : Nat) (kind : CopyKind) (o : Ops) (scope : Scope) (w64 eng : Bool) : State × Bool :=
  match s.copyOf? l kind o scope w64 with
  | .inr t => (s.trap l t, false)
  | .inl op =>
    let w := warpOf l
    if !s.granted? (coreOf l) (if eng then 18 else 17) || s.counterFull [w] 3 || !s.acquireFree w then (s, true)
    else (s.enqueueCopy eng op, false)

/-- An instruction that acts once for each warp, in order: a warp that must wait holds the slot, and those before it are
served. -/
def State.perWarp (s : State) (g : Guard) (f : State → Nat → State × Bool) : State :=
  let r := (s.servants g).foldl (fun (acc : State × Bool) l =>
    if acc.2 then acc
    else
      let ls := (s.execThreads g).filter fun x => warpOf x == warpOf l
      let y := f acc.1 l
      if y.2 then (acc.1, true) else (y.1.serve ls, false)) (s, false)
  if r.2 then r.1.hold .retry else r.1

/-- COPY. -/
def execCopy (g : Guard) (o : Ops) (scope : Scope) (w64 eng store : Bool) (s : State) : Out :=
  .next (s.perWarp g fun s l => s.copyOne l (if store then .store else .load) o scope w64 eng)

/-- GATHER. -/
def execGather (g : Guard) (o : Ops) (scope : Scope) (w64 : Bool) (s : State) : Out :=
  .next (s.perWarp g fun s l => s.copyOne l .gather o scope w64 false)

/-- SCATTER. -/
def execScatter (g : Guard) (o : Ops) (scope : Scope) (w64 : Bool) (s : State) : Out :=
  .next (s.perWarp g fun s l => s.copyOne l .scatter o scope w64 false)

/-! ## The engines' runs -/

/-- The core and address space an operation's engine works for. -/
def State.spaceOf (s : State) (o : Origin) : Nat × Nat := (o.core, s.capxOf o.core)

/-- The launch number an operation's writes carry. -/
def State.numOf (s : State) (o : Origin) : W32 := s.launchNum o.core

/-- Tile data filled element by element, up to the first fault. -/
def fillElems (f : Fmt) (d : Tab Byte) (e : Nat) (get : Nat → Nat ⊕ Trap) : Nat → Tab Byte × Option Trap
  | 0 => (d, none)
  | n + 1 => match get e with
    | .inr t => (d, some t)
    | .inl x => fillElems f (putElem f d e x) (e + 1) get n

/-- How many of a word's low `n` bits are set. -/
def onesBelow (x n : Nat) : Nat := ((List.range n).filter fun i => x.testBit i).length

/-- A header checked (R275). -/
def headerTrap (ly : Layout) (handle : Nat) (va : Int) (hd : List Nat) : Option Trap :=
  let bad (k : Nat) : Trap := { code := Code.reservedField, addr := BitVec.ofInt 64 va, info := k }
  let h1 := hd.getD 1 0
  if h1 / 2 ^ 16 % 2 ^ 16 ≠ 0 ∨ h1 / 2 ^ 5 % 8 ≠ 0 then some (bad 1)
  else match (List.range 8).find? fun k => 2 ≤ k && hd.getD k 0 ≠ 0 with
    | some k => some (bad k)
    | none =>
      if ly.hpack ∧ h1 / 2 ^ 8 % 2 ^ 8 ≠ onesBelow (hd.getD 0 0) 64 then some (bad 1)
      else if h1 % 8 ≠ ly.hlev then some { code := Code.domain, info := handle }
      else none

/-- Where the row of a dimension-1 index is stored, or none when it is absent (R276). -/
def storedRow (ly : Layout) (hs : List (Int × List Nat)) (i : Int) : Option Int :=
  match hs.find? fun h => h.1 == i / 64 with
  | none => none
  | some (g, hd) =>
    let b := (i % 64).toNat
    let pres := hd.getD 0 0
    if pres.testBit b && i < (ly.ext.getD 1 0 : Nat) then
      some (if ly.hpack then (hd.getD 1 0 / 2 ^ 32 + onesBelow pres b : Nat) else 64 * g + (b : Nat))
    else none

/-- The bits that leave a tile for memory with a spatial record: as stored, or reconstructed and rounded (R277, R262). -/
def spatialBits (o : Origin) (t : Tile) : List (List Nat) × List (List Flags) :=
  if t.dom then
    let r := roundRows t.fmt (ctlOf o.mode t.fmt .mode) o.rs t.cols (t.spatial t.values)
    (bitsOf r, r.map fun x => x.map (·.2))
  else ((List.range t.rows).map t.row, [])

/-- DOMAIN for a tile. -/
def domainTrap (k : Nat) : Trap := { code := Code.domain, info := keyHandle k }

/-- Is DOMPOL 1 (spec/02 R32)? -/
def dompol (mode : W64) : Bool := mode.getLsbD 48

/-- A store that meets a tag it may not (R277). -/
def CopyOp.mismatch (o : CopyOp) (t : Tile) : Option Trap :=
  let ly := recFields o.record
  match o.kind with
  | .load | .gather => none
  | _ =>
    if ly.dom then (if !t.dom ∨ t.hlev ≠ ly.hlev then some (domainTrap o.tile) else none)
    else if t.dom ∧ dompol o.org.mode then some (domainTrap o.tile)
    else none

/-- An operation as its run begins: the tile's tag as it meets it. -/
def CopyOp.begin (o : CopyOp) (t : Tile) : CopyOp := if o.started then o else { o with started := true, tag := t.tag }

/-- The elements a store writes, in order, each with the flags of its rounding (R235, R276, R277). -/
def CopyOp.storeItems (o : CopyOp) (t : Tile) : List (List Piece × Nat) × List Flags :=
  let ly := recFields o.record
  if ly.dom then (ly.haarItems o.origin t (((o.heads.head?.map (·.2)).getD []).getD 1 0 / 2 ^ 32), [])
  else
    let b := spatialBits o.org t
    (ly.storeItems o.origin b.1, b.2.flatten)

/-- The elements a scatter writes of its present row. -/
def CopyOp.scatterItems (o : CopyOp) (t : Tile) : List (List Piece × Nat) × List Flags :=
  let b := spatialBits o.org t
  let r := o.pos / t.cols
  ((recFields o.record).scatterRow (o.origin.getD 0 0) o.idx (b.1.getD r []), b.2.getD r [])

/-- The group whose header a Haar load must read for its next row: that of the row, or of row 0, whose element the edge
clamp gives a row below 0 (R234, R275; log entry 82). -/
def CopyOp.headerAt (o : CopyOp) (t : Tile) : Option Int :=
  let ly := recFields o.record
  let g := o.origin.getD 1 0 / 64 + (o.pos / (64 * t.cols) : Nat)
  if ly.dom && (0 ≤ g || ly.fill == 2) && !o.heads.any (fun h => h.1 == max g 0) then some (max g 0) else none

/-- What the run must read before it can place its next element: the pieces (R235, R237, R276). -/
def CopyOp.guides (o : CopyOp) (t : Tile) : List Piece :=
  let ly := recFields o.record
  match o.kind with
  | .load => match o.headerAt t with
    | some g => (List.range 8).map fun k => dwordPiece (ly.header g + 8 * (k : Nat))
    | none => []
  | .store => match ly.groups (o.origin.getD 1 0) t.rows with
    | g :: _ => if ly.dom ∧ ly.hpack ∧ o.heads = [] then [dwordPiece (ly.header g + 8)] else []
    | [] => []
  | _ =>
    if o.pos % t.cols = 0 then [⟨bitAddr ((8 * (o.index.toNat + 4 * (o.pos / t.cols)) : Nat) : Int), 32, 0⟩] else []

/-- Pieces read one by one. -/
def State.readEach (s : State) (k : CacheId) (c capx : Nat) : List Piece → List Nat ⊕ Trap
  | [] => .inl []
  | p :: ps =>
    match s.readPiece k c capx p with
    | .inr t => .inr t
    | .inl x => match s.readEach k c capx ps with
      | .inr t => .inr t
      | .inl xs => .inl (x :: xs)

/-- The operation with what it read of its guides: a header, checked, or an index. -/
def CopyOp.guided (o : CopyOp) (t : Tile) (xs : List Nat) : CopyOp ⊕ Trap :=
  let ly := recFields o.record
  match o.kind, xs with
  | _, [] => .inl o
  | .load, hd =>
    let g := (o.headerAt t).getD 0
    match headerTrap ly (keyHandle o.tile) (ly.header g) hd with
    | some e => .inr e
    | none => .inl { o with heads := o.heads ++ [(g, hd)] }
  | .store, x :: _ => .inl { o with heads := [(max (o.origin.getD 1 0 / 64) 0, [0, x])] }
  | _, x :: _ => .inl { o with idx := (BitVec.ofNat 32 x).toInt }

/-- Elements of the operation: a store counts its items, the others the tile's elements. -/
def CopyOp.total (o : CopyOp) (t : Tile) : Nat :=
  match o.kind with
  | .store => (o.storeItems t).1.length
  | _ => t.count

/-- How far a step of at most `n` elements goes: a gather or scatter no further than its row, a load of Haar rows no
further than the group of its header. -/
def CopyOp.reach (o : CopyOp) (t : Tile) (n : Nat) : Nat :=
  let n := min n (o.total t - o.pos)
  match o.kind with
  | .gather | .scatter => min n (t.cols - o.pos % t.cols)
  | .load => if (recFields o.record).dom then min n (64 * t.cols - o.pos % (64 * t.cols)) else n
  | .store => n

/-- Where a load or gather finds element e: pieces of memory, or the bits of the fill (R234, R237, R276). -/
def CopyOp.source (o : CopyOp) (t : Tile) (e : Nat) : List Piece ⊕ Nat :=
  let ly := recFields o.record
  let fill : Nat := if ly.fill = 1 then ly.fillv % 2 ^ ly.fmt.width else 0
  let from_ (valid : Bool) (i : List Int) : List Piece ⊕ Nat :=
    if valid && ly.inRange i then .inl (ly.pieces i)
    else if ly.fill = 2 then .inl (ly.pieces (ly.clamped i))
    else .inr fill
  match o.kind with
  | .gather =>
    if !t.present (e / t.cols) then .inr 0
    else
      let i := ly.indexCoords o.idx (o.origin.getD 0 0 + (e % t.cols : Nat))
      from_ i.1 i.2
  | _ =>
    if ly.dom then
      let i0 := o.origin.getD 0 0 + (e % t.cols : Nat)
      let i1 := o.origin.getD 1 0 + (e / t.cols : Nat)
      if i1 < 0 && ly.fill ≠ 2 then .inr fill
      else match storedRow ly o.heads (max i1 0) with
        | none => .inr 0
        | some at_ =>
          if 0 ≤ i0 && i0 < (ly.ext.getD 0 0 : Nat) then .inl (ly.pieces [i0, at_])
          else if ly.fill = 2 then .inl (ly.pieces [clamp 0 ((ly.ext.getD 0 0 : Nat) - 1) i0, at_])
          else .inr fill
    else from_ true (ly.coords o.origin (e / t.cols) (e % t.cols))

/-- The items of the next `n` elements that a store or scatter writes, with their flags. -/
def CopyOp.itemsFrom (o : CopyOp) (t : Tile) (n : Nat) : List (List Piece × Nat) × List Flags :=
  let r := match o.kind with
    | .scatter => o.scatterItems t
    | _ => o.storeItems t
  let k := match o.kind with
    | .scatter => o.pos % t.cols
    | _ => o.pos
  ((r.1.drop k).take n, (r.2.drop k).take n)

/-- The pieces of memory that the next `n` elements touch. -/
def CopyOp.pieces (o : CopyOp) (t : Tile) (n : Nat) : List Piece :=
  if o.writesTile then (List.range n).flatMap fun i => match o.source t (o.pos + i) with
    | .inl ps => ps
    | .inr _ => []
  else (o.itemsFrom t n).1.flatMap (·.1)

/-- The queue of a copy engine. -/
def Core.copies (k : Core) (eng : Bool) : List CopyOp := if eng then k.copy1 else k.copy0

/-- The state with a copy engine's queue changed. -/
def State.setCopies (s : State) (c : Nat) (eng : Bool) (q : List CopyOp) : State :=
  s.modCore c fun k => if eng then { k with copy1 := q } else { k with copy0 := q }

/-- The state with a queued operation as its run goes on. -/
def State.putCopy (s : State) (eng : Bool) (o : CopyOp) : State :=
  s.setCopies o.org.core eng (((s.core o.org.core).copies eng).map fun x => if x.id = o.id then o else x)

/-- The first operation of a queue that has not run to its end. -/
def nextCopy (q : List CopyOp) : Option CopyOp := q.find? fun o => !o.moved

/-- May the operation read some pieces of memory now, under leases of whole lines: earlier accesses of its warp to the
lines done, and no other engine's line half written (R210, R213, R214)? -/
def State.readsReady (s : State) (o : CopyOp) (ps : List Piece) : Bool :=
  s.linesClear o.org.warp o.id ps && s.enginesClear o.org.warp o.id ps && s.piecesWhole o.id o.org.core ps

/-- May it meet the pieces of its elements now: read them; or write them, earlier accesses of its warp to them done, no
other engine's line half written, and their lines free for it to own (R210, R213)? -/
def State.piecesReady (s : State) (o : CopyOp) (ps : List Piece) : Bool :=
  if o.writesTile then s.readsReady o ps
  else s.piecesClear o.org.warp o.id ps && s.enginesClear o.org.warp o.id ps && s.piecesWhole o.id o.org.core ps
    && s.mayOwn o.id o.org.core ps

/-- May it run now: its turn at the tile, and the pieces it must read first (R210, R213, R267)? -/
def State.copyReady (s : State) (o : CopyOp) : Bool :=
  s.tileTurn o.tile o.org.warp o.id o.writesTile && s.readsReady o (o.guides (s.tile o.tile))

/-- Completion times fold into a core's maximum (spec/23 R344). -/
def State.foldTimes (s : State) (c : Nat) (t : Tab Nat) : State :=
  s.modCore c fun k => { k with times := laterTimes k.times t }

/-- An uncorrectable error met by an engine: the context is killed (spec/26 R372). -/
def State.engineCheck (s : State) (o : Origin) : State :=
  s.checkLane o.lane o.core (o.fault { code := Code.machineCheck })

/-- Storage errors that an operation meets: in what it reads of a tile, and under pieces of memory that it reads. -/
def State.meetErrors (s : State) (o : Origin) (tile : Site → Bool) (ps : List Piece) : State × Bool :=
  if s.upsets.isEmpty then (s, false)
  else
    let (c, capx) := s.spaceOf o
    let num := s.launchNum o.core
    let r := s.consume tile o.core num
    ps.foldl (fun r p => match s.translate c capx (.sys false) (BitVec.ofNat 64 (p.bit / 8)) with
      | .ok pa =>
        let x := r.1.consumeHome touchesSite pa ((p.bit % 8 + p.width + 7) / 8) o.core num
        (x.1, r.2 || x.2)
      | _ => r) r

/-- Does a byte lie in one of some pieces of memory? -/
def coveredBy (ps : List Piece) (a : Nat) : Bool := ps.any fun p => p.bit ≤ 8 * a && 8 * a + 8 ≤ p.bit + p.width

/-- The granule of 32 bytes, by virtual address, that pieces cover whole: a write of them reads nothing of it (spec/26
R372). -/
def wholeGranule (ps : List Piece) (p : Piece) : Bool :=
  let g := p.bit / 8 / 32 * 32
  (p.bit + p.width + 7) / 8 ≤ g + 32 && (List.range 32).all fun i => coveredBy ps (g + i)

/-- Storage errors met by writes of pieces, of all that an operation writes: a granule it covers in part is read (spec/26
R372), one it covers whole holds no error any more. -/
def State.storeErrors (s : State) (o : Origin) (all ps : List Piece) : State × Bool :=
  if s.upsets.isEmpty then (s, false)
  else
    let (c, capx) := s.spaceOf o
    let r := s.meetErrors o (fun _ => false) (ps.filter fun p => !wholeGranule all p)
    ((ps.filter (wholeGranule all)).foldl (fun t p => match t.translate c capx (.sys false) (BitVec.ofNat 64 (p.bit / 8)) with
      | .ok pa => (t.fillL2 (lineOf (canonPa pa))).overwrite (touchesSite (canonPa pa) 1)
      | _ => t) r.1, r.2)

/-- An operation ended: it leaves its queue with the lines it read, its tile leaves ENGINE, TLC falls, and a FREEING tile
may return. -/
def State.endCopy (s : State) (eng : Bool) (o : CopyOp) : State :=
  let s := s.setCopies o.org.core eng (((s.core o.org.core).copies eng).filter fun x => x.id ≠ o.id)
  let s := if o.writesTile && o.started && !o.moved then s.modTile o.tile fun t => { t with engine := false } else s
  ((s.dropCache (.engine o.org.core eng)).countDown o.org.warp 3).settleTile o.tile

/-- The tag a load or gather leaves (R235, R260). -/
def CopyOp.retag (o : CopyOp) (t : Tile) : Tile :=
  let ly := recFields o.record
  match o.kind with
  | .load =>
    if ly.dom then
      { t with dom := true, hlev := ly.hlev, thk := 0, pv := true,
               pres := presenceOf t.rows fun r =>
                 let i := o.origin.getD 1 0 + (r : Nat)
                 i < 0 || (storedRow ly o.heads i).isSome }
    else { t with dom := false, hlev := 0, thk := 0, pv := false }
  | _ => t

/-- What one step of a run leaves: the state, the operation, and the fault that ends it. -/
structure CopyStep where
  st : State
  op : CopyOp
  fault : Option Trap := none
  deriving Inhabited

/-- The lanes that supplied an engine's operands receive its flags when it ends (R262). -/
def State.copyFault (s : State) (eng : Bool) (o : CopyOp) (t : Trap) : State :=
  ((s.modLane o.org.lane (·.sticky o.flags)).endCopy eng o).runFault o.id o.org t

/-- A load or gather moves its next `n` elements: their lines come under leases, then each element takes its value
(R214, R234). -/
def State.fillStep (s : State) (k : CacheId) (o : CopyOp) (n : Nat) : CopyStep :=
  let (c, capx) := s.spaceOf o.org
  let t := s.tile o.tile
  let s := s.leasePieces k c capx (o.pieces t n)
  let r := fillElems t.fmt t.data o.pos (fun e => match o.source t e with
    | .inl ps => s.readPieces k c capx ps
    | .inr x => .inl x) n
  let off := o.pos * elemNibbles t.fmt / 2
  let s := if r.2.isNone then s.fillTile o.tile off (((o.pos + n) * elemNibbles t.fmt + 1) / 2 - off) r.1
    else s.setTileData o.tile r.1
  { st := s, op := { o with pos := o.pos + n }, fault := r.2 }

/-- A store or scatter writes its next `n` elements (R213, R235). -/
def State.storeStep (s : State) (o : CopyOp) (n : Nat) : CopyStep :=
  let (c, capx) := s.spaceOf o.org
  let items := o.itemsFrom ((s.tile o.tile).withTag o.tag) n
  let r := writeItems c capx (s.numOf o.org) (s, []) items.1
  let times := r.1.1.timesOf c r.1.2
  { st := r.1.1.foldTimes c times
    op := { o with pos := o.pos + n, flags := items.2.foldl (· ||| ·) o.flags, times := laterTimes o.times times }
    fault := r.2 }

/-- Where a run goes next: it waits, it ends at a fault, or it moves so many elements. -/
inductive CopyPlan
  | wait
  | fault (s : State) (o : CopyOp) (t : Trap)
  | move (s : State) (o : CopyOp) (n : Nat)

/-- A run begins or goes on: the guides it needs are read, and it learns how many of at most `n` elements it may move
now (R235, R237). -/
def State.copyPlan (s : State) (eng : Bool) (o : CopyOp) (n : Nat) : CopyPlan :=
  let k := CacheId.engine o.org.core eng
  let (c, capx) := s.spaceOf o.org
  let o := o.begin (s.tile o.tile)
  let t := (s.tile o.tile).withTag o.tag
  let s := if o.writesTile then s.modTile o.tile fun t => { t with engine := true } else s
  match o.mismatch t with
  | some e => .fault s o e
  | none =>
    let s := s.leasePieces k c capx (o.guides t)
    match s.readEach k c capx (o.guides t) with
    | .inr e => .fault s o e
    | .inl xs => match o.guided t xs with
      | .inr e => .fault s o e
      | .inl o =>
        let n := o.reach t n
        if s.piecesReady o (o.pieces t n ++ (if o.pos = 0 then destsLeft (o.dests t) else [])) then .move s o n else .wait

/-- The elements move. -/
def State.copyMove (s : State) (eng : Bool) (o : CopyOp) (n : Nat) : CopyStep :=
  if o.writesTile then s.fillStep (.engine o.org.core eng) o n else s.storeStep o n

/-- The run's end: the tag is written once the elements stand, the tile leaves ENGINE, and the completion write, if one
is named, may follow (R198, R236; spec/26 R375). -/
def State.copyDone (s : State) (eng : Bool) (o : CopyOp) : State :=
  let s := s.modLane o.org.lane (·.sticky o.flags)
  let s := s.modTile o.tile fun t => if o.writesTile then { o.retag t with engine := false } else t
  match o.done with
  | none => s.endCopy eng { o with moved := true }
  | some _ =>
    ((s.putCopy eng { o with moved := true }).dropCache (.engine o.org.core eng)).settleTile o.tile

/-- A step that ended at a fault: one whose page firmware must still map leaves everything as it was. -/
def State.copyStop (s : State) (eng : Bool) (r : CopyStep) (t : Trap) : State :=
  if t.code = Code.translation then s else r.st.copyFault eng r.op t

/-- A copy engine goes on with its first operation, by at most `n` elements, or ends it once all have moved (R235,
R237). -/
def execCopyEngineRun (core : Nat) (eng : Bool) (n : Nat) (s : State) : Out :=
  match nextCopy ((s.core core).copies eng) with
  | none => .next s
  | some o =>
    if !s.runsOn core o.id (s.halfLine o.id) then .next s
    else if o.started && o.total ((s.tile o.tile).withTag o.tag) ≤ o.pos then .next (s.copyDone eng o)
    else if !s.copyReady o then .next s
    else match s.copyPlan eng o n with
      | .wait => .next s
      | .fault t op e => .next (s.copyStop eng { st := t, op := op } e)
      | .move t op m =>
        let tile := (t.tile op.tile).withTag op.tag
        let ps := op.pieces tile m
        let (u, bad1) := t.meetErrors op.org (fun x => !op.writesTile && elemSite op.tile tile.fmt op.pos m x)
          (o.guides tile ++ if op.writesTile then ps else [])
        let (u, bad2) := if op.writesTile then (u, false) else u.storeErrors op.org (op.dests tile).1.flatten ps
        if bad1 || bad2 then .next ((u.endCopy eng op).engineCheck op.org)
        else
          let r := u.copyMove eng op m
          match r.fault with
          | none => .next (r.st.putCopy eng r.op)
          | some e => .next (s.copyStop eng r e)

/-- Errors in the granule that a completion's word merges into (spec/26 R372). -/
def State.completionErrors (s : State) (o : Origin) (d : Completion) : State × Bool :=
  let n := wordBytes d.w64
  match d.word with
  | .mem _ => match s.checkVa o.core (s.capxOf o.core) .write n d.va with
    | .inl pa => s.consumeHome mergesSite pa n o.core (s.numOf o)
    | .inr _ => (s, false)
  | .tile k e =>
    if s.upsets.isEmpty then (s, false)
    else s.consume (fun x => tileSite k (e * n) n x && !tileCovers k (e * n) n x) o.core (s.numOf o)

/-- May the completion word of an operation be written: GT past the times that its release covers, its warp's earlier
operations returned, and no other engine's line half written under the word (R198, R207, R213)? -/
def State.completionReady (s : State) (o : CopyOp) (d : Completion) : Bool :=
  let c := o.org.core
  max (tget 0 o.times d.scope.code) d.after + 2 ≤ s.coreGt c && s.opsReturned o.org.warp o.id
    && match d.word with
      | .tile _ _ => true
      | .mem _ => match s.checkVa c (s.capxOf c) .write (wordBytes d.w64) d.va with
        | .inl pa => s.lineFree o.id pa (wordBytes d.w64)
        | .inr _ => true

/-- The word of a completion written (R198): none when its address no longer translates. DESIGN CHOICE: a tile word
goes to the tile that then has the key, FREEING or bound again, and without one it is a TILE_HANDLE run fault (log
entry 78). -/
def State.writeCompletion (s : State) (o : Origin) (d : Completion) : (State × Tab Nat) ⊕ Trap :=
  let n := wordBytes d.w64
  match d.word with
  | .mem _ =>
    match s.checkVa o.core (s.capxOf o.core) .write n d.va with
    | .inr t => .inr t
    | .inl pa =>
      let (s, r) := s.agentWrite (s.numOf o) pa (toLe d.value.toNat n)
      .inl (s.ownDrop o.core (canonPa pa), s.timesOf o.core [r])
  | .tile k e =>
    match tfind s.tiles k with
    | none => .inr (handleTrap (keyHandle k))
    | some _ => .inl (s.writeTile k (e * n) (toLe d.value.toNat n), [])

/-- An engine's completion write: the oldest operation of its queue, once its payload stands and GT is past the times
of the release (R198, R236). -/
def execCompletionWrite (core : Nat) (eng : Bool) (s : State) : Out :=
  match (s.core core).copies eng with
  | [] => .next s
  | o :: _ =>
    match o.done with
    | none => .next s
    | some d =>
      if !o.moved || !s.issues core || !s.completionReady o d then .next s
      else
        let (s, bad) := s.completionErrors o.org d
        if bad then .next ((s.endCopy eng o).engineCheck o.org)
        else match s.writeCompletion o.org d with
          | .inr t => if t.code = Code.translation then .next s else .next ((s.endCopy eng o).runFault o.id o.org t)
          | .inl (t, times) => .next ((t.foldTimes core times).endCopy eng o)

/-! ## FEED (R238, R246) -/

/-- Does a core's block have the pair's whole engine (spec/14 R243, R244)? -/
def State.wholeEngine (s : State) (c : Nat) : Bool := ((s.blockOf c).map (·.whole)).getD false

/-- The streams that serve a core's block: 0 the leader core's, 1 the follower's. -/
def State.streamOf (s : State) (c : Nat) : Nat := s.leader c % 2

/-- Bytes of a stream (spec/14 R243). -/
def State.fifoBytes (s : State) (c : Nat) (f : Fifo) : Nat :=
  (if f = .m then 8192 else 65536) / (if s.wholeEngine c then 1 else 2)

/-- Half bytes a FEED appends. -/
def FeedOp.nibbles (f : FeedOp) (t : Tile) : Nat := f.count * (if f.tr then t.rows else t.cols) * elemNibbles t.fmt

/-- Sites of the elements of its tile that a FEED reads: its rows, or with .TR its columns. -/
def FeedOp.readsTile (f : FeedOp) (t : Tile) (x : Site) : Bool :=
  if f.tr then (List.range t.rows).any fun r => elemSite f.tile t.fmt (r * t.cols + f.first) f.count x
  else elemSite f.tile t.fmt (f.first * t.cols) (f.count * t.cols) x

/-- Half bytes in a stream or accepted for it. -/
def State.fifoUsed (s : State) (pair stream : Nat) (f : Fifo) : Nat :=
  heldNibbles (tget [] (s.pair pair).streams (streamKey stream f))
    + (s.feeds.filter fun x => pairOf x.org.core = pair && x.stream = stream && x.fifo == f).foldl
        (fun n x => n + x.nibbles (s.tile x.tile)) 0

/-- One warp's FEED. -/
def State.feedOne (s : State) (l : Nat) (o : Ops) (tr : Bool) (f : Fifo) : State × Bool :=
  let c := coreOf l
  let h := handleOf o.a
  match s.tileBound c h with
  | none => (s.trap l (handleTrap h), false)
  | some k =>
    let t := s.tile k
    let first := (s.src l .int o.b).toNat
    let n := (s.src l .int o.c).toNat
    let op : FeedOp := { id := 0, org := s.originOf l, tile := k, stream := s.streamOf c, fifo := f, tr := tr,
                         first := first, count := n }
    if n = 0 then (s.trap l reservedTrap, false)
    else if (if tr then t.cols else t.rows) < first + n then
      let (x, s) := s.free
      (s.trap l { code := Code.tileBounds, addr := x, info := h }, false)
    else if f = .m ∧ t.fmt ≠ .int32 ∧ t.fmt ≠ .uint32 ∨ 2 * s.fifoBytes c f < op.nibbles t then (s.trap l reservedTrap, false)
    else if 2 * s.fifoBytes c f < s.fifoUsed (pairOf c) op.stream f + op.nibbles t || s.counterFull [warpOf l] 3
        || !s.acquireFree (warpOf l) then (s, true)
    else
      let (id, s) := s.fresh
      (({ s with feeds := s.feeds ++ [{ op with id := id }] } : State).countUp (warpOf l) 3, false)

/-- FEED. -/
def execFeed (g : Guard) (o : Ops) (tr : Bool) (fifo : Fifo) (s : State) : Out :=
  .next (s.perWarp g fun s l => s.feedOne l o tr fifo)

/-- The domain tag of a FEED's steps (spec/15 R273). -/
def feedDir (t : Tile) (f : Fifo) (tr : Bool) : StepDir :=
  if !t.dom then .spatial
  else if !tr then .alongK
  else if f = .b then .alongJ else .alongI

/-- The rows or columns a FEED appends, each with its tag. -/
def FeedOp.runs (f : FeedOp) (t : Tile) : List FeedRun :=
  (List.range f.count).map fun q =>
    let j := f.first + q
    let es := if f.tr then (List.range t.rows).map fun r => t.elem (r * t.cols + j) else t.row j
    { elems := es.map (BitVec.ofNat 64), nibbles := elemNibbles t.fmt, dir := feedDir t f.fifo f.tr,
      handle := keyHandle f.tile, bind := t.bind, rows := t.rows, hlev := t.hlev, row := if f.tr then 0 else j,
      present := (List.range t.rows).map t.present }

/-- A FEED's rows reach their stream: in the issue order of its warp, once its turn at the tile has come. -/
def execFifoAppend (id : Nat) (s : State) : Out :=
  match s.feeds.find? fun f => f.id == id with
  | none => .next s
  | some f =>
    let w := f.org.warp
    let first := s.feeds.all fun x => x.org.warp ≠ w || id ≤ x.id || x.fifo ≠ f.fifo
    if !first || !s.tileTurn f.tile w id false then .next s
    else
      let rest : State := { s with feeds := s.feeds.filter fun x => x.id ≠ id }
      let (t, bad) := rest.meetErrors f.org (f.readsTile (s.tile f.tile)) []
      if bad then .next (((t.countDown w 3).settleTile f.tile).engineCheck f.org)
      else
        let runs := f.runs (s.tile f.tile)
        let t := t.modPair (pairOf f.org.core) fun p =>
          { p with streams := tset p.streams (streamKey f.stream f.fifo) (tget [] p.streams (streamKey f.stream f.fifo) ++ runs) }
        .next ((t.countDown w 3).settleTile f.tile)

end Sys2Proof.Machine
end

