-- ==== Sys2Proof/Machine/Matrix.lean ====
section
/-! DEFINITION. The paired matrix engine: windows, element accesses, MMA and MMAQ from issue to retirement, and drains
(spec/14 R243 to R258; spec/11 R195 to R197; spec/15 R273, R278; spec/03 R62, R63, R65). -/

namespace Sys2Proof.Machine

/-! ## Rows and windows (spec/11 R195, R196) -/

/-- The rows a core's block owns: first, and one past the last. -/
def State.blockRows (s : State) (c : Nat) : Nat × Nat :=
  if s.wholeEngine c then (0, 2048) else if s.leader c % 2 = 0 then (0, 1024) else (1024, 2048)

/-- The first of `n` rows from `a` that lies outside rows `lo` to `hi − 1`. -/
def firstOutside (lo hi a n : Nat) : Option Nat :=
  if n = 0 then none else if a < lo then some a else if hi < a + n then some (max a hi) else none

/-- The first row outside a lane's window, or beyond row 2,047, the pair's last (R195, R196, R250; DEDUCED for
instructions other than MMA, log entry 68). -/
def State.outside (s : State) (l a n : Nat) : Option Nat :=
  let w := (s.warp (warpOf l)).acwin.toNat
  firstOutside (w % 2 ^ 11) (min (w / 2 ^ 16 % 2 ^ 12) 2048) a n

/-- ACC_WINDOW. -/
def windowTrap (row : Nat) : Trap := { code := Code.accWindow, info := row % 65536 }

/-- Is an MMA of a warp in flight on rows that meet some (R197): one issued before `id`? -/
def State.mmaMeets (s : State) (w id a n : Nat) : Bool :=
  let p := s.pair (pairOf (w / 128))
  (p.queue ++ p.arrays.map (·.op)).any fun o => o.org.warp == w && o.id < id && meets o.row 64 a n

/-- Has a drain of a warp on rows that meet some not retired (R197, R252)? -/
def State.drainMeets (s : State) (w a n : Nat) : Bool :=
  (s.pair (pairOf (w / 128))).drains.any fun d => d.org.warp == w && meets d.first d.n a n

/-! ## MXWIN, MXZERO, MXLD, MXST (R251 to R253) -/

/-- The warp that a block's home warp number names, seen from a core of the block. -/
def State.blockWarp (s : State) (c w : Nat) : Nat :=
  let two := ((s.blockOf c).map Block.cores).getD [] |>.length
  (s.leader c + (if two = 2 then w % 2 else 0)) * 128 + w

/-- One lane's MXWIN. -/
def State.grantWindow (s : State) (o : Ops) (l : Nat) : State :=
  let c := coreOf l
  let w := (s.src l .int o.a).toNat
  let base := (s.src l .int o.b).toNat
  let lim := (s.src l .int o.c).toNat
  let rows := s.blockRows c
  if l ≠ s.leader c * 4096 then s.trap l (windowTrap 0xFFFF)
  else if 128 ≤ w || (s.warpLanes (s.blockWarp c w)).isEmpty || 2047 < base || 2048 < lim then s.trap l reservedTrap
  else match firstOutside rows.1 rows.2 base (lim - base) with
    | some r => s.trap l (windowTrap r)
    | none => s.modWarp (s.blockWarp c w) fun x => { x with acwin := BitVec.ofNat 32 (lim * 2 ^ 16 + base) }

/-- MXWIN. -/
def execMxwin (g : Guard) (o : Ops) (s : State) : Out :=
  .next ((s.execThreads g).foldl (fun t l => t.grantWindow o l) s)

/-- The accumulators with rows cleared. -/
def clearRows (acc : Tab W32) (a n : Nat) : Tab W32 := tclear acc (64 * a) (64 * n)

/-- Sites of accumulator rows. -/
def accSite (pair a n : Nat) : Site → Bool
  | .acc p r _ => p == pair && a ≤ r && r < a + n
  | _ => false

/-- One warp's MXZERO. -/
def State.zeroRows (o : Ops) (s : State) (l : Nat) : State × Bool :=
  let a := (s.src l .int o.a).toNat
  let n := (s.src l .int o.b).toNat
  if n = 0 ∨ 2048 < n then (s.trap l reservedTrap, false)
  else match s.outside l a n with
    | some r => (s.trap l (windowTrap r), false)
    | none =>
      if s.mmaMeets (warpOf l) s.nextId a n || s.drainMeets (warpOf l) a n then (s, true)
      else ((s.overwrite (accSite (pairOf (coreOf l)) a n)).modPair (pairOf (coreOf l)) fun p =>
        { p with acc := clearRows p.acc a n }, false)

/-- MXZERO. -/
def execMxzero (g : Guard) (o : Ops) (s : State) : Out := .next (s.perWarp g (State.zeroRows o))

/-- The key of an accumulator element. -/
def accKey (row col : Nat) : Nat := row * 64 + col % 64

/-- The row and column a lane's MXLD or MXST names, or its fault. -/
def State.accAt (s : State) (l : Nat) (o : Ops) : Nat ⊕ Trap :=
  let r := (s.src l .int o.a).toNat
  match s.outside l r 1 with
  | some _ => .inr (windowTrap r)
  | none => .inl (accKey r (s.src l .int o.b).toNat)

/-- Must some of the accesses wait for an MMA of their warp? -/
def State.accHeld (s : State) (rs : List (Nat × Nat)) : Bool :=
  rs.any fun p => s.mmaMeets (warpOf p.1) s.nextId (p.2 / 64) 1

/-- MXLD. -/
def execMxld (g : Guard) (o : Ops) (s : State) : Out :=
  if s.accHeld (leftsOf ((s.exec g).map fun l => (l, s.accAt l o))) then .next (s.hold .retry)
  else perLane g o.d s fun l => match s.accAt l o with
    | .inr t => .fault t
    | .inl k => .ok [tget 0 (s.pair (pairOf (coreOf l))).acc k]

/-- Sites of accumulators whose granule some writes of elements cover whole. -/
def accWhole (rs : List (Nat × Nat)) : Site → Bool
  | .acc p r c => let has (c : Nat) : Bool := rs.any fun x => pairOf (coreOf x.1) == p && x.2 == accKey r c
      has c && has (c + 1)
  | _ => false

/-- MXST. -/
def execMxst (g : Guard) (o : Ops) (s : State) : Out :=
  let rs := (s.execThreads g).map fun l => (l, s.accAt l o)
  if s.accHeld (leftsOf rs) then .next (s.hold .retry)
  else
    let t := (leftsOf rs).foldl (fun t p => t.modPair (pairOf (coreOf p.1)) fun x =>
      { x with acc := tput 0 x.acc p.2 (s.src p.1 .fp32 o.c) }) (s.overwrite (accWhole (leftsOf rs)))
    .next (t.trapEach (rightsOf rs))

/-! ## MMA and MMAQ: issue (R245, R250) -/

/-- Entries of the pair's queue. -/
def mmaQueue : Nat := 32

/-- One lane's MMA or MMAQ; none while the queue, or MXC, is full. -/
def State.queueMma (o : Ops) (fa fb : Fmt) (grp : Option GroupSize) (s : State) (l : Nat) : Option State :=
  let c := coreOf l
  let b := (s.src l .int o.a).toNat
  match s.outside l b 64 with
  | some r => some (s.trap l (windowTrap r))
  | none =>
    if mmaQueue ≤ (s.pair (pairOf c)).queue.length || s.counterFull [warpOf l] 2 then none
    else
      let (id, t) := s.fresh
      let op : MmaOp := { id := id, org := s.originOf l, fa := fa, fb := fb, grp := grp, row := b, stream := s.streamOf c }
      some ((t.modPair (pairOf c) fun p => { p with queue := p.queue ++ [op] }).countUp (warpOf l) 2)

/-- MMA. -/
def execMma (g : Guard) (o : Ops) (fa fb : Fmt) (s : State) : Out :=
  .next (s.inOrder (s.execThreads g) (State.queueMma o fa fb none))

/-- MMAQ. -/
def execMmaq (g : Guard) (o : Ops) (grp : GroupSize) (fa fb : Fmt) (s : State) : Out :=
  .next (s.inOrder (s.execThreads g) (State.queueMma o fa fb (some grp)))

/-! ## Streams (R246, spec/15 R273) -/

/-- The half bytes of an element, low first. -/
def nibblesOf (n : Nat) (x : W64) : List Nat := (List.range n).map fun i => x.toNat / 16 ^ i % 16

/-- The first half bytes of a stream, and the rest of the stream. -/
def takeNibbles (n : Nat) : List FeedRun → List Nat × List FeedRun
  | [] => ([], [])
  | r :: rs =>
    let ns := r.elems.flatMap (nibblesOf r.nibbles)
    if ns.length ≤ n then
      let t := takeNibbles (n - ns.length) rs
      (ns ++ t.1, t.2)
    else if n = 0 then ([], r :: rs)
    else if n % r.nibbles = 0 then
      (ns.take n, { r with elems := r.elems.drop (n / r.nibbles), offset := r.offset + n / r.nibbles } :: rs)
    else (ns.take n, { r with elems := (ns.drop n).map (BitVec.ofNat 64), nibbles := 1, offset := r.offset + n / r.nibbles } :: rs)

/-- The run that supplies the half byte at an offset, and the element of it. -/
def runAt (n : Nat) : List FeedRun → Option (FeedRun × Nat)
  | [] => none
  | r :: rs =>
    let len := r.elems.length * r.nibbles
    if n < len then some (r, r.offset + n / r.nibbles) else runAt (n - len) rs

/-- Half bytes as elements of so many each. -/
def groupNibbles (w : Nat) : Nat → List Nat → List Nat
  | 0, _ => []
  | k + 1, ns => ((ns.take w).foldr (fun x acc => x + 16 * acc) 0) :: groupNibbles w k (ns.drop w)

/-- Elements of `k` steps: element e of the list is element e mod 64 of step e div 64; FP6 positions ignore bits [7:6].
-/
def stepElems (f : Fmt) (k : Nat) (ns : List Nat) : List Nat :=
  (groupNibbles (elemNibbles f) (64 * k) ns).map (· % 2 ^ f.width)

/-- K of a format (R248). -/
def chunkSize (f : Fmt) : Nat :=
  match f with
  | .bf16 | .fp16 => 32
  | .int4 => 128
  | _ => 64

/-- Half bytes an operation takes of A and of B. -/
def opNibbles (f : Fmt) : Nat := 64 * chunkSize f * elemNibbles f

/-- A group's size. -/
def groupK : GroupSize → Nat
  | .g32 => 32
  | .g64 => 64
  | .g128 => 128

/-- Segments of an operation (R249). -/
def MmaOp.segments (o : MmaOp) : Nat :=
  match o.grp with
  | some g => max (chunkSize o.fa / groupK g) 1
  | none => 0

/-- The exponent −w of a Haar step's weight (R273): L for an approximation row, l for a row of level l. -/
def stepWeight (rows hlev row : Nat) : Nat :=
  ((List.range hlev).find? fun i => rows / 2 ^ (i + 1) ≤ row).map (· + 1) |>.getD hlev

/-- The handle that fed the first A step which pairs wrongly, if one does (R273). -/
def firstMismatch (ta tb : List FeedRun) : Option Nat :=
  let first := (ta.head?).getD { elems := [], nibbles := 1 }
  let bad (p : FeedRun × FeedRun) : Bool :=
    match first.dir with
    | .spatial => p.1.dir != .spatial || p.2.dir != .spatial
    | .alongI => p.1.dir != .alongI || p.1.bind != first.bind || p.2.dir != .spatial
    | .alongK => p.1.dir != .alongK || p.2.dir != .alongK || p.1.rows != p.2.rows || p.1.hlev != p.2.hlev || p.1.row != p.2.row
    | .alongJ => true
  ((ta.zip tb).find? bad).map fun p => p.1.handle

/-- The tag of each step: that of the run its first element comes from. -/
def stepTags (f : Fmt) (k : Nat) (runs : List FeedRun) : List FeedRun :=
  (List.range k).map fun q => ((runAt (64 * q * elemNibbles f) runs).map (·.1)).getD { elems := [], nibbles := 1 }

/-- Is the row of A present in some step? Only a step along i can lack it. -/
def rowInSome (f : Fmt) (k : Nat) (runs : List FeedRun) (i : Nat) : Bool :=
  (List.range k).any fun q => match runAt ((64 * q + i) * elemNibbles f) runs with
    | some (r, e) => r.present.getD e true
    | none => true

/-- Is a step along k present? -/
def FeedRun.here (r : FeedRun) : Bool := r.dir != .alongK || r.present.getD r.row true

/-- What an operation takes from its streams at its start (R247, R273). -/
def MmaOp.start (o : MmaOp) (ra rb : List FeedRun) (params : List Nat) : MmaRun :=
  let k := chunkSize o.fa
  let ea := stepElems o.fa k (takeNibbles (opNibbles o.fa) ra).1
  let eb := stepElems o.fb k (takeNibbles (opNibbles o.fb) rb).1
  let ta := stepTags o.fa k ra
  let tb := stepTags o.fb k rb
  let here := (ta.zip tb).map fun p => p.1.here && p.2.here
  let pick (es : List Nat) (i : Nat) : List W32 :=
    (List.range k).map fun q => if here.getD q true then BitVec.ofNat 32 (es.getD (64 * q + i) 0) else 0
  let along := (ta.head?).any fun r => r.dir == .alongI
  { op := o, a := (List.range 64).map (pick ea), b := (List.range 64).map (pick eb), params := params.map (BitVec.ofNat 32),
    weights := ta.map fun r => if r.dir == .alongK then stepWeight r.rows r.hlev r.row else 0,
    skip := (List.range 64).map fun i => along && !rowInSome o.fa k ra i }

/-- The index of the first group parameter word that fails its check (R62, R249). -/
def badParam (f : Fmt) (ps : List Nat) : Option Nat :=
  (List.range ps.length).find? fun i =>
    let x := ps.getD i 0
    x / 2 ^ 8 % 2 ^ 8 ≠ 0 || (f == .int4 && x / 2 ^ 4 % 2 ^ 4 ≠ 0)

/-! ## The engine (R247 to R249) -/

/-- Storage errors in a pair's engine that a test picks; the state, and whether one is uncorrectable. -/
def State.engineErrors (s : State) (o : Origin) (p : Site → Bool) : State × Bool :=
  if s.upsets.isEmpty then (s, false) else s.consume p o.core (s.launchNum o.core)

/-- Sites of the words that an operation takes from a block's streams: so many half bytes of each. -/
def fifoTaken (pair stream : Nat) (took : Fifo → Nat) : Site → Bool
  | .fifo p st f w => p == pair && st == stream && 16 * w < took f
  | _ => false

/-- The errors of a block's streams once an operation has taken its words: those of the words behind move up. -/
def State.fifoShift (s : State) (pair stream : Nat) (took : Fifo → Nat) : State :=
  if s.upsets.isEmpty then s
  else { s with upsets := (s.upsets.filter fun u => !fifoTaken pair stream took u.site).map fun u => match u.site with
    | .fifo p st f w => if p = pair ∧ st = stream then { u with site := .fifo p st f (w - took f / 16) } else u
    | _ => u }

/-- An MMA ended without writing: MXC falls and its lane takes the fault. -/
def State.failMma (s : State) (o : MmaOp) (t : Trap) : State := (s.countDown o.org.warp 2).runFault o.id o.org t

/-- Has the operation at the head of a pair's queue every element in its FIFOs? -/
def Pair.headFed (p : Pair) : Bool :=
  match p.queue with
  | [] => false
  | o :: _ =>
    let held (f : Fifo) : Nat := heldNibbles (tget [] p.streams (streamKey o.stream f))
    opNibbles o.fa ≤ held .a && opNibbles o.fb ≤ held .b && 512 * o.segments ≤ held .m

/-- Can it start: is there room in the arrays too? -/
def Pair.startable (p : Pair) : Bool := p.arrays.length < 2 && p.headFed

/-- The head operation takes its elements and occupies the arrays, once they are free and its streams hold every
element it reads (R247). -/
def execMmaStart (pair : Nat) (s : State) : Out :=
  let p := s.pair pair
  match p.queue with
  | [] => .next s
  | o :: rest =>
    let runs (f : Fifo) : List FeedRun := tget [] p.streams (streamKey o.stream f)
    let np := 512 * o.segments
    if !p.startable then .next s
    else
      let ps := groupNibbles 8 (64 * o.segments) (takeNibbles np (runs .m)).1
      let k := chunkSize o.fa
      let t := s.modPair pair fun p =>
        let put (x : Tab (List FeedRun)) (f : Fifo) (n : Nat) : Tab (List FeedRun) :=
          tput [] x (streamKey o.stream f) (takeNibbles n (runs f)).2
        { p with queue := rest
                 streams := put (put (put p.streams .a (opNibbles o.fa)) .b (opNibbles o.fb)) .m np }
      let took (f : Fifo) : Nat := match f with
        | .a => opNibbles o.fa
        | .b => opNibbles o.fb
        | .m => np
      let (t, bad) := t.engineErrors o.org (fifoTaken pair o.stream took)
      let t := t.fifoShift pair o.stream took
      if bad then .next ((t.countDown o.org.warp 2).engineCheck o.org)
      else match firstMismatch (stepTags o.fa k (runs .a)) (stepTags o.fb k (runs .b)) with
        | some h => .next (t.failMma o { code := Code.domain, info := h })
        | none => match badParam o.fa ps with
          | some i => .next (t.failMma o (reservedTrap i))
          | none => .next (t.modPair pair fun p => { p with arrays := p.arrays ++ [o.start (runs .a) (runs .b) ps] })

/-- An element's value (R248). -/
def matValue (f : Fmt) (x : W32) : FVal := elemValue f x.toNat

/-- A product of two elements (R248): of integers, an integer, whose 0 is no −0. -/
def matProduct (fa fb : Fmt) (x y : W32) : FVal :=
  if fa.isInt && fb.isInt then .ofInt (intOf fa x.toNat * intOf fb y.toNat) else (exactMul (matValue fa x) (matValue fb y)).1

/-- The element after an MMA (R65): one rounding of C and every product. -/
def mmaElem (fa fb : Fmt) (c : W32) (a b : List W32) (w : List Nat) : W32 :=
  let ps := (a.zip (b.zip w)).map fun p => FVal.scale (-(p.2.2 : Int)) (matProduct fa fb p.1 p.2.1)
  BitVec.ofNat 32 ((exactSum .rne (decodeFmt .fp32 c.toNat :: ps)).1.round .fp32 Ctl.nearest 0).1

/-- The stored q of an asymmetric element, unsigned (R62). -/
def qValue (x : W32) : FVal := .ofInt x.toNat

/-- One segment of an MMAQ on an element (R63). DESIGN CHOICE: a zero takes the sign of IEEE products and sums (log entry
65). -/
def mmaqSegment (fb : Fmt) (word : W32) (c : W32) (a b : List W32) (w : List Nat) : W32 :=
  let x := (b.zip w).map fun p => FVal.scale (-(p.2 : Int)) (matValue fb p.1)
  let qx := (exactSum .rne ((a.zip x).map fun p => (exactMul (qValue p.1) p.2).1)).1
  let zx := (exactMul (.ofInt (word.toNat % 2 ^ 8)) (exactSum .rne x).1).1
  let d := (exactSum .rne [qx, zx.negate]).1
  let t := (exactMul (decodeFmt .fp16 (word.toNat / 2 ^ 16)) d).1
  BitVec.ofNat 32 ((exactSum .rne [decodeFmt .fp32 c.toNat, t]).1.round .fp32 Ctl.nearest 0).1

/-- The element after an MMAQ: its segments in ascending order. -/
def mmaqElem (r : MmaRun) (g i : Nat) (a b : List W32) (c : W32) : W32 :=
  (List.range r.op.segments).foldl (fun c q =>
    let cut {α : Type} (xs : List α) : List α := (xs.drop (q * g)).take g
    mmaqSegment r.op.fb (r.params.getD (64 * q + i) 0) c (cut a) (cut b) (cut r.weights)) c

/-- The element (i, j) of an operation. -/
def MmaRun.elem (r : MmaRun) (i j : Nat) (c : W32) : W32 :=
  let a := r.a.getD i []
  let b := r.b.getD j []
  match r.op.grp with
  | some g => mmaqElem r (groupK g) i a b c
  | none => mmaElem r.op.fa r.op.fb c a b r.weights

/-- The accumulators after an operation: rows it skips keep their values. -/
def MmaRun.apply (r : MmaRun) (acc : Tab W32) : Tab W32 :=
  (List.range 64).foldl (fun x i =>
    if r.skip.getD i false then x
    else (List.range 64).foldl (fun x j =>
      let k := accKey (r.op.row + i) j
      tput 0 x k (r.elem i j (tget 0 acc k))) x) acc

/-- Sites of the rows that an operation reads and writes: those that it does not skip. -/
def MmaRun.reads (r : MmaRun) (pair : Nat) : Site → Bool
  | .acc p i _ => accSite pair r.op.row 64 (.acc p i 0) && !r.skip.getD (i - r.op.row) false
  | _ => false

/-- The oldest operation in the arrays retires: it writes its rows, and MXC falls. -/
def execMmaRetire (pair : Nat) (s : State) : Out :=
  match (s.pair pair).arrays with
  | [] => .next s
  | r :: rest =>
    let (t, bad) := s.engineErrors r.op.org (r.reads pair)
    let t := t.countDown r.op.org.warp 2
    if bad then .next ((t.modPair pair fun p => { p with arrays := rest }).engineCheck r.op.org)
    else .next (t.modPair pair fun p => { p with arrays := rest, acc := r.apply p.acc })

/-! ## MXDRAIN: issue (R254) -/

/-- Is the destination operand a tile? -/
def isTile : Operand → Bool
  | .t _ => true
  | _ => false

/-- The Haar word of a drain of n rows (R100, R254): L and k, or none for RESERVED_FIELD. -/
def haarWord (x n : Nat) : Option (Nat × Nat) :=
  let l := x % 8
  if x / 64 ≠ 0 ∨ x / 8 % 2 ≠ 0 ∨ l = 0 ∨ l = 7 ∨ n % 2 ^ l ≠ 0 then none else some (l, x / 16 % 4)

/-- A drain's destination checked. -/
def State.drainDest (s : State) (l : Nat) (o : Ops) (fmt : Fmt) (n : Nat) : DrainDest ⊕ Trap :=
  if isTile o.d then
    let h := handleOf o.d
    match s.tileBound (coreOf l) h with
    | none => .inr (handleTrap h)
    | some k =>
      let t := s.tile k
      if t.cols ≠ 64 ∨ t.rows ≠ n ∨ t.fmt ≠ fmt then
        .inr { code := Code.tileBounds, addr := BitVec.ofNat 64 (64 * n), info := h }
      else .inl (.tile k)
  else
    let va := s.src64 l o.d
    if 5 ≤ fmt.code then .inr reservedTrap
    else if va.toNat % 64 ≠ 0 then .inr { code := Code.align, addr := va, info := 6 }
    else .inl (.mem va)

/-- The checks of MXDRAIN in order; the operation, or the fault. -/
def State.drainOf? (s : State) (l : Nat) (o : Ops) (amax : Option Scope) (add haar : Bool) (fmt : Fmt) (rm : Rm) :
    DrainOp ⊕ Trap :=
  let a := (s.src l .int o.a).toNat
  let b0 := a % 2 ^ 11
  let n := a / 2 ^ 16 % 2 ^ 11 + 1
  let w := s.warp (warpOf l)
  if a / 2 ^ 27 ≠ 0 ∨ a / 2 ^ 11 % 2 ^ 5 ≠ 0 ∨ 2048 < b0 + n then .inr reservedTrap
  else match s.outside l b0 n with
    | some r => .inr (windowTrap r)
    | none =>
      if 7 ≤ fmt.code then .inr reservedTrap
      else
        let word := s.src64 l o.b
        if amax.isSome ∧ word.toNat % 4 ≠ 0 then .inr { code := Code.align, addr := word, info := 2 }
        else
          let hw : Option (Option (Nat × Nat)) :=
            if haar then (if isTile o.d then (haarWord (s.src l .int o.c).toNat n).map some else none) else some none
          match hw with
          | none => .inr reservedTrap
          | some h => match s.drainDest l o fmt n with
            | .inr t => .inr t
            | .inl dest =>
              .inl { id := 0, org := s.originOf l, first := b0, n := n, dest := dest, add := add,
                     haar := h.map fun p => (p.1, p.2, tget 0 w.th p.2), fmt := fmt, rm := rm,
                     amax := amax.map fun sc => (word, sc),
                     after := match amax with
                       | some sc => max (tget 0 w.swt sc.code) (tget 0 w.owt sc.code)
                       | none => 0 }

/-- One warp's MXDRAIN: it joins the pair's drain engine, counted in MXC. DESIGN CHOICE: RSCTR of the lane does not
advance (log entry 61). -/
def State.queueDrain (o : Ops) (amax : Option Scope) (add haar : Bool) (fmt : Fmt) (rm : Rm) (s : State) (l : Nat) :
    State × Bool :=
  match s.drainOf? l o amax add haar fmt rm with
  | .inr t => (s.trap l t, false)
  | .inl d =>
    match s.sealedTrap (coreOf l) (s.capxOf (coreOf l)) (destsLeft d.dests) with
    | some t => (s.trap l t, false)
    | none =>
      if s.counterFull [warpOf l] 2 || !s.acquireFree (warpOf l) then (s, true)
      else
        let (id, t) := s.fresh
        ((t.modPair (pairOf (coreOf l)) fun p => { p with drains := p.drains ++ [{ d with id := id }] }).countUp (warpOf l) 2,
          false)

/-- MXDRAIN. -/
def execMxdrain (g : Guard) (o : Ops) (amax : Option Scope) (add haar : Bool) (fmt : Fmt) (rm : Rm) (s : State) : Out :=
  .next (s.perWarp g (State.queueDrain o amax add haar fmt rm))

/-! ## The drain engine (R255 to R257, spec/15 R278) -/

/-- The accumulator rows a drain reads, as bits. -/
def Pair.rows (p : Pair) (a n : Nat) : List (List Nat) :=
  (List.range n).map fun i => (List.range 64).map fun j => (tget 0 p.acc (accKey (a + i) j)).toNat

/-- Bits as FP32 values. -/
def fp32Rows (x : List (List Nat)) : List VRow := x.map fun r => r.map (decodeFmt .fp32)

/-- The largest magnitude of rows of FP32 bits (R255). -/
def maxMagnitude (x : List (List Nat)) : Nat := x.foldl (fun m r => r.foldl (fun m b => max m (b % 2 ^ 31)) m) 0

/-- A row of bits and flags; values before rounding; whether the row stays present. -/
structure DrainRow where
  vals : VRow
  out : List (Nat × Flags)
  here : Bool := true
  deriving Inhabited

/-- The row's elements in the drain's format; FP32 bits pass unchanged. Element j of row i takes RS index 64i + j. -/
def DrainOp.roundRow (d : DrainOp) (i : Nat) (bits : List Nat) (vals : VRow) : List (Nat × Flags) :=
  if d.fmt = .fp32 ∧ d.haar.isNone then bits.map fun b => (b, 0)
  else (indexed vals).map fun x => x.2.round d.fmt (ctlOf d.org.mode d.fmt d.rm) (d.org.rs (64 * i + x.1))

/-- Row i as it is drained, from its accumulators' bits: transformed with .HAAR, a dropped detail row +0 and absent
(R255); as it stands where a tag mismatch was resolved (spec/15 R278). -/
def DrainOp.drained (d : DrainOp) (i : Nat) (x : List Nat) : DrainRow :=
  let raw : VRow := x.map (decodeFmt .fp32)
  match d.haar with
  | none => { vals := raw, out := d.roundRow i x raw }
  | some (l, _, th) =>
    if d.mixed then { vals := raw, out := [] }
    else
      let y := (haarForward l (fp32Rows d.taken) []).getD i []
      let v := d.roundRow i x y
      let here := !(isDetail d.n l i && rowBelow th d.fmt (v.map (·.1)))
      { vals := y, out := if here then v else v.map fun e => (0, e.2), here := here }

/-- One element added to its destination (R255). -/
def DrainOp.addElem (d : DrainOp) (e : Nat) (old : FVal) (x : FVal) : Nat × Flags :=
  let c := ctlOf d.org.mode d.fmt d.rm
  let r := exactSum c.rm [flushIn d.org.mode d.fmt old, x]
  let y := r.1.round d.fmt c (d.org.rs e)
  (y.1, r.2 ||| y.2)

/-- A row added to an old row. -/
def DrainOp.addRow (d : DrainOp) (i : Nat) (old vals : VRow) : List (Nat × Flags) :=
  (indexed (old.zip vals)).map fun x => d.addElem (64 * i + x.1) x.2.1 x.2.2

/-- Do a tile's tag and a drain that adds to it agree (R255, spec/15 R278)? -/
def DrainOp.agrees (d : DrainOp) (t : Tile) : Bool :=
  match d.haar with
  | some (l, _, _) => t.dom && t.hlev == l
  | none => !t.dom

/-- Row i of a tile after a drain's row, with the flags of its roundings (R255). -/
def DrainOp.intoRow (d : DrainOp) (t : Tile) (i : Nat) (x : List Nat) : List Nat × Flags :=
  let r := d.drained i x
  let bits (z : List (Nat × Flags)) : List Nat × Flags := (z.map (·.1), flagsOf [z])
  if !d.add then bits r.out
  else if d.haar.isSome ∧ !d.mixed then
    let f := flagsOf [r.out]
    if r.here then
      let z := bits (d.addRow i (t.values.getD i []) r.vals)
      (z.1, f ||| z.2)
    else if t.present i then (t.row i, f) else ((t.row i).map fun _ => 0, f)
  else bits (d.addRow i ((t.row i).map (decodeFmt t.fmt)) r.vals)

/-- The tag a drain leaves (R255, spec/15 R278). -/
def DrainOp.retag (d : DrainOp) (t : Tile) : Tile :=
  let here (i : Nat) : Bool := (d.drained i (d.taken.getD i [])).here
  match d.haar with
  | none => { t with dom := false, hlev := 0, thk := 0, pv := false }
  | some (l, k, _) =>
    if d.mixed then { t with dom := false, hlev := 0, thk := 0, pv := false }
    else { t with dom := true, hlev := l, thk := k, pv := true,
                  pres := presenceOf t.rows fun i => here i || d.add && t.present i }

/-- The pieces of an element of a memory destination. -/
def DrainOp.piece (d : DrainOp) (va : W64) (e : Nat) : Piece :=
  ⟨bitAddr ((8 * (va.toNat + d.fmt.width / 8 * e) : Nat) : Int), d.fmt.width, 0⟩

/-- Elements of a drain written to memory in order, up to the first fault, with their flags; an addition reads its
element where it stands (R215). -/
def DrainOp.writeMem (d : DrainOp) (c capx : Nat) (launch : W32) (va : W64) :
    List (Nat × FVal × Nat × Flags) → EngineRun → Flags → EngineRun × Option Trap × Flags
  | [], r, f => (r, none, f)
  | (e, x, b, fl) :: rest, r, f =>
    let p := d.piece va e
    let y : (Nat × Flags) ⊕ Trap := if d.add then
        (match r.1.readOwned c capx p with
          | .inr t => .inr t
          | .inl old => .inl (d.addElem e (decodeFmt d.fmt old) x))
      else .inl (b, fl)
    match y with
    | .inr t => (r, some t, f)
    | .inl (b, fl) => match writePiece c capx launch r p b with
      | .inr t => (r, some t, f)
      | .inl r => d.writeMem c capx launch va rest r (f ||| fl)

/-- A drain ended: MXC falls, its times return to its warp (R256), and its tile leaves ENGINE. -/
def State.endDrain (s : State) (pair : Nat) (d : DrainOp) (times : Tab Nat) : State :=
  let s := s.modPair pair fun p => { p with drains := p.drains.filter fun x => x.id ≠ d.id }
  let s := (s.countDown d.org.warp 2).wrote d.org.warp times
  match d.dest with
  | .tile k => (if d.started && !d.moved then s.modTile k fun t => { t with engine := false } else s).settleTile k
  | .mem _ => s

/-- A drain and what its run has done so far. -/
structure DrainStep where
  st : State
  op : DrainOp
  fault : Option Trap := none
  deriving Inhabited

/-- A drain as its run begins: a transform reads all its rows, a tile enters ENGINE, and a Haar tile that the sum makes
spatial is reconstructed in place; DOMAIN under DOMPOL 1 (R255, spec/15 R262, R278). -/
def State.beginDrain (s : State) (pair : Nat) (d : DrainOp) : DrainStep :=
  if d.started then { st := s, op := d }
  else
    let d := { d with started := true, taken := if d.haar.isSome then (s.pair pair).rows d.first d.n else [] }
    match d.dest with
    | .mem _ => { st := s, op := d }
    | .tile k =>
      let t := s.tile k
      if !d.add || d.agrees t then { st := s.modTile k fun t => { t with engine := true }, op := d }
      else if dompol d.org.mode then { st := s, op := d, fault := some (domainTrap k) }
      else
        let back := if t.dom then roundRows t.fmt (ctlOf d.org.mode t.fmt d.rm) d.org.rs t.cols (t.spatial t.values) else []
        let s := if t.dom then s.fillTile k 0 t.bytes (dataOf t.fmt t.cols (bitsOf back)) else s
        { st := s.modTile k fun t => { t with engine := true }
          op := { d with mixed := true, flags := d.flags ||| flagsOf back } }

/-- The bits of the drain's next row: read when the transform began, or now. -/
def State.nextRow (s : State) (pair : Nat) (d : DrainOp) : List Nat :=
  if d.haar.isSome then d.taken.getD d.row [] else ((s.pair pair).rows (d.first + d.row) 1).getD 0 []

/-- A drain's next row written (R255). -/
def State.drainRow (s : State) (pair : Nat) (d : DrainOp) : DrainStep :=
  let x := s.nextRow pair d
  let i := d.row
  let d := { d with row := i + 1, max := BitVec.ofNat 32 (max d.max.toNat (maxMagnitude [x])) }
  match d.dest with
  | .tile k =>
    let t := s.tile k
    let z := d.intoRow t i x
    let data := (indexed z.1).foldl (fun y e => putElem t.fmt y (64 * i + e.1) e.2) t.data
    { st := s.fillTile k (tileBytes t.fmt (64 * i)) (tileBytes t.fmt 64) data, op := { d with flags := d.flags ||| z.2 } }
  | .mem va =>
    let (c, capx) := s.spaceOf d.org
    let r := d.drained i x
    let items := (indexed (r.vals.zip r.out)).map fun p => (64 * i + p.1, p.2.1, p.2.2.1, p.2.2.2)
    let w := d.writeMem c capx (s.numOf d.org) va items (s, []) d.flags
    let times := w.1.1.timesOf c w.1.2
    { st := w.1.1.foldTimes c times, op := { d with flags := w.2.2, times := laterTimes d.times times }, fault := w.2.1 }

/-- At most so many rows written, in order, up to the first fault. -/
def State.drainRows (s : State) (pair : Nat) (d : DrainOp) : Nat → DrainStep
  | 0 => { st := s, op := d }
  | n + 1 =>
    if d.n ≤ d.row then { st := s, op := d }
    else
      let r := s.drainRow pair d
      if r.fault.isSome then r else r.st.drainRows pair r.op n

/-- The drain in the engine's hands in place of itself as it was. -/
def State.putDrain (s : State) (pair : Nat) (d : DrainOp) : State :=
  s.modPair pair fun p => { p with drains := p.drains.map fun x => if x.id = d.id then d else x }

/-- The payload is written: the tag follows the elements (spec/26 R375), the flags reach the supplying lane, and the
drain ends, or its AMAX update is next (R255 to R257). -/
def State.drainDone (s : State) (pair : Nat) (d : DrainOp) : State :=
  let s := s.modLane d.org.lane (·.sticky d.flags)
  let s := match d.dest with
    | .tile k => s.modTile k fun t => { d.retag t with engine := false }
    | .mem _ => s
  if d.amax.isNone then s.endDrain pair { d with moved := true } d.times
  else
    let s := s.putDrain pair { d with moved := true }
    match d.dest with
    | .tile k => s.settleTile k
    | .mem _ => s

/-- May a drain run: its turn at its tile, or its lines of memory free for it, with earlier accesses done (R197, R213,
R215)? -/
def State.drainReady (s : State) (d : DrainOp) : Bool :=
  let w := d.org.warp
  match d.dest with
  | .tile k => s.tileTurn k w d.id true
  | .mem _ =>
    let ps := destsLeft d.dests
    s.piecesClear w d.id ps && s.enginesClear w d.id ps && s.piecesWhole d.id d.org.core ps && s.mayOwn d.id d.org.core ps

/-- The next drain in the engine: the one under way, else the first whose warp's MMAs have retired. -/
def State.nextDrain (s : State) (pair : Nat) : Option DrainOp :=
  let ds := (s.pair pair).drains
  (ds.find? fun d => d.started && !d.moved).orElse fun _ =>
    ds.find? fun d => !d.moved && !s.mmaMeets d.org.warp d.id d.first d.n

/-- What a drain reads of storage in its next `n` rows meets the errors there (spec/26 R372). -/
def State.drainErrors (s : State) (pair : Nat) (d : DrainOp) (n : Nat) : State × Bool :=
  let tile (x : Site) : Bool := match d.dest with
    | .tile k => d.add && elemSite k d.fmt (64 * d.row) (64 * min n (d.n - d.row)) x
    | .mem _ => false
  let (s, bad1) := s.engineErrors d.org (if d.haar.isNone then accSite pair (d.first + d.row) (min n (d.n - d.row))
    else fun x => !d.started && accSite pair d.first d.n x)
  let ps := ((d.dests.1.drop d.row).take n).flatten
  let (s, bad2) := s.meetErrors d.org tile (if d.add then ps else [])
  let (s, bad3) := if d.add then (s, false) else s.storeErrors d.org d.dests.1.flatten ps
  (s, bad1 || bad2 || bad3)

/-- A drain ends at a fault of its run: what it wrote stands (R256); one whose page firmware must still map stays. -/
def State.drainStop (s : State) (pair : Nat) (r : DrainStep) (t : Trap) : State :=
  if t.code = Code.translation then s
  else ((r.st.modLane r.op.org.lane (·.sticky r.op.flags)).endDrain pair r.op r.op.times).runFault r.op.id r.op.org t

/-- Does the drain engine go on with a drain now? After a halt it does for an access that waits behind it alone: the
row it writes is finished in the step that writes it (R258, spec/24 R354). -/
def State.drainRuns (s : State) (d : DrainOp) : Bool :=
  s.runsOn d.org.core d.id (s.ops.any MemOp.owed && s.halfLine d.id) && s.drainReady d

/-- The drain engine goes on with its next drain, by at most `n` rows, or ends it once all are written (R255, R256). -/
def execDrainRun (pair : Nat) (n : Nat) (s : State) : Out :=
  match s.nextDrain pair with
  | none => .next s
  | some d =>
    if !s.drainRuns d then .next s
    else if d.started && d.n ≤ d.row then .next (s.drainDone pair d)
    else
      let (t, bad) := s.drainErrors pair d n
      if bad then .next ((t.endDrain pair d []).engineCheck d.org)
      else
        let b := t.beginDrain pair d
        let r := if b.fault.isSome then b else b.st.drainRows pair b.op n
        match r.fault with
        | none => .next (r.st.putDrain pair r.op)
        | some e => .next (s.drainStop pair r e)

/-- A drain's AMAX update: an atomic maximum at the word's home, once its release allows it (R257). -/
def execAmaxUpdate (pair : Nat) (s : State) : Out :=
  match (s.pair pair).drains.find? fun d => d.moved && s.issues d.org.core with
  | none => .next s
  | some d =>
    match d.amax with
    | none => .next s
    | some (va, sc) =>
      let c := d.org.core
      if s.coreGt c < max (tget 0 d.times sc.code) d.after + 2 || !s.opsReturned d.org.warp d.id then .next s
      else match s.checkVa c (s.capxOf c) .write 4 va with
        | .inr t => if t.code = Code.translation then .next s
            else .next ((s.endDrain pair d d.times).runFault d.id d.org t)
        | .inl pa =>
          if !s.lineFree d.id pa 4 then .next s
          else
          let (s, bad) := s.consumeHome touchesSite pa 4 c (s.numOf d.org)
          if bad then .next ((s.endDrain pair d []).engineCheck d.org)
          else
            let old := leNat (s.readHome pa 4).1
            let (t, r) := s.agentWrite (s.numOf d.org) pa (toLe (max old d.max.toNat) 4)
            let t := t.ownDrop c (canonPa pa)
            let times := laterTimes d.times (t.timesOf c [r])
            .next ((t.foldTimes c times).endDrain pair d times)

end Sys2Proof.Machine
end

