-- ==== Sys2Proof/Machine/Guarded.lean ====
section
/-! DEFINITION. Guarded reals: intervals, the guarded instructions, and the Gecko (spec/16 R289 to R304; spec/03 R68). -/

namespace Sys2Proof.Machine

/-! ## Intervals (R289) -/

/-- An enclosure by its bounds. -/
structure Interval where
  lo : FVal
  hi : FVal
  deriving DecidableEq, Repr, Inhabited

/-- The whole line. -/
def Interval.whole : Interval := ⟨.inf true, .inf false⟩

/-- The exact 0. -/
def Interval.zero : Interval := ⟨.fin false 0 0, .fin false 0 0⟩

/-- The interval of a guarded register; an empty one is exact 0. -/
def GReg.interval (x : GReg) : Interval :=
  if x.handle = 0 then .zero else ⟨decodeFmt .fp32 x.lo.toNat, decodeFmt .fp32 x.hi.toNat⟩

/-- The lesser, and the greater, of two values. -/
def FVal.least (a b : FVal) : FVal := if a.cmp b = some 1 then b else a
def FVal.greatest (a b : FVal) : FVal := if a.cmp b = some (-1) then b else a

/-- An interval of two bounds; a bound that does not exist makes it the whole line. -/
def Interval.of (lo hi : FVal) : Interval := if lo.isNan || hi.isNan then .whole else ⟨lo, hi⟩

/-- The bounds before they are rounded (R289). -/
def Interval.add (a b : Interval) : Interval := .of (exactSum .rne [a.lo, b.lo]).1 (exactSum .rne [a.hi, b.hi]).1
def Interval.sub (a b : Interval) : Interval :=
  .of (exactSum .rne [a.lo, b.hi.negate]).1 (exactSum .rne [a.hi, b.lo.negate]).1
def Interval.neg (a : Interval) : Interval := ⟨a.hi.negate, a.lo.negate⟩
def Interval.mul (a b : Interval) : Interval :=
  let p := (exactMul a.lo b.lo).1
  let q := (exactMul a.lo b.hi).1
  let r := (exactMul a.hi b.lo).1
  let t := (exactMul a.hi b.hi).1
  if [p, q, r, t].any FVal.isNan then .whole
  else ⟨(p.least q).least (r.least t), (p.greatest q).greatest (r.greatest t)⟩
def Interval.sqr (a : Interval) : Interval :=
  let p := (exactMul a.lo a.lo).1
  let q := (exactMul a.hi a.hi).1
  let lo := if !a.lo.neg || a.lo.isZero then p else if a.hi.neg || a.hi.isZero then q else .fin false 0 0
  ⟨lo, p.greatest q⟩

/-- A bound in FP32, rounded outward; a zero is +0 (R68, R289). -/
def boundBits (rm : Rm) (x : FVal) : W32 :=
  let b := (x.round .fp32 { rm := rm, sat := false, ftzo := false } 0).1
  if b % 2 ^ 31 = 0 then 0 else BitVec.ofNat 32 b

/-- The sign that an enclosure decides (R290). -/
def Interval.decide (x : Interval) : Option Int :=
  if !x.lo.neg && !x.lo.isZero then some 1
  else if x.hi.neg && !x.hi.isZero then some (-1)
  else if x.lo.isZero && x.hi.isZero then some 0
  else none

/-- A guarded register for a node and its interval: POINT when the bounds are equal. -/
def gregOf (h : Nat) (lo hi : W32) (leaf sinx : Bool) : GReg :=
  { lo := lo, hi := hi, handle := BitVec.ofNat 24 h, leaf := leaf, sinx := sinx, point := lo == hi }

/-! ## Making nodes (R285, R286, R298) -/

/-- The log full for good at an allocation for register d (R285). -/
def fullTrap (d : Nat) : Trap := { code := Code.guardLogFull, info := d }

/-- A lane allocates a node: the handle and the state, a fault, or none for a wait: while a reclaim is pending, or the
node's page is not mapped. -/
def State.allocNode (s : State) (c d : Nat) : Option ((Nat × State) ⊕ Trap) :=
  match (s.log c).alloc (s.logLimit c) with
  | some (h, x) => if s.nodeMapped c h then some (.inl (h, s.modLog c fun _ => x)) else none
  | none => if (s.log c).pending.isEmpty then some (.inr (fullTrap d)) else none

/-- The number of a guarded register an operand names. -/
def gIndex : Operand → Nat
  | .g i => i.val
  | _ => 0

/-- A lane makes an interior node over operand handles, and writes it to D. -/
def State.makeNode (op : BitVec 4) (d : Nat) (a : Nat) (b : Option Nat) (f : Interval → Interval → Interval)
    (s : State) (l : Nat) : Option State :=
  let c := coreOf l
  match s.allocNode c d with
  | none => none
  | some (.inr t) => some (s.trap l t)
  | some (.inl (h, t)) =>
    let x := s.greg l a
    let y := (b.map (s.greg l)).getD {}
    let z := f x.interval y.interval
    let lo := boundBits .rd z.lo
    let hi := boundBits .ru z.hi
    let t := t.modLog c fun g =>
      ((g.setNode h { op := op, ref := 1, a := x.handle.toNat, b := y.handle.toNat, val := pairOfWords hi lo }).inc
        x.handle.toNat).inc y.handle.toNat
    some (t.replaceGreg l d (gregOf h lo hi false false))

/-- An instruction that makes a node in each executing lane, in order. -/
def nodeInstr (g : Guard) (o : Ops) (op : BitVec 4) (two : Bool) (f : Interval → Interval → Interval) (s : State) : Out :=
  .next (s.inOrder (s.exec g)
    (State.makeNode op (gIndex o.d) (gIndex o.a) (if two then some (gIndex o.b) else none) f))

/-- GADD. -/
def execGadd (g : Guard) (o : Ops) (s : State) : Out := nodeInstr g o NodeOp.add true Interval.add s
/-- GSUB. -/
def execGsub (g : Guard) (o : Ops) (s : State) : Out := nodeInstr g o NodeOp.sub true Interval.sub s
/-- GMUL. -/
def execGmul (g : Guard) (o : Ops) (s : State) : Out := nodeInstr g o NodeOp.mul true Interval.mul s
/-- GNEG. -/
def execGneg (g : Guard) (o : Ops) (s : State) : Out := nodeInstr g o NodeOp.neg false (fun x _ => x.neg) s
/-- GSQR. -/
def execGsqr (g : Guard) (o : Ops) (s : State) : Out := nodeInstr g o NodeOp.sqr false (fun x _ => x.sqr) s

/-- The flags of a register as it is written, with PINNED as its node then stands (R30, R287). -/
def State.pinFlag (s : State) (c : Nat) (x : GReg) : GReg :=
  { x with pinned := x.handle ≠ 0 && ((s.log c).node x.handle.toNat).ref == pinnedRef }

/-- GMOV: the new reference before the old one goes; of a register to itself, nothing. PINNED of the copy is that of the
node as GMOV leaves it (log entry 53). -/
def execGmov (g : Guard) (o : Ops) (s : State) : Out :=
  let d := gIndex o.d
  let a := gIndex o.a
  .next (if d = a then s else (s.exec g).foldl (fun t l =>
    let x := t.greg l a
    let t := t.modLog (coreOf l) (·.inc x.handle.toNat)
    t.replaceGreg l d (t.pinFlag (coreOf l) x)) s)

/-- GDROP. -/
def execGdrop (g : Guard) (o : Ops) (s : State) : Out :=
  .next ((s.exec g).foldl (fun t l => t.replaceGreg l (gIndex o.d) {}) s)

/-! ## GLD (R296) -/

/-- One more lane's GLD: its node and its load, or its fault; none once a lane must wait for its node. -/
def State.gldNode (op : Nat × Nat → Nat → MemOp) (c d : Nat) (acc : Option (State × List MemOp × List (Nat × Trap)))
    (p : Nat × Nat) : Option (State × List MemOp × List (Nat × Trap)) :=
  acc.bind fun a => match a.1.allocNode c d with
    | none => none
    | some (.inl (h, t)) => some (t, a.2.1 ++ [op p h], a.2.2)
    | some (.inr t) => some (a.1, a.2.1, a.2.2 ++ [(p.1, t)])

/-- GLD: addresses first, then a node for each lane whose address passed; the load follows. -/
def execGld (g : Guard) (o : Ops) (disp : BitVec 10) (f64 : Bool) (s : State) : Out :=
  let n := if f64 then 8 else 4
  let c := s.curCore
  let rs := s.laneVas (s.exec g) o.a (dispOf disp n) .read n
  let good := leftsOf rs
  let ws := warpsOf (good.map (·.1))
  match s.gate ws [0] good.length none with
  | some w => .next (s.hold w)
  | none =>
    let d := gIndex o.d
    let op (p : Nat × Nat) (h : Nat) : MemOp :=
      { s.laneOp p.1 (.gload d f64 h) p.2 n with va := s.src64 p.1 o.a + dispOf disp n }
    match good.foldl (State.gldNode op c d) (some (s, [], [])) with
    | none => .next (s.hold .retry)
    | some r =>
      let ls := warpsOf (r.2.1.map (·.lane))
      let t := (r.1.countAll ls 0).accept r.2.1
      .next (t.trapEach (rightsOf rs ++ r.2.2))

/-- The node and register of a value loaded, or the empty register and INVALID (R296). A lane that has retired, or a
register whose warp is gone, takes nothing: the handle goes back; with handle 0, the block's end has discarded it
(R288). -/
def State.gloadDone (s : State) (l d h : Nat) (f64 : Bool) (bits : Nat) (live : Bool) : State :=
  let c := coreOf l
  let v := decodeFmt (if f64 then .fp64 else .fp32) bits
  if !live then (if h = 0 then s else s.modLog c (·.release h))
  else if v.isNan || v.isInf then
    ((s.modLog c (·.release h)).replaceGreg l d {}).modLane l (·.sticky flagInvalid)
  else
    let val : W64 := if f64 then BitVec.ofNat 64 bits else BitVec.ofNat 64 (bits * 2 ^ 32)
    let s := s.modLog c (·.setNode h { op := if f64 then NodeOp.leaf64 else NodeOp.leaf32, ref := 1, val := val })
    s.replaceGreg l d (gregOf h (boundBits .rd v) (boundBits .ru v) true false)

/-! ## Reading guarded registers (R300, R301, R304) -/

/-- GMID. -/
def execGmid (g : Guard) (o : Ops) (rm : Rm) (s : State) : Out :=
  perLane g o.d s fun l =>
    let x := (s.greg l (gIndex o.a)).interval
    if x.lo.isInf && x.hi.isInf then .ok [0x7FC00000] flagInvalid
    else if x.hi.isInf then .ok [0x7F800000]
    else if x.lo.isInf then .ok [0xFF800000]
    else
      let c := s.ctl l .fp32 rm
      s.rounded l .fp32 rm (halfOf (exactSum c.rm [x.lo, x.hi]).1, 0)

/-- GBND. -/
def execGbnd (g : Guard) (o : Ops) (s : State) : Out :=
  perLane g o.d s fun l =>
    let x := s.greg l (gIndex o.a)
    .ok [x.lo, x.hi]

/-- SR.GSTAT after GSTAT.CLR: bits [9:8] and [4:0] cleared, STAGE 7. -/
def gstatCleared (x : W32) : W32 := (x &&& ~~~(0x31F#32)) ||| 0x1C00#32

/-- GSTAT. -/
def execGstat (g : Guard) (o : Ops) (clr : Bool) (s : State) : Out :=
  let t := s.perLane g o.d fun l => .ok [(s.lane l).gstat]
  .next (if clr then (s.exec g).foldl (fun t l => t.modLane l fun x => { x with gstat := gstatCleared x.gstat }) t else t)

/-! ## Decisions (R290, R291, R299) -/

/-- A decision written: the predicates and STAGE. -/
def Lane.decided (x : Lane) (dneg : Nat) (dzero : Option Nat) (sgn : Int) (stage : Nat) : Lane :=
  let y := x.setPred dneg (sgn == -1)
  let z := match dzero with
    | some p => y.setPred p (sgn == 0)
    | none => y
  z.setStage stage

/-- GCAP of a warp's mode (spec/02 R32). -/
def gcap (mode : W64) : Nat := field mode 49 3

/-- A lane handed to its core's Gecko at the current slot (R291). -/
def State.handOff (s : State) (l : Nat) (ask : GeckoAsk) : State :=
  let g := s.group
  let r : GeckoReq := { lane := l, slot := g.slot, nslot := nslot g.header, ask := ask, gcap := gcap (s.mode l), word := g.word }
  let c := s.clauseOf l
  let s := (s.leaveGroup l).modLane l fun x => { x with status := .refining, rslot := g.slot, pc := g.pc, kept := c }
  s.modCore (coreOf l) fun k => { k with gecko := k.gecko ++ [r] }

/-- The number of a predicate an operand names, NONE being none. -/
def pIndex : Operand → Option Nat
  | .p i => some i.val
  | _ => none

/-- A sign decided in each executing lane, by its interval or by the Gecko. -/
def State.decideAll (s : State) (g : Guard) (o : Ops) (test : Nat → Interval) (c : Option Nat) : State :=
  let b := gIndex o.b
  (s.exec g).foldl (fun t l => match (test l).decide with
    | some sgn => t.modLane l (·.decided ((pIndex o.d).getD 7) (pIndex o.a) sgn 0)
    | none => t.handOff l (.sign b c ((pIndex o.d).getD 7) (pIndex o.a) b)) s

/-- GSGN. -/
def execGsgn (g : Guard) (o : Ops) (s : State) : Out :=
  .next (s.decideAll g o (fun l => (s.greg l (gIndex o.b)).interval) none)

/-- GCMP: the interval of a − b, rounded outward. -/
def execGcmp (g : Guard) (o : Ops) (s : State) : Out :=
  .next (s.decideAll g o (fun l =>
    let x := (s.greg l (gIndex o.b)).interval.sub (s.greg l (gIndex o.c)).interval
    ⟨decodeFmt .fp32 (boundBits .rd x.lo).toNat, decodeFmt .fp32 (boundBits .ru x.hi).toNat⟩) (some (gIndex o.c)))

/-! ## The Gecko (R292, R293) -/

/-- A finite bound rounded outward to p significand bits, its exponent unbounded. -/
def outward (p : Nat) (up : Bool) : FVal → FVal
  | .fin neg m e =>
    if bitLen m ≤ p then .fin neg m e
    else
      let q := e + (bitLen m - p : Nat)
      .fin neg (roundTo (if up then .ru else .rd) 0 neg m e q).1 q
  | x => x

/-- An enclosure rounded outward. -/
def Interval.outward (p : Nat) (x : Interval) : Interval := ⟨Machine.outward p false x.lo, Machine.outward p true x.hi⟩

/-- The value of a leaf. -/
def Node.leaf (n : Node) : FVal :=
  if n.op = NodeOp.leaf32 then decodeFmt .fp32 (n.val.toNat / 2 ^ 32) else decodeFmt .fp64 n.val.toNat

/-- A stage's enclosure of a node: each bound rounded outward to p bits; leaves and the null operand enter exactly. -/
def Log.enclose (x : Log) (p : Nat) : Nat → Nat → Interval
  | 0, _ => .whole
  | k + 1, h =>
    if h = 0 then .zero
    else
      let n := x.node h
      let a := x.enclose p k n.a
      let b := x.enclose p k n.b
      if n.op = NodeOp.add then (a.add b).outward p
      else if n.op = NodeOp.sub then (a.sub b).outward p
      else if n.op = NodeOp.mul then (a.mul b).outward p
      else if n.op = NodeOp.neg then a.neg.outward p
      else if n.op = NodeOp.sqr then a.sqr.outward p
      else ⟨n.leaf, n.leaf⟩

/-- Bits of the odd part of a number. -/
def oddBits (m : Nat) : Nat := if m = 0 then 0 else bitLen m + 1 - bitLen (m ^^^ (m - 1))

/-- A finite value of no more than 65,536 bits, else none. -/
def bounded (v : FVal) : Option FVal :=
  match v with
  | .fin _ m _ => if oddBits m ≤ 65536 then some v else none
  | _ => none

/-- The exact value of a node; none when some node under it has more than 65,536 bits. -/
def Log.exact (x : Log) : Nat → Nat → Option FVal
  | 0, _ => none
  | k + 1, h =>
    if h = 0 then some (.fin false 0 0)
    else
      let n := x.node h
      if n.op = NodeOp.add ∨ n.op = NodeOp.sub ∨ n.op = NodeOp.mul then
        match x.exact k n.a, x.exact k n.b with
        | some a, some b => bounded (if n.op = NodeOp.mul then (exactMul a b).1
            else (exactSum .rne [a, if n.op = NodeOp.sub then b.negate else b]).1)
        | _, _ => none
      else if n.op = NodeOp.neg then (x.exact k n.a).map FVal.negate
      else if n.op = NodeOp.sqr then (x.exact k n.a).bind fun a => bounded (exactMul a a).1
      else some n.leaf

/-- Nodes that a graph of the log can reach at most, and one step more. -/
def Log.depth (x : Log) : Nat := x.nodes.length + 2

/-- The stage's enclosure of what a decision asks: the root, or a − b. -/
def Log.asked (x : Log) (p a : Nat) (c : Option Nat) : Interval :=
  match c with
  | none => x.enclose p x.depth a
  | some b => ((x.enclose p x.depth a).sub (x.enclose p x.depth b)).outward p

/-- The exact value of what a decision asks. -/
def Log.askedExact (x : Log) (a : Nat) (c : Option Nat) : Option FVal :=
  match c with
  | none => x.exact x.depth a
  | some b => match x.exact x.depth a, x.exact x.depth b with
    | some u, some v => bounded (exactSum .rne [u, v.negate]).1
    | _, _ => none

/-- The first of `n` stages from stage k that decides: its sign and number. -/
def Log.stages (x : Log) (a : Nat) (c : Option Nat) (k : Nat) : Nat → Option (Int × Nat)
  | 0 => none
  | n + 1 => match (x.asked (53 * 2 ^ (k - 1)) a c).decide with
    | some sgn => some (sgn, k)
    | none => x.stages a c (k + 1) n

/-- The Gecko's answer: a sign and its stage, or none for GUARD_LIMIT. -/
def Log.refine (x : Log) (a : Nat) (c : Option Nat) (cap : Nat) : Option (Int × Nat) :=
  (x.stages a c 1 cap).orElse fun _ => (x.askedExact a c).map fun v =>
    ((if v.isZero then 0 else if v.neg then -1 else 1), 6)

/-- A lane goes on after its decision: at the slot after it, or past its clause. -/
def Lane.resumeAfter (x : Lane) (r : GeckoReq) : Lane :=
  if r.slot < r.nslot then { x with status := .idle, rslot := r.slot + 1 }
  else { x with status := .idle, rslot := 0, kept := none, pc := x.pc + BitVec.ofNat 48 (8 * (r.nslot + 2)) }

/-- The fault record of a Gecko's lane: it names the deciding slot (R293). -/
def GeckoReq.fault (r : GeckoReq) (x : Lane) (t : Trap) : FaultRec :=
  { code := t.code, slot := r.slot, cls := 1, pc := x.pc, word := r.word, addr := t.addr, opnd := t.opnd, info := t.info }

/-- GUARD_LIMIT: GLIMIT and STAGE 7. -/
def Lane.limited (x : Lane) : Lane := ({ x with gstat := x.gstat ||| 0x200#32 } : Lane).setStage 7

/-- The leaf that GSEVER puts in place of a history (R302): FP64 bits, and whether they are rounded. -/
def severValue (x : Interval) : Nat × Bool :=
  let m := halfOf (exactSum .rne [x.lo, x.hi]).1
  let b := (m.round .fp64 { rm := .rne, sat := true, ftzo := false } 0).1
  let v := decodeFmt .fp64 b
  (b, !(x.lo.cmp x.hi == some 0 && x.lo.cmp v == some 0))

/-- A lane's register severed to a value; none while the log must reclaim first. -/
def State.severTo (s : State) (l d : Nat) (bits : Nat) (inx : Bool) : Option (State ⊕ Trap) :=
  let c := coreOf l
  match s.allocNode c d with
  | none => none
  | some (.inr t) => some (.inr t)
  | some (.inl (h, t)) =>
    let v := decodeFmt .fp64 bits
    let t := t.modLog c (·.setNode h
      { op := NodeOp.severed, ref := 1, inx := inx, val := BitVec.ofNat 64 bits })
    let t := t.replaceGreg l d (gregOf h (boundBits .rd v) (boundBits .ru v) true inx)
    some (.inl (if inx then t.modLane l fun x => { x with gstat := x.gstat ||| 0x100#32 } else t))

/-- One lane's GSEVER: nothing for an empty register or a leaf, at once for a point, else the Gecko. -/
def State.severLane (d : Nat) (s : State) (l : Nat) : Option State :=
  let x := s.greg l d
  if x.handle = 0 ∨ x.leaf then some s
  else if x.point then
    (s.severTo l d ((decodeFmt .fp32 x.lo.toNat).round .fp64 Ctl.nearest 0).1 false).map fun r => match r with
      | .inl t => t
      | .inr e => s.trap l e
  else some (s.handOff l (.sever d))

/-- GSEVER. -/
def execGsever (g : Guard) (o : Ops) (s : State) : Out := .next (s.inOrder (s.exec g) (State.severLane (gIndex o.d)))

/-- The Gecko takes its next lane (R291). -/
def execGeckoStart (core : Nat) (s : State) : Out :=
  .next (s.modCore core fun k => match k.gecko with
    | [] => k
    | r :: rs => { k with gecko := { r with started := true } :: rs })

/-- What the Gecko's answer does to its lane; none while the log must reclaim first. -/
def State.answer (s : State) (r : GeckoReq) : Option (State ⊕ (State × Trap)) :=
  let l := r.lane
  let c := coreOf l
  let handle (i : Nat) : Nat := (s.greg l i).handle.toNat
  match r.ask with
  | .sign b d dneg dzero reg =>
    match (s.log c).refine (handle b) (d.map handle) r.gcap with
    | some (sgn, k) => some (.inl (s.modLane l (·.decided dneg dzero sgn k)))
    | none => some (.inr (s.modLane l (·.limited), { code := Code.guardLimit, info := reg }))
  | .sever d =>
    let v := severValue ((s.log c).enclose 106 (s.log c).depth (handle d))
    (s.severTo l d v.1 v.2).map fun x => match x with
      | .inl t => .inl t
      | .inr t => .inr (s, t)

/-- The Gecko returns its lane (R292): the decision is written and the lane runs on, or takes its fault. -/
def execGeckoReturn (core : Nat) (s : State) : Out :=
  match (s.core core).gecko with
  | [] => .next s
  | r :: rs =>
    if !r.started then .next s
    else match s.answer r with
      | none => .next s
      | some x =>
        let done (t : State) : State := t.modCore core fun k => { k with gecko := rs }
        match x with
        | .inl t => .next ((done (t.modLane r.lane fun y => { y.resumeAfter r with readyAt := s.cycles })).meet [r.lane])
        | .inr (t, e) => .next (((done t).deliver r.lane (r.fault (s.lane r.lane) e)).meet [r.lane])

end Sys2Proof.Machine
end

