-- ==== Sys2Proof/Machine/Capability.lean ====
section
/-! DEFINITION. Firmware's capabilities: their sixteen bytes and tags in a die's firmware memory, what a store does to a
tag, and the accesses that a capability allows (spec/26 R383). Where each stands in that memory is the model's choice (log
entry 58). -/

namespace Sys2Proof.Machine

/-! ## Uses -/

/-- What firmware asks of a capability: the bits of PERMS, in order. -/
inductive CapUse
  | read | write | execute | loadCap | storeCap | derive
  deriving DecidableEq, Repr, Inhabited

/-- The bit of PERMS for a use. -/
def CapUse.bit : CapUse → Nat
  | .read => 0
  | .write => 1
  | .execute => 2
  | .loadCap => 3
  | .storeCap => 4
  | .derive => 5

/-- OTYPE 1 to 5. -/
def capRing : Nat := 1
/-- A queue descriptor. -/
def capDescriptor : Nat := 2
/-- A launch record. -/
def capRecord : Nat := 3
/-- A context image. -/
def capImage : Nat := 4
/-- Plain memory. -/
def capPlain : Nat := 5

/-- Does an access of `n` bytes through a capability of a type raise no capability fault? -/
def Capability.allows (c : Capability) (otype : Nat) (u : CapUse) (a : W64) (n : Nat) : Bool :=
  c.tag && c.otype.toNat == otype && c.perms.getLsbD u.bit
    && c.base.toNat ≤ a.toNat && a.toNat + n ≤ c.base.toNat + c.length.toNat

/-- A narrower capability derived from one: part of its bytes, some of its permissions; one that may not be derived has
no tag. -/
def Capability.derive (c : Capability) (a : W64) (n : Nat) (perms : BitVec 6) : Capability :=
  { c with tag := c.allows c.otype.toNat .derive a n && perms &&& ~~~c.perms == 0, base := a, length := BitVec.ofNat 40 n
           perms := perms }

/-! ## Capabilities in a die's firmware memory -/

/-- The sixteen bytes of a capability; its tag is not among them. -/
def Capability.toBytes (c : Capability) : List Byte :=
  toLe (c.length.toNat * 2 ^ 24 + c.otype.toNat * 2 ^ 16 + c.perms.toNat) 8 ++ toLe c.base.toNat 8

/-- The capability of sixteen bytes and a tag. -/
def Capability.ofBytes (tag : Bool) (bs : List Byte) : Capability :=
  let lo : W64 := BitVec.ofNat 64 (leNat (bs.take 8))
  { tag := tag, base := BitVec.ofNat 64 (leNat (bs.drop 8)), length := lo.extractLsb' 24 40, otype := lo.extractLsb' 16 8
    perms := lo.extractLsb' 0 6 }

/-- A store of plain bytes in a die's firmware memory: the tag of every capability that they meet is cleared. -/
def Die.storePlain (x : Die) (a : Nat) (bs : List Byte) : Die :=
  { x with sram := putBytes x.sram a bs, capTags := x.capTags.filter fun k => !(a < 16 * k + 16 && 16 * k < a + bs.length) }

/-- A store of a capability in slot `k`, sixteen bytes each. -/
def Die.storeCap (x : Die) (k : Nat) (c : Capability) : Die :=
  let y := x.storePlain (16 * k) c.toBytes
  { y with capTags := if c.tag then k :: y.capTags else y.capTags }

/-- Firmware's own capability to its die's memory: plain memory, with every permission. -/
def firmwareMemory : Capability :=
  { tag := true, base := 0, length := 0xFFFFFFFFFF, otype := 5, perms := 0x3F }

/-- A capability loaded from slot `k`; none where firmware's own memory does not let it load one. -/
def Die.loadCap (x : Die) (k : Nat) : Capability :=
  if firmwareMemory.allows capPlain .loadCap (BitVec.ofNat 64 (16 * k)) 16 then
    .ofBytes (x.capTags.contains k) ((List.range 16).map fun i => tget 0 x.sram (16 * k + i))
  else {}

/-! ## Where firmware keeps them -/

/-- The address of a queue's descriptor in its die's firmware memory, sixteen bytes of plain data. -/
def descriptorAt (q : Nat) : Nat := 16 * q
/-- The slot of the capability to a queue's ring. -/
def ringSlot (q : Nat) : Nat := 64 + q
/-- The slot of the capability to a queue's descriptor. -/
def descriptorSlot (q : Nat) : Nat := 128 + q
/-- The slot of the capability to the launch record of a queue's head. -/
def recordSlot (q : Nat) : Nat := 192 + q
/-- The slot, on die 0, of the capability to a context image. -/
def imageSlot (k : Nat) : Nat := 256 + k

end Sys2Proof.Machine
end

