-- ==== Sys2Proof/Machine/Queue.lean ====
section
/-! DEFINITION. Queues: notification, the head packet and its checks, dispatch by priority, and the signal step (spec/23
R329 to R339, R345). The command processor's own writes carry launch number 0. -/

namespace Sys2Proof.Machine

/-! ## Queues and packets -/

/-- An agent without a TLB of its own, as `translate` numbers them: the command processor, Fenlink, firmware. -/
def cpAgent : Nat := 0x100000

/-- CAPX of a queue. -/
def Queue.capx (y : Queue) : Nat := field y.qd1 16 8
/-- PRIOCAP of a queue. -/
def Queue.prioCap (y : Queue) : Nat := field y.qd1 5 3
/-- Packets of a queue's ring. -/
def Queue.slots (y : Queue) : Nat := 2 ^ field y.qd1 0 5
/-- The address of the slot of a packet (R332). -/
def Queue.slotVa (y : Queue) (i : W64) : W64 := y.qd0 + BitVec.ofNat 64 (128 * (i.toNat % y.slots))

/-- A queue of a die. -/
def State.queue (s : State) (d q : Nat) : Option Queue := tfind (s.die d).queues q
/-- The state with a queue changed. -/
def State.modQueue (s : State) (d q : Nat) (f : Queue → Queue) : State :=
  s.modDie d fun x => { x with queues := tmod x.queues q f }

/-- A die's firmware memory with the descriptor of a queue it creates, and its capabilities to the descriptor and to
the ring (spec/26 R383). -/
def Die.holdQueue (x : Die) (q : Nat) (y : Queue) : Die :=
  let ring : Capability := { tag := true, base := y.qd0, length := BitVec.ofNat 40 (128 * y.slots), otype := 1, perms := 0x23 }
  let desc : Capability := { tag := true, base := BitVec.ofNat 64 (descriptorAt q), length := 16, otype := 2, perms := 3 }
  ((x.storePlain (descriptorAt q) (toLe y.qd0.toNat 8 ++ toLe y.qd1.toNat 8)).storeCap (ringSlot q) ring).storeCap
    (descriptorSlot q) desc

/-- Do firmware's capabilities let it handle the packet of an index: read the descriptor, read the slot, and clear its Q0
through a capability to that slot alone (spec/26 R383)? -/
def Die.capsOk (x : Die) (q : Nat) (y : Queue) (i : W64) : Bool :=
  let ring := x.loadCap (ringSlot q)
  (x.loadCap (descriptorSlot q)).allows capDescriptor .read (BitVec.ofNat 64 (descriptorAt q)) 16
    && ring.allows capRing .read (y.slotVa i) 128 && (ring.derive (y.slotVa i) 8 2).allows capRing .write (y.slotVa i) 8

/-- Bytes as doublewords. -/
def dwordsOf : Nat → List Byte → List W64
  | 0, _ => []
  | n + 1, bs => BitVec.ofNat 64 (leNat (bs.take 8)) :: dwordsOf n (bs.drop 8)

/-- Doublewords of an address space as the command processor reads them. -/
def State.cpDwords (s : State) (capx : Nat) (va : W64) (n : Nat) : Option (List W64) :=
  (s.readVa cpAgent capx .read va (8 * n)).map (dwordsOf n)

/-- TYPE of a packet (R335). -/
def packetType (p : List W64) : Nat := field (dword p 0) 8 8
/-- BARRIER of a packet. -/
def packetBarrier (p : List W64) : Bool := (dword p 0).getLsbD 22
/-- RSCOPE of a packet. -/
def packetRscope (p : List W64) : Scope := (Scope.ofCode (field (dword p 0) 19 3)).getD .device
/-- ASCOPE of a packet. -/
def packetAscope (p : List W64) : Scope := (Scope.ofCode (field (dword p 0) 16 3)).getD .device

/-! ## Notification and polling (R332, R336) -/

/-- An acquire of a die's command processor (R208). -/
def State.cpAcquire (s : State) (d : Nat) (sc : Scope) : State := if sc = .system then s.dropCache (.l2 d) else s

/-- Times that the command processor of a die has been given by its own writes and reads (spec/12 R205, R206). -/
def State.cpTimes (s : State) (d : Nat) (t : Tab Nat) : State := s.modDie d fun x => { x with times := laterTimes x.times t }

/-- The command processor reads a word at its home with an acquire (R336, R338): at SYSTEM scope it pulls what the word
closed (spec/12 R221). -/
def State.cpRead (s : State) (d : Nat) (sc : Scope) (pa : Nat) : State :=
  let s := s.cpTimes d (s.timesOf (192 * d) (s.readHome pa 8).2)
  let s := s.cpAcquire d sc
  if sc = .system then s.pull pa 8 else s

/-- The command processor reads Q0 of the head with an acquire at SYSTEM scope; a word whose code fails stops the queue
(spec/26 R372). -/
def State.poll (s : State) (d q : Nat) : State :=
  match s.queue d q with
  | none => s
  | some y =>
    if y.error || y.head.isSome || y.qread = y.qwrite then s
    else match s.checkVa cpAgent y.capx .read 8 (y.slotVa y.qread) with
      | .inr _ => s
      | .inl pa =>
        let (s, bad) := s.consumeHome touchesSite pa 8 0x7FF 0
        if bad then s.stopQueue d q 0x08 y.qread
        else
          let v := (s.dwordAt pa).getLsbD 0
          (s.cpRead d .system pa).modQueue d q fun y => { y with valid := v }

/-- A write to QNOTIFY (R332): ignored, an ERROR, or a new QWRITE. -/
def State.notify (s : State) (d q : Nat) (w : W64) : State :=
  match s.queue d q with
  | none => s
  | some y =>
    if y.error || w.toNat ≤ y.qwrite.toNat then s
    else if y.qread.toNat + y.slots < w.toNat then s.stopQueue d q 0x06 y.qread
    else (s.modQueue d q fun y => { y with qwrite := w }).poll d q

/-- QNOTIFY. -/
def execQnotify (die q : Nat) (w : W64) (s : State) : Out :=
  if die < Config.dies ∧ q < 64 then .next (s.notify die q w) else .fault .noSuchUnit

/-- The command processor re-reads Q0 of the head. -/
def execCpPoll (die q : Nat) (s : State) : Out :=
  if die < Config.dies ∧ q < 64 then .next (s.poll die q) else .fault .noSuchUnit

/-- A write of 8 bytes to a die's unprivileged view: QNOTIFY takes it, every other offset ignores it (R330, spec/26
R380). -/
def State.userWrite (s : State) (d off : Nat) (w : W64) : State :=
  if off < 0x40000 ∧ off % 4096 = 0 then s.notify d (off / 4096) w else s

/-! ## The head packet (R333 to R338) -/

/-- A pointer of a packet: canonical, aligned, mapped. -/
def State.pointerOk (s : State) (capx : Nat) (align : Nat) (va : W64) : Bool :=
  canonical va && va.toNat % align == 0 && s.translate cpAgent capx .read va != .miss

/-- The word of a signal or a counter: a pointer whose page also permits the access (log entry 54), or 0 for none. -/
def State.wordOk (s : State) (capx : Nat) (ask : Ask) (va : W64) : Bool :=
  va == 0 || s.pointerOk capx 8 va && s.translate cpAgent capx ask va != .denied

/-- A pointer that 0 leaves out. -/
def State.pointerOr0 (s : State) (capx : Nat) (align : Nat) (va : W64) : Bool := va == 0 || s.pointerOk capx align va

/-- The fields that R335 marks 0 for a type, and the reserved fields of R334. -/
def packetReserved (p : List W64) : Bool :=
  let q (i : Nat) : W64 := dword p i
  let hi := field (q 6) 32 32
  let scopeOk (lo : Nat) : Bool := 3 ≤ field (q 0) lo 3 && field (q 0) lo 3 ≤ 5
  field (q 0) 23 41 ≠ 0 || field (q 0) 1 7 ≠ 0 || !scopeOk 16 || !scopeOk 19
    || (List.range 9).any (fun i => q (7 + i) ≠ 0)
    || match packetType p with
      | 1 => hi ≠ 0
      | 2 => q 5 ≠ 0 || hi ≠ 0
      | 3 => q 1 ≠ 0 || q 5 ≠ 0 || q 6 ≠ 0
      | 4 => q 4 ≠ 0 || q 5 ≠ 0 || hi ≠ 0 || field (q 6) 0 32 = 0
      | 5 => q 4 ≠ 0 || q 5 ≠ 0 || hi ≠ 0
      | 6 => q 1 ≠ 0 || q 4 ≠ 0 || q 5 ≠ 0 || q 6 ≠ 0
      | _ => field (q 6) 48 16 ≠ 0

/-- Is a range's pointer mapped, and with it every page of the range? -/
def State.rangeMapped (s : State) (capx : Nat) (va : W64) (n : Nat) : Bool :=
  s.pointerOk capx 1 va && (pagePieces va n).all fun p => s.pointerOk capx 1 p.1

/-- BOUNDS: the packet's pointers as R335 requires them. A pointer to the peer is only checked for its form. -/
def State.packetBounds (s : State) (capx : Nat) (p : List W64) : Bool :=
  let q (i : Nat) : W64 := dword p i
  let n := field (q 6) 0 32
  s.wordOk capx .write (q 2) && s.wordOk capx .read (q 3) && match packetType p with
    | 1 => s.pointerOk capx 256 (q 1) && s.pointerOr0 capx 1 (q 4)
    | 2 => s.rangeMapped capx (q 1) n && s.rangeMapped capx (q 4) n
    | 3 => q 4 ≠ 0 && s.wordOk capx .write (q 4)
    | 4 => (q 1).toNat % 65536 == 0 && s.rangeMapped capx (q 1) (65536 * n)
    | 5 => q 1 == 0 && n == 0 || s.rangeMapped capx (q 1) n
    | 7 => s.rangeMapped capx (q 1) n && canonical (q 4) && canonical (q 5) && (q 5).toNat % 8 == 0
    | _ => true

/-- The address of a packet's dependence counter; none where Q3 names no counter (R338). -/
def State.counterPa (s : State) (capx : Nat) (p : List W64) : Option Nat :=
  if dword p 3 = 0 then none
  else match s.checkVa cpAgent capx .read 8 (dword p 3) with
    | .inl pa => some pa
    | .inr _ => none

/-- The dependence counter of a packet, signed: what a test of its watch has found, else what its home holds (R338). -/
def State.dependence (s : State) (y : Queue) (p : List W64) : Option Int :=
  (s.counterPa y.capx p).map fun pa => match y.watch.bind fun w => if w.pa = canonPa pa then w.seen else none with
    | some x => x.toInt
    | none => (s.dwordAt pa).toInt

/-- Do a COPY's ranges overlap? -/
def copyOverlaps (p : List W64) : Bool :=
  packetType p == 2 && meets (dword p 1).toNat (field (dword p 6) 0 32) (dword p 4).toNat (field (dword p 6) 0 32)

/-- Does a peer's grant cover a range (R350)? -/
def Route.covers (r : Route) (va : W64) (n : Nat) : Bool :=
  r.grant.any fun g => g.1 ≤ va.toNat && va.toNat + n ≤ g.1 + g.2

/-- May a NETWRITE go out: a route whose link is up, and a grant that covers Q4's range and Q5 (R350)? -/
def State.linkOk (s : State) (d : Nat) (p : List W64) : Bool :=
  match tfind (s.die d).routes (field (dword p 6) 32 16) with
  | none => false
  | some r =>
    let n := field (dword p 6) 0 32
    tget false s.links r.port && (n == 0 || r.covers (dword p 4) n) && (dword p 5 == 0 || r.covers (dword p 5) 8)

/-- The first condition of R333 that a head packet meets, but for LAUNCHREC; a capability that does not allow its
handling is BOUNDS (spec/26 R383, log entry 58). -/
def State.packetError (s : State) (d q : Nat) (y : Queue) (p : List W64) : Option (BitVec 8) :=
  if packetType p = 0 ∨ 7 < packetType p then some 0x02
  else if packetReserved p then some 0x01
  else if !s.packetBounds y.capx p || !(s.die d).capsOk q y y.qread then some 0x03
  else if (s.dependence y p).any (· < 0) then some 0x05
  else if copyOverlaps p then some 0x07
  else if packetType p = 7 ∧ !s.linkOk d p then some 0x09
  else none

/-- The head packet of a queue once the packets before it let it go (R337), whatever its counter holds. -/
def State.frontPacket (s : State) (d q : Nat) : Option (Queue × List W64) :=
  match s.queue d q with
  | none => none
  | some y =>
    if y.error || y.head.isSome || y.qread = y.qwrite || !y.valid then none
    else match s.cpDwords y.capx (y.slotVa y.qread) 16 with
      | none => none
      | some p =>
        if packetBarrier p && y.acts.any (fun a => a.idx + 1 == y.qread.toNat) then none else some (y, p)

/-- The head packet of a queue, once it may be handled (R337, R338). -/
def State.headPacket (s : State) (d q : Nat) : Option (Queue × List W64) :=
  (s.frontPacket d q).filter fun h => !(s.dependence h.1 h.2).any (0 < ·)

/-- The effective priority of a head packet (R339). -/
def State.packetPrio (s : State) (y : Queue) (p : List W64) : Nat :=
  if packetType p = 1 then
    match s.loadVa cpAgent y.capx .read (dword p 1 + 8) 8 with
    | .inl n => min (field (BitVec.ofNat 64 n) 49 3) y.prioCap
    | .inr _ => y.prioCap
  else y.prioCap

/-- Which of a die's eligible heads goes first (R339): number, queue, packet. -/
def State.nextHead (s : State) (d : Nat) : Option (Nat × Queue × List W64) :=
  let rank (c : Nat) : Nat := (c + 63 - (s.die d).lastQueue) % 64
  (List.range 64).foldl (fun best q => match s.headPacket d q with
    | none => best
    | some (y, p) => match best with
      | none => some (q, y, p)
      | some (c, z, r) =>
        let a := s.packetPrio y p
        let b := s.packetPrio z r
        if b < a || a == b && rank q < rank c then some (q, y, p) else best) none

/-- Errors of a head packet's counter, met as it is read; one that no code corrects stops the queue (spec/26 R372; log
entry 85). -/
def State.counterErrors (s : State) (y : Queue) (p : List W64) : State × Bool :=
  match s.counterPa y.capx p with
  | none => (s, false)
  | some pa => s.consumeHome touchesSite pa 8 0x7FF 0

/-- The counter of a head packet read with its acquire; while its value is positive its home watches it (R338). -/
def State.readCounter (s : State) (d q : Nat) (y : Queue) (p : List W64) : State :=
  match s.counterPa y.capx p with
  | none => s
  | some pa =>
    let s := s.cpRead d (packetAscope p) pa
    s.modQueue d q fun z => { z with watch := match z.watch with
      | some w => some w
      | none => if 0 < (s.dwordAt pa).toInt then some { pa := canonPa pa } else none }

/-- The slot of a packet freed: Q0 := 0 (R336). -/
def State.freeSlot (s : State) (d : Nat) (y : Queue) (i : W64) : State :=
  match s.storeVa cpAgent y.capx .write 0 (y.slotVa i) (toLe 0 8) with
  | .inl (t, r) => t.cpTimes d (t.timesOf (192 * d) [r])
  | .inr _ => s

/-- The queue goes on to its next packet: Q0 := 0, and QREAD advances (R336). -/
def State.advance (s : State) (d q : Nat) (a : Act) : State :=
  match s.queue d q with
  | none => s
  | some y =>
    (s.freeSlot d y y.qread).modQueue d q fun y =>
      { y with qread := y.qread + 1, valid := false, watch := none, head := none, acts := y.acts ++ [a] }

/-- Storage errors under bytes that the command processor reads (spec/26 R372). -/
def State.cpErrors (s : State) (capx : Nat) (va : W64) (n : Nat) : State × Bool :=
  match s.checkVa cpAgent capx .read 1 va with
  | .inl pa => s.consumeHome touchesSite pa n 0x7FF 0
  | .inr _ => (s, false)

/-- A die's firmware memory with the capability to the launch record of a queue's head (spec/26 R383). -/
def Die.holdRecord (x : Die) (q : Nat) (p : List W64) : Die :=
  if packetType p = 1 then
    x.storeCap (recordSlot q) { tag := true, base := dword p 1, length := 256, otype := 3, perms := 1 }
  else x

/-- Does the type hold the head until its action is done: LAUNCH, DEPEND, NETWRITE? -/
def holdsHead (p : List W64) : Bool := packetType p == 1 || packetType p == 3 || packetType p == 7

/-- A head packet that its counter still holds back: the counter is read and watched (R338). -/
def State.watchHead (s : State) (d q : Nat) : State :=
  match s.frontPacket d q with
  | some (y, p) =>
    if (s.dependence y p).any (0 < ·) then
      let (s, bad) := s.counterErrors y p
      if bad then s.stopQueue d q 0x08 y.qread else s.readCounter d q y p
    else s
  | none => s

/-- PACKET_DISPATCH (R337): the eligible head of the die that goes first is checked, acquired and acted on. -/
def execPacketDispatch (die q : Nat) (s : State) : Out :=
  if !(die < Config.dies && q < 64) then .fault .noSuchUnit
  else match s.nextHead die with
    | none => .next (s.watchHead die q)
    | some (c, y, p) =>
      if c ≠ q then .next (s.watchHead die q)
      else
        let (s, bad) := s.cpErrors y.capx (y.slotVa y.qread) 128
        let (s, bad2) := s.counterErrors y p
        if bad || bad2 then .next (s.stopQueue die q 0x08 y.qread)
        else match s.packetError die q y p with
          | some e => .next (s.stopQueue die q e y.qread)
          | none =>
            let s := ((s.readCounter die q y p).cpAcquire die (packetAscope p)).modDie die fun x =>
              { x.holdRecord q p with lastQueue := q }
            let a : Act := { idx := y.qread.toNat, packet := p }
            .next (if holdsHead p then s.modQueue die q fun y => { y with head := some a } else s.advance die q a)

/-! ## The signal step (R345) -/

/-- A packet's completion: after its times at RSCOPE, the generation of launch `num` closed at SYSTEM scope, the
decrement; none while it must wait. DESIGN CHOICE: a word whose code fails takes no decrement (log entry 85). -/
def State.signalStep (s : State) (d capx : Nat) (p : List W64) (times : Tab Nat) (num : W32) (eager : Bool) :
    Option State :=
  let sc := packetRscope p
  let sig := dword p 2
  if s.dieGt d < tget 0 times sc.code + 2 then none
  else
    let sys := sc == .system
    let s := if sys && eager then s.writeBackLaunch num else s
    if sig = 0 then some s
    else match s.checkVa cpAgent capx .write 8 sig with
      | .inr _ => none
      | .inl pa =>
        if !s.lineFree s.nextId pa 8 then none
        else
        let (s, bad) := s.consumeHome touchesSite pa 8 0x7FF 0
        if bad then some s
        else
        let s := if sys then { s with generations := s.generations ++ [(num, canonPa pa)] } else s
        let (s, r) := s.agentWrite num pa (toLe (s.dwordAt pa - 1).toNat 8)
        some (s.cpTimes d (s.timesOf (192 * d) [r]))

end Sys2Proof.Machine
end

