-- ==== Sys2Proof/Machine/MemEvents.lean ====
section
/-! DEFINITION. What becomes of memory operations in flight: loads bind and return, writes and atomics are performed at
home and answered, leases end, watches wake, releases and slot waits end (spec/12 R204 to R220; spec/11 R199, R201,
R390; spec/13 R223, R389; spec/26 R372). -/

namespace Sys2Proof.Machine

/-! ## Values returning to registers -/

/-- A value in a lane's or a warp's register. -/
def State.deliverValue (s : State) (o : MemOp) (d : Operand) (vals : List W32) : State :=
  if !o.writes || !(s.lane o.lane).live then s
  else if isSReg d then s.modWarp (warpOf o.lane) (·.put d vals)
  else s.modLane o.lane (·.put d vals)

/-- The sites a core's load meets: its L1's of the line it holds, or the window's. -/
def loadSite (c pa n : Nat) (x : Site) : Bool :=
  match x with
  | .l1 k d => k == c && meets pa n (8 * d) 8
  | .window _ => touchesSite (canonPa pa) n x
  | _ => false

/-- The failing code of the data a core's load takes, with where it first failed (spec/26 R371). -/
def State.failing (s : State) (c pa n : Nat) : Option (W32 × Site) :=
  ((s.copyOf (.l1 c) (lineOf pa)).bind fun x => (x.fails.find? fun f => meets pa n (8 * f.1) 8).map (·.2)).orElse
    fun _ => s.badSite (loadSite c pa n)

/-- The words of a load that reach registers: each register, and the address and length of its bytes. -/
def MemOp.words (o : MemOp) (d : Operand) : List (Operand × Nat × Nat) :=
  (List.range ((o.n + 3) / 4)).map fun i => (laterReg d i, o.pa + 4 * i, min 4 (o.n - 4 * i))

/-- Registers that received data with a failing code: whoever reads one meets the error (spec/26 R371, R372). -/
def State.poison (s : State) (o : MemOp) (d : Operand) : State :=
  if s.upsets.isEmpty && s.copies.all (·.fails.isEmpty) then s
  else
    let s := s.correct (loadSite o.core o.pa o.n) o.core
    if !o.writes || !(s.lane o.lane).live then s
    else (o.words d).foldl (fun t p => match t.failing o.core p.2.1 p.2.2 with
      | some e => t.fails (.loaded (if isSReg d then o.lane / 32 * 32 else o.lane) p.1) e
      | none => t) s

/-! ## LOAD_RESPONSE -/

/-- May a load bind now: no earlier load of the same bytes unbound, no engine's line, no store of the warp's to a window
on its way (R203, R210, R213)? -/
def State.loadReady (s : State) (o : MemOp) : Bool :=
  !s.recalled o.warp o.id o.pa && !s.behind o.warp o.id o.pa o.n fun p => match p.kind with
    | .load _ _ _ => true
    | .gload _ _ _ => true
    | .store => regionOf o.pa ≠ .hbm
    | _ => false

/-- A load bound: its warp observes the write times, an acquire drops leases, and LDC falls once no own store's response
is awaited (R206, R208). -/
def State.bound (s : State) (o : MemOp) (acq : Option Scope) (times : Tab Nat) (awaits : List Nat) : State :=
  let s := (s.observed o.warp times).raiseAfter o.warp o.id times
  let s := match acq with
    | some sc => s.acquireWord o.core sc o.pa o.n
    | none => s
  s.finishOp { o with returned := true, waitsFor := awaits } 0

/-- A load's value: read, delivered, bound. -/
def State.loadBound (s : State) (o : MemOp) (d : Operand) (size : MemSize) (acq : Option Scope) : State :=
  let (s, r) := s.readAs o.core o.warp o.id o.pa o.n
  let s := (s.deliverValue o d (loadWords size r.bytes)).poison o d
  s.bound o acq (s.timesOf o.core r.recs) r.awaits

/-- A guarded load's value. -/
def State.gloadBound (s : State) (o : MemOp) (d : Nat) (f64 : Bool) (h : Nat) : State :=
  let live := (s.lane o.lane).live
  let (s, r) := s.readAs o.core o.warp o.id o.pa o.n
  let s := (s.gloadDone o.lane d h f64 (leNat r.bytes) live).poison o (if h : d < 64 then .g ⟨d, h⟩ else .none)
  s.bound o none (s.timesOf o.core r.recs) r.awaits

/-- An operation that a machine check ends: its lane is told, and it counts no more (spec/26 R372). -/
def State.failOp (s : State) (o : MemOp) (which : Nat) : State :=
  (s.finishOp { o with performed := true, answered := true, returned := true } which).checkLane o.lane o.core o.here

/-- A tile load's value, once the tile lets it pass; a failing tile word is a machine check at its slot (spec/26 R372).
-/
def State.tileLoad (s : State) (o : MemOp) (k : Nat) (d : Operand) (size : MemSize) : State :=
  let (s, bad) := if s.upsets.isEmpty then (s, false) else s.consume (tileSite k o.pa o.n) o.core (s.launchNum o.core)
  if bad then (s.failOp o 3).settleTile k
  else ((s.deliverValue o d (loadWords size ((s.tile k).read o.pa o.n))).finishOp { o with returned := true } 3).settleTile k

/-- The old value of a fetching atomic returns, with the times of the write it reflects (R206, R216). -/
def State.atomBound (s : State) (o : MemOp) (d : Operand) (w64 : Bool) (acq : Option Scope) : State :=
  (s.deliverValue o d (loadWords (if w64 then .b64 else .b32) o.data)).bound o acq o.seen []

/-- LOAD_RESPONSE. -/
def execLoadResponse (id : Nat) (s : State) : Out :=
  match s.op id with
  | none => .next s
  | some o =>
    if o.returned then .next s
    else match o.kind with
      | .load d size acq => .next (if s.loadReady o then s.loadBound o d size acq else s)
      | .gload d f64 h => .next (if s.loadReady o then s.gloadBound o d f64 h else s)
      | .tload k d size => .next (if s.tileHeld k o.warp o.id o.pa o.n then s else s.tileLoad o k d size)
      | .atom _ w64 (some d) acq _ _ => .next (if o.performed then s.atomBound o d w64 acq else s)
      | .cas w64 d acq _ _ => .next (if o.performed then s.atomBound o d w64 acq else s)
      | _ => .next s

/-! ## WRITE_PERFORMED -/

/-- May a store be performed: after every earlier overlapping store of its core, in the order they entered its L1, after
its warp's earlier operations on the bytes, and not while an engine owns the line (R203, R206, R213)? -/
def State.storeReady (s : State) (o : MemOp) : Bool :=
  !s.recalled o.warp o.id o.pa && !s.behind o.warp o.id o.pa o.n (fun _ => true)
    && s.ops.all fun p => !(p.pendingStore && p.core == o.core && p.id < o.id && meets p.pa p.n o.pa o.n)

/-- A store performed: at a queue page it notifies; in memory it takes its place in coherence order (R205). -/
def State.performStore (s : State) (o : MemOp) : State :=
  let r := s.recordAt o.id (if regionOf o.pa = .hbm then some o.core else none) o.entered o.pa
  let s := match regionOf o.pa with
    | .mmio d false off => if o.n = 8 ∧ off % 8 = 0 then s.userWrite d off (BitVec.ofNat 64 (leNat o.data)) else s
    | _ => (s.writeHome r o.launch o.pa o.data).ownWrite o.core r o.pa o.data
  s.modOp o.id fun o => { o with performed := true, times := s.timesOf o.core [r] }

/-- An STT performed at its bank. -/
def State.performTile (s : State) (o : MemOp) (k : Nat) : State :=
  let (s, bad) := if s.upsets.isEmpty then (s, false)
    else s.consume (fun x => tileSite k o.pa o.n x && !tileCovers k o.pa o.n x) o.core (s.launchNum o.core)
  if bad then (s.failOp o 3).settleTile k
  else ((s.writeTile k o.pa o.data).finishOp { o with performed := true } 3).settleTile k

/-- WRITE_PERFORMED. -/
def execWritePerformed (id : Nat) (s : State) : Out :=
  match s.op id with
  | none => .next s
  | some o =>
    if o.performed then .next s
    else match o.kind with
      | .store =>
        if !s.storeReady o then .next s
        else
          let (t, bad) := s.consumeHome mergesSite o.pa o.n o.core o.launch
          .next (if bad then t.failOp o 1 else t.performStore o)
      | .tstore k => .next (if s.tileHeld k o.warp o.id o.pa o.n then s else s.performTile o k)
      | _ => .next s

/-! ## ATOMIC_PERFORMED, COMBINE_BUFFER_SEND -/

/-- The bytes an atomic leaves, or none where it writes nothing: an ATOMCAS whose word differs (spec/13 R230). -/
def MemOp.atomWrites (o : MemOp) (old : List Byte) : Option (List Byte) :=
  match o.kind with
  | .atom .aq64 _ _ _ b c =>
    let w := BitVec.ofNat 64 (leNat (old.take 8))
    let st := BitVec.ofNat 64 (leNat (old.drop 8))
    let r := aqAdd w st (decodeFmt .fp32 (b.toNat % 2 ^ 32)) (c.setWidth 32).toInt
    some (toLe r.1.toNat 8 ++ toLe r.2.toNat 8)
  | .atom op w64 _ _ b _ => some (toLe (atomNew op w64 (leNat old) (b.toNat % 2 ^ atomBits w64)) o.n)
  | .cas w64 _ _ b c =>
    if leNat old = b.toNat % 2 ^ atomBits w64 then some (toLe (c.toNat % 2 ^ atomBits w64) o.n) else none
  | _ => none

/-- An atomic applied at its home slice (R216). -/
def State.performAtomic (s : State) (o : MemOp) : State :=
  let x := s.readHome o.pa o.n
  let seen := s.timesOf o.core x.2
  let r := s.recordAt o.id none 0 (canonPa o.pa)
  let r' := if (o.atomWrites x.1).isSome then r else { r with leases := [] }
  let s := match o.atomWrites x.1 with
    | some new => s.writeHome r o.launch o.pa new
    | none => s
  let s := if regionOf o.pa = .hbm then s.ownDrop o.core o.pa else s
  s.modOp o.id fun o => { o with performed := true, data := x.1, seen := seen, times := s.timesOf o.core [r'] }

/-- The atomics of a combined group, in the order of their numbers (R217). -/
def State.groupOf (s : State) (o : MemOp) : List MemOp :=
  s.ops.filter fun p => p.id == o.id || p.grp == o.grp && o.grp ≠ 0 && !p.performed

/-- May a combined group be performed: sent on, each member after its warp's earlier operations on the bytes, and not
while an engine owns the line (R203, R210, R213, R216)? -/
def State.groupReady (s : State) (o : MemOp) : Bool := (s.groupOf o).all fun p => p.sent && s.atomicFree p

/-- One atomic of a group at its home, where its granule's errors are met first (spec/26 R372). -/
def State.atomicHome (s : State) (o : MemOp) : State :=
  let (t, bad) := s.consumeHome touchesSite o.pa o.n o.core o.launch
  if bad then (t.failOp o 0).failOp { o with returned := true } 1 else t.performAtomic o

/-- ATOMIC_PERFORMED: a combined group, its members one after another (R217), in each warp's issue order to an address.
-/
def execAtomicPerformed (id : Nat) (s : State) : Out :=
  match s.op id with
  | none => .next s
  | some o =>
    let atomic := match o.kind with
      | .atom _ _ _ _ _ _ => true
      | .cas _ _ _ _ _ => true
      | _ => false
    if !atomic || o.performed || !s.groupReady o then .next s
    else .next ((s.groupOf o).foldl State.atomicHome s)

/-- COMBINE_BUFFER_SEND (R217). -/
def execCombineBufferSend (id : Nat) (s : State) : Out :=
  match s.op id with
  | none => .next s
  | some o => .next ((s.groupOf o).foldl (fun t p => t.modOp p.id fun q => { q with sent := true }) s)

/-! ## WRITE_COMPLETION_RESPONSE -/

/-- Loads that returned a store's bytes take its times once its response is here; LDC falls for those that await no
more (R206). -/
def State.wakeLoads (s : State) (o : MemOp) : State :=
  (s.ops.filter fun p => p.waitsFor.contains o.id).foldl (fun s p =>
    ((s.observed p.warp o.times).raiseAfter p.warp p.id o.times).finishOp { p with waitsFor := p.waitsFor.filter (· ≠ o.id) } 0) s

/-- WRITE_COMPLETION_RESPONSE: the times return, SWT rises and STC falls (R205). -/
def execWriteCompletionResponse (id : Nat) (s : State) : Out :=
  match s.op id with
  | none => .next s
  | some o =>
    let counts := match o.kind with
      | .store => true
      | .atom _ _ _ _ _ _ => true
      | .cas _ _ _ _ _ => true
      | _ => false
    if !counts || !o.performed || o.answered then .next s
    else .next ((((s.wrote o.warp o.times).raiseAfter o.warp o.id o.times).finishOp { o with answered := true } 1).wakeLoads o)

/-! ## FLUSH_WRITEBACK_DONE -/

/-- FLUSH_WRITEBACK_DONE (R220): the dirty lines of the ranges are in HBM; the completion time is GT. A halt stops the
write-back (spec/24 R354). -/
def execFlushWritebackDone (id : Nat) (s : State) : Out :=
  match s.op id with
  | none => .next s
  | some o =>
    match o.kind with
    | .flush ranges =>
      if !s.issues o.core then .next s
      else
      let t := (ranges.flatMap fun r => linesOf r.1 r.2).foldl State.writeBack s
      let times := scopes.foldl (fun x sc => tput 0 x sc.code (s.coreGt o.core)) []
      .next (((t.wrote o.warp times).raiseAfter o.warp o.id times).finishOp { o with answered := true } 1)
    | _ => .next s

/-! ## Leases (R204) -/

/-- LEASE_END: a copy whose lease has ended goes. -/
def execLeaseEnd (cache : CacheId) (line : Nat) (s : State) : Out :=
  .next (if s.copies.any fun x => x.cache == cache && x.line == line && x.leaseEnd ≤ s.cacheGt cache then s.dropCopy cache line
    else s)

/-- EVICTION: a cache may drop a copy at any time, and the home slice a line, which it writes back when it is dirty
(R219). -/
def execEviction (cache : CacheId) (line : Nat) (s : State) : Out :=
  .next (if cache = .l2 (s.homeOf (line * 256)) then s.writeBack line else s.dropCopy cache line)

/-! ## Watches (spec/11 R199, R201, R390) -/

/-- A lane wakes from WAITW: it observes the write, acquires, and goes on at the following clause. The word its home
slice sent stands for the lane: no older copy of its line serves its core again (spec/12 R203, spec/19 R321). -/
def State.wake (s : State) (l : Nat) (w : Watch) (times : Tab Nat) : State :=
  let s := s.observed (warpOf l) times
  let s := match w.word with
    | .mem pa => (s.ownDrop (coreOf l) pa).acquireWord (coreOf l) w.scope pa (wordBytes w.w64)
    | .tile _ _ => s.acquire (coreOf l) w.scope
  (s.modLane l fun x => { x with status := .idle, pc := w.next, rslot := 0, kept := none, readyAt := s.cycles }).evalMeetings
    (warpOf l)

/-- The lanes of a core whose watch of a word has been satisfied, each with its watch. -/
def State.firedOn (s : State) (c : Nat) (r : WordRef) : List (Nat × Watch) :=
  (s.coreLanes c).filterMap fun l => match (s.lane l).status with
    | .asleepWaitw true w => if w.fired && w.word == r then some (l, w) else none
    | _ => none

/-- WAKE_NOTICE: one notice of a word reaches the core of a lane, and each of its lanes that watches the word and was
satisfied wakes (R390). -/
def execWakeNotice (lane : Nat) (s : State) : Out :=
  match (s.lane lane).status with
  | .asleepWaitw true w =>
    .next ((s.firedOn (coreOf lane) w.word).foldl (fun t p => t.wake p.1 p.2 p.2.times) s)
  | _ => .next s

/-- Errors that a lane's read of a watched word meets (spec/26 R372). -/
def State.wordErrors (s : State) (l : Nat) (w64 : Bool) (r : WordRef) : State × Bool :=
  let c := coreOf l
  let n := wordBytes w64
  if s.upsets.isEmpty then (s, false)
  else match r with
    | .mem pa => ((linesOf pa n).foldl State.fillL2 s).consume (fun x => touchesSite pa n x || loadSite c pa n x) c (s.launchNum c)
    | .tile k e => s.consume (tileSite k (e * n) n) c (s.launchNum c)

/-- UNWATCHED_REREAD: the word is read again as WAITW reads it; an error that no code corrects is a machine check of the
lane. -/
def execUnwatchedReread (lane : Nat) (s : State) : Out :=
  match (s.lane lane).status with
  | .asleepWaitw false w =>
    if s.wordHeld lane w.w64 w.word then .next s
    else
    let (s, bad) := s.wordErrors lane w.w64 w.word
    if bad then .next (s.checkLane lane (coreOf lane) { code := Code.machineCheck, pc := (s.lane lane).pc })
    else match w.word with
      | .mem pa =>
        let (t, x) := s.readAs (coreOf lane) (warpOf lane) s.nextId pa (wordBytes w.w64)
        .next (if wcmpHolds w.cmp (leNat x.bytes) w.value.toNat then t.wake lane w (t.timesOf (coreOf lane) x.recs) else t)
      | .tile k e => .next (if wcmpHolds w.cmp ((s.tile k).elem e) w.value.toNat then s.wake lane w [] else s)
  | _ => .next s

/-! ## Waits in a slot (R207, spec/13 R389) -/

/-- A partition path, if there is one. -/
def pathKey (core part path : Nat) : Option Nat :=
  if core < Config.cores ∧ part < 4 ∧ path < 4 then some (groupKey core part path) else none

/-- RELEASE_STALL_END: the responses are in and GT has passed the times. -/
def execReleaseStallEnd (core part path : Nat) (s : State) : Out :=
  match pathKey core part path with
  | none => .fault .noSuchUnit
  | some k => match (tfind s.groups k).bind (·.wait) with
    | some (.release ws sc upTo) =>
      .next (if ws.all fun w => s.releaseReady w sc upTo then
          { s with groups := tmod s.groups k fun g => { g with wait := none, released := true, relWarps := ws } }
        else s)
    | _ => .next s

/-- SLOT_WAIT_END: the slot tries again. -/
def execSlotWaitEnd (core part path : Nat) (s : State) : Out :=
  match pathKey core part path with
  | none => .fault .noSuchUnit
  | some k => .next { s with groups := tmod s.groups k fun g =>
      { g with wait := g.wait.filter fun w => match w with
          | .retry => false
          | .release _ _ _ => true } }

end Sys2Proof.Machine
end

