-- ==== Sys2Proof/Machine/Issue.lean ====
section
/-! DEFINITION. Issue: fetching a clause, forming a group, what stands around a slot's instruction, run faults, firmware's
answer to a TRANSLATION, and table walks (spec/04 R70 to R77; spec/09 R148 to R165; spec/13 R391; spec/02 R42; spec/24
R357, R367). -/

namespace Sys2Proof.Machine

/-! ## Fetching a clause (spec/04 R70, R71) -/

/-- The engine path of a class (R151): ALU and SYS, GRD, MEM and MTX, CTL. -/
def pathOf (cls : Nat) : Nat :=
  match cls with
  | 1 => 1
  | 2 => 2
  | 3 => 2
  | 4 => 3
  | _ => 0

/-- Lines of a core's instruction cache (spec/01 R15), of 256 bytes as every line. -/
def codeLines : Nat := 512

/-- Does a core's instruction cache hold a line? -/
def State.holdsCode (s : State) (c line : Nat) : Bool := (s.core c).icache.contains line

/-- A doubleword of code as a lane's core fetches it. -/
def State.fetchAt (s : State) (l : Nat) (va : W64) : W64 ⊕ Trap :=
  match s.laneVa l .fetch 8 va with
  | .inr t => .inr t
  | .inl pa =>
    if !s.holdsCode (coreOf l) (lineOf pa) && (s.failsHome pa 8).isSome then .inr { code := Code.machineCheck }
    else .inl (s.dwordAt pa)

/-- A core's instruction cache with a line. DESIGN CHOICE: it keeps the lines that came in last, none of which fails at
home, and always holds what memory holds (log entry 84). -/
def State.cacheCode (s : State) (c line : Nat) : State :=
  if s.holdsCode c line || (s.failsHome (256 * line) 256).isSome then s
  else (s.overwrite fun x => match x with
    | .icache k d => k == c && d / 32 == line
    | _ => false).modCore c fun k => { k with icache := (line :: k.icache).take codeLines }

/-- A line whose parity fails is dropped to be fetched again, which is logged with UNC 0 (spec/26 R370, R374). -/
def State.parity (s : State) (c dword : Nat) : State :=
  if s.upsets.any (·.site == .icache c dword) then
    (s.correct (· == .icache c dword) c).modCore c fun k => { k with icache := k.icache.filter (· ≠ dword / 32) }
  else s

/-- The fetch of a doubleword: from the instruction cache, else from memory, whose errors it meets (spec/26 R371). -/
def State.meetFetch (s : State) (l : Nat) (va : W64) : State :=
  match s.laneVa l .fetch 8 va with
  | .inr _ => s
  | .inl pa =>
    let c := coreOf l
    let s := s.parity c (canonPa pa / 8)
    if s.holdsCode c (lineOf pa) then s
    else (s.consumeHome touchesSite pa 8 c (s.launchNum c)).1.cacheCode c (lineOf pa)

/-- Some consecutive doublewords of code, or the fault of the first that cannot be fetched. -/
def State.fetchRun (s : State) (l : Nat) (va : W64) : Nat → List W64 ⊕ Trap
  | 0 => .inl []
  | n + 1 => match s.fetchAt l va with
    | .inr t => .inr t
    | .inl w => match s.fetchRun l (va + 8) n with
      | .inr t => .inr t
      | .inl ws => .inl (w :: ws)

/-- Is the header's form right (R70, R85)? -/
def headerOk (h : W64) : Bool := field h 60 4 = 10 && classOf h < 6

/-- A clause fetched whole: header and words; or the fault record of the lanes that would run it (R70, R71, R85; a
fault of the fetch itself has WORD and CLASS 0, spec/24 R356). DESIGN CHOICE: a bad header is reported before a fault
of a later word's fetch (log entry 63). -/
def State.fetchClause (s : State) (l : Nat) (pc : Addr48) : (W64 × List W64) ⊕ FaultRec :=
  let va : W64 := pc.setWidth 64
  let failed (t : Trap) : FaultRec := { code := t.code, pc := pc, addr := t.addr, opnd := t.opnd, info := t.info }
  match s.fetchAt l va with
  | .inr t => .inr (failed t)
  | .inl h =>
    if !headerOk h then
      .inr { code := Code.header, cls := classOf h, pc := pc, word := h, info := classOf h }
    else
      let ws := s.fetchRun l (va + 8) (nslot h + 1)
      if field h 0 40 ≠ 0 then
        let w := match ws with
          | .inl ws => ws.getD 0 0
          | .inr _ => 0
        .inr { code := Code.reservedField, cls := classOf h, pc := pc, word := w, addr := va, info := 0xFFFF }
      else match ws with
        | .inr t => .inr (failed t)
        | .inl ws => .inl (h, ws)

/-- The clause a lane goes on with: the one it has kept, or its next, fetched (R71). -/
def State.nextClauseOf (s : State) (l : Nat) : (W64 × List W64) ⊕ FaultRec :=
  match (s.lane l).kept with
  | some c => .inl (c.header, c.words)
  | none => s.fetchClause l (s.lane l).pc

/-- The fetch of a lane's next clause, unless it has kept it: its lines come into the instruction cache, and the errors
of its words are met. -/
def State.fetchMeets (s : State) (l : Nat) : State :=
  if (s.lane l).kept.isSome then s
  else
    let va : W64 := (s.lane l).pc.setWidth 64
    let s := s.meetFetch l va
    match s.fetchAt l va with
    | .inr _ => s
    | .inl h => (List.range (if headerOk h then nslot h + 1 else 0)).foldl (fun t i => t.meetFetch l (va + 8 + BitVec.ofNat 64 (8 * i))) s

/-! ## Readiness (spec/04 R72, spec/09 R148) -/

/-- Does the lane go on part-way through a clause: at a nonzero resume slot (R73), or at the slot that TRANSLATION held
it at (spec/02 R22)? -/
def Lane.midway (x : Lane) : Bool := x.rslot ≠ 0 || x.kept.isSome

/-- The partition a lane belongs to (R146). -/
def State.partOf (s : State) (l : Nat) : Nat :=
  if (s.blockCores (coreOf l)).length = 2 then homeWarp l / 2 % 4 else homeWarp l % 4

/-- The lanes of a partition's formation pool. -/
def State.pool (s : State) (core part : Nat) : List Nat := (s.coreLanes core).filter fun l => s.partOf l == part

/-- Does a counter meet its threshold? 7 does not wait. -/
def meetsThreshold (count t : Nat) : Bool := t = 7 || count ≤ t

/-- Are a warp's counters at or below a header's thresholds? -/
def thresholdsMet (w : Warp) (h : W64) : Bool :=
  meetsThreshold w.ldc (field h 49 3) && meetsThreshold w.stc (field h 46 3) && meetsThreshold w.mxc (field h 43 3)
    && meetsThreshold w.tlc (field h 40 3)

/-- Is a lane's next clause open to it: part-way through one always, else by the thresholds; a clause that cannot be
fetched shows its fault when it is formed. -/
def State.clauseOpen (s : State) (l : Nat) : Bool :=
  let x := s.lane l
  x.midway || match s.fetchAt l (x.pc.setWidth 64) with
    | .inl h => !headerOk h || thresholdsMet (s.warp (warpOf l)) h
    | .inr _ => true

/-- Is the lane Ready: idle, not Meeting, no run's fault to take between clauses, its clause open; or Held with no lane
awaited any more (R162)? -/
def State.ready (s : State) (l : Nat) : Bool :=
  let x := s.lane l
  match x.status with
  | .idle => !x.meeting && (x.runFaults.isEmpty || x.midway || x.runHandler ≠ .normal) && s.clauseOpen l
  | .held _ => s.heldReady l
  | _ => false

/-- The issue key (R149), as one number. -/
def State.issueKey (s : State) (l : Nat) : Nat :=
  let x := s.lane l
  (((if x.defer then 1 else 0) * 1024 + (1023 - x.depth.toNat)) * 2 ^ 48 + x.pc.toNat) * 4096 + l % 4096

/-- The lane of lowest key. -/
def State.lowestKey (s : State) : List Nat → Option Nat
  | [] => none
  | l :: ls => match s.lowestKey ls with
    | none => some l
    | some m => some (if s.issueKey m < s.issueKey l then m else l)

/-- Lanes restored from an image part-way through a clause go first (spec/24 R357). -/
def Lane.resumed (x : Lane) : Bool := x.restored && x.rslot ≠ 0

/-- The lead of a partition's next group (R150). -/
def State.lead (s : State) (ready : List Nat) : Option Nat :=
  match s.lowestKey (ready.filter fun l => (s.lane l).resumed) with
  | some l => some l
  | none => s.lowestKey ready

/-- For each home lane, the candidate of lowest key. -/
def State.onePerPosition (s : State) (c : List Nat) : List Nat :=
  sortLanes ((List.range 32).filterMap fun p => s.lowestKey (c.filter fun l => homeLane l == p))

/-- The members of the group that a lead forms (R150, R162, R165, spec/02 R22, spec/24 R357); the lead takes its own
position, whatever the keys. -/
def State.members (s : State) (ready : List Nat) (l : Nat) : List Nat :=
  let x := s.lane l
  match x.status with
  | .held _ => sortLanes (s.heldAt (warpOf l) x.pc x.rslot x.depth.toNat)
  | _ =>
    if x.resumed then
      sortLanes (ready.filter fun m =>
        let y := s.lane m
        warpOf m == warpOf l && y.resumed && y.pc == x.pc && y.depth == x.depth && y.rslot == x.rslot)
    else if x.midway then [l]
    else s.onePerPosition (ready.filter fun m =>
      let y := s.lane m
      m == l || homeLane m != homeLane l && y.status == .idle && !y.midway && y.depth == x.depth && y.pc == x.pc)

/-! ## Forming a group (R150) -/

/-- A lane joins a group: it clears DEFER and is In flight. -/
def Lane.join (x : Lane) (now : Nat) : Lane :=
  { x with defer := false, status := .inFlight, rslot := 0, kept := none, restored := false, readyAt := now }

/-- A clause that cannot be run faults in a lane. TRANSLATION holds a lane restored part-way through its clause at that
resume slot. -/
def State.failClause (s : State) (l : Nat) (f : FaultRec) : State :=
  let k := (s.lane l).rslot
  let t := (s.modLane l (·.join s.cycles)).deliver l f
  if f.code = Code.translation then t.modLane l fun x => { x with rslot := k } else t

/-- A group formed by a lead; a lane whose resume slot lies behind its clause's end goes on at the following clause. -/
def State.form (s : State) (core part : Nat) (ready : List Nat) (l : Nat) : State :=
  let x := s.lane l
  let s := s.fetchMeets l
  let ls := s.members ready l
  match s.nextClauseOf l with
  | .inr f => (ls.foldl (fun t m => t.failClause m f) s).meet ls
  | .inl (h, ws) =>
    if nslot h < x.rslot then (ls.foldl (fun t m => t.goTo m (nextClause x.pc h)) s).meet ls
    else
      let k := groupKey core part (pathOf (classOf h))
      if (tfind s.groups k).isSome then s
      else
        let s := ls.foldl (fun t m => t.modLane m (·.join s.cycles)) s
        { s with groups := tset s.groups k { lanes := ls, pc := x.pc, header := h, words := ws, slot := x.rslot } }

/-- Can a lane's next group form: is the path of its clause free (R151)? -/
def State.pathFree (s : State) (core part l : Nat) : Bool :=
  match s.nextClauseOf l with
  | .inr _ => true
  | .inl (h, _) => nslot h < (s.lane l).rslot || (tfind s.groups (groupKey core part (pathOf (classOf h)))).isNone

/-! ## The progress promise (R164, R165) -/

/-- Is the lane a runnable thread? -/
def Lane.runnable (x : Lane) : Bool :=
  !x.helper && !x.meeting && match x.status with
    | .idle => true
    | .inFlight => true
    | .held _ => true
    | .refining => true
    | _ => false

/-- The runnable thread of lowest GTID among some lanes. -/
def State.lowestThread (s : State) : List Nat → Option Nat
  | [] => none
  | l :: ls => match s.lowestThread ls with
    | none => some l
    | some m => some (if (s.gtid m).toNat < (s.gtid l).toNat then m else l)

/-- The runnable thread of lowest GTID of a launch. -/
def State.firstThread (s : State) (x : Launch) : Option Nat :=
  s.lowestThread ((x.cores.flatMap s.coreLanes).filter fun l => (s.lane l).runnable)

/-- Must a partition's next group have this lane as its lead: the launch's first thread, Ready for 65,536 cycles, its
path free (R165)? -/
def State.mustLead (s : State) (core part l : Nat) : Bool :=
  coreOf l == core && s.partOf l == part && s.issues core && s.ready l && (s.lane l).readyAt + 65536 ≤ s.cycles
    && s.pathFree core part l

/-- The lead that the progress promise forces on a partition. -/
def State.forcedLead (s : State) (core part : Nat) : Option Nat :=
  ((s.launchOf core).bind s.firstThread).filter fun l => s.mustLead core part l

/-- ISSUE_GROUP_FORM: a forced lead comes before every key. -/
def execIssueGroupForm (core part : Nat) (s : State) : Out :=
  if !(core < Config.cores && part < 4) then .fault .noSuchUnit
  else if !s.issues core then .next s
  else
    let ready := (s.pool core part).filter s.ready
    match (s.forcedLead core part).orElse fun _ => s.lead ready with
    | none => .next s
    | some l => .next (s.form core part ready l)

/-- PROGRESS_FORCED_LEAD. -/
def execProgressForcedLead (core part : Nat) (s : State) : Out :=
  if !(core < Config.cores && part < 4) then .fault .noSuchUnit
  else match s.forcedLead core part with
    | none => .next s
    | some l => .next (s.form core part ((s.pool core part).filter s.ready) l)

/-- The partition where some running launch's first thread must lead now: core and partition. -/
def State.overdue (s : State) : Option (Nat × Nat) :=
  s.launches.findSome? fun p =>
    if p.2.state != .running then none
    else (s.firstThread p.2).bind fun l =>
      if s.mustLead (coreOf l) (s.partOf l) l then some (coreOf l, s.partOf l) else none

/-! ## A slot's instruction (spec/04 R73, R76; spec/02 R41) -/

/-- The registers that a pending load, atomic or tile load of the group's lanes will write. -/
def MemOp.target (o : MemOp) : Option (Operand × Nat) :=
  match o.kind with
  | .load d size _ => some (d, (sizeBytes size + 3) / 4)
  | .tload _ d size => some (d, (sizeBytes size + 3) / 4)
  | .gload d _ _ => some (if h : d < 64 then .g ⟨d, h⟩ else .none, 1)
  | .atom _ w64 (some d) _ _ _ => some (d, if w64 then 2 else 1)
  | .cas w64 d _ _ _ => some (d, if w64 then 2 else 1)
  | _ => none

/-- Predicates P0 to P6. -/
def allPreds : List (Operand × Nat) := (List.finRange 7).map fun k => (Operand.p (k.castLE (by decide)), 1)

/-- The registers from V0 to V15 that a PARK's lanes save, with P0 to P6 (spec/17 R311). -/
def State.parkSpans (s : State) (g : Guard) (c : Operand) : List (Operand × Nat) :=
  allPreds ++ ((List.finRange 16).filter fun k => (s.execThreads g).any fun l => (s.src l .int c).getLsbD k.val).map
    fun k => (Operand.v (k.castLE (by decide)), 1)

/-- The registers beside its fields that an instruction reads or writes: COPY's origin run by its record's rank (spec/13
R235), what PARK saves, MOVP's predicate set (spec/07 R121), and the P6 of an exchange (spec/02 R27). -/
def State.implicitSpans (s : State) (i : Instr) : List (Operand × Nat) :=
  match i with
  | .copy g o _ _ _ _ => [(o.b, ((s.servants g).map fun l => recRank (s.srcRun l 24 o.a)).foldl max 1)]
  | .park g o _ _ _ _ => s.parkSpans g o.c
  | .movpRead _ _ => allPreds
  | .movpWrite _ _ => allPreds
  | .qswap _ _ _ => [(.p 6, 1)]
  | .qbcast _ _ _ => [(.p 6, 1)]
  | .wshfl _ _ _ => [(.p 6, 1)]
  | .vote _ _ _ => [(.p 6, 1)]
  | .wred _ _ _ => [(.p 6, 1)]
  | .wscan _ _ _ _ => [(.p 6, 1)]
  | .wmatch _ _ => [(.p 6, 1)]
  | _ => []

/-- Does the instruction read or write the whole of SR.GSTAT? A guarded load on its way may still set a bit there
(spec/16 R296); an instruction that sets bits itself need not wait, since bits only gather. -/
def readsStatus (i : Instr) : Bool :=
  match i with
  | .gstat _ _ _ => true
  | .movsrRead _ _ sr => sr == .gstat
  | .srwr _ _ sr => sr == .gstat
  | _ => false

/-- Does a value still on its way concern the instruction in one of the group's lanes? The slot then waits (R73). -/
def State.interlocked (s : State) (i : Instr) : Bool :=
  let spans := instrSpans i ++ s.implicitSpans i ++ (match i.fields with
    | some (g, _) => [(Operand.p g.idx, 1)]
    | none => [])
  s.ops.any fun o => !o.returned && (match o.target with
    | some (d, n) => (if isSReg d then (warpsOf s.group.lanes).contains o.warp else s.group.lanes.contains o.lane)
        && (spans.any (fun p => spansMeet d n p.1 p.2) || readsStatus i && (match o.kind with
          | .gload _ _ _ => true
          | _ => false))
    | none => false)

/-- Does another group of the core hold a warp of the current group in a release: in its stall, or before the slot that
releases has run (spec/12 R207, R209)? -/
def State.stalledElsewhere (s : State) : Bool :=
  let ws := warpsOf s.group.lanes
  s.groups.any fun p => some p.1 ≠ s.cur && groupCore p.1 == s.curCore && match p.2.wait with
    | some (.release vs _ _) => vs.any ws.contains
    | _ => p.2.released && p.2.relWarps.any ws.contains

/-- Is the D field of an instruction one that it reads? -/
def readsD (k : FieldKind) : Bool :=
  match k with
  | .srcPair => true
  | .srcData => true
  | .handleOrPair => true
  | .evenRunOpt _ => true
  | .evenRun _ => true
  | .run _ => true
  | _ => false

/-- The registers an instruction reads. -/
def sourceSpans (i : Instr) : List (Operand × Nat) :=
  match i.fields with
  | none => []
  | some (g, _) => (if readsD i.shape.d then instrSpans i else (instrSpans i).drop 1) ++ [(Operand.p g.idx, 1)]

/-- The bytes of memory that a lane's instruction reads in its slot: WAITW's word, RET's refill. -/
def State.slotReads (s : State) (i : Instr) (l : Nat) : List (Nat × Nat) :=
  match i with
  | .waitw _ o _ w64 _ => match s.waitWord l o w64 with
    | .inl (.mem pa) => [(canonPa pa, wordBytes w64)]
    | _ => []
  | .ret _ => match s.retStep l with
    | .go _ (some pa) => [(canonPa pa, 8)]
    | _ => []
  | _ => []

/-- The registers beside its fields that an instruction reads: COPY's origin run, what PARK saves, MOVP's predicate
set. -/
def State.implicitReads (s : State) (i : Instr) : List (Operand × Nat) :=
  match i with
  | .copy _ _ _ _ _ _ => s.implicitSpans i
  | .park _ _ _ _ _ _ => s.implicitSpans i
  | .movpRead _ _ => allPreds
  | _ => []

/-- Does a run of registers meet the granule of one? P7 is no storage. -/
def granuleMeets (o q : Operand) (n : Nat) : Bool :=
  match o, q with
  | .p _, .p i => i ≠ 7
  | _, _ => spansMeet o 2 q n

/-- Is a site's register one of a lane: its own, or its warp's? -/
def ofLane (k : Nat) (o : Operand) (l : Nat) : Bool := if isSReg o then warpOf k == warpOf l else k == l

/-- Does a lane's instruction read the data of a site in its slot (spec/26 R372)? -/
def State.readsSite (s : State) (i : Instr) (l : Nat) (site : Site) : Bool :=
  match site with
  | .lane k o => ofLane k o l && (sourceSpans i ++ s.implicitReads i).any fun p => granuleMeets o p.1 p.2
  | .loaded k o => ofLane k o l && (sourceSpans i ++ s.implicitReads i).any fun p => spansMeet o 1 p.1 p.2
  | .acc p r c => match i with
    | .mxld _ o => p == pairOf (coreOf l) && (s.src l .int o.a).toNat == r && (s.src l .int o.b).toNat % 64 / 2 * 2 == c
    | _ => false
  | .tile _ _ _ => match i with
    | .waitw _ o _ w64 _ => match s.waitWord l o w64 with
      | .inl (.tile k e) => tileSite k (e * wordBytes w64) (wordBytes w64) site
      | _ => false
    | _ => false
  | _ => (s.slotReads i l).any fun p => touchesSite p.1 p.2 site || loadSite (coreOf l) p.1 p.2 site

/-- Errors met by the slot's executing lanes: what can be is corrected; a lane that meets another takes MACHINE_CHECK at
the slot (spec/26 R371, R372); a helper becomes dormant, and no context is killed. -/
def State.meetSlotErrors (s : State) (g : Guard) (i : Instr) : State :=
  if s.upsets.isEmpty then s
  else (s.exec g).foldl (fun t l =>
    let t := (s.slotReads i l).foldl (fun t p => (linesOf p.1 p.2).foldl State.fillL2 t) t
    let r := t.consume (s.readsSite i l) s.curCore (if (s.lane l).helper then 0 else s.launchNum s.curCore)
    if r.2 then r.1.trap l { code := Code.machineCheck } else r.1) s

/-- Do runs of written registers cover the granule of a register whole: both of a pair, or a lane's seven predicates? -/
def coversGranule (ws : List (Operand × Nat)) (o : Operand) : Bool :=
  let has (o : Operand) : Bool := ws.any fun p => spansMeet o 1 p.1 p.2
  match o with
  | .p _ => allPreds.all fun p => has p.1
  | _ => has o && has (laterReg o 1)

/-- The registers that an instruction writes: D, or what MOVP's mask names. -/
def State.writtenSpans (s : State) (i : Instr) (l : Nat) (o : Ops) : List (Operand × Nat) :=
  match i with
  | .movpWrite _ _ => allPreds.filter fun p => match p.1 with
    | .p k => o.b == .none || (s.src l .int o.b).getLsbD k.val
    | _ => false
  | _ => if readsD i.shape.d then [] else [(o.d, fieldSpan i.shape.d)]

/-- Errors in registers that a lane has written: of granules covered whole, and of failing data replaced (spec/26
R372). -/
def State.clearLane (s : State) (i : Instr) (o : Ops) (u : State) (l : Nat) : State :=
  let ws := s.writtenSpans i l o
  u.overwrite fun site => match site with
    | .lane k x => ofLane k x l && coversGranule ws x
    | .loaded k x => ofLane k x l && ws.any fun p => spansMeet x 1 p.1 p.2
    | _ => false

/-- Errors in registers that the slot's lanes have written vanish, once the slot has run in them: `s` is the state it
ran in, `u` the state it left. -/
def State.clearWritten (s : State) (i : Instr) (u : State) (k : Nat) : State :=
  if u.upsets.isEmpty then u
  else match i.fields, tfind u.groups k with
    | some (g, o), some grp =>
      if grp.wait.isSome then u else ((s.exec g).filter grp.lanes.contains).foldl (s.clearLane i o) u
    | _, _ => u

/-- Does a word name a SYS instruction, or a privileged special register (R85, spec/02 R31)? -/
def privilegedWord (w : W64) : Bool :=
  let opc := field w 56 8
  0xE0 ≤ opc && opc ≤ 0xE3 || opc = 0x3E && 0x20 ≤ field w 0 8 && field w 0 8 ≤ 0x24

/-- The trap of a word that is no instruction; `w` the word, `va` its address (R85; spec/02 R40). -/
def encTrap (f : EncFault) (w va : W64) : Trap :=
  let opc := field w 56 8
  match f with
  | .cls o => { code := Code.cls, opnd := o, info := opc }
  | .illegalOp => { code := Code.illegalOp, info := opc }
  | .reservedField i => { code := Code.reservedField, addr := va + BitVec.ofNat 64 (8 * i), info := i }
  | .illegalOperand i o => { code := Code.illegalOperand, opnd := o, info := i }

/-- Does PRIV come before the fault (spec/02 R41)? -/
def encAfterPriv : EncFault → Bool
  | .reservedField _ => true
  | .illegalOperand _ _ => true
  | _ => false

/-- The lanes of the group that the word's privilege turns away (R85, spec/24 R363). -/
def State.unprivileged (s : State) (w : W64) : List Nat :=
  if privilegedWord w then s.group.lanes.filter fun l =>
    !(s.lane l).privileged && !(field w 56 8 = 0xE0 && (s.lane l).hmode == .user)
  else []

/-- A word that is no instruction: every lane of the group takes its fault, whatever its predicate (R76). -/
def State.badWord (s : State) (f : EncFault) : State :=
  let g := s.group
  let ls := g.lanes
  let deny := if encAfterPriv f then s.unprivileged g.word else []
  let s := s.trapAll deny { code := Code.priv, info := field g.word 56 8 }
  s.trapAll (ls.filter fun l => !deny.contains l) (encTrap f g.word (slotAddr g.pc g.slot))

/-- The current slot decoded under the launch's allocation; a literal slot that a resume slot names too (log entry 72).
-/
def State.slotDecode (s : State) : Decoded :=
  let g := s.group
  decode (((s.launchOf s.curCore).map Launch.alloc).getD Alloc.full) (classOf g.header) g.word g.words[g.slot + 1]?

/-- Slots an instruction takes. -/
def slotsOf (i : Instr) : Nat :=
  match i.fields with
  | some (_, o) => if (litSlot o).isSome then 2 else 1
  | none => 1

/-- Slots the current word takes. -/
def State.slotWidth (s : State) : Nat :=
  match s.slotDecode with
  | .ok i => slotsOf i
  | .error _ => 1

/-- A group at its next slot; at the clause's end its lanes go on at the following clause (R69). -/
def State.advanceGroup (s : State) (k : Nat) (g : Group) (width : Nat) : State :=
  if g.slot + width ≤ nslot g.header then
    { s with groups := tset s.groups k { g with slot := g.slot + width, released := false, served := [] } }
  else
    let s : State := { s with groups := tdel s.groups k }
    g.lanes.foldl (fun t l => t.modLane l fun x =>
      { x with pc := nextClause g.pc g.header, rslot := 0, status := .idle, kept := none, readyAt := s.cycles }) s

/-- What follows a slot: the group goes on unless it waits or no lane is left, and the meetings of the warps it had are
evaluated (R154). -/
def State.finishSlot (s : State) (k width : Nat) (ls : List Nat) : State :=
  let s := match tfind s.groups k with
    | none => s
    | some g =>
      if g.lanes.isEmpty then { s with groups := tdel s.groups k }
      else if g.wait.isSome then s
      else s.advanceGroup k g width
  ({ s with cur := none } : State).meet ls

/-- The next slot of the group on a partition path (R73, R76): its word is decoded under the launch's allocation and
runs in its lanes, `ex` being what an instruction does; a group that waits, whose launch does not run, or whose slot
needs a value still on its way stands still. -/
def runSlot (ex : Instr → State → Out) (core part path : Nat) (s : State) : Out :=
  let k := groupKey core part path
  if !(core < Config.cores && part < 4 && path < 4) then .fault .noSuchUnit
  else match tfind s.groups k with
    | none => .next s
    | some g =>
      let t : State := { s with cur := some k }
      if g.wait.isSome || !s.issues core || t.stalledElsewhere then .next s
      else match t.slotDecode with
        | .error f => .next ((t.badWord f).finishSlot k 1 g.lanes)
        | .ok i =>
          if t.interlocked i then .next s
          else
            let t := match i.fields with
              | some (gd, _) => t.meetSlotErrors gd i
              | none => t
            match ex i t with
            | .next u => .next ((t.clearWritten i u k).finishSlot k (slotsOf i) g.lanes)
            | .fault f => .fault f
            | .refused r => .refused r

/-! ## Time (spec/01 R13, R14; spec/17 R306; spec/09 R165) -/

/-- A core whose bin timers have run for some cycles. -/
def Core.elapse (k : Core) (n : Nat) : Core :=
  { k with bins := k.bins.map fun p => (p.1, { p.2 with timer := p.2.timer.map fun t => t - n }) }

/-- How far each die's clock stands ahead after `n` ticks: no die's GT ever falls. -/
def nextSkew (old new : List (Fin 3)) (n : Nat) : List (Fin 3) :=
  (List.range Config.dies).map fun d => Fin.ofNat 3 (max (new.getD d 0).val ((old.getD d 0).val - n))

/-- `n` ticks of GT: the core clock's cycles with them, the bins' timers, and since when each lane that is not Ready has
waited. -/
def State.passTime (s : State) (n : Nat) (skew : List (Fin 3)) : State :=
  let k := n * s.clock + s.cycleRem
  let now := s.cycles + k / 10
  { s with
    gt := s.gt + n, skew := nextSkew s.skew skew n, cycles := now, cycleRem := k % 10
    cores := s.cores.map fun p => (p.1, p.2.elapse (k / 10))
    lanes := s.lanes.map fun p => (p.1, if s.ready p.1 then p.2 else { p.2 with readyAt := now }) }

/-- What the turn at hand does; a turn of another agent names one of its steps. -/
def runTurn (ex : Instr → State → Out) (s : State) : Out :=
  match s.turn with
  | .slot core part path => runSlot ex core part path s
  | .event i => if i.fields.isNone then ex i s else .next s
  | .tick n skew => .next (s.passTime n skew)
  | .upset site unc synd => .next (s.strike site unc synd)

/-- The state with the next turn at hand: a lead that the progress promise forces comes at once (spec/09 R165); else any
turn may come. -/
def State.nextTurn (s : State) : State :=
  { s with
    turn := match s.overdue with
      | some (c, p) => .event (.progressForcedLead c p)
      | none => Config.turn s.turns
    turns := s.turns + 1 }

/-! ## Placing one instruction to run (for tests) -/

/-- The launch of one lane that runs one placed instruction: every register allocated. -/
def probeLaunch : Launch :=
  { record := [0, BitVec.ofNat 64 (64 * 2 ^ 32 + 64 * 2 ^ 25 + 384 * 2 ^ 16 + 1)], cores := [0], state := .running }

/-- The clause of one placed instruction, from its words: the header of its class, and its slots. -/
def probeGroup (word lit : W64) : Group :=
  let cls := opcodeClass (field word 56 8)
  let width := match decode Alloc.full cls word (some lit) with
    | .ok i => slotsOf i
    | .error _ => 1
  { lanes := [0], pc := 256, words := [word, lit]
    header := BitVec.ofNat 64 (10 * 2 ^ 60 + cls * 2 ^ 56 + (width - 1) * 2 ^ 52 + 0xFFF * 2 ^ 40) }

/-- The state whose next turn runs a placed instruction: one privileged lane of core 0, in a group that stands at it. -/
def State.probe (s : State) (word lit : W64) : State :=
  let path := pathOf (opcodeClass (field word 56 8))
  { s with
    turn := .slot 0 0 path
    launches := tset s.launches 0 probeLaunch
    cores := tset s.cores 0 { s.core 0 with launch := some 0, block := some 0 }
    blocks := tset s.blocks 0 { launch := 0, id := 0, cores := [0], threads := 1, whole := false }
    lanes := tset s.lanes 0 { status := .inFlight, member := true, pc := 256, priv := 1 }
    groups := tset s.groups (groupKey 0 0 path) (probeGroup word lit) }

/-! ## Run faults (spec/13 R391) -/

/-- A lane that has taken a run's fault is in that fault's handler (R391). -/
def Lane.tookRunFault (x : Lane) : Lane := { x with runHandler := x.hmode }

/-- RUN_FAULT_DELIVERY: the run's fault of the operation first issued goes to a lane that stands between clauses and is
in no earlier one's handler. -/
def execRunFaultDelivery (lane : Nat) (s : State) : Out :=
  let x := s.lane lane
  let between := match x.status with
    | .idle => !x.midway
    | .asleepWaitw _ _ => true
    | .asleepBar _ => true
    | _ => false
  match x.runFaults with
  | [] => .next s
  | (_, f) :: fs =>
    if !between || x.runHandler ≠ .normal || !s.issues (coreOf lane) then .next s
    else .next ((((s.setLane lane { x with runFaults := fs, status := .idle, rslot := 0 }).deliver lane f).modLane lane
      (·.tookRunFault)).meet [lane])

/-! ## TRANSLATION (spec/02 R42, spec/24 R367) -/

/-- A trap with TRANSLATION turned into ACCESS. -/
def Trap.refused (t : Trap) : Trap := if t.code = Code.translation then { t with code := Code.access } else t

/-- A copy engine's run or completion whose next access misses a page for a lane ends there with ACCESS. -/
def State.refuseCopy (s : State) (c : Nat) (eng : Bool) (l : Nat) : State :=
  let q := (s.core c).copies eng
  let refuse (r : CopyStep) (e : Trap) : State :=
    if e.code = Code.translation then r.st.copyFault eng r.op e.refused else s
  match nextCopy q with
  | some o =>
    if o.org.lane ≠ l || !s.copyReady o then s
    else match s.copyPlan eng o 1 with
      | .wait => s
      | .fault t op e => refuse { st := t, op := op } e
      | .move t op m =>
        let r := t.copyMove eng op m
        match r.fault with
        | some e => refuse r e
        | none => s
  | none => match q with
    | o :: _ => match o.done with
      | some d => match s.writeCompletion o.org d with
        | .inr t => if o.org.lane = l ∧ o.moved ∧ t.code = Code.translation then (s.endCopy eng o).runFault o.id o.org t.refused else s
        | .inl _ => s
      | none => s
    | [] => s

/-- A drain whose next row misses a page for a lane ends there with ACCESS. -/
def State.refuseDrain (s : State) (pair l : Nat) : State :=
  match s.nextDrain pair with
  | none => s
  | some d =>
    let b := s.beginDrain pair d
    let r := if b.fault.isSome then b else b.st.drainRows pair b.op 1
    match r.fault with
    | some e =>
      if d.org.lane = l ∧ s.drainReady d ∧ e.code = Code.translation then
        ((r.st.modLane l (·.sticky r.op.flags)).endDrain pair r.op r.op.times).runFault d.id d.org e.refused
      else s
    | none => s

/-- A drain's AMAX word that misses a page for a lane. -/
def State.refuseAmax (s : State) (pair l : Nat) : State :=
  match (s.pair pair).drains.find? fun d => d.moved with
  | none => s
  | some d => match d.amax with
    | none => s
    | some (va, _) => match s.checkVa d.org.core (s.capxOf d.org.core) .write 4 va with
      | .inr t => if d.org.lane = l ∧ t.code = Code.translation then (s.endDrain pair d d.times).runFault d.id d.org t.refused else s
      | .inl _ => s

/-- TRANSLATION_RESOLVED: firmware may write a table entry; a held lane then runs its slot afresh, or takes ACCESS; an
engine's run that firmware cannot help ends with ACCESS in its lane. -/
def execTranslationResolved (lane : Nat) (resolved : Bool) (entryAddr : Nat) (entry : Option W64) (s : State) : Out :=
  let s := match entry with
    | some e => (s.agentWrite 0 (entryAddr / 8 * 8) (toLe e.toNat 8)).1.unseal
    | none => s
  match (s.lane lane).status, resolved with
  | .translating _, true => .next (s.modLane lane fun x => { x with status := .idle, readyAt := s.cycles })
  | .translating f, false => .next ((s.deliver lane { f with code := Code.access }).meet [lane])
  | _, true => .next s
  | _, false =>
    let c := coreOf lane
    let p := pairOf c
    .next ((((s.refuseCopy c false lane).refuseCopy c true lane).refuseDrain p lane).refuseAmax p lane)

/-- A translation put in a TLB of so many entries: the oldest goes. -/
def tlbPut (t : List TlbEntry) (n : Nat) (e : TlbEntry) : List TlbEntry :=
  let mine := t.filter fun x => x.tlb == e.tlb && !(x.capx == e.capx && x.page == e.page && x.sizeLog == e.sizeLog)
  let rest := t.filter fun x => x.tlb != e.tlb
  e :: mine.take (n - 1) ++ rest

/-- The errors of the entries that a walk reads: met by the walker, corrected or logged (spec/26 R371; log entry 87). -/
def State.walkMeets (s : State) (core capx va : Nat) : State :=
  if s.upsets.isEmpty then s
  else match tfind s.roots capx with
    | some root => (s.walkReads va root 4).foldl (fun t a => (t.consumeHome touchesSite a 8 core 0).1) s
    | none => s

/-- TABLE_WALK: the leaf of a walk goes to the TLBs of the core and of its cluster. -/
def execTableWalk (core : Nat) (va : W64) (s : State) : Out :=
  if !(core < Config.cores) then .fault .noSuchUnit
  else
    let capx := s.capxOf core
    let s := if canonical va && (s.core core).launch.isSome then s.walkMeets core capx (field va 0 57) else s
    match (if canonical va && (s.core core).launch.isSome then s.walk capx (field va 0 57) else none) with
    | none => .next s
    | some (leaf, k) =>
      let e : TlbEntry := { tlb := core, capx := capx, page := field va 0 57 / 2 ^ k, sizeLog := k, leaf := leaf }
      .next { s with tlb := tlbPut (tlbPut s.tlb 512 e) 8192 { e with tlb := clusterTlb core } }

end Sys2Proof.Machine
end

