-- ==== Sys2Proof/Machine/Packets.lean ====
section
/-! DEFINITION. The packets other than LAUNCH: COPY, DEPEND, SEAL, FLUSH, SIGNAL and NETWRITE, each its action and then
its signal step (spec/23 R345, R348 to R350; spec/12 R220, R222). -/

namespace Sys2Proof.Machine

/-! ## An act and its two steps -/

/-- A dispatched packet of a type that is not complete. -/
def Queue.act (y : Queue) (idx type : Nat) : Option Act := y.acts.find? fun a => a.idx == idx && packetType a.packet == type

/-- The head's act, of a type. -/
def Queue.headAct (y : Queue) (idx type : Nat) : Option Act :=
  y.head.filter fun a => a.idx == idx && packetType a.packet == type

/-- The queue without a packet that is complete. -/
def State.endAct (s : State) (d q idx : Nat) : State :=
  s.modQueue d q fun y => { y with acts := y.acts.filter fun a => a.idx ≠ idx }

/-- The queue with a packet whose action is done. -/
def State.actDone (s : State) (d q idx : Nat) (times : Tab Nat) : State :=
  s.modQueue d q fun y =>
    { y with acts := y.acts.map fun a => if a.idx = idx then { a with acted := true, times := times } else a }

/-- The signal step of a packet whose action is done. -/
def State.signalAct (s : State) (d q : Nat) (y : Queue) (a : Act) : State :=
  match s.signalStep d y.capx a.packet a.times 0 false with
  | none => s
  | some t => t.endAct d q a.idx

/-- A packet's next step: the action, which answers none while it must wait, or the signal. -/
def packetStep (d q idx type : Nat) (s : State) (action : Queue → Act → Option (State × Tab Nat)) : Out :=
  if !(d < Config.dies && q < 64) then .fault .noSuchUnit
  else match s.queue d q with
    | none => .next s
    | some y => match y.act idx type with
      | none => .next s
      | some a =>
        if a.acted then .next (s.signalAct d q y a)
        else match action y a with
          | none => .next s
          | some (t, times) => .next (t.actDone d q idx times)

/-- GT of a die as the completion time at every scope. -/
def State.timesNow (s : State) (d : Nat) : Tab Nat := scopes.foldl (fun t sc => tput 0 t sc.code (s.dieGt d)) []

/-! ## COPY (R348) -/

/-- Is every page of a range ready for an access? -/
def State.rangeReady (s : State) (capx : Nat) (ask : Ask) (va : W64) (n : Nat) : Bool :=
  (pagePieces va n).all fun p => match s.checkVa cpAgent capx ask 1 p.1 with
    | .inl _ => true
    | .inr _ => false

/-- May an agent meet a range now: no line of it half written by an engine's operation; and where the agent writes,
none that an operation under way is still to write in (spec/12 R213)? -/
def State.rangeFree (s : State) (capx : Nat) (va : W64) (n : Nat) (writes : Bool) : Bool :=
  s.writers.isEmpty || (pagePieces va n).all fun p => match s.translate cpAgent capx (.sys false) p.1 with
    | .ok pa => (linesOf (canonPa pa) p.2).all fun line => !(if writes then s.lineOwned line else s.halfWritten s.nextId line)
    | _ => true

/-- A byte range cut at lines of 256 bytes: offset and length of each piece. -/
def lineSpans (a n : Nat) : List (Nat × Nat) :=
  if n = 0 then []
  else
    let k := min n (256 - a % 256)
    (0, k) :: (List.range ((n - k + 255) / 256)).map fun i => (k + 256 * i, min 256 (n - k - 256 * i))

/-- The pieces of a virtual byte range, each within a line. -/
def linePieces (va : W64) (n : Nat) : List (W64 × Nat) :=
  (lineSpans va.toNat n).map fun p => (va + BitVec.ofNat 64 p.1, p.2)

/-- Bytes written by an agent line by line, with the records of its writes. -/
def State.writeLines (s : State) (capx : Nat) (bs : List Byte) : List (W64 × Nat) → State × List WriteRec
  | [] => (s, [])
  | (va, n) :: rest =>
    match s.storeVa cpAgent capx .write 0 va (bs.take n) with
    | .inr _ => (s, [])
    | .inl (t, r) =>
      let x := t.writeLines capx (bs.drop n) rest
      (x.1, r :: x.2)

/-- Storage errors under a range that an agent reads. -/
def State.rangeErrors (s : State) (capx : Nat) (va : W64) (n : Nat) : State × Bool :=
  if s.upsets.isEmpty then (s, false)
  else (pagePieces va n).foldl (fun r p =>
    let x := r.1.cpErrors capx p.1 p.2
    (x.1, r.2 || x.2)) (s, false)

/-- COPY: the die's copy agent reads the whole source, then writes the destination. -/
def execCopyPacket (die q idx : Nat) (s : State) : Out :=
  packetStep die q idx 2 s fun y a =>
    let n := field (dword a.packet 6) 0 32
    match s.readVa cpAgent y.capx .read (dword a.packet 1) n with
    | none => none
    | some bs =>
      if !s.rangeReady y.capx .write (dword a.packet 4) n || !s.rangeFree y.capx (dword a.packet 1) n false
          || !s.rangeFree y.capx (dword a.packet 4) n true then none
      else
        let (s, bad) := s.rangeErrors y.capx (dword a.packet 1) n
        if bad then some ((s.stopQueue die q 0x08 y.qread).endAct die q idx, [])
        else
          let r := s.writeLines y.capx bs (linePieces (dword a.packet 4) n)
          some (r.1, r.1.timesOf (192 * die) r.2)

/-! ## DEPEND (R348) -/

/-- DEPEND: once its release at RSCOPE is over (spec/12 R207), one atomic at the counter's home; a counter that is not
positive stops the queue, and so does one whose code fails (log entry 85). -/
def State.depend (s : State) (d q : Nat) (y : Queue) (a : Act) : State :=
  match s.checkVa cpAgent y.capx .write 8 (dword a.packet 4) with
  | .inr _ => s
  | .inl pa =>
    if s.dieGt d < tget 0 (s.die d).times (packetRscope a.packet).code + 2 || !s.lineFree s.nextId pa 8 then s
    else
    let w := (s.dwordAt pa).toInt
    let (s, bad) := s.consumeHome touchesSite pa 8 0x7FF 0
    if bad then s.stopQueue d q 0x08 y.qread
    else if w ≤ 0 then s.stopQueue d q 0x05 y.qread
    else
      let (t, r) := s.agentWrite 0 pa (toLe (w - 1).toNat 8)
      let times := t.timesOf (192 * d) [r]
      (t.cpTimes d times).advance d q { a with acted := true, times := times }

/-- DEPEND. -/
def execDependPacket (die q idx : Nat) (s : State) : Out :=
  match (s.queue die q).bind fun y => (y.headAct idx 3).map fun a => (y, a) with
  | some (y, a) => .next (s.depend die q y a)
  | none => packetStep die q idx 3 s fun _ _ => none

/-! ## SEAL (R349) -/

/-- Does a table of a level map bytes of a physical range with a leaf that satisfies `p`? -/
def State.treeMaps (s : State) (p : W64 → Bool) (pa n : Nat) : Nat → Nat → Bool
  | 0, t => (List.range 32).any fun i =>
    let e := s.dwordAt (t + 8 * i)
    entryValid 0 e && p e && meets (entryAddr e) (2 ^ levelLog 0) pa n
  | l + 1, t => (List.range 512).any fun i =>
    let e := s.dwordAt (t + 8 * i)
    entryValid (l + 1) e && (if field e 1 2 = 1 then p e && meets (entryAddr e) (2 ^ levelLog (l + 1)) pa n
      else s.treeMaps p pa n l (entryAddr e))

/-- Does an address space map bytes of a physical range with such a leaf? -/
def State.spaceMaps (s : State) (p : W64 → Bool) (capx pa n : Nat) : Bool :=
  match tfind s.roots capx with
  | some root => s.treeMaps p pa n 4 root
  | none => false

/-- Is the launch running, or on its way to a halt? -/
def Launch.onCores (x : Launch) : Bool := x.state == .running || x.state == .halting

/-- Does a running launch map bytes of a physical range writable? -/
def State.mappedWritable (s : State) (pa n : Nat) : Bool :=
  s.launches.any fun p => p.2.onCores && s.spaceMaps (·.getLsbD 4) p.2.capx pa n

/-- The address of the leaf entry that a walk from a table of a level ends at, and log2 of its page. -/
def State.leafFrom (s : State) (va table : Nat) : Nat → Option (Nat × Nat)
  | 0 =>
    let a := table + 8 * levelIndex 0 va
    if entryValid 0 (s.dwordAt a) then some (a, levelLog 0) else none
  | l + 1 =>
    let a := table + 8 * levelIndex (l + 1) va
    let e := s.dwordAt a
    if !entryValid (l + 1) e then none else if field e 1 2 = 1 then some (a, levelLog (l + 1)) else s.leafFrom va (entryAddr e) l

/-- One page sealed: its dirty lines written back, every cache's copy of its lines dropped, its seal set against every
address space, and W cleared in its leaf once every page that the leaf maps is sealed (spec/24 R366; log entry 55). -/
def State.sealPage (s : State) (capx : Nat) (va : W64) : State :=
  match tfind s.roots capx, s.translate cpAgent capx (.sys false) va with
  | some root, .ok pa =>
    let page := pa / 65536
    if s.sealed pa then s
    else
      let s := (linesOf (page * 65536) 65536).foldl State.writeBack s
      let s : State := { s with copies := s.copies.filter fun x => x.line / 256 ≠ page
                                seals := s.seals ++ [{ capx := capx, va := va, page := page }] }
      match s.leafFrom (field va 0 57) root 4 with
      | some (a, k) =>
        let e := s.dwordAt a
        if !(List.range (2 ^ (k - 16))).all fun i => s.sealed (entryAddr e + 65536 * i) then s
        else
        let s := (s.agentWrite 0 a (toLe (e &&& ~~~(0x10#64)).toNat 8)).1
        { s with tlb := s.tlb.filter fun x => !(x.capx == capx && x.page == field va 0 57 / 2 ^ x.sizeLog) }
      | none => s
  | _, _ => s

/-- SEAL: once no running launch maps the range writable. -/
def execSealPacket (die q idx : Nat) (s : State) : Out :=
  packetStep die q idx 4 s fun y a =>
    let n := field (dword a.packet 6) 0 32
    let pages := (List.range n).map fun i => dword a.packet 1 + BitVec.ofNat 64 (65536 * i)
    let open_ := pages.any fun va => match s.translate cpAgent y.capx (.sys false) va with
      | .ok pa => !s.sealed pa && s.mappedWritable (pa / 65536 * 65536) 65536
      | _ => true
    if open_ then none
    else
      let t := pages.foldl (fun t va => t.sealPage y.capx va) s
      some (t, t.timesNow die)

/-! ## FLUSH and SIGNAL (R348) -/

/-- FLUSH: the dirty lines of the range, or of the package. -/
def execFlushPacket (die q idx : Nat) (s : State) : Out :=
  packetStep die q idx 5 s fun y a =>
    let va := dword a.packet 1
    let n := field (dword a.packet 6) 0 32
    if va = 0 ∧ n = 0 then
      some ((s.dirty.map (·.1)).foldl State.writeBack s, s.timesNow die)
    else if !s.rangeReady y.capx .read va n then none
    else
      let lines := (pagePieces va n).flatMap fun p => match s.checkVa cpAgent y.capx .read 1 p.1 with
        | .inl pa => linesOf pa p.2
        | .inr _ => []
      some (lines.foldl State.writeBack s, s.timesNow die)

/-- SIGNAL: the signal step alone. -/
def execSignalPacket (die q idx : Nat) (s : State) : Out :=
  packetStep die q idx 6 s fun y a =>
    match s.signalStep die y.capx a.packet [] 0 false with
    | none => none
    | some t => some (t.endAct die q idx, [])

/-! ## NETWRITE (R350) -/

/-- NETWRITE sends: the source is read whole and leaves over the link; a link that has failed stops the queue. -/
def State.netSend (s : State) (d q : Nat) (y : Queue) (a : Act) : State :=
  let n := field (dword a.packet 6) 0 32
  if !s.linkOk d a.packet then s.stopQueue d q 0x09 y.qread
  else match s.readVa cpAgent y.capx .read (dword a.packet 1) n with
    | none => s
    | some _ =>
      if !s.rangeFree y.capx (dword a.packet 1) n false then s
      else
      let (t, bad) := s.rangeErrors y.capx (dword a.packet 1) n
      if bad then t.stopQueue d q 0x08 y.qread
      else t.modQueue d q fun y => { y with head := some { a with acted := true } }

/-- NETWRITE: the sending, and after the peer's acknowledgement the signal step. -/
def execNetwritePacket (die q idx : Nat) (s : State) : Out :=
  match (s.queue die q).bind fun y => (y.headAct idx 7).map fun a => (y, a) with
  | some (y, a) => .next (if a.acted then s else s.netSend die q y a)
  | none => packetStep die q idx 7 s fun _ _ => none

/-- The peer's acknowledgement: the action is complete, with GT as its time; also of a packet whose queue has stopped
meanwhile (R333). -/
def execNetwriteAck (die q idx : Nat) (s : State) : Out :=
  if !(die < Config.dies && q < 64) then .fault .noSuchUnit
  else match s.queue die q with
    | none => .next s
    | some y => match y.headAct idx 7, y.act idx 7 with
      | some a, _ => .next (if a.acted then s.advance die q { a with times := s.timesNow die } else s)
      | none, some a => .next (if y.error && !a.acted then
          (s.freeSlot die y (BitVec.ofNat 64 idx)).actDone die q idx (s.timesNow die) else s)
      | none, none => .next s

/-- The first payload whose signal a release may now decrement: GT is past its times at SYSTEM scope. DESIGN CHOICE: a
word whose code fails takes no decrement (log entry 85). -/
def State.releaseArrival (s : State) : State :=
  match s.arrivals with
  | [] => s
  | a :: rest =>
    if s.dieGt 0 < tget 0 a.times Scope.system.code + 2 then s
    else match s.checkVa cpAgent a.capx .write 8 a.signal with
      | .inr _ => s
      | .inl pa =>
        if !s.lineFree s.nextId pa 8 then s
        else
        let (s, bad) := s.consumeHome touchesSite pa 8 0x7FF 0
        if bad then { s with arrivals := rest }
        else
        let s : State := { s with arrivals := rest, generations := s.generations ++ [(0, canonPa pa)] }
        (s.agentWrite 0 pa (toLe (s.dwordAt pa - 1).toNat 8)).1

/-- A NETWRITE of a peer: its payload arrives and is written in the granted address space; later, with `release`, the
oldest payload's signal is decremented by a release at SYSTEM scope (R350). Nothing happens while firmware must still map
a page. -/
def execNetwriteReceive (capx : Nat) (va : W64) (payload : List Byte) (signal : W64) (release : Bool) (s : State) : Out :=
  if release then .next s.releaseArrival
  else if !s.rangeReady capx .write va payload.length || !s.rangeFree capx va payload.length true then .next s
  else
    let r := s.writeLines capx payload (linePieces va payload.length)
    .next (if signal = 0 then r.1
      else { r.1 with arrivals := r.1.arrivals ++ [{ capx := capx, signal := signal, times := r.1.timesOf 0 r.2 }] })

end Sys2Proof.Machine
end

