-- ==== Sys2Proof/Machine/Pond.lean ====
section
/-! DEFINITION. The pond, continuations and the eft: SPAWN and PARK, bins and the warps made of them, records taken, and
the token that decides completion (spec/17 R305 to R318; spec/09 R145 to R147). -/

namespace Sys2Proof.Machine

/-! ## Bins (R305, R306, R310) -/

/-- Pond bins of a core. -/
def pondBins : Nat := 16

/-- The bin a thread for an entry goes to: the one keyed by it, else the lowest empty one. -/
def Core.binFor (k : Core) (key : Addr48) : Option Nat :=
  match k.bins.find? fun p => p.2.key == key with
  | some p => some p.1
  | none => (List.range pondBins).find? fun b => (tfind k.bins b).isNone

/-- The core with a bin made eligible. -/
def Core.makeEligible (k : Core) (b : Nat) : Core :=
  { k with bins := tmod k.bins b fun x => { x with timer := none }
           eligible := if k.eligible.contains b then k.eligible else k.eligible ++ [b] }

/-- The core with a thread in a bin: a first thread loads the timer; a full bin, or a timer of 0, makes it eligible. -/
def Core.addThread (k : Core) (b : Nat) (key : Addr48) (t : BinThread) : Core :=
  let x : Bin := (tfind k.bins b).getD { key := key, timer := some k.pondt.toNat }
  let y := { x with threads := x.threads ++ [t] }
  let k := { k with bins := tset k.bins b y }
  if y.threads.length = 32 ∨ y.timer = some 0 then k.makeEligible b else k

/-- A thread placed in a bin of a core, where one can take it. -/
def State.placeThread (s : State) (c : Nat) (key : Addr48) (t : BinThread) : Option State :=
  match (s.core c).binFor key with
  | none => none
  | some b =>
    let n := ((tfind (s.core c).bins b).map fun x => x.threads.length).getD 0
    if n < 32 ∧ s.granted? c b then some (s.modCore c (·.addThread b key t)) else none

/-! ## SPAWN (R309, R310) -/

/-- The guarding predicate made false in a lane. -/
def Lane.failGuard (x : Lane) (g : Guard) : Lane := x.setPred g.idx.val g.neg

/-- A list of registers from V0 upward. -/
def regsFrom (vals : List W32) : Tab W32 := putRun [] 0 vals

/-- One lane's SPAWN. -/
def State.spawnLane (g : Guard) (t : Bool) (target : Addr48) (args : Nat → List W32) (s : State) (l : Nat) :
    Option State :=
  if (s.lane l).helper then some (if t then s.modLane l (·.failGuard g) else s)
  else match s.placeThread (coreOf l) target { regs := regsFrom (args l) } with
    | some s => some s
    | none => if t then some (s.modLane l (·.failGuard g)) else none

/-- SPAWN. -/
def execSpawn (g : Guard) (off : BitVec 30) (d : Operand) (narg : Fin 9) (t : Bool) (s : State) : Out :=
  match s.offsetTarget off with
  | .inr e =>
    let fail := ((s.exec g).filter fun l => (s.lane l).helper && t).foldl (fun r l => r.modLane l (·.failGuard g)) s
    .next (fail.trapAll (s.execThreads g) e)
  | .inl a => .next (s.inOrder (s.exec g) (State.spawnLane g t a fun l => s.srcRun l narg.val d))

/-! ## PARK (R311 to R313) -/

/-- The lowest free record of a launch's pool. -/
def Launch.freeRecord (x : Launch) : Option Nat :=
  (List.range (min x.poolN (x.pool.length + 1))).find? fun k => (tfind x.pool k).isNone

/-- A PARK's fields. -/
structure ParkAsk where
  scope : Scope
  w64 : Bool
  cmp : WCmp
  va : W64
  pa : Nat
  value : W64
  mask : W32
  deriving DecidableEq, Repr

/-- The sixteen doublewords of a record (R311). -/
def State.recordWords (s : State) (l : Nat) (q : ParkAsk) : List W64 :=
  let saved (i : Nat) : Nat := if q.mask.getLsbD i then (s.vreg l i).toNat else 0
  let c := coreOf l
  [ BitVec.ofNat 64 (q.mask.toNat % 2 ^ 16 * 2 ^ 48 + s.following.toNat),
    BitVec.ofNat 64 (s.blockId c * 2 ^ 32 + (s.launchNum c).toNat),
    BitVec.ofNat 64 (c % 2048 * 2 ^ 37 + q.scope.code * 2 ^ 34 + (if q.w64 then 2 ^ 33 else 0) + q.cmp.code * 2 ^ 30
      + (s.lane l).p.toNat),
    q.va, q.value, 0, 0, 0 ]
  ++ (List.range 8).map fun i => BitVec.ofNat 64 (saved (2 * i) + saved (2 * i + 1) * 2 ^ 32)

/-- A record's bytes written to the pool; none while its page does not translate, or an engine has half written its line
(spec/12 R213). -/
def State.writeRecord (s : State) (c k : Nat) (base : W64) (cw : List W64) : Option State :=
  match s.checkVa c (s.capxOf c) (.sys true) 1 (base + BitVec.ofNat 64 (128 * k)) with
  | .inl pa =>
    if !s.lineFree s.nextId pa 128 then none
    else
      let (s, r) := s.agentWrite (s.launchNum c) pa (cw.flatMap fun w => toLe w.toNat 8)
      some (s.foldTimes c (s.timesOf c [r]))
  | .inr _ => none

/-- A lane parked with record k: the count rises, the lane retires, and with the quad's last thread the quad. -/
def State.parkWith (s : State) (l i k : Nat) (q : ParkAsk) (cw : List W64) : State :=
  let c := coreOf l
  let s := s.modLaunch i fun x =>
    { x with pool := tset x.pool k { cw := cw, pa := canonPa q.pa, place := .watched, die := dieOf c } }
  let s := s.modCore c fun x => { x with count := x.count + 1 }
  let s := s.retire l
  let s := if s.quadGoesOn l then s else s.retireQuad l
  s.testRecord i k

/-- One lane's PARK; none while no record is free. -/
def State.parkLane (g : Guard) (t : Bool) (ask : Nat → ParkAsk) (s : State) (l : Nat) : Option State :=
  let c := coreOf l
  match (s.core c).launch.bind fun i => (tfind s.launches i).map fun x => (i, x) with
  | none => none
  | some (i, x) =>
    match x.freeRecord with
    | none => if t then some (s.modLane l (·.failGuard g)) else none
    | some k =>
      let cw := s.recordWords l (ask l)
      (s.writeRecord c k (dword x.record 4) cw).map fun s => s.parkWith l i k (ask l) cw

/-- The checks of a lane's PARK, in order. -/
def State.parkCheck (s : State) (l : Nat) (o : Ops) (scope : Scope) (w64 : Bool) (cmp : WCmp) : ParkAsk ⊕ Trap :=
  if (s.lane l).depth ≠ 0 then .inr { code := Code.placement }
  else
    let va := s.src64 l o.a
    match s.laneVa l .read (wordBytes w64) va with
    | .inr t => .inr t
    | .inl pa => .inl { scope := scope, w64 := w64, cmp := cmp, va := va, pa := pa, value := s.srcWord l w64 o.b,
                        mask := s.src l .int o.c }

/-- PARK. -/
def execPark (g : Guard) (o : Ops) (scope : Scope) (w64 : Bool) (cmp : WCmp) (t : Bool) (s : State) : Out :=
  if !s.lastSlot o then .next s.misplaced
  else
    let ls := s.execThreads g
    let rs := ls.map fun l => (l, s.parkCheck l o scope w64 cmp)
    let good := leftsOf rs
    let noAsk : ParkAsk := { scope := scope, w64 := w64, cmp := cmp, va := 0, pa := 0, value := 0, mask := 0 }
    let ask (l : Nat) : ParkAsk := ((good.find? fun p => p.1 == l).map (·.2)).getD noAsk
    let ws := warpsOf (good.map (·.1))
    match s.gate ws [] 0 (if good.isEmpty then none else some scope) with
    | some w => .next (s.hold w)
    | none =>
      let helpers := if t then (s.exec g).filter fun l => (s.lane l).helper else []
      let r := helpers.foldl (fun r l => (r.modLane l (·.failGuard g)).serve [l]) s
      let r := r.inOrder (good.map (·.1)) (State.parkLane g t ask)
      .next ((r.trapEach (rightsOf rs)).afterLeave s.curCore ls)

/-! ## Bins into warps (R306, R307; spec/09 R146, R147) -/

/-- A bin's timer has run out: it becomes eligible (R306). -/
def execPondBinTimer (core bin : Nat) (s : State) : Out :=
  match tfind (s.core core).bins bin with
  | some x => if x.timer = some 0 then .next (s.modCore core (·.makeEligible bin)) else .next s
  | none => .next s

/-- Warps of a core with a live lane. -/
def State.liveWarps (s : State) (c : Nat) : List Nat :=
  (((s.coreLanes c).filter fun l => (s.lane l).live).map warpOf).eraseDups

/-- Does the block span a pair? -/
def Block.paired (b : Block) : Bool := b.cores.length = 2

/-- The home warp number a core's next pond warp takes: the lowest from the launch's count on that no live warp of the
block uses, of the core's parity in a block on a pair (R307). -/
def State.nextHomeWarp (s : State) (c : Nat) (b : Block) (first : Nat) : Option Nat :=
  let used := (b.cores.flatMap s.liveWarps).map (· % 128)
  (List.range (if b.paired then 128 else 64)).find? fun n => first ≤ n && !used.contains n && (!b.paired || n % 2 == c % 2)

/-- Registers words of a warp at a launch's allocation (spec/02 R25). -/
def Launch.warpWords (x : Launch) : Nat := 32 * (x.alloc.nv + 3 * x.alloc.ng)

/-- What carries the work of a retired warp whose number is used again: a warp no lane ever has, since a pair's even core
holds even home warps alone, its odd core odd ones, and a block on one core none from 64 up (log entry 22). -/
def orphanWarp (w : Nat) : Nat := w / 128 * 128 + (if w / 128 % 2 = 1 then 126 else 127)

/-- An operation's origin moved from a retired warp. -/
def Origin.orphan (o : Origin) (w : Nat) : Origin :=
  if o.warp = w then { o with warp := orphanWarp w, lane := orphanWarp w * 32 + o.lane % 32 } else o

/-- A core's queues with the origins of a retired warp moved. -/
def Core.orphan (k : Core) (w : Nat) : Core :=
  { k with copy0 := k.copy0.map fun o => { o with org := o.org.orphan w }
           copy1 := k.copy1.map fun o => { o with org := o.org.orphan w }
           tileOps := k.tileOps.map fun o => { o with org := o.org.orphan w } }

/-- A pair's engine with the origins of a retired warp moved. -/
def Pair.orphan (p : Pair) (w : Nat) : Pair :=
  { p with queue := p.queue.map fun o => { o with org := o.org.orphan w }
           arrays := p.arrays.map fun r => { r with op := { r.op with org := r.op.org.orphan w } }
           drains := p.drains.map fun d => { d with org := d.org.orphan w } }

/-- The work still under way of a retired warp no longer bears its number. -/
def State.orphan (s : State) (w : Nat) : State :=
  let c := w / 128
  let v := orphanWarp w
  let s : State := { s with
    ops := s.ops.map fun o =>
      if o.warp = w then { o with warp := v, lane := v * 32 + o.lane % 32, writes := false } else o
    feeds := s.feeds.map fun f => { f with org := f.org.orphan w }
    tiles := s.tiles.map fun p => (p.1, { p.2 with binders := p.2.binders.map fun x => if x = w then v else x
                                                   freers := p.2.freers.map fun x => if x = w then v else x }) }
  (s.modCore c (·.orphan w)).modPair (pairOf c) (·.orphan w)

/-- A new lane of a warp of a launch's block: position `n` of the block, thread or helper (spec/02 R29, R31, R35). -/
def State.newLane (s : State) (x : Launch) (l : Nat) (helper spawned : Bool) (pc : Addr48) : Lane :=
  { helper := helper, spawned := spawned, member := !helper && !spawned, pc := pc, readyAt := s.cycles,
    rsb := dword x.record 11 + BitVec.ofNat 64 (8192 * (s.gtid l).toNat) }

/-- A new warp's registers (R307; spec/02 R26, R32). -/
def newWarp (x : Launch) : Warp :=
  { mode := modeReset, trapv := (dword x.record 10), seed := dword x.record 9 }

/-- A bin's threads made a warp of a core: thread i becomes home lane i, helpers fill the last quad, and nothing is left
of the warp that had the number. -/
def State.makeWarp (s : State) (c : Nat) (x : Launch) (hw : Nat) (b : Bin) : State :=
  let w := c * 128 + hw
  let s := s.orphan w
  let s : State := { s with lanes := tclear s.lanes (w * 32) 32 }
  let n := b.threads.length
  let owt := b.threads.foldl (fun t th => laterTimes t th.times) []
  let s := (s.overwrite (warpSite w)).setWarp w { newWarp x with owt := owt }
  (List.range ((n + 3) / 4 * 4)).foldl (fun s i =>
    let l := w * 32 + i
    let th := b.threads.getD i {}
    s.setLane l { s.newLane x l (n ≤ i) true b.key with v := th.regs, p := th.preds }) s

/-- The oldest eligible bin of a core becomes a warp, once a home warp and register words are free. -/
def execBinToWarp (core : Nat) (s : State) : Out :=
  let k := s.core core
  match k.eligible, s.blockOf core, s.launchOf core with
  | b :: rest, some blk, some x =>
    match tfind k.bins b, s.nextHomeWarp core blk x.warps with
    | some bin, some hw =>
      let live := (s.liveWarps core).length
      if 64 ≤ live ∨ 262144 < (live + 1) * x.warpWords ∨ !s.issues core then .next s
      else
        let s := s.modCore core fun k => { k with bins := tdel k.bins b, eligible := rest }
        .next (s.makeWarp core x hw bin)
    | _, _ => .next s
  | _, _, _ => .next s

/-! ## Records taken (R314, R315) -/

/-- The thread of a record (R307, R311). -/
def Continuation.thread (r : Continuation) (times : Tab Nat) : BinThread :=
  let mask := field (dword r.cw 0) 48 16
  let reg (i : Nat) : Nat := field (dword r.cw (8 + i / 2)) (32 * (i % 2)) 32
  { regs := (List.range 16).foldl (fun t i => if mask.testBit i then tput 0 t i (BitVec.ofNat 32 (reg i)) else t) []
    preds := (dword r.cw 2).setWidth 7, times := times }

/-- The records a core holds put in bins, those that a bin can take; each goes back to the pool. -/
def State.placeRecords (s : State) (c : Nat) : List (Nat × Nat) → State
  | [] => s
  | (i, k) :: rest =>
    match (tfind s.launches i).bind fun x => tfind x.pool k with
    | none => s.placeRecords c rest
    | some r =>
      match s.placeThread c ((dword r.cw 0).setWidth 48) (r.thread (s.timesOf c r.recs)) with
      | none => s.placeRecords c rest
      | some t =>
        let t := t.modLaunch i fun x => { x with pool := tdel x.pool k }
        let t := t.modCore c fun x => { x with resume := x.resume.filter (· ≠ (i, k)) }
        t.placeRecords c rest

/-- Dies in the order a core asks their queues: its own, then the next ones of the core set. -/
def Launch.askOrder (x : Launch) (d : Nat) : List Nat :=
  d :: ((List.range 7).map fun j => (d + 1 + j) % 8).filter x.dies.contains

/-- The oldest record of a launch in the first queue that has one: its die and number. -/
def State.nextRecord (s : State) (i : Nat) (ds : List Nat) : Option (Nat × Nat) :=
  ds.findSome? fun d => ((s.die d).resume.find? fun r => r.1 == i).map fun r => (d, r.2)

/-- A core takes a record: count, colour, acquire; an ended block opens again with a fresh log. -/
def State.takeRecord (s : State) (c i d k : Nat) (r : Continuation) : State :=
  let s := s.modDie d fun x => { x with resume := x.resume.filter (· ≠ (i, k)) }
  let s := s.modLaunch i fun x => { x with pool := tset x.pool k { r with place := .taken c } }
  let s := s.modCore c fun x => { x with resume := x.resume ++ [(i, k)], count := x.count - 1, black := true }
  let s := s.modBlock (s.leader c) fun b => if b.running then b else { b with running := true, log := {} }
  let cw2 := dword r.cw 2
  s.acquireWord c ((Scope.ofCode (field cw2 34 3)).getD .device) r.pa (wordBytes (cw2.getLsbD 33))

/-- A core places the records it holds, takes one more when its pool grants the entry, and places that. -/
def execResumeRecordTake (core : Nat) (s : State) : Out :=
  match (s.core core).launch with
  | none => .next s
  | some i =>
    match tfind s.launches i with
    | none => .next s
    | some x =>
      if !s.issues core || (s.core core).block.isNone then .next s
      else
        let s := s.placeRecords core (s.core core).resume
        match s.nextRecord i (x.askOrder (dieOf core)) with
        | none => .next s
        | some (d, k) =>
          match (tfind s.launches i).bind fun y => tfind y.pool k with
          | none => .next s
          | some r =>
            if !s.granted? core 16 then .next s
            else
              let t := s.takeRecord core i d k r
              .next (t.placeRecords core (t.core core).resume)

/-! ## The eft (R316 to R318; spec/23 R344) -/

/-- Is an operation of the pair's engine from a core? -/
def Pair.busyFor (p : Pair) (c : Nat) : Bool :=
  p.queue.any (fun o => o.org.core == c) || p.arrays.any (fun r => r.op.org.core == c) || p.drains.any (fun d => d.org.core == c)

/-- Has a core nothing of its launch: no live lane, no bin thread, no record, no operation outstanding (R316)? -/
def State.idle (s : State) (c : Nat) : Bool :=
  let k := s.core c
  s.coreEmpty c && k.copy0.isEmpty && k.copy1.isEmpty && k.tileOps.isEmpty && !(s.pair (pairOf c)).busyFor c
    && s.feeds.all (fun f => f.org.core ≠ c) && s.ops.all (fun o => o.core ≠ c)

/-- Does no thread remain to ask the dispenser? -/
def State.noThreads (s : State) (i : Nat) (x : Launch) : Bool :=
  x.cores.all s.coreEmpty && x.pool.isEmpty && s.dies.all fun d => d.2.resume.all fun r => r.1 ≠ i

/-- The ring: the core set in rising order. -/
def Launch.ring (x : Launch) : List Nat := sortLanes x.cores

/-- Cycles between the starts of two rounds. -/
def roundCycles : Nat := 256

/-- The token sent on to the next core of the ring. -/
def Launch.sendOn (x : Launch) (t : Token) : Launch :=
  { x with token := { t with place := (t.place + 1) % x.ring.length, travelling := true, round := true } }

/-- The core that holds the token, if a running launch has one. -/
def State.tokenHolder (s : State) (i : Nat) : Option (Launch × Nat) :=
  match tfind s.launches i with
  | some x => if x.state = .running ∧ !x.token.decided ∧ !x.token.travelling then
      (x.ring[x.token.place]?).map fun c => (x, c)
    else none
  | none => none

/-- Start a round: the first core, idle. -/
def execEftRoundStart (launch : Nat) (s : State) : Out :=
  match s.tokenHolder launch with
  | none => .next s
  | some (x, c) =>
    let t := x.token
    let soon := match t.startedAt with
      | some n => s.cycles < n + roundCycles
      | none => false
    if t.place ≠ 0 || t.round || !s.idle c || soon then .next s
    else
      let k := s.core c
      let y := x.sendOn { t with black := false, sum := 0, startedAt := some s.cycles, times := laterTimes t.times k.times }
      .next ((s.modLaunch launch fun _ => y).modCore c fun k => { k with black := false })

/-- The token arrives at the core it travels to. -/
def execEftTokenArrive (launch : Nat) (s : State) : Out :=
  .next (s.modLaunch launch fun x => { x with token := { x.token with travelling := false } })

/-- Forward: a later core, idle. -/
def execEftForward (launch : Nat) (s : State) : Out :=
  match s.tokenHolder launch with
  | none => .next s
  | some (x, c) =>
    let t := x.token
    if t.place = 0 || !t.round || !s.idle c then .next s
    else
      let k := s.core c
      let y := x.sendOn { t with sum := t.sum + k.count, black := t.black || k.black, times := laterTimes t.times k.times }
      .next ((s.modLaunch launch fun _ => y).modCore c fun k => { k with black := false })

/-- Decide: the first core, idle, with the token returned. -/
def execEftDecide (launch : Nat) (s : State) : Out :=
  match s.tokenHolder launch with
  | none => .next s
  | some (x, c) =>
    let t := x.token
    if t.place ≠ 0 || !t.round || !s.idle c then .next s
    else
      let k := s.core c
      let done := !t.black && !k.black && decide (t.sum + k.count = 0) && (x.exhausted || s.noThreads launch x)
      .next (s.modLaunch launch fun x =>
        { x with token := { t with round := false, decided := done, times := laterTimes t.times k.times } })

end Sys2Proof.Machine
end

