-- ==== Sys2Proof/Machine/Activation.lean ====
section
/-! DEFINITION. The activation functions of TACT, correctly rounded (spec/15 R269): e^x, x/(1 + e^−x) and
(x/2)(1 + erf(x/√2)) from enclosures in fixed point. -/

namespace Sys2Proof.Machine

/-- An enclosure times a power of two. -/
def enclShift (n : Int) (x : Encl) : Encl :=
  if 0 ≤ n then (x.1 * 2 ^ n.toNat, x.2 * 2 ^ n.toNat) else (floorShift x.1 (-n).toNat, ceilShift x.2 (-n).toNat)

/-- e^y of an enclosure: 2^n × e^r, r near 0. -/
def enclExp (p : Nat) (y : Encl) : Encl :=
  let l := ln2 p
  let n := y.1 / l.1
  enclShift n (expSmall p (enclSub y (enclScale n l)))

/-- The square root of a positive enclosure. -/
def enclSqrt (p : Nat) (x : Encl) : Encl :=
  ((isqrt (x.1.toNat * 2 ^ p) : Nat), (isqrt (x.2.toNat * 2 ^ p) + 1 : Nat))

/-- Terms of Σ x^(2n+1) / (1 × 3 × … × (2n+1)) for 0 ≤ x ≤ 20, and a bound of the rest. -/
def tailLoop (p : Nat) (x2 : Encl) : Nat → Nat → Encl → Encl → Encl
  | 0, _, pow, acc => (acc.1, acc.2 + 2 * (pow.2.natAbs + 1))
  | k + 1, n, pow, acc =>
    tailLoop p x2 k (n + 2) (enclDivNat n (enclMul p pow x2)) (enclAdd acc pow)

/-- φ(x) × Σ x^(2n+1) / (1 × 3 × … × (2n+1)) = Φ(x) − 1/2 for 0 ≤ x ≤ 20. -/
def halfNormal (p : Nat) (x : Encl) : Encl :=
  let x2 := enclMul p x x
  let sum := tailLoop p x2 (p + 400) 3 x (0, 0)
  let e := enclExp p (enclNeg (enclDivNat 2 x2))
  enclDiv p (enclMul p e sum) (enclSqrt p (enclScale 2 (piEncl p)))

/-- x × Φ(x) of x = ±m × 2^e, |x| ≤ 20. -/
def geluFin (neg : Bool) (m : Nat) (e : Int) : Option FVal :=
  settleAt (fun p =>
    let x := enclDyadic p m e
    let half : Encl := (2 ^ (p - 1), 2 ^ (p - 1))
    let phi := if neg then enclSub half (halfNormal p x) else enclAdd half (halfNormal p x)
    let y := enclMul p x phi
    if neg then enclNeg y else y) precisions

/-- x / (1 + e^−x) of x = ±m × 2^e, |x| ≤ 200. -/
def siluFin (neg : Bool) (m : Nat) (e : Int) : Option FVal :=
  settleAt (fun p =>
    let x := enclDyadic p m e
    let y := enclDiv p x (enclAdd (2 ^ p, 2 ^ p) (enclExp p (if neg then x else enclNeg x)))
    if neg then enclNeg y else y) precisions

/-- e^x of x = ±m × 2^e, |x| ≤ 200. -/
def expFin (neg : Bool) (m : Nat) (e : Int) : Option FVal :=
  settleAt (fun p => enclExp p (if neg then enclNeg (enclDyadic p m e) else enclDyadic p m e)) precisions

/-- Is m × 2^e above a bound? -/
def above (b m : Nat) (e : Int) : Bool := if 0 ≤ e then b < m * 2 ^ e.toNat else b * 2 ^ (-e).toNat < m

/-- A value just below a positive one in magnitude: it rounds as every value that close does. -/
def justBelow (neg : Bool) (m : Nat) (e : Int) : FVal := .fin neg (m * 2 ^ 100 - 1) (e - 100)

/-- A value too small for any format here, that rounds as every such value does. -/
def tiny (neg : Bool) : FVal := .fin neg 1 (-400)

/-- The function of TACT that a name stands for. -/
def actFn (fn : ActFn) (x : FVal) : Option (FVal × Flags) :=
  match x with
  | .nan _ sig => some (.canonical, flagIf sig flagInvalid)
  | .inf neg =>
    match fn with
    | .relu => some (if neg then .fin false 0 0 else .inf false, 0)
    | .exp => some (if neg then .fin false 0 0 else .inf false, 0)
    | .square => some (.inf false, 0)
    | _ => some (if neg then .fin true 0 0 else .inf false, 0)
  | .fin neg m e =>
    match fn with
    | .relu => some (if neg then .fin false 0 0 else x, 0)
    | .square => some (exactMul x x)
    | .exp =>
      if m = 0 then some (.fin false 1 0, 0)
      else if above 200 m e then some (if neg then tiny false else .fin false 1 400, 0)
      else (expFin neg m e).map fun v => (v, 0)
    | .silu =>
      if m = 0 then some (x, 0)
      else if above 200 m e then some (if neg then tiny true else justBelow false m e, 0)
      else (siluFin neg m e).map fun v => (v, 0)
    | .gelu =>
      if m = 0 then some (x, 0)
      else if above 20 m e then some (if neg then tiny true else justBelow false m e, 0)
      else (geluFin neg m e).map fun v => (v, 0)

end Sys2Proof.Machine
end

