-- ==== Sys2Proof/Machine/TileOps.lean ====
section
/-! DEFINITION. Tile operations, TADD to TCVT: issue, the tag checks at the start, and the result (spec/15 R264 to
R272). -/

namespace Sys2Proof.Machine

/-! ## Issue (R266) -/

/-- May a tile of the format be a source? -/
def sourceFmt (f : Fmt) : Bool := f.code ≤ 6

/-- May D have the format under an operation? -/
def destFmt (op : TOp) (a d : Fmt) : Bool :=
  match op with
  | .cvt f => d = f && d.code ≤ 9
  | .thr _ _ => d = a
  | _ => d.code ≤ 6

/-- Do D's rows suit the operation? -/
def destRows (op : TOp) (rows : Nat) : Bool :=
  match op with
  | .fwd l => rows % 2 ^ l = 0
  | _ => true

/-- Is the operation TROWRED? -/
def TOp.isRowred : TOp → Bool
  | .rowred _ => true
  | _ => false

/-- TILE_BOUNDS: the first of the sources whose shape differs, with the count needed (R266). -/
def shapeTrap (op : TOp) (d : Tile) (srcs : List (Nat × Tile)) : Option Trap :=
  let n := if op.isRowred then d.rows else d.rows * d.cols
  let bad (t : Tile) : Bool := t.rows != d.rows || (if op.isRowred then d.cols != 1 else t.cols != d.cols)
  (srcs.find? fun p => bad p.2).map fun p => { code := Code.tileBounds, addr := BitVec.ofNat 64 n, info := p.1 }

/-- The handle of the first operand that is not bound, in the order D, A, B. -/
def State.firstUnbound (s : State) (c : Nat) (hs : List Nat) : Option Nat :=
  hs.find? fun h => (s.tileBound c h).isNone

/-- One warp's tile operation: its checks in order, then its place in the tile unit's queue, counted in TLC. -/
def State.tileOne (s : State) (l : Nat) (op : TOp) (d a : Operand) (b : Option Operand) (scalar : W32) (rm : Rm) :
    State × Bool :=
  let c := coreOf l
  let srcs := a :: b.toList
  match s.firstUnbound c ((d :: srcs).map handleOf) with
  | some h => (s.trap l (handleTrap h), false)
  | none =>
    let key (x : Operand) : Nat := (s.tileBound c (handleOf x)).getD 0
    let td := s.tile (key d)
    let ts := srcs.map fun x => (handleOf x, s.tile (key x))
    if !(ts.all fun p => sourceFmt p.2.fmt) || !destFmt op (s.tile (key a)).fmt td.fmt || !destRows op td.rows then
      (s.trap l reservedTrap, false)
    else match shapeTrap op td ts with
      | some t => (s.trap l t, false)
      | none =>
        if s.counterFull [warpOf l] 3 then (s, true)
        else
          let (id, t) := s.fresh
          let x : TileOp := { id := id, op := op, org := s.originOf l, d := key d, a := key a, b := b.map key,
                              scalar := scalar, rm := rm }
          ((t.modCore c fun k => { k with tileOps := k.tileOps ++ [x] }).countUp (warpOf l) 3, false)

/-- TADD (R268). -/
def execTadd (g : Guard) (o : Ops) (rm : Rm) (s : State) : Out :=
  .next (s.perWarp g fun s l => s.tileOne l .add o.d o.a (some o.b) 0 rm)
/-- TSCALE (R268). -/
def execTscale (g : Guard) (o : Ops) (rm : Rm) (s : State) : Out :=
  .next (s.perWarp g fun s l => s.tileOne l .scale o.d o.a none (s.src l .fp32 o.b) rm)
/-- TAXPY (R268). -/
def execTaxpy (g : Guard) (o : Ops) (rm : Rm) (s : State) : Out :=
  .next (s.perWarp g fun s l => s.tileOne l .axpy o.d o.a (some o.b) (s.src l .fp32 o.c) rm)
/-- TACT (R269). -/
def execTact (g : Guard) (o : Ops) (fn : ActFn) (rm : Rm) (s : State) : Out :=
  .next (s.perWarp g fun s l => s.tileOne l (.act fn) o.d o.a none 0 rm)
/-- TMUL (R268). -/
def execTmul (g : Guard) (o : Ops) (rm : Rm) (s : State) : Out :=
  .next (s.perWarp g fun s l => s.tileOne l .mul o.d o.a (some o.b) 0 rm)
/-- TROWRED (R270). -/
def execTrowred (g : Guard) (o : Ops) (max : Bool) (rm : Rm) (s : State) : Out :=
  .next (s.perWarp g fun s l => s.tileOne l (.rowred max) o.d o.a none 0 rm)
/-- HFWD (R272): LEVn is code n − 1. -/
def execHfwd (g : Guard) (o : Ops) (lev : Fin 6) (rm : Rm) (s : State) : Out :=
  .next (s.perWarp g fun s l => s.tileOne l (.fwd (lev.val + 1)) o.d o.a none 0 rm)
/-- HINV (R272). -/
def execHinv (g : Guard) (o : Ops) (lev : Fin 6) (rm : Rm) (s : State) : Out :=
  .next (s.perWarp g fun s l => s.tileOne l (.inv (lev.val + 1)) o.d o.a none 0 rm)
/-- HTHR (R272, R263): THk as the operation reads it at issue. -/
def execHthr (g : Guard) (o : Ops) (th : Fin 4) (s : State) : Out :=
  .next (s.perWarp g fun s l => s.tileOne l (.thr th.val (tget 0 (s.warp (warpOf l)).th th.val)) o.d o.a none 0 .mode)
/-- TNORM (R271). -/
def execTnorm (g : Guard) (o : Ops) (rm : Rm) (s : State) : Out :=
  .next (s.perWarp g fun s l => s.tileOne l .norm o.d o.a none (s.src l .fp32 o.b) rm)
/-- TCVT (R272). -/
def execTcvt (g : Guard) (o : Ops) (fmt : Fmt) (rm : Rm) (s : State) : Out :=
  .next (s.perWarp g fun s l => s.tileOne l (.cvt fmt) o.d o.a none 0 rm)

/-! ## Tags (R264, R265) -/

/-- Do the operands' tags keep the operation in the Haar domain (R264)? -/
def TileOp.keeps (o : TileOp) (a b : Tile) : Bool :=
  match o.op with
  | .add => a.dom && b.dom && a.rows == b.rows && a.hlev == b.hlev
  | .axpy => a.dom && b.dom && a.rows == b.rows && a.hlev == b.hlev
  | .scale => a.dom
  | .rowred max => a.dom && !max
  | .cvt f => a.dom && f.code ≤ 6
  | _ => false

/-- Do the tags mismatch (R265)? -/
def TileOp.mismatch (o : TileOp) (a b : Tile) : Bool :=
  match o.op with
  | .add => (a.dom || b.dom) && !o.keeps a b
  | .axpy => (a.dom || b.dom) && !o.keeps a b
  | .fwd _ => a.dom
  | .inv l => !a.dom || a.hlev != l
  | .thr _ _ => !a.dom
  | _ => false

/-- The tile whose handle a DOMAIN fault names: A, or B where only B is a Haar tile. -/
def TileOp.blamed (o : TileOp) (a : Tile) : Nat :=
  match o.b with
  | some k => if a.dom then o.a else k
  | none => o.a

/-- The tag of a spatial result. -/
def Tile.spatialTag (t : Tile) : Tile := { t with dom := false, hlev := 0, thk := 0, pv := false }

/-- The tag of a Haar result. -/
def Tile.haarTag (t : Tile) (hlev thk : Nat) (pv : Bool) (pres : Tab W64) : Tile :=
  { t with dom := true, hlev := hlev, thk := thk, pv := pv, pres := pres }

/-! ## Results (R266, R268 to R272) -/

/-- An element of D: the exact value rounded once; an integer under R60. -/
def TileOp.round (o : TileOp) (f : Fmt) (e : Nat) (x : FVal × Flags) : Nat × Flags :=
  let r := roundElem f (ctlOf o.org.mode f o.rm) (o.org.rs e) x.1
  (r.1, x.2 ||| r.2)

/-- Rows of D, element (r, c) with RS index 64r + c. -/
def TileOp.roundAll (o : TileOp) (f : Fmt) (rows : List (List (FVal × Flags))) : List (List (Nat × Flags)) :=
  (indexed rows).map fun r => (indexed r.2).map fun x => o.round f (64 * r.1 + x.1) x.2

/-- Values with no flag yet. -/
def plain (rows : List VRow) : List (List (FVal × Flags)) := rows.map fun r => r.map fun x => (x, 0)

/-- TACT's function number in the table of unsettled results. -/
def actNumber : ActFn → Nat
  | .relu => 7
  | .gelu => 8
  | .silu => 9
  | .exp => 10
  | .square => 11

/-- An element under TACT's function; a result that no precision settles is a free value (log entry 11). -/
def actElem (fn : ActFn) (x : FVal) : FVal × Flags :=
  match actFn fn x with
  | some r => r
  | none =>
    (decodeFmt .fp32 (Config.unsettled (actNumber fn) (BitVec.ofNat 32 (x.round .fp32 Ctl.nearest 0).1)).toNat, flagInexact)

/-- The greater of two values that are no NaN, −0 below +0. -/
def greater (a b : FVal) : FVal :=
  match a.cmp b with
  | some c => if c < 0 || c == 0 && a.neg then b else a
  | none => .canonical

/-- A row's maximum (R270). -/
def rowMax (row : VRow) : FVal × Flags :=
  if row.any FVal.isNan then (.canonical, flagIf (row.any FVal.isSig) flagInvalid)
  else match row with
    | x :: xs => (xs.foldl greater x, 0)
    | [] => (.canonical, 0)

/-- A row normalised (R271). -/
def rowNorm (eps : FVal) (row : VRow) : List (FVal × Flags) :=
  let n := FVal.ofInt row.length
  let en := exactMul eps n
  let sum := exactSum .rne (row.map (fun x => (exactMul x x).1) ++ [en.1])
  let sig := flagIf (row.any FVal.isSig || eps.isSig) flagInvalid
  let mean := exactDiv sum.1 n
  let m := mean.1.round .fp32 Ctl.nearest 0
  let m' := decodeFmt .fp32 m.1
  let root := if m'.isZero then some (.inf false, flagDivZero) else realFn .rsq m'
  let q : FVal × Flags := match root with
    | some r =>
      let y := r.1.round .fp32 Ctl.nearest 0
      (decodeFmt .fp32 y.1, r.2 ||| y.2)
    | none => (decodeFmt .fp32 (Config.unsettled RealFn.rsq.number (BitVec.ofNat 32 m.1)).toNat, flagInexact)
  let fl := sig ||| sum.2 ||| m.2 ||| q.2
  row.map fun x =>
    let y := exactMul x q.1
    (y.1, y.2 ||| fl)

/-- The values of D before rounding, from its operands' values. -/
def TileOp.values (o : TileOp) (f : Fmt) (a b : List VRow) : List (List (FVal × Flags)) :=
  let rm := (ctlOf o.org.mode f o.rm).rm
  let s := flushIn o.org.mode .fp32 (decodeFmt .fp32 o.scalar.toNat)
  let both (g : FVal → FVal → FVal × Flags) : List (List (FVal × Flags)) := List.zipWith (List.zipWith g) a b
  match o.op with
  | .add => both fun x y => exactSum rm [x, y]
  | .scale => a.map fun r => r.map (exactMul s)
  | .axpy => both fun x y => exactFma rm s x y
  | .act fn => a.map fun r => r.map (actElem fn)
  | .mul => both exactMul
  | .rowred max => a.map fun r => [if max then rowMax r else exactSum rm r]
  | .fwd l => plain (haarForward l a [])
  | .inv _ => plain a
  | .thr _ _ => plain a
  | .norm => a.map (rowNorm s)
  | .cvt _ => plain a

/-- What an operation leaves in D: rows of bits with their flags, and the tag. -/
structure TileResult where
  rows : List (List (Nat × Flags))
  tag : Tile → Tile

/-- HTHR (R263, R272): A bit for bit, thresholded; a spatial A is copied unchanged. -/
def thresholded (k : Nat) (th : W32) (a : Tile) : TileResult :=
  let bits := (List.range a.rows).map a.row
  if a.dom then
    let r := threshold th a.fmt a.rows a.hlev a.present bits
    { rows := r.map fun p => p.2.map fun b => (b, 0),
      tag := fun t => t.haarTag a.hlev k true (presenceOf a.rows fun i => (r.getD i (false, [])).1) }
  else { rows := bits.map fun r => r.map fun b => (b, 0), tag := Tile.spatialTag }

/-- The result of an operation into a tile of a format, from its operands (R264 to R272). -/
def TileOp.result (o : TileOp) (f : Fmt) (a b : Tile) : TileResult :=
  let va := a.valuesFtzi o.org.mode
  let vb := b.valuesFtzi o.org.mode
  match o.op with
  | .thr k th => thresholded k th a
  | _ =>
    if o.keeps a b then
      let two := o.b.isSome
      let here (r : Nat) : Bool := a.present r || two && b.present r
      let rows := (indexed (o.roundAll f (o.values f va vb))).map fun r =>
        if here r.1 then r.2 else r.2.map fun _ => (0, 0)
      { rows := rows
        tag := fun t =>
          if two then t.haarTag a.hlev a.thk true (presenceOf a.rows here) else t.haarTag a.hlev a.thk a.pv a.pres }
    else
      { rows := o.roundAll f (o.values f (a.spatial va) (b.spatial vb))
        tag := fun t => match o.op with
          | .fwd l => t.haarTag l 0 true (allPresent t.rows)
          | _ => t.spatialTag }

/-! ## The tile unit (R266, R267) -/

/-- The tiles an operation names. -/
def TileOp.tiles (o : TileOp) : List Nat := (o.d :: o.a :: o.b.toList).eraseDups

/-- The operation leaves the unit: TLC falls, D leaves ENGINE, and a FREEING tile may return. -/
def State.endTileOp (s : State) (core : Nat) (o : TileOp) : State :=
  let s := s.modCore core fun k => { k with tileOps := k.tileOps.filter fun x => x.id ≠ o.id }
  let s := (s.modTile o.d fun t => { t with engine := false }).countDown o.org.warp 3
  o.tiles.foldl State.settleTile s

/-- May the unit start its first operation: its turn at every tile it names? -/
def State.tileOpReady (s : State) (o : TileOp) : Bool :=
  s.tileTurn o.d o.org.warp o.id true true && (o.a :: o.b.toList).all fun k => s.tileTurn k o.org.warp o.id false true

/-- The tile unit starts its first operation and checks the tags (R265, R266). -/
def execTileOpStart (core : Nat) (s : State) : Out :=
  match (s.core core).tileOps with
  | [] => .next s
  | o :: rest =>
    let a := s.tile o.a
    let b := s.tile (o.b.getD o.a)
    if o.started || !s.runsOn core o.id false || !s.tileOpReady o then .next s
    else if o.mismatch a b && dompol o.org.mode then .next ((s.endTileOp core o).runFault o.id o.org (domainTrap (o.blamed a)))
    else .next ((s.modCore core fun k =>
      { k with tileOps := { o with started := true, tagA := a.tag, tagB := b.tag } :: rest }).modTile o.d fun t =>
        { t with engine := true })

/-- Storage errors under the sources of a tile operation. -/
def State.sourceErrors (s : State) (o : TileOp) : State × Bool :=
  (o.a :: o.b.toList).foldl (fun r k =>
    let x := r.1.meetErrors o.org (tileSite k 0 (s.tile k).bytes) []
    (x.1, r.2 || x.2)) (s, false)

/-- The elements of a tile unit's operation written, from its sources under the tags they had when the checks were
made; the tag and the flags wait (R266, spec/26 R375). -/
def State.tileOpWrite (s : State) (core : Nat) (o : TileOp) (rest : List TileOp) : State :=
  let d := s.tile o.d
  let r := o.result d.fmt ((s.tile o.a).withTag o.tagA) ((s.tile (o.b.getD o.a)).withTag o.tagB)
  (s.fillTile o.d 0 d.bytes (dataOf d.fmt d.cols (bitsOf r.rows))).modCore core fun k =>
    { k with tileOps := { o with left := some ((r.tag d).tag, flagsOf r.rows) } :: rest }

/-- The tile unit's operation goes on: its elements are written, then its tag and presence, and it ends (R266, R267,
spec/26 R375). -/
def execTileOpComplete (core : Nat) (s : State) : Out :=
  match (s.core core).tileOps with
  | [] => .next s
  | o :: rest =>
    if !o.started then .next s
    else match o.left with
      | some (tag, fl) => .next (((s.modTile o.d (·.withTag tag)).endTileOp core o).modLane o.org.lane (·.sticky fl))
      | none =>
        let (t, bad) := s.sourceErrors o
        .next (if bad then (t.endTileOp core o).engineCheck o.org else t.tileOpWrite core o rest)

end Sys2Proof.Machine
end

