-- ==== Sys2Proof/Machine/Context.lean ====
section
/-! DEFINITION. Pre-emption: the request, what becomes of work in flight, the image and the halt of a context, and a
context's way back onto cores (spec/24 R352 to R361; spec/14 R258; spec/15 R280; spec/16 R294; spec/26 R373). -/

namespace Sys2Proof

/-- The context image that the bytes of memory at an address hold, where another Z9 wrote them; none where they hold no
image. R356 gives the sections of an image but not the place of every byte (log entry 59). -/
opaque Config.foreignImage : List Host.Cell → Nat → Option Machine.Image

/-- A byte of a context image by its offset, where R356 names what a part holds but not the place of each byte (log
entry 34). -/
opaque Config.imageByte : Machine.Image → Nat → Byte

end Sys2Proof

namespace Sys2Proof.Machine

/-! ## The request (R352, R354) -/

/-- A lane of a group, or one that waits in its slot, at the halt: it stands at its resume slot. -/
def Lane.stand (x : Lane) (pc : Addr48) (slot : Nat) : Lane := { x with status := .idle, pc := pc, rslot := slot }

/-- A lane that is in no group at the halt: one asleep at WAITW, Refining or Translating stands at that slot again. -/
def Lane.halt (x : Lane) : Lane :=
  match x.status with
  | .asleepWaitw _ _ => { x with status := .idle }
  | .refining => { x with status := .idle }
  | .translating _ => { x with status := .idle }
  | _ => x

/-- A group stopped: lanes already served stand at the next slot, the others at the slot that waits or comes next. -/
def State.haltGroup (s : State) (k : Nat) (g : Group) : State :=
  let width := ({ s with cur := some k } : State).slotWidth
  g.lanes.foldl (fun t l => t.modLane l fun x =>
    x.stand g.pc (if g.served.contains l then g.slot + width else g.slot)) s

/-- A tile operation at the halt: unstarted, unless its elements are written (spec/15 R280, spec/26 R375). -/
def TileOp.halt (o : TileOp) : TileOp := if o.left.isSome then o else { o with started := false }

/-- A core stopped: its groups dissolve, the Gecko discards its work, a started tile operation is unstarted. -/
def State.haltCore (s : State) (c : Nat) : State :=
  let mine := s.groups.filter fun p => groupCore p.1 == c
  let s := mine.foldl (fun t p => t.haltGroup p.1 p.2) s
  let s : State := { s with groups := s.groups.filter fun p => groupCore p.1 != c }
  let s := (s.coreLanes c).foldl (fun t l => t.modLane l Lane.halt) s
  let s := ((s.core c).tileOps.filter fun o => o.started && o.left.isNone).foldl (fun t o => t.modTile o.d fun x => { x with engine := false }) s
  s.modCore c fun k => { k with gecko := [], tileOps := k.tileOps.map TileOp.halt }

/-- A halt requested of a running context. -/
def State.requestHalt (s : State) (i : Nat) : State :=
  match tfind s.launches i with
  | none => s
  | some x =>
    if x.state ≠ .running then s else s.modLaunch i fun y => { y with state := .halting }

/-- The halt reaches a core of a context on its way to a halt. -/
def State.stopCore (s : State) (i c : Nat) : State :=
  match tfind s.launches i with
  | none => s
  | some x =>
    if x.state ≠ .halting || !x.all.contains c || x.stopped.contains c then s
    else (s.haltCore c).modLaunch i fun y => { y with stopped := y.stopped ++ [c] }

/-- PREEMPT_REQUEST. -/
def execPreemptRequest (launch : Nat) (s : State) : Out := .next (s.requestHalt launch)

/-! ## When every core has halted (R352, R258) -/

/-- Is an access behind a line that an engine has half written, or a tile's clear, so that it goes on when that ends? -/
def State.opBehind (s : State) (o : MemOp) : Bool :=
  match o.kind with
  | .tload k _ _ => (s.tile k).clearing
  | .tstore k => (s.tile k).clearing
  | _ => s.halfWritten o.id (lineOf o.pa)

/-- Can an operation in flight go on, by itself or once such a line or clear is done? -/
def State.opMoves (s : State) (o : MemOp) : Bool :=
  s.opBehind o || match o.kind with
  | .flush _ => false
  | .load _ _ _ => !o.returned && s.loadReady o
  | .gload _ _ _ => !o.returned && s.loadReady o
  | .tload k _ _ => !s.tileHeld k o.warp o.id o.pa o.n
  | .tstore k => !s.tileHeld k o.warp o.id o.pa o.n
  | .store => o.performed || s.storeReady o
  | _ => o.performed || (s.groupOf o).any (!·.sent) || s.groupReady o

/-- Can a copy engine of a stopped core go on with its operation? -/
def State.copyMoves (s : State) (c : Nat) (eng : Bool) : Bool :=
  match nextCopy ((s.core c).copies eng) with
  | none => false
  | some o => s.runsOn c o.id (s.halfLine o.id)
      && (o.started && o.total ((s.tile o.tile).withTag o.tag) ≤ o.pos
        || s.copyReady o && match s.copyPlan eng o 1 with
          | .wait => false
          | _ => true)

/-- Can the tile unit of a stopped core go on? -/
def State.tileMoves (s : State) (c : Nat) : Bool :=
  match (s.core c).tileOps with
  | [] => false
  | o :: _ => o.started || s.runsOn c o.id false && s.tileOpReady o

/-- Can some engine of a context's cores go on? -/
def State.enginesMove (s : State) (cs : List Nat) : Bool :=
  cs.any fun c => s.copyMoves c false || s.copyMoves c true || s.tileMoves c
    || (s.nextDrain (pairOf c)).any fun d => cs.contains d.org.core && s.drainRuns d

/-- Is every load, store and atomic of the cores answered; or can none that is not, nor any engine that they wait
behind, go on while the context is halted, because they wait behind work that R258 saves unstarted (log entry 48)? -/
def State.answered (s : State) (cs : List Nat) : Bool :=
  let os := s.ops.filter fun o => cs.contains o.core && o.owed
  os.isEmpty || os.all (fun o => !s.opMoves o) && !s.enginesMove cs

/-- Has a core's work come to where a halt saves it: no copy at half of a line, no tile operation between its elements
and its tag, no matrix operation in the arrays, or able to start behind a head that is (R258)? -/
def State.coreSettled (s : State) (cs : List Nat) (c : Nat) : Bool :=
  let k := s.core c
  let p := s.pair (pairOf c)
  (k.copy0 ++ k.copy1).all (fun o => !s.halfLine o.id) && k.tileOps.all (·.left.isNone)
    && p.arrays.all (fun r => !cs.contains r.op.org.core) && (!p.headFed || p.queue.all fun o => !cs.contains o.org.core)

/-- Is everything collected on every core of a context, once each has stopped? -/
def State.collected (s : State) (x : Launch) : Bool :=
  x.all.all x.stopped.contains && s.answered x.all && x.all.all (s.coreSettled x.all)

/-! ## Requests for cores (spec/23 R339) -/

/-- A launch without a request under way asks for its next core, in ascending order. -/
def State.askNext (s : State) (i : Nat) : State :=
  match tfind s.launches i with
  | none => s
  | some x =>
    if x.all.any fun c => (s.core c).requests.contains i then s
    else match (sortLanes x.all).find? fun c => (s.core c).launch != some i with
      | none => s
      | some c => s.modCore c fun k => { k with requests := k.requests ++ [i] }

/-- Are all of a launch's cores granted? -/
def State.allGranted (s : State) (i : Nat) (x : Launch) : Bool := x.all.all fun c => (s.core c).launch == some i

/-- The next launch number of a die (R342). -/
def State.number (s : State) (d : Nat) : W32 × State :=
  let n := (s.die d).placed + 1
  (BitVec.ofNat 32 (d % 8 * 2 ^ 29 + n % 2 ^ 29), s.modDie d fun x => { x with placed := n })

/-! ## What a pair holds of a context -/

/-- Does a row of a pair belong to a block of the cores? -/
def State.ownsRow (s : State) (cs : List Nat) (pair r : Nat) : Bool :=
  cs.any fun c => pairOf c == pair && (s.blockOf c).isSome && (s.blockRows c).1 ≤ r && r < (s.blockRows c).2

/-- Does a stream of a pair serve a block of the cores? -/
def State.ownsStream (s : State) (cs : List Nat) (pair key : Nat) : Bool :=
  cs.any fun c => pairOf c == pair && (s.blockOf c).isSome && s.streamOf c == key / 4

/-- Sites of the rows and streams of blocks of some cores. -/
def State.engineSite (s : State) (cs : List Nat) : Site → Bool
  | .acc p r _ => s.ownsRow cs p r
  | .fifo p st f _ => s.ownsStream cs p (streamKey st f)
  | _ => false

/-- Sites of streams of blocks of some cores. -/
def State.streamSite (s : State) (cs : List Nat) : Site → Bool
  | .fifo p st f _ => s.ownsStream cs p (streamKey st f)
  | _ => false

/-! ## Freeing cores -/

/-- The work of a context that cores' units hold, in flight and queued, taken out of them. -/
def State.dropWork (s : State) (cs : List Nat) : State :=
  let mine (c : Nat) : Bool := cs.contains c
  { s with
    feeds := s.feeds.filter fun f => !mine f.org.core
    ops := s.ops.filter fun o => !mine o.core
    pairs := s.pairs.map fun p => (p.1,
      { p.2 with queue := p.2.queue.filter fun o => !mine o.org.core
                 drains := p.2.drains.filter fun d => !mine d.org.core })
    copies := s.copies.filter fun x => match x.cache with
      | .engine c _ => !mine c
      | _ => true }

/-- A context's records that wait in dies' resume queues discarded. -/
def State.dropResume (s : State) (i : Nat) : State :=
  { s with dies := s.dies.map fun d => (d.1, { d.2 with resume := d.2.resume.filter fun r => r.1 != i }) }

/-- Everything that cores hold of a context discarded, and the cores free; requests for them stand. -/
def State.freeCores (s : State) (i : Nat) (cs : List Nat) : State :=
  let mine (c : Nat) : Bool := cs.contains c
  let s := (s.dropWork cs).overwrite (s.streamSite cs)
  let s : State := { s with
    lanes := s.lanes.filter fun p => !mine (coreOf p.1)
    warps := s.warps.filter fun p => !mine (p.1 / 128)
    groups := s.groups.filter fun p => !mine (groupCore p.1)
    blocks := s.blocks.filter fun p => !(p.2.launch == i && mine p.1)
    tiles := s.tiles.filter fun p => !(p.2.launch == i && (tileCores p.1 p.2).any mine)
    pairs := s.pairs.map fun p => (p.1,
      { p.2 with acc := p.2.acc.filter fun e => !s.ownsRow cs p.1 (e.1 / 64)
                 streams := p.2.streams.filter fun e => !s.ownsStream cs p.1 e.1 }) }
  cs.foldl (fun t c => t.setCore c { requests := (t.core c).requests, icache := (t.core c).icache }) s

/-- The cores that a launch still has. -/
def State.coresLeft (s : State) (i : Nat) (x : Launch) : List Nat :=
  (sortLanes x.all).filter fun c => (s.core c).launch == some i

/-- A launch gone: its packet holds no BARRIER packet back any more. -/
def State.endLaunch (s : State) (i : Nat) (x : Launch) : State :=
  let s : State := { s with launches := tdel s.launches i }
  match x.queue with
  | none => s
  | some (d, q) => s.modDie d fun y => { y with queues := tmod y.queues q fun z =>
      { z with acts := z.acts.filter fun a => a.launch != some i } }

/-! ## Mailbox answers (spec/26 R382) -/

/-- MB1 of a port's mailbox as a command ends: 0 DONE, 2 DENIED, 3 INVALID, 4 FAILED. -/
def State.mailEnd (s : State) (d port : Nat) (v : W64) : State :=
  s.modDie d fun x => { x with mailbox := tput 0 x.mailbox port v, jobs := tput .idle x.jobs port .idle }

/-- The commands that waited for a halt are answered: a KILL is done; a PREEMPT is done with its image. -/
def State.answerAll (s : State) (x : Launch) (image : Bool) : State :=
  x.askers.foldl (fun t a => t.mailEnd a.1 a.2.1 (if a.2.2 || image then 0 else 4)) s

/-- The end of a kill (spec/26 R373): nothing is saved, the cores are freed. -/
def State.finishKill (s : State) (i : Nat) (x : Launch) : State :=
  (((s.freeCores i (s.coresLeft i x)).dropResume i).endLaunch i x).answerAll x false

/-! ## The lane record (R357) -/

/-- STATE of a lane record. -/
def Lane.stateCode (x : Lane) : Nat :=
  match x.status with
  | .retired => 5
  | .held _ => 3
  | .asleepBar _ => 4
  | _ => if x.meeting then 2 else 1

/-- A Bool as a bit. -/
def bit (b : Bool) : Nat := if b then 1 else 0

/-- HMODE's code. -/
def HMode.code : HMode → Nat
  | .normal => 0
  | .user => 1
  | .kernel => 2

/-- HMODE of a code. -/
def HMode.ofCode (n : Nat) : HMode := if n = 1 then .user else if n = 2 then .kernel else .normal

/-- LR0 to LR5 of a lane. -/
def Lane.words (x : Lane) : List W64 :=
  [ BitVec.ofNat 64 (x.stateCode * 2 ^ 60 + x.rslot % 32 * 2 ^ 55 + x.hmode.code * 2 ^ 53 + bit x.kprev * 2 ^ 52
      + bit x.uprev * 2 ^ 51 + bit x.defer * 2 ^ 50 + x.gstat.toNat % 32 * 2 ^ 45 + x.pc.toNat / 8),
    BitVec.ofNat 64 (x.depth.toNat * 2 ^ 54 + bit x.helper * 2 ^ 53 + bit (x.status == .dormant) * 2 ^ 52
      + x.p.toNat * 2 ^ 45 + x.meet.toNat / 8),
    x.rsb,
    BitVec.ofNat 64 (x.rsctr.toNat * 2 ^ 32 + field x.f3 0 16 * 2 ^ 16 + field x.f3 22 10 * 2 ^ 6
      + x.gstat.toNat / 2 ^ 10 % 8 * 8 + x.gstat.toNat / 2 ^ 9 % 2 * 4 + x.gstat.toNat / 2 ^ 8 % 2 * 2 + x.priv.toNat % 2),
    BitVec.ofNat 64 (field x.f0 56 8 * 2 ^ 56 + field x.f0 52 4 * 2 ^ 52 + field x.f0 0 48 / 8),
    x.f2 ]

/-- What the image holds of a lane. -/
def Lane.save (x : Lane) : ImageLane :=
  { lr := x.words, v := x.v, g := x.g, spawned := x.spawned, member := x.member, runFaults := x.runFaults, runHandler := x.runHandler,
    qsel := field (x.priv.setWidth 64) 8 5
    bar := match x.status with
      | .asleepBar k => some k
      | _ => none
    held := match x.status with
      | .held m => some m
      | _ => none }

/-- STATE of a saved lane's record. -/
def ImageLane.stateCode (r : ImageLane) : Nat := field (dword r.lr 0) 60 4
/-- RSLOT of a saved lane's record. -/
def ImageLane.rslot (r : ImageLane) : Nat := field (dword r.lr 0) 55 5
/-- PC of a saved lane's record. -/
def ImageLane.pc (r : ImageLane) : Addr48 := BitVec.ofNat 48 (8 * field (dword r.lr 0) 0 45)

/-- The status a saved lane wakes to; `bar` renames its barrier. -/
def ImageLane.status (r : ImageLane) (bar : Nat → Nat) : LaneStatus :=
  match r.stateCode with
  | 5 => .retired
  | 4 => .asleepBar (bar (r.bar.getD 0))
  | 3 => .held (r.held.getD 0)
  | _ => if (dword r.lr 1).getLsbD 52 then .dormant else .idle

/-- A lane as its record gives it, but for WORD and CLASS of its fault record. -/
def ImageLane.load (r : ImageLane) (bar : Nat → Nat) (now : Nat) : Lane :=
  let w (i : Nat) : W64 := dword r.lr i
  { status := r.status bar, helper := (w 1).getLsbD 53, spawned := r.spawned, member := r.member, restored := true
    pc := r.pc, meet := BitVec.ofNat 48 (8 * field (w 1) 0 45), depth := (w 1).extractLsb' 54 10
    defer := (w 0).getLsbD 50, rslot := r.rslot, v := r.v, p := (w 1).extractLsb' 45 7, g := r.g
    gstat := BitVec.ofNat 32 (field (w 0) 45 5 + field (w 3) 3 3 * 2 ^ 10 + field (w 3) 2 1 * 2 ^ 9 + field (w 3) 1 1 * 2 ^ 8)
    f0 := BitVec.ofNat 64 (field (w 4) 52 12 * 2 ^ 52 + 8 * field (w 4) 0 45)
    f2 := w 5, f3 := BitVec.ofNat 64 (field (w 3) 6 10 * 2 ^ 22 + field (w 3) 16 16)
    hmode := HMode.ofCode (field (w 0) 53 2), kprev := (w 0).getLsbD 52, uprev := (w 0).getLsbD 51
    priv := BitVec.ofNat 32 (r.qsel * 2 ^ 8 + field (w 3) 0 1), rsb := w 2, rsctr := (w 3).extractLsb' 32 32
    runFaults := r.runFaults, runHandler := r.runHandler, readyAt := now }

/-! ## Times in an image (R359) -/

/-- Times as offsets from a GT. -/
def offsetTimes (now : Nat) (t : Tab Nat) : Tab Nat := t.foldl (fun u p => tput 0 u p.1 (p.2 - now)) []

/-- Offsets as times from a GT. -/
def restoreTimes (now : Nat) (t : Tab Nat) : Tab Nat :=
  scopes.foldl (fun u sc => tput 0 u sc.code (now + tget 0 t sc.code)) []

/-- A completion's time shifted. -/
def Completion.shift (d : Completion) (f : Nat → Nat) : Completion := { d with after := f d.after }

/-! ## Writing the image (R353, R356) -/

/-- A lane's return stack spilled, newest entry at the call it was made from (R357, spec/02 R36); none where a spill
fails. -/
def State.spillLane (s : State) (l : Nat) : List Addr48 → Nat → Option State
  | [], _ => some (s.modLane l fun x => { x with stack := [] })
  | a :: rest, d =>
    match s.laneVa l .write 8 ((s.lane l).spillVa (d - 1)) with
    | .inr _ => none
    | .inl pa => (s.storeNow l pa (toLe a.toNat 8)).spillLane l rest (d - 1)

/-- The return stacks of some lanes spilled. -/
def State.spillAll (s : State) : List Nat → Option State
  | [] => some s
  | l :: ls =>
    let x := s.lane l
    let r := if x.live then s.spillLane l x.stack x.depth.toNat else some s
    r.bind fun t => t.spillAll ls

/-- A queued copy as its restart descriptor: it runs again from its first element (R355). -/
def CopyOp.restart (now : Nat) (o : CopyOp) : CopyOp :=
  { o with started := false, tag := {}, pos := 0, idx := 0, heads := [], flags := 0, moved := false, times := []
           done := o.done.map (·.shift (· - now)) }

/-- A core's section. -/
def State.saveCore (s : State) (c : Nat) : ImageCore :=
  let now := s.coreGt c
  let k := s.core c
  { core := { k with launch := none, requests := [], icache := [], copy0 := k.copy0.map (·.restart now)
                     copy1 := k.copy1.map (·.restart now), times := offsetTimes now k.times
                     bins := k.bins.map fun p => (p.1, { p.2 with threads := p.2.threads.map fun t =>
                       { t with times := offsetTimes now t.times } }) }
    lanes := (trange s.lanes (c * 4096) 4096).map fun p => (p.1 % 4096, p.2.save)
    warps := (trange s.warps (c * 128) 128).map fun p => (p.1 % 128,
      { p.2 with swt := offsetTimes now p.2.swt, owt := offsetTimes now p.2.owt })
    block := tfind s.blocks c }

/-- The context's part of a pair: its rows, unstarted operations, streams and drains. -/
def State.savePair (s : State) (cs : List Nat) (pair now : Nat) : Pair :=
  let p := s.pair pair
  { acc := p.acc.filter fun e => s.ownsRow cs pair (e.1 / 64)
    queue := p.queue.filter fun o => cs.contains o.org.core
    streams := p.streams.filter fun e => s.ownsStream cs pair e.1
    drains := (p.drains.filter fun d => cs.contains d.org.core).map fun d =>
      { d with after := d.after - now, times := offsetTimes now d.times } }

/-- Is a drain of the cores under way into a tile, which then stays in ENGINE (spec/14 R258)? -/
def State.drained (s : State) (cs : List Nat) (k : Nat) : Bool :=
  s.pairs.any fun p => p.2.drains.any fun d => cs.contains d.org.core && d.started && !d.moved && d.dest == .tile k

/-- Firmware's capability to an image's bytes, for so many cores (spec/26 R383). -/
def imageCap (addr cores : Nat) : Capability :=
  { tag := true, base := BitVec.ofNat 64 addr, length := BitVec.ofNat 40 (cores * 1966080 + 0x4000000), otype := 4, perms := 3 }

/-- A context's image as its sections are written: no digest holds over it yet. Its place is firmware's (log entry 59).
-/
def State.image (s : State) (i : Nat) (x : Launch) (id : Nat) : Image :=
  let cs := sortLanes x.all
  let now := s.gt
  { addr := Config.imageAddr id, whole := false, gt := now
    launch := { x with token := { x.token with times := offsetTimes now x.token.times } }
    cores := cs.map s.saveCore
    pairs := ((cs.map pairOf).eraseDups).map fun p => (p, s.savePair cs p now)
    tiles := (s.tiles.filter fun p => p.2.launch == i && (tileCores p.1 p.2).any cs.contains).map fun p =>
      (p.1, { p.2 with engine := s.drained cs p.1 })
    ops := s.ops.filter fun o => cs.contains o.core
    feeds := s.feeds.filter fun f => cs.contains f.org.core
    resume := s.dies.flatMap fun d => (d.2.resume.filter fun r => r.1 == i).map fun r => (d.1, r.2) }

/-- Does a storage site hold something of a context on some cores: their registers, its tiles, its blocks' rows and
streams? -/
def State.siteOn (s : State) (i : Nat) (cs : List Nat) : Site → Bool
  | .lane k _ => cs.contains (coreOf k)
  | .loaded k _ => cs.contains (coreOf k)
  | .tile c h d => s.tiles.any fun p => p.2.launch == i && tileSite p.1 0 p.2.bytes (.tile c h d)
  | x => s.engineSite cs x

/-- A halted context's dirty lines written back: those it wrote last, under any number it has had, and those of the pages
its address space maps (R353, spec/12 R220). -/
def State.writeBackContext (s : State) (x : Launch) : State :=
  let s := (x.num :: x.earlier).foldl State.writeBackLaunch s
  ((s.dirty.map (·.1)).filter fun l => s.spaceMaps (fun _ => true) x.capx (l * 256) 256).foldl State.writeBack s

/-- Bytes of an image's launch part, its header first, and of a core's section (R356). DESIGN CHOICE: the launch part
comes first, then the sections in the order of the core set (log entry 34). -/
def launchPart : Nat := 0x4000000
/-- Bytes of the header. -/
def headerPart : Nat := 4096
/-- Bytes of a core's section. -/
def corePart : Nat := 1966080
/-- Where a section's lane records stand, after its registers, tiles, accumulators and FIFOs. -/
def recordPart : Nat := (1024 + 448 + 256 + 68) * 1024
/-- Where the header holds the digest (log entry 34). -/
def digestAt : Nat := 4032

/-- Bytes of an image. -/
def Image.bytes (im : Image) : Nat := launchPart + im.cores.length * corePart

/-- A section's k-th lane record (R356, R357): in order of home warp, then home lane; a pair's block has every other warp
there. An absent lane's is zero. -/
def ImageCore.recordAt (r : ImageCore) (paired odd : Bool) (k : Nat) : List W64 :=
  let w := if paired then 2 * (k / 32) + (if odd then 1 else 0) else k / 32
  ((tfind r.lanes (w * 32 + k % 32)).map (·.lr)).getD []

/-- The byte at an offset of an image: a lane record's, or what else R356 puts there. -/
def Image.byte (im : Image) (off : Nat) : Byte :=
  let j := (off - launchPart) / corePart
  let o := (off - launchPart) % corePart
  if off < launchPart || o < recordPart || recordPart + 98304 ≤ o then Config.imageByte im off
  else
    let q := o - recordPart
    let odd := ((sortLanes im.launch.all).getD j 0) % 2 == 1
    let w := dword ((im.cores.getD j { core := {} }).recordAt im.launch.paired odd (q / 48)) (q % 48 / 8)
    (toLe w.toNat 8).getD (q % 8) 0

/-- Bytes of an image, from an offset, in their place in memory: the context engine writes them line by line. -/
def State.writeImage (s : State) (im : Image) (off n : Nat) : State :=
  (List.range (n / 256)).foldl (fun t i =>
    let at_ := off + 256 * i
    (t.agentWrite 0 (im.addr + at_) ((List.range 256).map fun k => im.byte (at_ + k))).1) s

/-- SHA3-512 over every byte of an image but the digest, as memory holds them (R356). -/
def imageDigest (m : List Host.Cell) (addr n : Nat) : BitVec 512 :=
  Config.sha3 (((List.range n).filter fun k => !(digestAt ≤ k && k < digestAt + 64)).map fun k => Memory.read m (addr + k))

/-- Does an image's digest match (R360)? -/
def State.digestHolds (s : State) (im : Image) : Bool :=
  Memory.readBytes s.mem (im.addr + digestAt) 64 == toLe (imageDigest s.mem im.addr im.bytes).toNat 64

/-- Die 0's firmware memory with the capability to an image that is written or loaded (spec/26 R383). -/
def State.holdImage (s : State) (k : Nat) (c : Capability) : State := s.modDie 0 (·.storeCap (imageSlot k) c)

/-- May firmware write every byte of an image, through the capability that it keeps? -/
def State.mayWriteImage (s : State) (k : Nat) (im : Image) : Bool :=
  ((s.die 0).loadCap (imageSlot k)).allows capImage .write (BitVec.ofNat 64 im.addr) im.bytes

/-- A halted context as its image takes it (R353): its dirty lines are written back first, then its contents are taken
whole, with nothing of its work left in any unit, and the launch section is written, no header or digest yet (spec/26
R375); a spill that fails, or an uncorrectable error read on the way, kills it (R357, spec/26 R372). -/
def State.saveSections (s : State) (i : Nat) (x : Launch) : State :=
  let s := s.writeBackContext x
  match s.spillAll ((sortLanes x.all).flatMap s.coreLanes) with
  | none => (s.killLaunch i).finishKill i x
  | some s =>
    let (s, bad) := s.consume (s.siteOn i x.all) (x.all.headD 0x7FF) x.num
    if bad then (s.killLaunch i).finishKill i x
    else
      let (id, s) := s.fresh
      let im := s.image i ((tfind s.launches i).getD x) id
      let s := s.holdImage id (imageCap im.addr im.cores.length)
      if !s.mayWriteImage id im then (s.killLaunch i).finishKill i x
      else
      let s := ((s.dropWork x.all).dropResume i).writeImage im headerPart (launchPart - headerPart)
      ({ s with images := tset s.images id im } : State).modLaunch i fun y => { y with saving := some id }

/-- A core's section written, and the core free (R353). -/
def State.saveSection (s : State) (i : Nat) (x : Launch) (id c : Nat) : State :=
  let j := (sortLanes x.all).findIdx (· == c)
  let s := match tfind s.images id with
    | some im => s.writeImage im (launchPart + corePart * j) corePart
    | none => s
  s.freeCores i [c]

/-- The image's header written over its sections, with the digest (R353, R356): the context is halted. -/
def State.saveHeader (s : State) (i : Nat) (x : Launch) (id : Nat) : State :=
  let s := match tfind s.images id with
    | some im =>
      let s := s.writeImage im 0 headerPart
      (s.agentWrite 0 (im.addr + digestAt) (toLe (imageDigest s.mem im.addr im.bytes).toNat 64)).1
    | none => s
  let s : State := { s with images := tmod s.images id fun im => { im with whole := true } }
  let s := if x.release then s.endLaunch i x
    else (s.modLaunch i fun y => { y with state := .halted id, stopped := [], saving := none, pool := [], askers := [] }).askNext i
  s.answerAll x true

/-- A halted context on its way to its image: its contents taken, then each core's section, then the header. -/
def State.saveContext (s : State) (i : Nat) (x : Launch) : State :=
  match x.saving with
  | none => s.saveSections i x
  | some id => match s.coresLeft i x with
    | c :: _ => s.saveSection i x id c
    | [] => s.saveHeader i x id

/-- CONTEXT_HALTED: a core of the context halts; or, once every core has halted, the next part of its image is written,
or, when it is killed, it is discarded. -/
def execContextHalted (launch : Nat) (core : Option Nat) (s : State) : Out :=
  match core with
  | some c => .next (s.stopCore launch c)
  | none => match tfind s.launches launch with
  | none => .next s
  | some x =>
    if x.state ≠ .halting || x.saving.isNone && !s.collected x then .next s
    else if x.killing then .next (s.finishKill launch x)
    else .next (s.saveContext launch x)

/-! ## Loading an image (R355, R358, R359) -/

/-- Where a core of an image goes: by its position in the core set. -/
def coreMap (old new : List Nat) (c : Nat) : Nat := new.getD (old.findIdx (· == c)) c
/-- Where a lane goes. -/
def laneMap (f : Nat → Nat) (l : Nat) : Nat := f (coreOf l) * 4096 + l % 4096
/-- Where a warp goes. -/
def warpMap (f : Nat → Nat) (w : Nat) : Nat := f (w / 128) * 128 + w % 128

/-- Where a tile goes: its home core follows a core of the set that holds it. -/
def tileMap (f : Nat → Nat) (old : List Nat) (k : Nat) : Nat :=
  let lvl := (TileLevel.ofCode (k / 256 % 3)).getD .core
  match old.find? fun c => levelHome lvl c == keyCore k with
  | some c => tileKey lvl (f c) (keyHandle k)
  | none => k

/-- Where a die goes. -/
def dieMap (f : Nat → Nat) (old : List Nat) (d : Nat) : Nat :=
  match old.find? fun c => dieOf c == d with
  | some c => dieOf (f c)
  | none => d

/-- The new name of a barrier. -/
def barMap (f : Nat → Nat) (old : List Nat) (key : Nat) : Nat :=
  let lvl := barLevelOf key
  let n := barInstOf key
  barKey lvl (match lvl with
    | .warp => warpMap f n
    | .block => f n
    | .cluster => ((old.find? fun c => clusterOf c == n).map fun c => clusterOf (f c)).getD n
    | .grid => n) (key % 16)

/-- An operation's origin on its new core, under its launch there. -/
def Origin.move (o : Origin) (f : Nat → Nat) (i : Nat) : Origin :=
  { o with lane := laneMap f o.lane, warp := warpMap f o.warp, core := f o.core, launch := i }

/-- A word on its new core. -/
def WordRef.move (f : Nat → Nat) (old : List Nat) : WordRef → WordRef
  | .mem pa => .mem pa
  | .tile k e => .tile (tileMap f old k) e

/-- A queued copy on its new core. -/
def CopyOp.move (o : CopyOp) (f : Nat → Nat) (old : List Nat) (i now : Nat) : CopyOp :=
  { o with org := o.org.move f i, tile := tileMap f old o.tile
           done := o.done.map fun d => { d.shift (· + now) with word := d.word.move f old } }

/-- A core's queues on its new core. -/
def Core.move (k : Core) (f : Nat → Nat) (old : List Nat) (i now : Nat) : Core :=
  { k with
    launch := some i
    block := k.block.map f
    copy0 := k.copy0.map (·.move f old i now)
    copy1 := k.copy1.map (·.move f old i now)
    tileOps := k.tileOps.map fun o => { o with org := o.org.move f i, d := tileMap f old o.d, a := tileMap f old o.a
                                               b := o.b.map (tileMap f old) }
    bins := k.bins.map fun p => (p.1, { p.2 with threads := p.2.threads.map fun t =>
      { t with times := if t.times.isEmpty then [] else restoreTimes now t.times } })
    resume := k.resume.map fun r => (i, r.2)
    times := restoreTimes now k.times }

/-- A core's section put on its new core, over every error its registers held (spec/26 R372). -/
def State.loadCore (s : State) (f : Nat → Nat) (old : List Nat) (i c : Nat) (r : ImageCore) : State :=
  let now := s.coreGt (f c)
  let keep := s.core (f c)
  let s := (s.overwrite fun x => match x with
    | .lane l _ => coreOf l == f c
    | .loaded l _ => coreOf l == f c
    | _ => false).setCore (f c) { (r.core.move f old i now) with requests := keep.requests, icache := keep.icache }
  let s := r.warps.foldl (fun t p => t.setWarp (f c * 128 + p.1)
    { p.2 with swt := restoreTimes now p.2.swt, owt := restoreTimes now p.2.owt }) s
  let s := r.lanes.foldl (fun t p => t.setLane (f c * 4096 + p.1) (p.2.load (barMap f old) t.cycles)) s
  match r.block with
  | none => s
  | some b => { s with blocks := tset s.blocks (f c) { b with launch := i, cores := b.cores.map f } }

/-- A context's part of a pair put on its new pair, beside what another launch's block has there. -/
def State.loadPair (s : State) (f : Nat → Nat) (old : List Nat) (i pair : Nat) (r : Pair) : State :=
  match old.find? fun c => pairOf c == pair with
  | none => s
  | some c =>
    let n := pairOf (f c)
    let new := old.map f
    let now := s.coreGt (f c)
    let p := s.pair n
    let acc := p.acc.filter fun e => !s.ownsRow new n (e.1 / 64)
    let streams := p.streams.filter fun e => !s.ownsStream new n e.1
    (s.overwrite (s.engineSite new)).setPair n
      { acc := r.acc.foldl (fun t e => tput 0 t e.1 e.2) acc
        queue := p.queue ++ r.queue.map fun o => { o with org := o.org.move f i }
        arrays := p.arrays
        streams := r.streams.foldl (fun t e => tput [] t e.1 e.2) streams
        drains := p.drains ++ r.drains.map fun d =>
          { d with org := d.org.move f i, after := d.after + now, times := restoreTimes now d.times
                   dest := match d.dest with
                     | .tile k => .tile (tileMap f old k)
                     | .mem va => .mem va } }

/-- A write's record in a context loaded anew: all its completion times together, as an offset from the halt (R359). -/
def WriteRec.restore (r : WriteRec) (halt now : Nat) : WriteRec :=
  { seq := r.seq, gt := now + ((r.leases.foldl (fun m p => max m p.2) (max r.gt r.entered)) - halt) }

/-- A continuation record on its new die and core, its word found again. -/
def State.loadRecord (s : State) (f : Nat → Nat) (old : List Nat) (capx halt : Nat) (r : Continuation) : Continuation :=
  { r with
    pa := match s.translate cpAgent capx (.sys false) (dword r.cw 3) with
      | .ok pa => canonPa pa
      | _ => r.pa
    die := dieMap f old r.die
    recs := r.recs.map (·.restore halt s.gt)
    place := match r.place with
      | .watched => .watched
      | .queued d => .queued (dieMap f old d)
      | .taken c => .taken (f c) }

/-- WORD and CLASS of a lane's fault record, read again from the faulting clause (R356). -/
def State.reread (s : State) (l : Nat) : State :=
  let x := s.lane l
  if field x.f0 56 8 = 0 then s
  else
    let pc : Addr48 := x.f0.setWidth 48
    let va : W64 := pc.setWidth 64
    match s.fetchAt l va with
    | .inr _ => s
    | .inl h =>
      let w := if !headerOk h then h else match s.fetchAt l (va + 8 + BitVec.ofNat 64 (8 * field x.f0 52 4)) with
        | .inl w => w
        | .inr _ => 0
      s.modLane l fun x => { x with f0 := x.f0 ||| BitVec.ofNat 64 (classOf h * 2 ^ 48), f1 := w }

/-- An operation in flight, its address translated anew (R359): the pages are mapped on the target at the same
addresses. -/
def State.retranslate (s : State) (capx : Nat) (o : MemOp) : MemOp :=
  let at_ (va : W64) : Option Nat := match s.translate cpAgent capx (.sys false) va with
    | .ok pa => some pa
    | _ => none
  match o.kind with
  | .flush _ => { o with kind := .flush ((pagePieces o.va o.n).filterMap fun p => (at_ p.1).map fun pa => (pa, p.2)) }
  | .tload _ _ _ => o
  | .tstore _ => o
  | _ => { o with pa := (at_ o.va).getD o.pa }

/-- An operation's tile under its new key. -/
def MemKind.move (k : MemKind) (f : Nat → Nat) : MemKind :=
  match k with
  | .tload t d size => .tload (f t) d size
  | .tstore t => .tstore (f t)
  | k => k

/-- A core's operations under numbers raised by `n`. -/
def Core.renumber (k : Core) (n : Nat) : Core :=
  let copies (q : List CopyOp) : List CopyOp := q.map fun o => { o with id := o.id + n }
  { k with copy0 := copies k.copy0, copy1 := copies k.copy1, tileOps := k.tileOps.map fun o => { o with id := o.id + n } }

/-- A saved lane's run faults under such numbers. -/
def ImageLane.renumber (r : ImageLane) (n : Nat) : ImageLane := { r with runFaults := r.runFaults.map fun p => (p.1 + n, p.2) }

/-- A pair's operations, and the bindings that its streams name, under such numbers. -/
def Pair.renumber (p : Pair) (n : Nat) : Pair :=
  { p with queue := p.queue.map fun o => { o with id := o.id + n }
           drains := p.drains.map fun d => { d with id := d.id + n }
           streams := p.streams.map fun q => (q.1, q.2.map fun r => { r with bind := r.bind + n }) }

/-- An operation in flight under such numbers. -/
def MemOp.renumber (o : MemOp) (n : Nat) : MemOp :=
  { o with id := o.id + n, ins := o.ins + n, grp := if o.grp = 0 then 0 else o.grp + n, waitsFor := o.waitsFor.map (· + n) }

/-- An image's operations and bindings under numbers raised by `n`: they keep their order, and come before all that start
after the load (spec/15 R267, spec/27 R388). -/
def Image.renumber (im : Image) (n : Nat) : Image :=
  { im with
    cores := im.cores.map fun r => { r with core := r.core.renumber n, lanes := r.lanes.map fun p => (p.1, p.2.renumber n) }
    pairs := im.pairs.map fun p => (p.1, p.2.renumber n)
    tiles := im.tiles.map fun p => (p.1, { p.2 with bind := p.2.bind + n })
    ops := im.ops.map (·.renumber n)
    feeds := im.feeds.map fun f => { f with id := f.id + n } }

/-- The numbers of an image's operations and bindings. -/
def Image.numbers (im : Image) : List Nat :=
  im.cores.flatMap (fun r => (r.core.copy0 ++ r.core.copy1).map (·.id) ++ r.core.tileOps.map (·.id)
      ++ r.lanes.flatMap fun p => p.2.runFaults.map (·.1))
    ++ im.pairs.flatMap (fun p => p.2.queue.map (·.id) ++ p.2.drains.map (·.id) ++ p.2.streams.flatMap fun q => q.2.map (·.bind))
    ++ im.tiles.map (·.2.bind) ++ im.ops.flatMap (fun o => [o.id, o.ins, o.grp]) ++ im.feeds.map (·.id)

/-- The image with its numbers raised above all that are in use, and the state in which the next are above them. -/
def State.adopt (s : State) (im : Image) : Image × State :=
  (im.renumber s.nextId, { s with nextId := s.nextId + im.numbers.foldl max 0 + 1 })

/-- An image's context on the cores granted to its launch: every lane, queue, tile, barrier and record in its place, an
acquire at SYSTEM scope on every core, and a new launch number. -/
def State.loadContext (s : State) (i : Nat) (x : Launch) (im : Image) (d : Nat) : State :=
  let old := sortLanes im.launch.all
  let f := coreMap old (sortLanes x.all)
  let (im, s) := s.adopt im
  let (num, s) := s.number d
  let y : Launch := { x with
    num := num, saving := none, earlier := im.launch.num :: im.launch.earlier, state := .running, stopped := []
    disp := im.launch.disp, pool := im.launch.pool.map fun p => (p.1, s.loadRecord f old x.capx im.gt p.2)
    token := { im.launch.token with times := restoreTimes s.gt im.launch.token.times }
    bars := im.launch.bars.foldl (fun t b => tset t (barMap f old b.1) { b.2 with arrived := b.2.arrived.map (laneMap f) }) []
    askers := [] }
  let s : State := { s with launches := tset s.launches i y }
  let s := (old.zip im.cores).foldl (fun t p => t.loadCore f old i p.1 p.2) s
  let s := im.pairs.foldl (fun t p => t.loadPair f old i p.1 p.2) s
  let s := s.overwrite fun x => im.tiles.any fun p => tileSite (tileMap f old p.1) 0 p.2.bytes x
  let s : State := { s with
    tiles := im.tiles.foldl (fun t p => tset t (tileMap f old p.1)
      { p.2 with launch := i, binders := p.2.binders.map (warpMap f), freers := p.2.freers.map (warpMap f) }) s.tiles
    feeds := s.feeds ++ im.feeds.map fun o => { o with org := o.org.move f i, tile := tileMap f old o.tile }
    ops := s.ops ++ im.ops.map fun o =>
      { s.retranslate x.capx o with lane := laneMap f o.lane, warp := warpMap f o.warp, core := f o.core, launch := num
                                    kind := (s.retranslate x.capx o).kind.move (tileMap f old), entered := s.gt } }
  let s := im.resume.foldl (fun t r => t.modDie (dieMap f old r.1) fun k => { k with resume := k.resume ++ [(i, r.2)] }) s
  let s := (sortLanes x.all).foldl (fun t c => t.acquire c .system) s
  let s := ((sortLanes x.all).flatMap s.coreLanes).foldl State.reread s
  let s := y.pool.foldl (fun t p => t.testRecord i p.1) s
  s.answerAll x true

/-! ## What makes an image refused (R358, R360) -/

/-- Have two core sets, each rising, the same shape? -/
def sameShape (old new : List Nat) : Bool :=
  old.length == new.length && (old.zip new).all fun p => p.1 % 2 == p.2 % 2 && (old.zip new).all fun q =>
    (pairOf p.1 == pairOf q.1) == (pairOf p.2 == pairOf q.2) && (clusterOf p.1 == clusterOf q.1) == (clusterOf p.2 == clusterOf q.2)
      && (dieOf p.1 == dieOf q.1) == (dieOf p.2 == dieOf q.2)

/-- NSLOT of a clause of an address space; the most a header can say where it is not mapped. -/
def State.nslotIn (s : State) (capx : Nat) (pc : Addr48) : Nat :=
  match s.loadVa cpAgent capx .fetch (pc.setWidth 64) 8 with
  | .inl h => nslot (BitVec.ofNat 64 h)
  | .inr _ => 15

/-- Does a saved lane's record hold only codes that can occur? -/
def State.laneOk (s : State) (capx : Nat) (r : ImageLane) : Bool :=
  r.stateCode ≤ 5 && field (dword r.lr 0) 53 2 ≠ 3 && (r.rslot = 0 || r.rslot ≤ s.nslotIn capx r.pc + 1)

/-- Does a saved tile's entry hold only values that can occur (spec/11 R186)? -/
def Tile.occurs (t : Tile) : Bool :=
  1 ≤ t.rows && t.rows ≤ 1024 && 1 ≤ t.cols && t.cols ≤ 4096 && t.imode ≤ 3
    && (if t.imode = 0 then t.igran == 0 else 3 ≤ t.igran && t.igran ≤ 10) && (t.fmt != .int4 || t.cols % 2 == 0)
    && t.base < 896 && t.fmt != .aq64
    && (if t.dom then 1 ≤ t.hlev && t.hlev ≤ 6 && t.rows % 2 ^ t.hlev == 0 && t.thk ≤ 3 else t.hlev == 0 && t.thk == 0 && !t.pv)

/-- Does an image fit a core set, for a queue's address space: a capability to its bytes (spec/26 R383), and no ground
for a refusal in what it holds (R360)? -/
def State.imageFits (s : State) (im : Image) (capx : Nat) (cores : List Nat) : Bool :=
  (imageCap im.addr cores.length).allows capImage .read (BitVec.ofNat 64 im.addr) im.bytes && im.whole && im.version == 1 && sameShape (sortLanes im.launch.all) cores
    && im.cores.all (fun c => c.lanes.all (fun p => s.laneOk capx p.2)
        && (match c.block with
          | some b => b.log.nodes.all fun n => n.2.op.toNat ≤ 8
          | none => true))
    && im.tiles.all fun p => p.2.occurs

/-- May an image be loaded: it fits, and its digest matches? -/
def State.imageOk (s : State) (im : Image) (capx : Nat) (cores : List Nat) : Bool :=
  s.imageFits im capx cores && s.digestHolds im

end Sys2Proof.Machine
end

