-- ==== Sys2Proof/Machine/Int.lean ====
section
/-! DEFINITION. Integer, bit and predicate instructions (spec/07 R104 to R121). -/

namespace Sys2Proof.Machine

/-! ## Instructions of one, two and three 32-bit sources -/

/-- An instruction of one 32-bit source. -/
def unary (g : Guard) (o : Ops) (s : State) (f : W32 → W32) : Out :=
  perLane g o.d s fun l => .ok [f (s.src l .int o.a)]

/-- An instruction of two 32-bit sources. -/
def binary (g : Guard) (o : Ops) (s : State) (f : W32 → W32 → W32) : Out :=
  perLane g o.d s fun l => .ok [f (s.src l .int o.a) (s.src l .int o.b)]

/-- An instruction of three 32-bit sources. -/
def ternary (g : Guard) (o : Ops) (s : State) (f : W32 → W32 → W32 → W32) : Out :=
  perLane g o.d s fun l => .ok [f (s.src l .int o.a) (s.src l .int o.b) (s.src l .int o.c)]

/-! ## Functions of words -/

/-- A word as a number, signed or unsigned (R104). -/
def intRead (u : Bool) (x : W32) : Int := if u then (x.toNat : Int) else x.toInt

/-- The high word of a product (R110). -/
def mulHigh (u : Bool) (a b : W32) : W32 := BitVec.ofInt 32 (intRead u a * intRead u b / 4294967296)

/-- The quotient toward zero; all ones when the divisor is 0 (R112). -/
def divQuot (u : Bool) (a b : W32) : W32 :=
  if b = 0 then 0xFFFFFFFF else BitVec.ofInt 32 ((intRead u a).tdiv (intRead u b))

/-- The remainder with the dividend's sign; the dividend when the divisor is 0 (R112). -/
def divRem (u : Bool) (a b : W32) : W32 :=
  if b = 0 then a else BitVec.ofInt 32 ((intRead u a).tmod (intRead u b))

/-- The absolute value modulo 2^32 (R110). -/
def absWord (a : W32) : W32 := if a.msb then -a else a

/-- The smaller or larger of two words (R110). -/
def pickWord (u max : Bool) (a b : W32) : W32 :=
  let le := intRead u a ≤ intRead u b
  if max then (if le then b else a) else (if le then a else b)

/-- SHL (R113). -/
def shlWord (a b : W32) : W32 := if 32 ≤ b.toNat then 0 else a <<< b.toNat

/-- SHR, logical or arithmetic (R113). -/
def shrWord (u : Bool) (a b : W32) : W32 :=
  if u then (if 32 ≤ b.toNat then 0 else a >>> b.toNat)
  else a.sshiftRight (min b.toNat 32)

/-- ROT, left or right (R113). -/
def rotWord (right : Bool) (a b : W32) : W32 :=
  let n := b.toNat % 32
  if right then a.rotateRight n else a.rotateLeft n

/-- The number of 1 bits (R114). -/
def popWord (a : W32) : W32 := BitVec.ofNat 32 (((List.range 32).filter fun i => a.getLsbD i).length)

/-- The number of 0 bits above the highest 1 bit (R114). -/
def clzWord (a : W32) : W32 := BitVec.ofNat 32 (32 - bitLen a.toNat)

/-- The bits in reverse order (R114). -/
def revWord (a : W32) : W32 :=
  BitVec.ofNat 32 ((List.range 32).foldl (fun acc i => acc + (if a.getLsbD (31 - i) then 2 ^ i else 0)) 0)

/-- BFE (R115). -/
def bfeWord (u : Bool) (a b c : W32) : W32 :=
  let pos := b.toNat % 256
  let len := min (c.toNat % 256) 32
  if u then BitVec.ofNat 32 ((a.toNat >>> pos) % 2 ^ len)
  else if len = 0 then 0
  else BitVec.ofInt 32 (signedOf len ((a.sshiftRight (min pos 32)).toNat))

/-- BFI (R116). -/
def bfiWord (a b c : W32) : W32 :=
  let pos := c.toNat % 256
  let len := min (c.toNat / 256 % 256) 32
  let mask : W32 := BitVec.ofNat 32 ((2 ^ len - 1) <<< pos)
  (b &&& ~~~mask) ||| (BitVec.ofNat 32 (a.toNat <<< pos) &&& mask)

/-- One result byte of BSWZ (R117). -/
def bswzByte (a b c : W32) (i : Nat) : Nat :=
  let x := (if c.toNat >>> (3 * i) % 8 < 4 then a.toNat >>> (8 * (c.toNat >>> (3 * i) % 8))
            else b.toNat >>> (8 * (c.toNat >>> (3 * i) % 8 - 4))) % 256
  match c.toNat >>> (12 + 2 * i) % 4 with
  | 0 => x
  | 1 => 0
  | 2 => if 128 ≤ x then 255 else 0
  | _ => 255

/-- BSWZ (R117). -/
def bswzWord (a b c : W32) : W32 :=
  BitVec.ofNat 32 (bswzByte a b c 0 + 2 ^ 8 * bswzByte a b c 1 + 2 ^ 16 * bswzByte a b c 2 + 2 ^ 24 * bswzByte a b c 3)

/-- ITEST's comparison (R118). -/
def icmpHolds (cmp : ICmp) (x y : Int) : Bool :=
  match cmp with
  | .eq => x == y | .ne => x != y | .lt => x < y | .le => x ≤ y | .gt => y < x | .ge => y ≤ x

/-- A truth value as a word. -/
def boolWord (b : Bool) : W32 := if b then 1 else 0

/-- PLUT (R120). -/
def plutWord (lut : BitVec 8) (a b c : W32) : W32 :=
  boolWord (lut.getLsbD ((if a = 0 then 0 else 1) + (if b = 0 then 0 else 2) + (if c = 0 then 0 else 4)))

/-! ## The instructions -/

/-- NOP (R108). -/
def execNop (_g : Guard) (s : State) : Out := .next s
/-- MOV (R109). -/
def execMov (g : Guard) (o : Ops) (s : State) : Out := unary g o s id
/-- IADD (R110). -/
def execIadd (g : Guard) (o : Ops) (s : State) : Out := binary g o s (· + ·)
/-- ISUB (R110). -/
def execIsub (g : Guard) (o : Ops) (s : State) : Out := binary g o s (· - ·)
/-- IMUL (R110). -/
def execImul (g : Guard) (o : Ops) (s : State) : Out := binary g o s (· * ·)
/-- IMULH (R110). -/
def execImulh (g : Guard) (o : Ops) (u : Bool) (s : State) : Out := binary g o s (mulHigh u)
/-- INEG (R110). -/
def execIneg (g : Guard) (o : Ops) (s : State) : Out := unary g o s (- ·)
/-- IABS (R110). -/
def execIabs (g : Guard) (o : Ops) (s : State) : Out := unary g o s absWord
/-- IMIN (R110). -/
def execImin (g : Guard) (o : Ops) (u : Bool) (s : State) : Out := binary g o s (pickWord u false)
/-- IMAX (R110). -/
def execImax (g : Guard) (o : Ops) (u : Bool) (s : State) : Out := binary g o s (pickWord u true)
/-- IMAD (R111). -/
def execImad (g : Guard) (o : Ops) (s : State) : Out := ternary g o s fun a b c => a * b + c
/-- IMADW (R111). -/
def execImadw (g : Guard) (o : Ops) (u : Bool) (s : State) : Out :=
  perLane g o.d s fun l =>
    .ok (wordsOf (BitVec.ofInt 64 (intRead u (s.src l .int o.a) * intRead u (s.src l .int o.b)) + s.src64 l o.c))
/-- IADD64 (R111). -/
def execIadd64 (g : Guard) (o : Ops) (s : State) : Out :=
  perLane g o.d s fun l => .ok (wordsOf (s.src64 l o.a + s.src64 l o.b))
/-- LEA (R111). -/
def execLea (g : Guard) (o : Ops) (s : State) : Out :=
  perLane g o.d s fun l =>
    .ok (wordsOf (s.src64 l o.a + ((s.src l .int o.b).signExtend 64 <<< ((s.src l .int o.c).toNat % 32))))
/-- IDIV (R112). -/
def execIdiv (g : Guard) (o : Ops) (u : Bool) (s : State) : Out := binary g o s (divQuot u)
/-- IREM (R112). -/
def execIrem (g : Guard) (o : Ops) (u : Bool) (s : State) : Out := binary g o s (divRem u)
/-- SHL (R113). -/
def execShl (g : Guard) (o : Ops) (s : State) : Out := binary g o s shlWord
/-- SHR (R113). -/
def execShr (g : Guard) (o : Ops) (u : Bool) (s : State) : Out := binary g o s (shrWord u)
/-- ROT (R113). -/
def execRot (g : Guard) (o : Ops) (r : Bool) (s : State) : Out := binary g o s (rotWord r)
/-- AND (R114). -/
def execAnd (g : Guard) (o : Ops) (s : State) : Out := binary g o s (· &&& ·)
/-- OR (R114). -/
def execOr (g : Guard) (o : Ops) (s : State) : Out := binary g o s (· ||| ·)
/-- XOR (R114). -/
def execXor (g : Guard) (o : Ops) (s : State) : Out := binary g o s (· ^^^ ·)
/-- ANDN (R114). -/
def execAndn (g : Guard) (o : Ops) (s : State) : Out := binary g o s fun a b => a &&& ~~~b
/-- BFE (R115). -/
def execBfe (g : Guard) (o : Ops) (u : Bool) (s : State) : Out := ternary g o s (bfeWord u)
/-- BFI (R116). -/
def execBfi (g : Guard) (o : Ops) (s : State) : Out := ternary g o s bfiWord
/-- POPC (R114). -/
def execPopc (g : Guard) (o : Ops) (s : State) : Out := unary g o s popWord
/-- CLZ (R114). -/
def execClz (g : Guard) (o : Ops) (s : State) : Out := unary g o s clzWord
/-- BREV (R114). -/
def execBrev (g : Guard) (o : Ops) (s : State) : Out := unary g o s revWord
/-- BSWZ (R117). -/
def execBswz (g : Guard) (o : Ops) (s : State) : Out := ternary g o s bswzWord
/-- ITEST (R118). -/
def execItest (g : Guard) (o : Ops) (u : Bool) (cmp : ICmp) (s : State) : Out :=
  binary g o s fun a b => boolWord (icmpHolds cmp (intRead u a) (intRead u b))
/-- MUX (R119). -/
def execMux (g : Guard) (o : Ops) (s : State) : Out := ternary g o s fun a b c => if c = 0 then b else a
/-- PLUT (R120). -/
def execPlut (g : Guard) (o : Ops) (lut : BitVec 8) (s : State) : Out := ternary g o s (plutWord lut)

/-- MOVP D, PSET (R121). -/
def execMovpRead (g : Guard) (o : Ops) (s : State) : Out :=
  perLane g o.d s fun l => .ok [((s.lane l).p.setWidth 32) ||| 0x80]

/-- MOVP PSET, A, B (R121): the predicates that the mask names, P7 never. -/
def execMovpWrite (g : Guard) (o : Ops) (s : State) : Out :=
  .next ((s.exec g).foldl (fun t l =>
    let a : BitVec 7 := (s.src l .int o.a).setWidth 7
    let m : BitVec 7 := if o.b = .none then 0x7F else (s.src l .int o.b).setWidth 7
    t.modLane l fun x => { x with p := (x.p &&& ~~~m) ||| (a &&& m) }) s)

end Sys2Proof.Machine
end

