-- ==== Sys2Proof/Machine/Launch.lean ====
section
/-! DEFINITION. Launches: the record and its checks, the arbitration of cores, placement, and completion (spec/23 R339 to
R347; spec/14 R244; spec/09 R145 to R147). -/

namespace Sys2Proof.Machine

/-! ## The launch record (R340, R341) -/

/-- The cores a record names: none where the fields that name them are wrong. -/
def State.coreSet (s : State) (capx : Nat) (r : List W64) : Option (List Nat) :=
  let w := dword r 12
  let a := dword r 13
  if !w.getLsbD 63 then
    let n := field w 11 11
    let c := field w 0 11
    if 1 ≤ n && c + n ≤ Config.cores && a == 0 then some ((List.range n).map (c + ·)) else none
  else if field w 0 22 ≠ 0 || !s.pointerOk capx 64 a then none
  else match s.readVa cpAgent capx .read a 192 with
    | none => none
    | some bs =>
      let cs := (List.range Config.cores).filter fun c => (bs.getD (c / 8) 0).getLsbD (c % 8)
      if cs.isEmpty then none else some cs

/-- Is every reserved bit of a record 0? -/
def recordReserved (r : List W64) : Bool :=
  let zero (i lo n : Nat) : Bool := field (dword r i) lo n == 0
  zero 0 48 16 && zero 1 54 10 && zero 1 13 3 && zero 2 40 24 && zero 2 15 1 && zero 5 32 32 && zero 7 32 32 && zero 10 48 16
    && zero 12 22 41 && zero 14 2 62 && (List.range 17).all fun i => dword r (15 + i) == 0

/-- Is every field of a record in its range, and do they fit together? -/
def Launch.fieldsOk (x : Launch) : Bool :=
  let a := x.alloc
  let w := dword x.record
  let tile := field (w 1) 40 9
  a.ns ≤ 64 && a.ns % 8 == 0 && a.ng ≤ 64 && 8 ≤ a.nv && a.nv ≤ 384 && a.nv % 8 == 0
    && 1 ≤ x.threads && x.threads ≤ 4096 && (x.threads ≤ 2048 || x.paired)
    && (if a.ng = 0 then x.nchip == 0 && x.nspill == 0
        else 8192 ≤ x.nchip && x.nchip ≤ 16384 && x.nchip % 32 == 0 && x.nspill ≤ 2 ^ 24 - x.nchip)
    && (if x.nspill = 0 then w 3 == 0 else (w 3).toNat % 4096 == 0)
    && (if x.poolN = 0 then w 4 == 0 else (w 4).toNat % 128 == 0)
    && (w 10).toNat % 8 == 0 && (w 11).toNat % 8 == 0 && (w 0).toNat % 256 == 0
    && tile ≤ 448 && tile * 1024 + 16 * x.nchip ≤ 448 * 1024

/-- Do the launch's blocks fit their cores' register files? -/
def Launch.fits (x : Launch) : Bool :=
  (if x.paired then (x.warps + 1) / 2 else x.warps) * x.warpWords ≤ 262144

/-- Is the index space one of R175? -/
def Launch.spaceOk (x : Launch) : Bool :=
  (List.range 3).all (fun i => 1 ≤ x.extent i && x.extent i ≤ 0xFFFFFFFE) && x.items ≤ 2 ^ 48

/-- Are the record's pointers mapped under CAPX? SPILLBASE and POOLBASE are pointers where their counts are not 0. -/
def State.recordPointers (s : State) (capx : Nat) (x : Launch) : Bool :=
  let r := x.record
  s.pointerOk capx 1 (dword r 0) && (x.nspill == 0 || s.pointerOk capx 1 (dword r 3))
    && (x.poolN == 0 || s.pointerOk capx 1 (dword r 4)) && [8, 10, 11].all fun i => s.pointerOr0 capx 1 (dword r i)

/-- Is a core set made of whole pairs? -/
def wholePairs (cs : List Nat) : Bool := cs.all fun c => cs.contains (c / 2 * 2) && cs.contains (c / 2 * 2 + 1)

/-- The launch that a packet and its record ask for; none where R341 refuses it. -/
def State.launchOfPacket (s : State) (d q : Nat) (y : Queue) (a : Act) (r : List W64) : Option Launch :=
  match s.coreSet y.capx r with
  | none => none
  | some cs =>
    let x : Launch :=
      { record := r, packet := a.packet, queue := some (d, q), index := a.idx, capx := y.capx, cores := cs
        prio := min (field (dword r 1) 49 3) y.prioCap }
    if recordReserved r && x.fieldsOk && x.fits && x.spaceOk && s.recordPointers y.capx x && (!x.paired || wholePairs cs)
    then some x else none

/-- LAUNCH_PACKET: the head's launch record is read whole and checked, and its cores are requested (R339 to R341). -/
def execLaunchPacket (die q : Nat) (s : State) : Out :=
  if !(die < Config.dies && q < 64) then .fault .noSuchUnit
  else match (s.queue die q).bind fun y => (y.head.filter fun a => packetType a.packet == 1).map fun a => (y, a) with
    | none => .next s
    | some (y, a) =>
      if a.launch.isSome then .next s
      else if !((s.die die).loadCap (recordSlot q)).allows capRecord .read (dword a.packet 1) 256 then .next (s.stopQueue die q 0x03 y.qread)
      else
        let (s, bad) := s.cpErrors y.capx (dword a.packet 1) 256
        if bad then .next (s.stopQueue die q 0x08 y.qread)
        else match (s.cpDwords y.capx (dword a.packet 1) 32).bind (s.launchOfPacket die q y a) with
          | none => .next (s.stopQueue die q 0x04 y.qread)
          | some x =>
            let (i, s) := s.fresh
            let s : State := { s with launches := tset s.launches i x }
            .next ((s.modQueue die q fun y => { y with head := some { a with launch := some i } }).askNext i)

/-! ## Arbitration (R339) -/

/-- A launch, when it is known. -/
def State.launchAt (s : State) (i : Nat) : Launch := (tfind s.launches i).getD {}

/-- Is a launch halted, to resume? -/
def Launch.resumes (x : Launch) : Bool :=
  match x.state with
  | .halted _ => true
  | _ => false

/-- Does a launch's request go before another's that arrived earlier? -/
def State.goesBefore (s : State) (i j : Nat) : Bool :=
  let x := s.launchAt i
  let y := s.launchAt j
  y.prio < x.prio || x.prio == y.prio && x.resumes && !y.resumes

/-- Does a pre-empted launch, all its cores free or already its own, come before a waiting launch at a core (R339)? -/
def State.yields (s : State) (i core : Nat) : Bool :=
  let x := s.launchAt i
  x.state == .waiting && s.launches.any fun p => p.1 ≠ i && p.2.resumes && x.prio ≤ p.2.prio && p.2.all.contains core
    && p.2.all.all fun c => (s.core c).launch.isNone || (s.core c).launch == some p.1

/-- The request that goes first at a core, among those in order of arrival. -/
def State.firstRequest (s : State) (core : Nat) (is : List Nat) : Option Nat :=
  (is.filter fun i => !s.yields i core).foldl (fun best i => match best with
    | none => some i
    | some j => if s.goesBefore i j then some i else best) none

/-- A core granted to a launch, which asks for its next one. -/
def State.grantCore (s : State) (core i : Nat) : State :=
  (s.modCore core fun k => { k with launch := some i, requests := k.requests.filter (· ≠ i) }).askNext i

/-- A core taken from a launch not yet placed, whose request stands again in its place: it came before every request of
its priority that waits there (R339). -/
def State.takeCore (s : State) (core i j : Nat) : State :=
  (s.grantCore core i).modCore core fun k => { k with requests := j :: k.requests }

/-- CORE_GRANT: a core arbitrates the requests that have reached it. -/
def execCoreGrant (core : Nat) (s : State) : Out :=
  if !(core < Config.cores) then .fault .noSuchUnit
  else match s.firstRequest core (s.core core).requests with
    | none => .next s
    | some i =>
      if (s.die (dieOf core)).state ≠ .ready then .next s
      else match (s.core core).launch with
        | none => .next (s.grantCore core i)
        | some j =>
          let y := s.launchAt j
          if !(y.prio < (s.launchAt i).prio) then .next s
          else match y.state with
            | .running => .next (s.requestHalt j)
            | .waiting => .next (s.takeCore core i j)
            | .halted _ => .next (s.takeCore core i j)
            | _ => .next s

/-! ## Placement (R342, R343; spec/14 R244) -/

/-- The cores of each block, by block number. -/
def Launch.blockSets (x : Launch) : List (List Nat) :=
  if x.paired then (x.cores.filter (· % 2 == 0)).map fun c => [c, c + 1] else x.cores.map fun c => [c]

/-- The other core of a pair. -/
def partner (c : Nat) : Nat := if c % 2 = 0 then c + 1 else c - 1

/-- Does a block take the pair's whole engine (R244)? -/
def State.takesWhole (s : State) (x : Launch) (cs : List Nat) : Bool :=
  match cs with
  | [c] => !x.cores.contains (partner c) && (s.core (partner c)).launch.isNone
  | _ => true

/-- A core as it starts for a launch: its registers as firmware sets them, no queue holding anything. -/
def State.startCore (s : State) (c i : Nat) (block : Option Nat) : State :=
  s.setCore c { launch := some i, block := block, ktrapv := Config.firmwareKtrapv, requests := (s.core c).requests,
                icache := (s.core c).icache }

/-- The rows and streams of a new block cleared, their errors with them (spec/26 R372). -/
def State.clearEngine (s : State) (c : Nat) : State :=
  let p := pairOf c
  (s.overwrite (s.engineSite [c])).modPair p fun x =>
    { x with acc := x.acc.filter fun e => !s.ownsRow [c] p (e.1 / 64)
             streams := x.streams.filter fun e => !s.ownsStream [c] p e.1 }

/-- The lanes of a home warp of a block, from the thread its first lane is (spec/09 R147); their registers hold no old
error (spec/26 R372). -/
def State.startWarp (s : State) (x : Launch) (kernarg : W64) (core hw : Nat) : State :=
  let w := core * 128 + hw
  let n := min 32 (x.threads - 32 * hw)
  let s := (s.overwrite (warpSite w)).setWarp w { newWarp x with s := putRun [] 0 [kernarg.setWidth 32, kernarg.extractLsb' 32 32] }
  (List.range ((n + 3) / 4 * 4)).foldl (fun t i =>
    t.setLane (w * 32 + i) (t.newLane x (w * 32 + i) (n ≤ i) false ((dword x.record 0).setWidth 48))) s

/-- A block placed on its cores. -/
def State.startBlock (s : State) (i : Nat) (x : Launch) (kernarg : W64) (id : Nat) (cs : List Nat) : State :=
  let c := cs.headD 0
  let whole := s.takesWhole x cs
  let b : Block := { launch := i, id := id, cores := cs, threads := x.threads, whole := whole }
  let s := cs.foldl (fun t k => t.startCore k i (some c)) s
  let s : State := { s with blocks := tset s.blocks c b }
  let s := if whole && cs.length == 1 then
      (s.startCore (partner c) i none).modLaunch i fun y => { y with held := y.held ++ [partner c] }
    else s
  let s := s.clearEngine c
  (List.range x.warps).foldl (fun t hw => t.startWarp x kernarg (if x.paired then c + hw % 2 else c) hw) s

/-- A launch placed: its number, its acquire on every core, and its blocks in ascending order. -/
def State.placeLaunch (s : State) (d i : Nat) (x : Launch) : State :=
  let (num, s) := s.number d
  let kernarg := if dword x.packet 4 = 0 then dword x.record 8 else dword x.packet 4
  let y : Launch := { x with num := num, state := .running, disp := x.ranges }
  let s : State := { s with launches := tset s.launches i y }
  let s := x.cores.foldl (fun t c => t.acquire c (packetAscope x.packet)) s
  (x.blockSets.zipIdx).foldl (fun t p => t.startBlock i y kernarg p.2 p.1) s

/-- A launch of a queue that has all its cores: one that resumes goes first. -/
def State.grantedLaunch (s : State) (d q : Nat) : Option (Nat × Launch) :=
  let mine := s.launches.filter fun p => p.2.queue == some (d, q) && s.allGranted p.1 p.2
  match mine.find? fun p => p.2.resumes with
  | some p => some p
  | none => mine.find? fun p => p.2.state == .waiting

/-- LAUNCH_PLACE: with all its cores granted, a launch of the queue is placed, and QREAD advances past its packet; a
halted one is loaded from its image. -/
def execLaunchPlace (die q : Nat) (s : State) : Out :=
  if !(die < Config.dies && q < 64) then .fault .noSuchUnit
  else match s.grantedLaunch die q with
    | none => .next s
    | some (i, x) => match x.state with
      | .halted k => match tfind s.images k with
        | some im => .next (s.loadContext i x im die)
        | none => .next s
      | _ => match (s.queue die q).bind (·.head) with
        | some a => .next ((s.placeLaunch die i x).advance die q a)
        | none => .next s

/-! ## Completion (R344, R345) -/

/-- LAUNCH_COMPLETE: once the eft has decided and GT has passed, the release, the decrement and the cores freed. -/
def execLaunchComplete (launch : Nat) (s : State) : Out :=
  match tfind s.launches launch with
  | none => .next s
  | some x => match x.queue with
    | none => .next s
    | some (d, _) =>
      if x.state ≠ .running || !x.token.decided then .next s
      else match s.signalStep d x.capx x.packet x.token.times x.num ((dword x.record 14).getLsbD 1) with
        | none => .next s
        | some t => .next (((t.freeCores launch x.all).dropResume launch).endLaunch launch x)

end Sys2Proof.Machine
end

