-- ==== Sys2Proof/Machine/Service.lean ====
section
/-! DEFINITION. Links, scrubbing, semaphores, the mailbox commands, the two control ports, the clock, resets and boot
(spec/26 R370 to R387; spec/12 R218, R219; spec/01 R14; spec/23 R329, R333, R350; spec/24 R352, R361). -/

namespace Sys2Proof.Machine

/-! ## Links (R372) -/

/-- Is a hop a link, whose flits are replayed (R370)? -/
def isLink (hop : Nat) : Bool := 4 ≤ hop && hop ≤ 7

/-- Log entries for replays, one each. -/
def State.logReplays (s : State) (hop die : Nat) : Nat → State
  | 0 => s
  | n + 1 => (s.logLink hop die false 0).logReplays hop die n

/-- FLIT_REPLAY: a flit that failed its CRC is sent again; each replay is logged with UNC 0 (R372, R374). -/
def execFlitReplay (hop : BitVec 8) (die : Nat) (replays : Fin 17) (s : State) : Out :=
  if die < Config.dies && isLink hop.toNat then .next (s.logReplays hop.toNat die replays.val) else .fault .noSuchUnit

/-- A context killed wherever it is: one that is halted has nothing left to halt. -/
def State.killContext (s : State) (i : Nat) : State :=
  match tfind s.launches i with
  | none => s
  | some x => if x.resumes then (s.killLaunch i).endLaunch i x else s.killLaunch i

/-- The Fenlink port of a NETWRITE's route. -/
def State.netPort (s : State) (d : Nat) (a : Act) : Option Nat :=
  (tfind (s.die d).routes (field (dword a.packet 6) 32 16)).map (·.port)

/-- A Fenlink that has failed: every NETWRITE under way over it stops its queue with LINK, or, where the queue has
stopped already, never completes (spec/23 R350). -/
def State.linkFails (s : State) (port : Nat) : State :=
  let d := port / 2
  let under (acted : Bool) (a : Act) : Bool := packetType a.packet == 7 && a.acted == acted && s.netPort d a == some port
  let s := (s.die d).queues.foldl (fun t p =>
    if p.2.head.any (under true) then t.stopQueue d p.1 0x09 p.2.qread
    else if p.2.acts.any (under false) then
      t.modQueue d p.1 fun y => { y with acts := y.acts.filter fun a => !under false a }
    else t) s
  { s with links := tput false s.links port false }

/-- LINK_RETRAIN: a link that trains again goes on; one that does not kills the contexts with a request over it, and is
reported in the log. -/
def execLinkRetrain (hop : BitVec 8) (die port : Nat) (ok : Bool) (users : List Nat) (s : State) : Out :=
  if !(die < Config.dies && isLink hop.toNat && (hop != 7 || port / 2 == die)) then .fault .noSuchUnit
  else if ok then .next s
  else
    let num := (users.head?.map fun i => (s.launchAt i).num).getD 0
    let s := users.foldl State.killContext s
    let s := if hop = 7 then s.linkFails port else s
    .next (s.logLink hop.toNat die true num)

/-- FENLINK_LINK_CHANGE: a link goes up or down, and firmware refills the route entries that name its port, those of the
port's own die (spec/01 R19): die, peer and grant of each (spec/23 R350). -/
def execFenlinkLinkChange (port : Nat) (up : Bool) (entries : List RouteEntry) (s : State) : Out :=
  if !(port < 16) then .fault .noSuchUnit
  else
    let s := if up then { s with links := tput false s.links port true } else s.linkFails port
    let s : State := { s with dies := s.dies.map fun p => (p.1, { p.2 with routes := p.2.routes.filter fun r => r.2.port != port }) }
    .next ((entries.filter fun e => e.1 == port / 2).foldl (fun t e => t.modDie e.1 fun x =>
      { x with routes := tset x.routes e.2.1 { port := port, grant := e.2.2 } }) s)

/-! ## Scrubbing (R387) -/

/-- The core of a site, 0x7FF for none. -/
def siteCore : Site → Nat
  | .lane k _ => coreOf k
  | .loaded k _ => coreOf k
  | .tile c _ _ => c
  | .l1 c _ => c
  | .icache c _ => c
  | _ => 0x7FF

/-- SCRUB: a granule is read, corrected where its code can, and written back; anything else is logged and stays. -/
def execScrub (site : Site) (s : State) : Out := .next (s.consume (inGranule site) (siteCore site) 0).1

/-! ## Semaphores (R377 to R379) -/

/-- OWNER of a port. -/
def Port.owner : Port → Nat
  | .ucie => 1
  | .pcie => 2

/-- A semaphore's word. -/
def State.sem (s : State) (n : Nat) : W64 := tget 0 s.sems n

/-- OWNER of an agent. -/
def Agent.owner : Agent → Nat
  | .port p => Port.owner p
  | .firmware d => 0x10 + d.val

/-- Does an agent hold a semaphore? -/
def State.holds (s : State) (a : Agent) (n : Nat) : Bool :=
  (s.sem n).getLsbD 63 && field (s.sem n) 0 8 == Agent.owner a

/-- Does a port work: the host die's runs once the host die's firmware has verified (R384)? -/
def State.portUp (s : State) : Port → Bool
  | .ucie => s.hostUp
  | .pcie => true

/-- Does an agent run: a port that works, or a die's firmware? -/
def State.agentUp (s : State) : Agent → Bool
  | .port p => s.portUp p
  | .firmware _ => true

/-- An agent's last answer. -/
def State.answerRead (s : State) (a : Agent) (w : W64) : State :=
  { s with lastRead := tput .none s.lastRead (Agent.owner a) (.data w) }

/-- A free semaphore claimed by a read, which returns its word after the claim; BROKEN is returned and then cleared. -/
def State.semRead (s : State) (a : Agent) (sem : Nat) : State × W64 :=
  let w := s.sem sem
  if w.getLsbD 63 then (s, w)
  else
    let owned : W64 := (w &&& ~~~(0xFF#64)) ||| (1#64 <<< 63) ||| BitVec.ofNat 64 (Agent.owner a)
    ({ s with sems := tput 0 s.sems sem (owned &&& ~~~(1#64 <<< 62)) }, owned)

/-- The owner's write with HELD 0 frees a semaphore, with HELD 1 sets its tag; every other write is ignored. -/
def State.semWrite (s : State) (a : Agent) (sem : Nat) (w : W64) : State :=
  if !s.holds a sem || field w 40 22 ≠ 0 then s
  else
    let old := s.sem sem
    let new : W64 := if w.getLsbD 63 then (old &&& ~~~(0xFFFFFFFF00#64)) ||| (w &&& 0xFFFFFFFF00#64)
      else old &&& 0xFFFFFFFF00#64
    { s with sems := tput 0 s.sems sem new }

/-- SEM_CLAIM_READ: an agent's 8-byte read of a semaphore. -/
def execSemClaimRead (agent : Agent) (sem : Nat) (s : State) : Out :=
  if !(sem < 64) then .fault .noSuchUnit
  else if !s.agentUp agent then .next s
  else
    let r := s.semRead agent sem
    .next (r.1.answerRead agent r.2)

/-- SEM_RELEASE_WRITE: an agent's write of a semaphore. -/
def execSemReleaseWrite (agent : Agent) (sem : Nat) (w : W64) (s : State) : Out :=
  if !(sem < 64) then .fault .noSuchUnit else .next (if s.agentUp agent then s.semWrite agent sem w else s)

/-- A held semaphore freed because its holder is gone: BROKEN 1, TAG kept. -/
def brokenSem (w : W64) : W64 := (w &&& 0xFFFFFFFF00#64) ||| (1#64 <<< 62)

/-- Every semaphore that some holder has freed. -/
def State.breakSems (s : State) (p : W64 → Bool) : State :=
  { s with sems := s.sems.map fun e => (e.1, if e.2.getLsbD 63 && p e.2 then brokenSem e.2 else e.2) }

/-- PORT_LINK_DOWN. -/
def execPortLinkDown (port : Port) (s : State) : Out := .next (s.breakSems fun w => field w 0 8 == Port.owner port)

/-! ## Mailbox commands (R379, R382) -/

/-- Contexts with a core on a die. -/
def State.contextsOn (s : State) (d : Nat) : List Nat :=
  s.launches.filterMap fun p => if p.2.onCores && p.2.all.any (fun c => dieOf c == d) then some p.1 else none

/-- Sites of a die's firmware SRAM. -/
def firmwareSite (d : Nat) : Site → Bool
  | .firmware x _ => x == d
  | _ => false

/-- A firmware core of a die meets its storage: what cannot be corrected restarts the firmware from ROM and kills every
context with a core on the die (R372). Answers whether it was restarted. -/
def State.firmwareCheck (s : State) (d : Nat) : State × Bool :=
  let on := s.contextsOn d
  let (s, bad) := s.consume (firmwareSite d) 0x7FF ((on.head?.map fun i => (s.launches.find? (·.1 == i)).elim 0 (·.2.num)).getD 0)
  if !bad then (s, false)
  else
    let s := on.foldl State.killLaunch s
    (s.overwrite (firmwareSite d), true)

/-- Argument `i` of a port's mailbox, MB2 on. -/
def State.mailArg (s : State) (d m i : Nat) : W64 := tget 0 (s.die d).mailArgs (m * 512 + i)

/-- The command of a port's mailbox goes on after its own step, MB1 reading BUSY. -/
def State.mailRun (s : State) (d port : Nat) : State := s.modDie d fun x => { x with jobs := tput .idle x.jobs port .running }

/-- A write of a command to MB0 (R382): ignored while one runs; a die that failed answers its PCIe mailbox alone (R384),
a module out of service every mailbox (R386), with FAILED; a code that names no command is INVALID; any other starts. -/
def State.mailAsk (s : State) (d m : Nat) (w : W64) : State :=
  let x := s.die d
  let code := field w 0 8
  if tget .idle x.jobs m ≠ .idle || x.state == .off then s
  else if x.state = .failed then (if m = Port.owner .pcie then s.mailEnd d m 4 else s)
  else if !s.inService then s.mailEnd d m 4
  else if code = 0 ∨ 8 < code then s.mailEnd d m 3
  else s.modDie d fun x => { x with jobs := tput .idle x.jobs m (.asked code) }

/-- A die's firmware that starts again from ROM has forgotten the commands asked of it: they end FAILED (log entry 81).
-/
def State.mailLost (s : State) (d : Nat) : State :=
  ((s.die d).jobs).foldl (fun t p => match p.2 with
    | .asked _ => t.mailEnd d p.1 4
    | _ => t) s

/-- A command that a port's mailbox asks for, carried out by the die's firmware under the semaphore of its region: `f`
answers the state and MB1's status, none while it runs on. -/
def command (port : Port) (die code sem : Nat) (s : State) (f : State → (Nat → W64) → State × Option W64) : Out :=
  if !(die < Config.dies) then .fault .noSuchUnit
  else
    let m := Port.owner port
    if tget .idle (s.die die).jobs m ≠ .asked code then .next s
    else if !s.holds (.port port) sem then .next (s.mailEnd die m 2)
    else
      let (s, bad) := s.firmwareCheck die
      if bad then .next (s.mailLost die)
      else match f s (s.mailArg die m) with
        | (t, some v) => .next (t.mailEnd die m v)
        | (t, none) => .next (t.mailRun die m)

/-- Is a queue descriptor one that R329 allows for a die? -/
def descriptorOk (die : Nat) (qd0 qd1 : W64) : Bool :=
  qd0.toNat % 4096 == 0 && field qd1 24 40 == 0 && field qd1 11 5 == 0 && field qd1 8 3 == die && 4 ≤ field qd1 0 5
    && field qd1 0 5 ≤ 16

/-- CREATEQ (R329): a queue of the number firmware chooses, made from the descriptor in MB2 and MB3, with firmware's
capabilities to it (R383). -/
def execCreateq (port : Port) (die q : Nat) (s : State) : Out :=
  command port die 1 (3 + die) s fun s arg =>
    if !(q < 64 && descriptorOk die (arg 2) (arg 3) && (s.queue die q).isNone) then (s, some 3)
    else
      let y : Queue := { qd0 := arg 2, qd1 := arg 3 }
      let s := s.modDie die fun x => { x.holdQueue q y with queues := tset x.queues q y }
      (if (tfind s.roots y.capx).isSome then s else { s with roots := tset s.roots y.capx (Config.root y.capx) }, some 0)

/-- RESETQ (R333): a queue in ERROR, its number in MB2, leaves it, its packets from QERRIDX on discarded. -/
def execResetq (port : Port) (die : Nat) (s : State) : Out :=
  command port die 2 (3 + die) s fun s arg =>
    let q := (arg 2).toNat
    match s.queue die q with
    | none => (s, some 3)
    | some y =>
      if !y.error then (s, some 0)
      else (s.modQueue die q fun y => { y with error := false, errcode := 0, depunder := false, qwrite := y.qerridx }, some 0)

/-- A placed launch by its number. -/
def State.launchNumbered (s : State) (n : W32) : Option (Nat × Launch) :=
  s.launches.find? fun p => p.2.num == n && p.2.state != .waiting

/-- PREEMPT (R352, R361): a halt requested of the launch in MB2; the command ends with the image, and with bit 0 of MB3,
the release flag, the context is given up. -/
def execPreempt (port : Port) (die : Nat) (s : State) : Out :=
  command port die 3 (3 + die) s fun s arg =>
    let release := (arg 3).getLsbD 0
    if field (arg 2) 32 32 ≠ 0 ∨ field (arg 3) 1 63 ≠ 0 then (s, some 3)
    else match s.launchNumbered ((arg 2).setWidth 32) with
      | none => (s, some 3)
      | some (i, x) =>
        if x.resumes then (if release then (s.withdraw [i]).endLaunch i x else s, some 0)
        else
          let s := s.modLaunch i fun y =>
            { y with release := y.release || release, askers := y.askers ++ [(die, Port.owner port, false)] }
          (s.requestHalt i, none)

/-- KILL (R373): the halt of every core of the launch in MB2 requested; nothing is saved. -/
def execKill (port : Port) (die : Nat) (s : State) : Out :=
  command port die 5 (3 + die) s fun s arg =>
    if field (arg 2) 32 32 ≠ 0 then (s, some 3)
    else match s.launchNumbered ((arg 2).setWidth 32) with
      | none => (s, some 3)
      | some (i, x) =>
        if x.resumes then (s.killContext i, some 0)
        else ((s.modLaunch i fun y => { y with askers := y.askers ++ [(die, Port.owner port, true)] }).killLaunch i, none)

/-- A packet with its signal address replaced, 0 keeping it (R361). -/
def withSignal (packet : List W64) (signal : W64) : List W64 := if signal = 0 then packet else packet.set 2 signal

/-- A launch from an image, to join a queue on a core set. -/
def Image.launchFor (im : Image) (k d q : Nat) (y : Queue) (cores : List Nat) (signal : W64) (asker : Nat × Nat × Bool) : Launch :=
  let f := coreMap (sortLanes im.launch.all) cores
  { record := im.launch.record, packet := withSignal im.launch.packet signal, queue := some (d, q), capx := y.capx
    cores := im.launch.cores.map f, held := im.launch.held.map f, state := .halted k
    prio := min (field (dword im.launch.record 1) 49 3) y.prioCap, askers := [asker] }

/-- A context halted here that is to go on elsewhere on this Z9: it keeps its queue. -/
def Launch.moveTo (x : Launch) (im : Image) (cores : List Nat) (signal : W64) (asker : Nat × Nat × Bool) : Launch :=
  let f := coreMap (sortLanes im.launch.all) cores
  { x with packet := withSignal x.packet signal, cores := im.launch.cores.map f, held := im.launch.held.map f
           askers := x.askers ++ [asker] }

/-- The state with a launch's grants and requests taken back. -/
def State.ungrant (s : State) (i : Nat) : State :=
  { s with cores := s.cores.map fun p => (p.1, { p.2 with launch := p.2.launch.filter (· ≠ i)
                                                          requests := p.2.requests.filter (· ≠ i) }) }

/-- The cores that LOADIMG's arguments name: bit c of MB3 to MB26, the first doubleword lowest. -/
def coresOfArgs (arg : Nat → W64) : List Nat := (List.range Config.cores).filter fun c => (arg (3 + c / 64)).getLsbD (c % 64)

/-- The image that lies at an address: the one written there last, by its number, while its digest holds; else what the
bytes there hold of an image that another Z9 wrote. -/
def State.imageAt (s : State) (a : Nat) : Option (Option Nat × Image) :=
  match (s.images.filter fun p => p.2.addr == a && p.2.whole && s.digestHolds p.2).getLast? with
  | some (k, im) => some (some k, im)
  | none => (Config.foreignImage s.mem a).map fun im => (none, { im with addr := a })

/-- The state with an image known by a number. -/
def State.numberImage (s : State) (k : Option Nat) (im : Image) : Nat × State :=
  match k with
  | some k => (k, s)
  | none =>
    let (id, s) := s.fresh
    (id, { s with images := tset s.images id im })

/-- An image's context asks for the cores of a set: one that waits here under the image itself, or a new one. -/
def State.loadImage (s : State) (k : Nat) (im : Image) (die q : Nat) (y : Queue) (cores : List Nat) (signal : W64)
    (asker : Nat × Nat × Bool) : State :=
  match s.launches.find? fun p => p.2.state == .halted k with
  | some (i, x) =>
    let s := s.ungrant i
    ({ s with launches := tset s.launches i (x.moveTo im cores signal asker) } : State).askNext i
  | none =>
    let (i, s) := s.fresh
    ({ s with launches := tset s.launches i (im.launchFor k die q y cores signal asker) } : State).askNext i

/-- LOADIMG (R358, R360, R361): the image at MB2 verified, and its context asks for the cores of the set in MB3 to MB26,
for the queue in MB27, its signal replaced by MB28; the command ends when it is loaded. -/
def execLoadimg (port : Port) (die : Nat) (s : State) : Out :=
  command port die 4 (3 + die) s fun s arg =>
    let cores := coresOfArgs arg
    match s.queue die (arg 27).toNat with
    | none => (s, some 3)
    | some y =>
      if cores.isEmpty || (arg 28).toNat % 8 ≠ 0 then (s, some 3)
      else match s.imageAt (arg 2).toNat with
        | none => (s, some 4)
        | some (k, im) =>
          if !s.imageOk im y.capx cores then (s, some 4)
          else
            let (k, s) := s.numberImage k im
            ((s.holdImage k (imageCap im.addr cores.length)).loadImage k im die (arg 27).toNat y cores (arg 28) (die, Port.owner port, false), none)

/-- Bytes written by an agent at a physical address, line by line. -/
def State.writePhysical (s : State) (pa : Nat) (bs : List Byte) : State :=
  (lineSpans pa bs.length).foldl (fun t p => (t.agentWrite 0 (pa + p.1) ((bs.drop p.1).take p.2)).1) s

/-- A digest's bytes. -/
def digestBytes (d : BitVec 512) : List Byte := toLe d.toNat 64

/-- Is a firmware image signed by a key whose digest the fuses hold (R384)? -/
def signed (image : List Byte) : Bool :=
  let key := Config.imageKey image
  (Config.fusedKeys.take 4).contains (Config.sha3 (toLe key.toNat 2592))
    && Config.mlDsaVerifies key (Config.sha3 image) (Config.imageSignature image)

/-- Does a firmware image verify: signed, and new enough (R384)? -/
def State.verifies (s : State) (image : List Byte) : Bool :=
  signed image && s.minVersion.toNat ≤ (Config.imageVersion image).toNat

/-- The physical clusters that the dies have retired (R386). -/
def State.retiredMap (s : State) : List (Option Nat) := (List.range Config.dies).map fun d => (s.die d).retired

/-- The firmware image stored for a die's next boot; 8 is the host die. -/
def State.storedImage (s : State) (d : Nat) : List Byte := (tfind s.firmware d).getD (Config.factoryFirmware d)

/-- The fields of the report of R385 that its signature covers. -/
def State.reportBody (s : State) (die : Nat) (nonce : List Byte) : List Byte :=
  toLe 1 8 ++ nonce ++ toLe Config.serial.toNat 16 ++ digestBytes (Config.sha3 (s.storedImage 8))
    ++ (List.range Config.dies).flatMap (fun d => digestBytes (Config.sha3 (s.die d).image))
    ++ digestBytes (Config.sha3 (Config.fuseContents s.minVersion))
    ++ digestBytes (Config.sha3 (Config.repairMaps s.retiredMap s.sparesUsed))
    ++ toLe (s.dieGt die) 8 ++ toLe s.minVersion.toNat 8

/-- The report of R385. -/
def State.report (s : State) (die : Nat) (nonce : List Byte) : List Byte :=
  s.reportBody die nonce ++ toLe (Config.identitySignature (Config.sha3 (s.reportBody die nonce))).toNat 4627

/-- ATTEST (R385): the report with the nonce in MB2 to MB9, written at the physical address in MB10; the host die signs
it. -/
def execAttest (port : Port) (die : Nat) (s : State) : Out :=
  command port die 6 2 s fun s arg =>
    let addr := (arg 10).toNat
    if !isMemory addr || !regionSpan addr 5435 then (s, some 3)
    else if !s.hostUp then (s, some 4)
    else (s.writePhysical addr (s.report die ((List.range 8).flatMap fun i => toLe (arg (2 + i)).toNat 8)), some 0)

/-- FWUPDATE (R384): the image at the physical address in MB2, of the length in MB3, is the die's for the next boot;
bit 0 of MB4 raises the fused minimum only when the image itself verifies. -/
def execFwupdate (port : Port) (die : Nat) (s : State) : Out :=
  command port die 7 0 s fun s arg =>
    let a := (arg 2).toNat
    let n := (arg 3).toNat
    if !isMemory a || !regionSpan a n || field (arg 4) 1 63 ≠ 0 then (s, some 3)
    else
      let (s, bad) := s.consumeHome touchesSite a n 0x7FF 0
      if bad then (s, some 4)
      else
        let bs := Memory.readBytes s.mem (canonPa a) n
        let t : State := { s with firmware := tset s.firmware die bs }
        (if (arg 4).getLsbD 0 && s.verifies bs then { t with minVersion := Config.imageVersion bs } else t, some 0)

/-! ## Resets (R376) -/

/-- What a die keeps over a device reset until it boots: its log and what it counted. -/
def Die.reset (x : Die) : Die :=
  { mcHead := x.mcHead, mcLog := x.mcLog, corrected := x.corrected, retired := x.retired, worn := x.worn, image := x.image }

/-- Errors that stand in what a device reset keeps: HBM and the windows (R376). -/
def keptSite : Site → Bool
  | .hbm _ => true
  | .dram _ => true
  | .window _ => true
  | _ => false

/-- The state after a device reset: every context and cache gone, HBM kept, held semaphores broken, every die to boot. -/
def State.deviceReset (s : State) : State :=
  let t : State := { State.reset with
    dies := s.dies.map fun p => (p.1, p.2.reset)
    mem := s.dirty.foldl (fun m p => Memory.writeBytes m (p.1 * 256) (Memory.readBytes s.hbm (p.1 * 256) 256)) s.mem
    hbm := s.hbm, writes := s.writes, images := s.images, sems := s.sems, errors := s.errors
    upsets := s.upsets.filter fun u => keptSite u.site
    rowTimes := s.rowTimes, repairRows := s.repairRows, sparesUsed := s.sparesUsed, links := s.links
    minVersion := s.minVersion, firmware := s.firmware, hostUp := s.hostUp
    boots := s.boots, gt := s.gt, skew := s.skew, cycles := s.cycles, cycleRem := s.cycleRem, clock := s.clock, hot := s.hot
    nextId := s.nextId, freeCtr := s.freeCtr, lastRead := s.lastRead, turn := s.turn, turns := s.turns }
  t.breakSems fun _ => true

/-- DEVRESET. -/
def execDevreset (port : Port) (die : Nat) (s : State) : Out := command port die 8 0 s fun s _ => (s.deviceReset, some 0)

/-- What a die's repair map keeps over a module reset: the clusters that have worn since the last boot (R386). -/
def Die.map (x : Die) : Die := { worn := x.worn }

/-- MODULE_RESET: all state as at power-on; what the fuses, the repair maps and the firmware's own storage hold stays. -/
def execModuleReset (s : State) : Out :=
  .next { State.reset with dies := (s.dies.filter fun p => p.2.worn ≠ []).map fun p => (p.1, p.2.map), minVersion := s.minVersion, firmware := s.firmware, repairRows := s.repairRows,
                           sparesUsed := s.sparesUsed, boots := s.boots, nextId := s.nextId, freeCtr := s.freeCtr,
                           turn := s.turn, turns := s.turns }

/-! ## Boot (R384, R386, R387; spec/01 R12; spec/12 R392) -/

/-- One die's boot: it runs when its image verifies; the cluster that failed its self-test or has worn is retired. A die
that fails answers its PCIe mailbox. -/
def State.bootDie (s : State) (d : Nat) (bad : List Nat) : State :=
  let x := s.die d
  let ok := s.verifies (s.storedImage d)
  s.setDie d { state := if ok then .ready else .failed, image := s.storedImage d, retired := (bad ++ x.worn).eraseDups.head?
               mailbox := if ok then [] else [(Port.owner .pcie, 4)], mcHead := x.mcHead, mcLog := x.mcLog }

/-- Does a die have more than one cluster to retire? -/
def State.tooWorn (s : State) (retired : List (List Nat)) (d : Nat) : Bool :=
  2 ≤ ((retired.getD d [] ++ (s.die d).worn).eraseDups).length

/-- An entry that names a die whose clusters keep the module out of service; its other fields are free. -/
def State.logWorn (s : State) (d : Nat) : State :=
  let (x, s) := s.free
  let (y, s) := s.free
  s.modDie d (·.log { mc0 := mcWord true (1 + x.toNat % 15) d 0x7FF 0, mc1 := y, mc2 := BitVec.ofNat 64 (s.dieGt d), mc3 := 0 } true)

/-- A listed row repaired with one of its stack's spare rows, its errors gone; with none left it stays in use (R387). -/
def State.repairRow (s : State) (r : Nat) : State :=
  let k := Config.stackOf r
  let used := tget 0 s.sparesUsed k
  if used < Config.spareRows k then
    { s.overwrite (fun x => siteRow x == some r) with
      sparesUsed := tput 0 s.sparesUsed k (used + 1), rowTimes := tput [] s.rowTimes r [] }
  else s

/-- Every mailbox reports FAILED: the module is not in service (R386). -/
def State.outOfService (s : State) : State :=
  (List.range Config.dies).foldl (fun t d => t.modDie d fun x =>
    { x with mailbox := [(Port.owner .ucie, 4), (Port.owner .pcie, 4)] }) s

/-- BOOT: every die that is not running verifies its firmware and maps its clusters, and the host die verifies its own;
listed rows are repaired; counts since boot start again. `retired` says which clusters of each die failed self-test. -/
def execBoot (retired : List (List Nat)) (s : State) : Out :=
  if (List.range Config.dies).any fun d => (s.die d).state != .off then .next s
  else
    let worn := (List.range Config.dies).filter (s.tooWorn retired)
    let t := (List.range Config.dies).foldl (fun t d => t.bootDie d (retired.getD d [])) s
    let t := s.repairRows.foldl State.repairRow t
    let t : State := { t with errors := [], repairRows := [], boots := t.boots + 1, inService := worn.isEmpty
                              hostUp := s.hostUp || s.verifies (s.storedImage 8) }
    .next (worn.foldl State.logWorn (if worn.isEmpty then t else t.outOfService))

/-! ## The clock (spec/01 R14) -/

/-- TEMPERATURE_LIMIT_REACHED: the core clock falls by a step of 100 MHz. -/
def execTemperatureLimitReached (s : State) : Out := .next { s with hot := true, clock := max 1 (s.clock - 1) }

/-- TEMPERATURE_LIMIT_CLEARED: the core clock rises again, a step at a time, to 1.8 GHz. -/
def execTemperatureLimitCleared (s : State) : Out := .next { s with hot := false, clock := min 18 (s.clock + 1) }

/-! ## The ports' reads and writes (R380, R381; spec/12 R218, R219) -/

/-- The doubleword of a machine-check entry. -/
def McEntry.word (e : McEntry) (i : Nat) : W64 :=
  match i with
  | 0 => e.mc0
  | 1 => e.mc1
  | 2 => e.mc2
  | _ => e.mc3

/-- A machine-check entry with a doubleword written. -/
def McEntry.setWord (e : McEntry) (i : Nat) (w : W64) : McEntry :=
  match i with
  | 0 => { e with mc0 := w }
  | 1 => { e with mc1 := w }
  | 2 => { e with mc2 := w }
  | _ => { e with mc3 := w }

/-- A die with a doubleword of its machine-check log written. -/
def Die.setLogWord (x : Die) (k i : Nat) (w : W64) : Die :=
  { x with mcLog := tput {} x.mcLog k ((tget {} x.mcLog k).setWord i w) }

/-- A register of a die's privileged view other than a semaphore, read with 8 bytes. -/
def State.privView (s : State) (d off : Nat) : W64 :=
  let x := s.die d
  if off % 8 ≠ 0 then 0
  else if 0x1000 ≤ off ∧ off < 0x3000 then
    let m := off / 0x1000
    let i := off % 0x1000 / 8
    if i = 0 then 0
    else if i = 1 then (if tget .idle x.jobs m = .idle then tget 0 x.mailbox m else 1)
    else tget 0 x.mailArgs (m * 512 + i)
  else if 0x10000 ≤ off ∧ off < 0x18000 then (tget {} x.mcLog ((off - 0x10000) / 32)).word (off / 8 % 4)
  else if off = 0x18000 then BitVec.ofNat 64 x.mcHead
  else if off = 0x18008 then BitVec.ofNat 64 x.corrected
  else if off = 0x20000 then BitVec.ofNat 64 (x.retired.getD 31)
  else 0

/-- A port's 8-byte read of a die's privileged view: one of a semaphore claims it (R378). -/
def State.privRead (s : State) (port : Port) (d off : Nat) : State × W64 :=
  if off < 0x200 ∧ off % 8 = 0 then s.semRead (.port port) (off / 8) else (s, s.privView d off)

/-- A port's 8-byte write to a die's privileged view: a semaphore, a mailbox's command or arguments, or a log entry;
every other offset ignores it, a mailbox's status MB1 too, which holds nothing but what a command leaves (R382). -/
def State.privWrite (s : State) (port : Port) (d off : Nat) (w : W64) : State :=
  if off % 8 ≠ 0 then s
  else if off < 0x200 then s.semWrite (.port port) (off / 8) w
  else if 0x1000 ≤ off ∧ off < 0x3000 then
    let m := off / 0x1000
    let i := off % 0x1000 / 8
    if i = 0 then s.mailAsk d m w
    else if i = 1 then s
    else s.modDie d fun x => { x with mailArgs := tput 0 x.mailArgs (m * 512 + i) w }
  else if 0x10000 ≤ off ∧ off < 0x18000 then
    s.modDie d fun x => x.setLogWord ((off - 0x10000) / 32) (off / 8 % 4) w
  else s

/-- Bytes of a view. -/
def viewBytes : Nat := 0x400000

/-- The physical address that a port's address names: BAR0 and BAR2 of the PCIe port hold the dies' views at 4 MiB
each, and name nothing for the other port or past the last die (R380). -/
def HostAddr.physical (a : HostAddr) (port : Port) : Nat :=
  let view (off extra : Nat) : Nat :=
    if port = .pcie ∧ off < 8 * viewBytes then mmioBase + 0x800000 * (off / viewBytes) + extra + off % viewBytes
    else mmioBase + 0x4000000
  match a with
  | .phys pa => pa
  | .bar0 off => view off 0
  | .bar2 off => view off viewBytes

/-- REGISTER_WRITE: an 8-byte write at an MMIO address, in either view (R380). -/
def execRegisterWrite (port : Port) (addr : HostAddr) (w : W64) (s : State) : Out :=
  if !s.portUp port then .next s
  else match regionOf (Sys2Proof.Machine.HostAddr.physical addr port) with
  | .mmio d true off => .next (s.privWrite port d off w)
  | .mmio d false off => .next (if off % 8 = 0 then s.userWrite d off w else s)
  | _ => .next s

/-- HOST_WINDOW_WRITE: performed in the window, after every earlier write of its port (R218). -/
def execHostWindowWrite (port : Port) (addr : Nat) (bytes : List Byte) (s : State) : Out :=
  if !s.portUp port then .next s
  else match regionOf addr with
  | .window _ _ => .next (if regionSpan addr bytes.length then s.writePhysical (canonPa addr) bytes else s)
  | _ => .next s

/-- A host read's answer: the bytes, or an error response in their place (R372). -/
def State.hostAnswer (s : State) (port : Port) (p : Site → Bool) (bytes : List Byte) : State :=
  let (t, bad) := s.consume p 0x7FF 0
  if bad then { t with lastRead := tput .none t.lastRead (Port.owner port) .error }
  else t.answerRead (.port port) (BitVec.ofNat 64 (leNat bytes))

/-- HOST_ALIAS_READ: the window's own word, with an acquire at SYSTEM scope that pulls a closed generation (R218,
R221). -/
def execHostAliasRead (port : Port) (addr n : Nat) (s : State) : Out :=
  if !s.portUp port then .next s
  else match regionOf addr with
  | .window _ true =>
    let a := canonPa addr
    let s := s.pull a n
    .next (s.hostAnswer port (touchesSite a n) (Memory.readBytes s.mem a n))
  | _ => .next s

/-- HOST_WRITE: performed at its home slice like a device store; addresses outside the map ignore it (R219, R381). -/
def execHostWrite (port : Port) (addr : Nat) (bytes : List Byte) (s : State) : Out :=
  if !s.portUp port then .next s
  else match regionOf addr with
  | .hbm => .next (if regionSpan addr bytes.length then s.writePhysical addr bytes else s)
  | _ => .next s

/-- HOST_READ: outside the window HBM serves it, and L2 is not consulted; the window and the registers answer for
themselves, and every other address reads 0 (R219, R380, R381). -/
def execHostRead (port : Port) (addr : HostAddr) (n : Nat) (s : State) : Out :=
  let addr := Sys2Proof.Machine.HostAddr.physical addr port
  if !s.portUp port then .next s
  else match regionOf addr with
  | .hbm => .next (s.hostAnswer port (hbmSite addr n) (Memory.readBytes s.hbm addr n))
  | .window _ _ => .next (s.hostAnswer port (touchesSite (canonPa addr) n) (Memory.readBytes s.mem (canonPa addr) n))
  | .mmio d false off => if n = 8 then
      let (t, w) := s.userView d off
      .next (t.answerRead (.port port) w)
    else .next (s.answerRead (.port port) 0)
  | .mmio d true off => if n = 8 then
      let (t, w) := s.privRead port d off
      .next (t.answerRead (.port port) w)
    else .next (s.answerRead (.port port) 0)
  | .absent => .next (s.answerRead (.port port) 0)

end Sys2Proof.Machine
end

