-- ==== Sys2Proof/Machine/System.lean ====
section
/-! DEFINITION. RTT and TLBINV (spec/24 R363, R368). -/

namespace Sys2Proof.Machine

/-- NSLOT of the clause at an address, as a lane's core fetches its header; where it cannot be fetched, the most a
header can say, and the fetch itself finds the fault when the lane runs. -/
def State.nslotAt (s : State) (l : Nat) (pc : Addr48) : Nat :=
  match s.loadVa (coreOf l) (s.capxOf (coreOf l)) .fetch (pc.setWidth 64) 8 with
  | .inl h => nslot (BitVec.ofNat 64 h)
  | .inr _ => 15

/-- A lane returns from its handler to the slot its fault record names. -/
def State.returnLane (s : State) (l : Nat) : State :=
  let h : Addr48 := (s.lane l).f0.setWidth 48
  let n := match (s.lane l).faultedAt h with
    | some c => nslot c.header
    | none => s.nslotAt l h
  (s.leaveGroup l).modLane l fun x => { x.returnFrom n with status := .idle, readyAt := s.cycles }

/-- PRIV for RTT: lanes in user mode that are in no user handler (spec/04 R85). -/
def State.denyRtt (s : State) : State :=
  s.trapAll (s.group.lanes.filter fun l => !(s.lane l).privileged && (s.lane l).hmode != .user)
    { code := Code.priv, info := 0xE0 }

/-- RTT (R363): PLACEMENT before the clause's last slot, and in an executing lane that is in no handler. -/
def execRtt (g : Guard) (s : State) : Out :=
  let s := s.denyRtt
  if !s.atEnd then .next s.misplaced
  else
    let ls := s.exec g
    let out := ls.filter fun l => (s.lane l).hmode == .normal
    let back := ls.filter fun l => (s.lane l).hmode != .normal
    .next (((back.foldl State.returnLane s).trapAll out { code := Code.placement }).meet ls)

/-- Log2 of the page that a form of TLBINV.PAGE drops. -/
def pageLog : TlbWhat → Nat
  | .page64k => 16
  | .page2m => 21
  | .page1g => 30
  | .ctx => 0
  | .all => 0

/-- Does one lane's TLBINV drop a cached translation (R368)? -/
def State.tlbDrops (s : State) (l : Nat) (o : Ops) (what : TlbWhat) (e : TlbEntry) : Bool :=
  let mine := e.capx == s.capxOf (coreOf l)
  match what with
  | .all => true
  | .ctx => mine
  | _ =>
    let va := s.src64 l o.a
    mine && canonical va && e.sizeLog == pageLog what && e.page == field va 0 57 / 2 ^ pageLog what

/-- TLBINV (R368). -/
def execTlbinv (g : Guard) (o : Ops) (what : TlbWhat) (s : State) : Out :=
  let s := s.denyUser
  .next ((s.exec g).foldl (fun t l => { t with tlb := t.tlb.filter fun e => !s.tlbDrops l o what e }) s)

end Sys2Proof.Machine
end

