-- ==== Sys2Proof/Machine/Dispatch.lean ====
section
/-! DEFINITION. One arm per constructor of the opcode table: a direct call of the instruction's meaning. -/

namespace Sys2Proof.Machine

/-- What an instruction, or a step of another agent, does (spec/95). -/
def exec (i : Instr) (s : State) : Host.Outcome State Fault Refusal :=
  match i with
  | .nop g => Sys2Proof.Machine.execNop g s
  | .mov g o => Sys2Proof.Machine.execMov g o s
  | .iadd g o => Sys2Proof.Machine.execIadd g o s
  | .isub g o => Sys2Proof.Machine.execIsub g o s
  | .imul g o => Sys2Proof.Machine.execImul g o s
  | .imulh g o u => Sys2Proof.Machine.execImulh g o u s
  | .imad g o => Sys2Proof.Machine.execImad g o s
  | .imadw g o u => Sys2Proof.Machine.execImadw g o u s
  | .iadd64 g o => Sys2Proof.Machine.execIadd64 g o s
  | .lea g o => Sys2Proof.Machine.execLea g o s
  | .ineg g o => Sys2Proof.Machine.execIneg g o s
  | .iabs g o => Sys2Proof.Machine.execIabs g o s
  | .imin g o u => Sys2Proof.Machine.execImin g o u s
  | .imax g o u => Sys2Proof.Machine.execImax g o u s
  | .idiv g o u => Sys2Proof.Machine.execIdiv g o u s
  | .irem g o u => Sys2Proof.Machine.execIrem g o u s
  | .shl g o => Sys2Proof.Machine.execShl g o s
  | .shr g o u => Sys2Proof.Machine.execShr g o u s
  | .rot g o r => Sys2Proof.Machine.execRot g o r s
  | .and g o => Sys2Proof.Machine.execAnd g o s
  | .or g o => Sys2Proof.Machine.execOr g o s
  | .xor g o => Sys2Proof.Machine.execXor g o s
  | .andn g o => Sys2Proof.Machine.execAndn g o s
  | .bfe g o u => Sys2Proof.Machine.execBfe g o u s
  | .bfi g o => Sys2Proof.Machine.execBfi g o s
  | .popc g o => Sys2Proof.Machine.execPopc g o s
  | .clz g o => Sys2Proof.Machine.execClz g o s
  | .brev g o => Sys2Proof.Machine.execBrev g o s
  | .bswz g o => Sys2Proof.Machine.execBswz g o s
  | .itest g o u cmp => Sys2Proof.Machine.execItest g o u cmp s
  | .mux g o => Sys2Proof.Machine.execMux g o s
  | .plut g o lut => Sys2Proof.Machine.execPlut g o lut s
  | .fadd g o rm => Sys2Proof.Machine.execFadd g o rm s
  | .fsub g o rm => Sys2Proof.Machine.execFsub g o rm s
  | .fmul g o rm => Sys2Proof.Machine.execFmul g o rm s
  | .ffma g o rm => Sys2Proof.Machine.execFfma g o rm s
  | .fmin g o nan => Sys2Proof.Machine.execFmin g o nan s
  | .fmax g o nan => Sys2Proof.Machine.execFmax g o nan s
  | .ftest g o cmp => Sys2Proof.Machine.execFtest g o cmp s
  | .fclass g o mask => Sys2Proof.Machine.execFclass g o mask s
  | .frcp g o rm => Sys2Proof.Machine.execFrcp g o rm s
  | .frsq g o rm => Sys2Proof.Machine.execFrsq g o rm s
  | .fsqrt g o rm => Sys2Proof.Machine.execFsqrt g o rm s
  | .fexp2 g o rm => Sys2Proof.Machine.execFexp2 g o rm s
  | .flog2 g o rm => Sys2Proof.Machine.execFlog2 g o rm s
  | .fsinpi g o rm => Sys2Proof.Machine.execFsinpi g o rm s
  | .fcospi g o rm => Sys2Proof.Machine.execFcospi g o rm s
  | .fdiv g o rm => Sys2Proof.Machine.execFdiv g o rm s
  | .frnd g o rm => Sys2Proof.Machine.execFrnd g o rm s
  | .fscale g o rm => Sys2Proof.Machine.execFscale g o rm s
  | .hadd2 g o bf rm => Sys2Proof.Machine.execHadd2 g o bf rm s
  | .hmul2 g o bf rm => Sys2Proof.Machine.execHmul2 g o bf rm s
  | .hfma2 g o bf rm => Sys2Proof.Machine.execHfma2 g o bf rm s
  | .hdot2 g o bf rm => Sys2Proof.Machine.execHdot2 g o bf rm s
  | .cvt g o dst src rm => Sys2Proof.Machine.execCvt g o dst src rm s
  | .f2i g o dst src rm => Sys2Proof.Machine.execF2i g o dst src rm s
  | .i2f g o u rm => Sys2Proof.Machine.execI2f g o u rm s
  | .pack g o fmt rm => Sys2Proof.Machine.execPack g o fmt rm s
  | .unpack g o idx fmt => Sys2Proof.Machine.execUnpack g o idx fmt s
  | .qnt g o asym fmt rm => Sys2Proof.Machine.execQnt g o asym fmt rm s
  | .dqnt g o asym fmt rm => Sys2Proof.Machine.execDqnt g o asym fmt rm s
  | .fabsmax g o => Sys2Proof.Machine.execFabsmax g o s
  | .movsrRead g o sr => Sys2Proof.Machine.execMovsrRead g o sr s
  | .movsrWrite g o sr => Sys2Proof.Machine.execMovsrWrite g o sr s
  | .movpRead g o => Sys2Proof.Machine.execMovpRead g o s
  | .movpWrite g o => Sys2Proof.Machine.execMovpWrite g o s
  | .qswap g o xm => Sys2Proof.Machine.execQswap g o xm s
  | .qbcast g o src => Sys2Proof.Machine.execQbcast g o src s
  | .wshfl g o mode => Sys2Proof.Machine.execWshfl g o mode s
  | .vote g o mode => Sys2Proof.Machine.execVote g o mode s
  | .wred g o op => Sys2Proof.Machine.execWred g o op s
  | .wscan g o excl op => Sys2Proof.Machine.execWscan g o excl op s
  | .wmatch g o => Sys2Proof.Machine.execWmatch g o s
  | .elect g o => Sys2Proof.Machine.execElect g o s
  | .v2s g o => Sys2Proof.Machine.execV2s g o s
  | .gld g o disp f64 => Sys2Proof.Machine.execGld g o disp f64 s
  | .gmov g o => Sys2Proof.Machine.execGmov g o s
  | .gadd g o => Sys2Proof.Machine.execGadd g o s
  | .gsub g o => Sys2Proof.Machine.execGsub g o s
  | .gmul g o => Sys2Proof.Machine.execGmul g o s
  | .gneg g o => Sys2Proof.Machine.execGneg g o s
  | .gsqr g o => Sys2Proof.Machine.execGsqr g o s
  | .gsgn g o => Sys2Proof.Machine.execGsgn g o s
  | .gcmp g o => Sys2Proof.Machine.execGcmp g o s
  | .gmid g o rm => Sys2Proof.Machine.execGmid g o rm s
  | .gbnd g o => Sys2Proof.Machine.execGbnd g o s
  | .gsever g o => Sys2Proof.Machine.execGsever g o s
  | .gdrop g o => Sys2Proof.Machine.execGdrop g o s
  | .gstat g o clr => Sys2Proof.Machine.execGstat g o clr s
  | .ld g o disp acq size => Sys2Proof.Machine.execLd g o disp acq size s
  | .st g o disp rel size => Sys2Proof.Machine.execSt g o disp rel size s
  | .ldt g o size => Sys2Proof.Machine.execLdt g o size s
  | .stt g o size => Sys2Proof.Machine.execStt g o size s
  | .atom g o scope ord w64 op => Sys2Proof.Machine.execAtom g o scope ord w64 op s
  | .atomcas g o scope ord w64 => Sys2Proof.Machine.execAtomcas g o scope ord w64 s
  | .red g o scope rel w64 op => Sys2Proof.Machine.execRed g o scope rel w64 op s
  | .fence g o scope => Sys2Proof.Machine.execFence g o scope s
  | .waitw g o scope w64 cmp => Sys2Proof.Machine.execWaitw g o scope w64 cmp s
  | .copy g o scope w64 eng store => Sys2Proof.Machine.execCopy g o scope w64 eng store s
  | .gather g o scope w64 => Sys2Proof.Machine.execGather g o scope w64 s
  | .scatter g o scope w64 => Sys2Proof.Machine.execScatter g o scope w64 s
  | .feed g o tr fifo => Sys2Proof.Machine.execFeed g o tr fifo s
  | .pref g o disp l2 => Sys2Proof.Machine.execPref g o disp l2 s
  | .talloc g o fmt lvl => Sys2Proof.Machine.execTalloc g o fmt lvl s
  | .tfree g o => Sys2Proof.Machine.execTfree g o s
  | .tinfo g o => Sys2Proof.Machine.execTinfo g o s
  | .ttag g o => Sys2Proof.Machine.execTtag g o s
  | .ttagW g o => Sys2Proof.Machine.execTtagW g o s
  | .flush g o => Sys2Proof.Machine.execFlush g o s
  | .mxwin g o => Sys2Proof.Machine.execMxwin g o s
  | .mxzero g o => Sys2Proof.Machine.execMxzero g o s
  | .mma g o fa fb => Sys2Proof.Machine.execMma g o fa fb s
  | .mmaq g o grp fa fb => Sys2Proof.Machine.execMmaq g o grp fa fb s
  | .mxld g o => Sys2Proof.Machine.execMxld g o s
  | .mxst g o => Sys2Proof.Machine.execMxst g o s
  | .mxdrain g o amax add haar fmt rm => Sys2Proof.Machine.execMxdrain g o amax add haar fmt rm s
  | .tadd g o rm => Sys2Proof.Machine.execTadd g o rm s
  | .tscale g o rm => Sys2Proof.Machine.execTscale g o rm s
  | .taxpy g o rm => Sys2Proof.Machine.execTaxpy g o rm s
  | .tact g o fn rm => Sys2Proof.Machine.execTact g o fn rm s
  | .tmul g o rm => Sys2Proof.Machine.execTmul g o rm s
  | .trowred g o max rm => Sys2Proof.Machine.execTrowred g o max rm s
  | .hfwd g o lev rm => Sys2Proof.Machine.execHfwd g o lev rm s
  | .hinv g o lev rm => Sys2Proof.Machine.execHinv g o lev rm s
  | .hthr g o th => Sys2Proof.Machine.execHthr g o th s
  | .tnorm g o rm => Sys2Proof.Machine.execTnorm g o rm s
  | .tcvt g o fmt rm => Sys2Proof.Machine.execTcvt g o fmt rm s
  | .bra g off y => Sys2Proof.Machine.execBra g off y s
  | .brx g o y => Sys2Proof.Machine.execBrx g o y s
  | .call g off => Sys2Proof.Machine.execCall g off s
  | .callx g o => Sys2Proof.Machine.execCallx g o s
  | .ret g => Sys2Proof.Machine.execRet g s
  | .exit g => Sys2Proof.Machine.execExit g s
  | .meet g off => Sys2Proof.Machine.execMeet g off s
  | .bar g idx level => Sys2Proof.Machine.execBar g idx level s
  | .spawn g off d narg t => Sys2Proof.Machine.execSpawn g off d narg t s
  | .park g o scope w64 cmp t => Sys2Proof.Machine.execPark g o scope w64 cmp t s
  | .fetcht g o => Sys2Proof.Machine.execFetcht g o s
  | .trap g code => Sys2Proof.Machine.execTrap g code s
  | .bkpt g code => Sys2Proof.Machine.execBkpt g code s
  | .rtt g => Sys2Proof.Machine.execRtt g s
  | .srwr g o sr => Sys2Proof.Machine.execSrwr g o sr s
  | .tlbinv g o what => Sys2Proof.Machine.execTlbinv g o what s
  | .pcfg g o cap q => Sys2Proof.Machine.execPcfg g o cap q s
  | .issueGroupForm core part => Sys2Proof.Machine.execIssueGroupForm core part s
  | .progressForcedLead core part => Sys2Proof.Machine.execProgressForcedLead core part s
  | .runFaultDelivery lane => Sys2Proof.Machine.execRunFaultDelivery lane s
  | .translationResolved lane resolved entryAddr entry => Sys2Proof.Machine.execTranslationResolved lane resolved entryAddr entry s
  | .tableWalk core va => Sys2Proof.Machine.execTableWalk core va s
  | .loadResponse id => Sys2Proof.Machine.execLoadResponse id s
  | .writeCompletionResponse id => Sys2Proof.Machine.execWriteCompletionResponse id s
  | .writePerformed id => Sys2Proof.Machine.execWritePerformed id s
  | .atomicPerformed id => Sys2Proof.Machine.execAtomicPerformed id s
  | .combineBufferSend id => Sys2Proof.Machine.execCombineBufferSend id s
  | .leaseEnd cache line => Sys2Proof.Machine.execLeaseEnd cache line s
  | .eviction cache line => Sys2Proof.Machine.execEviction cache line s
  | .wakeNotice lane => Sys2Proof.Machine.execWakeNotice lane s
  | .unwatchedReread lane => Sys2Proof.Machine.execUnwatchedReread lane s
  | .releaseStallEnd core part path => Sys2Proof.Machine.execReleaseStallEnd core part path s
  | .slotWaitEnd core part path => Sys2Proof.Machine.execSlotWaitEnd core part path s
  | .tileClearEnd core handle => Sys2Proof.Machine.execTileClearEnd core handle s
  | .copyEngineRun core eng n => Sys2Proof.Machine.execCopyEngineRun core eng n s
  | .completionWrite core eng => Sys2Proof.Machine.execCompletionWrite core eng s
  | .fifoAppend id => Sys2Proof.Machine.execFifoAppend id s
  | .mmaStart pair => Sys2Proof.Machine.execMmaStart pair s
  | .mmaRetire pair => Sys2Proof.Machine.execMmaRetire pair s
  | .drainRun pair n => Sys2Proof.Machine.execDrainRun pair n s
  | .amaxUpdate pair => Sys2Proof.Machine.execAmaxUpdate pair s
  | .tileOpStart core => Sys2Proof.Machine.execTileOpStart core s
  | .tileOpComplete core => Sys2Proof.Machine.execTileOpComplete core s
  | .geckoStart core => Sys2Proof.Machine.execGeckoStart core s
  | .geckoReturn core => Sys2Proof.Machine.execGeckoReturn core s
  | .reclaim core => Sys2Proof.Machine.execReclaim core s
  | .pondBinTimer core bin => Sys2Proof.Machine.execPondBinTimer core bin s
  | .binToWarp core => Sys2Proof.Machine.execBinToWarp core s
  | .resumeRecordTake core => Sys2Proof.Machine.execResumeRecordTake core s
  | .eftRoundStart launch => Sys2Proof.Machine.execEftRoundStart launch s
  | .eftTokenArrive launch => Sys2Proof.Machine.execEftTokenArrive launch s
  | .eftForward launch => Sys2Proof.Machine.execEftForward launch s
  | .eftDecide launch => Sys2Proof.Machine.execEftDecide launch s
  | .launchComplete launch => Sys2Proof.Machine.execLaunchComplete launch s
  | .qnotify die q w => Sys2Proof.Machine.execQnotify die q w s
  | .cpPoll die q => Sys2Proof.Machine.execCpPoll die q s
  | .packetDispatch die q => Sys2Proof.Machine.execPacketDispatch die q s
  | .launchPacket die q => Sys2Proof.Machine.execLaunchPacket die q s
  | .coreGrant core => Sys2Proof.Machine.execCoreGrant core s
  | .launchPlace die q => Sys2Proof.Machine.execLaunchPlace die q s
  | .copyPacket die q idx => Sys2Proof.Machine.execCopyPacket die q idx s
  | .dependPacket die q idx => Sys2Proof.Machine.execDependPacket die q idx s
  | .sealPacket die q idx => Sys2Proof.Machine.execSealPacket die q idx s
  | .flushPacket die q idx => Sys2Proof.Machine.execFlushPacket die q idx s
  | .signalPacket die q idx => Sys2Proof.Machine.execSignalPacket die q idx s
  | .netwritePacket die q idx => Sys2Proof.Machine.execNetwritePacket die q idx s
  | .netwriteReceive capx va payload signal release => Sys2Proof.Machine.execNetwriteReceive capx va payload signal release s
  | .netwriteAck die q idx => Sys2Proof.Machine.execNetwriteAck die q idx s
  | .flushWritebackDone id => Sys2Proof.Machine.execFlushWritebackDone id s
  | .preemptRequest launch => Sys2Proof.Machine.execPreemptRequest launch s
  | .contextHalted launch core => Sys2Proof.Machine.execContextHalted launch core s
  | .flitReplay hop die replays => Sys2Proof.Machine.execFlitReplay hop die replays s
  | .linkRetrain hop die port ok users => Sys2Proof.Machine.execLinkRetrain hop die port ok users s
  | .scrub site => Sys2Proof.Machine.execScrub site s
  | .createq port die q => Sys2Proof.Machine.execCreateq port die q s
  | .resetq port die => Sys2Proof.Machine.execResetq port die s
  | .preempt port die => Sys2Proof.Machine.execPreempt port die s
  | .loadimg port die => Sys2Proof.Machine.execLoadimg port die s
  | .kill port die => Sys2Proof.Machine.execKill port die s
  | .attest port die => Sys2Proof.Machine.execAttest port die s
  | .fwupdate port die => Sys2Proof.Machine.execFwupdate port die s
  | .devreset port die => Sys2Proof.Machine.execDevreset port die s
  | .semClaimRead agent sem => Sys2Proof.Machine.execSemClaimRead agent sem s
  | .semReleaseWrite agent sem w => Sys2Proof.Machine.execSemReleaseWrite agent sem w s
  | .portLinkDown port => Sys2Proof.Machine.execPortLinkDown port s
  | .registerWrite port addr w => Sys2Proof.Machine.execRegisterWrite port addr w s
  | .hostWindowWrite port addr bytes => Sys2Proof.Machine.execHostWindowWrite port addr bytes s
  | .hostAliasRead port addr n => Sys2Proof.Machine.execHostAliasRead port addr n s
  | .hostWrite port addr bytes => Sys2Proof.Machine.execHostWrite port addr bytes s
  | .hostRead port addr n => Sys2Proof.Machine.execHostRead port addr n s
  | .temperatureLimitReached => Sys2Proof.Machine.execTemperatureLimitReached s
  | .temperatureLimitCleared => Sys2Proof.Machine.execTemperatureLimitCleared s
  | .moduleReset => Sys2Proof.Machine.execModuleReset s
  | .boot retired => Sys2Proof.Machine.execBoot retired s
  | .fenlinkLinkChange port up entries => Sys2Proof.Machine.execFenlinkLinkChange port up entries s

end Sys2Proof.Machine
end

