-- ==== Sys2Proof/Machine/Step.lean ====
section
/-! DEFINITION. One step of the machine: the turn at hand, then the next one. -/

namespace Sys2Proof.Machine

/-- One step (log entry 8). -/
def step (s : State) : Host.Outcome State Fault Refusal :=
  match runTurn exec s with
  | .next t => .next t.nextTurn
  | .fault f => .fault f
  | .refused r => .refused r

/-- The state whose next step runs the instruction of bits `w`, numbered as the opcode table numbers them: its word in
bits 63 to 0, its literal slot in bits 127 to 64. It stands for the placing of a program by a launch (log entry 12). -/
def State.withFetchWord (s : State) (_nbits w : Nat) : State :=
  s.probe (BitVec.ofNat 64 w) (BitVec.ofNat 64 (w >>> 64))

end Sys2Proof.Machine
end

