-- ==== Sys2Proof/Safety.lean ====
section
/-! DEFINITION. Safe runs: the form that every picture of memory keeps, the states a run reaches, and what it means for a
run to be safe. -/

namespace Sys2Proof.Machine

/-- Is every picture of memory in canonical form: the home slices', HBM's, and each line's that a cache holds under a
lease (log entry 4)? -/
def State.canonical (s : State) : Bool :=
  Memory.wf s.mem && Memory.wf s.hbm && s.copies.all fun x => Memory.wf x.cells

/-- The states that some steps lead to. -/
inductive Reaches : State → State → Prop
  | here (s : State) : Reaches s s
  | step {s t u : State} (run : Reaches s t) (next : step t = .next u) : Reaches s u

/-- Does the next step go on? -/
def State.goesOn (s : State) : Bool :=
  match step s with
  | .next _ => true
  | .fault _ => false
  | .refused _ => false

/-- A state is safe when every run from it goes on for ever and finds memory canonical. -/
def State.Safe (s : State) : Prop := ∀ t, Reaches s t → t.goesOn = true ∧ t.canonical = true

/-! ## What an instruction leaves -/

/-- Nothing but lanes differs. -/
def onlyLanes (s t : State) : Prop := t = { s with lanes := t.lanes }

/-- Nothing but lanes and warps differs. -/
def onlyRegs (s t : State) : Prop := t = { s with lanes := t.lanes, warps := t.warps }

/-- Of some lanes, the one from which an S register of a warp takes its value: the first that is no helper. -/
def State.sourceOf (s : State) (ls : List Nat) (w : Nat) : Option Nat :=
  (ls.filter fun l => !(s.lane l).helper).find? fun l => warpOf l == w

/-- Everything that results `r` for the lanes `ls` leave: each of these lanes is changed by `f`; each warp has in a
destination S the result of its source lane; every other lane, warp and field is as it was. -/
structure Changed (s t : State) (ls : List Nat) (f : Nat → Lane → Lane) (d : Operand) (r : Nat → List W32) : Prop where
  rest : onlyRegs s t
  lane : ∀ l, t.lane l = if l ∈ ls then f l (s.lane l) else s.lane l
  warp : ∀ w, t.warp w = match s.sourceOf ls w with
    | some l => (s.warp w).put d (r l)
    | none => s.warp w

/-- Everything an instruction with results `r`, flags `fl` and RS roundings `rs` leaves: each executing lane has its
result (unless the destination is an S register), its flags and its RS counter, and nothing else changes. -/
def Result (s t : State) (g : Guard) (d : Operand) (r : Nat → List W32) (fl : Nat → Flags) (rs : Nat → Bool) : Prop :=
  Changed s t (s.exec g) (fun l x => (x.put d (r l)).after (fl l) (rs l) x.rsctr) d r

end Sys2Proof.Machine
end

