-- ==== Sys2Proof/WellFormed.lean ====
section
/-! DEFINITION. Well-formed instructions: those some word encodes. Operands are of the kinds their fields accept, at
most two are literals, and the modifiers are none that R98 reserves. -/

namespace Sys2Proof

/-- Is the modifier combination one that R98 allows? -/
def Instr.modsOk : Instr → Bool
  | .cvt _ _ dst src _ => cvtAllowed dst src
  | .f2i _ _ dst src _ => 7 ≤ dst.code && dst.code ≤ 11 && (src.isFloat || src == .fp64)
  | .pack _ _ f _ => f.isMatrix
  | .unpack _ _ idx f => f.isMatrix && decodeFloat.unpackIdxOk f idx.val
  | .qnt _ _ asym f _ | .dqnt _ _ asym f _ => 3 ≤ f.code && f.code ≤ 9 && (!asym || 8 ≤ f.code)
  | .movsrWrite _ _ sr => !sr.readOnly
  | .st _ _ _ _ size | .stt _ _ size => size.storable
  | .atom _ _ _ _ _ op => op != .aq64
  | .red _ _ _ _ w64 op => op != .exch && !(op == .aq64 && w64)
  | .feed _ _ tr fifo => !(fifo == .m && tr)
  | .mma _ _ fa fb => fa.isMatrix && fb.isMatrix && fa.kClass == fb.kClass
  | .mmaq _ _ _ fa fb => (fa == .uint8 || fa == .int4) && 3 ≤ fb.code && fb.code ≤ 9 && fa.kClass == fb.kClass
  | .tcvt _ _ f _ => f.code ≤ 9
  | .bar _ idx lvl => !(lvl == .grid && 8 ≤ idx.val)
  | .srwr _ _ sr => !(sr == .gt || sr == .launch)
  | _ => true

/-- Does the field hold nothing where it is no operand? -/
def FieldKind.bare (k : FieldKind) (o : Operand) : Bool :=
  match k with
  | .raw => o == .none
  | .unused => o == .none
  | _ => true

/-- Is every operand one its field accepts, with nothing where the word has no operand? -/
def Shape.accepts (sh : Shape) (al : Alloc) (o : Ops) : Bool :=
  sh.d.accepts al o.d && sh.a.accepts al o.a && sh.b.accepts al o.b && sh.c.accepts al o.c
    && sh.d.bare o.d && sh.a.bare o.a && sh.b.bare o.b && sh.c.bare o.c

/-- Is the instruction well formed under an allocation? An event is: it has no word. -/
def Instr.wfIn (al : Alloc) (i : Instr) : Bool :=
  match i.fields with
  | none => true
  | some (_, o) => i.modsOk && i.shape.accepts al o && !o.d.isLit && litCount o ≤ 2

/-- Is the instruction well formed? -/
def Instr.wf (i : Instr) : Bool := i.wfIn Alloc.full

end Sys2Proof
end

