-- ==== Sys2Proof/Certificates/Slice0/Obligations.lean ====
section
/-! DEFINITION. The statements for the provers, and the vocabulary they are written in. -/

section Statements

open Sys2Proof Sys2Proof.Machine
/-! ## Integer, bit and predicate instructions (spec/07) -/

namespace Sys2Proof.Claims

/-- A word read signed, or unsigned with U (spec/07 R104). -/
def rd (u : Bool) (x : W32) : Int := if u then (x.toNat : Int) else x.toInt

/-- What an instruction of one result word from 32-bit sources owes: its guard, its operands, and how its result must
stand to A, B and C. -/
abbrev WordRule := Guard × Ops × (W32 → W32 → W32 → W32 → Prop)

/-- Arithmetic on 32 bits and division (spec/07 R109 to R112). -/
def arithRule (i : Instr) : Option WordRule :=
  match i with
  | .mov g o => some (g, o, fun a _ _ r => r = a)
  | .iadd g o => some (g, o, fun a b _ r => r.toNat = (a.toNat + b.toNat) % 2 ^ 32)
  | .isub g o => some (g, o, fun a b _ r => (r.toNat : Int) = ((a.toNat : Int) - b.toNat) % 2 ^ 32)
  | .imul g o => some (g, o, fun a b _ r => r.toNat = a.toNat * b.toNat % 2 ^ 32)
  | .imulh g o u => some (g, o, fun a b _ r => (r.toNat : Int) = rd u a * rd u b / 2 ^ 32 % 2 ^ 32)
  | .imad g o => some (g, o, fun a b c r => r.toNat = (a.toNat * b.toNat + c.toNat) % 2 ^ 32)
  | .ineg g o => some (g, o, fun a _ _ r => (r.toNat : Int) = -a.toInt % 2 ^ 32)
  | .iabs g o => some (g, o, fun a _ _ r => r.toNat = a.toInt.natAbs)
  | .imin g o u => some (g, o, fun a b _ r => (r = a ∨ r = b) ∧ rd u r = min (rd u a) (rd u b))
  | .imax g o u => some (g, o, fun a b _ r => (r = a ∨ r = b) ∧ rd u r = max (rd u a) (rd u b))
  | .idiv g o u => some (g, o, fun a b _ r =>
      if b = 0 then r = 0xFFFFFFFF else (r.toNat : Int) = (rd u a).tdiv (rd u b) % 2 ^ 32)
  | .irem g o u => some (g, o, fun a b _ r =>
      if b = 0 then r = a else (r.toNat : Int) = (rd u a - (rd u a).tdiv (rd u b) * rd u b) % 2 ^ 32)
  | _ => none

/-- Shifts, logic, bit fields and byte permutation (spec/07 R113 to R117), bit by bit where the rule is. -/
def bitRule (i : Instr) : Option WordRule :=
  match i with
  | .shl g o => some (g, o, fun a b _ r => r.toNat = if b.toNat < 32 then a.toNat * 2 ^ b.toNat % 2 ^ 32 else 0)
  | .shr g o true => some (g, o, fun a b _ r => r.toNat = if b.toNat < 32 then a.toNat / 2 ^ b.toNat else 0)
  | .shr g o false => some (g, o, fun a b _ r =>
      if b.toNat < 32 then (r.toNat : Int) = a.toInt / 2 ^ b.toNat % 2 ^ 32
      else r = if a.getLsbD 31 then 0xFFFFFFFF else 0)
  | .rot g o right => some (g, o, fun a b _ r => ∀ j < 32, r.getLsbD j =
      a.getLsbD ((if right then j + b.toNat % 32 else j + (32 - b.toNat % 32)) % 32))
  | .and g o => some (g, o, fun a b _ r => ∀ j < 32, r.getLsbD j = (a.getLsbD j && b.getLsbD j))
  | .or g o => some (g, o, fun a b _ r => ∀ j < 32, r.getLsbD j = (a.getLsbD j || b.getLsbD j))
  | .xor g o => some (g, o, fun a b _ r => ∀ j < 32, r.getLsbD j = (a.getLsbD j != b.getLsbD j))
  | .andn g o => some (g, o, fun a b _ r => ∀ j < 32, r.getLsbD j = (a.getLsbD j && !b.getLsbD j))
  | .popc g o => some (g, o, fun a _ _ r => r.toNat = ((List.range 32).filter fun j => a.getLsbD j).length)
  | .clz g o => some (g, o, fun a _ _ r => r.toNat ≤ 32 ∧ (∀ j < 32, 32 - r.toNat ≤ j → a.getLsbD j = false) ∧
      (r.toNat < 32 → a.getLsbD (31 - r.toNat) = true))
  | .brev g o => some (g, o, fun a _ _ r => ∀ j < 32, r.getLsbD j = a.getLsbD (31 - j))
  | .bfe g o u => some (g, o, fun a b c r =>
      let pos := b.toNat % 256
      let len := min (c.toNat % 256) 32
      let f (j : Nat) : Bool := if pos + j ≤ 31 then a.getLsbD (pos + j) else !u && a.getLsbD 31
      ∀ j < 32, r.getLsbD j = if j < len then f j else !u && len != 0 && f (len - 1))
  | .bfi g o => some (g, o, fun a b c r =>
      let pos := c.toNat % 256
      let len := min (c.toNat / 256 % 256) 32
      ∀ j < 32, r.getLsbD j = if pos ≤ j ∧ j < pos + len then a.getLsbD (j - pos) else b.getLsbD j)
  | .bswz g o => some (g, o, fun a b c r => ∀ k < 4,
      let x := (a.toNat + 2 ^ 32 * b.toNat) / 2 ^ (8 * (c.toNat / 2 ^ (3 * k) % 8)) % 256
      let m := c.toNat / 2 ^ (12 + 2 * k) % 4
      r.toNat / 2 ^ (8 * k) % 256 =
        if m = 0 then x else if m = 1 then 0 else if m = 2 then (if 128 ≤ x then 255 else 0) else 255)
  | _ => none

/-- Comparison and selection (spec/07 R118 to R120). -/
def selectRule (i : Instr) : Option WordRule :=
  match i with
  | .itest g o u cmp => some (g, o, fun a b _ r =>
      let x := rd u a
      let y := rd u b
      let holds : Prop := match cmp with
        | .eq => x = y | .ne => x ≠ y | .lt => x < y | .le => x ≤ y | .gt => x > y | .ge => x ≥ y
      (holds → r = 1) ∧ (¬ holds → r = 0))
  | .mux g o => some (g, o, fun a b c r => (c ≠ 0 → r = a) ∧ (c = 0 → r = b))
  | .plut g o lut => some (g, o, fun a b c r =>
      r = if lut.getLsbD ((if a = 0 then 0 else 1) + 2 * (if b = 0 then 0 else 1) + 4 * (if c = 0 then 0 else 1))
        then 1 else 0)
  | _ => none

/-- An instruction obeys a rule: it completes, and every executing lane's result word stands to its sources as the rule
says; no flag is set, no RS bits are used, and nothing else changes. -/
def obeys (rule : Instr → Option WordRule) : Prop :=
  ∀ (i : Instr) (s : State) (g : Guard) (o : Ops) (R : W32 → W32 → W32 → W32 → Prop), rule i = some (g, o, R) →
    ∃ (r : Nat → W32) (t : State),
      (∀ l, R (s.src l .int o.a) (s.src l .int o.b) (s.src l .int o.c) (r l)) ∧
      exec i s = .next t ∧ Result s t g o.d (fun l => [r l]) (fun _ => 0) (fun _ => false)

/-- Pair results (spec/07 R111): 64-bit sources U64 and the result modulo 2^64. -/
def pairRule (i : Instr) : Option (Guard × Ops × (State → Nat → W64 → Prop)) :=
  match i with
  | .imadw g o u => some (g, o, fun s l r => (r.toNat : Int) =
      (rd u (s.src l .int o.a) * rd u (s.src l .int o.b) + (s.src64 l o.c).toNat) % 2 ^ 64)
  | .iadd64 g o => some (g, o, fun s l r => r.toNat = ((s.src64 l o.a).toNat + (s.src64 l o.b).toNat) % 2 ^ 64)
  | .lea g o => some (g, o, fun s l r => (r.toNat : Int) =
      ((s.src64 l o.a).toNat + (s.src l .int o.b).toInt * 2 ^ ((s.src l .int o.c).toNat % 32)) % 2 ^ 64)
  | _ => none

end Sys2Proof.Claims

/-- spec/07 R109 to R112: MOV, the 32-bit arithmetic instructions and division complete for all operands with the result
that the rules give, set no flag, and change nothing but the destination. -/
def Sys2Proof.Claims.IntegerOperations : Prop := Sys2Proof.Claims.obeys Sys2Proof.Claims.arithRule

/-- spec/07 R113 to R117: shifts, rotation, logic, bit counting, bit fields and byte permutation complete for all
operands with the result that the rules give, set no flag, and change nothing but the destination. -/
def Sys2Proof.Claims.ShiftsLogicAndFields : Prop := Sys2Proof.Claims.obeys Sys2Proof.Claims.bitRule

/-- spec/07 R118 to R120: ITEST, MUX and PLUT complete for all operands with the result that the rules give, set no flag,
and change nothing but the destination. -/
def Sys2Proof.Claims.ComparisonAndSelection : Prop := Sys2Proof.Claims.obeys Sys2Proof.Claims.selectRule

/-- spec/07 R111: IMADW, IADD64 and LEA write their pair result, low word to the even register, and change nothing
else. -/
def Sys2Proof.Claims.PairArithmetic : Prop :=
  ∀ (i : Instr) (s : State) (g : Guard) (o : Ops) (R : State → Nat → W64 → Prop), Claims.pairRule i = some (g, o, R) →
    ∃ (r : Nat → W64) (t : State), (∀ l, R s l (r l)) ∧ exec i s = .next t ∧
      Result s t g o.d (fun l => [(r l).setWidth 32, (r l).extractLsb' 32 32]) (fun _ => 0) (fun _ => false)

/-- spec/07: the integer instructions of one 32-bit result. -/
def Obligations.IntegerArithmetic : Prop :=
  Claims.IntegerOperations ∧ Claims.ShiftsLogicAndFields

/-- spec/07: comparisons and selections, and the instructions that write a pair. -/
def Obligations.PairsAndSelection : Prop :=
  Claims.ComparisonAndSelection ∧ Claims.PairArithmetic

/-! ## Floating-point, conversion and quantisation instructions (spec/03, spec/08) -/

namespace Sys2Proof.Claims

/-- The number a finite value stands for. -/
def num (x : FVal) : ℚ :=
  match x with
  | .fin neg m e => (if neg then -(m : ℚ) else (m : ℚ)) * (2 : ℚ) ^ e
  | .nan _ _ => 0
  | .inf _ => 0

/-- What an instruction gives a lane: its result words, its flags, and whether it rounded under RS. -/
abbrev Given := List W32 × Flags × Bool

/-- Round(x, f, rm) as a lane's result (spec/03 R52, R58): `x` comes with the flags of the operation. -/
def round1 (s : State) (l : Nat) (f : Fmt) (rm : Rm) (x : FVal × Flags) : Given :=
  let c := ctlOf (s.warp (warpOf l)).mode f rm
  ([BitVec.ofNat 32 (x.1.round f c (s.rs l 0)).1], x.2 ||| (x.1.round f c (s.rs l 0)).2, c.rm == .rs)

/-- An FP32 source after FTZI (spec/03 R56). -/
def fp (s : State) (l : Nat) (o : Operand) : FVal :=
  let x := decodeFmt .fp32 (s.src l .fp32 o).toNat
  if modeField (s.warp (warpOf l)).mode .fp32 / 16 % 2 = 1 then x.flush .fp32 else x

/-- The rounding mode of an FP32 result (spec/03 R58). -/
def rm32 (s : State) (l : Nat) (rm : Rm) : Rm := (ctlOf (s.warp (warpOf l)).mode .fp32 rm).rm

/-- An exact result, with the canonical NaN for a NaN (spec/03 R45). -/
def exactly (x : FVal) : FVal × Flags :=
  match x with
  | .nan _ sig => (.nan false false, if sig then 1 else 0)
  | x => (x, 0)

/-- Instructions that round one exact FP32 result (spec/08 R128, R135, R139). -/
def fp32Rule (i : Instr) : Option (Guard × Ops × Rm × (State → Nat → FVal × Flags)) :=
  match i with
  | .fadd g o rm => some (g, o, rm, fun s l => exactSum (rm32 s l rm) [fp s l o.a, fp s l o.b])
  | .fsub g o rm => some (g, o, rm, fun s l => exactSum (rm32 s l rm) [fp s l o.a, (fp s l o.b).negate])
  | .fmul g o rm => some (g, o, rm, fun s l => exactMul (fp s l o.a) (fp s l o.b))
  | .ffma g o rm => some (g, o, rm, fun s l =>
      let p := exactMul (fp s l o.a) (fp s l o.b)
      let r := exactSum (rm32 s l rm) [p.1, fp s l o.c]
      (r.1, p.2 ||| r.2))
  | .fdiv g o rm => some (g, o, rm, fun s l => exactDiv (fp s l o.a) (fp s l o.b))
  | .hdot2 g o bf rm => some (g, o, rm, fun s l =>
      let h := halfFmt bf
      let p := exactMul (s.half l h o.a 0) (s.half l h o.b 0)
      let q := exactMul (s.half l h o.a 1) (s.half l h o.b 1)
      let r := exactSum (rm32 s l rm) [p.1, q.1, fp s l o.c]
      (r.1, p.2 ||| q.2 ||| r.2))
  | .i2f g o u rm => some (g, o, rm, fun s l =>
      let n : Int := if u then ((s.src l .int o.a).toNat : Int) else (s.src l .int o.a).toInt
      (.fin (n < 0) n.natAbs 0, 0))
  | _ => none

/-- The value of a class bit of FCLASS (spec/06 R98): −∞, negative normal, negative subnormal, −0, +0, positive
subnormal, positive normal, +∞, signalling NaN, quiet NaN. -/
def classOfBits (b : W32) : Nat :=
  let neg := 2 ^ 31 ≤ b.toNat
  let mag := b.toNat % 2 ^ 31
  if mag > 0x7F800000 then (if mag < 0x7FC00000 then 8 else 9)
  else if mag = 0x7F800000 then (if neg then 0 else 7)
  else if mag = 0 then (if neg then 3 else 4)
  else if mag < 0x800000 then (if neg then 2 else 5)
  else if neg then 1 else 6

/-- The relation of an FTEST comparison on an ordered pair, and on an unordered one (spec/08 R130). -/
def ftestHolds (cmp : FCmp) (order : Option Int) : Prop :=
  match order with
  | none => cmp ∈ [.nan, .equ, .neu, .ltu, .leu, .gtu, .geu]
  | some c => match cmp with
    | .eq | .equ => c = 0
    | .ne | .neu => c ≠ 0
    | .lt | .ltu => c < 0
    | .le | .leu => c ≤ 0
    | .gt | .gtu => c > 0
    | .ge | .geu => c ≥ 0
    | .num => True
    | .nan => False

/-- The functions of spec/08 R133 with their instructions. -/
def functionRule (i : Instr) : Option (Guard × Ops × Rm × RealFn) :=
  match i with
  | .frcp g o rm => some (g, o, rm, .rcp)
  | .frsq g o rm => some (g, o, rm, .rsq)
  | .fsqrt g o rm => some (g, o, rm, .sqrt)
  | .fexp2 g o rm => some (g, o, rm, .exp2)
  | .flog2 g o rm => some (g, o, rm, .log2)
  | .fsinpi g o rm => some (g, o, rm, .sinpi)
  | .fcospi g o rm => some (g, o, rm, .cospi)
  | _ => none

/-- The table of R133 for operands whose result is fixed: value and flags. -/
def functionSpecial (f : RealFn) (a : FVal) : Option (FVal × Flags) :=
  let nan : FVal := .nan false false
  match a, f with
  | .nan _ sig, _ => some (nan, if sig then 1 else 0)
  | .inf neg, .rcp => some (.fin neg 0 0, 0)
  | .inf false, .rsq => some (.fin false 0 0, 0)
  | .inf false, .sqrt => some (.inf false, 0)
  | .inf false, .exp2 => some (.inf false, 0)
  | .inf true, .exp2 => some (.fin false 0 0, 0)
  | .inf false, .log2 => some (.inf false, 0)
  | .inf _, _ => some (nan, 1)
  | .fin neg 0 _, .rcp => some (.inf neg, 2)
  | .fin neg 0 _, .rsq => some (.inf neg, 2)
  | .fin neg 0 _, .sqrt => some (.fin neg 0 0, 0)
  | .fin _ 0 _, .exp2 => some (.fin false 1 0, 0)
  | .fin _ 0 _, .log2 => some (.inf true, 2)
  | .fin neg 0 _, .sinpi => some (.fin neg 0 0, 0)
  | .fin _ 0 _, .cospi => some (.fin false 1 0, 0)
  | .fin true _ _, .rsq => some (nan, 1)
  | .fin true _ _, .sqrt => some (nan, 1)
  | .fin true _ _, .log2 => some (nan, 1)
  | _, _ => none

/-- The functions of R133 on the reals. -/
noncomputable def trueFn (f : RealFn) (x : ℝ) : ℝ :=
  match f with
  | .rcp => x⁻¹
  | .rsq => (Real.sqrt x)⁻¹
  | .sqrt => Real.sqrt x
  | .exp2 => (2 : ℝ) ^ x
  | .log2 => Real.logb 2 x
  | .sinpi => Real.sin (Real.pi * x)
  | .cospi => Real.cos (Real.pi * x)

/-- The rows of R133 for operands whose exact result is a binary fraction: what the function of a nonzero finite `x`
is. -/
inductive FixedRow : RealFn → ℚ → ℚ → Prop
  | rcp (neg : Bool) (n : Int) : FixedRow .rcp ((if neg then -1 else 1) * 2 ^ n) ((if neg then -1 else 1) * 2 ^ (-n))
  | rsq (n : Int) : FixedRow .rsq (4 ^ n) (2 ^ (-n))
  | sqrt (m : Nat) (e : Int) : FixedRow .sqrt ((m * 2 ^ e) ^ 2) (m * 2 ^ e)
  | exp2 (n : Int) (h : -400 < n ∧ n < 400) : FixedRow .exp2 n (2 ^ n)
  | log2 (n : Int) : FixedRow .log2 (2 ^ n) n
  | sinpi (n : Int) : FixedRow .sinpi n 0
  | sinpiHalf (n : Int) : FixedRow .sinpi (n + 1 / 2) ((-1) ^ n)
  | cospi (n : Int) : FixedRow .cospi n ((-1) ^ n)
  | cospiHalf (n : Int) : FixedRow .cospi (n + 1 / 2) 0

/-- Packed halves (spec/08 R134): the exact result of an element. -/
def packedRule (i : Instr) : Option (Guard × Ops × Bool × Rm × (Rm → FVal → FVal → FVal → FVal × Flags)) :=
  match i with
  | .hadd2 g o bf rm => some (g, o, bf, rm, fun m a b _ => exactSum m [a, b])
  | .hmul2 g o bf rm => some (g, o, bf, rm, fun _ a b _ => exactMul a b)
  | .hfma2 g o bf rm => some (g, o, bf, rm, fun m a b c =>
      let p := exactMul a b
      let r := exactSum m [p.1, c]
      (r.1, p.2 ||| r.2))
  | _ => none

/-- Element i of a packed source, after FTZI of the format (spec/08 R134). -/
def elem (s : State) (l : Nat) (h : Fmt) (o : Operand) (i : Nat) : FVal :=
  let x := decodeFmt h ((s.src l (.elem h) o).toNat / 2 ^ (16 * i) % 65536)
  if modeField (s.warp (warpOf l)).mode h / 16 % 2 = 1 then x.flush h else x

/-- Bits of a source of a conversion (spec/08 R136): a pair for FP64 and AQ64, else the low bits of the format's width.
-/
def convBits (s : State) (l : Nat) (f : Fmt) (o : Operand) : Nat :=
  if f = .fp64 ∨ f = .aq64 then (s.src64 l o).toNat else (s.src l (rtypeOf f) o).toNat % 2 ^ f.width

/-- Words of a conversion's result (spec/08 R136). -/
def convWords (f : Fmt) (x : Nat) : List W32 :=
  if f = .fp64 ∨ f = .aq64 then [BitVec.ofNat 32 x, BitVec.ofNat 32 (x / 2 ^ 32)] else [BitVec.ofNat 32 x]

/-- What a conversion gives by the kind R59 marks for its pair: bits, flags, and whether RS bits were used. -/
def conversion (m : W64) (rs : Nat) (dst src : Fmt) (rm : Rm) (bits : Nat) : Nat × Flags × Bool :=
  let c := ctlOf m dst rm
  let x : FVal := if src.isInt then FVal.ofInt (intOf src bits) else
    if src ≠ .fp64 ∧ modeField m src / 16 % 2 = 1 then (decodeFmt src bits).flush src else decodeFmt src bits
  match cvtKind src dst with
  | .rounded => ((x.round dst c rs).1, (x.round dst c rs).2, c.rm == .rs)
  | .toInt => (lowBits dst.width (x.toInt dst c.rm rs).1, (x.toInt dst c.rm rs).2, c.rm == .rs)
  | .narrow => ((narrow dst c.sat (intOf src bits)).1, (narrow dst c.sat (intOf src bits)).2, false)
  | _ => (if dst.isInt then lowBits dst.width (intOf src bits) else (x.round dst Ctl.nearest 0).1,
      if x.isSig then 1 else 0, false)

/-- The magnitude bits of the largest finite value of a floating format, of its infinity and of its canonical NaN,
where it has them: the rows of spec/03 R44. -/
def formatRow (f : Fmt) : Option (Nat × Option Nat × Option Nat) :=
  match f with
  | .fp32 => some (0x7F7FFFFF, some 0x7F800000, some 0x7FC00000)
  | .bf16 => some (0x7F7F, some 0x7F80, some 0x7FC0)
  | .fp16 => some (0x7BFF, some 0x7C00, some 0x7E00)
  | .e4m3 => some (0x7E, none, some 0x7F)
  | .e5m2 => some (0x7B, some 0x7C, some 0x7E)
  | .e3m2 => some (0x1F, none, none)
  | .e2m3 => some (0x1F, none, none)
  | .fp64 => some (0x7FEFFFFFFFFFFFFF, some 0x7FF0000000000000, some 0x7FF8000000000000)
  | _ => none

/-- Magnitude bits with a sign in the format's top bit. -/
def withSign (f : Fmt) (neg : Bool) (mag : Nat) : Nat := (if neg then 2 ^ (f.width - 1) else 0) + mag

/-- The range of an integer format (spec/03 R46). -/
def rangeOf (f : Fmt) : Option (Int × Int) :=
  match f with
  | .int8 => some (-128, 127) | .uint8 => some (0, 255) | .int4 => some (-8, 7)
  | .int32 => some (-2147483648, 2147483647) | .uint32 => some (0, 4294967295) | _ => none

/-- The formats in the order of R59's table, and its rows: '-' same format, 'F' no conversion. -/
def tableFormats : List Fmt :=
  [.fp32, .bf16, .fp16, .e4m3, .e5m2, .e3m2, .e2m3, .int8, .uint8, .int4, .int32, .uint32, .aq64, .fp64]
def tableRows : List String :=
  ["-RRRRRRIIIIIAE", "E-RRRRRIIIIIFE", "ER-RRRRIIIIIFE", "EEE-RRRIIIIIFE", "EEER-RRIIIIIFE", "EEEEE-RIIIIIFE",
   "EEEERR-IIIIIFE", "EEERRRR-NNENFE", "EEERRRRN-NEEFE", "EEEEEEREN-ENFE", "RRRRRRRNNN-NFE", "RRRRRRRNNNN-FE",
   "QFFFFFFFFFFF-Q", "RRRRRRRIIIIIF-"]

/-- What a letter of the table says. -/
def kindIs (c : Char) (k : CvtKind) : Prop :=
  match c with
  | 'E' => k = .exact
  | 'R' => k = .rounded
  | 'I' => k = .toInt
  | 'N' => k = .narrow
  | 'A' => k = .toAq
  | 'Q' => k = .fromAq
  | '-' => k = .copy
  | _ => True

/-- Are both formats of CVT no AQ64 and not the same: does R59 mark the pair E, R, I or N? -/
def converts (dst src : Fmt) : Bool := dst != src && dst != .aq64 && src != .aq64

end Sys2Proof.Claims

/-- spec/03 R45, R53: sums and products of finite values are exact in value and sign, and comparison is that of the
numbers. A zero product has the sign of its factors' signs together; a zero sum has the sign its zeros share, and else
that of RD alone. -/
def Sys2Proof.Claims.ExactArithmetic : Prop :=
  (∀ a b : FVal, a.isFin → b.isFin →
    (exactMul a b).1.isFin ∧ Claims.num (exactMul a b).1 = Claims.num a * Claims.num b ∧
      (exactMul a b).1.neg = (a.neg != b.neg) ∧ (exactMul a b).2 = 0) ∧
  (∀ (rm : Rm) (xs : List FVal), xs ≠ [] → (∀ x ∈ xs, x.isFin) →
    (exactSum rm xs).1.isFin ∧ Claims.num (exactSum rm xs).1 = (xs.map Claims.num).sum ∧ (exactSum rm xs).2 = 0 ∧
      (Claims.num (exactSum rm xs).1 = 0 → (exactSum rm xs).1.neg =
        if xs.all (fun x => x.isZero) && (xs.all (fun x => x.neg) || xs.all (fun x => !x.neg))
          then xs.all (fun x => x.neg) else rm == .rd)) ∧
  (∀ a b : FVal, a.isFin → b.isFin → a.cmp b =
    some (if Claims.num a < Claims.num b then -1 else if Claims.num a = Claims.num b then 0 else 1))

/-- spec/03 R45, spec/08 R128: NaN operands and invalid operations give the canonical NaN with sign 0; only a signalling
NaN, 0 × ∞, ∞ − ∞, 0/0 and ∞/∞ set INVALID; a finite nonzero value over zero gives a signed infinity with DIVZERO. -/
def Sys2Proof.Claims.SpecialOperands : Prop :=
  (∀ a b : FVal, (a.isNan ∨ b.isNan) →
    exactMul a b = (.nan false false, if a.isSig || b.isSig then 1 else 0) ∧
    exactDiv a b = (.nan false false, if a.isSig || b.isSig then 1 else 0) ∧
    ∀ rm, exactSum rm [a, b] = (.nan false false, if a.isSig || b.isSig then 1 else 0)) ∧
  (∀ a b : FVal, a.isZero → b.isInf → exactMul a b = (.nan false false, 1) ∧ exactMul b a = (.nan false false, 1)) ∧
  (∀ rm n, exactSum rm [.inf n, .inf (!n)] = (.nan false false, 1)) ∧
  (∀ rm n a, a.isFin → exactSum rm [.inf n, a] = (.inf n, 0) ∧ exactSum rm [a, .inf n] = (.inf n, 0)) ∧
  (∀ a b : FVal, (a.isZero ∧ b.isZero ∨ a.isInf ∧ b.isInf) → exactDiv a b = (.nan false false, 1)) ∧
  (∀ a b : FVal, a.isFin → ¬ a.isZero → b.isZero → exactDiv a b = (.inf (a.neg != b.neg), 2)) ∧
  (∀ a b : FVal, a.isInf → b.isFin → exactDiv a b = (.inf (a.neg != b.neg), 0)) ∧
  (∀ a b : FVal, a.isInf → ¬ b.isNan → ¬ b.isZero →
    exactMul a b = (.inf (a.neg != b.neg), 0) ∧ exactMul b a = (.inf (a.neg != b.neg), 0)) ∧
  (∀ a b : FVal, a.isFin → b.isInf → (exactDiv a b).1.isZero ∧ (exactDiv a b).1.neg = (a.neg != b.neg) ∧
    (exactDiv a b).2 = 0) ∧
  (∀ a b : FVal, a.isZero → b.isFin → ¬ b.isZero → (exactDiv a b).1.isZero ∧
    (exactDiv a b).1.neg = (a.neg != b.neg) ∧ (exactDiv a b).2 = 0) ∧
  (∀ (rm : Rm) (xs : List FVal), (∃ x ∈ xs, x.isNan) → (.inf false ∉ xs ∨ .inf true ∉ xs) →
    exactSum rm xs = (.nan false false, if xs.any FVal.isSig then 1 else 0)) ∧
  (∀ (rm : Rm) (xs : List FVal), .inf false ∈ xs → .inf true ∈ xs → exactSum rm xs = (.nan false false, 1)) ∧
  (∀ (rm : Rm) (xs : List FVal), (∀ x ∈ xs, ¬ x.isNan) →
    ∀ n, .inf n ∈ xs → .inf (!n) ∉ xs → exactSum rm xs = (.inf n, 0))

/-- spec/08 R128: the quotient of finite nonzero values stands to every binary fraction of 300 bits as the exact one
does, so that it rounds as the exact one; its sign is that of the operands' signs together, and no flag is set (the
model computes it to 400 bits and more, log entry 46). -/
def Sys2Proof.Claims.Quotients : Prop :=
  ∀ a b : FVal, a.isFin → ¬ a.isZero → b.isFin → ¬ b.isZero →
    (exactDiv a b).1.isFin ∧ (exactDiv a b).1.neg = (a.neg != b.neg) ∧ (exactDiv a b).2 = 0 ∧
    ∀ n k : Int, n.natAbs < 2 ^ 300 →
      let y : ℚ := n * (2 : ℚ) ^ k
      (Claims.num (exactDiv a b).1 < y ↔ Claims.num a / Claims.num b < y) ∧
      (y < Claims.num (exactDiv a b).1 ↔ y < Claims.num a / Claims.num b)

/-- spec/03 R53: m × 2^e on the grid of 2^q: itself where it lies on it; else `roundTo` gives the neighbour that each
mode chooses: `lo` and `lo + 1` are the two neighbours in units of 2^q, magnitudes of a number whose sign is `neg`. -/
def Sys2Proof.Claims.RoundingModes : Prop :=
  (∀ (rm : Rm) (rs : Nat) (neg : Bool) (m : Nat) (e q : Int), q ≤ e → roundTo rm rs neg m e q = (m * 2 ^ (e - q).toNat, false)) ∧
  ∀ (rm : Rm) (rs : Nat) (neg : Bool) (m : Nat) (e q : Int), e < q →
    let x : ℚ := (m : ℚ) * (2 : ℚ) ^ (e - q)
    let lo : Nat := m / 2 ^ (q - e).toNat
    let r := roundTo rm rs neg m e q
    ((lo : ℚ) = x → r = (lo, false)) ∧
    ((lo : ℚ) ≠ x → (lo : ℚ) < x ∧ x < lo + 1 ∧ r.2 = true ∧ (r.1 = lo ∨ r.1 = lo + 1) ∧
      (rm = .rz → r.1 = lo) ∧
      (rm = .ru → r.1 = if neg then lo else lo + 1) ∧
      (rm = .rd → r.1 = if neg then lo + 1 else lo) ∧
      (rm = .rne → (x - lo < 1 / 2 → r.1 = lo) ∧ (x - lo > 1 / 2 → r.1 = lo + 1) ∧ (x - lo = 1 / 2 → r.1 % 2 = 0)) ∧
      (rm = .rna → r.1 = if x - lo < 1 / 2 then lo else lo + 1) ∧
      (rm = .rs → r.1 = if neg
        then (if (rs : Int) < ⌊((lo : ℚ) + 1 - x) * 2 ^ 32⌋ then lo else lo + 1)
        else (if (rs : Int) < ⌊(x - lo) * 2 ^ 32⌋ then lo + 1 else lo)))

/-- spec/03 R44, R45, R55: what an overflow gives by mode, sign and SAT, and what an infinity or a NaN gives that goes
into a format: kept, or the canonical NaN with its sign, where the format has them; and what E4M3, E3M2 and E2M3 hold
instead. (That a kept infinity sets no flag is the model's, log entry 64.) -/
def Sys2Proof.Claims.BeyondTheLargest : Prop :=
  ∀ (f : Fmt) (c : Ctl) (rs : Nat) (neg sig : Bool) (max : Nat) (inf nan : Option Nat),
    Claims.formatRow f = some (max, inf, nan) →
    let bits := Claims.withSign f neg
    (overflowBits f c neg =
      if c.sat ∨ nan = none ∨ c.rm = .rz ∨ (c.rm = .ru ∧ neg = true) ∨ (c.rm = .rd ∧ neg = false) then bits max
      else bits (inf.getD 0x7F)) ∧
    (∀ i, inf = some i → (FVal.inf neg).round f c rs = (bits i, 0)) ∧
    (inf = none → (FVal.inf neg).round f c rs = (bits (if nan = none ∨ c.sat then max else 0x7F), 4)) ∧
    (∀ q, nan = some q → (FVal.nan neg sig).round f c rs = (bits q, if sig then 1 else 0)) ∧
    (nan = none → (FVal.nan neg sig).round f c rs = (bits max, 1)) ∧
    ∀ e, (FVal.fin neg 0 e).round f c rs = (bits 0, 0)

/-- spec/03 R48, R59 to R61: the kind of each pair of formats; a float as an integer, rounded, then clamped; an integer
that does not fit, clamped or cut to its low bits; and an addend on the grid of its anchor. -/
def Sys2Proof.Claims.IntegerConversions : Prop :=
  (∀ i < 14, ∀ j < 14, Claims.kindIs ((Claims.tableRows.getD i "").toList.getD j 'F')
    (cvtKind (Claims.tableFormats.getD i .fp32) (Claims.tableFormats.getD j .fp32))) ∧
  (∀ (f : Fmt) (lo hi n : Int) (sat : Bool), Claims.rangeOf f = some (lo, hi) →
    (lo ≤ n → n ≤ hi → narrow f sat n = ((n % 2 ^ f.width).toNat, 0)) ∧
    (n < lo → narrow f sat n = (((if sat then lo else n) % 2 ^ f.width).toNat, 4)) ∧
    (hi < n → narrow f sat n = (((if sat then hi else n) % 2 ^ f.width).toNat, 4))) ∧
  (∀ (f : Fmt) (lo hi : Int) (rm : Rm) (rs : Nat) (neg sig : Bool) (m : Nat) (e : Int), Claims.rangeOf f = some (lo, hi) →
    let r := roundTo rm rs neg m e 0
    let n : Int := if neg then -(r.1 : Int) else r.1
    (FVal.nan neg sig).toInt f rm rs = (0, 1) ∧
    (FVal.inf neg).toInt f rm rs = (if neg then lo else hi, 1) ∧
    (lo ≤ n → n ≤ hi → (FVal.fin neg m e).toInt f rm rs = (n, if r.2 then 16 else 0)) ∧
    (n < lo → (FVal.fin neg m e).toInt f rm rs = (lo, 1)) ∧ (hi < n → (FVal.fin neg m e).toInt f rm rs = (hi, 1))) ∧
  ∀ (a : Int) (neg sig : Bool) (m : Nat) (e : Int),
    let r := roundTo .rne 0 neg m (e + (62 - a)) 0
    let n : Int := if neg then -(r.1 : Int) else r.1
    aqQuant (.nan neg sig) a = (0, false, true) ∧
    aqQuant (.inf neg) a = (if neg then -2 ^ 63 else 2 ^ 63 - 1, true, false) ∧
    (-2 ^ 63 ≤ n → n ≤ 2 ^ 63 - 1 → aqQuant (.fin neg m e) a = (n, false, false)) ∧
    (n < -2 ^ 63 → aqQuant (.fin neg m e) a = (-2 ^ 63, true, false)) ∧
    (2 ^ 63 - 1 < n → aqQuant (.fin neg m e) a = (2 ^ 63 - 1, true, false))

/-- spec/03 R52: a finite value rounded into a floating format. The grid is that of the format's precision, or the
subnormal grid for a tiny value; the result decodes to the chosen multiple of the grid, with the value's sign; the flags
are those of R52; and an overflow gives what the table of R55 gives. -/
def Sys2Proof.Claims.RoundedResult : Prop :=
  ∀ (f : Fmt) (c : Ctl) (rs : Nat) (neg : Bool) (m : Nat) (e : Int), f.eBits ≠ 0 → m ≠ 0 →
    let q : Int := e + (Nat.log2 m : Int) - f.mBits
    let least : Int := 1 - (f.bias : Int) - f.mBits
    let y := roundTo c.rm rs neg m e q
    let z := roundTo c.rm rs neg m e least
    let r := roundFin f c rs neg m e
    let tiny : Prop := (y.1 : ℚ) * (2 : ℚ) ^ q < (2 : ℚ) ^ (least + f.mBits)
    let tooBig : Prop := Claims.num (decodeFmt f f.maxBits) < (y.1 : ℚ) * (2 : ℚ) ^ q
    (tooBig → r = (overflowBits f c neg, 4 ||| 16)) ∧
    (¬ tooBig → tiny → c.ftzo → r = (f.signed neg 0, 8 ||| 16)) ∧
    (¬ tooBig → tiny → ¬ c.ftzo → r.2 = (if z.2 then 8 ||| 16 else 0) ∧ (decodeFmt f r.1).neg = neg ∧
      (decodeFmt f r.1).isFin ∧ |Claims.num (decodeFmt f r.1)| = (z.1 : ℚ) * (2 : ℚ) ^ least) ∧
    (¬ tooBig → ¬ tiny → r.2 = (if y.2 then 16 else 0) ∧ (decodeFmt f r.1).neg = neg ∧
      (decodeFmt f r.1).isFin ∧ |Claims.num (decodeFmt f r.1)| = (y.1 : ℚ) * (2 : ℚ) ^ q)

/-- spec/08 R128, R135, R139: FADD, FSUB, FMUL, FFMA, FDIV, HDOT2 and I2F complete for all operands: in each executing
lane the exact result rounded once, its flags ORed into SR.GSTAT, and the RS counter advanced when RS is in force;
nothing else changes. -/
def Sys2Proof.Claims.FloatOperations : Prop :=
  ∀ (i : Instr) (s : State) (g : Guard) (o : Ops) (rm : Rm) (f : State → Nat → FVal × Flags),
    Claims.fp32Rule i = some (g, o, rm, f) →
    ∃ t, exec i s = .next t ∧ Result s t g o.d (fun l => (Claims.round1 s l .fp32 rm (f s l)).1)
      (fun l => (Claims.round1 s l .fp32 rm (f s l)).2.1) (fun l => (Claims.round1 s l .fp32 rm (f s l)).2.2)

/-- spec/08 R128, R132: FSCALE rounds A × 2^s(B) once, and FRND rounds A to an integral value, keeping A where it is
integral, zero or infinite. -/
def Sys2Proof.Claims.ScalingAndIntegralRounding : Prop :=
  (∀ (s : State) (g : Guard) (o : Ops) (rm : Rm), ∃ (t : State) (r : Nat → W32) (fl : Nat → Flags),
    exec (.fscale g o rm) s = .next t ∧
      Result s t g o.d (fun l => [r l]) fl (fun l => Claims.rm32 s l rm == .rs) ∧
      ∀ l, let n := (s.src l .int o.b).toInt
        match Claims.fp s l o.a with
        | .fin neg m e => ([r l], fl l, Claims.rm32 s l rm == .rs) =
            Claims.round1 s l .fp32 rm (.fin neg m (e + n), 0)
        | .inf neg => r l = (if neg then 0xFF800000 else 0x7F800000) ∧ fl l = 0
        | .nan _ sig => r l = 0x7FC00000 ∧ fl l = if sig then 1 else 0) ∧
  (∀ (s : State) (g : Guard) (o : Ops) (rm : Rm), ∃ (t : State) (r : Nat → W32) (fl : Nat → Flags) (u : Nat → Bool),
    exec (.frnd g o rm) s = .next t ∧ Result s t g o.d (fun l => [r l]) fl u ∧
      ∀ l, match Claims.fp s l o.a with
        | .nan _ sig => r l = 0x7FC00000 ∧ (fl l = if sig then 1 else 0) ∧ u l = false
        | .inf neg => r l = (if neg then 0xFF800000 else 0x7F800000) ∧ fl l = 0 ∧ u l = false
        | .fin neg m e =>
          (m = 0 ∨ 0 ≤ e → decodeFmt .fp32 (r l).toNat = .fin neg m e ∧ fl l = 0 ∧ u l = false) ∧
          (m ≠ 0 → e < 0 → (decodeFmt .fp32 (r l).toNat).neg = neg ∧
            |Claims.num (decodeFmt .fp32 (r l).toNat)| = ((roundTo (Claims.rm32 s l rm) (s.rs l 0) neg m e 0).1 : ℚ) ∧
            (fl l = if (roundTo (Claims.rm32 s l rm) (s.rs l 0) neg m e 0).2 then 16 else 0) ∧
            u l = (Claims.rm32 s l rm == .rs)))

/-- spec/08 R129: FMIN and FMAX return one of their operands after FTZI, with −0 below +0, the other operand when one is
a NaN (the canonical NaN with .NAN), and set INVALID for a signalling NaN alone. -/
def Sys2Proof.Claims.MinimumAndMaximum : Prop :=
  ∀ (s : State) (g : Guard) (o : Ops) (nan : Bool) (max : Bool),
    ∃ (t : State) (r : Nat → W32) (fl : Nat → Flags),
      exec (if max then .fmax g o nan else .fmin g o nan) s = .next t ∧
      Result s t g o.d (fun l => [r l]) fl (fun _ => false) ∧
      ∀ l, let a := Claims.fp s l o.a
        let b := Claims.fp s l o.b
        let x := decodeFmt .fp32 (r l).toNat
        (fl l = if a.isSig || b.isSig then 1 else 0) ∧
        (a.isNan ∧ b.isNan → r l = 0x7FC00000) ∧
        ((a.isNan ∨ b.isNan) → nan → r l = 0x7FC00000) ∧
        (a.isNan → ¬ b.isNan → ¬ nan → x = b) ∧ (¬ a.isNan → b.isNan → ¬ nan → x = a) ∧
        (¬ a.isNan → ¬ b.isNan → (x = a ∨ x = b) ∧
          (∀ y ∈ [a, b], ∀ c, x.cmp y = some c → if max then 0 ≤ c else c ≤ 0) ∧
          (a.cmp b = some 0 → a.neg ≠ b.neg → x.neg = !max))

/-- spec/08 R130, R131: FTEST compares two FP32 values after FTZI, and only a signalling NaN sets INVALID; FCLASS tests
the class of A as it is stored and sets no flag. -/
def Sys2Proof.Claims.FloatTests : Prop :=
  (∀ (s : State) (g : Guard) (o : Ops) (cmp : FCmp), ∃ (t : State) (r : Nat → W32),
    exec (.ftest g o cmp) s = .next t ∧
      Result s t g o.d (fun l => [r l])
        (fun l => if (Claims.fp s l o.a).isSig || (Claims.fp s l o.b).isSig then 1 else 0) (fun _ => false) ∧
      ∀ l, (Claims.ftestHolds cmp ((Claims.fp s l o.a).cmp (Claims.fp s l o.b)) → r l = 1) ∧
        (¬ Claims.ftestHolds cmp ((Claims.fp s l o.a).cmp (Claims.fp s l o.b)) → r l = 0)) ∧
  (∀ (s : State) (g : Guard) (o : Ops) (mask : BitVec 10), ∃ t, exec (.fclass g o mask) s = .next t ∧
      Result s t g o.d (fun l => [if mask.getLsbD (Claims.classOfBits (s.src l .fp32 o.a)) then 1 else 0])
        (fun _ => 0) (fun _ => false))

/-- spec/08 R133: the rows of the table, for every function: the values of zeros, infinities, NaNs and negative
operands with their flags; the exact results at powers of two, squares, integers and halves, a zero of FSINPI with the
sign of its operand and the zeros of FLOG2(1) and FCOSPI(n + 1/2) positive; and every other value within 2^−60 of the
function's, relatively (for FEXP2 below 400 in magnitude, beyond which every value overflows or rounds as the least
tiny one). -/
def Sys2Proof.Claims.FunctionTable : Prop :=
  (∀ (f : RealFn) (a : FVal) (x : FVal × Flags), Claims.functionSpecial f a = some x → realFn f a = some x) ∧
  (∀ (f : RealFn) (neg : Bool) (m : Nat) (e : Int) (y : ℚ), m ≠ 0 →
    Claims.FixedRow f (Claims.num (.fin neg m e)) y →
    ∃ v : FVal, realFn f (.fin neg m e) = some (v, 0) ∧ v.isFin ∧ Claims.num v = y ∧
      (y = 0 → v.neg = (f == .sinpi && neg))) ∧
  (∀ (f : RealFn) (neg : Bool) (m : Nat) (e : Int) (v : FVal) (fl : Flags), m ≠ 0 →
    Claims.functionSpecial f (.fin neg m e) = none → (f = .exp2 → |Claims.num (.fin neg m e)| < 400) →
    realFn f (.fin neg m e) = some (v, fl) →
    let y := Claims.trueFn f (Claims.num (.fin neg m e))
    fl = 0 ∧ v.isFin ∧ |((Claims.num v : ℚ) : ℝ) - y| ≤ 2 ^ (-60 : ℤ) * |y|) ∧
  (∀ (neg : Bool) (m : Nat) (e : Int), 400 ≤ |Claims.num (.fin neg m e)| →
    realFn .exp2 (.fin neg m e) = some (.fin false 1 (if neg then -400 else 400), 0))

/-- spec/08 R133: FRCP, FRSQ, FSQRT, FEXP2, FLOG2, FSINPI and FCOSPI complete for all operands, and round the function's
value once; FEXP2 of an integer from −149 to 127 is exact (that it is so whatever FTZO says is the model's reading, log
entry 69). Where the model's enclosures settle nothing, the result is a value the model leaves free (the model's own, log
entry 11); that RSCTR advances whenever RS is in force is the model's choice (log entry 61). -/
def Obligations.RealFunctions : Prop :=
  Claims.FunctionTable ∧
  (∀ (i : Instr) (s : State) (g : Guard) (o : Ops) (rm : Rm) (f : RealFn), Claims.functionRule i = some (g, o, rm, f) →
    ∃ (t : State) (r : Nat → W32) (fl : Nat → Flags), exec i s = .next t ∧
      Result s t g o.d (fun l => [r l]) fl (fun l => Claims.rm32 s l rm == .rs) ∧
      ∀ l, let a := Claims.fp s l o.a
        let whole : Prop := f = .exp2 ∧ a.isFin ∧ ∃ n : Int, -149 ≤ n ∧ n ≤ 127 ∧ Claims.num a = n
        (whole → (decodeFmt .fp32 (r l).toNat).isFin ∧
          Claims.num (decodeFmt .fp32 (r l).toNat) = (2 : ℚ) ^ ⌊Claims.num a⌋ ∧ fl l = 0) ∧
        (¬ whole → ∀ x, realFn f a = some x →
          ([r l], fl l, Claims.rm32 s l rm == .rs) = Claims.round1 s l .fp32 rm x))

/-- spec/08 R134: HADD2, HMUL2 and HFMA2 round each element's exact result once, under the controls of the element
format, with the element's index as RS index, and OR both elements' flags. -/
def Sys2Proof.Claims.PackedHalves : Prop :=
  ∀ (i : Instr) (s : State) (g : Guard) (o : Ops) (bf : Bool) (rm : Rm) (f : Rm → FVal → FVal → FVal → FVal × Flags),
    Claims.packedRule i = some (g, o, bf, rm, f) →
    let h := if bf then Fmt.bf16 else Fmt.fp16
    let c := fun l => ctlOf (s.warp (warpOf l)).mode h rm
    let x := fun l k => f (c l).rm (Claims.elem s l h o.a k) (Claims.elem s l h o.b k) (Claims.elem s l h o.c k)
    let e := fun l k => (x l k).1.round h (c l) (s.rs l k)
    ∃ t, exec i s = .next t ∧ Result s t g o.d
      (fun l => [BitVec.ofNat 32 ((e l 0).1 + 2 ^ 16 * (e l 1).1)])
      (fun l => (x l 0).2 ||| (e l 0).2 ||| ((x l 1).2 ||| (e l 1).2)) (fun l => (c l).rm == .rs)

/-- spec/08 R136 to R141: CVT of every pair that R59 converts, CVT that copies, F2I, PACK and UNPACK give the converted
bits in the places of R136 and R140, with the flags of the conversion. -/
def Sys2Proof.Claims.FormatConversions : Prop :=
  (∀ (s : State) (g : Guard) (o : Ops) (dst src : Fmt) (rm : Rm), Claims.converts dst src →
    let r := fun l => Claims.conversion (s.warp (warpOf l)).mode (s.rs l 0) dst src rm (Claims.convBits s l src o.a)
    ∃ t, exec (.cvt g o dst src rm) s = .next t ∧
      Result s t g o.d (fun l => Claims.convWords dst (r l).1) (fun l => (r l).2.1) (fun l => (r l).2.2)) ∧
  (∀ (s : State) (g : Guard) (o : Ops) (f : Fmt) (rm : Rm), ∃ t, exec (.cvt g o f f rm) s = .next t ∧
      Result s t g o.d (fun l => Claims.convWords f (Claims.convBits s l f o.a)) (fun _ => 0) (fun _ => false)) ∧
  (∀ (s : State) (g : Guard) (o : Ops) (dst src : Fmt) (rm : Rm), dst.isInt → !src.isInt → src ≠ .aq64 →
    let r := fun l => Claims.conversion (s.warp (warpOf l)).mode (s.rs l 0) dst src rm (Claims.convBits s l src o.a)
    ∃ t, exec (.f2i g o dst src rm) s = .next t ∧
      Result s t g o.d (fun l => [BitVec.ofInt 32 (intOf dst (r l).1)]) (fun l => (r l).2.1) (fun l => (r l).2.2)) ∧
  (∀ (s : State) (g : Guard) (o : Ops) (f : Fmt) (rm : Rm),
    let w := posWidth f
    let e := fun l k x =>
      Claims.conversion (s.warp (warpOf l)).mode (s.rs l k) f .fp32 rm (s.src l .fp32 x).toNat
    f ≠ .aq64 → f ≠ .fp32 → ∃ t, exec (.pack g o f rm) s = .next t ∧ Result s t g o.d
      (fun l => [BitVec.ofNat 32
        ((s.src l .int o.c).toNat * 2 ^ (2 * w) % 2 ^ 32 + (e l 1 o.b).1 * 2 ^ w + (e l 0 o.a).1)])
      (fun l => (e l 0 o.a).2.1 ||| (e l 1 o.b).2.1) (fun l => (e l 0 o.a).2.2 || (e l 1 o.b).2.2)) ∧
  (∀ (s : State) (g : Guard) (o : Ops) (idx : Fin 8) (f : Fmt), f ≠ .aq64 → f ≠ .fp32 →
    let r := fun l => Claims.conversion (s.warp (warpOf l)).mode 0 .fp32 f .rne
      ((s.src l (.elem f) o.a).toNat / 2 ^ (posWidth f * idx.val) % 2 ^ f.width)
    ∃ t, exec (.unpack g o idx f) s = .next t ∧
      Result s t g o.d (fun l => [BitVec.ofNat 32 (r l).1]) (fun l => (r l).2.1) (fun _ => false))

/-- spec/08 R137: CVT with AQ64 on either side, for an anchor in range: the conversion step of R48, a NaN setting INVALID
and saturation OVERFLOW, or the conversion of R49; a lane alone whose anchor is out of range takes RESERVED_FIELD. -/
def Sys2Proof.Claims.AnchoredConversions : Prop :=
  ∀ (s : State) (g : Guard) (o : Ops) (rm : Rm),
    let anchor := fun l => (s.src l .int o.b).toInt
    (( ∀ l ∈ s.exec g, -128 ≤ anchor l ∧ anchor l ≤ 127) →
      (∃ t, exec (.cvt g o .aq64 .fp32 rm) s = .next t ∧
        let q := fun l => aqQuant (decodeFmt .fp32 (s.src l .fp32 o.a).toNat) (anchor l)
        Result s t g o.d (fun l => Claims.convWords .aq64 (BitVec.ofInt 64 (q l).1).toNat)
          (fun l => (if (q l).2.2 then 1 else 0) ||| (if (q l).2.1 then 4 else 0)) (fun _ => false)) ∧
      (∀ dst ∈ [Fmt.fp32, .fp64], ∃ t, exec (.cvt g o dst .aq64 rm) s = .next t ∧
        let w := fun l => (s.src64 l o.a).toInt
        let r := fun l => roundFin dst
          { rm := .rne, sat := (ctlOf (s.warp (warpOf l)).mode .fp32 rm).sat, ftzo := false } 0
          (w l < 0) (w l).natAbs (anchor l - 62)
        Result s t g o.d (fun l => Claims.convWords dst (r l).1) (fun l => (r l).2) (fun _ => false))) ∧
    (∀ l, s.exec g = [l] → ¬ (-128 ≤ anchor l ∧ anchor l ≤ 127) →
      exec (.cvt g o .aq64 .fp32 rm) s = .next (s.trap l { code := 0x05 }) ∧
      ∀ dst ∈ [Fmt.fp32, .fp64], exec (.cvt g o dst .aq64 rm) s = .next (s.trap l { code := 0x05 }))

namespace Sys2Proof.Claims

/-- The clamp limits of QNT for an integer format (spec/08 R142): the asymmetric form stores 0 to 255, or 0 to 15. -/
def quantRange (asym : Bool) (f : Fmt) : Int × Int :=
  if asym then (if f = .int4 then (0, 15) else (0, 255)) else f.range

/-- Is a group word one that passes its check (spec/03 R62)? -/
def groupWordOk (f : Fmt) (w : W32) : Prop := w.toNat / 256 % 256 = 0 ∧ (f = .int4 → w.toNat / 16 % 16 = 0)

/-- The scale of QNT and DQNT: FP16 in the group word's upper half as stored, or FP32 after FTZI (R142). -/
def quantScale (s : State) (l : Nat) (asym : Bool) (o : Operand) : FVal :=
  if asym then decodeFmt .fp16 ((s.src l .int o).toNat / 65536) else fp s l o

/-- The zero point of QNT and DQNT. -/
def zeroPoint (s : State) (l : Nat) (asym : Bool) (o : Operand) : Int :=
  if asym then ((s.src l .int o).toNat % 256 : Nat) else 0

/-- QNT's result in a lane (spec/08 R142). -/
def quantized (s : State) (l : Nat) (o : Ops) (asym : Bool) (f : Fmt) (rm : Rm) : Given :=
  let v := exactDiv (fp s l o.a) (quantScale s l asym o.b)
  let c := ctlOf (s.warp (warpOf l)).mode f rm
  if !f.isInt then round1 s l f rm v
  else
    let lo := (quantRange asym f).1
    let hi := (quantRange asym f).2
    let out := fun (q : Int) (fl : Flags) => ([BitVec.ofNat 32 (lowBits f.width q)], v.2 ||| fl, c.rm == .rs)
    match v.1 with
    | .nan _ _ => out 0 1
    | .inf neg => out (if neg then lo else hi) 4
    | .fin neg m e =>
      let r := roundTo c.rm (s.rs l 0) neg m e 0
      let n : Int := (if neg then -(r.1 : Int) else r.1) + zeroPoint s l asym o.b
      let q := if n < lo then lo else if n > hi then hi else n
      out q ((if r.2 then 16 else 0) ||| (if q = n then 0 else 4))

/-- The element of DQNT as a number to scale (spec/08 R143). -/
def dequantElem (s : State) (l : Nat) (o : Ops) (asym : Bool) (f : Fmt) : FVal :=
  let bits := (s.src l (rtypeOf f) o.a).toNat % 2 ^ f.width
  if f.isInt then FVal.ofInt ((if asym then (bits : Int) else intOf f bits) - zeroPoint s l asym o.b)
  else if modeField (s.warp (warpOf l)).mode f / 16 % 2 = 1 then (decodeFmt f bits).flush f else decodeFmt f bits

end Sys2Proof.Claims

/-- spec/08 R142 to R144: QNT divides, rounds, offsets and clamps; DQNT scales, rounded once; FABSMAX takes the larger
magnitude word. QNT and DQNT of a lone lane whose group word fails its check take RESERVED_FIELD. That RSCTR advances
also where no bits are drawn is the model's (log entry 61). -/
def Obligations.Quantisation : Prop :=
  (∀ (s : State) (g : Guard) (o : Ops) (asym : Bool) (f : Fmt) (rm : Rm), (asym → f = .uint8 ∨ f = .int4) →
    ((∀ l ∈ s.exec g, asym → Claims.groupWordOk f (s.src l .int o.b)) →
      (f ≠ .fp64 → ∃ t, exec (.qnt g o asym f rm) s = .next t ∧
        Result s t g o.d (fun l => (Claims.quantized s l o asym f rm).1) (fun l => (Claims.quantized s l o asym f rm).2.1)
          (fun l => (Claims.quantized s l o asym f rm).2.2)) ∧
      (f ≠ .fp64 → ∃ t, exec (.dqnt g o asym f rm) s = .next t ∧
        let r := fun l => Claims.round1 s l .fp32 rm
          (exactMul (Claims.quantScale s l asym o.b) (Claims.dequantElem s l o asym f))
        Result s t g o.d (fun l => (r l).1) (fun l => (r l).2.1) (fun l => (r l).2.2))) ∧
    (∀ l, s.exec g = [l] → asym → ¬ Claims.groupWordOk f (s.src l .int o.b) →
      exec (.qnt g o asym f rm) s = .next (s.trap l { code := 0x05 }) ∧
      exec (.dqnt g o asym f rm) s = .next (s.trap l { code := 0x05 }))) ∧
  (∀ (s : State) (g : Guard) (o : Ops), ∃ (t : State) (r : Nat → W32), exec (.fabsmax g o) s = .next t ∧
    Result s t g o.d (fun l => [r l]) (fun _ => 0) (fun _ => false) ∧
    ∀ l, (r l).toNat = max ((s.src l .fp32 o.a).toNat % 2 ^ 31) ((s.src l .fp32 o.b).toNat % 2 ^ 31))

/-- spec/03, spec/08: the value of a floating operation on finite operands, and on NaNs, infinities and zeros. -/
def Obligations.FloatValues : Prop :=
  Claims.ExactArithmetic ∧ Claims.SpecialOperands ∧ Claims.Quotients

/-- spec/03 R44, R45, R52 to R55: which neighbour a mode takes, the result, flushes and flags around it, what an overflow
takes by R55's table, and what infinities and NaNs give. (That an exact infinity kept in a format with infinities sets no
flag is the model's, log entry 64.) -/
def Obligations.Rounding : Prop :=
  Claims.RoundingModes ∧ Claims.RoundedResult ∧ Claims.BeyondTheLargest

/-- spec/08: the FP32 operations and those on packed halves. (That RSCTR advances whenever RS is in force is the
model's, log entry 61.) -/
def Obligations.FloatArithmetic : Prop :=
  Claims.FloatOperations ∧ Claims.PackedHalves

/-- spec/08: FSCALE and FRND, FMIN and FMAX, FTEST and FCLASS. (When RSCTR advances is the model's choice, log entry
61: with FSCALE also on an exact result, a NaN or an infinity; with FRND not on a NaN, an infinity, a zero or 2^23 and
above.) -/
def Obligations.FloatMinMaxTestsAndScaling : Prop :=
  Claims.ScalingAndIntegralRounding ∧ Claims.MinimumAndMaximum ∧ Claims.FloatTests

/-- spec/03 R48, R57 to R63, spec/08: conversions among formats by the table of R59, to integers and among them, and to
and from AQ64. (An infinity that its format keeps sets no flag, log entry 64; RSCTR advances whenever RS is in force, log
entry 61.) -/
def Obligations.Conversions : Prop :=
  Claims.FormatConversions ∧ Claims.AnchoredConversions ∧ Claims.IntegerConversions

/-! ## Registers, predicate sets and special registers (spec/02, spec/07 R121 to R123, spec/24 R364, R365) -/

namespace Sys2Proof.Claims

/-- Is every lane of the group in privileged mode? -/
def allPrivileged (s : State) : Prop := ∀ l ∈ s.group.lanes, (s.lane l).priv.getLsbD 0 = true

/-- Is every lane of the group in user mode? -/
def allUser (s : State) : Prop := ∀ l ∈ s.group.lanes, (s.lane l).priv.getLsbD 0 = false

/-- The registers 0x20 to 0x24 (spec/02 R31). -/
def sysReg (sr : SReg) : Bool :=
  sr == .ktrapv || sr == .lease || sr == .poolmin || sr == .poolcap || sr == .priv

/-- May a special register be read by the lanes of the group: one of 0x20 to 0x24 only in privileged mode? -/
def mayTouch (s : State) (sr : SReg) : Prop := sysReg sr → allPrivileged s

/-- Where a special register's value is held, as a lane reads it (spec/02 R31). -/
def srOf (s : State) (l : Nat) (sr : SReg) : W64 :=
  let x := s.lane l
  let w := s.warp (warpOf l)
  let k := s.core (coreOf l)
  let q := x.priv.toNat / 256 % 32
  match sr with
  | .mode => w.mode
  | .trapv => w.trapv
  | .seed => w.seed
  | .th i => (tget 0 w.th i.val).setWidth 64
  | .acwin => w.acwin.setWidth 64
  | .pondt => k.pondt.setWidth 64
  | .ktrapv => k.ktrapv
  | .lease => k.lease.setWidth 64
  | .poolmin => if q < 20 then BitVec.ofNat 64 (s.poolMin (coreOf l) q) else 0
  | .poolcap => if q < 20 then BitVec.ofNat 64 (s.poolCap (coreOf l) q) else 0
  | .rsb => x.rsb
  | .gstat => x.gstat.setWidth 64
  | .priv => x.priv.setWidth 64
  | .fault i => [x.f0, x.f1, x.f2, x.f3].getD i.val 0
  | .gt => BitVec.ofNat 64 (s.coreGt (coreOf l))
  | .launch => match s.launchOf (coreOf l) with
    | some x => x.num.setWidth 64
    | none => 0

/-- Is a special register 64 bits wide (spec/02 R31)? -/
def wideSr (sr : SReg) : Bool :=
  match sr with
  | .mode => true | .trapv => true | .rsb => true | .seed => true | .gt => true | .fault _ => true
  | .ktrapv => true
  | _ => false

/-- A lane register written (spec/02 R31): SR.RSB's bits [2:0] read 0. -/
def laneWrite (sr : SReg) (v : W64) (x : Lane) : Lane :=
  match sr with
  | .rsb => { x with rsb := v &&& 0xFFFFFFFFFFFFFFF8 }
  | .gstat => { x with gstat := v.setWidth 32 }
  | .priv => { x with priv := v.setWidth 32 }
  | .fault 0 => { x with f0 := v }
  | .fault 1 => { x with f1 := v }
  | .fault 2 => { x with f2 := v }
  | .fault 3 => { x with f3 := v }
  | _ => x

/-- A warp register written: the SAT bits of E3M2 and E2M3 in SR.MODE read 1 (spec/02 R32). -/
def warpWrite (sr : SReg) (v : W64) (x : Warp) : Warp :=
  match sr with
  | .mode => { x with mode := v ||| 0x0000008200000000 }
  | .trapv => { x with trapv := v }
  | .seed => { x with seed := v }
  | .th i => { x with th := tput 0 x.th i.val (v.setWidth 32) }
  | .acwin => { x with acwin := v.setWidth 32 }
  | _ => x

/-- A core register written; `q` is QSEL of the lane that supplies the value. -/
def coreWrite (sr : SReg) (q : Nat) (v : W64) (x : Core) : Core :=
  match sr with
  | .pondt => { x with pondt := v.setWidth 32 }
  | .ktrapv => { x with ktrapv := v }
  | .lease => { x with lease := v.setWidth 32 }
  | .poolmin => { x with poolMin := tput (poolMinReset q) x.poolMin q v.toNat }
  | .poolcap => { x with poolCap := tput (poolCapReset q) x.poolCap q v.toNat }
  | _ => x

/-- Everything a write of a special register by some lanes leaves: a lane register in each of them; a warp register from
the lowest lane of the warp that is no helper; a core register from the lowest of the core (R22, R23). -/
structure Stored (s t : State) (ls : List Nat) (sr : SReg) (v : Nat → W64) : Prop where
  rest : t = { s with lanes := t.lanes, warps := t.warps, cores := t.cores }
  lane : ∀ l, t.lane l = if l ∈ ls then laneWrite sr (v l) (s.lane l) else s.lane l
  warp : ∀ w, t.warp w = match s.sourceOf ls w with
    | some l => warpWrite sr (v l) (s.warp w)
    | none => s.warp w
  core : ∀ c, t.core c = match (ls.filter fun l => !(s.lane l).helper).head? with
    | some l => if coreOf l = c then coreWrite sr ((s.lane l).priv.toNat / 256 % 32) (v l) (s.core c) else s.core c
    | none => s.core c

/-- The value operand of a write (spec/07 R122): a pair for a 64-bit register. -/
def srOperand (s : State) (sr : SReg) (a : Operand) (l : Nat) : W64 :=
  if wideSr sr then s.src64 l a else (s.src l .int a).setWidth 64

/-- Does a value pass the checks of a special register (spec/02 R31 to R33, R39, spec/07 R122, spec/24 R364)? -/
def accepted (s : State) (l : Nat) (sr : SReg) (v : W64) : Prop :=
  let n := v.toNat
  let c := coreOf l
  let q := (s.lane l).priv.toNat / 256 % 32
  match sr with
  | .mode => n / 2 ^ 52 = 0 ∧ n / 2 ^ 49 % 8 ≤ 5 ∧ n / 2 ^ 46 % 4 = 0 ∧
      ∀ k ∈ [0, 6, 12, 18, 24, 30, 36, 42], n / 2 ^ k % 8 ≤ 5
  | .trapv | .ktrapv => n / 2 ^ 48 = 0 ∧ n % 8 = 0
  | .pondt => n ≤ 65535
  | .lease => 16 ≤ n ∧ n ≤ 65535
  | .poolmin => q < 20 ∧ n ≤ s.poolCap c q ∧
      ((List.range 20).map fun j => if j = q then n else s.poolMin c j).sum ≤ 4096
  | .poolcap => q < 20 ∧ n ≤ 4096 ∧ s.poolMin c q ≤ n
  | .priv => ∀ j < 32, v.getLsbD j = true → j = 0 ∨ 8 ≤ j ∧ j ≤ 12
  | .gstat => ∀ j < 32, v.getLsbD j = true → j ≤ 4 ∨ 8 ≤ j ∧ j ≤ 12
  | .fault 3 => n / 2 ^ 32 = 0 ∧ n / 2 ^ 16 % 64 = 0
  | _ => True

/-- The fault of a value that a special register refuses: ALIGN for a vector whose low bits are not 0. -/
def refusedWith (sr : SReg) (v : W64) : Trap :=
  if (sr = .trapv ∨ sr = .ktrapv) ∧ v.toNat / 2 ^ 48 = 0 then { code := 0x10, addr := v, info := 3 } else { code := 0x05 }

/-- The instructions that only privileged mode may run, in the forms that any operands give (spec/24 R364 to R368,
spec/07 R122). -/
def privileged (i : Instr) : Bool :=
  match i with
  | .movsrRead _ _ sr => sysReg sr
  | .movsrWrite _ _ sr => sysReg sr
  | .srwr _ _ _ => true
  | .tlbinv _ _ _ => true
  | .pcfg _ _ _ _ => true
  | _ => false

end Sys2Proof.Claims

/-- spec/02 R25 to R27, spec/07 R105: what a result of some words leaves in a lane or a warp: consecutive registers
upward from the one named; a predicate receives result ≠ 0; P7 reads 1 and discards writes; every other register and
all control state is unchanged. -/
def Sys2Proof.Claims.WritesOfRegisters : Prop :=
  (∀ (x : Lane) (i : Fin 384) (vals : List W32),
    (x.put (.v i) vals) = { x with v := (x.put (.v i) vals).v } ∧
    ∀ j, tget 0 (x.put (.v i) vals).v j =
      if i.val ≤ j ∧ j < i.val + vals.length then vals.getD (j - i.val) 0 else tget 0 x.v j) ∧
  (∀ (x : Lane) (i : Fin 8) (vals : List W32),
    (x.put (.p i) vals) = { x with p := (x.put (.p i) vals).p } ∧
    ∀ j < 8, (x.put (.p i) vals).pred j = if j = 7 then true else if j = i.val then vals.getD 0 0 != 0 else x.pred j) ∧
  (∀ (x : Warp) (i : Fin 64) (vals : List W32),
    (x.put (.s i) vals) = { x with s := (x.put (.s i) vals).s } ∧
    ∀ j, tget 0 (x.put (.s i) vals).s j =
      if i.val ≤ j ∧ j < i.val + vals.length then vals.getD (j - i.val) 0 else tget 0 x.s j)

/-- spec/04 R76: a lane executes a slot when it is a lane of the group, in flight, and its predicate bit differs from
PNEG; P7 reads 1, so PRED 0b0111 always executes. -/
def Sys2Proof.Claims.PredicateGuards : Prop :=
  ∀ (s : State) (g : Guard) (l : Nat), s.group.served = [] →
    (l ∈ s.exec g ↔ l ∈ s.group.lanes ∧ (s.lane l).status = .inFlight ∧
      (if g.idx = 7 then true else (s.lane l).p.getLsbD g.idx.val) ≠ g.neg)

/-- spec/07 R108, R121: NOP changes nothing; MOVP reads P0 to P7 as one value and writes the predicates that its mask
names, never P7. -/
def Sys2Proof.Claims.PredicateSets : Prop :=
  (∀ (s : State) (g : Guard), exec (.nop g) s = .next s) ∧
  (∀ (s : State) (g : Guard) (o : Ops), ∃ (t : State) (r : Nat → W32), exec (.movpRead g o) s = .next t ∧
    Result s t g o.d (fun l => [r l]) (fun _ => 0) (fun _ => false) ∧
    ∀ l, ∀ j < 32, (r l).getLsbD j = if j < 8 then (s.lane l).pred j else false) ∧
  (∀ (s : State) (g : Guard) (o : Ops), ∃ t, exec (.movpWrite g o) s = .next t ∧ onlyLanes s t ∧
    (∀ l, l ∉ s.exec g → t.lane l = s.lane l) ∧
    ∀ l ∈ s.exec g, t.lane l = { s.lane l with p := (t.lane l).p } ∧
      ∀ j < 8, (t.lane l).pred j =
        if j < 7 ∧ (o.b = .none ∨ (s.src l .int o.b).getLsbD j) then (s.src l .int o.a).getLsbD j
        else (s.lane l).pred j)

/-- spec/02 R31, spec/07 R122: MOVSR reads every special register, two words for a 64-bit one, in a mode that may read
it, and changes nothing but its destination. -/
def Sys2Proof.Claims.SpecialRegisterReads : Prop :=
  ∀ (s : State) (g : Guard) (o : Ops) (sr : SReg), Claims.mayTouch s sr → ∃ t, exec (.movsrRead g o sr) s = .next t ∧
    Result s t g o.d (fun l => if Claims.wideSr sr
      then [(Claims.srOf s l sr).setWidth 32, (Claims.srOf s l sr).extractLsb' 32 32]
      else [(Claims.srOf s l sr).setWidth 32]) (fun _ => 0) (fun _ => false)

/-- spec/02 R22, R23, R31, spec/07 R122, spec/24 R364: MOVSR and SRWR write a special register's holder, in a mode that
may write it, with values that all pass their checks, and change nothing else; with some values that do not, they write
for the lanes that pass, and each other lane takes the fault of its value. -/
def Sys2Proof.Claims.WritesOfSpecialRegisters : Prop :=
  ∀ (s : State) (g : Guard) (o : Ops) (sr : SReg), sr ≠ .gt → sr ≠ .launch →
    let v := Claims.srOperand s sr o.a
    ((∀ l ∈ s.exec g, Claims.accepted s l sr (v l)) →
      (Claims.mayTouch s sr → ∃ t, exec (.movsrWrite g o sr) s = .next t ∧ Claims.Stored s t (s.exec g) sr v) ∧
      (Claims.allPrivileged s → ∃ t, exec (.srwr g o sr) s = .next t ∧ Claims.Stored s t (s.exec g) sr v)) ∧
    let good := (s.exec g).filter fun l => (s.checkSr l sr (v l)).isNone
    let faults := ((s.exec g).filter fun l => (s.checkSr l sr (v l)).isSome).map fun l => (l, Claims.refusedWith sr (v l))
    (Claims.mayTouch s sr → ∃ t, exec (.movsrWrite g o sr) s = .next (t.trapEach faults) ∧
      Claims.Stored s t good sr v) ∧
    (Claims.allPrivileged s → ∃ t, exec (.srwr g o sr) s = .next (t.trapEach faults) ∧ Claims.Stored s t good sr v)

/-- spec/02 R31 to R33, R39, spec/07 R122, spec/24 R364: the check of a value for a special register passes exactly the
values that R31, R32, R122 and R364 allow, and names the fault of every other one. -/
def Sys2Proof.Claims.SpecialRegisterValues : Prop :=
  ∀ (s : State) (l : Nat) (sr : SReg) (v : W64),
    (Claims.accepted s l sr v → s.checkSr l sr v = none) ∧
    (¬ Claims.accepted s l sr v → s.checkSr l sr v = some (Claims.refusedWith sr v))

/-- spec/02 R31, R32, spec/07 R122: which values each special register refuses, and with which fault. -/
def Sys2Proof.Claims.SpecialRegisterChecks : Prop :=
  ∀ (s : State) (l : Nat) (v : W64),
    let reserved : Option Trap := some { code := 0x05 }
    ((s.checkSr l .trapv v = s.checkSr l .ktrapv v) ∧
      (v.toNat / 2 ^ 48 ≠ 0 → s.checkSr l .trapv v = reserved) ∧
      (v.toNat / 2 ^ 48 = 0 → v.toNat % 8 ≠ 0 → s.checkSr l .trapv v = some { code := 0x10, addr := v, info := 3 }) ∧
      (v.toNat / 2 ^ 48 = 0 → v.toNat % 8 = 0 → s.checkSr l .trapv v = none)) ∧
    (s.checkSr l .pondt v = if v.toNat > 65535 then reserved else none) ∧
    (s.checkSr l .lease v = if v.toNat < 16 ∨ v.toNat > 65535 then reserved else none) ∧
    (∀ i, s.checkSr l (.th i) v = none) ∧ s.checkSr l .seed v = none ∧ s.checkSr l .rsb v = none ∧
    (s.checkSr l .priv v = none → ∀ j < 32, v.getLsbD j = true → j = 0 ∨ 8 ≤ j ∧ j ≤ 12) ∧
    (s.checkSr l .mode v = none → v.toNat / 2 ^ 49 % 8 ≤ 5 ∧ v.toNat / 2 ^ 52 = 0 ∧ v.toNat / 2 ^ 46 % 4 = 0 ∧
      ∀ k ∈ [0, 6, 12, 18, 24, 30, 36, 42], v.toNat / 2 ^ k % 8 ≤ 5) ∧
    (∀ q, q = (s.lane l).priv.toNat / 256 % 32 → 20 ≤ q →
      s.checkSr l .poolmin v = reserved ∧ s.checkSr l .poolcap v = reserved)

/-- spec/02 R31, R41, spec/24 R364 to R368: a privileged instruction of a group in user mode takes PRIV in every lane,
whatever its predicate, with the instruction's opcode byte as INFO, and does nothing else. -/
def Sys2Proof.Claims.PrivilegeTrap : Prop :=
  ∀ (i : Instr) (s : State), Claims.privileged i → Claims.allUser s →
    exec i s = .next (s.trapAll s.group.lanes { code := 0x40, info := s.group.word.toNat / 2 ^ 56 })

/-- spec/24 R365: PCFG writes the minimum or cap of a queue of the core from the lowest executing lane that is no helper;
a value that fails the checks of R31 takes RESERVED_FIELD there and changes no register; with no such lane nothing
happens; a queue number of 20 to 31 takes it there too, with the word's address in FAULT2 (the lane and the address are
the model's reading, log entry 30). -/
def Sys2Proof.Claims.PoolConfiguration : Prop :=
  ∀ (s : State) (g : Guard) (o : Ops) (cap : Bool) (q : Fin 32), Claims.allPrivileged s →
    match (s.execThreads g).head? with
    | none => exec (.pcfg g o cap q) s = .next s
    | some l =>
      let m := (s.src l .int o.a).toNat
      let c := coreOf l
      let sum := ((List.range 20).map fun j => if j = q.val then m else s.poolMin c j).sum
      let ok : Prop := if cap then m ≤ 4096 ∧ s.poolMin c q.val ≤ m else m ≤ s.poolCap c q.val ∧ sum ≤ 4096
      (20 ≤ q.val → exec (.pcfg g o cap q) s = .next (s.trap l
        { code := 0x05, addr := s.group.pc.setWidth 64 + BitVec.ofNat 64 (8 * (s.group.slot + 1)) })) ∧
      (q.val < 20 → ¬ ok → exec (.pcfg g o cap q) s = .next (s.trap l { code := 0x05 })) ∧
      (q.val < 20 → ok → ∃ t, exec (.pcfg g o cap q) s = .next t ∧ t = { s with cores := t.cores } ∧
        (∀ k, k ≠ c → t.core k = s.core k) ∧
        (∀ j, t.poolMin c j = if j = q.val ∧ ¬ cap then m else s.poolMin c j) ∧
        (∀ j, t.poolCap c j = if j = q.val ∧ cap then m else s.poolCap c j) ∧
        { t.core c with poolMin := [], poolCap := [] } = { s.core c with poolMin := [], poolCap := [] })

/-! ## Exchanges (spec/09 R161 to R163, spec/10 R180 to R184) -/

namespace Sys2Proof.Claims

/-- The depth of the group. -/
def groupDepth (s : State) : Nat := ((s.group.lanes.head?).map fun l => (s.lane l).depth.toNat).getD 0

/-- The member mask of a warp: C read by its lowest executing home lane, all ones for NONE (R180). -/
def memberMask (s : State) (g : Guard) (o : Ops) (w : Nat) : W32 :=
  if o.c = .none then 0xFFFFFFFF
  else match (s.exec g).find? fun l => warpOf l == w with
    | some l => s.src l .int o.c
    | none => 0

/-- The participants: executing lanes that their warp's mask names. -/
def participants (s : State) (g : Guard) (o : Ops) : List Nat :=
  (lowestOf (s.exec g)).flatMap fun l0 =>
    ((s.exec g).filter fun l => warpOf l == warpOf l0).filter fun l =>
      (memberMask s g o (warpOf l0)).getLsbD (homeLane l)

/-- The contribution of a home lane of a warp: its A where it takes part, else 0 (R161, R180). -/
def contribution (s : State) (g : Guard) (o : Ops) (ty : RType) (w i : Nat) : W32 :=
  if (memberMask s g o w).getLsbD i && (s.exec g).contains (w * 32 + i) then s.src (w * 32 + i) ty o.a else 0

/-- Has a masked lane of a warp departed (R161)? -/
def departed (s : State) (g : Guard) (o : Ops) (w i : Nat) : Bool :=
  (memberMask s g o w).getLsbD i &&
    s.standing s.group.lanes (groupDepth s) s.group.pc (w * 32 + i) == .departed

/-- No lane waits at this slot for the group to join it, and no masked lane of a warp of the group is awaited. -/
def nothingAwaited (s : State) (g : Guard) (o : Ops) : Prop :=
  (∀ w ∈ warpsOf s.group.lanes, s.heldAt w s.group.pc s.group.slot (groupDepth s) = []) ∧
  ∀ w ∈ warpsOf (s.exec g), ∀ i < 32, (memberMask s g o w).getLsbD i →
    s.standing s.group.lanes (groupDepth s) s.group.pc (w * 32 + i) ≠ .awaited

/-- The node of R66's tree over the 2^k lanes from the j-th block upward. -/
def fpNode (v : Nat → W32) : Nat → Nat → W32
  | 0, j => v j
  | k + 1, j => addFp32 (fpNode v k (2 * j)) (fpNode v k (2 * j + 1))

/-- The sum that R66 gives the first `n` lanes: the nodes of their aligned blocks, largest first, folded from the left.
`from` counts the lanes already taken, `acc` is their sum. -/
def fpPrefix (v : Nat → W32) (n : Nat) : Nat → Nat → Option W32 → W32
  | 0, done, acc => if done < n then (match acc with | none => v done | some x => addFp32 x (v done)) else acc.getD 0
  | k + 1, done, acc =>
    if done + 2 ^ (k + 1) ≤ n then
      let node := fpNode v (k + 1) (done / 2 ^ (k + 1))
      fpPrefix v n k (done + 2 ^ (k + 1)) (some (match acc with | none => node | some x => addFp32 x node))
    else fpPrefix v n k done acc

/-- An FP32 word's place in an order with −0 below +0. -/
def fpKey (x : W32) : Int := if 2 ^ 31 ≤ x.toNat then -((x.toNat - 2 ^ 31 : Nat) : Int) - 1 else x.toNat

/-- Is a word an FP32 NaN? -/
def fpNan (x : W32) : Bool := x.toNat % 2 ^ 31 > 0x7F800000

/-- The result of an operation of WRED or WSCAN over the first `n` lanes (R66, R182). -/
def reduced (op : RedOp) (v : Nat → W32) (n : Nat) (r : W32) : Prop :=
  match op with
  | .iadd => (n = 0 → r = 0) ∧ r.toNat = (((List.range n).map fun j => (v j).toNat).sum) % 2 ^ 32
  | .imin => if n = 0 then r = 0 else (∃ j < n, r = v j) ∧ ∀ j < n, r.toInt ≤ (v j).toInt
  | .imax => if n = 0 then r = 0 else (∃ j < n, r = v j) ∧ ∀ j < n, (v j).toInt ≤ r.toInt
  | .umin => if n = 0 then r = 0 else (∃ j < n, r = v j) ∧ ∀ j < n, r.toNat ≤ (v j).toNat
  | .umax => if n = 0 then r = 0 else (∃ j < n, r = v j) ∧ ∀ j < n, (v j).toNat ≤ r.toNat
  | .and => if n = 0 then r = 0 else ∀ b < 32, (r.getLsbD b = true ↔ ∀ j < n, (v j).getLsbD b = true)
  | .or => ∀ b < 32, (r.getLsbD b = true ↔ ∃ j < n, (v j).getLsbD b = true)
  | .xor => ∀ b < 32, r.getLsbD b = decide (((List.range n).filter fun j => (v j).getLsbD b).length % 2 = 1)
  | .fadd => r = fpPrefix v n 5 0 none
  | .fmin => if n = 0 then r = 0 else if (∀ j < n, fpNan (v j)) then r = 0x7FC00000 else
      (∃ j < n, r = v j) ∧ ¬ fpNan r ∧ ∀ j < n, ¬ fpNan (v j) → fpKey r ≤ fpKey (v j)
  | .fmax => if n = 0 then r = 0 else if (∀ j < n, fpNan (v j)) then r = 0x7FC00000 else
      (∃ j < n, r = v j) ∧ ¬ fpNan r ∧ ∀ j < n, ¬ fpNan (v j) → fpKey (v j) ≤ fpKey r

/-- An exchange: its guard and operands, the type A is read in, the home lanes whose values lane i combines, and how its
result stands to the contributions (R181). `part` says which lanes take part, `b` is the lane's own B. -/
structure ExchangeRule where
  g : Guard
  o : Ops
  ty : RType
  sources : (mask : W32) → (b : W32) → (i : Nat) → List Nat
  result : (v : Nat → W32) → (part : Nat → Bool) → (mask : W32) → (b : W32) → (i : Nat) → W32 → Prop

/-- An exchange in which a lane takes another lane's value. -/
def takesFrom (g : Guard) (o : Ops) (src : W32 → Nat → Nat) : ExchangeRule :=
  { g, o, ty := .int, sources := fun _ b i => [src b i], result := fun v _ _ b i r => r = v (src b i) }

/-- The home lanes of a mask. -/
def masked (mask : W32) : List Nat := (List.range 32).filter fun j => mask.getLsbD j

/-- An exchange that combines every masked lane. -/
def fromMasked (g : Guard) (o : Ops) (ty : RType)
    (result : (Nat → W32) → (Nat → Bool) → W32 → W32 → Nat → W32 → Prop) : ExchangeRule :=
  { g, o, ty, sources := fun m _ _ => masked m, result }

/-- The type in which WRED and WSCAN read A (R180). -/
def typeOf (op : RedOp) : RType := if op == .fadd || op == .fmin || op == .fmax then .fp32 else .int

/-- The exchanges (R181). -/
def exchangeRule (i : Instr) : Option ExchangeRule :=
  match i with
  | .qswap g o xm => some (takesFrom g o fun _ i => i ^^^ (match xm with | .x => 1 | .y => 2 | .xy => 3))
  | .qbcast g o q => some (takesFrom g o fun _ i => 4 * (i / 4) + q.val)
  | .wshfl g o .idx => some (takesFrom g o fun b _ => b.toNat % 32)
  | .wshfl g o .up => some (takesFrom g o fun b i => if b.toNat ≤ i then i - b.toNat else i)
  | .wshfl g o .down => some (takesFrom g o fun b i => if i + b.toNat ≤ 31 then i + b.toNat else i)
  | .wshfl g o .xor => some (takesFrom g o fun b i => i ^^^ (b.toNat % 32))
  | .vote g o mode => some (fromMasked g o .int fun v _ m _ _ r =>
      match mode with
      | .all => r = if ∀ j ∈ masked m, v j ≠ 0 then 1 else 0
      | .any => r = if ∃ j ∈ masked m, v j ≠ 0 then 1 else 0
      | .uni => r = if (∀ j ∈ masked m, v j ≠ 0) ∨ (∀ j ∈ masked m, v j = 0) then 1 else 0
      | .bal => ∀ j < 32, r.getLsbD j = (m.getLsbD j && v j != 0))
  | .wmatch g o => some (fromMasked g o .int fun v part _ _ i r => ∀ j < 32, r.getLsbD j = (part j && v j == v i))
  | .wred g o op => some (fromMasked g o (typeOf op) fun v _ _ _ _ r => reduced op v 32 r)
  | .wscan g o excl op => some
    { g := g
      o := o
      ty := typeOf op
      sources := fun _ _ i => List.range (if excl then i else i + 1)
      result := fun v _ _ _ i r => reduced op v (if excl then i else i + 1) r }
  | _ => none

end Sys2Proof.Claims

/-- spec/09 R161: how a lane stands to an exchange at a clause and a depth: in the group; departed when it is absent,
retired (a parked lane is) or past the exchange by its key (1023 − DEPTH, PC); awaited when it is not. A dormant helper
outside the group is none of them and contributes 0 (the model's reading, log entry 29). -/
def Sys2Proof.Claims.ExchangeStandings : Prop :=
  ∀ (s : State) (grp : List Nat) (d : Nat) (pc : Addr48) (l : Nat),
    (l ∈ grp → s.standing grp d pc l = .inGroup) ∧
    (l ∉ grp → tfind s.lanes l = none → s.standing grp d pc l = .departed) ∧
    ∀ x, l ∉ grp → tfind s.lanes l = some x →
      let before : Prop := 1023 - x.depth.toNat < 1023 - d ∨ 1023 - x.depth.toNat = 1023 - d ∧ x.pc.toNat ≤ pc.toNat
      (x.status = .retired → s.standing grp d pc l = .departed) ∧
      (x.status = .dormant → s.standing grp d pc l = .silent) ∧
      (x.status ≠ .retired → x.status ≠ .dormant → before → s.standing grp d pc l = .awaited) ∧
      (x.status ≠ .retired → x.status ≠ .dormant → ¬ before → s.standing grp d pc l = .departed)

/-- spec/02 R27, spec/03 R66, spec/10 R180 to R182: an exchange at which no lane is awaited completes: every participant
receives the result that R181 and R182 give its warp's contributions, its P6 becomes 1 exactly when a source it combined
had departed, and nothing else changes. -/
def Sys2Proof.Claims.ExchangeResults : Prop :=
  ∀ (i : Instr) (s : State) (x : Claims.ExchangeRule), Claims.exchangeRule i = some x →
    Claims.nothingAwaited s x.g x.o →
    ∃ (t : State) (r : Nat → W32), exec i s = .next t ∧
      (∀ l ∈ Claims.participants s x.g x.o,
        x.result (Claims.contribution s x.g x.o x.ty (warpOf l))
          (fun j => (Claims.memberMask s x.g x.o (warpOf l)).getLsbD j && (s.exec x.g).contains (warpOf l * 32 + j))
          (Claims.memberMask s x.g x.o (warpOf l)) (s.src l .int x.o.b) (homeLane l) (r l)) ∧
      Changed s t (Claims.participants s x.g x.o)
        (fun l y => (y.put x.o.d [r l]).setPred 6
          ((x.sources (Claims.memberMask s x.g x.o (warpOf l)) (s.src l .int x.o.b) (homeLane l)).any
            fun j => Claims.departed s x.g x.o (warpOf l) j)) x.o.d (fun l => [r l])

/-- spec/09 R162: when every warp of the executing lanes awaits a masked lane and none is held at the slot, the
participants leave the group and are held at the slot, with the clause they stand in kept as it was fetched (spec/04
R71), no register changes, and the other lanes stand as before. -/
def Sys2Proof.Claims.ExchangeWaits : Prop :=
  ∀ (i : Instr) (s : State) (x : Claims.ExchangeRule), Claims.exchangeRule i = some x →
    (∀ w ∈ warpsOf s.group.lanes, s.heldAt w s.group.pc s.group.slot (Claims.groupDepth s) = []) →
    (∀ w ∈ warpsOf (s.exec x.g), ∃ j < 32, (Claims.memberMask s x.g x.o w).getLsbD j ∧
      s.standing s.group.lanes (Claims.groupDepth s) s.group.pc (w * 32 + j) = .awaited) →
    ∃ t, exec i s = .next t ∧ t = { s with lanes := t.lanes, groups := t.groups } ∧
      ∀ l, t.lane l = if l ∈ Claims.participants s x.g x.o
        then { s.lane l with status := .held (Claims.memberMask s x.g x.o (warpOf l)), rslot := s.group.slot,
                             pc := s.group.pc, kept := s.clauseOf l }
        else s.lane l

/-- spec/10 R184: ELECT writes 1 in the lowest executing lane that is no helper and whose A is not 0 (NONE counts as
true), and 0 in every other executing lane. -/
def Sys2Proof.Claims.Election : Prop :=
  ∀ (s : State) (g : Guard) (o : Ops),
    let wins := fun l => !(s.lane l).helper && (o.a == .none || s.src l .int o.a != 0)
    ∃ t, exec (.elect g o) s = .next t ∧
      Result s t g o.d (fun l => [if (s.exec g).find? wins = some l then 1 else 0]) (fun _ => 0) (fun _ => false)

/-- spec/07 R123: V2S copies A of the lane that B of the warp's lowest lane names into an S register of the warp, when
that lane is one of the warp's executing lanes that are no helpers; every other warp and everything else is unchanged. -/
def Sys2Proof.Claims.ScalarExtraction : Prop :=
  ∀ (s : State) (g : Guard) (o : Ops), ∃ t, exec (.v2s g o) s = .next t ∧ t = { s with warps := t.warps } ∧
    ∀ w, t.warp w = match s.sourceOf (s.exec g) w with
      | none => s.warp w
      | some l0 =>
        let l := w * 32 + (s.src l0 .int o.b).toNat % 32
        if l ∈ s.exec g ∧ (s.lane l).helper = false then (s.warp w).put o.d [s.src l .int o.a] else s.warp w

/-- spec/02 R22 to R29, spec/04 R76: what a write of a register does, and the guard. -/
def Obligations.RegisterWrites : Prop :=
  Claims.WritesOfRegisters ∧ Claims.PredicateGuards

/-- spec/02 R31, spec/07 R108, R121, R122: NOP, MOVP, and MOVSR as a read. -/
def Obligations.PredicatesAndSpecialReads : Prop :=
  Claims.PredicateSets ∧ Claims.SpecialRegisterReads

/-- spec/02 R31 to R34, spec/24 R364: MOVSR and SRWR as writes, and the values refused. -/
def Obligations.SpecialRegisterWrites : Prop :=
  Claims.WritesOfSpecialRegisters ∧ Claims.SpecialRegisterValues ∧ Claims.SpecialRegisterChecks

/-- spec/04 R85, spec/24 R364, R365, R368: a privileged word in user mode, and PCFG (its queues 20 to 31: the model's
reading, log entry 30). -/
def Obligations.PrivilegeAndPools : Prop :=
  Claims.PrivilegeTrap ∧ Claims.PoolConfiguration

/-- spec/09 R161 to R163, spec/10 R180 to R184, spec/07 R123: exchanges among lanes, when they wait, ELECT and V2S (a
dormant helper's part: the model's choice, log entry 29). -/
def Obligations.Exchanges : Prop :=
  Claims.ExchangeStandings ∧ Claims.ExchangeResults ∧ Claims.ExchangeWaits ∧ Claims.Election ∧ Claims.ScalarExtraction

/-! ## Guarded reals (spec/16) -/

namespace Sys2Proof.Claims

/-- Lanes act one after the other: `R` says what one lane's turn does, and `part` which lanes it then marks as served. -/
inductive InTurn (R : State → Nat → State → Prop) (part : Nat → List Nat) : State → List Nat → State → Prop
  | done (s : State) : InTurn R part s [] s
  | lane {s t u : State} {l : Nat} {ls : List Nat} (act : R s l t) (rest : InTurn R part (t.serve (part l)) ls u) :
      InTurn R part s (l :: ls) u

/-- Lanes act one after the other. -/
inductive OneByOne (R : State → Nat → State → Prop) : State → List Nat → State → Prop
  | done (s : State) : OneByOne R s [] s
  | lane {s t u : State} {l : Nat} {ls : List Nat} (act : R s l t) (rest : OneByOne R t ls u) : OneByOne R s (l :: ls) u

/-- A lane's guarded register d written with x, and then the register's old reference taken from the log (R286). -/
def GuardWritten (s t : State) (l d : Nat) (x : GReg) : Prop :=
  ∃ u : State, u = { s with lanes := u.lanes } ∧
    (∀ k, u.lane k = if k = l then { s.lane l with g := tput {} (s.lane l).g d x } else s.lane k) ∧
    t = u.modLog (coreOf l) fun g => g.dec (s.greg l d).handle.toNat

/-- Does a launch of a lane's core keep every node in T255, with no spill nodes (R282)? -/
def noSpill (s : State) (l : Nat) : Prop := ∀ x, s.launchOf (coreOf l) = some x → x.nspill = 0

/-- The handle that a lane's next node receives: the free list's first, else the lowest never given out (R285). -/
def nextHandle (s : State) (l : Nat) : Nat :=
  if (s.log (coreOf l)).freehead ≠ 0 then (s.log (coreOf l)).freehead else (s.log (coreOf l)).next

/-- A log whose next node is taken (R285). -/
def taken (g : Log) : Log :=
  if g.freehead ≠ 0 then { g with freehead := (g.node g.freehead).a, live := g.live + 1 }
  else { g with next := g.next + 1, live := g.live + 1 }

/-- Has a lane's block a log with `n` handles never given out? -/
def roomFor (s : State) (l n : Nat) : Prop :=
  s.blockOf (coreOf l) ≠ none ∧ (s.log (coreOf l)).next + n ≤ s.logLimit (coreOf l)

/-- Has a lane's block no node left, and does no reclaim stand to give one back (R285)? -/
def logFull (s : State) (l : Nat) : Prop :=
  (s.log (coreOf l)).freehead = 0 ∧ s.logLimit (coreOf l) ≤ (s.log (coreOf l)).next

/-- The instructions that make an interior node (R289, R298): guard, operands, kind, has it a B, and the interval before
its bounds are rounded. -/
structure NodeRule where
  g : Guard
  o : Ops
  op : Nat
  two : Bool
  bounds : Interval → Interval → Interval

def nodeRule (i : Instr) : Option NodeRule :=
  match i with
  | .gadd g o => some { g, o, op := 3, two := true, bounds := Interval.add }
  | .gsub g o => some { g, o, op := 4, two := true, bounds := Interval.sub }
  | .gmul g o => some { g, o, op := 5, two := true, bounds := Interval.mul }
  | .gneg g o => some { g, o, op := 6, two := false, bounds := fun a _ => ⟨a.hi.negate, a.lo.negate⟩ }
  | .gsqr g o => some { g, o, op := 7, two := false, bounds := fun a _ => a.sqr }
  | _ => none

/-- The operand registers of a node. -/
def nodeA (r : NodeRule) (s : State) (l : Nat) : GReg := s.greg l (gIndex r.o.a)
def nodeB (r : NodeRule) (s : State) (l : Nat) : GReg := if r.two then s.greg l (gIndex r.o.b) else {}

/-- A node's creation interval: its bounds rounded outward to FP32, a zero bound +0 (R289). -/
def nodeLo (r : NodeRule) (s : State) (l : Nat) : W32 :=
  boundBits .rd (r.bounds (nodeA r s l).interval (nodeB r s l).interval).lo
def nodeHi (r : NodeRule) (s : State) (l : Nat) : W32 :=
  boundBits .ru (r.bounds (nodeA r s l).interval (nodeB r s l).interval).hi

/-- A lane's node made: REF 1, VAL the interval, the operands' counts raised, D written, the old handle Dec'd. -/
def nodeMade (r : NodeRule) (s : State) (l : Nat) (t : State) : Prop :=
  let u := (s.modLog (coreOf l) taken).modLog (coreOf l) fun g =>
    ((g.setNode (nextHandle s l)
      { op := BitVec.ofNat 4 r.op, ref := 1, a := (nodeA r s l).handle.toNat, b := (nodeB r s l).handle.toNat,
        val := (nodeLo r s l) ++ (nodeHi r s l) }).inc (nodeA r s l).handle.toNat).inc (nodeB r s l).handle.toNat
  GuardWritten u t l (gIndex r.o.d)
    { lo := nodeLo r s l, hi := nodeHi r s l, handle := BitVec.ofNat 24 (nextHandle s l),
      point := nodeLo r s l == nodeHi r s l }

/-- Is a value not NaN? -/
def isNumber (x : FVal) : Prop := x.isNan = false

/-- Is a bound above 0, below 0, or 0? -/
def above0 (x : FVal) : Prop := x = .inf false ∨ ∃ n m e, x = .fin n m e ∧ 0 < num x
def below0 (x : FVal) : Prop := x = .inf true ∨ ∃ n m e, x = .fin n m e ∧ num x < 0
def at0 (x : FVal) : Prop := ∃ n e, x = .fin n 0 e

/-- Are two bounds infinities of opposite signs? -/
def apart (x y : FVal) : Prop := ∃ n, x = .inf n ∧ y = .inf (!n)

/-- The four products of the bounds of two intervals. -/
def corners (a b : Interval) : List FVal :=
  [(exactMul a.lo b.lo).1, (exactMul a.lo b.hi).1, (exactMul a.hi b.lo).1, (exactMul a.hi b.hi).1]

/-- Is a value the least, or the greatest, of some? -/
def leastOf (x : FVal) (ys : List FVal) : Prop := x ∈ ys ∧ ∀ y ∈ ys, y.cmp x = some 0 ∨ y.cmp x = some 1
def greatestOf (x : FVal) (ys : List FVal) : Prop := x ∈ ys ∧ ∀ y ∈ ys, x.cmp y = some 0 ∨ x.cmp y = some 1

/-- Does an interval enclose a number? -/
def encloses (x : Interval) (q : ℚ) : Prop :=
  (x.lo = .inf true ∨ ∃ n m e, x.lo = .fin n m e ∧ num x.lo ≤ q) ∧
  (x.hi = .inf false ∨ ∃ n m e, x.hi = .fin n m e ∧ q ≤ num x.hi)

/-- An interval as a guarded register holds it: each bound rounded outward to FP32. -/
def asHeld (x : Interval) : Interval :=
  ⟨decodeFmt .fp32 (boundBits .rd x.lo).toNat, decodeFmt .fp32 (boundBits .ru x.hi).toNat⟩

/-- A lane handed to its core's Gecko (R291). -/
def geckoAsk (s : State) (l : Nat) (ask : GeckoAsk) : GeckoReq :=
  { lane := l, slot := s.group.slot, nslot := s.group.header.toNat / 2 ^ 52 % 16, ask := ask,
    gcap := (s.warp (warpOf l)).mode.toNat / 2 ^ 49 % 8, word := s.group.word }

/-- A lane as it waits for the Gecko. -/
def refining (s : State) (l : Nat) : Lane :=
  { s.lane l with status := .refining, rslot := s.group.slot, pc := s.group.pc, kept := s.clauseOf l }

/-- What the lanes of a core whose intervals do not decide ask the Gecko, in order. -/
def asked (s : State) (g : Guard) (o : Ops) (x : Nat → Interval) (c : Option Nat) (core : Nat) : List GeckoReq :=
  ((s.exec g).filter fun l => coreOf l == core && (x l).decide == none).map fun l =>
    geckoAsk s l (.sign (gIndex o.b) c ((pIndex o.d).getD 7) (pIndex o.a) (gIndex o.b))

/-- The state of a decision: in each executing lane the two predicates and STAGE 0 where the interval `x` decides, else
the lane waits for the Gecko. -/
structure SignsDecided (s t : State) (g : Guard) (o : Ops) (x : Nat → Interval) (c : Option Nat) : Prop where
  rest : t = { s with lanes := t.lanes, groups := t.groups, cores := t.cores }
  lane : ∀ l, t.lane l = if l ∈ s.exec g then
      match (x l).decide with
      | some sgn =>
        let y := (s.lane l).setPred ((pIndex o.d).getD 7) (sgn == -1)
        let z := match o.a with
          | .p i => y.setPred i.val (sgn == 0)
          | _ => y
        { z with gstat := z.gstat &&& ~~~(0x1C00#32) }
      | none => refining s l
    else s.lane l
  core : ∀ k, t.core k = { s.core k with gecko := (s.core k).gecko ++ asked s g o x c k }
  group : t.groups = s.groups.map fun p => (p.1, { p.2 with lanes := p.2.lanes.filter fun l =>
    !(decide (l ∈ s.exec g) && (x l).decide == none && coreOf l == p.1 / 16) })

/-- One lane's turn of GSEVER on register d (R302). -/
def severed (d : Nat) (s : State) (l : Nat) (t : State) : Prop :=
  let x := s.greg l d
  if x.handle = 0 ∨ x.leaf = true then t = s
  else if x.point = true then
    let bits := ((decodeFmt .fp32 x.lo.toNat).round .fp64 Ctl.nearest 0).1
    let v := decodeFmt .fp64 bits
    let u := (s.modLog (coreOf l) taken).modLog (coreOf l) fun y =>
      y.setNode (nextHandle s l) { op := 8, ref := 1, val := BitVec.ofNat 64 bits }
    GuardWritten u t l d { lo := boundBits .rd v, hi := boundBits .ru v, handle := BitVec.ofNat 24 (nextHandle s l),
                           leaf := true, point := boundBits .rd v == boundBits .ru v }
  else t = { s with lanes := t.lanes, groups := t.groups, cores := t.cores } ∧
    (∀ k, t.lane k = if k = l then refining s l else s.lane k) ∧
    ∀ k, t.core k = if k = coreOf l then { s.core k with gecko := (s.core k).gecko ++ [geckoAsk s l (.sever d)] }
      else s.core k

/-- Is the node a leaf, or free: has it no operands? -/
def leafNode (n : Node) : Prop := n.op.toNat < 3 ∨ 8 ≤ n.op.toNat

/-- Is every leaf of a log finite, as GLD and GSEVER make them? -/
def finiteLeaves (x : Log) : Prop := ∀ h, leafNode (x.node h) → ∃ n m e, (x.node h).leaf = .fin n m e

/-- Has a number no more than 65,536 significant bits? -/
def fits (q : ℚ) : Prop := ∃ (m e : Int), q = m * (2 : ℚ) ^ e ∧ m.natAbs < 2 ^ 65536

/-- Is it the sign of a number? -/
def signOf (q : ℚ) (sgn : Int) : Prop := (q = 0 → sgn = 0) ∧ (0 < q → sgn = 1) ∧ (q < 0 → sgn = -1)

/-- The number that the graph under a handle stands for (R289, R292), each result on the way meeting `ok`. -/
inductive Denotes (x : Log) (ok : ℚ → Prop) : Nat → ℚ → Prop
  | null : Denotes x ok 0 0
  | leaf {h n m e} (real : h ≠ 0) (is : leafNode (x.node h)) (value : (x.node h).leaf = .fin n m e) :
      Denotes x ok h (num (.fin n m e))
  | add {h p q} (real : h ≠ 0) (is : (x.node h).op = 3) (left : Denotes x ok (x.node h).a p)
      (right : Denotes x ok (x.node h).b q) (okay : ok (p + q)) : Denotes x ok h (p + q)
  | sub {h p q} (real : h ≠ 0) (is : (x.node h).op = 4) (left : Denotes x ok (x.node h).a p)
      (right : Denotes x ok (x.node h).b q) (okay : ok (p - q)) : Denotes x ok h (p - q)
  | mul {h p q} (real : h ≠ 0) (is : (x.node h).op = 5) (left : Denotes x ok (x.node h).a p)
      (right : Denotes x ok (x.node h).b q) (okay : ok (p * q)) : Denotes x ok h (p * q)
  | neg {h p} (real : h ≠ 0) (is : (x.node h).op = 6) (of : Denotes x ok (x.node h).a p) : Denotes x ok h (-p)
  | sqr {h p} (real : h ≠ 0) (is : (x.node h).op = 7) (of : Denotes x ok (x.node h).a p) (okay : ok (p ^ 2)) :
      Denotes x ok h (p ^ 2)

/-- Dec and Reclaim (R286), the operations on counts as the spec writes them. -/
inductive Decs : Log → Nat → Log → Prop
  | none {x : Log} {h : Nat} (skip : h = 0 ∨ (x.node h).ref = 4095) : Decs x h x
  | down {x : Log} {h : Nat} (real : h ≠ 0) (counted : (x.node h).ref ≠ 4095) (more : (x.node h).ref ≠ 1) :
      Decs x h (x.setNode h { x.node h with ref := (x.node h).ref - 1 })
  | last {x y z : Log} {h : Nat} (real : h ≠ 0) (one : (x.node h).ref = 1) (left : Decs (x.release h) (x.node h).a y)
      (right : Decs y (if 3 ≤ (x.node h).op.toNat ∧ (x.node h).op.toNat ≤ 5 then (x.node h).b else 0) z) : Decs x h z

end Sys2Proof.Claims

/-- spec/16 R289: the bounds of each operation before they are rounded; a bound that would need ∞ − ∞ or ∞ × 0 makes the
interval (−∞, +∞); an empty register is exact 0. -/
def Obligations.IntervalBounds : Prop :=
  open Sys2Proof.Claims in
  (∀ (a b : Interval) (an bn cn dn : Bool) (am bm cm dm : Nat) (ae be ce de : Int),
    a = ⟨.fin an am ae, .fin bn bm be⟩ → b = ⟨.fin cn cm ce, .fin dn dm de⟩ →
    (num (a.add b).lo = num a.lo + num b.lo ∧ num (a.add b).hi = num a.hi + num b.hi) ∧
    (num (a.sub b).lo = num a.lo - num b.hi ∧ num (a.sub b).hi = num a.hi - num b.lo) ∧
    (num (a.mul b).lo = min (min (num a.lo * num b.lo) (num a.lo * num b.hi)) (min (num a.hi * num b.lo) (num a.hi * num b.hi)) ∧
      num (a.mul b).hi = max (max (num a.lo * num b.lo) (num a.lo * num b.hi)) (max (num a.hi * num b.lo) (num a.hi * num b.hi))) ∧
    (num a.sqr.lo = (if 0 ≤ num a.lo then num a.lo ^ 2 else if num a.hi ≤ 0 then num a.hi ^ 2 else 0) ∧
      num a.sqr.hi = max (num a.lo ^ 2) (num a.hi ^ 2))) ∧
  (∀ a b : Interval, apart a.lo b.lo ∨ apart a.hi b.hi → a.add b = .whole) ∧
  (∀ a b : Interval, apart a.lo b.hi.negate ∨ apart a.hi b.lo.negate → a.sub b = .whole) ∧
  (∀ a b : Interval, (∃ x ∈ [a.lo, a.hi], ∃ y ∈ [b.lo, b.hi], x.isInf ∧ y.isZero ∨ x.isZero ∧ y.isInf) →
    a.mul b = .whole) ∧
  (∀ a b : Interval, (∀ x ∈ [a.lo, a.hi, b.lo, b.hi], isNumber x) →
    (¬ apart a.lo b.lo → ¬ apart a.hi b.hi →
      a.add b = ⟨(exactSum .rne [a.lo, b.lo]).1, (exactSum .rne [a.hi, b.hi]).1⟩) ∧
    (¬ apart a.lo b.hi.negate → ¬ apart a.hi b.lo.negate →
      a.sub b = ⟨(exactSum .rne [a.lo, b.hi.negate]).1, (exactSum .rne [a.hi, b.lo.negate]).1⟩) ∧
    ((∀ x ∈ [a.lo, a.hi], ∀ y ∈ [b.lo, b.hi], ¬ (x.isInf ∧ y.isZero) ∧ ¬ (x.isZero ∧ y.isInf)) →
      leastOf (a.mul b).lo (corners a b) ∧ greatestOf (a.mul b).hi (corners a b)) ∧
    a.neg = ⟨a.hi.negate, a.lo.negate⟩ ∧ greatestOf a.sqr.hi [(exactMul a.lo a.lo).1, (exactMul a.hi a.hi).1] ∧
    (¬ below0 a.lo → a.sqr.lo = (exactMul a.lo a.lo).1) ∧
    (below0 a.lo → below0 a.hi → a.sqr.lo = (exactMul a.hi a.hi).1) ∧
    (below0 a.lo → at0 a.hi → at0 a.sqr.lo) ∧
    (below0 a.lo → above0 a.hi → a.sqr.lo = .fin false 0 0)) ∧
  (∀ x : GReg, x.handle = 0 → x.interval = ⟨.fin false 0 0, .fin false 0 0⟩) ∧
  (∀ x : GReg, x.handle ≠ 0 → x.interval = ⟨decodeFmt .fp32 x.lo.toNat, decodeFmt .fp32 x.hi.toNat⟩)

/-- spec/16 introduction and R289: arithmetic on guarded registers narrows nothing and loses nothing: the new interval,
rounded outward to FP32, encloses the exact result of any numbers that the operands' intervals enclose. -/
def Obligations.GuardedEnclosure : Prop :=
  open Sys2Proof.Claims in
  ∀ (a b : Interval) (x y : ℚ), encloses a x → encloses b y →
    encloses (asHeld (a.add b)) (x + y) ∧ encloses (asHeld (a.sub b)) (x - y) ∧
    encloses (asHeld (a.mul b)) (x * y) ∧ encloses (asHeld a.neg) (-x) ∧ encloses (asHeld a.sqr) (x ^ 2)

/-- spec/16 R281 to R284: what a change of a block's log does. With no spill nodes it changes that block's log alone.
With spill nodes the log is T255's nodes with those that memory holds; T255's part is changed in the block, and each
spill node that differs is written to memory. Node h of them has 16 bytes, its VAL first, at the launch's log spill base
+ 16 × NSPILL × BLOCKID + 16 × (h − NCHIP). -/
def Sys2Proof.Claims.LogStorage : Prop :=
  open Sys2Proof.Claims in
  (∀ (s : State) (l : Nat) (f : Log → Log), noSpill s l →
    let t := s.modLog (coreOf l) f
    t = { s with blocks := t.blocks } ∧
      (∀ b, s.blockOf (coreOf l) = some b → s.log (coreOf l) = b.log) ∧
      ∀ k, tfind t.blocks k = (tfind s.blocks k).map fun b =>
        if k = s.leader (coreOf l) then { b with log := f b.log } else b) ∧
  (∀ (s : State) (c : Nat) (f : Log → Log), ∃ (u : State) (hs : List Nat), u = { s with blocks := u.blocks } ∧
    (∀ k, tfind u.blocks k = (tfind s.blocks k).map fun b =>
      if k = s.leader c then
        { b with log := { f (s.log c) with nodes := (f (s.log c)).nodes.filter fun p => !s.spilled c p.1 } } else b) ∧
    s.modLog c f = hs.foldl (fun t h => t.putSpill c h ((f (s.log c)).node h)) u ∧ hs.Nodup ∧
    ∀ h, h ∈ hs ↔ s.spilled c h ∧ (f (s.log c)).node h ≠ (s.log c).node h) ∧
  (∀ (s : State) (c h : Nat) (n : Node) (x : Launch), s.launchOf c = some x →
    (s.spilled c h ↔ x.nspill ≠ 0 ∧ x.nchip ≤ h ∧ h < x.nchip + x.nspill) ∧
    let va := dword x.record 3 + BitVec.ofNat 64 (16 * (x.nspill * s.blockId c + (h - x.nchip)))
    let high := n.op.toNat * 2 ^ 60 + n.ref % 4096 * 2 ^ 48 + n.a % 2 ^ 24 * 2 ^ 24 +
      (if n.op = 8 then (if n.inx then 1 else 0) else n.b) % 2 ^ 24
    let bytes := toLe n.val.toNat 8 ++ toLe high 8
    s.putSpill c h n = match s.storeVa c (s.capxOf c) (.sys true) (s.launchNum c) va bytes with
      | .inl r => r.1
      | .inr _ => s)

/-- spec/16 R285, R286, R289, R298: GADD, GSUB, GMUL, GNEG and GSQR make a node in each executing lane, in order, while
the log has handles for all; and they change nothing else. In a launch with spill nodes a lone lane makes its node when
the page of the node's place is mapped. -/
def Sys2Proof.Claims.GuardedOperations : Prop :=
  open Sys2Proof.Claims in
  ∀ (i : Instr) (r : NodeRule) (s : State), nodeRule i = some r →
    ((∀ l ∈ s.exec r.g, noSpill s l ∧ roomFor s l (s.exec r.g).length) →
      ∃ t, exec i s = .next t ∧ InTurn (nodeMade r) (fun l => [l]) s (s.exec r.g) t) ∧
    (∀ l, s.exec r.g = [l] → roomFor s l 1 → s.nodeMapped (coreOf l) (nextHandle s l) →
      ∃ t, exec i s = .next t ∧ InTurn (nodeMade r) (fun l => [l]) s [l] t)

/-- spec/16 R285: with the free list empty and NEXT at its limit, a lane waits while a reclaim is pending, and takes
GUARD_LOG_FULL with its D's index when none is; the lane changes no count, no node and no register. It waits in the same
way while the page of its node's place is not mapped (the model's, log entry 27). -/
def Sys2Proof.Claims.GuardedLogFull : Prop :=
  open Sys2Proof.Claims in
  (∀ (i : Instr) (r : NodeRule) (s : State) (l : Nat), nodeRule i = some r → s.exec r.g = [l] → logFull s l →
    exec i s = .next (if (s.log (coreOf l)).pending = []
      then (s.trap l { code := 0x22, info := gIndex r.o.d }).serve [l] else s.hold .retry)) ∧
  ∀ (i : Instr) (r : NodeRule) (s : State) (l : Nat), nodeRule i = some r → s.exec r.g = [l] → ¬ logFull s l →
    s.nodeMapped (coreOf l) (nextHandle s l) = false → exec i s = .next (s.hold .retry)

/-- spec/16 R286, R297, R303: GMOV and GDROP write D in each executing lane, the new reference counted before the old
one is released; GMOV of a register to itself does nothing; GMOV and GDROP allocate nothing. PINNED of the copy says
whether the node's count then stands at 4,095 (R287; the model's reading, log entry 53). -/
def Sys2Proof.Claims.GuardedMoves : Prop :=
  open Sys2Proof.Claims in
  ∀ (s : State) (g : Guard) (o : Ops),
    (∃ t, exec (.gmov g o) s = .next t ∧
      if gIndex o.d = gIndex o.a then t = s
      else OneByOne (fun s l t =>
        let x := s.greg l (gIndex o.a)
        let u := s.modLog (coreOf l) fun g => g.inc x.handle.toNat
        GuardWritten u t l (gIndex o.d)
          { x with pinned := decide (x.handle ≠ 0) && ((u.log (coreOf l)).node x.handle.toNat).ref == 4095 })
        s (s.exec g) t) ∧
    (∃ t, exec (.gdrop g o) s = .next t ∧
      OneByOne (fun s l t => GuardWritten s t l (gIndex o.d) {}) s (s.exec g) t)

/-- spec/16 R300, R301, R304: GMID gives a point inside the interval, GBND both bounds unchanged, GSTAT SR.GSTAT, which
.CLR then clears; none changes a guarded register. That GMID advances RSCTR only where it rounds a finite number is the
model's choice (log entry 61). -/
def Sys2Proof.Claims.GuardedReads : Prop :=
  open Sys2Proof.Claims in
  ∀ (s : State) (g : Guard) (o : Ops),
    (∃ t, exec (.gbnd g o) s = .next t ∧ Result s t g o.d
      (fun l => [(s.greg l (gIndex o.a)).lo, (s.greg l (gIndex o.a)).hi]) (fun _ => 0) (fun _ => false)) ∧
    (∃ t, exec (.gstat g o false) s = .next t ∧
      Result s t g o.d (fun l => [(s.lane l).gstat]) (fun _ => 0) (fun _ => false)) ∧
    (∃ t, exec (.gstat g o true) s = .next t ∧
      Changed s t (s.exec g) (fun l x => { x.put o.d [(s.lane l).gstat] with
        gstat := ((s.lane l).gstat &&& 0xFFFFE0E0) ||| 0x1C00 }) o.d fun l => [(s.lane l).gstat]) ∧
    ∀ rm, ∃ t, exec (.gmid g o rm) s = .next t ∧
      let given (l : Nat) : Given :=
        match (s.greg l (gIndex o.a)).interval with
        | ⟨.inf _, .inf _⟩ => ([0x7FC00000], 1, false)
        | ⟨_, .inf _⟩ => ([0x7F800000], 0, false)
        | ⟨.inf _, _⟩ => ([0xFF800000], 0, false)
        | x => round1 s l .fp32 rm (halfOf (exactSum (rm32 s l rm) [x.lo, x.hi]).1, 0)
      Result s t g o.d (fun l => (given l).1) (fun l => (given l).2.1) (fun l => (given l).2.2)

/-- spec/16 R290, R291, R299: GSGN and GCMP decide at interval precision where the enclosure does, and hand every other
executing lane to its core's Gecko, in order; no node, count or guarded register changes. An enclosure decides +1 when
its low bound is above 0, −1 when its high bound is below 0, 0 when both are 0. -/
def Sys2Proof.Claims.SignDecisions : Prop :=
  open Sys2Proof.Claims in
  (∀ (s : State) (g : Guard) (o : Ops), (s.exec g).Nodup → ∃ t, exec (.gsgn g o) s = .next t ∧
    SignsDecided s t g o (fun l => (s.greg l (gIndex o.b)).interval) none) ∧
  (∀ (s : State) (g : Guard) (o : Ops), (s.exec g).Nodup → ∃ t, exec (.gcmp g o) s = .next t ∧
    SignsDecided s t g o
      (fun l => asHeld ((s.greg l (gIndex o.b)).interval.sub (s.greg l (gIndex o.c)).interval)) (some (gIndex o.c))) ∧
  ∀ x : Interval, isNumber x.lo → isNumber x.hi →
    (above0 x.lo → x.decide = some 1) ∧ (¬ above0 x.lo → below0 x.hi → x.decide = some (-1)) ∧
    (at0 x.lo → at0 x.hi → x.decide = some 0) ∧
    (¬ above0 x.lo → ¬ below0 x.hi → ¬ (at0 x.lo ∧ at0 x.hi) → x.decide = none)

/-- spec/16 R292, R293: whatever the Gecko decides is the exact sign of the value that the graph defines, whichever
stage decides it and whatever GCAP is. It decides whenever no exact value that it meets, a − b of GCMP included, has
more than 65,536 bits; beyond that it decides by the stages alone, and answers GUARD_LIMIT when none of them decides. A
stage is the first of 1 to GCAP whose enclosure decides, and 6 when none does. -/
def Obligations.GeckoIsExact : Prop :=
  open Sys2Proof.Claims in
  ∀ (x : Log) (a cap : Nat), finiteLeaves x →
    (∀ (v : ℚ), Denotes x (fun _ => True) a v → ∀ sgn k, x.refine a none cap = some (sgn, k) → signOf v sgn) ∧
    (∀ (b : Nat) (u v : ℚ), Denotes x (fun _ => True) a u → Denotes x (fun _ => True) b v →
      ∀ sgn k, x.refine a (some b) cap = some (sgn, k) → signOf (u - v) sgn) ∧
    (∀ v, Denotes x fits a v → ∃ p, x.refine a none cap = some p) ∧
    (∀ b u v, Denotes x fits a u → Denotes x fits b v → fits (u - v) → ∃ p, x.refine a (some b) cap = some p) ∧
    (∀ c, (∀ j, 1 ≤ j → j ≤ cap → (x.asked (53 * 2 ^ (j - 1)) a c).decide = none) →
      (¬ ∃ v, Denotes x fits a v) → x.refine a c cap = none) ∧
    (∀ b u v, (∀ j, 1 ≤ j → j ≤ cap → (x.asked (53 * 2 ^ (j - 1)) a (some b)).decide = none) →
      Denotes x fits a u → Denotes x fits b v → ¬ fits (u - v) → x.refine a (some b) cap = none) ∧
    ∀ c sgn k, cap < 6 → x.refine a c cap = some (sgn, k) →
      (1 ≤ k ∧ k ≤ cap ∧ (x.asked (53 * 2 ^ (k - 1)) a c).decide = some sgn ∨ k = 6) ∧
      ∀ j, 1 ≤ j → j < k → j ≤ cap → (x.asked (53 * 2 ^ (j - 1)) a c).decide = none

/-- spec/16 R286: a pending root is reclaimed completely, depth first, A's subtree before B's. -/
def Sys2Proof.Claims.Reclaiming : Prop :=
  open Sys2Proof.Claims in
  ∀ (x : Log) (h : Nat), ∃ y, Decs (x.release h) (x.node h).a y ∧
    Decs y (if 3 ≤ (x.node h).op.toNat ∧ (x.node h).op.toNat ≤ 5 then (x.node h).b else 0) (x.reclaim h)

/-- spec/16 R302: GSEVER leaves an empty register or a leaf alone, replaces a point's history at once by a SEVERED leaf
of the same value, and hands every other lane to the Gecko. -/
def Sys2Proof.Claims.Severing : Prop :=
  open Sys2Proof.Claims in
  ∀ (s : State) (g : Guard) (o : Ops),
    ((∀ l ∈ s.exec g, noSpill s l ∧ roomFor s l (s.exec g).length) →
      ∃ t, exec (.gsever g o) s = .next t ∧ InTurn (severed (gIndex o.d)) (fun l => [l]) s (s.exec g) t) ∧
    (∀ l, s.exec g = [l] → roomFor s l 1 → s.nodeMapped (coreOf l) (nextHandle s l) →
      ∃ t, exec (.gsever g o) s = .next t ∧ InTurn (severed (gIndex o.d)) (fun l => [l]) s [l] t)

/-- spec/16 R284 to R290: guarded arithmetic with room in the log, and without. (That a lane waits while a reclaim
stands to give a node back, and while a page of the spilled log is not mapped, is the model's, log entries 27 and 47.)
-/
def Obligations.GuardedArithmetic : Prop :=
  Claims.LogStorage ∧ Claims.GuardedOperations ∧ Claims.GuardedLogFull

/-- spec/16 R297, R300 to R304: GMOV and GDROP, and the reads GMID, GBND and GSTAT. (PINNED of GMOV's copy is that of
the node as GMOV leaves it, log entry 53; when GMID advances RSCTR, log entry 61: both the model's.) -/
def Obligations.GuardedMovesAndReads : Prop :=
  Claims.GuardedMoves ∧ Claims.GuardedReads

/-- spec/16 R290 to R295: GSGN and GCMP decided or sent to Gecko, and GSEVER. -/
def Obligations.SignsAndSevering : Prop :=
  Claims.SignDecisions ∧ Claims.Severing

/-! ## Memory instructions (spec/12, spec/13) -/

namespace Sys2Proof.Claims

/-- An access of some bytes by each of some lanes: the lanes, the wait counters it counts in (0 LDC, 1 STC, 3 TLC), its
release, where each lane accesses and as what, the data, the destination, whether a combining buffer may take it. -/
structure Access where
  lanes : List Nat
  counters : List Nat
  rel : Option Scope := none
  n : Nat
  place : Nat → (Nat × MemKind) ⊕ Trap
  data : Nat → List Byte := fun _ => []
  /-- The address as the lane names it, and its bytes where they differ by lane. -/
  va : Nat → W64 := fun _ => 0
  len : Nat → Nat := fun _ => n
  /-- A B128 access to memory is two of eight bytes (spec/12 R203). -/
  halves : Bool := false
  dst : Option Operand := none
  stamp : Bool := false
  combines : Bool := false

/-- Bytes of a SIZE (spec/13 R227). -/
def bytesOf (size : MemSize) : Nat :=
  match size with
  | .b32 => 4 | .b64 => 8 | .b128 => 16 | .u8 => 1 | .s8 => 1 | .u16 => 2 | .s16 => 2

/-- The effective address of LD, ST and GLD (spec/13 R226). -/
def effective (s : State) (l : Nat) (a : Operand) (disp : BitVec 10) (unit : Nat) : W64 :=
  s.src64 l a + BitVec.ofInt 64 (disp.toInt * unit)

/-- A physical address as the place of an operation. -/
def asPlace (k : MemKind) (x : Nat ⊕ Trap) : (Nat × MemKind) ⊕ Trap :=
  match x with
  | .inl pa => .inl (pa, k)
  | .inr t => .inr t

/-- An atomic's word or operand (spec/13 R225, R229). -/
def atomOperand (s : State) (l : Nat) (fp : Bool) (w64 : Bool) (o : Operand) : W64 :=
  if w64 then s.src64 l o else (s.src l (if fp then .fp32 else .int) o).setWidth 64

/-- Is B an FP32 source (spec/13 R229)? -/
def fpOperand (op : AtomOp) : Bool := op == .fadd || op == .aq64

/-- A fetching atomic's address: a read and a write must pass (spec/13 R230). -/
def fetchVa (s : State) (l n : Nat) (va : W64) : Nat ⊕ Trap :=
  match s.laneVa l .read n va with
  | .inr t => .inr t
  | .inl _ => s.laneVa l .write n va

/-- RED's address and its anchor (spec/13 R229). -/
def redVa (s : State) (l n : Nat) (aq : Bool) (va : W64) (anchor : Int) : Nat ⊕ Trap :=
  match s.laneVa l .write n va with
  | .inr t => .inr t
  | .inl pa => if aq ∧ ¬ (-128 ≤ anchor ∧ anchor ≤ 127) then .inr { code := 0x05 } else .inl pa

/-- The tile a handle operand names, as a lane reaches it. -/
def tileOf (s : State) (l : Nat) (a : Operand) : Nat := (s.tileBound (coreOf l) (handleOf a)).getD 0

/-- A place in a tile (spec/13 R228). -/
def inTile (s : State) (l : Nat) (a b : Operand) (n : Nat) (k : MemKind) : (Nat × MemKind) ⊕ Trap :=
  match s.tileVa l a b n with
  | .inl p => .inl (p.2, k)
  | .inr t => .inr t

/-- The scope of a release, and of an acquire. -/
def relOf (ord : AtomOrd) (scope : Scope) : Option Scope := if ord = .rel ∨ ord = .acqrel then some scope else none
def acqOf (ord : AtomOrd) (scope : Scope) : Option Scope := if ord = .acq ∨ ord = .acqrel then some scope else none

/-- The data of a store (spec/13 R227). -/
def storeData (s : State) (l : Nat) (size : MemSize) (b : Operand) : List Byte :=
  match size with
  | .b64 => toLe (s.src64 l b).toNat 8
  | .b128 => (s.srcRun l 4 b).flatMap fun w => toLe w.toNat 4
  | _ => toLe (s.src l .int b).toNat (bytesOf size)

/-- The memory instructions that count accesses of lanes (spec/13 R223, R224, R227 to R230, R240). -/
def accessOf (s : State) (i : Instr) : Option Access :=
  match i with
  | .ld g o disp acq size => some
    { lanes := s.exec g
      counters := [0]
      n := bytesOf size
      place := fun l => asPlace (.load o.d size acq) (s.laneVa l .read (bytesOf size) (effective s l o.a disp (bytesOf size)))
      va := fun l => effective s l o.a disp (bytesOf size)
      halves := size == .b128
      dst := some o.d }
  | .st g o disp rel size => some
    { lanes := s.execThreads g
      counters := [1]
      rel := rel
      n := bytesOf size
      place := fun l => asPlace .store (s.laneVa l .write (bytesOf size) (effective s l o.a disp (bytesOf size)))
      data := fun l => storeData s l size o.b
      va := fun l => effective s l o.a disp (bytesOf size)
      halves := size == .b128
      stamp := true }
  | .ldt g o size => some
    { lanes := s.exec g
      counters := [3]
      n := bytesOf size
      place := fun l => inTile s l o.a o.b (bytesOf size) (.tload (tileOf s l o.a) o.d size)
      dst := some o.d }
  | .stt g o size => some
    { lanes := s.execThreads g
      counters := [3]
      n := bytesOf size
      place := fun l => inTile s l o.a o.b (bytesOf size) (.tstore (tileOf s l o.a))
      data := fun l => storeData s l size o.c }
  | .atom g o scope ord w64 op => some
    { lanes := s.execThreads g
      counters := [0, 1]
      rel := relOf ord scope
      n := if w64 then 8 else 4
      place := fun l => asPlace (.atom op w64 (some o.d) (acqOf ord scope) (atomOperand s l (fpOperand op) w64 o.b) 0)
        (fetchVa s l (if w64 then 8 else 4) (s.src64 l o.a))
      va := fun l => s.src64 l o.a
      dst := some o.d
      combines := true }
  | .atomcas g o scope ord w64 => some
    { lanes := s.execThreads g
      counters := [0, 1]
      rel := relOf ord scope
      n := if w64 then 8 else 4
      place := fun l => asPlace
        (.cas w64 o.d (acqOf ord scope) (atomOperand s l false w64 o.b) (atomOperand s l false w64 o.c))
        (fetchVa s l (if w64 then 8 else 4) (s.src64 l o.a))
      va := fun l => s.src64 l o.a
      dst := some o.d
      combines := true }
  | .red g o scope rel w64 op => some
    { lanes := s.execThreads g
      counters := [1]
      rel := if rel then some scope else none
      n := if op = .aq64 then 16 else if w64 then 8 else 4
      place := fun l => asPlace
        (.atom op w64 none none (atomOperand s l (fpOperand op) w64 o.b) ((s.src l .int o.c).setWidth 64))
        (redVa s l (if op = .aq64 then 16 else if w64 then 8 else 4) (op == .aq64) (s.src64 l o.a) (s.src l .int o.c).toInt)
      va := fun l => s.src64 l o.a
      combines := true }
  | .flush g o => some
    { lanes := (s.execThreads g).filter fun l => s.src l .int o.b ≠ 0
      counters := [1]
      n := 0
      va := fun l => s.src64 l o.a
      len := fun l => (s.src l .int o.b).toNat
      place := fun l => match s.flushRanges l (pagePieces (s.src64 l o.a) (s.src l .int o.b).toNat) with
        | .inl rs => .inl (0, .flush rs)
        | .inr t => .inr t }
  | _ => none

/-- The accesses whose checks passed, and the faults of the others. -/
def passed (x : Access) : List (Nat × (Nat × MemKind)) := x.lanes.filterMap fun l =>
  match x.place l with
  | .inl p => some (l, p)
  | .inr _ => none
def failed (x : Access) : List (Nat × Trap) := x.lanes.filterMap fun l =>
  match x.place l with
  | .inl _ => none
  | .inr t => some (l, t)

/-- Nothing holds an instruction of some warps in its slot: no counter at 1,023 (spec/02 R37), no acquire under way
(R208), room for `n` more requests (spec/01 R15), the release done (R207). -/
def mayIssue (s : State) (ws counters : List Nat) (n : Nat) (rel : Option Scope) : Prop :=
  (∀ w ∈ ws, (∀ k ∈ counters, (s.warp w).counter k < 1023) ∧ s.acquireFree w = true) ∧
  s.outstanding s.curCore + n ≤ 1024 ∧
  ∀ sc, rel = some sc → s.group.released = true ∨ ∀ w ∈ ws, s.releaseReady w sc s.nextId = true

/-- A warp with some counters raised by one. -/
def raised (x : Warp) (counters : List Nat) : Warp :=
  { x with ldc := if 0 ∈ counters then x.ldc + 1 else x.ldc, stc := if 1 ∈ counters then x.stc + 1 else x.stc,
           mxc := if 2 ∈ counters then x.mxc + 1 else x.mxc, tlc := if 3 ∈ counters then x.tlc + 1 else x.tlc }

/-- Does a lane's value go to the destination: always but for an S register, which takes its warp's lowest thread's? -/
def receives (s : State) (x : Access) (l : Nat) : Bool :=
  match x.dst with
  | some (.s _) => ((passed x).map (·.1)).find? (fun k => !(s.lane k).helper && warpOf k == warpOf l) == some l
  | _ => true

/-- The operation of a passed lane, before it has a number. -/
def inFlight (s : State) (x : Access) (p : Nat × (Nat × MemKind)) : MemOp :=
  { id := 0, ins := 0, kind := p.2.2, lane := p.1, warp := warpOf p.1, core := coreOf p.1,
    launch := s.launchNum (coreOf p.1), pa := p.2.1, n := x.len p.1, va := x.va p.1, data := x.data p.1,
    writes := receives s x p.1, entered := if x.stamp then s.coreGt (coreOf p.1) else 0,
    here := s.faultHere { code := 0xF0 } }

/-- The kind of a half of a B128 access: the upper half of a load goes to the third register on. -/
def halfKind (upper : Bool) (k : MemKind) : MemKind :=
  match k with
  | .load d _ acq => .load (if upper then d.plus 2 else d) .b64 acq
  | k => k

/-- A passed lane's operations: one, or the two halves of a B128 access to memory. -/
def partsOf (s : State) (x : Access) (p : Nat × (Nat × MemKind)) : List MemOp :=
  let o := inFlight s x p
  if x.halves && isMemory o.pa then
    [{ o with kind := halfKind false o.kind, n := 8, data := o.data.take 8 },
     { o with kind := halfKind true o.kind, n := 8, data := o.data.drop 8, pa := o.pa + 8, va := o.va + 8, second := true }]
  else [o]

/-- Everything an issued access leaves: each passed lane's operations in flight, numbered in order, and the counters of
their warps raised by one; nothing else changes. -/
structure Accepted (s t : State) (x : Access) : Prop where
  rest : t = { s with warps := t.warps, ops := t.ops, nextId := t.nextId }
  number : t.nextId = s.nextId + 1 + ((passed x).flatMap (partsOf s x)).length
  ops : t.ops = s.ops ++ (((passed x).flatMap (partsOf s x)).zipIdx.map fun p =>
    { p.1 with id := s.nextId + 1 + p.2, ins := s.nextId })
  warp : ∀ w, t.warp w = if ∃ p ∈ passed x, warpOf p.1 = w then raised (s.warp w) x.counters else s.warp w

/-- Some new atomics as they join a combined group or begin their own, one after another (spec/12 R217). -/
def combinedFrom (s : State) (x : Access) (t : State) : State :=
  if x.combines then ((List.range (passed x).length).map fun k => s.nextId + 1 + k).foldl State.combine t else t

/-- Helpers that receive 0 from an atomic (R159, R229). -/
structure Zeroed (s t : State) (x : Access) (helpers : List Nat) : Prop where
  rest : onlyLanes s t
  lane : ∀ l, t.lane l = if l ∈ helpers then (s.lane l).put (x.dst.getD .none) (List.replicate (x.n / 4) 0) else s.lane l

/-- The helpers of a fetching atomic: executing lanes that receive 0. -/
def zeroed (s : State) (i : Instr) : List Nat :=
  match i with
  | .atom g _ _ _ _ _ => (s.exec g).filter fun l => (s.lane l).helper
  | .atomcas g _ _ _ _ => (s.exec g).filter fun l => (s.lane l).helper
  | _ => []

/-- A log after `n` nodes have been taken, and the handles taken. -/
def takeNodes (g : Log) : Nat → List Nat × Log
  | 0 => ([], g)
  | n + 1 =>
    let h := if g.freehead ≠ 0 then g.freehead else g.next
    let r := takeNodes (taken g) n
    (h :: r.1, r.2)

/-- The comparison of WAITW and PARK (spec/13 R232). -/
def waitHolds (cmp : WCmp) (word value : Nat) : Prop :=
  match cmp with
  | .eq => word = value | .ne => word ≠ value | .ge => word ≥ value | .gt => word > value | .le => word ≤ value
  | .lt => word < value

/-- Does an acquire at a scope by a core drop the copies of a cache (spec/12 R208)? -/
def dropped (s : State) (c : Nat) (sc : Scope) (k : CacheId) : Bool :=
  match sc, k with
  | .warp, _ => false
  | .block, .l1 x => x == c && s.blockCores c != [c]
  | _, .l1 x => x == c
  | .system, .l2 d => d == dieOf c
  | _, .l2 _ => false
  | _, .engine _ _ => false

/-- The byte a core's L1 reads where no store of the core lies over it: its own copy's under a lease, else its die's L2's
copy of a remote line, while it serves the core, else the home slice's (spec/12 R204). -/
def cachedByte (s : State) (c a : Nat) : Byte :=
  match s.copyOf (.l1 c) (a / 256) with
  | some x => Memory.read x.cells a
  | none =>
    if s.homeOf (a / 256 * 256) = dieOf c then Memory.read s.mem a
    else match s.copyOf (.l2 (dieOf c)) (a / 256) with
      | some x => if c ∈ x.notFor then Memory.read s.mem a else Memory.read x.cells a
      | none => Memory.read s.mem a

/-- The newest store of the core that lies over a byte for a reader: of its own warp, one issued before it; of another
warp, one that entered before every store its own warp issued after it (R203, R206). -/
def newestOver (s : State) (c w id a : Nat) : Option MemOp :=
  let lying := s.ops.filter fun o => o.kind == .store && !o.performed && o.core == c && decide (o.pa ≤ a ∧ a < o.pa + o.n)
  (lying.filter fun o => if o.warp = w then decide (o.id < id)
    else lying.all fun p => p.warp != w || p.id < id || o.id < p.id).getLast?

/-- The new word of an atomic (spec/13 R229). -/
def atomWord {n : Nat} (op : AtomOp) (f : Fmt) (w b r : BitVec n) : Prop :=
  match op with
  | .iadd => r = w + b
  | .exch => r = b
  | .imin => r.toInt = min w.toInt b.toInt
  | .imax => r.toInt = max w.toInt b.toInt
  | .umin => r.toNat = min w.toNat b.toNat
  | .umax => r.toNat = max w.toNat b.toNat
  | .and => r = w &&& b
  | .or => r = w ||| b
  | .xor => r = w ^^^ b
  | .fadd => r = BitVec.ofNat n ((exactSum .rne [decodeFmt f w.toNat, decodeFmt f b.toNat]).1.round f
      { rm := .rne, sat := false, ftzo := false } 0).1
  | .aq64 => True

/-- Everything but memory's bookkeeping and the lanes' sleep is as it was: what a write performed at home leaves. -/
structure WrittenAtHome (s t : State) (pa : Nat) (data : List Byte) : Prop where
  mem : ∀ a, Memory.read t.mem a = if canonPa pa ≤ a ∧ a < canonPa pa + data.length
    then data.getD (a - canonPa pa) 0 else Memory.read s.mem a
  lane : ∀ l, { t.lane l with status := (s.lane l).status } = s.lane l
  rest : t = { s with mem := t.mem, hbm := t.hbm, lanes := t.lanes, writes := t.writes, dirty := t.dirty,
                      copies := t.copies, ops := t.ops, launches := t.launches, dies := t.dies, images := t.images }

/-- Nothing but caches and the bookkeeping of memory errors differs. -/
def cachesOnly (s t : State) : Prop :=
  t = { s with copies := t.copies, granted := t.granted, hbm := t.hbm, dirty := t.dirty, upsets := t.upsets,
               errors := t.errors, dies := t.dies, rowTimes := t.rowTimes, repairRows := t.repairRows,
               freeCtr := t.freeCtr }

/-- Times that an operation of a warp has returned hold back the completion words and AMAX updates of the engine
operations that the warp issued after it (spec/11 R198, spec/12 R207, spec/14 R257); of cores and pairs nothing else
changes. -/
def heldBack (times : Tab Nat) (w id : Nat) (o : CopyOp) : CopyOp :=
  if o.org.warp = w ∧ id < o.id then
    { o with done := o.done.map fun d => { d with after := max d.after (tget 0 times d.scope.code) } }
  else o
def drainBack (times : Tab Nat) (w id : Nat) (d : DrainOp) : DrainOp :=
  if d.org.warp = w ∧ id < d.id then
    { d with after := match d.amax with
        | some a => Nat.max d.after (tget 0 times a.2.code)
        | none => d.after }
  else d
structure HeldBack (s t : State) (w id : Nat) (times : Tab Nat) : Prop where
  core : ∀ c, t.core c = if c = w / 128 then { s.core c with copy0 := (s.core c).copy0.map (heldBack times w id),
                                                             copy1 := (s.core c).copy1.map (heldBack times w id) } else s.core c
  pair : ∀ p, t.pair p = if p = w / 256 then { s.pair p with drains := (s.pair p).drains.map (drainBack times w id) } else s.pair p

/-- A value in an operation's destination: its lane's register, or its warp's, unless another lane's value goes there. -/
structure ValueIn (s m : State) (o : MemOp) (d : Operand) (vals : List W32) : Prop where
  rest : m = { s with lanes := m.lanes, warps := m.warps }
  lane : ∀ l, m.lane l = if l = o.lane ∧ o.writes = true then (s.lane l).put d vals else s.lane l
  warp : ∀ w, m.warp w = if w = o.warp ∧ o.writes = true then (s.warp w).put d vals else s.warp w

/-- What a value that has come back leaves: LDC lower by one when the warp's values of the instruction are all back, and
none of its stores that the value holds is unanswered; the times of the write observed; the copies that its acquire drops
gone (R206, R208), and at SYSTEM scope the generations that the word ends (R221). -/
structure ValueBound (m t : State) (o : MemOp) (acq : Option Scope) (times : Tab Nat) (awaits : List Nat) : Prop where
  mem : t.mem = m.mem ∧ t.lanes = m.lanes ∧ t.blocks = m.blocks ∧ t.tiles = m.tiles
  warp : ∀ w, w ≠ o.warp → t.warp w = m.warp w
  rest : { t.warp o.warp with ldc := (m.warp o.warp).ldc, owt := (m.warp o.warp).owt } = m.warp o.warp
  ldc : open Classical in (t.warp o.warp).ldc =
    if awaits = [] ∧ ∀ x ∈ m.ops, x.ins = o.ins → x.warp = o.warp → x.id ≠ o.id → x.loadDone = true
    then (m.warp o.warp).ldc - 1 else (m.warp o.warp).ldc
  owt : ∀ sc ∈ scopes, tget 0 times sc.code ≤ tget 0 (t.warp o.warp).owt sc.code
  later : HeldBack m t o.warp o.id times
  copies : t.copies = match acq with
    | some sc => m.copies.filter fun x => !dropped m o.core sc x.cache
    | none => m.copies
  generations : t.generations = if acq = some .system
    then m.generations.filter fun g => !meets g.2 8 (canonPa o.pa) o.n else m.generations

/-- The combined group of an atomic: itself, and what stands with it unperformed (spec/12 R217). -/
def members (s : State) (o : MemOp) : List MemOp :=
  s.ops.filter fun p => p.id == o.id || p.grp == o.grp && o.grp != 0 && !p.performed

/-- Is no member of an atomic's group held back: sent on, its line in no engine's hands, nothing of its warp before it
at its bytes but the group itself, and no load of its warp there that awaits a store (R203, R206, R210, R213, R216)? -/
def groupFree (s : State) (o : MemOp) : Prop := ∀ p ∈ members s o, p.sent = true ∧ isMemory p.pa = true ∧
  s.recalled p.warp p.id p.pa = false ∧ s.behind p.warp p.id p.pa p.n (fun q => q.grp != p.grp || q.grp == 0) = false ∧
  s.awaiting p.warp p.id p.pa p.n = false

/-- What performing an atomic at its home does: the operation's new word, or 16-byte cell, takes the old one's place, and
the old word is what returns; ATOMCAS stores C only where the word equals B bit for bit (R216, R229, R230). -/
def atomicDone (s : State) (o : MemOp) (t : State) : Prop :=
  let old := Memory.readBytes s.mem (canonPa o.pa) o.n
  (t.op o.id).map (·.data) = some old ∧ (t.op o.id).map (·.performed) = some true ∧
  match o.kind with
  | .atom .aq64 _ _ _ b c => o.n = 16 →
    let r := aqAdd (BitVec.ofNat 64 (leNat (old.take 8))) (BitVec.ofNat 64 (leNat (old.drop 8)))
      (decodeFmt .fp32 (b.setWidth 32).toNat) (c.setWidth 32).toInt
    WrittenAtHome s t o.pa (toLe r.1.toNat 8 ++ toLe r.2.toNat 8)
  | .atom op w64 _ _ b _ => o.n = (if w64 then 8 else 4) → ∃ new : List Byte, WrittenAtHome s t o.pa new ∧
      new.length = o.n ∧
      if w64 then atomWord op .fp64 (BitVec.ofNat 64 (leNat old)) b (BitVec.ofNat 64 (leNat new))
      else atomWord op .fp32 (BitVec.ofNat 32 (leNat old)) (b.setWidth 32) (BitVec.ofNat 32 (leNat new))
  | .cas w64 _ _ b c => o.n = (if w64 then 8 else 4) →
      let equal := if w64 then BitVec.ofNat 64 (leNat old) = b else BitVec.ofNat 32 (leNat old) = b.setWidth 32
      (equal → WrittenAtHome s t o.pa (toLe c.toNat o.n)) ∧ (¬ equal → t.mem = s.mem ∧ t.lanes = s.lanes)
  | _ => True

/-- Is the operation an atomic? -/
def isAtomic (k : MemKind) : Bool :=
  match k with
  | .atom _ _ _ _ _ _ => true
  | .cas _ _ _ _ _ => true
  | _ => false

end Sys2Proof.Claims

/-- spec/13 R223 to R230, R240, R389: LD, ST, LDT, STT, ATOM, ATOMCAS, RED and FLUSH issue when nothing holds them: each
acting lane whose checks pass has its access accepted, in order, counted once in its warp; each other one takes its
fault; nothing else changes. -/
def Sys2Proof.Claims.AccessesIssued : Prop :=
  open Sys2Proof.Claims in
  ∀ (i : Instr) (s : State) (x : Access), accessOf s i = some x →
    mayIssue s (warpsOf x.lanes) x.counters x.lanes.length x.rel →
    ∃ t u, exec i s = .next (u.trapEach (failed x)) ∧ Accepted s t x ∧ Zeroed (combinedFrom s x t) u x (zeroed s i)

/-- spec/12 R217: an atomic on its way joins a combined group of its own operation and word in its cluster, of its own
instruction in its warp or still held in the buffer, or begins its own group, which the buffer holds while it has fewer
than 256 entries; nothing else changes. Which atomics combine is the model's choice (log entry 60). -/
def Sys2Proof.Claims.AtomicsCombine : Prop :=
  open Sys2Proof.Claims in
  ∀ (s : State) (id : Nat) (o : MemOp), s.op id = some o → ∃ (grp : Nat) (sent : Bool),
    s.combine id = { s with ops := s.ops.map fun x => if x.id = id then { x with grp := grp, sent := sent } else x } ∧
    (grp = id + 1 ∧ (sent = false ↔ s.combining o.core < 256) ∨
      ∃ p ∈ s.ops, p.id < id ∧ p.grp = grp ∧ p.sent = sent ∧ p.performed = false ∧ p.pa = o.pa ∧ p.n = o.n ∧
        clusterOf p.core = clusterOf o.core ∧ (p.sent = false ∨ p.ins = o.ins ∧ p.warp = o.warp) ∧
        ((∃ op w64 a b c d a' b' c' d', o.kind = .atom op w64 a b c d ∧ p.kind = .atom op w64 a' b' c' d') ∨
          ∃ w64 a b c d a' b' c' d', o.kind = .cas w64 a b c d ∧ p.kind = .cas w64 a' b' c' d'))

/-- spec/16 R296: GLD issues as LD does, and takes a node in order for each lane whose address passed; with spill
nodes, a lone lane does once the page of its node's place is mapped. -/
def Sys2Proof.Claims.GuardedLoads : Prop :=
  open Sys2Proof.Claims in
  ∀ (s : State) (g : Guard) (o : Ops) (disp : BitVec 10) (f64 : Bool),
    let n := if f64 then 8 else 4
    let place := fun l => s.laneVa l .read n (effective s l o.a disp n)
    let good := (s.exec g).filter fun l => (place l).isLeft
    let log := s.log s.curCore
    mayIssue s (warpsOf (s.exec g)) [0] (s.exec g).length none → s.blockOf s.curCore ≠ none →
    log.next + good.length ≤ s.logLimit s.curCore →
    (∀ x, s.launchOf s.curCore = some x → x.nspill = 0) ∨
      good.length = 1 ∧ s.nodeMapped s.curCore (if log.freehead ≠ 0 then log.freehead else log.next) →
    ∃ t : State, exec (.gld g o disp f64) s = .next (t.trapEach ((s.exec g).filterMap fun l => (place l).getRight?.map fun e => (l, e))) ∧
      t = { s with warps := t.warps, ops := t.ops, nextId := t.nextId, blocks := t.blocks } ∧
      (∀ w, t.warp w = if ∃ l ∈ good, warpOf l = w then raised (s.warp w) [0] else s.warp w) ∧
      (t.log s.curCore).freehead = (takeNodes log good.length).2.freehead ∧
      (t.log s.curCore).next = (takeNodes log good.length).2.next ∧
      (t.log s.curCore).live = (takeNodes log good.length).2.live ∧
      (t.log s.curCore).pending = (takeNodes log good.length).2.pending ∧
      (∀ h, h < log.next → (t.log s.curCore).node h = log.node h) ∧
      t.ops = s.ops ++ (good.zipIdx.map fun p =>
        { id := s.nextId + 1 + p.2, ins := s.nextId, kind := .gload (gIndex o.d) f64 ((takeNodes log good.length).1.getD p.2 0),
          lane := p.1, warp := warpOf p.1, core := coreOf p.1, launch := s.launchNum (coreOf p.1),
          pa := (place p.1).getLeft?.getD 0, n := n, va := effective s p.1 o.a disp n, here := s.faultHere { code := 0xF0 } })

/-- spec/13 R226: the checks of an address in their order: canonical, aligned, translated, permitted; and what each page
permits (spec/24 R366); a sealed page takes no write (spec/12 R222, spec/23 R349). (That a seal holds against every
address space, and how long, is the model's, log entry 55.) -/
def Obligations.AddressChecks : Prop :=
  ∀ (s : State) (c capx align : Nat) (ask : Ask) (va : W64), align ∈ [1, 2, 4, 8, 16] →
    let write := ask = .write ∨ ask = .sys true
    let info := if write then 1 else 0
    let canon := va.toNat / 2 ^ 56 = 0 ∨ va.toNat / 2 ^ 56 = 255
    let page := (s.tlbFind c capx (va.toNat % 2 ^ 57)).orElse fun _ => s.walk capx (va.toNat % 2 ^ 57)
    let target := fun (e : W64) (k : Nat) => e.toNat / 256 % 2 ^ 44 * 256 + va.toNat % 2 ^ 57 % 2 ^ k
    let allowed : W64 → Nat → Prop := fun e pa => match ask with
      | .read => e.getLsbD 3 ∧ ¬ e.getLsbD 6
      | .write => e.getLsbD 4 ∧ ¬ e.getLsbD 5 ∧ ¬ e.getLsbD 6 ∧ ∀ x ∈ s.seals, x.page ≠ pa / 65536
      | .fetch => e.getLsbD 5 ∧ ¬ e.getLsbD 6
      | .sys w => if w then e.getLsbD 4 = true ∧ ∀ x ∈ s.seals, x.page ≠ pa / 65536 else e.getLsbD 3 = true
    open Classical in
    s.checkVa c capx ask align va =
      if ¬ canon then .inr { code := 0x12, addr := va, info := info }
      else if va.toNat % align ≠ 0 then .inr { code := 0x10, addr := va, info := align.log2 }
      else match page with
        | none => .inr { code := 0x11, addr := va, info := info }
        | some (e, k) => if allowed e (target e k) then .inl (target e k)
          else .inr { code := 0x12, addr := va, info := info }

/-- spec/12 R203, R204, R206: a load of memory within a line sees, byte by byte, the newest store of its core that lies
over it, else what its L1 reads; only the caches change, and the log where a code corrects what they fetch. -/
def Sys2Proof.Claims.LoadedBytes : Prop :=
  open Sys2Proof.Claims in
  ∀ (s : State) (c w id pa n i : Nat), pa + n ≤ Config.hbmBytes → pa % 256 + n ≤ 256 → i < n →
    cachesOnly s (s.readAs c w id pa n).1 ∧
    (s.readAs c w id pa n).2.bytes.getD i 0 = match newestOver s c w id (pa + i) with
      | some o => o.data.getD (pa + i - o.pa) 0
      | none => cachedByte s c (pa + i)

/-- spec/13 R227 to R230, spec/16 R296, spec/12 R206, R208, spec/02 R37: LOAD_RESPONSE writes the value of a load, extended as
SIZE says, or an atomic's old word, and the warp observes the write it reflects; LDC falls when every value of the
instruction in the warp has returned. A GLD's value makes its leaf, or gives the handle back, empties the register and
sets INVALID where it is no finite number. An LDT's value comes from its tile, and TLC falls. -/
def Sys2Proof.Claims.ReturningLoads : Prop :=
  open Sys2Proof.Claims in
  (∀ (id : Nat) (s : State) (o : MemOp), s.op id = some o → o.returned = false → s.upsets = [] →
    (∀ x ∈ s.copies, x.fails = []) → (s.lane o.lane).status ≠ .retired → o.warp = warpOf o.lane →
    (∀ d size acq, o.kind = .load d size acq → s.loadReady o → ∃ m t : State,
      let r := s.readAs o.core o.warp o.id o.pa o.n
      exec (.loadResponse id) s = .next t ∧ ValueIn r.1 m o d (loadWords size r.2.bytes) ∧
        ValueBound m t o acq (m.timesOf o.core r.2.recs) r.2.awaits) ∧
    (∀ op w64 d acq b c, (o.kind = .atom op w64 (some d) acq b c ∨ o.kind = .cas w64 d acq b c) → o.performed = true →
      ∃ m t : State, exec (.loadResponse id) s = .next t ∧
        ValueIn s m o d (loadWords (if w64 then .b64 else .b32) o.data) ∧ ValueBound m t o acq o.seen []) ∧
    (∀ d f64 h, o.kind = .gload d f64 h → s.loadReady o → ∃ u w t : State,
      let r := s.readAs o.core o.warp o.id o.pa o.n
      let bits := leNat r.2.bytes
      let v := decodeFmt (if f64 then .fp64 else .fp32) bits
      let node : Node := { op := if f64 then 2 else 1, ref := 1, val := BitVec.ofNat 64 (if f64 then bits else bits * 2 ^ 32) }
      exec (.loadResponse id) s = .next t ∧ ValueBound w t o none (w.timesOf o.core r.2.recs) r.2.awaits ∧
        (v.isFin → u = r.1.modLog (coreOf o.lane) (fun x => x.setNode h node) ∧
          GuardWritten u w o.lane d { lo := boundBits .rd v, hi := boundBits .ru v, handle := BitVec.ofNat 24 h, leaf := true,
                                      point := boundBits .rd v == boundBits .ru v }) ∧
        (¬ v.isFin → ∃ x : State, u = r.1.modLog (coreOf o.lane) (fun y => y.release h) ∧ GuardWritten u x o.lane d {} ∧
          onlyLanes x w ∧ ∀ k, w.lane k = if k = o.lane then { x.lane k with gstat := (x.lane k).gstat ||| 1 } else x.lane k)) ∧
    (∀ k d size, o.kind = .tload k d size → s.tileHeld k o.warp o.id o.pa o.n = false → (s.tile k).freeing = false →
      ∃ m t : State, exec (.loadResponse id) s = .next t ∧ ValueIn s m o d (loadWords size ((s.tile k).read o.pa o.n)) ∧
        t = { m with warps := t.warps, ops := t.ops } ∧ (∀ w, w ≠ o.warp → t.warp w = m.warp w) ∧
        open Classical in t.warp o.warp = { m.warp o.warp with tlc :=
          if ∀ x ∈ m.ops, x.ins = o.ins → x.warp = o.warp → x.id ≠ o.id → x.tileDone = true then (m.warp o.warp).tlc - 1
          else (m.warp o.warp).tlc })) ∧
  (∀ b0 b1 b2 b3 b4 b5 b6 b7 : Byte,
    loadWords .u8 [b0] = [b0.setWidth 32] ∧ loadWords .s8 [b0] = [b0.signExtend 32] ∧
    loadWords .u16 [b0, b1] = [(b1 ++ b0).setWidth 32] ∧ loadWords .s16 [b0, b1] = [(b1 ++ b0 : BitVec 16).signExtend 32] ∧
    loadWords .b32 [b0, b1, b2, b3] = [b3 ++ b2 ++ b1 ++ b0] ∧
    loadWords .b64 [b0, b1, b2, b3, b4, b5, b6, b7] = [b3 ++ b2 ++ b1 ++ b0, b7 ++ b6 ++ b5 ++ b4])

/-- spec/12 R203, R205, R206: WRITE_PERFORMED puts a store's bytes in place, and every other byte stays; the response
then lowers STC, and the warp's times, with the completion words and AMAX updates of the engine operations it issued
later, are no earlier than those of the write. -/
def Sys2Proof.Claims.StoresPerformed : Prop :=
  open Sys2Proof.Claims in
  (∀ (id : Nat) (s : State) (o : MemOp), s.op id = some o → o.kind = .store → o.performed = false → s.storeReady o →
    s.upsets = [] → isMemory o.pa → ∃ t, exec (.writePerformed id) s = .next t ∧
      WrittenAtHome s t o.pa o.data ∧ (t.op id).map (·.performed) = some true ∧ t.warps = s.warps) ∧
  (∀ (id : Nat) (s : State) (o : MemOp), s.op id = some o → o.kind = .store → o.performed = true → o.answered = false →
    (∃ l ∈ s.warpLanes o.warp, (s.lane l).status ≠ .retired) → ∃ t, exec (.writeCompletionResponse id) s = .next t ∧
      t.mem = s.mem ∧ t.lanes = s.lanes ∧
      ((∀ x ∈ s.ops, x.id ≠ o.id → x.ins = o.ins → x.warp = o.warp → x.storeDone = true) →
        (t.warp o.warp).stc = (s.warp o.warp).stc - 1) ∧
      (∀ sc ∈ scopes, tget 0 o.times sc.code ≤ tget 0 (t.warp o.warp).swt sc.code) ∧
      (∀ x ∈ (t.core (o.warp / 128)).copy0 ++ (t.core (o.warp / 128)).copy1, x.org.warp = o.warp → o.id < x.id →
        ∀ d, x.done = some d → tget 0 o.times d.scope.code ≤ d.after) ∧
      ∀ d ∈ (t.pair (o.warp / 256)).drains, d.org.warp = o.warp → o.id < d.id → ∀ a, d.amax = some a →
        tget 0 o.times a.2.code ≤ d.after)

/-- spec/13 R229, R230, spec/12 R216, R217: ATOMIC_PERFORMED performs a combined group, its members one after another,
each on what the one before it left; an atomic alone is a group of itself. -/
def Sys2Proof.Claims.AtomicsPerformed : Prop :=
  open Sys2Proof.Claims in
  ∀ (id : Nat) (s : State) (o : MemOp), (s.ops.map (·.id)).Nodup → s.op id = some o → isAtomic o.kind →
    o.performed = false → s.upsets = [] → groupFree s o → (∀ p ∈ members s o, isAtomic p.kind) →
    ∃ t, exec (.atomicPerformed id) s = .next t ∧
      OneByOne (fun u k v => ∀ p, s.op k = some p → atomicDone u p v) s ((members s o).map (·.id)) t

/-- spec/12 R207 to R209, spec/13 R231, R232, R239: FENCE, once its release is done, acquires at its scope, and no
register changes; WAITW in its clause's last slot lets a lane go on whose word holds, acquiring, and puts every other
thread to sleep; a group of helpers goes on at once; PREF changes nothing but caches. -/
def Obligations.FencesWaitsAndPrefetches : Prop :=
  open Sys2Proof.Claims in
  (∀ (s : State) (g : Guard) (o : Ops) (sc : Scope), mayIssue s (warpsOf (s.exec g)) [] 0 (some sc) →
    exec (.fence g o sc) s = .next (if s.exec g = [] then s
      else s.acquire s.curCore sc)) ∧
  (∀ (s : State) (c : Nat) (sc : Scope), s.acquire c sc = { s with copies := s.copies.filter fun x => !dropped s c sc x.cache }) ∧
  (∀ (s : State) (g : Guard) (o : Ops) (sc : Scope) (w64 : Bool) (cmp : WCmp), s.lastSlot o →
    (∀ l ∈ s.execThreads g, s.acquireFree (warpOf l) ∧ ∃ r, s.waitWord l o w64 = .inl r ∧ s.wordHeld l w64 r = false) →
    ∃ t, exec (.waitw g o sc w64 cmp) s = .next t ∧ OneByOne (fun s' l t =>
      let value := if w64 then s.src64 l o.b else (s.src l .int o.b).setWidth 64
      match s.waitWord l o w64 with
      | .inr _ => False
      | .inl (.mem pa) =>
        let r := s'.readAs (coreOf l) (warpOf l) s'.nextId pa (if w64 then 8 else 4)
        (waitHolds cmp (leNat r.2.bytes) value.toNat → t = (r.1.modWarp (warpOf l) fun x =>
          { x with owt := laterTimes x.owt (r.1.timesOf (coreOf l) r.2.recs) }).acquireWord (coreOf l) sc pa
            (if w64 then 8 else 4)) ∧
        (¬ waitHolds cmp (leNat r.2.bytes) value.toNat →
          (∃ watched w, (t.lane l).status = .asleepWaitw watched w ∧ w.word = .mem pa ∧ w.cmp = cmp ∧ w.value = value ∧
            w.scope = sc ∧ w.next = nextClause s.group.pc s.group.header) ∧
          t = { r.1 with lanes := t.lanes, groups := t.groups } ∧
          ∀ k, k ≠ l → t.lane k = s'.lane k)
      | .inl (.tile k e) =>
        (waitHolds cmp ((s'.tile k).elem e) value.toNat → t = s'.acquire (coreOf l) sc) ∧
        (¬ waitHolds cmp ((s'.tile k).elem e) value.toNat →
          (∃ watched w, (t.lane l).status = .asleepWaitw watched w ∧ w.word = .tile k e ∧ w.cmp = cmp ∧ w.value = value ∧
            w.scope = sc ∧ w.next = nextClause s.group.pc s.group.header) ∧
          t = { s' with lanes := t.lanes, groups := t.groups } ∧
          ∀ k, k ≠ l → t.lane k = s'.lane k)) s (s.execThreads g) t) ∧
  (∀ (s : State) (g : Guard) (o : Ops) (disp : BitVec 10) (l2 : Bool), ∃ t, exec (.pref g o disp l2) s = .next t ∧
    cachesOnly s t)

/-- spec/13: what a memory instruction sends on its way, a guarded load among them. (Which atomics join one group is the
model's reading, log entry 60.) -/
def Obligations.MemoryAccesses : Prop :=
  Claims.AccessesIssued ∧ Claims.AtomicsCombine ∧ Claims.GuardedLoads

/-- spec/12, spec/13 R227 to R230, spec/16 R296: the values of loads, guarded loads, tile loads and atomics return, and what a
load's bytes make. (That a load binds and returns in one step, and that data whose code fails poisons its register, are
the model's readings, log entries 15 and 23.) -/
def Obligations.LoadsReturn : Prop :=
  Claims.ReturningLoads ∧ Claims.LoadedBytes

/-- spec/12 R205, spec/13 R228, R229: stores and atomics at their home slice. (That a failing ATOMCAS is no write is the
model's reading, log entry 19.) -/
def Obligations.WritesPerformed : Prop :=
  Claims.StoresPerformed ∧ Claims.AtomicsPerformed

/-! ## Tiles, copies, the matrix engine and the tile unit (spec/11, spec/13 to spec/15) -/

namespace Sys2Proof.Claims

/-- The part of a group that a warp's lane acts for: the warp's executing threads. -/
def warpPart (s : State) (g : Guard) (l : Nat) : List Nat := (s.execThreads g).filter fun x => warpOf x == warpOf l

/-- The lanes that act for their warps: each warp's lowest executing thread (spec/13 R224). -/
def perWarpLanes (s : State) (g : Guard) : List Nat :=
  (s.execThreads g).filter fun l => (s.execThreads g).find? (fun x => warpOf x == warpOf l) == some l

/-- Are the executing threads in order of warp and home lane, each once (spec/02 R22)? -/
def ordered (s : State) (g : Guard) : Prop := (s.execThreads g).Pairwise (· < ·)

/-- May no warp of the acting lanes wait: none of its counters full, no acquire under way? -/
def warpsFree (s : State) (ls : List Nat) (counter : Nat) : Prop :=
  ∀ l ∈ ls, (s.warp (warpOf l)).counter counter + ls.length ≤ 1023 ∧ s.acquireFree (warpOf l) = true

/-- What an operation keeps of the lane that supplies its operands (spec/13 R391, spec/03 R54). -/
def from_ (s : State) (l : Nat) : Origin :=
  { lane := l, warp := warpOf l, core := coreOf l, launch := ((s.core (coreOf l)).launch).getD 0, pc := s.group.pc,
    slot := s.group.slot, cls := s.group.header.toNat / 2 ^ 56 % 16, word := s.group.word,
    mode := (s.warp (warpOf l)).mode, seed := (s.warp (warpOf l)).seed, gtid := s.gtid l, rsctr := (s.lane l).rsctr }

/-- An operation queued: it took the next number, one counter of its warp rose, and nothing else changed but what `units`
says. -/
structure Queued (s t : State) (l counter : Nat) (units : State) : Prop where
  rest : t = { units with warps := t.warps, nextId := s.nextId + 1 }
  warp : ∀ w, t.warp w = if w = warpOf l then raised (s.warp w) [counter] else s.warp w

/-- Room in a queue of a core's buffer pool for `n` entries more (spec/11 R200, R201): within its minimum, or within its
cap while the other queues' minimums stay free. -/
def poolRoom (s : State) (c q n : Nat) : Prop :=
  s.poolCount c q + n ≤ s.poolCap c q ∧
  (s.poolCount c q + n ≤ s.poolMin c q ∨
    ((List.range 20).map (s.poolCount c)).sum +
      ((List.range 20).map fun j => if j = q then 0 else s.poolMin c j - s.poolCount c j).sum + n ≤ 4096)

/-- Does no piece of memory stand in a sealed page (spec/12 R222)? -/
def unsealed (s : State) (c : Nat) (ps : List Piece) : Prop :=
  ∀ p ∈ ps, ∀ pa, s.translate c (s.capxOf c) (.sys false) (BitVec.ofNat 64 (p.bit / 8)) = .ok pa →
    ∀ x ∈ s.seals, x.page ≠ pa / 65536

/-- A copy command whose checks pass (spec/13 R233, R235, R237, spec/20 R323): its record, its window, its tile, its
completion word. -/
structure CopyChecked (s : State) (l : Nat) (kind : CopyKind) (o : Ops) (scope : Scope) (w64 : Bool) (ly : Layout)
    (org : List Int) (list : W64) (n rows k : Nat) (done : Option Completion) : Prop where
  record : parseRecord (s.srcRun l 24 o.a) (kind == .gather || kind == .scatter) o.a.code.toNat = .inl ly
  window : s.windowOf l kind o.b ly = .inl (org, list, n, rows)
  bound : s.tileBound (coreOf l) (handleOf o.d) = some k
  shape : (s.tile k).fmt = ly.fmt ∧ (s.tile k).cols = ly.cols ∧ (s.tile k).rows = rows
  banks : (s.tile k).imode = ly.imode ∧ (s.tile k).igran = ly.igran
  word : s.completionOf l o.c w64 scope = .inl done
  unsealed : unsealed s (coreOf l) (destsLeft (CopyOp.dests
    { id := 0, kind := kind, org := from_ s l, tile := k, record := s.srcRun l 24 o.a, origin := org, index := list,
      count := n, done := done } (s.tile k)))

/-- The copy instructions: guard, operands, scope, width of the word, engine, kind. -/
def copyRule (i : Instr) : Option (Guard × Ops × Scope × Bool × Bool × CopyKind) :=
  match i with
  | .copy g o sc w64 eng store => some (g, o, sc, w64, eng, if store then .store else .load)
  | .gather g o sc w64 => some (g, o, sc, w64, false, .gather)
  | .scatter g o sc w64 => some (g, o, sc, w64, false, .scatter)
  | _ => none

/-- A tile operation (spec/15 R266, R268 to R272): guard, D, A, B, the operation and the scalar as a lane reads them, and
the rounding mode. -/
structure TileRule where
  g : Guard
  d : Operand
  a : Operand
  b : Option Operand := none
  op : TOp
  scalar : Nat → W32 := fun _ => 0
  rm : Rm := .mode

def tileRule (s : State) (l : Nat) (i : Instr) : Option TileRule :=
  match i with
  | .tadd g o rm => some { g, d := o.d, a := o.a, b := some o.b, op := .add, rm }
  | .tscale g o rm => some { g, d := o.d, a := o.a, op := .scale, scalar := fun l => s.src l .fp32 o.b, rm }
  | .taxpy g o rm => some { g, d := o.d, a := o.a, b := some o.b, op := .axpy, scalar := fun l => s.src l .fp32 o.c, rm }
  | .tact g o fn rm => some { g, d := o.d, a := o.a, op := .act fn, rm }
  | .tmul g o rm => some { g, d := o.d, a := o.a, b := some o.b, op := .mul, rm }
  | .trowred g o max rm => some { g, d := o.d, a := o.a, op := .rowred max, rm }
  | .hfwd g o lev rm => some { g, d := o.d, a := o.a, op := .fwd (lev.val + 1), rm }
  | .hinv g o lev rm => some { g, d := o.d, a := o.a, op := .inv (lev.val + 1), rm }
  | .hthr g o th => some { g, d := o.d, a := o.a, op := .thr th.val (tget 0 (s.warp (warpOf l)).th th.val) }
  | .tnorm g o rm => some { g, d := o.d, a := o.a, op := .norm, scalar := fun l => s.src l .fp32 o.b, rm }
  | .tcvt g o fmt rm => some { g, d := o.d, a := o.a, op := .cvt fmt, rm }
  | _ => none

/-- Do the formats and shapes suit the operation (spec/15 R266)? Codes 0 to 6 are the floating formats. -/
def tilesFit (op : TOp) (d a : Tile) (b : Option Tile) : Prop :=
  (∀ x ∈ a :: b.toList, x.fmt.code ≤ 6 ∧ x.rows = d.rows ∧ (if op.isRowred then d.cols = 1 else x.cols = d.cols)) ∧
  match op with
  | .cvt f => d.fmt = f ∧ f.code ≤ 9
  | .thr _ _ => d.fmt = a.fmt
  | .fwd l => d.fmt.code ≤ 6 ∧ 2 ^ l ∣ d.rows
  | _ => d.fmt.code ≤ 6

/-- Rows `a` to `a + n − 1` lie in a warp's window, and in the pair's 2,048 rows (spec/11 R196, spec/14 R250). -/
def inWindow (s : State) (l a n : Nat) : Prop :=
  let w := (s.warp (warpOf l)).acwin.toNat
  w % 2048 ≤ a ∧ a + n ≤ w / 2 ^ 16 % 4096 ∧ a + n ≤ 2048

/-- A drain whose checks pass (spec/14 R254): destination and Haar levels. -/
structure DrainChecked (s : State) (l : Nat) (o : Ops) (amax : Option Scope) (haar : Bool) (fmt : Fmt) (first n : Nat)
    (dest : DrainDest) (hw : Option (Nat × Nat)) : Prop where
  rowWord : (s.src l .int o.a).toNat = first + (n - 1) * 2 ^ 16
  rows : 0 < n ∧ n ≤ 2048 ∧ first + n ≤ 2048
  window : inWindow s l first n
  format : fmt.code ≤ 6
  word : amax ≠ none → (s.src64 l o.b).toNat % 4 = 0
  tree : if haar then
      (∃ h, o.d = .t h) ∧ ∃ lev k, hw = some (lev, k) ∧ 1 ≤ lev ∧ lev ≤ 6 ∧ k < 4 ∧ 2 ^ lev ∣ n ∧
        (s.src l .int o.c).toNat = lev + 16 * k
    else hw = none
  dest : match o.d with
    | .t h => ∃ k, s.tileBound (coreOf l) h.val = some k ∧ (s.tile k).cols = 64 ∧ (s.tile k).rows = n ∧
        (s.tile k).fmt = fmt ∧ dest = .tile k
    | _ => fmt.code ≤ 4 ∧ (s.src64 l o.d).toNat % 64 = 0 ∧ dest = .mem (s.src64 l o.d) ∧
      unsealed s (coreOf l) ((List.range (64 * n)).map fun e =>
        ⟨bitAddr (8 * ((s.src64 l o.d).toNat + fmt.width / 8 * e : Nat)), fmt.width, 0⟩)

/-- A FEED whose checks pass (spec/13 R238). -/
structure FeedChecked (s : State) (l : Nat) (o : Ops) (tr : Bool) (f : Fifo) (k first n : Nat) : Prop where
  bound : s.tileBound (coreOf l) (handleOf o.a) = some k
  start : (s.src l .int o.b).toNat = first
  count : (s.src l .int o.c).toNat = n ∧ 0 < n
  inside : first + n ≤ if tr then (s.tile k).cols else (s.tile k).rows
  words : f = .m → (s.tile k).fmt = .int32 ∨ (s.tile k).fmt = .uint32

/-- Half bytes that a FEED of `n` rows, or columns, of a tile appends (spec/14 R246). -/
def appended (t : Tile) (tr : Bool) (n : Nat) : Nat := n * (if tr then t.rows else t.cols) * elemNibbles t.fmt

/-- The rows that a core's block owns in its pair (spec/11 R195). -/
def ownRows (s : State) (c : Nat) : Nat × Nat :=
  if s.wholeEngine c then (0, 2048) else if s.leader c % 2 = 0 then (0, 1024) else (1024, 2048)

/-- Two pieces of tile memory meet on a core. -/
def overlap (a n b m : Nat) : Prop := a < b + m ∧ b < a + n

end Sys2Proof.Claims

/-- spec/11 R200, R201, spec/13 R224, R233 to R237, spec/20 R323: COPY, GATHER and SCATTER act once for each warp, in
order: a command whose checks pass and that its buffer pool has room for joins its engine's queue with every operand it
read, and counts in TLC; nothing else changes. (That a lane's check faults the supplying lane alone is the model's
reading, log entry 30; an engine does not advance RSCTR, log entry 61.) -/
def Obligations.CopyCommands : Prop :=
  open Sys2Proof.Claims in
  ∀ (i : Instr) (s : State) (g : Guard) (o : Ops) (sc : Scope) (w64 eng : Bool) (kind : CopyKind),
    copyRule i = some (g, o, sc, w64, eng, kind) → ordered s g → warpsFree s (perWarpLanes s g) 3 →
    (∀ l ∈ perWarpLanes s g, poolRoom s (coreOf l) (if eng then 18 else 17) (perWarpLanes s g).length ∧
      ∃ ly org list n rows k done, CopyChecked s l kind o sc w64 ly org list n rows k done) →
    ∃ t, exec i s = .next t ∧ InTurn (fun s' l t => ∃ ly org list n rows k done,
      CopyChecked s l kind o sc w64 ly org list n rows k done ∧
      let op : CopyOp := { id := s'.nextId, kind := kind, org := from_ s l, tile := k, record := s.srcRun l 24 o.a,
                           origin := org, index := list, count := n, done := done }
      Queued s' t l 3 (s'.modCore (coreOf l) fun x =>
        if eng then { x with copy1 := x.copy1 ++ [op] } else { x with copy0 := x.copy0 ++ [op] }))
      (warpPart s g) s (perWarpLanes s g) t

/-- spec/15 R266: the tile operations act once for each warp, in order: one whose tiles are bound, of formats and shapes
that suit it, joins the tile unit's queue with its scalar and counts in TLC; nothing else changes. -/
def Sys2Proof.Claims.TileUnitCommands : Prop :=
  open Sys2Proof.Claims in
  ∀ (i : Instr) (s : State) (r0 : TileRule), tileRule s 0 i = some r0 → ordered s r0.g →
    warpsFree s (perWarpLanes s r0.g) 3 →
    (∀ l ∈ perWarpLanes s r0.g, ∀ r, tileRule s l i = some r →
      (∀ x ∈ r.d :: r.a :: r.b.toList, s.tileBound (coreOf l) (handleOf x) ≠ none) ∧
      tilesFit r.op (s.tile (tileOf s l r.d)) (s.tile (tileOf s l r.a)) (r.b.map fun x => s.tile (tileOf s l x))) →
    ∃ t, exec i s = .next t ∧ InTurn (fun s' l t => ∃ r, tileRule s l i = some r ∧
      Queued s' t l 3 (s'.modCore (coreOf l) fun x => { x with tileOps := x.tileOps ++
        [{ id := s'.nextId, op := r.op, org := from_ s l, d := tileOf s l r.d, a := tileOf s l r.a,
           b := r.b.map (tileOf s l), scalar := r.scalar l, rm := r.rm }] }))
      (warpPart s r0.g) s (perWarpLanes s r0.g) t

/-- spec/13 R238, spec/14 R245, R250, R254: FEED and MXDRAIN, once for each warp, and MMA and MMAQ, once for each
executing thread, in order, join their queues when their checks pass and there is room; nothing else changes. -/
def Sys2Proof.Claims.MatrixCommands : Prop :=
  open Sys2Proof.Claims in
  (∀ (s : State) (g : Guard) (o : Ops) (grp : Option GroupSize) (fa fb : Fmt) (i : Instr),
    (i = .mma g o fa fb ∧ grp = none ∨ ∃ q, i = .mmaq g o q fa fb ∧ grp = some q) →
    (∀ l ∈ s.execThreads g, inWindow s l (s.src l .int o.a).toNat 64 ∧
      (s.pair (pairOf (coreOf l))).queue.length + (s.execThreads g).length ≤ 32 ∧
      (s.warp (warpOf l)).mxc + (s.execThreads g).length ≤ 1023) →
    ∃ t, exec i s = .next t ∧ InTurn (fun s' l t =>
      Queued s' t l 2 (s'.modPair (pairOf (coreOf l)) fun p => { p with queue := p.queue ++
        [{ id := s'.nextId, org := from_ s l, fa := fa, fb := fb, grp := grp, row := (s.src l .int o.a).toNat,
           stream := s.leader (coreOf l) % 2 }] })) (fun l => [l]) s (s.execThreads g) t) ∧
  (∀ (s : State) (g : Guard) (o : Ops) (amax : Option Scope) (add haar : Bool) (fmt : Fmt) (rm : Rm), ordered s g →
    warpsFree s (perWarpLanes s g) 2 →
    (∀ l ∈ perWarpLanes s g, ∃ first n dest hw, DrainChecked s l o amax haar fmt first n dest hw) →
    ∃ t, exec (.mxdrain g o amax add haar fmt rm) s = .next t ∧ InTurn (fun s' l t => ∃ first n dest hw,
      DrainChecked s l o amax haar fmt first n dest hw ∧
      Queued s' t l 2 (s'.modPair (pairOf (coreOf l)) fun p => { p with drains := p.drains ++
        [{ id := s'.nextId, org := from_ s l, first := first, n := n, dest := dest, add := add,
           haar := hw.map fun x => (x.1, x.2, tget 0 (s.warp (warpOf l)).th x.2), fmt := fmt, rm := rm,
           amax := amax.map fun sc => (s.src64 l o.b, sc),
           after := (amax.map fun sc =>
             max (tget 0 (s.warp (warpOf l)).swt sc.code) (tget 0 (s.warp (warpOf l)).owt sc.code)).getD 0 }] }))
      (warpPart s g) s (perWarpLanes s g) t) ∧
  (∀ (s : State) (g : Guard) (o : Ops) (tr : Bool) (f : Fifo), ordered s g → warpsFree s (perWarpLanes s g) 3 →
    (∀ l ∈ perWarpLanes s g, ∃ k first n, FeedChecked s l o tr f k first n ∧
      s.fifoUsed (pairOf (coreOf l)) (s.leader (coreOf l) % 2) f +
        ((perWarpLanes s g).map fun x => appended (s.tile (tileOf s x o.a)) tr (s.src x .int o.c).toNat).sum
        ≤ 2 * s.fifoBytes (coreOf l) f) →
    ∃ t, exec (.feed g o tr f) s = .next t ∧ InTurn (fun s' l t => ∃ k first n, FeedChecked s l o tr f k first n ∧
      Queued s' t l 3 { s' with feeds := s'.feeds ++
        [{ id := s'.nextId, org := from_ s l, tile := k, stream := s.leader (coreOf l) % 2, fifo := f, tr := tr,
           first := first, count := n }] }) (warpPart s g) s (perWarpLanes s g) t)

/-- spec/11 R195, R196, spec/14 R251 to R253: MXWIN lets the block leader alone grant windows inside the block's rows;
MXZERO clears whole rows in the window; MXLD and MXST move single elements, of column u(B) mod 64; no other element and
nothing else changes, but that storage errors go with a granule replaced whole (spec/26 R372). That a row beyond 2,047 is
outside every window here too is the model's reading (log entry 68). -/
def Obligations.Accumulators : Prop :=
  open Sys2Proof.Claims in
  (∀ (s : State) (g : Guard) (o : Ops), ∃ t, exec (.mxwin g o) s = .next t ∧ OneByOne (fun s' l t =>
    let c := coreOf l
    let w := (s'.src l .int o.a).toNat
    let base := (s'.src l .int o.b).toNat
    let lim := (s'.src l .int o.c).toNat
    let warp := s'.blockWarp c w
    if l ≠ s'.leader c * 4096 then t = s'.trap l { code := 0x15, info := 0xFFFF }
    else if 128 ≤ w ∨ s'.warpLanes warp = [] ∨ 2047 < base ∨ 2048 < lim then t = s'.trap l { code := 0x05 }
    else if lim ≤ base ∨ (ownRows s' c).1 ≤ base ∧ lim ≤ (ownRows s' c).2 then
      t = { s' with warps := t.warps } ∧
      ∀ x, t.warp x = if x = warp then { s'.warp x with acwin := BitVec.ofNat 32 (lim * 2 ^ 16 + base) } else s'.warp x
    else ∃ r, t = s'.trap l { code := 0x15, info := r } ∧ base ≤ r ∧ r < lim ∧
      (r < (ownRows s' c).1 ∨ (ownRows s' c).2 ≤ r)) s (s.execThreads g) t) ∧
  (∀ (s : State) (g : Guard) (o : Ops), ordered s g →
    (∀ l ∈ perWarpLanes s g, let a := (s.src l .int o.a).toNat; let n := (s.src l .int o.b).toNat
      1 ≤ n ∧ n ≤ 2048 ∧ inWindow s l a n ∧ s.mmaMeets (warpOf l) s.nextId a n = false ∧
        s.drainMeets (warpOf l) a n = false) →
    ∃ t, exec (.mxzero g o) s = .next t ∧ InTurn (fun s' l t =>
      let a := (s.src l .int o.a).toNat
      let n := (s.src l .int o.b).toNat
      t = { s' with pairs := t.pairs, upsets := s'.upsets.filter fun u => !accSite (pairOf (coreOf l)) a n u.site } ∧
      ∀ p row col, col < 64 →
        tget 0 (t.pair p).acc (row * 64 + col) = if p = pairOf (coreOf l) ∧ a ≤ row ∧ row < a + n then 0
          else tget 0 (s'.pair p).acc (row * 64 + col)) (warpPart s g) s (perWarpLanes s g) t) ∧
  (∀ (s : State) (g : Guard) (o : Ops),
    (∀ l ∈ s.exec g, inWindow s l (s.src l .int o.a).toNat 1 ∧
      s.mmaMeets (warpOf l) s.nextId (s.src l .int o.a).toNat 1 = false) →
    let key := fun l => (s.src l .int o.a).toNat * 64 + (s.src l .int o.b).toNat % 64
    (∃ t, exec (.mxld g o) s = .next t ∧ Result s t g o.d
      (fun l => [tget 0 (s.pair (pairOf (coreOf l))).acc (key l)]) (fun _ => 0) (fun _ => false)) ∧
    ∃ t, exec (.mxst g o) s = .next t ∧ t = { s with pairs := t.pairs, upsets := t.upsets } ∧
      (∀ u ∈ t.upsets, u ∈ s.upsets) ∧
      (∀ u ∈ s.upsets, u ∉ t.upsets → ∃ p r c, u.site = .acc p r c ∧ ∀ j ∈ [c, c + 1], ∃ l ∈ s.execThreads g,
        pairOf (coreOf l) = p ∧ key l = r * 64 + j % 64) ∧ ∀ p k, tget 0 (t.pair p).acc k =
      match (s.execThreads g).reverse.find? fun l => pairOf (coreOf l) == p && key l == k with
      | some l => s.src l .fp32 o.c
      | none => tget 0 (s.pair p).acc k) ∧
  (∀ (s : State) (g : Guard) (o : Ops) (l : Nat), s.exec g = [l] → (s.lane l).helper = false →
    ¬ inWindow s l (s.src l .int o.a).toNat 1 →
    exec (.mxld g o) s = .next (s.trap l { code := 0x15, info := (s.src l .int o.a).toNat % 65536 }) ∧
    exec (.mxst g o) s = .next (s.trap l { code := 0x15, info := (s.src l .int o.a).toNat % 65536 }))

/-- spec/14 R248, R249, spec/03 R63, R65: what an MMA leaves in the accumulators at retirement: in its 64 rows, C plus
the exact sum of the products, rounded once to FP32 by RNE; for an MMAQ segment by segment with the row's scale and
zero; rows it skips, and all others, are unchanged. (The sign of a zero in MMAQ and in a product of an integer and a
float is the model's, log entry 65.) -/
def Obligations.MatrixProducts : Prop :=
  open Sys2Proof.Claims in
  ∀ (s : State) (p : Nat) (r : MmaRun) (rest : List MmaRun), (s.pair p).arrays = r :: rest → s.upsets = [] →
    let value := fun (f : Fmt) (x : W32) => if f.isInt then FVal.ofInt (intOf f x.toNat) else decodeFmt f x.toNat
    let weighted := fun (w : Nat) (x : FVal) => match x with
      | .fin n m e => FVal.fin n m (e - (w : Int))
      | x => x
    let old := fun i j => tget 0 (s.pair p).acc ((r.op.row + i) * 64 + j)
    ∃ t, exec (.mmaRetire p) s = .next t ∧
      t = { s with pairs := t.pairs, warps := t.warps } ∧
      (∀ w, t.warp w = if w = r.op.org.warp then { s.warp w with mxc := (s.warp w).mxc - 1 } else s.warp w) ∧
      (∀ q, q ≠ p → t.pair q = s.pair q) ∧ (t.pair p).arrays = rest ∧
      (∀ k, k < r.op.row * 64 ∨ (r.op.row + 64) * 64 ≤ k → tget 0 (t.pair p).acc k = tget 0 (s.pair p).acc k) ∧
      ∀ i < 64, ∀ j < 64, tget 0 (t.pair p).acc ((r.op.row + i) * 64 + j) =
        if r.skip.getD i false then old i j
        else match r.op.grp with
          | none =>
            let ps := ((r.a.getD i []).zip ((r.b.getD j []).zip r.weights)).map fun x =>
              weighted x.2.2 (if r.op.fa.isInt && r.op.fb.isInt
                then .ofInt (intOf r.op.fa x.1.toNat * intOf r.op.fb x.2.1.toNat)
                else (exactMul (value r.op.fa x.1) (value r.op.fb x.2.1)).1)
            BitVec.ofNat 32 ((exactSum .rne (decodeFmt .fp32 (old i j).toNat :: ps)).1.round .fp32 Ctl.nearest 0).1
          | some g =>
            let size := match g with
              | .g32 => 32 | .g64 => 64 | .g128 => 128
            (List.range r.op.segments).foldl (fun c q =>
              let qs := ((r.a.getD i []).drop (q * size)).take size
              let xs := ((((r.b.getD j []).drop (q * size)).take size).zip ((r.weights.drop (q * size)).take size)).map
                fun x => weighted x.2 (value r.op.fb x.1)
              let word := r.params.getD (64 * q + i) 0
              let d := (exactSum .rne [(exactSum .rne ((qs.zip xs).map fun x => (exactMul (.ofInt x.1.toNat) x.2).1)).1,
                ((exactMul (.ofInt (word.toNat % 256)) (exactSum .rne xs).1).1).negate]).1
              BitVec.ofNat 32 ((exactSum .rne [decodeFmt .fp32 c.toNat,
                (exactMul (decodeFmt .fp16 (word.toNat / 2 ^ 16)) d).1]).1.round .fp32 Ctl.nearest 0).1) (old i j)

/-- spec/11 R185 to R191, spec/13 R241, R242: TALLOC binds the lowest place there is for a handle unbound on every core
of the level, and says 1; on a shortage it says 0 and binds nothing; a bound handle, and a bad shape, fault in the
acting lane alone. The clear replaces what storage errors stood in (spec/26 R372). TFREE unbinds; TINFO and TTAG read;
TTAG.W writes the tag and no element. -/
def Sys2Proof.Claims.TileRecords : Prop :=
  open Sys2Proof.Claims in
  ∀ (s : State) (g : Guard) (o : Ops) (l : Nat), (s.execThreads g).head? = some l →
    let c := coreOf l
    let h := handleOf o.a
    let k := tileOf s l o.a
    let t0 := s.tile k
    (∀ (f : Fmt) (lvl : TileLevel),
      let n := (match lvl with | .core => 1 | .pair => 2 | .cluster => 8)
      let cores := (List.range n).map (c / n * n + ·)
      let b := (s.src l .int o.b).toNat
      let cols := (s.src l .int o.c).toNat
      let rows := b % 2048
      let im := b / 2 ^ 16 % 8
      let ig := b / 2 ^ 20 % 16
      let shape : Prop := b = rows + im * 2 ^ 16 + ig * 2 ^ 20 ∧ f ≠ .aq64 ∧ im ≤ 3 ∧
        (if im = 0 then ig = 0 else 3 ≤ ig ∧ ig ≤ 10) ∧ 1 ≤ rows ∧ rows ≤ 1024 ∧ 1 ≤ cols ∧ cols ≤ 4096 ∧
        (f = .int4 → 2 ∣ cols) ∧ ((rows * cols * elemNibbles f + 1) / 2 + 511) / 512 ≤ 896 * n
      (¬ shape → exec (.talloc g o f lvl) s = .next (s.trap l { code := 0x05 })) ∧
      (shape →
        ((∃ x ∈ cores, s.tileBound x h ≠ none) → exec (.talloc g o f lvl) s = .next (s.trap l { code := 0x13, info := h })) ∧
        ((∀ x ∈ cores, s.tileEntry x h = none) → (∀ w ∈ warpsOf (s.exec g), (s.warp w).tlc < 1023) →
          ∃ t, exec (.talloc g o f lvl) s = .next t ∧
            match s.placeTile lvl c (granulesOf (tileBytes f (rows * cols))) with
            | none => Result s t g o.d (fun _ => [0]) (fun _ => 0) (fun _ => false)
            | some base =>
              let x : Tile := { launch := (s.core c).launch.getD 0, lvl := lvl, fmt := f, rows := rows, cols := cols, imode := im, igran := ig, base := base,
                                bind := s.nextId, clearing := true, binders := warpsOf (s.exec g) }
              t = { s with lanes := t.lanes, warps := t.warps, nextId := s.nextId + 1,
                           tiles := tset s.tiles (tileKey lvl c h) x
                           upsets := s.upsets.filter fun u => !tileSite (tileKey lvl c h) 0 x.bytes u.site } ∧
              (∀ j, t.lane j = if j ∈ s.exec g then (s.lane j).put o.d [1] else s.lane j) ∧
              ∀ w, t.warp w = let x := if w ∈ warpsOf (s.exec g) then raised (s.warp w) [3] else s.warp w
                match s.sourceOf (s.exec g) w with
                | some _ => x.put o.d [1]
                | none => x))) ∧
    (s.tileBound c h = none →
      exec (.tfree g o) s = .next (s.trap l { code := 0x13, info := h }) ∧
      exec (.ttagW g o) s = .next (s.trap l { code := 0x13, info := h })) ∧
    (s.tileBound c h = some k → (∀ w ∈ warpsOf (s.exec g), (s.warp w).tlc < 1023) →
      ∃ t, exec (.tfree g o) s = .next t ∧ t.tileBound c h ≠ some k ∧
        ∀ j, { t.lane j with status := (s.lane j).status } = s.lane j) ∧
    (s.tileBound c h = some k → t0.clearing = false → t0.engine = false →
      let v := (s.src l .int o.b).toNat
      let ok : Prop := v < 128 ∧ if v / 64 = 0 then v = 0 else 1 ≤ v / 8 % 8 ∧ v / 8 % 8 ≤ 6 ∧ 2 ^ (v / 8 % 8) ∣ t0.rows
      (¬ ok → exec (.ttagW g o) s = .next (s.trap l { code := 0x05 })) ∧
      (ok → ∃ t, exec (.ttagW g o) s = .next t ∧ t = { s with tiles := t.tiles } ∧ (∀ j, j ≠ k → t.tile j = s.tile j) ∧
        t.tile k = { t0 with dom := decide (v / 64 = 1), hlev := v / 8 % 8, thk := v / 2 % 4, pv := decide (v % 2 = 1),
                             pres := (t.tile k).pres } ∧
        (if v % 2 = 1 then ∀ r < t0.rows, (t.tile k).present r = true else (t.tile k).pres = t0.pres)))

/-- spec/13 R242: TINFO reads the table's entry, 0 for an unbound handle; TTAG reads the tag word, and TILE_HANDLE where
the handle is unbound. Neither changes a tile. -/
def Sys2Proof.Claims.TileReads : Prop :=
  open Sys2Proof.Claims in
  ∀ (s : State) (g : Guard) (o : Ops),
    let tile := fun l => s.tileBound (coreOf l) (handleOf o.a)
    (∃ (t : State) (e : Nat → W64), exec (.tinfo g o) s = .next t ∧
      Result s t g o.d (fun l => [(e l).setWidth 32, (e l).extractLsb' 32 32]) (fun _ => 0) (fun _ => false) ∧
      ∀ l, match tile l with
        | none => e l = 0
        | some k =>
          let x := s.tile k
          e l = BitVec.ofNat 64 (2 ^ 63 + x.lvl.code * 2 ^ 61 + x.fmt.code * 2 ^ 57 + x.rows * 2 ^ 46 + x.cols * 2 ^ 33
            + x.imode * 2 ^ 30 + x.igran * 2 ^ 26
            + (if x.freeing then 3 else if x.clearing then 1 else if x.engine then 2 else 0) * 2 ^ 24
            + (if x.dom then 2 ^ 23 else 0) + x.hlev * 2 ^ 20 + x.thk * 2 ^ 18 + (if x.pv then 2 ^ 17 else 0) + x.base)) ∧
    ((∀ l ∈ s.exec g, tile l ≠ none) → ∃ t, exec (.ttag g o) s = .next t ∧ Result s t g o.d (fun l =>
        let x := s.tile ((tile l).getD 0)
        [BitVec.ofNat 32 ((if x.dom then 64 else 0) + x.hlev * 8 + x.thk * 2 + if x.pv then 1 else 0)])
      (fun _ => 0) (fun _ => false)) ∧
    ∀ l, s.exec g = [l] → tile l = none → exec (.ttag g o) s = .next (s.trap l { code := 0x13, info := handleOf o.a })

/-- spec/11 R187, R188: where TALLOC places a tile, no tile and no log stands on any of its cores, every core keeps to
its budget, and no lower place would do; it is short of a place only where a core lacks budget or no place would do.
(That each core needs its share of the granules free, not all of them, is the model's reading, log entry 70.) -/
def Obligations.TilePlacement : Prop :=
  open Sys2Proof.Claims in
  ∀ (s : State) (lvl : TileLevel) (c n : Nat),
    let m := (match lvl with | .core => 1 | .pair => 2 | .cluster => 8)
    let home := c / m * m
    let free := fun b => ∀ p < m, let need := (n - p + m - 1) / m
      b + need + s.logGranules (home + p) ≤ 896 ∧
      ∀ x ∈ s.tiles, home + p ∈ tileCores x.1 x.2 →
        ¬ overlap b need x.2.base (tileGranules x.1 x.2 (home + p))
    let budget := ∀ p < m,
      (((s.tilesOn (home + p)).map fun x => tileGranules x.1 x.2 (home + p)).sum + (n - p + m - 1) / m) * 512
        ≤ ((s.launchOf (home + p)).map Launch.tileBytes).getD 0
    (∀ base, s.placeTile lvl c n = some base → base < 896 ∧ free base ∧ (∀ b < base, ¬ free b) ∧ budget) ∧
    (s.placeTile lvl c n = none → budget → ∀ b < 896, ¬ free b)

/-- spec/14, spec/15: what a tile unit or matrix instruction queues. (That a row beyond 2,047 is outside any window, and
that a drain does not advance RSCTR, are the model's, log entries 61 and 68.) -/
def Obligations.EngineCommands : Prop :=
  Claims.TileUnitCommands ∧ Claims.MatrixCommands

/-- spec/11 R186 to R193: the tile table, and the reads of it. -/
def Obligations.TileTable : Prop :=
  Claims.TileRecords ∧ Claims.TileReads

/-! ## Control, threads, exceptions and the system instructions (spec/02, spec/09, spec/10, spec/17, spec/24) -/

namespace Sys2Proof.Claims

/-- Groups that some lanes have left. -/
def without (s : State) (ls : List Nat) : Tab Group :=
  s.groups.map fun p => (p.1, { p.2 with lanes := p.2.lanes.filter fun l => !(decide (l ∈ ls) && coreOf l == p.1 / 16) })

/-- A lane that stands before the clause at an address. -/
def standsAt (s : State) (x : Lane) (pc : Addr48) : Lane :=
  { x with pc := pc, rslot := 0, status := .idle, kept := none, readyAt := s.cycles }

/-- The target of an offset, in doublewords from the clause's header, or ACCESS at the address named (spec/04 R84). -/
def offsetTo (s : State) (off : BitVec 30) : Addr48 ⊕ Trap :=
  let a : Int := s.group.pc.toNat + 8 * off.toInt
  if 0 ≤ a ∧ a < 2 ^ 48 then .inl (BitVec.ofInt 48 a) else .inr { code := 0x12, addr := BitVec.ofInt 64 a }

/-- The target that a pair holds: ACCESS above bit 47, ALIGN when it is not a doubleword's (spec/10 R167). -/
def pairTo (v : W64) : Addr48 ⊕ Trap :=
  if 2 ^ 48 ≤ v.toNat then .inr { code := 0x12, addr := v }
  else if v.toNat % 8 ≠ 0 then .inr { code := 0x10, addr := v, info := 3 }
  else .inl (v.setWidth 48)

/-- Is the current slot its clause's last (spec/04 R77)? -/
def inLastSlot (s : State) : Prop := s.group.slot = s.group.header.toNat / 2 ^ 52 % 16

/-- The clause after the current one. -/
def following (s : State) : Addr48 := s.group.pc + BitVec.ofNat 48 (8 * (s.group.header.toNat / 2 ^ 52 % 16 + 2))

/-- The control transfers: guard, target, and whether .Y defers (spec/10 R166, R167). -/
def branchRule (s : State) (i : Instr) : Option (Guard × (Nat → Addr48 ⊕ Trap) × Bool) :=
  match i with
  | .bra g off y => some (g, fun _ => offsetTo s off, y)
  | .brx g o y => some (g, fun l => pairTo (s.src64 l o.a), y)
  | _ => none

/-- The calls (spec/10 R168). -/
def callRule (s : State) (i : Instr) : Option (Guard × (Nat → Addr48 ⊕ Trap)) :=
  match i with
  | .call g off => some (g, fun _ => offsetTo s off)
  | .callx g o => some (g, fun l => pairTo (s.src64 l o.a))
  | _ => none

/-- The instructions that must stand in their clause's last slot (spec/04 R77). -/
def lastOnly (i : Instr) : Bool :=
  match i with
  | .bra _ _ _ => true | .brx _ _ _ => true | .call _ _ => true | .callx _ _ => true | .ret _ => true | .exit _ => true
  | .bar _ _ _ => true
  | _ => false

/-- Do all live threads of a lane's quad execute the slot? -/
def quadLeaves (s : State) (g : Guard) (l : Nat) : Prop :=
  ∀ x ∈ s.quadLanes l, (s.lane x).status ≠ .retired → (s.lane x).helper = false → x ∈ s.exec g

/-- The members that BAR counts. -/
def barMembers (s : State) (g : Guard) : List Nat := (s.execThreads g).filter fun l => (s.lane l).member

/-- The members have released and arrived: each sleeps at its barrier, to go on at the following clause, and is counted
there (spec/10 R172). -/
structure Arrived (s u : State) (i : Nat) (ls : List Nat) (key : Nat → Nat) : Prop where
  rest : u = { s with lanes := u.lanes, groups := without s ls, launches := u.launches }
  lanes : ∀ l, u.lane l = if l ∈ ls then { standsAt s (s.lane l) (following s) with status := .asleepBar (key l) } else s.lane l
  bars : ∀ k, u.bar i k = { s.bar i k with arrived := (s.bar i k).arrived ++ ls.filter fun l => key l == k }

/-- Is every member of a barrier counted arrived: each that is live and no helper (spec/10 R171, R172)? -/
def allArrived (s : State) (i key : Nat) : Prop :=
  (s.bar i key).arrived ≠ [] ∧ ∀ x ∈ s.barLanes i key, (s.lane x).member → (s.lane x).status ≠ .retired →
    (s.lane x).helper = false → x ∈ (s.bar i key).arrived

/-- A barrier tested once members have arrived: when every member has, every lane asleep at it wakes and acquires at the
level's scope, the arrived set is cleared and the generation advances (spec/10 R172). -/
def Opened (s : State) (i : Nat) (sc : Scope) (key : Nat) (t : State) : Prop :=
  (¬ allArrived s i key → t = s) ∧
  (allArrived s i key →
    let ls := (s.barLanes i key).filter fun l => (s.lane l).status == .asleepBar key
    ∃ v : State, t = v.meet ls ∧
      v = { s with lanes := v.lanes, launches := v.launches,
                   copies := s.copies.filter fun x => !ls.any fun l => dropped s (coreOf l) sc x.cache } ∧
      (∀ l, v.lane l = if l ∈ ls then { s.lane l with status := .idle, readyAt := s.cycles } else s.lane l) ∧
      ∀ k, v.bar i k = if k = key then { gen := (s.bar i key).gen + 1, arrived := [] } else s.bar i k)

/-- The positions a dispenser has still to give out. -/
def toGive (x : Launch) (n : Nat) : Prop := ∃ r ∈ x.disp, r.1 ≤ n ∧ n < r.2

/-- The ranges that a request of die j of k tries once its own is empty, q = 0, 1, 2, …: those of dies j + 1, j − 1, j
+ 2, j − 2, …, modulo k (spec/10 R177). -/
def triedDie (k j q : Nat) : Nat := if q % 2 = 0 then (j + q / 2 + 1) % k else (j + k * (q + 1) - (q / 2 + 1)) % k

/-- The Morton code of a position of the plane (spec/10 R176): bits of x and y interleaved, x lowest. -/
def morton (x y : Nat) : Nat :=
  ((List.range 32).map fun k => (if x.testBit k then 4 ^ k else 0) + if y.testBit k then 2 * 4 ^ k else 0).sum

/-- The clause whose fault a lane's newest handler took, where it stands at an address (spec/04 R71). -/
def faultClause (x : Lane) (h : Addr48) : Option Clause := (x.faulted.head?.getD none).filter fun c => c.pc == h

/-- A lane's record of a fault (spec/02 R39). -/
def recorded (x : Lane) (f : FaultRec) : Lane :=
  { x with f0 := f.code ++ (BitVec.ofNat 4 f.slot) ++ (BitVec.ofNat 4 f.cls) ++ f.pc, f1 := f.word, f2 := f.addr,
           f3 := BitVec.ofNat 64 (f.opnd % 1024 * 2 ^ 22 + f.info % 65536) }

/-- A lane after RTT (spec/24 R363): pc and slot from SR.FAULT0, one slot on after a TRAP or BKPT; a slot past the clause
goes on behind it; the kernel handler's lane gets its mode back; the record is cleared. A lane that returns into the
clause whose fault it took keeps the words fetched then (log 52, DEDUCED). -/
def returned (x : Lane) (n : Nat) : Lane :=
  let code := x.f0.toNat / 2 ^ 56
  let k := x.f0.toNat / 2 ^ 52 % 16 + if code = 0x30 ∨ code = 0x31 then 1 else 0
  let h : Addr48 := x.f0.setWidth 48
  { x with
    pc := if n < k then h + BitVec.ofNat 48 (8 * (n + 2)) else h
    rslot := if n < k then 0 else k
    kept := if n < k ∨ k = 0 then none else faultClause x h
    priv := if x.hmode = .kernel then (if x.kprev then x.priv ||| 1 else x.priv &&& ~~~1) else x.priv
    hmode := if x.hmode = .kernel ∧ x.uprev then .user else .normal
    runHandler := if x.runHandler = x.hmode then .normal else x.runHandler
    faulted := x.faulted.tail, f0 := 0, f1 := 0, f2 := 0, f3 := 0 }

/-- A spawned thread in a bin (spec/17 R305, R306, R310): the first loads the timer from SR.PONDT; a 32nd, or a timer
of 0, makes the bin eligible, which ends its timer. -/
def withThread (k : Core) (b : Nat) (key : Addr48) (t : BinThread) : Core :=
  let old := (tfind k.bins b).getD { key := key, timer := some k.pondt.toNat }
  let threads := old.threads ++ [t]
  let full := threads.length = 32 ∨ old.timer = some 0
  { k with bins := tset k.bins b { old with threads := threads, timer := if full then none else old.timer }
           eligible := if full ∧ b ∉ k.eligible then k.eligible ++ [b] else k.eligible }

end Sys2Proof.Claims

/-- spec/04 R77, R84, spec/10 R166, R167: in its clause's last slot a branch takes each executing lane to its target, or
to the fault of its target; .Y defers it; lanes that do not execute go on. Before the last slot every lane of the group
takes PLACEMENT at a branch, a call, RET, EXIT, BAR, RTT, WAITW and PARK, the literal of a wide one counted as a slot. -/
def Obligations.Branches : Prop :=
  open Sys2Proof.Claims in
  (∀ (i : Instr) (s : State) (g : Guard) (target : Nat → Addr48 ⊕ Trap) (y : Bool), branchRule s i = some (g, target, y) →
    inLastSlot s →
    let good := (s.exec g).filter fun l => (target l).isLeft
    ∃ t, exec i s = .next ((State.trapEach t ((s.exec g).filterMap fun l => (target l).getRight?.map fun e => (l, e))).meet
        (s.exec g)) ∧ t = { s with lanes := t.lanes, groups := without s good } ∧
      ∀ l, t.lane l = if l ∈ good then { standsAt s (s.lane l) (((target l).getLeft?).getD 0) with
        defer := (s.lane l).defer || y } else s.lane l) ∧
  (∀ (i : Instr) (s : State), lastOnly i → ¬ inLastSlot s → exec i s = .next (s.trapAll s.group.lanes { code := 0x06 })) ∧
  (∀ (s : State) (g : Guard), ¬ inLastSlot s →
    (∀ l ∈ s.group.lanes, (s.lane l).priv.getLsbD 0 = true ∨ (s.lane l).hmode = .user) →
    exec (.rtt g) s = .next (s.trapAll s.group.lanes { code := 0x06 })) ∧
  ∀ (s : State) (g : Guard) (o : Ops) (sc : Scope) (w64 : Bool) (cmp : WCmp) (try_ : Bool),
    (s.lastSlot o = true ↔ s.group.slot + (if [o.a, o.b, o.c].any (fun x => match x with
        | .lit _ => true
        | _ => false) then 1 else 0)
      = s.group.header.toNat / 2 ^ 52 % 16) ∧
    (s.lastSlot o = false →
      exec (.waitw g o sc w64 cmp) s = .next (s.trapAll s.group.lanes { code := 0x06 }) ∧
      exec (.park g o sc w64 cmp try_) s = .next (s.trapAll s.group.lanes { code := 0x06 }))

/-- spec/02 R36, spec/10 R168: a CALL with room in the lane's stack takes it to its target and pushes the following
clause; RET pops the newest entry; DEPTH keeps count; beyond 1,023 and below 0 they fault. A CALL with a full stack
spills its oldest entry, and a RET with an empty one refills it from there, each as an access of its own slot (log 24,
DEDUCED). -/
def Sys2Proof.Claims.CallsAndReturns : Prop :=
  open Sys2Proof.Claims in
  (∀ (i : Instr) (s : State) (g : Guard) (target : Nat → Addr48 ⊕ Trap), callRule s i = some (g, target) → inLastSlot s →
    (s.exec g).Nodup →
    (∀ l ∈ s.exec g, (target l).isLeft ∧ (s.lane l).depth ≠ 1023 ∧ (s.lane l).stack.length < 16) →
    ∃ t, exec i s = .next (State.meet t (s.exec g)) ∧ t = { s with lanes := t.lanes, groups := without s (s.exec g) } ∧
      ∀ l, t.lane l = if l ∈ s.exec g then { standsAt s (s.lane l) (((target l).getLeft?).getD 0) with
        stack := following s :: (s.lane l).stack, depth := (s.lane l).depth + 1 } else s.lane l) ∧
  (∀ (s : State) (g : Guard), inLastSlot s → (s.exec g).Nodup →
    (∀ l ∈ s.exec g, (s.lane l).depth ≠ 0 ∧ (s.lane l).stack ≠ []) →
    ∃ t, exec (.ret g) s = .next (State.meet t (s.exec g)) ∧ t = { s with lanes := t.lanes, groups := without s (s.exec g) } ∧
      ∀ l, t.lane l = if l ∈ s.exec g then { standsAt s (s.lane l) ((s.lane l).stack.headD 0) with
        stack := (s.lane l).stack.tail, depth := (s.lane l).depth - 1 } else s.lane l) ∧
  (∀ (i : Instr) (s : State) (g : Guard) (target : Nat → Addr48 ⊕ Trap) (l : Nat), callRule s i = some (g, target) →
    inLastSlot s → s.exec g = [l] → (target l).isLeft → (s.lane l).depth = 1023 →
    exec i s = .next ((s.trap l { code := 0x19 }).meet [l])) ∧
  (∀ (s : State) (g : Guard) (l : Nat), inLastSlot s → s.exec g = [l] → (s.lane l).depth = 0 →
    exec (.ret g) s = .next ((s.trap l { code := 0x18 }).meet [l])) ∧
  (∀ (i : Instr) (s : State) (g : Guard) (target : Nat → Addr48 ⊕ Trap) (l pa : Nat) (a : Addr48),
    callRule s i = some (g, target) → inLastSlot s → s.exec g = [l] → target l = .inl a → (s.lane l).depth ≠ 1023 →
    (s.lane l).stack.length = 16 →
    s.laneVa l .write 8 ((s.lane l).rsb + BitVec.ofNat 64 (8 * ((s.lane l).depth.toNat - 16))) = .inl pa →
    s.stackHeld l pa = false → isMemory pa → ∃ t, exec i s = .next (State.meet t [l]) ∧
      t.lane l = { standsAt s (s.lane l) a with stack := following s :: (s.lane l).stack.dropLast,
                                                depth := (s.lane l).depth + 1 } ∧
      ∀ b, Memory.read t.mem b = if canonPa pa ≤ b ∧ b < canonPa pa + 8
        then (toLe ((s.lane l).stack.getLastD 0).toNat 8).getD (b - canonPa pa) 0 else Memory.read s.mem b) ∧
  (∀ (s : State) (g : Guard) (l pa : Nat), inLastSlot s → s.exec g = [l] → (s.lane l).depth ≠ 0 → (s.lane l).stack = [] →
    s.laneVa l .read 8 ((s.lane l).rsb + BitVec.ofNat 64 (8 * ((s.lane l).depth.toNat - 1))) = .inl pa →
    s.stackHeld l pa = false →
    let r := s.readAs (coreOf l) (warpOf l) s.nextId pa 8
    let a : Addr48 := BitVec.ofNat 48 (leNat r.2.bytes)
    r.2.awaits = [] →
    (a.toNat % 8 ≠ 0 → exec (.ret g) s = .next ((s.trap l { code := 0x10, addr := a.setWidth 64, info := 3 }).meet [l])) ∧
    (a.toNat % 8 = 0 → ∃ t, exec (.ret g) s = .next (State.meet t [l]) ∧
      t = { r.1 with lanes := t.lanes, groups := without r.1 [l], warps := t.warps } ∧
      (∀ w, t.warp w = if w = warpOf l then
        { s.warp w with owt := laterTimes (s.warp w).owt (r.1.timesOf (coreOf l) r.2.recs) } else s.warp w) ∧
      ∀ k, t.lane k = if k = l then { standsAt s (s.lane l) a with depth := (s.lane l).depth - 1 } else s.lane k))

/-- spec/09 R158, spec/10 R169, spec/16 R288: EXIT retires a lane with its quad's last thread, its guarded registers left
empty; while another thread of the quad goes on it becomes a helper. No register of any lane changes, and no memory but
the log's spill nodes. -/
def Sys2Proof.Claims.Exits : Prop :=
  open Sys2Proof.Claims in
  ∀ (s : State) (g : Guard), inLastSlot s → ∃ t, exec (.exit g) s = .next t ∧
    ((∀ l ∈ s.exec g, noSpill s l) → t.mem = s.mem) ∧
    (∀ l, (t.lane l).v = (s.lane l).v ∧ (t.lane l).p = (s.lane l).p) ∧
    ∀ l ∈ s.execThreads g,
      (quadLeaves s g l → (t.lane l).status = .retired ∧ (t.lane l).g = []) ∧
      (¬ quadLeaves s g l → (t.lane l).status = .inFlight ∧ (t.lane l).helper = true ∧ (t.lane l).g = (s.lane l).g)

/-- spec/09 R154, spec/10 R170 to R172: MEET names a meeting, or clears it with offset 0; a meeting is over when every
live lane that names it and is no shallower than those arrived has arrived. BAR, once its release is done, counts its
members and puts them to sleep; once every member of the barrier is counted, every lane asleep at it wakes, acquires at
the level's scope and goes on, and the next generation begins. A barrier's lanes are those of its home warp, its block,
its cluster's cores of the launch, or the launch. -/
def Obligations.MeetingsAndBarriers : Prop :=
  open Sys2Proof.Claims in
  (∀ (s : State) (g : Guard) (off : BitVec 30) (m : Addr48), off = 0 ∧ m = 0 ∨ off ≠ 0 ∧ offsetTo s off = .inl m →
    ∃ t, exec (.meet g off) s = .next (State.meet t (s.exec g)) ∧ onlyLanes s t ∧
      ∀ l, t.lane l = if l ∈ s.exec g then { s.lane l with meet := m } else s.lane l) ∧
  (∀ (s : State) (g : Guard) (off : BitVec 30) (e : Trap), off ≠ 0 → offsetTo s off = .inr e →
    exec (.meet g off) s = .next ((s.trapAll (s.exec g) e).meet (s.exec g))) ∧
  (∀ (s : State) (w : Nat) (m : Addr48), m ≠ 0 →
    let named := fun l => l ∈ s.warpLanes w ∧ (s.lane l).status ≠ .retired ∧ (s.lane l).meet = m
    let arrived := fun l => named l ∧ (s.lane l).status = .idle ∧ (s.lane l).pc = m ∧ (s.lane l).rslot = 0
    let over_ := (∃ l, arrived l) ∧ ∀ l, named l → ¬ arrived l → ∃ k, arrived k ∧ (s.lane l).depth < (s.lane k).depth ∧
      ∀ j, arrived j → (s.lane k).depth ≤ (s.lane j).depth
    onlyLanes s (s.evalMeeting w m) ∧ ∀ l,
      (over_ ∧ named l → (s.evalMeeting w m).lane l = { s.lane l with meet := 0 }) ∧
      (¬ (over_ ∧ named l) → (s.evalMeeting w m).lane l = s.lane l)) ∧
  (∀ (s : State) (g : Guard) (idx : Fin 16) (level : BarLevel) (i : Nat), inLastSlot s → (s.core s.curCore).launch = some i →
    (tfind s.launches i).isSome → mayIssue s (warpsOf (barMembers s g)) [] 0 (some (barScope level)) →
    let key := fun l => s.barOf l level idx.val
    ∃ u v, exec (.bar g idx level) s = .next (State.meet v (barMembers s g)) ∧ Arrived s u i (barMembers s g) key ∧
      OneByOne (fun s' k t => Opened s' i (match level with
        | .warp => .warp | .block => .block | .cluster => .cluster | .grid => .device) k t)
        u ((barMembers s g).map key).eraseDups v) ∧
  ∀ (s : State) (i l : Nat) (idx : Fin 16) (level : BarLevel) (x : Launch), tfind s.launches i = some x → l < 2 ^ 25 →
    s.leader (coreOf l) < 2 ^ 20 → s.barLanes i (s.barOf l level idx.val) = match level with
      | .warp => s.warpLanes (warpOf l)
      | .block => (s.blockCores (s.leader (coreOf l))).flatMap s.coreLanes
      | .cluster => ((x.cores ++ x.held).filter fun c => c / 8 == coreOf l / 8).flatMap s.coreLanes
      | .grid => (x.cores ++ x.held).flatMap s.coreLanes

/-- spec/10 R175 to R178: FETCHT gives each executing thread, in order, the next item of its launch, all ones when none
is left, and a helper all ones; a position is given once. The position given is the front of the launch's one range, or
under DIE the front of the own die's range, else the back of the first other that is not empty; ROW, COL and MORTON
give the plane in their orders, and DIE as MORTON. -/
def Obligations.FetchedItems : Prop :=
  open Sys2Proof.Claims in
  (∀ (s : State) (g : Guard) (o : Ops) (i : Nat) (x : Launch), (s.core s.curCore).launch = some i →
    tfind s.launches i = some x → isSReg o.d = false → (s.exec g).Nodup →
    ∃ t, exec (.fetcht g o) s = .next t ∧
      t = { s with lanes := t.lanes, launches := tset s.launches i (x.takeAll s.curCore (s.execThreads g)).1 } ∧
      ∀ l, t.lane l = if l ∈ s.exec g then (s.lane l).put o.d
        (if (s.lane l).helper then [0xFFFFFFFF, 0xFFFFFFFF, 0xFFFFFFFF]
         else (((x.takeAll s.curCore (s.execThreads g)).2.find? fun p => p.1 == l).map (·.2)).getD []) else s.lane l) ∧
  (∀ (x : Launch) (core l : Nat) (ls : List Nat), x.takeAll core (l :: ls) = match x.take core with
    | some (n, y) => ((y.takeAll core ls).1, (l, x.item n) :: (y.takeAll core ls).2)
    | none => ((x.takeAll core ls).1, (l, [0xFFFFFFFF, 0xFFFFFFFF, 0xFFFFFFFF]) :: (x.takeAll core ls).2)) ∧
  (∀ (x y : Launch) (core n : Nat), x.disp.Pairwise (fun a b => ∀ k, ¬ (a.1 ≤ k ∧ k < a.2 ∧ b.1 ≤ k ∧ k < b.2)) →
    x.take core = some (n, y) → y = { x with disp := y.disp } ∧ toGive x n ∧ ∀ m, toGive y m ↔ toGive x m ∧ m ≠ n) ∧
  (∀ (x : Launch) (core : Nat), x.take core = none → ∀ n, ¬ toGive x n) ∧
  (∀ (x y : Launch) (core n : Nat), x.take core = some (n, y) →
    let own := if x.order = 3 then x.dies.findIdx (· == core / 192) else 0
    let r := fun j => x.disp.getD j (0, 0)
    let k := x.disp.length
    ((r own).1 < (r own).2 → n = (r own).1) ∧
    ((r own).2 ≤ (r own).1 → ∃ q, n = (r (triedDie k own q)).2 - 1 ∧
      (r (triedDie k own q)).1 < (r (triedDie k own q)).2 ∧
      ∀ p < q, (r (triedDie k own p)).2 ≤ (r (triedDie k own p)).1)) ∧
  (∀ (x : Launch), let items := x.extent 0 * x.extent 1 * x.extent 2
    x.dies.Pairwise (· < ·) ∧ (∀ d, d ∈ x.dies ↔ ∃ c ∈ x.cores ++ x.held, c / 192 = d) ∧
    (x.order ≠ 3 → x.ranges = [(0, items)]) ∧
    (x.order = 3 → let k := x.dies.length
      x.ranges = (List.range k).map fun j => (items * j / k, items * (j + 1) / k))) ∧
  (∀ (x : Launch) (n : Nat), let ex := x.extent 0; let ey := x.extent 1
    (x.order = 0 → x.item n = [BitVec.ofNat 32 (n % ex), BitVec.ofNat 32 (n / ex % ey), BitVec.ofNat 32 (n / (ex * ey))]) ∧
    (x.order = 1 → x.item n = [BitVec.ofNat 32 (n / ey % ex), BitVec.ofNat 32 (n % ey), BitVec.ofNat 32 (n / (ex * ey))]) ∧
    (2 ≤ x.order → let p := mortonAt ex ey 32 0 0 (n % (ex * ey))
      x.item n = [BitVec.ofNat 32 p.1, BitVec.ofNat 32 p.2, BitVec.ofNat 32 (n / (ex * ey))])) ∧
  ∀ (ex ey a b : Nat), ex < 2 ^ 32 → ey < 2 ^ 32 → a < b → b < ex * ey →
    let p := mortonAt ex ey 32 0 0 a
    let q := mortonAt ex ey 32 0 0 b
    p.1 < ex ∧ p.2 < ey ∧ q.1 < ex ∧ q.2 < ey ∧ morton p.1 p.2 < morton q.1 q.2

/-- spec/17 R305, R306, R309, R310: SPAWN puts a thread for each executing thread into its core's bin for the target,
while the bin and the buffer pool have room, with its arguments from V0 upward; no lane changes but a helper under .T,
whose guard then fails. -/
def Obligations.Spawning : Prop :=
  open Sys2Proof.Claims in
  ∀ (s : State) (g : Guard) (off : BitVec 30) (d : Operand) (narg : Fin 9) (try_ : Bool) (a : Addr48),
    offsetTo s off = .inl a →
    (∀ l ∈ s.execThreads g, ∃ b, (s.core (coreOf l)).binFor a = some b ∧
      (((tfind (s.core (coreOf l)).bins b).map fun x => x.threads.length).getD 0) + (s.exec g).length ≤ 32 ∧
      poolRoom s (coreOf l) b (s.exec g).length) →
    ∃ t, exec (.spawn g off d narg try_) s = .next t ∧ InTurn (fun s' l t =>
      if (s.lane l).helper then t = if try_ then s'.modLane l (·.setPred g.idx.val g.neg) else s'
      else ∃ b, (s'.core (coreOf l)).binFor a = some b ∧
        ∃ regs : Tab W32, (∀ j, tget 0 regs j = (s.srcRun l narg.val d).getD j 0) ∧
          t = s'.modCore (coreOf l) fun k => withThread k b a { regs := regs }) (fun l => [l]) s (s.exec g) t

/-- spec/17 R311 to R313: PARK of a thread writes its record to the lowest free place of the pool, once no engine has
half written its line (spec/12 R213), counts it, and retires the thread; with no record free, .T fails the guard; a
thread inside a call takes PLACEMENT. -/
def Obligations.Parking : Prop :=
  open Sys2Proof.Claims in
  ∀ (s : State) (g : Guard) (o : Ops) (sc : Scope) (w64 : Bool) (cmp : WCmp) (l i : Nat) (x : Launch),
    s.lastSlot o → s.exec g = [l] → (s.lane l).helper = false → (s.core (coreOf l)).launch = some i →
    tfind s.launches i = some x → coreOf l = s.curCore →
    let n := if w64 then 8 else 4
    let c := coreOf l
    let mask : W32 := s.src l .int o.c
    let reg := fun j => if mask.getLsbD j then s.vreg l j else 0
    let value : W64 := if w64 then s.src64 l o.b else (s.src l .int o.b).setWidth 64
    let cw : List W64 := [mask.setWidth 16 ++ following s, BitVec.ofNat 32 (s.blockId c) ++ s.launchNum c,
      BitVec.ofNat 64 (c % 2048 * 2 ^ 37 + sc.code * 2 ^ 34 + (if w64 then 2 ^ 33 else 0) + cmp.code * 2 ^ 30 + (s.lane l).p.toNat),
      s.src64 l o.a, value, 0, 0, 0] ++ (List.range 8).map fun j => reg (2 * j + 1) ++ reg (2 * j)
    (∀ k, x.freeRecord = some k ↔ k < x.poolN ∧ tfind x.pool k = none ∧ ∀ j < k, tfind x.pool j ≠ none) ∧
    (x.freeRecord = none ↔ ∀ k < x.poolN, tfind x.pool k ≠ none) ∧
    ((s.lane l).depth ≠ 0 → mayIssue s [warpOf l] [] 0 none →
      exec (.park g o sc w64 cmp true) s = .next ((s.trap l { code := 0x06 }).afterLeave s.curCore [l]) ∧
      exec (.park g o sc w64 cmp false) s = .next ((s.trap l { code := 0x06 }).afterLeave s.curCore [l])) ∧
    (∀ pa, (s.lane l).depth = 0 → s.laneVa l .read n (s.src64 l o.a) = .inl pa → mayIssue s [warpOf l] [] 0 (some sc) →
      (x.freeRecord = none → exec (.park g o sc w64 cmp true) s =
        .next (((s.modLane l (·.setPred g.idx.val g.neg)).serve [l]).afterLeave s.curCore [l])) ∧
      ∀ k ra try_, x.freeRecord = some k →
        s.checkVa c (s.capxOf c) (.sys true) 1 (dword x.record 4 + BitVec.ofNat 64 (128 * k)) = .inl ra → isMemory ra →
        s.lineFree s.nextId ra 128 = true →
        (∀ j ∈ s.quadLanes l, (s.lane j).runFaults = []) → noSpill s l →
        ∃ (t : State) (r : Continuation), exec (.park g o sc w64 cmp try_) s = .next t ∧ (t.lane l).status = .retired ∧
          (t.core c).count = (s.core c).count + 1 ∧ (tfind t.launches i).bind (fun y => tfind y.pool k) = some r ∧
          r.cw = cw ∧ r.pa = canonPa pa ∧ r.die = c / 192 ∧
          ∀ b, Memory.read t.mem b = if canonPa ra ≤ b ∧ b < canonPa ra + 128
            then (cw.flatMap fun w => toLe w.toNat 8).getD (b - canonPa ra) 0 else Memory.read s.mem b)

/-- spec/02 R39 to R42, spec/09 R160, spec/10 R179, spec/24 R362: TRAP and BKPT take their exception in each executing
thread. A lane that takes a fault leaves its group with the fault recorded, and enters the user handler if its warp has
one and it is in none, else the kernel handler, with its privilege and handler saved; a helper becomes dormant; a
TRANSLATION holds the lane at its slot with its record as it was (log 16); a machine check, a fault in a kernel
handler, and one with no kernel handler stop the lane and kill its context; in a kernel handler the record that entered
it stays, and without one the new record is written (log 51). The clause as fetched stays with the lane (log 52).
Nothing else changes. -/
def Obligations.Exceptions : Prop :=
  open Sys2Proof.Claims in
  (∀ (s : State) (g : Guard) (code : BitVec 12),
    exec (.trap g code) s = .next (s.trapAll (s.execThreads g) { code := 0x30, info := code.toNat }) ∧
    exec (.bkpt g code) s = .next (s.trapAll (s.execThreads g) { code := 0x31, info := code.toNat })) ∧
  (∀ (s : State) (l : Nat) (t : Trap),
    let g := s.group
    s.trap l t = s.deliver l { code := t.code, slot := g.slot, cls := g.header.toNat / 2 ^ 56 % 16, pc := g.pc,
                               word := g.word, addr := t.addr, opnd := t.opnd, info := t.info }) ∧
  ∀ (s : State) (l : Nat) (f : FaultRec),
    let x := s.lane l
    let r := recorded x f
    let user := (s.warp (warpOf l)).trapv
    let kernel := (s.core (coreOf l)).ktrapv
    let words := s.clauseOf l
    let entered : Lane → State := fun y => { s with lanes := tset s.lanes l y, groups := without s [l] }
    (x.helper = true → s.deliver l f = entered { x with status := .dormant }) ∧
    (x.helper = false → f.code = 0xF0 → s.deliver l f =
      (entered { (if x.hmode = .kernel then x else r) with status := .stopped, rslot := f.slot }).killCore (coreOf l)) ∧
    (x.helper = false → f.code = 0x11 →
      s.deliver l f = entered { x with status := .translating f, rslot := f.slot, pc := f.pc, kept := words }) ∧
    (x.helper = false → f.code ≠ 0xF0 → f.code ≠ 0x11 →
      (x.hmode = .normal → user ≠ 0 →
        s.deliver l f = entered { r with hmode := .user, pc := user.setWidth 48, rslot := 0, status := .idle, kept := none,
                                         faulted := words :: x.faulted }) ∧
      (x.hmode ≠ .kernel → (user = 0 ∨ x.hmode = .user) → kernel ≠ 0 →
        s.deliver l f = entered { r with kprev := x.priv.getLsbD 0, uprev := decide (x.hmode = .user), hmode := .kernel,
                                         priv := x.priv ||| 1, pc := kernel.setWidth 48, rslot := 0, status := .idle,
                                         kept := none, faulted := words :: x.faulted }) ∧
      (x.hmode ≠ .kernel → (user = 0 ∨ x.hmode = .user) → kernel = 0 →
        s.deliver l f = (entered { r with status := .stopped, rslot := f.slot, pc := f.pc }).killCore (coreOf l)) ∧
      (x.hmode = .kernel →
        s.deliver l f = (entered { x with status := .stopped, rslot := f.slot, pc := f.pc }).killCore (coreOf l)))

/-- spec/24 R363, R364, R368, spec/04 R85: RTT in its clause's last slot returns each executing lane from its handler to
the slot its record names, with its mode restored; a lane in no handler takes PLACEMENT when privileged, PRIV when not.
TLBINV drops the cached translations it names, those of its address space alone but for .ALL. (Which lanes may run RTT,
that the PC keeps its low bits, and that the slot goes on in the clause as it was fetched, are the model's, log entries
17, 51 and 52.) -/
def Obligations.ReturnsAndTlb : Prop :=
  open Sys2Proof.Claims in
  (∀ (s : State) (g : Guard), inLastSlot s → (s.exec g).Nodup →
    (∀ l ∈ s.group.lanes, (s.lane l).priv.getLsbD 0 = true ∨ (s.lane l).hmode = .user) →
    (∀ l ∈ s.exec g, (s.lane l).hmode ≠ .normal) →
    ∃ t, exec (.rtt g) s = .next (State.meet t (s.exec g)) ∧ t = { s with lanes := t.lanes, groups := without s (s.exec g) } ∧
      ∀ l, t.lane l = if l ∈ s.exec g then
        { returned (s.lane l) (match faultClause (s.lane l) ((s.lane l).f0.setWidth 48) with
            | some c => c.header.toNat / 2 ^ 52 % 16
            | none => s.nslotAt l ((s.lane l).f0.setWidth 48)) with status := .idle, readyAt := s.cycles }
      else s.lane l) ∧
  (∀ (s : State) (g : Guard) (l : Nat), inLastSlot s → s.group.lanes = [l] → s.exec g = [l] → (s.lane l).hmode = .normal →
    ((s.lane l).priv.getLsbD 0 = true → exec (.rtt g) s = .next ((s.trap l { code := 0x06 }).meet [l])) ∧
    ((s.lane l).priv.getLsbD 0 = false →
      exec (.rtt g) s = .next ((s.trap l { code := 0x40, info := 0xE0 }).meet []))) ∧
  (∀ (s : State) (g : Guard) (o : Ops) (what : TlbWhat), allPrivileged s →
    exec (.tlbinv g o what) s = .next { s with tlb := s.tlb.filter fun e => !(s.exec g).any fun l =>
      let mine := e.capx == s.capxOf (coreOf l)
      let page := fun k => mine && canonical (s.src64 l o.a) && e.sizeLog == k
        && e.page == (s.src64 l o.a).toNat % 2 ^ 57 / 2 ^ k
      match what with
      | .all => true
      | .ctx => mine
      | .page64k => page 16
      | .page2m => page 21
      | .page1g => page 30 })

/-- spec/02 R36, spec/10 R168, R169: CALL, RET, EXIT. (That a spilled doubleword stands in memory, and a refilled one is
read, within the step of the CALL or RET is the model's reading, log entry 24.) -/
def Obligations.CallsReturnsAndExits : Prop :=
  Claims.CallsAndReturns ∧ Claims.Exits

/-! ## Steps of other agents (spec/95) -/

namespace Sys2Proof.Claims

/-- Memory after some bytes were written from an address upward. -/
def writtenAt (m m' : List Host.Cell) (a : Nat) (data : List Byte) : Prop :=
  ∀ b, Memory.read m' b = if a ≤ b ∧ b < a + data.length then data.getD (b - a) 0 else Memory.read m b

/-- A lane that WAITW put to sleep goes on: its warp observes the times of the write, no older copy of the word's line
serves its core again, it acquires through the word, and it stands before the following clause (spec/11 R199, spec/12
R203, R206, R208). -/
def woken (s : State) (l : Nat) (w : Watch) (times : Tab Nat) : State :=
  let u := s.modWarp (warpOf l) fun x => { x with owt := laterTimes x.owt times }
  let v := match w.word with
    | .mem pa => (u.ownDrop (coreOf l) pa).acquireWord (coreOf l) w.scope pa (if w.w64 then 8 else 4)
    | .tile _ _ => u.acquire (coreOf l) w.scope
  (v.modLane l fun x => standsAt s x w.next).evalMeetings (warpOf l)

/-- The group of a partition path. -/
def pathAt (core part path : Nat) : Nat := core * 16 + part * 4 + path

/-- Does a lane go before another one by the issue key of spec/09 R149: not deferred first, deeper first, lower pc first,
lower number first? -/
def goesFirst (s : State) (l m : Nat) : Prop :=
  let x := s.lane l
  let y := s.lane m
  (x.defer = false ∧ y.defer = true) ∨ (x.defer = y.defer ∧ (y.depth < x.depth ∨ (x.depth = y.depth ∧
    (x.pc < y.pc ∨ (x.pc = y.pc ∧ l % 4096 ≤ m % 4096)))))

/-- The engine path of a class (spec/09 R151). -/
def classPath (cls : Nat) : Nat :=
  match cls with
  | 1 => 1 | 2 => 2 | 3 => 2 | 4 => 3 | _ => 0

/-- The clause a lane goes on with: the one it keeps, or the one fetched at its pc (spec/04 R71). -/
def clauseAhead (s : State) (l : Nat) : (W64 × List W64) ⊕ FaultRec :=
  match (s.lane l).kept with
  | some c => .inl (c.header, c.words)
  | none => s.fetchClause l (s.lane l).pc

/-- May a lane lead a partition's next group as overdue: Ready for 65,536 cycles, its engine path free (spec/09 R165)? -/
def overdueIn (s : State) (core part l : Nat) : Prop :=
  coreOf l = core ∧ s.partOf l = part ∧ s.issues core = true ∧ s.ready l = true ∧ (s.lane l).readyAt + 65536 ≤ s.cycles ∧
  match clauseAhead s l with
  | .inr _ => True
  | .inl (h, _) => h.toNat / 2 ^ 52 % 16 < (s.lane l).rslot ∨
      tfind s.groups (pathAt core part (classPath (h.toNat / 2 ^ 56 % 16))) = none

/-- Does the progress promise force a lane to lead its partition's next group: the launch's runnable thread of lowest
GTID, overdue there (spec/09 R165)? -/
def forced (s : State) (core part l : Nat) : Prop :=
  (∃ x, s.launchOf core = some x ∧ s.firstThread x = some l) ∧ overdueIn s core part l

/-- Is the header one of a clause: its check bits right, its class one of the six (spec/04 R70)? -/
def headerRight (h : W64) : Prop := h.toNat / 2 ^ 60 = 10 ∧ h.toNat / 2 ^ 56 % 16 < 6

/-- Do a warp's counters meet a header's thresholds: each at most its own, 7 not waiting (spec/04 R70, R72)? -/
def thresholdsHold (w : Warp) (h : W64) : Prop :=
  ∀ p ∈ [(w.ldc, 49), (w.stc, 46), (w.mxc, 43), (w.tlc, 40)], h.toNat / 2 ^ p.2 % 8 = 7 ∨ p.1 ≤ h.toNat / 2 ^ p.2 % 8

/-- Does a lane go on part-way through a clause? -/
def partWay (x : Lane) : Prop := x.rslot ≠ 0 ∨ x.kept ≠ none

/-- The record of a fault of a clause's fetch (spec/04 R71, spec/24 R356). -/
def fetchFault (pc : Addr48) (e : Trap) : FaultRec := { code := e.code, pc := pc, addr := e.addr, opnd := e.opnd, info := e.info }

/-- The lines of a lane's clause have come into its core's instruction cache, of 512 lines (spec/01 R15); nothing else
changes. -/
structure CodeCached (s u : State) (l : Nat) : Prop where
  rest : u = { s with cores := u.cores }
  others : ∀ c, c ≠ coreOf l → u.core c = s.core c
  core : { u.core (coreOf l) with icache := (s.core (coreOf l)).icache } = s.core (coreOf l)
  size : (s.core (coreOf l)).icache.length ≤ 512 → (u.core (coreOf l)).icache.length ≤ 512
  held : (s.core (coreOf l)).icache.length + 17 ≤ 512 → (s.lane l).kept = none → ∀ pa, s.laneVa l .fetch 8 ((s.lane l).pc.setWidth 64) = .inl pa →
    pa / 256 ∈ (u.core (coreOf l)).icache

/-- Has a lane been restored part-way through a clause (spec/24 R357)? -/
def midClause (s : State) (l : Nat) : Prop := (s.lane l).restored = true ∧ (s.lane l).rslot ≠ 0

end Sys2Proof.Claims

/-- spec/12 R204, R217, R219 to R221: a combining buffer sends its group on; a cache drops a copy when its lease has
ended, or at any time, and a home slice may write a line back at any time; a FLUSH brings the dirty lines of its ranges
to HBM, no other byte of HBM changes, and STC falls; an acquire at SYSTEM scope through a completion signal brings its
launch's dirty lines there. -/
def Sys2Proof.Claims.CachesAndFlushes : Prop :=
  open Sys2Proof.Claims in
  (∀ (s : State) (id : Nat) (o : MemOp), (s.ops.map (·.id)).Nodup → s.op id = some o →
    exec (.combineBufferSend id) s = .next { s with ops := s.ops.map fun p =>
      if p.id = id ∨ p.grp = o.grp ∧ o.grp ≠ 0 ∧ p.performed = false then { p with sent := true } else p }) ∧
  (∀ (s : State) (line : Nat), s.upsets = [] →
    exec (.eviction (.l2 (s.homeOf (line * 256))) line) s = .next (if tfind s.dirty line = none then s else
      { s with dirty := tdel s.dirty line,
               hbm := Memory.writeBytes s.hbm (line * 256) (Memory.readBytes s.mem (line * 256) 256) })) ∧
  (∀ (s : State) (c pa : Nat) (sc : Scope) (n : Nat), s.upsets = [] → (s.dirty.map (·.1)).Nodup →
    let due := s.generations.filter fun g => meets g.2 8 (canonPa pa) n
    (sc ≠ .system → s.acquireWord c sc pa n = s.acquire c sc) ∧
    let left := s.generations.filter fun g => !meets g.2 8 (canonPa pa) n
    ∃ t, s.acquireWord c .system pa n = t ∧
      t = { s.acquire c .system with hbm := t.hbm, dirty := t.dirty, generations := left } ∧
      ∀ a, Memory.read t.hbm a = if tfind s.dirty (a / 256) ∈ due.map fun g => some g.1 then Memory.read s.mem a
        else Memory.read s.hbm a) ∧
  (∀ (s : State) (k : CacheId) (line : Nat),
    let gone := { s with copies := s.copies.filter fun x => !(x.cache == k && x.line == line) }
    (k ≠ .l2 (s.homeOf (line * 256)) → exec (.eviction k line) s = .next gone) ∧
    (∀ x ∈ s.copies, x.cache = k → x.line = line → x.leaseEnd ≤ s.cacheGt k → exec (.leaseEnd k line) s = .next gone) ∧
    ((∀ x ∈ s.copies, x.cache = k → x.line = line → s.cacheGt k < x.leaseEnd) → exec (.leaseEnd k line) s = .next s)) ∧
  ∀ (s : State) (id : Nat) (o : MemOp) (ranges : List (Nat × Nat)), s.op id = some o → o.kind = .flush ranges → s.upsets = [] →
    s.issues o.core = true → (∃ l ∈ s.warpLanes o.warp, (s.lane l).status ≠ .retired) →
    let flushed := fun line => ∃ r ∈ ranges, r.2 ≠ 0 ∧ r.1 / 256 ≤ line ∧ line ≤ (r.1 + r.2 - 1) / 256
    open Classical in
    ∃ t, exec (.flushWritebackDone id) s = .next t ∧
      t = { s with hbm := t.hbm, dirty := t.dirty, warps := t.warps, ops := t.ops, cores := t.cores, pairs := t.pairs } ∧
      HeldBack s t o.warp id (scopes.foldl (fun x sc => tput 0 x sc.code (s.coreGt o.core)) []) ∧
      (∀ a, Memory.read t.hbm a = if flushed (a / 256) ∧ tfind s.dirty (a / 256) ≠ none then Memory.read s.mem a
        else Memory.read s.hbm a) ∧
      (∀ line, tfind t.dirty line = if flushed line then none else tfind s.dirty line) ∧
      (∀ sc ∈ scopes, s.coreGt o.core ≤ tget 0 (t.warp o.warp).swt sc.code) ∧
      ((∀ x ∈ s.ops, x.id ≠ o.id → x.ins = o.ins → x.warp = o.warp → x.storeDone = true) →
        (t.warp o.warp).stc = (s.warp o.warp).stc - 1)

/-- spec/11 R199, R201, R390, spec/12 R203, R207, spec/13 R389: a notice of a word wakes every lane of its core that
watches the word and was satisfied; a word read again that holds wakes its lane; the woken lane's core keeps no older
copy of the word; a release stalls until its warps' earlier operations have ended and GT is past their times by 2; a
slot that waits tries again. -/
def Sys2Proof.Claims.WaitsEnd : Prop :=
  open Sys2Proof.Claims in
  (∀ (s : State) (l : Nat) (w : Watch), (s.lane l).status = .asleepWaitw true w →
    exec (.wakeNotice l) s = .next (((s.coreLanes (coreOf l)).filterMap fun k => match (s.lane k).status with
      | .asleepWaitw true x => if x.fired = true ∧ x.word = w.word then some (k, x) else none
      | _ => none).foldl (fun t p => woken t p.1 p.2 p.2.times) s)) ∧
  (∀ (s : State) (c pa : Nat), s.ownDrop c pa =
    { s with copies := (s.copies.filter fun x => !(x.cache == .l1 c && x.line == pa / 256)).map fun x =>
      if x.line = pa / 256 ∧ x.cache = .l2 (c / 192) then { x with notFor := c :: x.notFor } else x }) ∧
  (∀ (s : State) (l : Nat) (w : Watch), (s.lane l).status = .asleepWaitw false w → s.wordHeld l w.w64 w.word = false →
    s.upsets = [] →
    open Classical in
    (∀ pa, w.word = .mem pa →
      let r := s.readAs (coreOf l) (warpOf l) s.nextId pa (if w.w64 then 8 else 4)
      exec (.unwatchedReread l) s = .next (if waitHolds w.cmp (leNat r.2.bytes) w.value.toNat
        then woken r.1 l w (r.1.timesOf (coreOf l) r.2.recs) else r.1)) ∧
    (∀ k e, w.word = .tile k e → exec (.unwatchedReread l) s = .next (if waitHolds w.cmp ((s.tile k).elem e) w.value.toNat
        then woken s l w [] else s))) ∧
  (∀ (s : State) (core part path : Nat) (g : Group) (ws : List Nat) (sc : Scope) (upTo : Nat), core < 1536 → part < 4 →
    path < 4 → tfind s.groups (pathAt core part path) = some g → g.wait = some (.release ws sc upTo) →
    open Classical in
    exec (.releaseStallEnd core part path) s = .next (if ∀ w ∈ ws,
        (∀ o ∈ s.ops, o.warp = w → upTo ≤ o.id) ∧
        max (tget 0 (s.warp w).swt sc.code) (tget 0 (s.warp w).owt sc.code) + 2 ≤ s.coreGt (w / 128)
      then { s with groups := tset s.groups (pathAt core part path) { g with wait := none, released := true, relWarps := ws } }
      else s)) ∧
  ∀ (s : State) (core part path : Nat) (g : Group), core < 1536 → part < 4 → path < 4 →
    tfind s.groups (pathAt core part path) = some g → g.wait = some .retry →
    exec (.slotWaitEnd core part path) s =
      .next { s with groups := tset s.groups (pathAt core part path) { g with wait := none } }

/-- spec/04 R70, R71, R72, R79, R85, spec/09 R148, R162, spec/24 R357: what a fetch faults with: a wrong header HEADER, a
nonzero reserved field RESERVED_FIELD with the header's address and INFO 0xFFFF (before a later word's own fault, log
entry 63), a doubleword that cannot be fetched its address's fault. A lane is Ready when it is idle, not Meeting, with no
fault of an engine's run to take first, and goes on part-way through a clause or its warp's counters meet the thresholds
of its clause's header (the fault of a clause that cannot be fetched is not waited with); or Held, with no lane that its
mask names awaited any more. -/
def Sys2Proof.Claims.FetchAndReadiness : Prop :=
  open Sys2Proof.Claims in
  (∀ (s : State) (l : Nat) (pc : Addr48), let va : W64 := pc.setWidth 64
    (∀ e, s.laneVa l .fetch 8 va = .inr e → s.fetchClause l pc = .inr (fetchFault pc e)) ∧
    ∀ pa, s.laneVa l .fetch 8 va = .inl pa → s.upsets = [] →
      let h := s.dwordAt pa
      let c := h.toNat / 2 ^ 56 % 16
      let word := fun j => s.laneVa l .fetch 8 (va + 8 + BitVec.ofNat 64 (8 * j))
      (¬ headerRight h → s.fetchClause l pc = .inr { code := 0x04, cls := c, pc := pc, word := h, info := c }) ∧
      (headerRight h → h.toNat % 2 ^ 40 ≠ 0 → ∃ w, s.fetchClause l pc =
        .inr { code := 0x05, cls := c, pc := pc, word := w, addr := va, info := 0xFFFF }) ∧
      (headerRight h → h.toNat % 2 ^ 40 = 0 → ∀ j e, j < h.toNat / 2 ^ 52 % 16 + 1 → word j = .inr e →
        (∀ i, i < j → ∃ a, word i = .inl a) → s.fetchClause l pc = .inr (fetchFault pc e)) ∧
      (headerRight h → h.toNat % 2 ^ 40 = 0 → (∀ j, j < h.toNat / 2 ^ 52 % 16 + 1 → ∃ a, word j = .inl a) →
        ∃ ws, s.fetchClause l pc = .inl (h, ws))) ∧
  (∀ (s : State) (l : Nat), let x := s.lane l
    s.ready l = true ↔
      (x.status = .idle ∧ ¬ (x.meet ≠ 0 ∧ x.pc = x.meet ∧ x.rslot = 0) ∧
        (x.runFaults = [] ∨ partWay x ∨ x.runHandler ≠ .normal) ∧ s.clauseOpen l = true) ∨
      ∃ m, x.status = .held m ∧
        s.awaits (s.heldAt (warpOf l) x.pc x.rslot x.depth.toNat) x.depth.toNat x.pc (warpOf l) m = false) ∧
  ∀ (s : State) (l : Nat), let va : W64 := (s.lane l).pc.setWidth 64
    (partWay (s.lane l) → s.clauseOpen l = true) ∧
    (∀ e, s.laneVa l .fetch 8 va = .inr e → s.clauseOpen l = true) ∧
    ∀ pa, ¬ partWay (s.lane l) → s.upsets = [] → s.laneVa l .fetch 8 va = .inl pa →
      (s.clauseOpen l = true ↔ ¬ headerRight (s.dwordAt pa) ∨ thresholdsHold (s.warp (warpOf l)) (s.dwordAt pa))

/-- spec/09 R148 to R151, R164, R165, spec/24 R357: a partition forms its next group from its Ready lanes: the lead is
the first by the issue key, a lane restored part-way through a clause before others; with it go, one for each other
home lane, the first of those that stand at the same clause and depth; a lane part-way through a clause goes alone
(spec/02 R22). The runnable thread of lowest GTID that has been Ready for 65,536 cycles leads before every key. The
clause's lines come into the core's instruction cache (spec/01 R15). The group's lanes are in flight and clear DEFER,
and run the words of their clause as fetched; when the clause cannot be run, each of them takes the fault of its fetch
instead, TRANSLATION at the resume slot it came from. -/
def Sys2Proof.Claims.GroupsAreFormed : Prop :=
  open Sys2Proof.Claims in
  (∀ (s : State) (core part l : Nat), core < 1536 → part < 4 → s.issues core = true →
    let ready := (s.pool core part).filter s.ready
    ((∀ k, ¬ forced s core part k) → s.lead ready = some l →
      exec (.issueGroupForm core part) s = .next (s.form core part ready l)) ∧
    (forced s core part l → exec (.issueGroupForm core part) s = .next (s.form core part ready l) ∧
      exec (.progressForcedLead core part) s = .next (s.form core part ready l))) ∧
  (∀ x : Lane, x.runnable = true ↔ x.helper = false ∧ ¬ (x.status = .idle ∧ x.meet ≠ 0 ∧ x.pc = x.meet ∧ x.rslot = 0) ∧
    (x.status = .idle ∨ x.status = .inFlight ∨ (∃ m, x.status = .held m) ∨ x.status = .refining)) ∧
  (∀ (s : State) (x : Launch) (l : Nat), s.firstThread x = some l → ∀ c ∈ x.cores, ∀ m ∈ s.coreLanes c,
    (s.lane m).runnable = true → (s.gtid l).toNat ≤ (s.gtid m).toNat) ∧
  (∀ (s : State) (ready : List Nat) (l : Nat), s.lead ready = some l → l ∈ ready ∧
    ((∀ m ∈ ready, ¬ midClause s m) → ∀ m ∈ ready, goesFirst s l m) ∧
    ((∃ m ∈ ready, midClause s m) → midClause s l ∧ ∀ m ∈ ready, midClause s m → goesFirst s l m)) ∧
  (∀ (s : State) (ready : List Nat) (l : Nat), (s.lane l).status = .idle → ¬ midClause s l →
    let beside := fun m => m ∈ ready ∧ m % 32 ≠ l % 32 ∧ (s.lane m).status = .idle ∧ (s.lane m).rslot = 0 ∧
      (s.lane m).kept = none ∧ (s.lane m).depth = (s.lane l).depth ∧ (s.lane m).pc = (s.lane l).pc
    ((s.lane l).rslot ≠ 0 ∨ (s.lane l).kept ≠ none → s.members ready l = [l]) ∧
    ((s.lane l).rslot = 0 → (s.lane l).kept = none → l ∈ ready → l ∈ s.members ready l ∧
      (∀ m ∈ s.members ready l, m = l ∨ beside m) ∧ (s.members ready l).Pairwise (fun a b => a % 32 ≠ b % 32) ∧
      ∀ c, beside c → ∃ m ∈ s.members ready l, m % 32 = c % 32 ∧ goesFirst s m c)) ∧
  (∀ (s : State) (core part : Nat) (ready : List Nat) (l : Nat) (f : FaultRec), s.upsets = [] → clauseAhead s l = .inr f →
    let joined := fun (t : State) m => (t.modLane m fun x =>
      { x with defer := false, status := .inFlight, rslot := 0, kept := none, restored := false, readyAt := t.cycles }).deliver m f
    ∃ u, CodeCached s u l ∧ s.form core part ready l = ((s.members ready l).foldl (fun t m => if f.code = 0x11
      then (joined t m).modLane m (fun x => { x with rslot := (t.lane m).rslot }) else joined t m) u).meet (s.members ready l)) ∧
  ∀ (s : State) (core part : Nat) (ready : List Nat) (l : Nat) (h : W64) (ws : List W64), s.upsets = [] →
    clauseAhead s l = .inl (h, ws) → (s.lane l).rslot ≤ h.toNat / 2 ^ 52 % 16 →
    let key := pathAt core part (classPath (h.toNat / 2 ^ 56 % 16))
    tfind s.groups key = none → (∀ m ∈ s.members ready l, (s.lane m).status ≠ .retired) →
    ∃ t u, s.form core part ready l = t ∧ CodeCached s u l ∧ t = { u with lanes := t.lanes, groups := t.groups } ∧
      t.groups = tset s.groups key { lanes := s.members ready l, pc := (s.lane l).pc, header := h, words := ws,
                                     slot := (s.lane l).rslot } ∧
      ∀ m, t.lane m = if m ∈ s.members ready l then
        { s.lane m with defer := false, status := .inFlight, rslot := 0, kept := none, restored := false, readyAt := s.cycles }
      else s.lane m

/-- spec/04 R70 to R72, spec/09 R148 to R165: when a lane is Ready, what its fetch gives, and which group forms. (Which
fault a clause shows with a bad header and later words that cannot be fetched is the model's, log entry 63.) -/
def Obligations.GroupsForm : Prop :=
  Claims.GroupsAreFormed ∧ Claims.FetchAndReadiness

/-- spec/13 R391, spec/02 R42, spec/24 R367: a fault of an engine's run waits with its lane under its operation's
number, and kills the context of a lane that has left; the lane takes that of the operation first issued between
clauses, the next one only after RTT from its handler; a lane held by TRANSLATION runs its slot again once firmware has
mapped the page, else takes ACCESS at the same place; a table walk puts its leaf in the TLBs of the core and of its
cluster, and in no other one. (What counts as between clauses, that a TRANSLATION leaves the fault registers as they
are, and that ACCESS keeps the rest of its record, are the model's, log entries 14 and 16.) -/
def Obligations.FaultsAndTranslations : Prop :=
  open Sys2Proof.Claims in
  (∀ (s : State) (id : Nat) (o : Origin) (t : Trap), let x := s.lane o.lane
    (x.status = .retired ∨ x.helper = true → s.runFault id o t = s.killCore o.core) ∧
    let f : FaultRec := { code := t.code, slot := o.slot, cls := o.cls, pc := o.pc, word := o.word, addr := t.addr,
                          opnd := t.opnd, info := t.info }
    (x.status ≠ .retired → x.helper = false →
      s.runFault id o t = { s with lanes := tset s.lanes o.lane { x with runFaults := tset x.runFaults id f } })) ∧
  (∀ (s : State) (l id : Nat) (f : FaultRec) (fs : Tab FaultRec), (s.lane l).runFaults = (id, f) :: fs →
    (s.lane l).runHandler = .normal → s.issues (coreOf l) = true →
    ((s.lane l).status = .idle ∧ (s.lane l).rslot = 0 ∧ (s.lane l).kept = none ∨
      (∃ b w, (s.lane l).status = .asleepWaitw b w) ∨ ∃ k, (s.lane l).status = .asleepBar k) →
    exec (.runFaultDelivery l) s = .next (((State.deliver
      { s with lanes := tset s.lanes l { s.lane l with runFaults := fs, status := .idle, rslot := 0 } } l f).modLane l
        fun y => { y with runHandler := y.hmode }).meet [l])) ∧
  (∀ (s : State) (l : Nat), (s.lane l).runHandler ≠ .normal → exec (.runFaultDelivery l) s = .next s) ∧
  (∀ (s : State) (l a : Nat) (f : FaultRec) (entry : Option W64), (s.lane l).status = .translating f →
    let u := match entry with
      | some e => (s.agentWrite 0 (a / 8 * 8) (toLe e.toNat 8)).1.unseal
      | none => s
    exec (.translationResolved l true a entry) s =
      .next (u.modLane l fun x => { x with status := .idle, readyAt := s.cycles }) ∧
    exec (.translationResolved l false a entry) s = .next ((u.deliver l { f with code := 0x12 }).meet [l])) ∧
  ∀ (s : State) (core k : Nat) (va leaf : W64), core < 1536 → canonical va = true → (s.core core).launch ≠ none →
    s.upsets = [] → s.walk (s.capxOf core) (va.toNat % 2 ^ 57) = some (leaf, k) →
    ∃ t, exec (.tableWalk core va) s = .next t ∧ t = { s with tlb := t.tlb } ∧
      t.tlbFind core (s.capxOf core) (va.toNat % 2 ^ 57) = some (leaf, k) ∧
      (t.tlb.filter fun e => e.tlb == core).length ≤ 512 ∧
      (t.tlb.filter fun e => e.tlb == 1536 + core / 8).length ≤ 8192 ∧
      (t.tlb.filter fun e => e.tlb != core && e.tlb != 1536 + core / 8) =
        s.tlb.filter fun e => e.tlb != core && e.tlb != 1536 + core / 8


/-- spec/12, spec/11 R199: what caches do of themselves, and how waits end. (Which line a full cache gives up, and which
atomics are one group, are the model's, log entries 57 and 60.) -/
def Obligations.CachesAndWaits : Prop :=
  Claims.CachesAndFlushes ∧ Claims.WaitsEnd

/-! ## Steps of the engines (spec/11, spec/13 to spec/17) -/

namespace Sys2Proof.Claims

/-- The half bytes that a stream holds, in order, element by element, low half first (spec/14 R246). -/
def streamNibbles (runs : List FeedRun) : List Nat :=
  runs.flatMap fun r => r.elems.flatMap fun x => (List.range r.nibbles).map fun i => x.toNat / 16 ^ i % 16

/-- Half bytes of an element (spec/03 R44, spec/11 R191). -/
def halfBytes (f : Fmt) : Nat :=
  match f with
  | .fp32 => 8 | .int32 => 8 | .uint32 => 8 | .bf16 => 4 | .fp16 => 4 | .int4 => 1 | .fp64 => 16 | .aq64 => 32 | _ => 2

/-- Steps of an MMA (spec/14 R248). -/
def stepsOf (f : Fmt) : Nat :=
  match f with
  | .bf16 => 32 | .fp16 => 32 | .int4 => 128 | _ => 64

/-- Element e of a stream's half bytes. -/
def elemOf (f : Fmt) (ns : List Nat) (e : Nat) : Nat :=
  ((List.range (halfBytes f)).map fun i => ns.getD (e * halfBytes f + i) 0 * 16 ^ i).sum % 2 ^ f.width

/-- A value rounded as an operation of a tile or of a drain rounds element e; an integer element by R60 (spec/03 R53,
R54, R60). -/
def roundedIn (o : Origin) (f : Fmt) (rm : Rm) (e : Nat) (x : FVal) : Nat :=
  if f.isInt then ((x.toInt f (ctlOf o.mode f rm).rm (o.rs e)).1 % 2 ^ f.width).toNat
  else (x.round f (ctlOf o.mode f rm) (o.rs e)).1

/-- Round(x, FP32, RNE), as the steps of the Haar transform round (spec/15 R261). -/
def single (x : FVal) : FVal := decodeFmt .fp32 (x.round .fp32 Ctl.nearest 0).1

/-- Half a value. -/
def halved (x : FVal) : FVal :=
  match x with
  | .fin n m e => .fin n m (e - 1)
  | x => x

/-- The approximation of level l of a column, at index q (spec/15 R261). -/
def haarSum (x : Nat → FVal) : Nat → Nat → FVal
  | 0, q => x q
  | l + 1, q => single (exactSum .rne [haarSum x l (2 * q), haarSum x l (2 * q + 1)]).1

/-- Row i of the tree over L levels of a column of n rows (spec/15 R261). -/
def treeRow (x : Nat → FVal) (n l i : Nat) : FVal :=
  if i < n / 2 ^ l then haarSum x l i
  else
    let k := ((List.range l).find? fun j => n / 2 ^ (j + 1) ≤ i).getD 0
    let q := i - n / 2 ^ (k + 1)
    single (exactSum .rne [haarSum x k (2 * q), (haarSum x k (2 * q + 1)).negate]).1

/-- Row q of what a column of a tree of n rows and L levels reconstructs to, k levels back (spec/15 R262). -/
def haarBackTo (x : Nat → FVal) (n l : Nat) : Nat → Nat → FVal
  | 0, q => x q
  | k + 1, q =>
    let d := x (n / 2 ^ (l - k) + q / 2)
    single (halved (exactSum .rne [haarBackTo x n l k (q / 2), if q % 2 = 1 then d.negate else d]).1)

/-- The value of an element's bits: an integer format's integer, a float's value (spec/03 R44, spec/14 R248). -/
def valueOf (f : Fmt) (x : Nat) : FVal :=
  let n := x % 2 ^ f.width
  if f = .uint8 ∨ f = .uint32 then .ofInt n
  else if f.isInt then .ofInt (if n < 2 ^ (f.width - 1) then n else (n : Int) - 2 ^ f.width)
  else decodeFmt f n

/-- The value of a tile's element as stored; of an absent row +0 (spec/15 R260). -/
def storedAt (t : Tile) (r c : Nat) : FVal :=
  if t.present r then valueOf t.fmt (t.elem (r * t.cols + c)) else .fin false 0 0

/-- A tile's spatial value: of a Haar tile what reconstruction gives (spec/15 R262). -/
def spatialAt (t : Tile) (x : Nat → Nat → FVal) (r c : Nat) : FVal :=
  if t.dom then haarBackTo (fun q => x q c) t.rows t.hlev t.hlev r else x r c

/-- May a Haar tile stand so: its rows a multiple of 2^HLEV (spec/13 R242)? -/
def wholeTree (t : Tile) : Prop := t.dom = true → 2 ^ t.hlev ∣ t.rows

/-- Is the largest magnitude of a row's elements at most a threshold, no NaN among them (spec/15 R263, spec/02 R28)? -/
def rowDropped (th : W32) (f : Fmt) (cols : Nat) (bits : Nat → Nat) : Prop :=
  ∀ c < cols, ∃ k, ((decodeFmt f (bits c % 2 ^ f.width)).abs).cmp (decodeFmt .fp32 th.toNat) = some k ∧ k ≤ 0

/-! ### What a copy moves (spec/13 R234, R235, R237, spec/15 R276) -/

/-- Coordinate k of an element of a window. -/
def coordAt (ly : Layout) (org : List Int) (row col k : Nat) : Int :=
  if k = 0 then org.getD 0 0 + (col : Int)
  else org.getD k 0 + ((row / ((List.range (k - 1)).map fun j => ly.wb.getD (j + 1) 0).prod % ly.wb.getD k 0 : Nat) : Int)

/-- Is an index one of the tensor's rows; and coordinate k of it, an invalid one at the edge (R237)? -/
def indexValid (ly : Layout) (x : Int) : Prop := 0 ≤ x ∧ x < ((ly.ext.drop 1).prod : Nat)
open Classical in
noncomputable def indexAt (ly : Layout) (x i0 : Int) (k : Nat) : Int :=
  if k = 0 then i0
  else if indexValid ly x then
    x / (((List.range (k - 1)).map fun j => ly.ext.getD (j + 1) 0).prod : Nat) % (ly.ext.getD k 0 : Nat)
  else if x < 0 then 0 else (ly.ext.getD k 0 : Nat) - 1

/-- The pieces of memory of the element at some coordinates: BASE + its bytes × i0 + Σ ik × STk; of an FP6 element, four
bits there and two bits in the crumb plane (R234, spec/03 R51). -/
def placed (ly : Layout) (i : Nat → Int) : List Piece :=
  let off : Int := (if ly.fmt.fp6 then 4 else ly.fmt.width : Nat) * i 0
    + 8 * ((List.range (ly.rank - 1)).map fun k => i (k + 1) * ly.st.getD (k + 1) 0).sum
  if ly.fmt.fp6 then [⟨bitAddr (8 * ly.base + off), 4, 2⟩, ⟨bitAddr (8 * (ly.base + ly.plane2) + off / 2), 2, 0⟩]
  else [⟨bitAddr (8 * ly.base + off), ly.fmt.width, 0⟩]

/-- Are coordinates in range? -/
def inExtents (ly : Layout) (i : Nat → Int) : Prop := ∀ k < ly.rank, 0 ≤ i k ∧ i k < (ly.ext.getD k 0 : Nat)

/-- A coordinate clamped to its edge. -/
def atEdge (ly : Layout) (i : Nat → Int) (k : Nat) : Int := max 0 (min (i k) ((ly.ext.getD k 0 : Nat) - 1))

/-- What a load finds outside the tensor: FILL 2 the edge, FILL 1 the fill value, FILL 0 zero (R234). -/
def filled (ly : Layout) (edge : Nat → Int) : List Piece ⊕ Nat :=
  if ly.fill = 2 then .inl (placed ly edge) else .inr (if ly.fill = 1 then ly.fillv % 2 ^ ly.fmt.width else 0)

/-- The group of 64 rows of a Haar window that an operation's next element belongs to (spec/15 R275). -/
def groupAt (o : CopyOp) (cols : Nat) : Int := o.origin.getD 1 0 / 64 + (o.pos / (64 * cols) : Nat)

/-- Does a Haar load need the header of that group: not below row 0, but for an edge fill, which takes row 0's (log
entry 82)? -/
def needsHead (o : CopyOp) (cols : Nat) : Prop := 0 ≤ groupAt o cols ∨ (recFields o.record).fill = 2

/-- Does a header pass a load's checks (spec/15 R275)? -/
def headerFits (ly : Layout) (hd : List Nat) : Prop :=
  let h := hd.getD 1 0
  h / 2 ^ 16 % 2 ^ 16 = 0 ∧ h / 2 ^ 5 % 8 = 0 ∧ (∀ k : Nat, 2 ≤ k → k < 8 → hd.getD k 0 = 0) ∧ h % 8 = ly.hlev ∧
  (ly.hpack = true → h / 2 ^ 8 % 2 ^ 8 = ((List.range 64).filter fun i => (hd.getD 0 0).testBit i).length)

/-- Where a load or gather finds element e, with the index `x` of its row, or the header `hd` of its group: pieces of
memory, or the bits of the fill. -/
noncomputable def found (o : CopyOp) (t : Tile) (x : Int) (hd : List Nat) (e : Nat) : List Piece ⊕ Nat :=
  let ly := recFields o.record
  let r := e / t.cols
  let i0 := o.origin.getD 0 0 + (e % t.cols : Nat)
  open Classical in
  if o.kind = .gather then
    let i := indexAt ly x i0
    if t.present r = false then .inr 0
    else if indexValid ly x ∧ inExtents ly i then .inl (placed ly i) else filled ly (atEdge ly i)
  else if ly.dom = true then
    let i := o.origin.getD 1 0 + (r : Int)
    let j := max i 0
    let b := (j % 64).toNat
    let row : Int := if ly.hpack then (hd.getD 1 0 / 2 ^ 32 + ((List.range b).filter fun j => (hd.getD 0 0).testBit j).length : Nat) else j
    let at_ := fun (j : Int) (k : Nat) => if k = 0 then j else row
    if i < 0 ∧ ly.fill ≠ 2 then filled ly (at_ 0)
    else if ¬ ((hd.getD 0 0).testBit b ∧ j < (ly.ext.getD 1 0 : Nat)) then .inr 0
    else if 0 ≤ i0 ∧ i0 < (ly.ext.getD 0 0 : Nat) then .inl (placed ly (at_ i0))
    else filled ly (at_ (max 0 (min i0 ((ly.ext.getD 0 0 : Nat) - 1))))
  else
    let i := coordAt ly o.origin r (e % t.cols)
    if inExtents ly i then .inl (placed ly i) else filled ly (atEdge ly i)

/-- Where a store or scatter writes element e: no piece where it lies outside the tensor. -/
noncomputable def stored (o : CopyOp) (t : Tile) (x : Int) (e : Nat) : List Piece :=
  let ly := recFields o.record
  open Classical in
  if o.kind = .scatter then
    let i := indexAt ly x (o.origin.getD 0 0 + (e % t.cols : Nat))
    if indexValid ly x ∧ inExtents ly i then placed ly i else []
  else
    let i := coordAt ly o.origin (e / t.cols) (e % t.cols)
    if inExtents ly i then placed ly i else []

/-- The bits of a piece as a copy engine sees them: in its own leased copy of the line, else at home (spec/12 R214). -/
def engineBits (s : State) (core : Nat) (eng : Bool) (p : Piece) : Option Nat :=
  match s.checkVa core (s.capxOf core) .read 1 (BitVec.ofNat 64 (p.bit / 8)) with
  | .inr _ => none
  | .inl pa =>
    let bytes := match s.copyOf (.engine core eng) (pa / 256) with
      | some x => Memory.readBytes x.cells pa ((p.width + 7) / 8)
      | none => Memory.readBytes s.mem (canonPa pa) ((p.width + 7) / 8)
    if isMemory pa then some (leNat bytes / 2 ^ (p.bit % 8) % 2 ^ p.width * 2 ^ p.shift) else none

/-- The bits of what a load found. -/
def foundBits (s : State) (core : Nat) (eng : Bool) (x : List Piece ⊕ Nat) : Option Nat :=
  match x with
  | .inl ps => (ps.mapM (engineBits s core eng)).map List.sum
  | .inr n => some n

/-- The physical address of a piece that a write may reach. -/
def pieceAt (s : State) (core : Nat) (p : Piece) : Nat :=
  ((s.checkVa core (s.capxOf core) .write 1 (BitVec.ofNat 64 (p.bit / 8))).getLeft?).getD 0

/-- May pieces be written, their translations at hand? -/
def writable (s : State) (core : Nat) (ps : List Piece) : Prop :=
  ∀ p ∈ ps, (s.checkVa core (s.capxOf core) .write 1 (BitVec.ofNat 64 (p.bit / 8))).isLeft ∧ isMemory (pieceAt s core p) ∧
    s.tlbFind core (s.capxOf core) (p.bit / 8 % 2 ^ 57) ≠ none

/-- Memory after a piece took its bits of an element: the other bits of its bytes stay (spec/03 R51). -/
def pieceWritten (s : State) (core : Nat) (m : List Host.Cell) (p : Piece) (x : Nat) : List Host.Cell :=
  let n := (p.width + 7) / 8
  let a := canonPa (pieceAt s core p)
  let old := leNat (Memory.readBytes m a n)
  let k := 2 ^ (p.bit % 8)
  Memory.writeBytes m a (toLe (old - old / k % 2 ^ p.width * k + x / 2 ^ p.shift % 2 ^ p.width * k) n)

/-- The operation as its run has come to meet its tile. -/
def tagOf (s : State) (o : CopyOp) : TileTag := if o.started then o.tag else (s.tile o.tile).tag

/-- The index of the row an operation is in: read at the row's first element, kept for the others (spec/13 R237). -/
def indexNow (s : State) (core : Nat) (eng : Bool) (o : CopyOp) (cols : Nat) (x : Int) : Prop :=
  if o.pos % cols = 0 then ∃ w, x = (BitVec.ofNat 32 w).toInt ∧
    engineBits s core eng ⟨bitAddr (8 * (o.index.toNat + 4 * (o.pos / cols) : Nat)), 32, 0⟩ = some w
  else x = o.idx

/-- The header of the group a Haar load is in: read at its first element, kept for the others (spec/15 R275). -/
def headerNow (s : State) (core : Nat) (eng : Bool) (o : CopyOp) (cols : Nat) (hd : List Nat) : Prop :=
  let ly := recFields o.record
  let g := max (groupAt o cols) 0
  match o.heads.find? (fun h => h.1 == g) with
  | some h => hd = h.2
  | none => hd.length = 8 ∧ headerFits ly hd ∧ ∀ k : Nat, k < 8 →
      engineBits s core eng ⟨bitAddr (8 * (ly.base + ly.plane2 + 64 * g + 8 * (k : Int))), 64, 0⟩ = some (hd.getD k 0)

/-- A copy engine's next operation, whose run may go on: its record is in order, its turn at the tile has come. -/
structure CopyTurn (s : State) (core : Nat) (eng : Bool) (o : CopyOp) : Prop where
  next : nextCopy ((s.core core).copies eng) = some o
  home : o.org.core = core
  runs : s.issues core = true
  ready : s.copyReady o = true
  sound : s.upsets = []
  tile : tfind s.tiles o.tile ≠ none
  record : (parseRecord o.record (o.kind == .gather || o.kind == .scatter) 0).isLeft
  window : o.kind = .load ∨ o.kind = .store → o.origin.length = (recFields o.record).rank
  list : o.kind = .gather ∨ o.kind = .scatter → o.index.toNat % 4 = 0
  fmt : (s.tile o.tile).fmt = (recFields o.record).fmt

/-- spec/13 R234, R235, R237, spec/15 R276, spec/12 R214: a load or gather moves up to `n` elements in ascending order,
each from its place in memory, or by the fill rule, or +0 for a row that is absent; its tile is in ENGINE meanwhile,
and its tag as it was. (The element of a Haar window's row below row 0 is the fill rule's: log entry 82.) -/
def LoadRuns : Prop :=
  ∀ (s : State) (core n : Nat) (eng : Bool) (o : CopyOp) (x : Int) (hd : List Nat), CopyTurn s core eng o →
    o.kind = .load ∨ o.kind = .gather →
    let ly := recFields o.record
    let t0 := s.tile o.tile
    let t1 := t0.withTag (tagOf s o)
    let g := max (groupAt o t0.cols) 0
    o.pos < t0.rows * t0.cols →
    let room := if o.kind = .gather then t0.cols - o.pos % t0.cols
      else if ly.dom then 64 * t0.cols - o.pos % (64 * t0.cols) else n
    let m := min (min n (t0.rows * t0.cols - o.pos)) room
    let at_ := fun i => found o t1 x hd (o.pos + i)
    (o.kind = .gather → indexNow s core eng o t0.cols x) →
    (o.kind = .load → ly.dom = true → o.origin.getD 1 0 % 64 = 0 ∧ (needsHead o t0.cols → headerNow s core eng o t0.cols hd)) →
    s.piecesReady o ((List.range m).flatMap fun i => ((at_ i).getLeft?).getD []) = true →
    (∀ i < m, foundBits s core eng (at_ i) ≠ none) →
    ∃ t p, exec (.copyEngineRun core eng n) s = .next t ∧ t.mem = s.mem ∧
      { t.tile o.tile with data := t0.data } = { t0 with engine := true } ∧ (∀ k, k ≠ o.tile → t.tile k = s.tile k) ∧
      (∀ e < t0.rows * t0.cols, (t.tile o.tile).elem e = if o.pos ≤ e ∧ e < o.pos + m
        then (foundBits s core eng (at_ (e - o.pos))).getD 0 else t0.elem e) ∧
      (t.core core).copies eng = (((s.core core).copies eng).map fun y => if y.id = o.id then p else y) ∧
      p = { o with started := true, tag := tagOf s o, pos := o.pos + m, idx := p.idx, heads := p.heads } ∧
      (o.kind = .gather → p.idx = x) ∧
      (o.kind = .load → ly.dom = true → needsHead o t0.cols → p.heads.find? (fun h => h.1 == g) = some (g, hd))

/-- spec/13 R235, R237, spec/15 R262, R277, spec/12 R213: a store, or a scatter, of a spatial record moves up to `n`
elements in ascending order, each to its place in memory; those outside the tensor go nowhere; a Haar tile's elements
are reconstructed and rounded; no other byte of memory changes. -/
def StoreRuns : Prop :=
  ∀ (s : State) (core n : Nat) (eng : Bool) (o : CopyOp) (x : Int), CopyTurn s core eng o →
    o.kind = .store ∨ o.kind = .scatter →
    let ly := recFields o.record
    let t0 := s.tile o.tile
    let t1 := t0.withTag (tagOf s o)
    let total := t0.rows * t0.cols
    o.pos < total →
    let m := min (min n (total - o.pos)) (if o.kind = .scatter then t0.cols - o.pos % t0.cols else n)
    let bits := fun e => if t1.dom
      then roundedIn o.org t1.fmt .mode e (spatialAt t1 (storedAt t1) (e / t1.cols) (e % t1.cols)) else t1.elem e
    let ps := (List.range m).flatMap fun i => stored o t1 x (o.pos + i)
    ly.dom = false → wholeTree t1 → (t1.dom = true → o.org.mode.getLsbD 48 = false) →
    (o.kind = .scatter → indexNow s core eng o t0.cols x) →
    s.piecesReady o (if o.kind = .store ∧ o.pos = 0 then (List.range total).flatMap (stored o t1 x) else ps) = true →
    writable s core ps →
    ∃ t p, exec (.copyEngineRun core eng n) s = .next t ∧
      t.mem = (List.range m).foldl (fun mem i =>
        (stored o t1 x (o.pos + i)).foldl (fun mem p => pieceWritten s core mem p (bits (o.pos + i))) mem) s.mem ∧
      (∀ k, t.tile k = s.tile k) ∧
      (t.core core).copies eng = (((s.core core).copies eng).map fun y => if y.id = o.id then p else y) ∧
      p.pos = o.pos + m ∧ p.started = true ∧ p.moved = false ∧ p.tag = tagOf s o ∧ (o.kind = .scatter → p.idx = x)

/-- The tile's row in place b of the group of 64 rows at g of a Haar window, or none (spec/15 R275). -/
def rowOfGroup (org : List Int) (t : Tile) (g : Int) (b : Nat) : Option Nat :=
  let r := 64 * g + (b : Int) - org.getD 1 0
  if 0 ≤ r ∧ r < t.rows then some r.toNat else none

/-- Is the row in place b of group g present? -/
def presentIn (org : List Int) (t : Tile) (g : Int) (b : Nat) : Bool :=
  match rowOfGroup org t g b with
  | some r => t.present r
  | none => false

/-- What a store of a Haar record writes of group g, whose first stored row is ROWOFF `off`: its rows' elements in the
tensor, absent rows as +0 with HPACK 0 and not at all with HPACK 1, then its header of eight doublewords (spec/15 R275,
R276). -/
def groupStored (ly : Layout) (org : List Int) (t : Tile) (g : Int) (off : Nat) : List (List Piece × Nat) :=
  let here := presentIn org t g
  let count := fun n : Nat => ((List.range n).filter fun b => here b).length
  let rows := (List.range 64).flatMap fun b => match rowOfGroup org t g b with
    | none => []
    | some r =>
      let row : Int := if ly.hpack then (off + count b : Nat) else 64 * g + (b : Int)
      if (ly.hpack = false ∨ here b = true) ∧ 64 * g + (b : Int) < (ly.ext.getD 1 0 : Nat) then
        ((List.range t.cols).filter fun c : Nat =>
            decide (0 ≤ org.getD 0 0 + (c : Int) ∧ org.getD 0 0 + (c : Int) < (ly.ext.getD 0 0 : Nat))).map fun c : Nat =>
          (placed ly fun k => if k = 0 then org.getD 0 0 + (c : Int) else row,
            if here b then t.elem (r * t.cols + c) else 0)
      else []
  let first := if ly.hpack then off % 2 ^ 32 else ((64 * g) % 2 ^ 32).toNat
  let word := fun k : Nat => if k = 0 then ((List.range 64).map fun b => if here b then 2 ^ b else 0).sum
    else if k = 1 then first * 2 ^ 32 + count 64 * 2 ^ 8 + t.thk * 8 + t.hlev else 0
  rows ++ (List.range 8).map fun k => ([⟨bitAddr (8 * (ly.base + ly.plane2 + 64 * g + 8 * (k : Int))), 64, 0⟩], word k)

/-- All that a store of a Haar record writes, group after group of its window, none below row 0 (log entry 82), from the
first group's ROWOFF on (spec/15 R276). -/
def haarStored (ly : Layout) (org : List Int) (t : Tile) (off : Nat) : List (List Piece × Nat) :=
  let g := fun q : Nat => org.getD 1 0 / 64 + (q : Int)
  let rowoff := fun q : Nat => off + ((List.range q).map fun j =>
    if 0 ≤ g j then ((List.range 64).filter fun b => presentIn org t (g j) b).length else 0).sum
  (List.range ((t.rows + 63) / 64)).flatMap fun q => if 0 ≤ g q then groupStored ly org t (g q) (rowoff q) else []

/-- The ROWOFF that a packed store begins with: from the header in memory of the first group it writes, read once
(spec/15 R276). -/
def offNow (s : State) (core : Nat) (eng : Bool) (o : CopyOp) (off : Nat) : Prop :=
  let ly := recFields o.record
  match o.heads with
  | h :: _ => off = h.2.getD 1 0 / 2 ^ 32
  | [] => ∃ w, off = w / 2 ^ 32 ∧ engineBits s core eng
      ⟨bitAddr (8 * (ly.base + ly.plane2 + 64 * max (o.origin.getD 1 0 / 64) 0 + 8)), 64, 0⟩ = some w

/-- spec/15 R275, R276, R277, spec/12 R213: a store of a Haar record, from a Haar tile of its levels, moves up to `n`
elements and header doublewords more, each group's header after its rows; the tile stays. -/
def HaarStoreRuns : Prop :=
  ∀ (s : State) (core n off : Nat) (eng : Bool) (o : CopyOp), CopyTurn s core eng o → o.kind = .store →
    let ly := recFields o.record
    let t1 := (s.tile o.tile).withTag (tagOf s o)
    let items := haarStored ly o.origin t1 off
    let m := min n (items.length - o.pos)
    let ps := fun (xs : List (List Piece × Nat)) => xs.flatMap (·.1)
    let now := (items.drop o.pos).take m
    ly.dom = true → t1.dom = true → t1.hlev = ly.hlev → o.origin.getD 1 0 % 64 = 0 → o.pos < items.length →
    (ly.hpack = true → offNow s core eng o off) →
    s.piecesReady o (if o.pos = 0 then ps items else ps now) = true → writable s core (ps now) →
    ∃ t p, exec (.copyEngineRun core eng n) s = .next t ∧
      t.mem = now.foldl (fun mem x => x.1.foldl (fun mem p => pieceWritten s core mem p x.2) mem) s.mem ∧
      (∀ k, t.tile k = s.tile k) ∧
      (t.core core).copies eng = (((s.core core).copies eng).map fun y => if y.id = o.id then p else y) ∧
      p.pos = o.pos + m ∧ p.started = true ∧ p.moved = false ∧ p.tag = tagOf s o ∧
      (ly.hpack = true → ∃ h hs, p.heads = h :: hs ∧ h.2.getD 1 0 / 2 ^ 32 = off)

/-- spec/15 R265, R277: a store or scatter whose run meets a tag it may not writes nothing: it leaves its queue, TLC
falling with it, and DOMAIN with the tile's handle goes to the lane that supplied its operands. -/
def StoreMeetsTag : Prop :=
  ∀ (s : State) (core n : Nat) (eng : Bool) (o : CopyOp), CopyTurn s core eng o → o.kind = .store ∨ o.kind = .scatter →
    o.started = false → (s.tile o.tile).freeing = false →
    let ly := recFields o.record
    let t := s.tile o.tile
    (if ly.dom then t.dom = false ∨ t.hlev ≠ ly.hlev else t.dom = true ∧ o.org.mode.getLsbD 48 = true) →
    ∃ u : State, exec (.copyEngineRun core eng n) s = .next (u.runFault o.id o.org { code := Code.domain, info := o.tile % 256 }) ∧
      u = { s with cores := u.cores, warps := (s.countDown o.org.warp 3).warps, lanes := u.lanes,
                   copies := s.copies.filter fun y => y.cache ≠ .engine core eng } ∧
      (∀ c, u.core c = if c = core then (if eng
          then { s.core core with copy1 := (s.core core).copy1.filter fun y => y.id ≠ o.id }
          else { s.core core with copy0 := (s.core core).copy0.filter fun y => y.id ≠ o.id }) else s.core c) ∧
      ∀ l, u.lane l = (s.modLane o.org.lane fun y => { y with gstat := y.gstat ||| o.flags.setWidth 32 }).lane l

/-- spec/13 R235, R236, spec/15 R260, R262, spec/26 R375: once all has moved the tag is written, the flags of its
roundings reach the lane that supplied the operands, the tile leaves ENGINE, and the operation leaves its queue, TLC
falling with it, or its completion write is next. -/
def CopiesEnd : Prop :=
  ∀ (s : State) (core n : Nat) (eng : Bool) (o : CopyOp), nextCopy ((s.core core).copies eng) = some o → o.org.core = core →
    s.issues core = true → o.started = true → tfind s.tiles o.tile ≠ none → (s.tile o.tile).freeing = false →
    let ly := recFields o.record
    let t0 := s.tile o.tile
    (o.kind = .store → ly.dom = false → wholeTree (t0.withTag o.tag)) →
    (if o.kind = .store ∧ ly.dom then (haarStored ly o.origin (t0.withTag o.tag) 0).length else t0.rows * t0.cols) ≤ o.pos →
    ∃ t, exec (.copyEngineRun core eng n) s = .next t ∧
      t = { s with lanes := t.lanes, tiles := t.tiles, cores := t.cores, warps := t.warps,
                   copies := s.copies.filter fun y => y.cache ≠ .engine core eng } ∧
      (∀ l, t.lane l = (s.modLane o.org.lane fun y => { y with gstat := y.gstat ||| o.flags.setWidth 32 }).lane l) ∧
      (∀ k, k ≠ o.tile → t.tile k = s.tile k) ∧
      (o.kind = .store ∨ o.kind = .scatter → t.tile o.tile = t0) ∧
      (o.kind = .gather → t.tile o.tile = { t0 with engine := false }) ∧
      (o.kind = .load → t.tile o.tile = { t0 with engine := false, dom := ly.dom, hlev := if ly.dom then ly.hlev else 0,
                                                  thk := 0, pv := ly.dom, pres := (t.tile o.tile).pres }) ∧
      (o.kind = .load → ly.dom = true → ∀ r < t0.rows, let i := o.origin.getD 1 0 + (r : Int)
        ((t.tile o.tile).present r = true ↔ i < 0 ∨ i < (ly.ext.getD 1 0 : Nat) ∧
          ∃ g hd, o.heads.find? (fun h => h.1 == i / 64) = some (g, hd) ∧ (hd.getD 0 0).testBit (i % 64).toNat)) ∧
      (o.done = none → (t.core core).copies eng = (((s.core core).copies eng).filter fun y => y.id ≠ o.id) ∧
        t.warps = (s.countDown o.org.warp 3).warps) ∧
      (o.done ≠ none → (t.core core).copies eng = (((s.core core).copies eng).map fun y =>
        if y.id = o.id then { o with moved := true } else y) ∧ t.warps = s.warps)

/-! ### An operation of the matrix engine starts (spec/14 R247, R249, spec/15 R273) -/

/-- The row or column of a stream that half byte n comes from, and its element there. -/
def feederAt : List FeedRun → Nat → Option (FeedRun × Nat)
  | [], _ => none
  | r :: rs, n =>
    let k := r.elems.length * r.nibbles
    if n < k then some (r, r.offset + n / r.nibbles) else feederAt rs (n - k)

/-- What fed element i of step q of an operand in a format. -/
def stepFeeder (f : Fmt) (runs : List FeedRun) (q i : Nat) : FeedRun × Nat :=
  (feederAt runs ((64 * q + i) * halfBytes f)).getD ({ elems := [], nibbles := 1 }, 0)

/-- What fed step q. -/
def stepTag (f : Fmt) (runs : List FeedRun) (q : Nat) : FeedRun := (stepFeeder f runs q 0).1

/-- Does step q of A pair with step q of B, as the table of spec/15 R273 has it for an operation of A's first step? -/
def stepPairs (o : MmaOp) (a b : List FeedRun) (q : Nat) : Prop :=
  let first := stepTag o.fa a 0
  let x := stepTag o.fa a q
  let y := stepTag o.fb b q
  first.dir ≠ .alongJ ∧ x.dir = first.dir ∧ (first.dir ≠ .alongK → y.dir = .spatial) ∧
    (first.dir = .alongI → x.bind = first.bind) ∧
    (first.dir = .alongK → y.dir = .alongK ∧ x.rows = y.rows ∧ x.hlev = y.hlev ∧ x.row = y.row)

/-- Is the tile row of a step along k absent from its tile? -/
def rowAbsent (r : FeedRun) : Prop := r.present.getD r.row true = false

/-- The streams of an operation's block. -/
def streamIn (s : State) (p : Nat) (o : MmaOp) (f : Fifo) : List FeedRun := tget [] (s.pair p).streams (o.stream * 4 + f.code)

/-- Segments of an operation, each with 64 group parameter words (spec/14 R249). -/
def segmentsOf (o : MmaOp) : Nat :=
  match o.grp with
  | none => 0
  | some g => max (stepsOf o.fa / (match g with | .g32 => 32 | .g64 => 64 | .g128 => 128)) 1

/-- Half bytes that an operation takes of each stream. -/
def takenOf (o : MmaOp) (f : Fifo) : Nat :=
  match f with
  | .a => 64 * stepsOf o.fa * halfBytes o.fa
  | .b => 64 * stepsOf o.fa * halfBytes o.fb
  | .m => 512 * segmentsOf o

/-- Group parameter word i of an operation, and whether its reserved fields pass (spec/03 R62). -/
def paramOf (s : State) (p : Nat) (o : MmaOp) (i : Nat) : Nat :=
  ((List.range 8).map fun k => (streamNibbles (streamIn s p o .m)).getD (8 * i + k) 0 * 16 ^ k).sum
def paramPasses (o : MmaOp) (w : Nat) : Prop := w / 2 ^ 8 % 2 ^ 8 = 0 ∧ (o.fa = .int4 → w / 2 ^ 4 % 2 ^ 4 = 0)

/-- The head of a pair's queue may start: the arrays have room, its streams hold all it reads. -/
structure MmaTurn (s : State) (p : Nat) (o : MmaOp) (rest : List MmaOp) : Prop where
  head : (s.pair p).queue = o :: rest
  sound : s.upsets = []
  room : (s.pair p).arrays.length < 2
  formats : stepsOf o.fb = stepsOf o.fa
  fed : ∀ f, takenOf o f ≤ (streamNibbles (streamIn s p o f)).length

/-- The operation has left the pair's queue, with what it reads of its streams; the accumulators stand. -/
structure MmaTaken (s t : State) (p : Nat) (o : MmaOp) (rest : List MmaOp) : Prop where
  others : ∀ q, q ≠ p → t.pair q = s.pair q
  queue : (t.pair p).queue = rest
  acc : (t.pair p).acc = (s.pair p).acc
  taken : ∀ f, streamNibbles (streamIn t p o f) = (streamNibbles (streamIn s p o f)).drop (takenOf o f)

/-- spec/14 R247, R249, spec/15 R273: an operation whose steps pair starts: it takes its elements; a row of A along i
that no step holds is skipped; of steps along k one absent on either side gives zeros, and each has its row's weight:
the exponent L of an approximation row, l of a row of level l. -/
def MmaStarts : Prop :=
  ∀ (s : State) (p : Nat) (o : MmaOp) (rest : List MmaOp), MmaTurn s p o rest →
    let a := streamIn s p o .a
    let b := streamIn s p o .b
    let dir := (stepTag o.fa a 0).dir
    (∀ i < 64 * segmentsOf o, paramPasses o (paramOf s p o i)) → (∀ q < stepsOf o.fa, stepPairs o a b q) →
    ∃ (t : State) (r : MmaRun), exec (.mmaStart p) s = .next t ∧ t = { s with pairs := t.pairs } ∧ MmaTaken s t p o rest ∧
      (t.pair p).arrays = (s.pair p).arrays ++ [r] ∧ r.op = o ∧
      (∀ i < 64 * segmentsOf o, r.params.getD i 0 = BitVec.ofNat 32 (paramOf s p o i)) ∧
      (∀ i < 64, (r.skip.getD i false = true ↔ dir = .alongI ∧
        ∀ q < stepsOf o.fa, let x := stepFeeder o.fa a q i; x.1.present.getD x.2 true = false)) ∧
      ∀ q < stepsOf o.fa,
        let x := stepTag o.fa a q
        let w := r.weights.getD q 0
        let gone := dir = .alongK ∧ (rowAbsent x ∨ rowAbsent (stepTag o.fb b q))
        (dir ≠ .alongK → w = 0) ∧ (dir = .alongK → (x.row < x.rows / 2 ^ x.hlev → w = x.hlev) ∧
          ∀ l : Nat, 0 < l → l ≤ x.hlev → x.rows / 2 ^ l ≤ x.row → x.row < x.rows / 2 ^ (l - 1) → w = l) ∧
        ∀ i < 64,
          (gone → (r.a.getD i []).getD q 0 = 0 ∧ (r.b.getD i []).getD q 0 = 0) ∧
          (¬ gone → (r.a.getD i []).getD q 0 = BitVec.ofNat 32 (elemOf o.fa (streamNibbles a) (64 * q + i)) ∧
            (r.b.getD i []).getD q 0 = BitVec.ofNat 32 (elemOf o.fb (streamNibbles b) (64 * q + i)))

/-- spec/15 R273, spec/14 R249: an operation with a step that does not pair, whatever DOMPOL says, or with a group
parameter word that fails its check, takes its elements and ends: MXC falls, and its lane takes DOMAIN with the handle
that fed the first such step of A, or RESERVED_FIELD with the word's index; no row is written, and the rest of the
queue may go on. -/
def MmaRefuses : Prop :=
  ∀ (s : State) (p : Nat) (o : MmaOp) (rest : List MmaOp) (n : Nat), MmaTurn s p o rest →
    let a := streamIn s p o .a
    let b := streamIn s p o .b
    let ends := fun tr : Trap => ∃ (t : State), exec (.mmaStart p) s = .next
        (({ t with warps := (s.countDown o.org.warp 2).warps } : State).runFault o.id o.org tr) ∧
      t = { s with pairs := t.pairs } ∧ MmaTaken s t p o rest ∧ (t.pair p).arrays = (s.pair p).arrays
    (n < stepsOf o.fa → ¬ stepPairs o a b n → (∀ q < n, stepPairs o a b q) →
      ends { code := Code.domain, info := (stepTag o.fa a n).handle }) ∧
    ((∀ q < stepsOf o.fa, stepPairs o a b q) → n < 64 * segmentsOf o → ¬ paramPasses o (paramOf s p o n) →
      (∀ i < n, paramPasses o (paramOf s p o i)) → ends { code := Code.reservedField, info := n })

/-! ### Drains (spec/14 R255) -/

/-- The accumulators' rows that a drain works on: those read as its transform began, or as they stand. -/
def drainBits (s : State) (p : Nat) (d : DrainOp) (i j : Nat) : Nat :=
  if d.haar ≠ none ∧ d.started = true then (d.taken.getD i []).getD j 0
  else (tget 0 (s.pair p).acc ((d.first + i) * 64 + j)).toNat

/-- The value of a drain's element before it is rounded: transformed with .HAAR. -/
def drainValue (s : State) (p : Nat) (d : DrainOp) (i j : Nat) : FVal :=
  let x := fun i => decodeFmt .fp32 (drainBits s p d i j)
  match d.haar with
  | some (l, _, _) => treeRow x d.n l i
  | none => x i

/-- The element rounded; FP32 without .HAAR passes unchanged. -/
def drainRounded (s : State) (p : Nat) (d : DrainOp) (i j : Nat) : Nat :=
  if d.fmt = .fp32 ∧ d.haar = none then drainBits s p d i j else roundedIn d.org d.fmt d.rm (64 * i + j) (drainValue s p d i j)

/-- Does the row stay: no detail row whose rounded magnitudes are all at most the threshold? -/
def drainKeeps (s : State) (p : Nat) (d : DrainOp) (i : Nat) : Prop :=
  match d.haar with
  | some (l, _, th) => ¬ (d.n / 2 ^ l ≤ i ∧ rowDropped th d.fmt 64 (drainRounded s p d i))
  | none => True

/-- The element added to what its destination held. -/
def drainAdded (s : State) (p : Nat) (d : DrainOp) (i j : Nat) (old : FVal) : Nat :=
  roundedIn d.org d.fmt d.rm (64 * i + j)
    (exactSum (ctlOf d.org.mode d.fmt d.rm).rm [flushIn d.org.mode d.fmt old, drainValue s p d i j]).1

/-- A drain whose turn it is, and which may run. -/
structure DrainTurn (s : State) (p : Nat) (d : DrainOp) : Prop where
  next : s.nextDrain p = some d
  runs : s.issues d.org.core = true
  ready : s.drainReady d = true
  sound : s.upsets = []
  format : d.fmt.code ≤ 6
  plain : d.mixed = false
  tree : ∀ l k th, d.haar = some (l, k, th) → 2 ^ l ∣ d.n ∧ (d.started = true → d.taken.length = d.n ∧
    ∀ r ∈ d.taken, r.length = 64 ∧ ∀ b ∈ r, b < 2 ^ 32)

/-- spec/14 R255, spec/15 R260 to R263: a drain to a tile writes up to `n` rows more, from the first on: rounded,
transformed and thresholded with .HAAR, added with .ADD to a tile of the same domain; the accumulators stay. -/
def TileDrains : Prop :=
  ∀ (s : State) (p k n : Nat) (d : DrainOp), DrainTurn s p d → d.dest = .tile k → tfind s.tiles k ≠ none →
    let t0 := s.tile k
    let m := min n (d.n - d.row)
    t0.fmt = d.fmt → t0.rows = d.n → t0.cols = 64 → d.row < d.n →
    (d.add = true → match d.haar with
      | some (l, _, _) => t0.dom = true ∧ t0.hlev = l
      | none => t0.dom = false) →
    open Classical in
    ∃ t q, exec (.drainRun p n) s = .next t ∧ t.mem = s.mem ∧ (t.pair p).acc = (s.pair p).acc ∧ t.warps = s.warps ∧
      { t.tile k with data := t0.data, engine := t0.engine } = t0 ∧ (d.started = false → (t.tile k).engine = true) ∧
      (t.pair p).drains = ((s.pair p).drains.map fun x => if x.id = d.id then q else x) ∧
      q = { d with started := true, row := d.row + m, taken := q.taken, max := q.max, flags := q.flags } ∧
      q.max.toNat = ((List.range m).flatMap fun i => (List.range 64).map fun j => drainBits s p d (d.row + i) j % 2 ^ 31).foldl
        max d.max.toNat ∧
      ∀ i < d.n, ∀ j < 64, (t.tile k).elem (i * 64 + j) =
        if d.row ≤ i ∧ i < d.row + m then
          if d.add = false then (if drainKeeps s p d i then drainRounded s p d i j else 0)
          else if d.haar = none then drainAdded s p d i j (decodeFmt d.fmt (t0.elem (i * 64 + j)))
          else if drainKeeps s p d i then drainAdded s p d i j (storedAt t0 i j)
          else if t0.present i then t0.elem (i * 64 + j) else 0
        else t0.elem (i * 64 + j)

/-- spec/14 R254, R255, spec/12 R213, R215: a drain to memory writes up to `n` rows more, element after element, added
with .ADD to what stands there. -/
def MemoryDrains : Prop :=
  ∀ (s : State) (p n : Nat) (d : DrainOp) (va : W64), DrainTurn s p d → d.dest = .mem va → d.haar = none →
    d.row < d.n → va.toNat % 64 = 0 → d.fmt.code ≤ 4 →
    let c := d.org.core
    let m := min n (d.n - d.row)
    let z := d.fmt.width / 8
    let piece := fun e : Nat => (⟨bitAddr ((8 * (va.toNat + z * e) : Nat) : Int), d.fmt.width, 0⟩ : Piece)
    let at_ := fun e => canonPa (pieceAt s c (piece e))
    writable s c ((List.range (64 * m)).map fun e => piece (64 * d.row + e)) →
    (d.add = true → ∀ e < 64 * m,
      (s.checkVa c (s.capxOf c) .read 1 (BitVec.ofNat 64 ((piece (64 * d.row + e)).bit / 8))).isLeft) →
    ∃ t q, exec (.drainRun p n) s = .next t ∧ (∀ k, t.tile k = s.tile k) ∧ (t.pair p).acc = (s.pair p).acc ∧
      (t.pair p).drains = ((s.pair p).drains.map fun x => if x.id = d.id then q else x) ∧
      q.row = d.row + m ∧ q.started = true ∧ q.moved = false ∧
      t.mem = (List.range (64 * m)).foldl (fun mem e =>
        let i := d.row + e / 64
        let a := at_ (64 * d.row + e)
        Memory.writeBytes mem a (toLe (if d.add
          then drainAdded s p d i (e % 64) (decodeFmt d.fmt (leNat (Memory.readBytes mem a z)))
          else drainRounded s p d i (e % 64)) z)) s.mem

/-- spec/14 R255 to R257, spec/26 R375: once its rows are written a drain leaves its tag on a tile, which leaves
ENGINE; its flags reach the lane that supplied the operands; it leaves the engine, MXC falling with it, or its AMAX
update is next. -/
def DrainsEnd : Prop :=
  ∀ (s : State) (p n : Nat) (d : DrainOp), DrainTurn s p d → d.started = true → d.n ≤ d.row →
    (∃ l ∈ s.warpLanes d.org.warp, (s.lane l).status ≠ .retired) →
    (∀ k, d.dest = .tile k → tfind s.tiles k ≠ none ∧ (s.tile k).freeing = false ∧ (s.tile k).rows = d.n) →
    ∃ t, exec (.drainRun p n) s = .next t ∧ t.mem = s.mem ∧ (t.pair p).acc = (s.pair p).acc ∧
      (∀ l, t.lane l = (s.modLane d.org.lane fun y => { y with gstat := y.gstat ||| d.flags.setWidth 32 }).lane l) ∧
      (d.amax = none → (t.pair p).drains = (s.pair p).drains.filter (fun x => x.id ≠ d.id) ∧
        (t.warp d.org.warp).mxc = (s.warp d.org.warp).mxc - 1 ∧
        ∀ sc ∈ scopes, tget 0 d.times sc.code ≤ tget 0 (t.warp d.org.warp).swt sc.code) ∧
      (d.amax ≠ none → (t.pair p).drains = ((s.pair p).drains.map fun x => if x.id = d.id then { d with moved := true } else x) ∧
        t.warps = s.warps) ∧
      ∀ k, d.dest = .tile k → (t.tile k).data = (s.tile k).data ∧ (t.tile k).engine = false ∧
        match d.haar with
        | none => (t.tile k).dom = false ∧ (t.tile k).hlev = 0 ∧ (t.tile k).thk = 0 ∧ (t.tile k).pv = false
        | some (l, j, _) => (t.tile k).dom = true ∧ (t.tile k).hlev = l ∧ (t.tile k).thk = j ∧ (t.tile k).pv = true ∧
          ∀ i < d.n, ((t.tile k).present i = true ↔ drainKeeps s p d i ∨ (d.add = true ∧ (s.tile k).present i = true))

/-! ### The tile unit (spec/15 R264 to R272) -/

/-- The value that a tile operation reads from an element: subnormals flushed under FTZI (spec/15 R266). -/
def operandAt (o : Origin) (t : Tile) (r c : Nat) : FVal := flushIn o.mode t.fmt (storedAt t r c)

/-- Does the operation stay in the Haar domain (R264)? -/
def staysHaar (op : TOp) (a b : Tile) : Prop :=
  match op with
  | .add | .axpy => a.dom = true ∧ b.dom = true ∧ a.rows = b.rows ∧ a.hlev = b.hlev
  | .scale | .rowred false => a.dom = true
  | .cvt f => a.dom = true ∧ f.code ≤ 6
  | _ => False

/-- The greatest of a row: the canonical NaN where one is a NaN; −0 stands below +0 (R270). -/
def maximumOf (x : FVal) (row : List FVal) : Prop :=
  if row.any FVal.isNan then x = .canonical
  else x ∈ row ∧ ∀ y ∈ row, ∃ k, x.cmp y = some k ∧ (0 < k ∨ k = 0 ∧ (y.neg = false → y.isZero = true → x.neg = false))

/-- TNORM's factor of a row, with what R271 rounds on the way: the mean of the squares with ε, and one over its root. -/
def normFactor (eps : FVal) (row : List FVal) (q : FVal) : Prop :=
  let n := FVal.ofInt row.length
  let sum := (exactSum .rne (row.map (fun x => (exactMul x x).1) ++ [(exactMul eps n).1])).1
  let m := ((exactDiv sum n).1.round .fp32 Ctl.nearest 0).1
  let mean := decodeFmt .fp32 m
  if mean.isZero then q = single (.inf false)
  else match realFn .rsq mean with
    | some r => q = single r.1
    | none => q = decodeFmt .fp32 (Config.unsettled RealFn.rsq.number (BitVec.ofNat 32 m)).toNat

/-- The exact value of element (r, c) of a result, from its operands' values (R268 to R272). -/
def resultAt (o : TileOp) (f : Fmt) (rows cols : Nat) (a b : Nat → Nat → FVal) (r c : Nat) (x : FVal) : Prop :=
  let rm := (ctlOf o.org.mode f o.rm).rm
  let z := flushIn o.org.mode .fp32 (decodeFmt .fp32 o.scalar.toNat)
  let row := (List.range cols).map (a r)
  match o.op with
  | .add => x = (exactSum rm [a r c, b r c]).1
  | .scale => x = (exactMul z (a r c)).1
  | .axpy => x = (exactSum rm [(exactMul z (a r c)).1, b r c]).1
  | .mul => x = (exactMul (a r c) (b r c)).1
  | .act fn => x = (actElem fn (a r c)).1
  | .rowred true => maximumOf x row
  | .rowred false => x = (exactSum rm row).1
  | .norm => ∃ q, normFactor z row q ∧ x = (exactMul (a r c) q).1
  | .fwd l => x = treeRow (fun q => a q c) rows l r
  | .inv _ | .cvt _ | .thr _ _ => x = a r c

/-- spec/15 R269: the special values of TACT's functions, and those that need no function. -/
def ActRows : Prop :=
  (∀ (fn : ActFn) (x : FVal), x.isNan = true → (actElem fn x).1 = .canonical) ∧
  (∀ (n : Bool) (m : Nat) (e : Int), let x := FVal.fin n m e
    (actElem .relu x).1 = (if n then .fin false 0 0 else x) ∧ (actElem .square x).1 = (exactMul x x).1) ∧
  (∀ fn, (actElem fn (.inf false)).1 = .inf false) ∧
  ((actElem .relu (.inf true)).1 = .fin false 0 0 ∧ (actElem .square (.inf true)).1 = .inf false ∧
    (actElem .exp (.inf true)).1 = .fin false 0 0 ∧ (actElem .gelu (.inf true)).1 = .fin true 0 0 ∧
    (actElem .silu (.inf true)).1 = .fin true 0 0) ∧
  ∀ (n : Bool) (e : Int), (actElem .exp (.fin n 0 e)).1 = .fin false 1 0 ∧
    (actElem .gelu (.fin n 0 e)).1 = .fin n 0 e ∧ (actElem .silu (.fin n 0 e)).1 = .fin n 0 e

/-- spec/15 R264 to R272, spec/26 R375: a tile operation writes its elements, then ends. Each element of D is one exact
result rounded once, over the operands' stored rows where it stays in the Haar domain, absent rows being +0 and never
computed, else over their spatial values; HTHR copies bits and drops rows. Only then D takes the tag of R264 and leaves
ENGINE, the flags reach the lane that supplied the operands, and the operation leaves the unit. -/
def TileOpsComplete : Prop :=
  ∀ (s : State) (core : Nat) (o : TileOp) (rest : List TileOp), (s.core core).tileOps = o :: rest → o.started = true →
    tfind s.tiles o.d ≠ none →
    let td := s.tile o.d
    let ta := (s.tile o.a).withTag o.tagA
    let tb := (s.tile (o.b.getD o.a)).withTag o.tagB
    let two := o.b ≠ none
    (∀ tag fl, o.left = some (tag, fl) → (∀ k ∈ o.d :: o.a :: o.b.toList, (s.tile k).freeing = false) →
      ∃ t, exec (.tileOpComplete core) s = .next t ∧
        t = { s with cores := t.cores, tiles := t.tiles, warps := (s.countDown o.org.warp 3).warps, lanes := t.lanes } ∧
        (∀ c, t.core c = if c = core then { s.core core with tileOps := (o :: rest).filter fun x => x.id ≠ o.id } else s.core c) ∧
        (∀ k, t.tile k = if k = o.d then { td.withTag tag with engine := false } else s.tile k) ∧
        ∀ l, t.lane l = (s.modLane o.org.lane fun y => { y with gstat := y.gstat ||| fl.setWidth 32 }).lane l) ∧
    (o.left = none → s.upsets = [] →
    (o.op = .add ∨ o.op = .axpy ∨ o.op = .mul ↔ two) → tilesFit o.op td ta (if o.b = none then none else some tb) →
    0 < ta.cols → wholeTree ta → wholeTree tb → (∀ l, o.op = .inv l → ta.dom = true ∧ ta.hlev = l) →
    let here := fun r => ta.present r = true ∨ (two ∧ tb.present r = true)
    let drops := fun r => ∃ k th, o.op = .thr k th ∧ ta.dom = true ∧ (ta.present r = false ∨ ta.rows / 2 ^ ta.hlev ≤ r ∧
      rowDropped th ta.fmt ta.cols fun c => ta.elem (r * ta.cols + c))
    open Classical in
    ∃ t tag fl, exec (.tileOpComplete core) s = .next t ∧ t = { s with cores := t.cores, tiles := t.tiles } ∧
      (∀ c, t.core c = if c = core then { s.core core with tileOps := { o with left := some (tag, fl) } :: rest }
        else s.core c) ∧
      (∀ k, k ≠ o.d → t.tile k = s.tile k) ∧ { t.tile o.d with data := td.data } = td ∧
      (∀ r < td.rows, ∀ c < td.cols, let e := (t.tile o.d).elem (r * td.cols + c)
        (∀ k th, o.op = .thr k th → e = if drops r then 0 else ta.elem (r * ta.cols + c)) ∧
        ((∀ k th, o.op ≠ .thr k th) → (staysHaar o.op ta tb ∧ ¬ here r → e = 0) ∧
          (staysHaar o.op ta tb ∧ here r → ∃ x, e = roundedIn o.org td.fmt o.rm (64 * r + c) x ∧
            resultAt o td.fmt ta.rows ta.cols (operandAt o.org ta) (operandAt o.org tb) r c x) ∧
          (¬ staysHaar o.op ta tb → ∃ x, e = roundedIn o.org td.fmt o.rm (64 * r + c) x ∧
            resultAt o td.fmt ta.rows ta.cols (spatialAt ta (operandAt o.org ta)) (spatialAt tb (operandAt o.org tb)) r c x))) ∧
      let u := td.withTag tag
      (staysHaar o.op ta tb → u.dom = true ∧ u.hlev = ta.hlev ∧ u.thk = ta.thk ∧ (two → u.pv = true) ∧
        ∀ r < td.rows, (u.present r = true ↔ here r)) ∧
      (∀ l, o.op = .fwd l → u.dom = true ∧ u.hlev = l ∧ u.thk = 0 ∧ u.pv = true ∧ ∀ r < td.rows, u.present r = true) ∧
      (∀ k th, o.op = .thr k th → ta.dom = true → u.dom = true ∧ u.hlev = ta.hlev ∧ u.thk = k ∧ u.pv = true ∧
        ∀ r < td.rows, (u.present r = true ↔ ¬ drops r)) ∧
      (¬ staysHaar o.op ta tb → (∀ l, o.op ≠ .fwd l) → (∀ k th, o.op = .thr k th → ta.dom = false) →
        u.dom = false ∧ u.hlev = 0 ∧ u.thk = 0 ∧ u.pv = false))

end Sys2Proof.Claims

/-- spec/11 R189, R198, spec/13 R234 to R238, spec/14 R246: TALLOC's clear ends and the warps' TLC falls; copy engines
load, gather, store and scatter, spatial records and Haar ones; a store that meets a tag it may not raises DOMAIN; a
completion word is written once GT is past its release and its payload, and its warp's earlier accesses returned; FEED
appends the rows, or columns, it names to its stream. (How many elements one step of a run moves, and a gathered tile's
tag, are the model's, log entries 25 and 26.) -/
def Obligations.CopiesAndFeedsRun : Prop :=
  open Sys2Proof.Claims in
  LoadRuns ∧ StoreRuns ∧ HaarStoreRuns ∧ StoreMeetsTag ∧ CopiesEnd ∧
  (∀ (s : State) (core h k : Nat), s.tileEntry core h = some k → (s.tile k).clearing = true → (s.tile k).freeing = false →
    ∃ t, exec (.tileClearEnd core h) s = .next t ∧ t = { s with tiles := t.tiles, warps := t.warps } ∧
      (∀ j, t.tile j = if j = k then { s.tile k with clearing := false, binders := [] } else s.tile j) ∧
      ∀ w, t.warp w = { s.warp w with tlc := (s.warp w).tlc - (s.tile k).binders.count w }) ∧
  (∀ (s : State) (core pa pa' : Nat) (eng : Bool) (o : CopyOp) (rest : List CopyOp) (d : Completion),
    (s.core core).copies eng = o :: rest → o.org.core = core → o.done = some d → o.moved = true → s.issues core = true →
    s.upsets = [] →
    max (tget 0 o.times d.scope.code) d.after + 2 ≤ s.coreGt core → d.word = .mem pa' → (s.tile o.tile).freeing = false →
    let n := if d.w64 then 8 else 4
    s.checkVa core (s.capxOf core) .write n d.va = .inl pa → isMemory pa = true →
    (∀ x ∈ s.ops, x.warp = o.org.warp → o.id ≤ x.id) → s.lineFree o.id pa n = true →
    ∃ t, exec (.completionWrite core eng) s = .next t ∧ writtenAt s.mem t.mem (canonPa pa) (toLe d.value.toNat n) ∧
      (t.core core).copies eng = (o :: rest).filter (fun y => y.id ≠ o.id) ∧
      t.warps = (s.countDown o.org.warp 3).warps) ∧
  ∀ (s : State) (id : Nat) (f : FeedOp), s.feeds.find? (fun x => x.id == id) = some f →
    (∀ x ∈ s.feeds, x.org.warp = f.org.warp → x.fifo = f.fifo → id ≤ x.id) →
    s.tileTurn f.tile f.org.warp id false = true → s.upsets = [] → (s.tile f.tile).freeing = false →
    let old := s.tile f.tile
    let pair := f.org.core / 2
    let key := f.stream * 4 + f.fifo.code
    ∃ (t : State) (new : List FeedRun), exec (.fifoAppend id) s = .next t ∧
      t = { s with feeds := s.feeds.filter fun x => x.id ≠ id, pairs := t.pairs, warps := (s.countDown f.org.warp 3).warps } ∧
      (∀ q, q ≠ pair → t.pair q = s.pair q) ∧
      (∀ j, tget [] (t.pair pair).streams j = if j = key then tget [] (s.pair pair).streams key ++ new
        else tget [] (s.pair pair).streams j) ∧
      (t.pair pair).acc = (s.pair pair).acc ∧
      new.map (·.nibbles) = List.replicate f.count (halfBytes old.fmt) ∧
      new.map (·.dir) = List.replicate f.count (if old.dom = false then .spatial else if f.tr = false then .alongK
        else if f.fifo = .b then .alongJ else .alongI) ∧
      new.map (·.elems) = (List.range f.count).map fun q => if f.tr
        then (List.range old.rows).map fun r => BitVec.ofNat 64 (old.elem (r * old.cols + (f.first + q)))
        else (List.range old.cols).map fun c => BitVec.ofNat 64 (old.elem ((f.first + q) * old.cols + c))

/-- spec/14 R246, R247, R249, R255 to R257, spec/15 R264 to R273: an MMA or MMAQ starts when the arrays have room and
its streams hold what it reads, spatial steps or Haar ones, and takes it, or ends at DOMAIN or at a bad parameter; drains
to tiles and to memory write their rows; the maximum of a drain joins its word by an atomic maximum; the tile unit starts
its first operation and completes it. (That a transforming drain takes its rows at its start, and a tile operation its
tags at its start and its rows at its end, is the model's, log entry 25.) -/
def Obligations.MatrixAndTileEnginesRun : Prop :=
  open Sys2Proof.Claims in
  MmaStarts ∧ MmaRefuses ∧ TileDrains ∧ MemoryDrains ∧ DrainsEnd ∧
  (∀ (s : State) (p pa : Nat) (d : DrainOp) (va : W64) (sc : Scope),
    (s.pair p).drains.find? (fun d => d.moved && s.issues d.org.core) = some d → s.upsets = [] →
    d.amax = some (va, sc) → max (tget 0 d.times sc.code) d.after + 2 ≤ s.coreGt d.org.core →
    s.checkVa d.org.core (s.capxOf d.org.core) .write 4 va = .inl pa → isMemory pa = true →
    (∀ x ∈ s.ops, x.warp = d.org.warp → d.id ≤ x.id) → s.lineFree d.id pa 4 = true →
    let old := leNat (Memory.readBytes s.mem (canonPa pa) 4)
    ∃ t, exec (.amaxUpdate p) s = .next t ∧ writtenAt s.mem t.mem (canonPa pa) (toLe (max old d.max.toNat) 4) ∧
      (t.pair p).drains = (s.pair p).drains.filter fun x => x.id ≠ d.id) ∧
  (∀ (s : State) (core : Nat) (o : TileOp) (rest : List TileOp), (s.core core).tileOps = o :: rest → o.started = false →
    s.issues core = true → s.tileOpReady o = true → tfind s.tiles o.d ≠ none →
    let a := s.tile o.a
    let b := s.tile (o.b.getD o.a)
    let meets := o.op = .add ∨ o.op = .axpy
    let clash := (meets ∧ (a.dom = true ∨ b.dom = true) ∧ ¬ staysHaar o.op a b) ∨ ((∃ l, o.op = .fwd l) ∧ a.dom = true) ∨
      (∃ l, o.op = .inv l ∧ ¬ (a.dom = true ∧ a.hlev = l)) ∨ ((∃ k th, o.op = .thr k th) ∧ a.dom = false)
    ¬ clash ∨ o.org.mode.getLsbD 48 = false →
    ∃ t, exec (.tileOpStart core) s = .next t ∧ t = { s with cores := t.cores, tiles := t.tiles } ∧
      (∀ c, t.core c = if c = core then { s.core core with
        tileOps := { o with started := true, tagA := a.tag, tagB := b.tag } :: rest } else s.core c) ∧
      ∀ k, t.tile k = if k = o.d then { s.tile o.d with engine := true } else s.tile k) ∧
  ActRows ∧ TileOpsComplete

/-! ## The Gecko, the pond and the end of a launch (spec/16, spec/17, spec/23) -/

namespace Sys2Proof.Claims

/-- A lane that the Gecko gives back: at the slot after the deciding one, or before the following clause (spec/16
R292). -/
def givenBack (s : State) (r : GeckoReq) (x : Lane) : Lane :=
  if r.slot < r.nslot then { x with status := .idle, rslot := r.slot + 1, readyAt := s.cycles }
  else { x with status := .idle, rslot := 0, kept := none, pc := x.pc + BitVec.ofNat 48 (8 * (r.nslot + 2)),
                readyAt := s.cycles }

/-- STAGE written (spec/02 R33). -/
def staged (g : W32) (k : Nat) : W32 := (g &&& ~~~(0x1C00#32)) ||| BitVec.ofNat 32 (k % 8 * 1024)

/-- May a core's next pond warp take a home warp number: from the launch's warps on and below 128, or 64 for a block on
one core, of no live warp of the block, of the core's parity in a block on a pair (spec/17 R307, spec/04 R80)? -/
def warpFree (s : State) (b : Block) (core first n : Nat) : Prop :=
  first ≤ n ∧ n < (if b.cores.length = 2 then 128 else 64) ∧ (∀ c ∈ b.cores, ∀ l ∈ s.coreLanes c, (s.lane l).status ≠ .retired → l / 32 % 128 ≠ n) ∧
    (b.cores.length = 2 → n % 2 = core % 2)

/-- A launch whose token waits at a place of its ring (spec/17 R316). -/
structure TokenAt (s : State) (i : Nat) (x : Launch) (c : Nat) : Prop where
  launch : tfind s.launches i = some x
  running : x.state = .running
  open_ : x.token.decided = false
  arrived : x.token.travelling = false
  holder : x.ring[x.token.place]? = some c
  idle : s.idle c = true

/-- Token and core after the core has done its part: nothing but the token, and the colour of the core when it passes the
token on, changes. -/
def passed_ (s t : State) (i c : Nat) (x : Launch) (k : Token) (white : Bool) : Prop :=
  t = { s with launches := t.launches, cores := t.cores } ∧
  (∀ j, tfind t.launches j = if j = i then some { x with token := k } else tfind s.launches j) ∧
  ∀ d, t.core d = if d = c ∧ white then { s.core c with black := false } else s.core d

end Sys2Proof.Claims

/-- spec/16 R286, R291 to R293, R302: the Gecko takes its first lane; a decision writes the predicates and STAGE and
gives the lane back; with none, the lane takes GUARD_LIMIT at the deciding slot; a severed register holds the rounded
midpoint; the log unit reclaims its oldest pending root. -/
def Sys2Proof.Claims.GeckoAnswers : Prop :=
  open Sys2Proof.Claims in
  (∀ (s : State) (core : Nat) (r : GeckoReq) (rs : List GeckoReq), (s.core core).gecko = r :: rs →
    ∃ t, exec (.geckoStart core) s = .next t ∧ t = { s with cores := t.cores } ∧
      ∀ c, t.core c = if c = core then { s.core core with gecko := { r with started := true } :: rs } else s.core c) ∧
  (∀ (s : State) (core : Nat) (r : GeckoReq) (rs : List GeckoReq) (b : Nat) (c : Option Nat) (dneg : Nat)
      (dzero : Option Nat) (reg : Nat), (s.core core).gecko = r :: rs → r.started = true →
    (s.lane r.lane).status = .refining → r.ask = .sign b c dneg dzero reg →
    let handle := fun i => (s.greg r.lane i).handle.toNat
    let answer := (s.log (coreOf r.lane)).refine (handle b) (c.map handle) r.gcap
    let rest := fun t : State => t = { s with lanes := t.lanes, cores := t.cores } ∧
      (∀ k, t.core k = if k = core then { s.core core with gecko := rs } else s.core k) ∧
      ∀ l, l ≠ r.lane → t.lane l = s.lane l
    (∀ sgn k, answer = some (sgn, k) → ∃ t : State, exec (.geckoReturn core) s = .next (t.meet [r.lane]) ∧ rest t ∧
      t.lane r.lane =
        let y := (s.lane r.lane).setPred dneg (sgn == -1)
        let z := match dzero with
          | some p => y.setPred p (sgn == 0)
          | none => y
        givenBack s r { z with gstat := staged z.gstat k }) ∧
    (answer = none → ∃ t : State, rest t ∧
      t.lane r.lane = { s.lane r.lane with gstat := staged ((s.lane r.lane).gstat ||| 0x200) 7 } ∧
      exec (.geckoReturn core) s = .next ((t.deliver r.lane
        { code := 0x21, slot := r.slot, cls := 1, pc := (s.lane r.lane).pc, word := r.word, info := reg }).meet [r.lane]))) ∧
  (∀ (s : State) (core d : Nat) (r : GeckoReq) (rs : List GeckoReq), (s.core core).gecko = r :: rs → r.started = true →
    (s.lane r.lane).status = .refining → r.ask = .sever d → roomFor s r.lane 1 →
    s.nodeMapped (coreOf r.lane) (nextHandle s r.lane) = true →
    let g := s.log (coreOf r.lane)
    let x := g.enclose 106 g.depth (s.greg r.lane d).handle.toNat
    let bits := ((halfOf (exactSum .rne [x.lo, x.hi]).1).round .fp64 { rm := .rne, sat := true, ftzo := false } 0).1
    let v := decodeFmt .fp64 bits
    let inexact := !(x.lo.cmp x.hi == some 0 && x.lo.cmp v == some 0)
    let made := (s.modLog (coreOf r.lane) taken).modLog (coreOf r.lane) fun y =>
      y.setNode (nextHandle s r.lane) { op := 8, ref := 1, inx := inexact, val := BitVec.ofNat 64 bits }
    ∃ t u : State, exec (.geckoReturn core) s = .next (t.meet [r.lane]) ∧
      GuardWritten made u r.lane d { lo := boundBits .rd v, hi := boundBits .ru v,
                                     handle := BitVec.ofNat 24 (nextHandle s r.lane), leaf := true, sinx := inexact,
                                     point := boundBits .rd v == boundBits .ru v } ∧
      t = { u with lanes := t.lanes, cores := t.cores } ∧
      (∀ k, t.core k = if k = core then { u.core core with gecko := rs } else u.core k) ∧
      ∀ l, t.lane l = if l = r.lane then givenBack s r { u.lane l with
        gstat := if inexact then (u.lane l).gstat ||| 0x100 else (u.lane l).gstat } else u.lane l) ∧
  ∀ (s : State) (core h : Nat) (hs : List Nat), (s.log core).pending = h :: hs →
    exec (.reclaim core) s = .next (s.modLog core fun g => Log.reclaim { g with pending := hs } h)

/-- spec/17 R305 to R307, R313 to R315: a bin whose timer has run out becomes eligible; the oldest eligible bin becomes
the lowest free home warp, its threads at the bin's clause with their arguments and the times they have observed,
helpers filling the last quad, and nothing in flight bears the number any more; a core takes the oldest record of its
die's queue, which counts down, blackens it, acquires through the record's word and opens an ended block again with a
fresh log; its thread goes to the bin of its clause with the saved registers, or the core holds the record while that
bin is full. (What becomes of the work of the warp that had the number is the model's, log entry 22.) -/
def Obligations.PondRuns : Prop :=
  open Sys2Proof.Claims in
  (∀ (s : State) (core b : Nat) (x : Bin), tfind (s.core core).bins b = some x → x.timer = some 0 →
    ∃ t, exec (.pondBinTimer core b) s = .next t ∧ t = { s with cores := t.cores } ∧
      ∀ c, t.core c = if c = core then { s.core core with
          bins := tset (s.core core).bins b { x with timer := none },
          eligible := if b ∈ (s.core core).eligible then (s.core core).eligible else (s.core core).eligible ++ [b] }
        else s.core c) ∧
  (∀ (s : State) (core b hw : Nat) (rest : List Nat) (blk : Block) (x : Launch) (bin : Bin),
    (s.core core).eligible = b :: rest → s.blockOf core = some blk → s.launchOf core = some x → x.state = .running →
    tfind (s.core core).bins b = some bin → bin.threads.length ≤ 32 → (∀ th ∈ bin.threads, tsorted th.times = true) →
    warpFree s blk core x.warps hw →
    (∀ n < hw, ¬ warpFree s blk core x.warps n) → (s.liveWarps core).length < 64 →
    ((s.liveWarps core).length + 1) * (32 * (x.alloc.nv + 3 * x.alloc.ng)) ≤ 262144 →
    let w := core * 128 + hw
    let n := bin.threads.length
    ∃ t, exec (.binToWarp core) s = .next t ∧ t.mem = s.mem ∧ (t.core core).eligible = rest ∧
      tfind (t.core core).bins b = none ∧
      (t.warp w).s = [] ∧ (t.warp w).mode = modeReset ∧ (t.warp w).trapv = dword x.record 10 ∧
      (t.warp w).seed = dword x.record 9 ∧ ((t.warp w).ldc, (t.warp w).stc, (t.warp w).mxc, (t.warp w).tlc) = (0, 0, 0, 0) ∧
      (∀ k, tget 0 (t.warp w).owt k = (bin.threads.map fun th => tget 0 th.times k).foldl max 0 ∧ tget 0 (t.warp w).swt k = 0) ∧
      (∀ o ∈ t.ops, o.warp ≠ w) ∧
      (∀ l, l / 32 ≠ w → t.lane l = s.lane l) ∧
      (∀ i < (n + 3) / 4 * 4, t.lane (w * 32 + i) =
        { helper := decide (n ≤ i), spawned := true, pc := bin.key, v := (bin.threads.getD i {}).regs,
          p := (bin.threads.getD i {}).preds, readyAt := s.cycles,
          rsb := dword x.record 11 + BitVec.ofNat 64 (8192 * (s.gtid (w * 32 + i)).toNat) }) ∧
      ∀ i, (n + 3) / 4 * 4 ≤ i → i < 32 → (t.lane (w * 32 + i)).status = .retired) ∧
  ∀ (s : State) (core i k : Nat) (x : Launch) (r : Continuation) (blk : Block), (s.core core).launch = some i →
    tfind s.launches i = some x → x.state = .running → s.blockOf core = some blk → (s.core core).resume = [] →
    (s.die (core / 192)).resume.find? (fun e => e.1 == i) = some (i, k) → tfind x.pool k = some r → poolRoom s core 16 1 →
    let key := (dword r.cw 0).setWidth 48
    let reg := fun j => (dword r.cw (8 + j / 2)).toNat / 2 ^ (32 * (j % 2)) % 2 ^ 32
    let scope := (Scope.ofCode ((dword r.cw 2).toNat / 2 ^ 34 % 8)).getD .device
    let acquired := s.acquireWord core scope r.pa (if (dword r.cw 2).getLsbD 33 then 8 else 4)
    let filled := fun b => ((tfind (s.core core).bins b).map fun y => y.threads.length).getD 0
    let taken_ : Core := { s.core core with count := (s.core core).count - 1, black := true }
    ∃ t, exec (.resumeRecordTake core) s = .next t ∧ t.mem = s.mem ∧ t.lanes = s.lanes ∧
      (t.copies, t.hbm, t.dirty, t.generations) = (acquired.copies, acquired.hbm, acquired.dirty, acquired.generations) ∧
      t.blockOf core = some (if blk.running then blk else { blk with running := true, log := {} }) ∧
      (t.die (core / 192)).resume = (s.die (core / 192)).resume.filter (fun e => e ≠ (i, k)) ∧
      ((∀ b, (s.core core).binFor key = some b → 32 ≤ filled b) →
        (tfind t.launches i).bind (fun y => tfind y.pool k) = some { r with place := .taken core } ∧
        t.core core = { taken_ with resume := [(i, k)] }) ∧
      ∀ b, (s.core core).binFor key = some b → filled b < 32 → poolRoom s core b 2 →
        (tfind t.launches i).bind (fun y => tfind y.pool k) = none ∧
        ∃ th : BinThread, th.preds = (dword r.cw 2).setWidth 7 ∧ th.times = s.timesOf core r.recs ∧
          (∀ j < 16, tget 0 th.regs j = if (dword r.cw 0).getLsbD (48 + j) then BitVec.ofNat 32 (reg j) else 0) ∧
          t.core core = withThread taken_ b key th

/-- spec/17 R316 to R318, spec/23 R344 to R346: the eft's token goes round the cores of a launch, each idle when it
passes, white after it, adding its count and its colour; the launch has ended when a white round sums to zero and no
item or thread is left. Its completion decrements the signal at its home once GT has passed its times, closes its
generation at SYSTEM scope, and frees its cores. -/
def Obligations.LaunchesEnd : Prop :=
  open Sys2Proof.Claims in
  (∀ (s : State) (i c : Nat) (x : Launch), TokenAt s i x c →
    let t0 := x.token
    let next := (t0.place + 1) % x.ring.length
    let times := laterTimes t0.times (s.core c).times
    (t0.place = 0 → t0.round = false → (∀ n, t0.startedAt = some n → n + 256 ≤ s.cycles) →
      ∃ t, exec (.eftRoundStart i) s = .next t ∧ passed_ s t i c x { t0 with
        place := next, travelling := true, round := true, black := false, sum := 0, startedAt := some s.cycles,
        times := times } true) ∧
    (t0.place ≠ 0 → t0.round = true →
      ∃ t, exec (.eftForward i) s = .next t ∧ passed_ s t i c x { t0 with
        place := next, travelling := true, round := true, black := t0.black || (s.core c).black,
        sum := t0.sum + (s.core c).count, times := times } true) ∧
    (t0.place = 0 → t0.round = true →
      let done := t0.black = false ∧ (s.core c).black = false ∧ t0.sum + (s.core c).count = 0 ∧
        (x.exhausted = true ∨ s.noThreads i x = true)
      open Classical in
      ∃ t, exec (.eftDecide i) s = .next t ∧ passed_ s t i c x { t0 with
        round := false, decided := decide done, times := times } false)) ∧
  (∀ (s : State) (i : Nat) (x : Launch), tfind s.launches i = some x →
    exec (.eftTokenArrive i) s =
      .next { s with launches := tset s.launches i { x with token := { x.token with travelling := false } } }) ∧
  ∀ (s : State) (i d q : Nat) (x : Launch), tfind s.launches i = some x → x.state = .running → x.token.decided = true →
    x.queue = some (d, q) → tget 0 x.token.times x.rscope.code + 2 ≤ s.dieGt d →
    let sig := dword x.packet 2
    let freed := fun t : State => tfind t.launches i = none ∧
      (∀ c ∈ x.cores ++ x.held, t.core c = { requests := (s.core c).requests, icache := (s.core c).icache }) ∧
      ∀ l, coreOf l ∈ x.cores ++ x.held → (t.lane l).status = .retired
    (sig = 0 → ∃ t, exec (.launchComplete i) s = .next t ∧ freed t ∧ t.mem = s.mem) ∧
    ∀ pa, sig ≠ 0 → s.checkVa cpAgent x.capx .write 8 sig = .inl pa → isMemory pa = true →
      s.lineFree s.nextId pa 8 = true → s.upsets = [] → ∃ t, exec (.launchComplete i) s = .next t ∧ freed t ∧
        (x.rscope = .system → (x.num, canonPa pa) ∈ t.generations) ∧
        writtenAt s.mem t.mem (canonPa pa) (toLe (BitVec.ofNat 64 (leNat (Memory.readBytes s.mem (canonPa pa) 8)) - 1).toNat 8)


/-- spec/16 R286, R291 to R294: Gecko answers, and log nodes are reclaimed. (A spilled node whose page is not mapped is
waited for, log entry 27.) -/
def Obligations.GuardedLogAndGecko : Prop :=
  Claims.GeckoAnswers ∧ Claims.Reclaiming

/-! ## Queues, packets and placement (spec/23) -/

namespace Sys2Proof.Claims

/-- A queue stopped in ERROR with a reason at an index, or behind it where the head is a NETWRITE whose payload is out:
that one counts as dispatched (spec/23 R333, R350). -/
def stopped (y : Queue) (code : BitVec 8) (idx : W64) : Queue :=
  let out := y.head.toList.filter fun a => (dword a.packet 0).toNat / 2 ^ 8 % 2 ^ 8 == 7 && a.acted && code != 9
  let first := idx + BitVec.ofNat 64 out.length
  { y with error := true, errcode := code, qerridx := first, qread := first, depunder := y.depunder || code == 5, head := none,
           valid := false, watch := none, acts := y.acts ++ out.map fun a => { a with acted := false } }

/-- A packet dispatched: the queue goes on to its next one (spec/23 R336, R337). -/
def wentOn (y : Queue) (a : Act) : Queue :=
  { y with qread := y.qread + 1, valid := false, watch := none, head := none, acts := y.acts ++ [a] }

/-- A packet whose action is done. -/
def actedIn (y : Queue) (idx : Nat) (times : Tab Nat) : Queue :=
  { y with acts := y.acts.map fun a => if a.idx = idx then { a with acted := true, times := times } else a }

/-- The address of a queue's next packet: slot QREAD mod the ring's size (spec/23 R332). -/
def slotAt (y : Queue) : W64 := y.qd0 + BitVec.ofNat 64 (128 * (y.qread.toNat % 2 ^ (y.qd1.toNat % 32)))

/-- The slot of a queue's next packet freed: its Q0 is 0, where its address still names memory that the command
processor may write (spec/23 R336). -/
def slotFreed (s t : State) (y : Queue) : Prop :=
  (∀ pa, s.checkVa cpAgent y.capx .write 1 (slotAt y) = .inl pa → isMemory pa = true →
    writtenAt s.mem t.mem (canonPa pa) (toLe 0 8)) ∧
  ((∀ pa, s.checkVa cpAgent y.capx .write 1 (slotAt y) = .inl pa → isMemory pa = false) → t.mem = s.mem)

/-- A queue's state, but for what its watch has found meanwhile. -/
def queueNow (t : State) (d q : Nat) (y : Queue) : Prop := ∃ w, t.queue d q = some { y with watch := w }

/-- The doubleword of memory at a physical address. -/
def wordAt (m : List Host.Cell) (pa : Nat) : W64 := BitVec.ofNat 64 (leNat (Memory.readBytes m (canonPa pa) 8))

/-- The steps of the packets that are not LAUNCH: die, queue, index and type. -/
def packetOf (i : Instr) : Option (Nat × Nat × Nat × Nat) :=
  match i with
  | .copyPacket d q k => some (d, q, k, 2)
  | .dependPacket d q k => some (d, q, k, 3)
  | .sealPacket d q k => some (d, q, k, 4)
  | .flushPacket d q k => some (d, q, k, 5)
  | .signalPacket d q k => some (d, q, k, 6)
  | .netwritePacket d q k => some (d, q, k, 7)
  | _ => none

/-- A queue's place that exists (spec/01 R10, spec/23 R329). -/
def queueAt (s : State) (d q : Nat) (y : Queue) : Prop := d < 8 ∧ q < 64 ∧ s.queue d q = some y

/-- The command processor's capability to a LAUNCH packet's record (spec/26 R383). -/
def recordRight (p : List W64) : Capability := { tag := true, base := dword p 1, length := 256, otype := 3, perms := 1 }

/-- Bits of a doubleword. -/
def bitsAt (x : W64) (lo n : Nat) : Nat := x.toNat / 2 ^ lo % 2 ^ n

/-- Is an address a pointer as R333 asks: canonical, aligned, mapped under CAPX? -/
def pointsTo (s : State) (capx align : Nat) (va : W64) : Prop :=
  (va.toNat / 2 ^ 56 = 0 ∨ va.toNat / 2 ^ 56 = 255) ∧ va.toNat % align = 0 ∧ s.translate cpAgent capx .read va ≠ .miss

/-- A signal or counter: 0 for none, or a pointer to a doubleword whose page permits the access (log entry 54). -/
def namesWord (s : State) (capx : Nat) (ask : Ask) (va : W64) : Prop :=
  va = 0 ∨ pointsTo s capx 8 va ∧ s.translate cpAgent capx ask va ≠ .denied

/-- A range of bytes: its pointer, and the pointer to each page of it. -/
def namesRange (s : State) (capx : Nat) (va : W64) (n : Nat) : Prop :=
  pointsTo s capx 1 va ∧ ∀ i < n, (va.toNat + i) % 65536 = 0 → pointsTo s capx 1 (va + BitVec.ofNat 64 i)

/-- Are a packet's reserved fields 0 and its scope codes 3 to 5 (spec/23 R333 to R335)? -/
def packetClean (p : List W64) : Prop :=
  let q := dword p
  bitsAt (q 0) 23 41 = 0 ∧ bitsAt (q 0) 1 7 = 0 ∧ 3 ≤ bitsAt (q 0) 16 3 ∧ bitsAt (q 0) 16 3 ≤ 5 ∧ 3 ≤ bitsAt (q 0) 19 3 ∧
  bitsAt (q 0) 19 3 ≤ 5 ∧ (∀ i, 7 ≤ i → i < 16 → q i = 0) ∧
  match bitsAt (q 0) 8 8 with
  | 1 => bitsAt (q 6) 32 32 = 0
  | 2 => q 5 = 0 ∧ bitsAt (q 6) 32 32 = 0
  | 3 => q 1 = 0 ∧ q 5 = 0 ∧ q 6 = 0
  | 4 => q 4 = 0 ∧ q 5 = 0 ∧ bitsAt (q 6) 32 32 = 0 ∧ bitsAt (q 6) 0 32 ≠ 0
  | 5 => q 4 = 0 ∧ q 5 = 0 ∧ bitsAt (q 6) 32 32 = 0
  | 6 => q 1 = 0 ∧ q 4 = 0 ∧ q 5 = 0 ∧ q 6 = 0
  | _ => bitsAt (q 6) 48 16 = 0

/-- Are a packet's pointers as R335 asks of its type? -/
def packetPoints (s : State) (capx : Nat) (p : List W64) : Prop :=
  let q := dword p
  let n := bitsAt (q 6) 0 32
  namesWord s capx .write (q 2) ∧ namesWord s capx .read (q 3) ∧
  match bitsAt (q 0) 8 8 with
  | 1 => pointsTo s capx 256 (q 1) ∧ (q 4 = 0 ∨ pointsTo s capx 1 (q 4))
  | 2 => namesRange s capx (q 1) n ∧ namesRange s capx (q 4) n
  | 3 => q 4 ≠ 0 ∧ namesWord s capx .write (q 4)
  | 4 => (q 1).toNat % 65536 = 0 ∧ namesRange s capx (q 1) (65536 * n)
  | 5 => q 1 = 0 ∧ n = 0 ∨ namesRange s capx (q 1) n
  | 7 => namesRange s capx (q 1) n ∧ ((q 4).toNat / 2 ^ 56 = 0 ∨ (q 4).toNat / 2 ^ 56 = 255) ∧
    ((q 5).toNat / 2 ^ 56 = 0 ∨ (q 5).toNat / 2 ^ 56 = 255) ∧ (q 5).toNat % 8 = 0
  | _ => True

/-- Does a NETWRITE's route work, its link up and the peer's grant over what it writes (spec/23 R350)? -/
def routeServes (s : State) (d : Nat) (p : List W64) : Prop :=
  let n := bitsAt (dword p 6) 0 32
  ∃ r, tfind (s.die d).routes (bitsAt (dword p 6) 32 16) = some r ∧ tget false s.links r.port = true ∧
    (n ≠ 0 → ∃ g ∈ r.grant, g.1 ≤ (dword p 4).toNat ∧ (dword p 4).toNat + n ≤ g.1 + g.2) ∧
    (dword p 5 ≠ 0 → ∃ g ∈ r.grant, g.1 ≤ (dword p 5).toNat ∧ (dword p 5).toNat + 8 ≤ g.1 + g.2)

/-- The first condition that stops a packet of queue `q`, in the order of R333: TYPE, RESERVED, BOUNDS, DEPUNDER,
OVERLAP, LINK; LAUNCHREC, between the last three, is the record's own. -/
noncomputable def firstError (s : State) (d q : Nat) (y : Queue) (p : List W64) : Option (BitVec 8) :=
  let n := bitsAt (dword p 6) 0 32
  let type := bitsAt (dword p 0) 8 8
  open Classical in
  if ¬ (1 ≤ type ∧ type ≤ 7) then some 0x02
  else if ¬ packetClean p then some 0x01
  else if ¬ (packetPoints s y.capx p ∧ (s.die d).capsOk q y y.qread = true) then some 0x03
  else if ∃ k, s.dependence y p = some k ∧ k < 0 then some 0x05
  else if type = 2 ∧ (dword p 1).toNat < (dword p 4).toNat + n ∧ (dword p 4).toNat < (dword p 1).toNat + n then some 0x07
  else if type = 7 ∧ ¬ routeServes s d p then some 0x09
  else none

/-- The cores a launch record names, by number or by a bitmap in memory (spec/23 R340). -/
def coresNamed (s : State) (capx : Nat) (r : List W64) (cs : List Nat) : Prop :=
  let w := dword r 12
  if w.getLsbD 63 = false then
    1 ≤ bitsAt w 11 11 ∧ bitsAt w 0 11 + bitsAt w 11 11 ≤ 1536 ∧ dword r 13 = 0 ∧
      cs = (List.range (bitsAt w 11 11)).map fun i => bitsAt w 0 11 + i
  else bitsAt w 0 22 = 0 ∧ pointsTo s capx 64 (dword r 13) ∧ cs ≠ [] ∧
    ∃ bs, s.readVa cpAgent capx .read (dword r 13) 192 = some bs ∧
      cs = (List.range 1536).filter fun c => (bs.getD (c / 8) 0).getLsbD (c % 8)

/-- An extent of a launch's index space: the packet's, or the record's where that is 0 (spec/23 R335). -/
def extentOf (p r : List W64) (i : Nat) : Nat :=
  let q := if i = 0 then bitsAt (dword p 5) 0 32 else if i = 1 then bitsAt (dword p 5) 32 32 else bitsAt (dword p 6) 0 32
  if q ≠ 0 then q
  else if i = 0 then bitsAt (dword r 6) 0 32 else if i = 1 then bitsAt (dword r 6) 32 32 else bitsAt (dword r 7) 0 32

/-- Does a launch record pass every check of R341, with the cores it names and the packet's index space? -/
def recordPasses (s : State) (capx : Nat) (p r : List W64) (cs : List Nat) : Prop :=
  let w := dword r
  let threads := bitsAt (w 1) 0 13
  let nv := bitsAt (w 1) 16 9
  let ng := bitsAt (w 1) 25 7
  let ns := bitsAt (w 1) 32 8
  let kib := bitsAt (w 1) 40 9
  let nodes := bitsAt (w 2) 0 15
  let spill := bitsAt (w 2) 16 24
  let pooln := bitsAt (w 5) 0 32
  let pair := (w 14).getLsbD 0
  let warps := (threads + 31) / 32
  coresNamed s capx r cs ∧
  -- reserved bits
  bitsAt (w 0) 48 16 = 0 ∧ bitsAt (w 1) 54 10 = 0 ∧ bitsAt (w 1) 13 3 = 0 ∧ bitsAt (w 2) 40 24 = 0 ∧ bitsAt (w 2) 15 1 = 0 ∧
  bitsAt (w 5) 32 32 = 0 ∧ bitsAt (w 7) 32 32 = 0 ∧ bitsAt (w 10) 48 16 = 0 ∧ bitsAt (w 12) 22 41 = 0 ∧
  bitsAt (w 14) 2 62 = 0 ∧ (∀ i, 15 ≤ i → i < 32 → w i = 0) ∧
  -- ranges and alignments
  ns ≤ 64 ∧ ns % 8 = 0 ∧ ng ≤ 64 ∧ 8 ≤ nv ∧ nv ≤ 384 ∧ nv % 8 = 0 ∧ 1 ≤ threads ∧ threads ≤ 4096 ∧
  (w 0).toNat % 256 = 0 ∧ (w 10).toNat % 8 = 0 ∧ (w 11).toNat % 8 = 0 ∧ kib ≤ 448 ∧
  (ng = 0 → nodes = 0 ∧ spill = 0) ∧ (ng ≠ 0 → 8192 ≤ nodes ∧ nodes ≤ 16384 ∧ nodes % 32 = 0 ∧ spill ≤ 2 ^ 24 - nodes) ∧
  (spill = 0 → w 3 = 0) ∧ (spill ≠ 0 → (w 3).toNat % 4096 = 0) ∧ (pooln = 0 → w 4 = 0) ∧
  (pooln ≠ 0 → (w 4).toNat % 128 = 0) ∧
  -- what must fit together
  (2048 < threads → pair = true) ∧ kib * 1024 + 16 * nodes ≤ 448 * 1024 ∧
  (if pair then (warps + 1) / 2 else warps) * (32 * (nv + 3 * ng)) ≤ 262144 ∧
  (pair = true → ∀ c ∈ cs, c / 2 * 2 ∈ cs ∧ c / 2 * 2 + 1 ∈ cs) ∧
  -- the index space, and the pointers
  (∀ i < 3, 1 ≤ extentOf p r i ∧ extentOf p r i ≤ 0xFFFFFFFE) ∧
  extentOf p r 0 * extentOf p r 1 * extentOf p r 2 ≤ 2 ^ 48 ∧
  pointsTo s capx 1 (w 0) ∧ (spill ≠ 0 → pointsTo s capx 1 (w 3)) ∧ (pooln ≠ 0 → pointsTo s capx 1 (w 4)) ∧
  ∀ i ∈ [8, 10, 11], w i = 0 ∨ pointsTo s capx 1 (w i)

/-- Does a waiting launch's request at a core come after a halted launch that could go on there, all of whose cores are
free or its own (spec/23 R339)? -/
def givesWay (s : State) (i core : Nat) : Prop :=
  (s.launchAt i).state = .waiting ∧ ∃ p ∈ s.launches, p.1 ≠ i ∧ (∃ k, p.2.state = .halted k) ∧
    (s.launchAt i).prio ≤ p.2.prio ∧ core ∈ p.2.cores ++ p.2.held ∧
    ∀ c ∈ p.2.cores ++ p.2.held, (s.core c).launch = none ∨ (s.core c).launch = some p.1

/-- The first core of a launch's block of a number: the block's own, or the even one of its pair (spec/14 R244). -/
def blockCore (x : Launch) (b : Nat) : Option Nat :=
  if x.paired then (x.cores.filter fun c => c % 2 == 0)[b]? else x.cores[b]?

/-- Is every page that the leaf at `e` maps sealed, once `page` is? -/
def allSealed (s : State) (e k page : Nat) : Prop :=
  ∀ i < 2 ^ (k - 16), let p := ((wordAt s.mem e).toNat / 256 % 2 ^ 44 * 256 + 65536 * i) / 65536
    p = page ∨ ∃ x ∈ s.seals, x.page = p

/-- What a sealed page's bytes are in HBM: those of its home slices (spec/12 R222, spec/23 R349). -/
def pageFlushed (s t : State) (page : Nat) : Prop :=
  ∀ b, b / 65536 = page → Memory.read t.hbm b =
    if (tfind s.dirty (b / 256)).isSome then Memory.read s.mem b else Memory.read s.hbm b

end Sys2Proof.Claims

/-- spec/23 R331 to R333, R336 to R339, spec/12 R221: QNOTIFY raises QWRITE, ignores a value not above it, and stops a
queue that would overflow; the head's VALID is read again, with an acquire at SYSTEM scope; a head whose counter is
positive is watched at the counter's home, and goes on once a write has left the counter at or below 0, even if it
rises again; the eligible head of highest priority, and of those the next in rotation, is checked and acted on, or
stops its queue with the first condition of R333 that it meets. (That a packet's pointers need the page's permission,
and that a capability that does not allow its handling is BOUNDS, are the model's, log entries 54 and 58.) -/
def Obligations.QueuesRun : Prop :=
  open Sys2Proof.Claims in
  (∀ (s : State) (d q : Nat) (w : W64) (y : Queue), queueAt s d q y →
    (y.error = true ∨ w.toNat ≤ y.qwrite.toNat → exec (.qnotify d q w) s = .next s) ∧
    (y.error = false → y.qwrite.toNat < w.toNat → s.upsets = [] →
      (y.qread.toNat + y.slots < w.toNat → exec (.qnotify d q w) s = .next (s.stopQueue d q 0x06 y.qread)) ∧
      (w.toNat ≤ y.qread.toNat + y.slots → ∃ (t : State) (b : Bool), exec (.qnotify d q w) s = .next t ∧ t.mem = s.mem ∧
        t.lanes = s.lanes ∧ t.queue d q = some { y with qwrite := w, valid := b } ∧
        ∀ pa, y.head = none → y.qread ≠ w → s.checkVa cpAgent y.capx .read 8 (slotAt y) = .inl pa →
          b = (wordAt s.mem pa).getLsbD 0))) ∧
  (∀ (s : State) (d q pa : Nat) (y : Queue), queueAt s d q y → y.error = false → y.head = none → y.qread ≠ y.qwrite →
    s.checkVa cpAgent y.capx .read 8 (slotAt y) = .inl pa → s.upsets = [] →
    let read := (s.acquireWord (192 * d) .system pa 8)
    ∃ t, exec (.cpPoll d q) s = .next t ∧
      t = { s with dies := t.dies, copies := t.copies, hbm := read.hbm, dirty := read.dirty, generations := read.generations } ∧
      t.copies = s.copies.filter (fun c => c.cache ≠ .l2 d) ∧
      t.queue d q = some { y with valid := (wordAt s.mem pa).getLsbD 0 }) ∧
  (∀ (s : State) (d q : Nat) (y : Queue) (p : List W64), s.frontPacket d q = some (y, p) ↔ s.queue d q = some y ∧
    y.error = false ∧ y.head = none ∧ y.qread ≠ y.qwrite ∧ y.valid = true ∧
    s.cpDwords y.capx (slotAt y) 16 = some p ∧
    ((dword p 0).getLsbD 22 = true → ∀ a ∈ y.acts, a.idx + 1 ≠ y.qread.toNat)) ∧
  (∀ (s : State) (d q : Nat) (y : Queue) (p : List W64), s.headPacket d q = some (y, p) ↔
    s.frontPacket d q = some (y, p) ∧ ∀ n, s.dependence y p = some n → n ≤ 0) ∧
  (∀ (s : State) (y : Queue) (p : List W64), (dword p 3 = 0 → s.dependence y p = none) ∧
    ∀ pa, dword p 3 ≠ 0 → s.checkVa cpAgent y.capx .read 8 (dword p 3) = .inl pa →
      (∀ v, y.watch = some { pa := canonPa pa, seen := some v } → s.dependence y p = some v.toInt) ∧
      ((∀ v, y.watch ≠ some { pa := canonPa pa, seen := some v }) → s.dependence y p = some (wordAt s.mem pa).toInt)) ∧
  (∀ (s : State) (d q pa : Nat) (y : Queue) (p : List W64), d < 8 → q < 64 → s.frontPacket d q = some (y, p) →
    dword p 3 ≠ 0 → s.checkVa cpAgent y.capx .read 8 (dword p 3) = .inl pa → 0 < (wordAt s.mem pa).toInt → y.watch = none →
    s.upsets = [] → ∃ t, exec (.packetDispatch d q) s = .next t ∧ t.mem = s.mem ∧
      t.queue d q = some { y with watch := some { pa := canonPa pa } }) ∧
  (∀ (s : State) (launch : W32) (d q pa a : Nat) (data : List Byte) (y : Queue), s.queue d q = some y →
    y.watch = some { pa := a } → isMemory pa = true → meets a 8 (canonPa pa) data.length = true →
    let t := (s.agentWrite launch pa data).1
    t.queue d q = some (if (wordAt t.mem a).toInt ≤ 0 then { y with watch := some { pa := a, seen := some (wordAt t.mem a) } }
      else y)) ∧
  (∀ (s : State) (d q : Nat) (y : Queue) (p : List W64), s.nextHead d = some (q, y, p) → s.headPacket d q = some (y, p) ∧
    ∀ c z r, c < 64 → s.headPacket d c = some (z, r) → s.packetPrio z r ≤ s.packetPrio y p ∧
      (s.packetPrio z r = s.packetPrio y p →
        (q + 63 - (s.die d).lastQueue) % 64 ≤ (c + 63 - (s.die d).lastQueue) % 64)) ∧
  (∀ (s : State) (d q : Nat) (y : Queue) (p : List W64), d < 8 → q < 64 → s.nextHead d = some (q, y, p) → s.upsets = [] →
    let a : Act := { idx := y.qread.toNat, packet := p }
    let type := (dword p 0).toNat / 2 ^ 8 % 2 ^ 8
    (∀ e, firstError s d q y p = some e → exec (.packetDispatch d q) s = .next (s.stopQueue d q e y.qread)) ∧
    (firstError s d q y p = none → ∃ t, exec (.packetDispatch d q) s = .next t ∧
      (t.die d).lastQueue = q ∧ (type = 1 → (t.die d).loadCap (recordSlot q) = recordRight p) ∧
      (type ∈ [1, 3, 7] → t.mem = s.mem ∧ t.lanes = s.lanes ∧ t.queue d q = some { y with head := some a }) ∧
      (type ∉ [1, 3, 7] → slotFreed s t y ∧ t.queue d q = some (wentOn y a)))) ∧
  ∀ (s : State) (d q : Nat) (code : BitVec 8) (idx : W64) (y : Queue), s.queue d q = some y →
    let t := s.stopQueue d q code idx
    t.queue d q = some (if y.error then y else stopped y code idx) ∧ t.mem = s.mem ∧ t.lanes = s.lanes ∧
    ∀ j x, tfind s.launches j = some x → x.state = .waiting → x.queue = some (d, q) →
      tfind t.launches j = none ∧ ∀ c, (t.core c).launch ≠ some j ∧ j ∉ (t.core c).requests

/-- spec/09 R145 to R147, spec/23 R339 to R343, spec/26 R383: a LAUNCH whose record is right asks for its cores, the
lowest first, and one whose record is wrong, or whose capability does not reach it, stops its queue; a free core is
granted to the launch of highest priority, a resumed one first, and to none while a halted launch of no lower priority
could go on there; a running launch of lower priority is halted, one not yet placed gives the core up; with all cores
granted the launch gets its number and the ranges of its items, every thread stands at the entry point with its RSB and
its warp's KERNARG, helpers fill the last quad, and the queue goes on. (The order of requests, and that a capability's
fault is BOUNDS, are the model's readings, log entries 13 and 58.) -/
def Obligations.LaunchesStart : Prop :=
  open Sys2Proof.Claims in
  (∀ (s : State) (d q : Nat) (y : Queue) (a : Act), queueAt s d q y → y.head = some a →
    (dword a.packet 0).toNat / 2 ^ 8 % 2 ^ 8 = 1 → a.launch = none →
    let right := (s.die d).loadCap (recordSlot q)
    (right.allows 3 .read (dword a.packet 1) 256 = false →
      exec (.launchPacket d q) s = .next (s.stopQueue d q 0x03 y.qread)) ∧
    ∀ r, right.allows 3 .read (dword a.packet 1) 256 = true → s.upsets = [] →
    s.cpDwords y.capx (dword a.packet 1) 32 = some r →
    ((∀ cs, ¬ recordPasses s y.capx a.packet r cs) → exec (.launchPacket d q) s = .next (s.stopQueue d q 0x04 y.qread)) ∧
    ∀ cs, recordPasses s y.capx a.packet r cs → ∃ x, s.launchOfPacket d q y a r = some x ∧ x.cores = cs ∧ ∀ c0, c0 ∈ x.cores → (∀ c ∈ x.cores, c0 ≤ c) →
      (∀ c ∈ x.cores, (s.core c).launch ≠ some s.nextId ∧ s.nextId ∉ (s.core c).requests) →
      x.record = r ∧ x.packet = a.packet ∧ x.capx = y.capx ∧ x.state = .waiting ∧ x.queue = some (d, q) ∧
        x.prio = min ((dword r 1).toNat / 2 ^ 49 % 8) y.prioCap ∧
      ∃ t, exec (.launchPacket d q) s = .next t ∧ t.mem = s.mem ∧ t.lanes = s.lanes ∧ t.nextId = s.nextId + 1 ∧
        tfind t.launches s.nextId = some x ∧ t.queue d q = some { y with head := some { a with launch := some s.nextId } } ∧
        ∀ c, t.core c = if c = c0 then { s.core c with requests := (s.core c).requests ++ [s.nextId] } else s.core c) ∧
  (∀ (s : State) (core : Nat) (is : List Nat), (s.firstRequest core is = none → ∀ j ∈ is, givesWay s j core) ∧
    ∀ i, s.firstRequest core is = some i → i ∈ is ∧ ¬ givesWay s i core ∧ ∀ j ∈ is, ¬ givesWay s j core →
      (s.launchAt j).prio ≤ (s.launchAt i).prio ∧
      ((s.launchAt j).prio = (s.launchAt i).prio → (∃ k, (s.launchAt j).state = .halted k) →
        ∃ k, (s.launchAt i).state = .halted k)) ∧
  (∀ (s : State) (c i : Nat), c < 1536 → s.firstRequest c (s.core c).requests = some i → (s.die (c / 192)).state = .ready →
    ((s.core c).launch = none → ∃ t, exec (.coreGrant c) s = .next t ∧ t = { s with cores := t.cores } ∧
      (t.core c).launch = some i ∧ i ∉ (t.core c).requests) ∧
    ∀ j, (s.core c).launch = some j → (s.launchAt j).prio < (s.launchAt i).prio →
      ((s.launchAt j).state = .running → exec (.coreGrant c) s = .next (s.requestHalt j)) ∧
      ((s.launchAt j).state = .waiting ∨ (∃ k, (s.launchAt j).state = .halted k) → ∃ t, exec (.coreGrant c) s = .next t ∧
        t = { s with cores := t.cores } ∧ (t.core c).launch = some i ∧ (t.core c).requests.head? = some j)) ∧
  ∀ (s : State) (d q i : Nat) (x : Launch) (y : Queue) (a : Act), queueAt s d q y → y.head = some a →
    s.grantedLaunch d q = some (i, x) → x.state = .waiting → x.cores.Nodup → x.threads ≤ 4096 →
    let kernarg := if dword x.packet 4 = 0 then dword x.record 8 else dword x.packet 4
    ∃ t, exec (.launchPlace d q) s = .next t ∧ t.queue d q = some (wentOn y a) ∧ slotFreed s t y ∧
      (∃ z, tfind t.launches i = some z ∧ z.state = .running ∧ z.record = x.record ∧ z.disp = x.ranges ∧
        z.num = BitVec.ofNat 32 (d % 8 * 2 ^ 29 + ((s.die d).placed + 1) % 2 ^ 29)) ∧
      ∀ b c, blockCore x b = some c → (t.core c).launch = some i ∧ t.blockId c = b ∧ ∀ n < (x.threads + 3) / 4 * 4,
        let w := (if x.paired then c + n / 32 % 2 else c) * 128 + n / 32
        (tget 0 (t.warp w).s 0, tget 0 (t.warp w).s 1) = (kernarg.setWidth 32, kernarg.extractLsb' 32 32) ∧
        (t.warp w).mode = modeReset ∧ (t.warp w).trapv = dword x.record 10 ∧ (t.warp w).seed = dword x.record 9 ∧
        t.lane (w * 32 + n % 32) =
          { helper := decide (x.threads ≤ n), member := decide (n < x.threads), pc := (dword x.record 0).setWidth 48,
            readyAt := s.cycles,
            rsb := dword x.record 11 + BitVec.ofNat 64 (8192 * (BitVec.ofNat 32 (b * 4096 + n)).toNat) }

/-- spec/23 R335, R338, R345, R348 to R350, spec/12 R207, R221, R222: COPY writes what it read; DEPEND, once its
release is over, counts its counter down, and stops the queue where it is not positive; SEAL waits while a running
launch maps the page writable, then writes the page back, drops every copy of it, makes it read-only in every address
space and clears W in a leaf all of whose pages are sealed (the seal of its own, and the W of a leaf sealed in part
kept, are the model's, log entry 55); FLUSH brings lines to HBM; NETWRITE sends once its link is up, and goes on with
its acknowledgement; the receiver writes the payload, and counts the signal down in a later release at SYSTEM scope. A
packet that has acted counts its signal down once GT has passed its times by 2, closing the generation of launch 0 at
SYSTEM scope. (That a COPY and a received payload are each one step, and that what they write and release has launch
number 0, are the model's choices, log entries 20 and 21.) -/
def Obligations.PacketsRun : Prop :=
  open Sys2Proof.Claims in
  (∀ (i : Instr) (s : State) (d q k type : Nat) (y : Queue) (a : Act), packetOf i = some (d, q, k, type) → queueAt s d q y →
    y.head = none → y.act k type = some a → a.acted = true ∨ type = 6 ∧ a.times = [] → s.upsets = [] →
    tget 0 a.times (packetRscope a.packet).code + 2 ≤ s.dieGt d →
    let rest := { y with acts := y.acts.filter fun b => b.idx ≠ a.idx }
    (dword a.packet 2 = 0 → ∃ t, exec i s = .next t ∧ t.mem = s.mem ∧ t.queue d q = some rest) ∧
    ∀ pa, dword a.packet 2 ≠ 0 → s.checkVa cpAgent y.capx .write 8 (dword a.packet 2) = .inl pa → isMemory pa = true →
      s.lineFree s.nextId pa 8 = true → ∃ t, exec i s = .next t ∧ queueNow t d q rest ∧
        (packetRscope a.packet = .system → (0, canonPa pa) ∈ t.generations) ∧
        writtenAt s.mem t.mem (canonPa pa) (toLe (wordAt s.mem pa - 1).toNat 8)) ∧
  (∀ (s : State) (d q k : Nat) (y : Queue) (a : Act) (bs : List Byte), queueAt s d q y → y.act k 2 = some a →
    a.acted = false → s.upsets = [] →
    let n := (dword a.packet 6).toNat % 2 ^ 32
    let dst := dword a.packet 4
    s.readVa cpAgent y.capx .read (dword a.packet 1) n = some bs → s.rangeReady y.capx .write dst n = true →
    s.rangeFree y.capx (dword a.packet 1) n false = true → s.rangeFree y.capx dst n true = true →
    ∃ (t : State) (times : Tab Nat), exec (.copyPacket d q k) s = .next t ∧ queueNow t d q (actedIn y k times) ∧
      ∀ pa, 0 < n → dst.toNat % 256 + n ≤ 256 → s.checkVa cpAgent y.capx .write 1 dst = .inl pa → isMemory pa = true →
        writtenAt s.mem t.mem (canonPa pa) bs) ∧
  (∀ (s : State) (d q k pa : Nat) (y : Queue) (a : Act), queueAt s d q y → y.headAct k 3 = some a →
    s.checkVa cpAgent y.capx .write 8 (dword a.packet 4) = .inl pa → isMemory pa = true → s.upsets = [] →
    let due := tget 0 (s.die d).times (packetRscope a.packet).code + 2
    (s.dieGt d < due → exec (.dependPacket d q k) s = .next s) ∧
    (s.lineFree s.nextId pa 8 = false → exec (.dependPacket d q k) s = .next s) ∧
    (due ≤ s.dieGt d → s.lineFree s.nextId pa 8 = true → (wordAt s.mem pa).toInt ≤ 0 →
      exec (.dependPacket d q k) s = .next (s.stopQueue d q 0x05 y.qread)) ∧
    (due ≤ s.dieGt d → s.lineFree s.nextId pa 8 = true → 0 < (wordAt s.mem pa).toInt →
      ∃ (t : State) (m : List Host.Cell) (times : Tab Nat),
      exec (.dependPacket d q k) s = .next t ∧ t.queue d q = some (wentOn y { a with acted := true, times := times }) ∧
      writtenAt s.mem m (canonPa pa) (toLe (wordAt s.mem pa - 1).toNat 8) ∧ slotFreed { s with mem := m } t y)) ∧
  (∀ (s : State) (d q k root pa : Nat) (y : Queue) (a : Act), queueAt s d q y → y.act k 4 = some a →
    a.acted = false → (dword a.packet 6).toNat % 2 ^ 32 = 1 → s.upsets = [] →
    let va := dword a.packet 1
    let leaf := s.leafFrom (va.toNat % 2 ^ 57) root 4
    tfind s.roots y.capx = some root → s.translate cpAgent y.capx (.sys false) va = .ok pa →
    (s.sealed pa = false → s.mappedWritable (pa / 65536 * 65536) 65536 = true → exec (.sealPacket d q k) s = .next s) ∧
    (s.sealed pa = true → ∃ (t : State) (times : Tab Nat), exec (.sealPacket d q k) s = .next t ∧
      t.queue d q = some (actedIn y k times) ∧ t = { s with dies := t.dies }) ∧
    (s.sealed pa = false → s.mappedWritable (pa / 65536 * 65536) 65536 = false →
      ∃ (t : State) (times : Tab Nat), exec (.sealPacket d q k) s = .next t ∧ queueNow t d q (actedIn y k times) ∧
        { capx := y.capx, va := va, page := pa / 65536 } ∈ t.seals ∧ (∀ x ∈ t.copies, x.line / 256 ≠ pa / 65536) ∧
        (∀ e k', leaf = some (e, k') → allSealed s e k' (pa / 65536) → isMemory e = true →
          writtenAt s.mem t.mem (canonPa e) (toLe (wordAt s.mem e &&& ~~~0x10).toNat 8) ∧
          (canonPa e / 65536 ≠ pa / 65536 → pageFlushed s t (pa / 65536)) ∧
          ∀ x ∈ t.tlb, x.capx = y.capx → x.page ≠ va.toNat % 2 ^ 57 / 2 ^ x.sizeLog) ∧
        ((∀ e k', leaf = some (e, k') → ¬ allSealed s e k' (pa / 65536)) → t.mem = s.mem ∧ pageFlushed s t (pa / 65536)))) ∧
  (∀ (s : State) (c capx pa : Nat) (va : W64), s.sealed pa = true → s.translate c capx (.sys false) va = .ok pa →
    s.translate c capx .write va = .denied ∧ s.translate c capx (.sys true) va = .denied) ∧
  (∀ (s : State) (d q k : Nat) (y : Queue) (a : Act), queueAt s d q y → y.act k 5 = some a → a.acted = false →
    let va := dword a.packet 1
    let n := (dword a.packet 6).toNat % 2 ^ 32
    open Classical in
    let flushed := fun (t : State) (p : Nat → Prop) =>
      (∀ b, Memory.read t.hbm b = if p (b / 256) ∧ tfind s.dirty (b / 256) ≠ none then Memory.read s.mem b
        else Memory.read s.hbm b) ∧ ∀ line, tfind t.dirty line = if p line then none else tfind s.dirty line
    (va = 0 → n = 0 → ∃ (t : State) (times : Tab Nat), exec (.flushPacket d q k) s = .next t ∧
      t.queue d q = some (actedIn y k times) ∧ flushed t fun _ => True) ∧
    ∀ pa, 0 < n → va.toNat % 65536 + n ≤ 65536 → s.checkVa cpAgent y.capx .read 1 va = .inl pa →
      ∃ (t : State) (times : Tab Nat), exec (.flushPacket d q k) s = .next t ∧ t.queue d q = some (actedIn y k times) ∧
        flushed t fun line => pa / 256 ≤ line ∧ line ≤ (pa + n - 1) / 256) ∧
  (∀ (s : State) (d q k : Nat) (y : Queue) (a : Act), queueAt s d q y → y.headAct k 7 = some a →
    (a.acted = false → s.linkOk d a.packet = false →
      exec (.netwritePacket d q k) s = .next (s.stopQueue d q 0x09 y.qread)) ∧
    (a.acted = false → s.linkOk d a.packet = true → s.upsets = [] →
      (s.readVa cpAgent y.capx .read (dword a.packet 1) ((dword a.packet 6).toNat % 2 ^ 32)).isSome →
      s.rangeFree y.capx (dword a.packet 1) ((dword a.packet 6).toNat % 2 ^ 32) false = true →
      ∃ t, exec (.netwritePacket d q k) s = .next t ∧ t = { s with dies := t.dies } ∧
        t.queue d q = some { y with head := some { a with acted := true } }) ∧
    (a.acted = true → ∃ (t : State) (times : Tab Nat), exec (.netwriteAck d q k) s = .next t ∧ slotFreed s t y ∧
      t.queue d q = some (wentOn y { a with times := times }) ∧ ∀ sc ∈ scopes, tget 0 times sc.code = s.dieGt d)) ∧
  (∀ (s : State) (d q k : Nat) (y : Queue) (a : Act), queueAt s d q y → y.error = true → y.head = none →
    y.act k 7 = some a → a.acted = false → ∃ (t : State) (times : Tab Nat), exec (.netwriteAck d q k) s = .next t ∧
      queueNow t d q (actedIn y k times) ∧ ∀ sc ∈ scopes, tget 0 times sc.code = s.dieGt d) ∧
  (∀ (s : State) (capx pa : Nat) (va signal : W64) (bs : List Byte), bs ≠ [] → va.toNat % 256 + bs.length ≤ 256 →
    s.rangeReady capx .write va bs.length = true → s.rangeFree capx va bs.length true = true →
    s.checkVa cpAgent capx .write 1 va = .inl pa → isMemory pa = true →
    let w := s.agentWrite 0 pa bs
    ∃ t, exec (.netwriteReceive capx va bs signal false) s = .next t ∧ writtenAt s.mem t.mem (canonPa pa) bs ∧
      t.arrivals = if signal = 0 then s.arrivals
        else s.arrivals ++ [{ capx := capx, signal := signal, times := w.1.timesOf 0 [w.2] }]) ∧
  ∀ (s : State) (capx : Nat) (va signal : W64) (bs : List Byte) (a : Arrival) (rest : List Arrival),
    s.arrivals = a :: rest →
    (s.dieGt 0 < tget 0 a.times Scope.system.code + 2 → exec (.netwriteReceive capx va bs signal true) s = .next s) ∧
    ∀ ps, tget 0 a.times Scope.system.code + 2 ≤ s.dieGt 0 → s.checkVa cpAgent a.capx .write 8 a.signal = .inl ps →
      isMemory ps = true → s.lineFree s.nextId ps 8 = true → s.upsets = [] →
      ∃ t, exec (.netwriteReceive capx va bs signal true) s = .next t ∧ t.arrivals = rest ∧ (0, canonPa ps) ∈ t.generations ∧
        writtenAt s.mem t.mem (canonPa ps) (toLe (wordAt s.mem ps - 1).toNat 8)

/-! ## Contexts, integrity, the mailbox and the ports (spec/24, spec/26) -/

namespace Sys2Proof.Claims

/-- The code of a port, and of a die's firmware, as the owner of a semaphore (spec/26 R377, R378). -/
def portCode (port : Port) : Nat :=
  match port with
  | .ucie => 1 | .pcie => 2
def agentCode (a : Agent) : Nat :=
  match a with
  | .port p => portCode p
  | .firmware d => 0x10 + d.val

/-- What a port's mailbox is at: nothing, a command asked for, or one that runs. -/
def job (s : State) (d : Nat) (port : Port) : MailJob := tget .idle (s.die d).jobs (portCode port)

/-- MB1 of a port's mailbox as it reads: 0 DONE, 1 BUSY, 2 DENIED, 3 INVALID, 4 FAILED (spec/26 R382). -/
def mb1 (s : State) (d : Nat) (port : Port) : W64 :=
  if job s d port = .idle then tget 0 (s.die d).mailbox (portCode port) else 1

/-- MB2 to MB511 of a port's mailbox. -/
def mbArg (s : State) (d : Nat) (port : Port) (i : Nat) : W64 := tget 0 (s.die d).mailArgs (portCode port * 512 + i)

/-- Does a port hold a semaphore (spec/26 R378)? -/
def holdsSem (s : State) (port : Port) (sem : Nat) : Prop :=
  (s.sem sem).getLsbD 63 = true ∧ (s.sem sem).toNat % 256 = portCode port

/-- The mailbox commands: port, die, code and the semaphore of the command's region (spec/26 R379, R382). -/
def commandOf (i : Instr) : Option (Port × Nat × Nat × Nat) :=
  match i with
  | .createq p d _ => some (p, d, 1, 3 + d)
  | .resetq p d => some (p, d, 2, 3 + d)
  | .preempt p d => some (p, d, 3, 3 + d)
  | .loadimg p d => some (p, d, 4, 3 + d)
  | .kill p d => some (p, d, 5, 3 + d)
  | .attest p d => some (p, d, 6, 2)
  | .fwupdate p d => some (p, d, 7, 0)
  | .devreset p d => some (p, d, 8, 0)
  | _ => none

/-- A die's firmware takes a command of a port (spec/26 R379, R382): the mailbox asks for it, the port holds the
semaphore, and no storage error stands. -/
def accepts (s : State) (port : Port) (d code sem : Nat) : Prop :=
  d < 8 ∧ job s d port = .asked code ∧ holdsSem s port sem ∧ s.upsets = []

/-- A port works: the host die's once the host die's firmware has verified (spec/26 R377, R384). -/
def portRuns (s : State) (port : Port) : Prop := port = .pcie ∨ s.hostUp = true

/-- The accesses of a port to registers, semaphores and memory (spec/26 R377 to R381). -/
def portOf (i : Instr) : Option Port :=
  match i with
  | .semClaimRead (.port p) n => if n < 64 then some p else none
  | .semReleaseWrite (.port p) n _ => if n < 64 then some p else none
  | .registerWrite p _ _ => some p
  | .hostWindowWrite p _ _ => some p
  | .hostAliasRead p _ _ => some p
  | .hostWrite p _ _ => some p
  | .hostRead p _ _ => some p
  | _ => none

/-- The physical address that a host's address names (spec/26 R380, R381). -/
def hostPlace (a : HostAddr) (port : Port) : Nat := Sys2Proof.Machine.HostAddr.physical a port

/-- Nothing of a context stands on some cores. -/
def coresFree (t : State) (cs : List Nat) : Prop :=
  (∀ c ∈ cs, (t.core c).launch = none ∧ (t.core c).block = none) ∧
  (∀ l, coreOf l ∈ cs → (t.lane l).status = .retired) ∧ ∀ o ∈ t.ops, o.core ∉ cs

/-- MC0 of a log entry (spec/26 R374): VALID, UNC, HOP, DIE, CORE, LAUNCH. -/
def mc0Of (unc : Bool) (hop d core : Nat) (launch : W32) : W64 :=
  BitVec.ofNat 64 (2 ^ 63 + (if unc then 2 ^ 62 else 0) + hop * 2 ^ 48 + d * 2 ^ 45 + core * 2 ^ 34 + launch.toNat)

/-- The HOP code of a site (spec/26 R370). -/
def hopCode (site : Site) : Nat :=
  match site with
  | .dram _ => 0x01 | .hbm _ => 0x02 | .mem _ => 0x03 | .l1 _ _ => 0x08 | .icache _ _ => 0x09 | .lane _ _ => 0x0A
  | .loaded _ _ => 0x0A | .tile _ _ _ => 0x0B | .acc _ _ _ => 0x0C | .fifo _ _ _ _ => 0x0D | .window _ => 0x0E
  | .firmware _ _ => 0x0F
  | .link hop _ => hop

/-- The core of a site, 0x7FF for none (spec/26 R374). -/
def coreCode (site : Site) : Nat :=
  match site with
  | .lane k _ => k / 4096 | .loaded k _ => k / 4096 | .tile c _ _ => c | .l1 c _ => c | .icache c _ => c | _ => 0x7FF

/-- STATE of a lane record (spec/24 R357): 1 runnable, 2 Meeting, 3 Held, 4 Asleep at BAR, 5 retired. -/
def laneState (y : Lane) : Nat :=
  match y.status with
  | .retired => 5
  | .held _ => 3
  | .asleepBar _ => 4
  | .idle => if y.meet ≠ 0 ∧ y.pc = y.meet ∧ y.rslot = 0 then 2 else 1
  | _ => 1

/-- The lane record LR0 to LR5 of spec/24 R357, each doubleword from its highest bit down. -/
def laneRecord (y : Lane) : List W64 :=
  let hmode : BitVec 2 := match y.hmode with
    | .normal => 0 | .user => 1 | .kernel => 2
  [ BitVec.ofNat 4 (laneState y) ++ BitVec.ofNat 5 y.rslot ++ hmode ++ BitVec.ofBool y.kprev ++ BitVec.ofBool y.uprev ++
      BitVec.ofBool y.defer ++ y.gstat.extractLsb' 0 5 ++ y.pc.extractLsb' 3 45,
    y.depth ++ BitVec.ofBool y.helper ++ BitVec.ofBool (decide (y.status = .dormant)) ++ y.p ++ y.meet.extractLsb' 3 45,
    y.rsb,
    y.rsctr ++ y.f3.extractLsb' 0 16 ++ y.f3.extractLsb' 22 10 ++ y.gstat.extractLsb' 10 3 ++ y.gstat.extractLsb' 9 1 ++
      y.gstat.extractLsb' 8 1 ++ y.priv.extractLsb' 0 1,
    y.f0.extractLsb' 56 8 ++ y.f0.extractLsb' 52 4 ++ (0 : BitVec 7) ++ y.f0.extractLsb' 3 45,
    y.f2 ]

/-- Is a lane one that a halted context can hold, its PC and MEET on doublewords (spec/24 R354)? -/
def haltedLane (y : Lane) : Prop :=
  (y.status = .idle ∨ y.status = .dormant ∨ y.status = .retired ∨ (∃ m, y.status = .held m) ∨ ∃ k, y.status = .asleepBar k) ∧
  y.rslot < 32 ∧ y.pc.toNat % 8 = 0 ∧ y.meet.toNat % 8 = 0

/-- The cores that a context still holds, in ascending order. -/
def coresHeld (s : State) (i : Nat) (x : Launch) : List Nat :=
  (sortLanes (x.cores ++ x.held)).filter fun c => (s.core c).launch == some i

/-- Memory once the bytes of an image from an offset stand in their place, line by line (spec/24 R356). -/
def imageLaid (m : List Host.Cell) (im : Image) (off n : Nat) : List Host.Cell :=
  (List.range (n / 256)).foldl (fun m i =>
    let at_ := off + 256 * i
    if isMemory (im.addr + at_) then
      Memory.writeBytes m (canonPa (im.addr + at_)) ((List.range 256).map fun k => im.byte (at_ + k))
    else m) m

/-- A launch of another state, its records aside: writes may have made watched ones due. -/
def sameLaunch (x y : Launch) : Prop := { x with pool := [] } = { y with pool := [] }

/-- A lane that is in no group when the halt reaches its core (spec/24 R354, spec/16 R294, spec/02 R42): one asleep at
WAITW, Refining or Translating stands at that slot again. -/
def haltedAlone (y : Lane) : Lane :=
  match y.status with
  | .asleepWaitw _ _ => { y with status := .idle }
  | .refining => { y with status := .idle }
  | .translating _ => { y with status := .idle }
  | _ => y

end Sys2Proof.Claims

/-- spec/24 R352 to R361, spec/26 R373, R375: a halt asked of a context reaches its cores one by one; a core that halts
dissolves its groups, each lane standing at the slot that it would run next with its registers as they are. Once every
core has halted and all responses are in, the return stacks are spilled and the launch section of the image written;
then each core's section, with every lane's record in its place, and that core is free; and after them the header with
the SHA3-512 of every byte but its own; or, when the context is killed, nothing is saved. A loaded image gives each
lane its record and registers back on its new core, the warps their registers and wait times, the launch a new number,
and every core of the set has acquired at SYSTEM scope. (When all responses are in is the model's reading of the halt's
phases, log entry 48. How an image is held, where its parts and its digest stand, and what a restarted engine does are
the model's, log entries 33, 34 and 59.) -/
def Obligations.ContextsHaltAndResume : Prop :=
  open Sys2Proof.Claims in
  (∀ (s : State) (i : Nat) (x : Launch), tfind s.launches i = some x → x.state = .running →
    exec (.preemptRequest i) s = .next { s with launches := tset s.launches i { x with state := .halting } }) ∧
  (∀ (s : State) (i c : Nat) (x : Launch), tfind s.launches i = some x → x.state = .halting → c ∈ x.cores ++ x.held →
    c ∉ x.stopped →
    ∃ t, exec (.contextHalted i (some c)) s = .next t ∧
      t = { s with launches := t.launches, lanes := t.lanes, groups := t.groups, cores := t.cores, tiles := t.tiles } ∧
      tfind t.launches i = some { x with stopped := x.stopped ++ [c] } ∧ t.groups = s.groups.filter (fun p => p.1 / 16 ≠ c) ∧
      (∀ k, t.core k = if k = c then { s.core c with
        gecko := [], tileOps := (s.core c).tileOps.map fun o => if o.left = none then { o with started := false } else o }
        else s.core k) ∧
      (∀ l, { t.lane l with status := .idle, pc := 0, rslot := 0 } = { s.lane l with status := .idle, pc := 0, rslot := 0 }) ∧
      (∀ l, (∀ p ∈ s.groups, p.1 / 16 = c → l ∉ p.2.lanes) →
        t.lane l = if coreOf l = c then haltedAlone (s.lane l) else s.lane l) ∧
      ∀ k g l, (k, g) ∈ s.groups → k / 16 = c → l ∈ g.lanes → (∀ p ∈ s.groups, p.1 / 16 = c → l ∈ p.2.lanes → p = (k, g)) →
        tfind s.lanes l ≠ none → (t.lane l).status = .idle ∧ (t.lane l).pc = g.pc ∧
          (t.lane l).rslot = if l ∈ g.served then g.slot + State.slotWidth { s with cur := some k } else g.slot) ∧
  (∀ (s u : State) (l : Nat), s.spillAll [l] = some u → (s.lane l).status ≠ .retired →
    ∃ v : State, OneByOne (fun a j b => ∃ pa,
        a.laneVa l .write 8 ((s.lane l).rsb + BitVec.ofNat 64 (8 * ((s.lane l).depth.toNat - j - 1))) = .inl pa ∧
        b = a.storeNow l pa (toLe ((s.lane l).stack.getD j 0).toNat 8)) s (List.range (s.lane l).stack.length) v ∧
      u = v.modLane l fun x => { x with stack := [] }) ∧
  (∀ (s : State) (i : Nat) (x : Launch), tfind s.launches i = some x → x.state = .halting →
    (x.killing = true → x.saving ≠ none ∨ s.collected x = true →
      ∃ t : State, exec (.contextHalted i none) s = .next t ∧ t.mem = s.mem ∧ t.images = s.images ∧
        tfind t.launches i = none ∧ coresFree t (coresHeld s i x)) ∧
    (∀ u, x.killing = false → x.saving = none → s.collected x = true → s.upsets = [] → u.nextId < 2 ^ 32 →
      (x.cores ++ x.held).length ≤ 1536 →
      (s.writeBackContext x).spillAll ((sortLanes (x.cores ++ x.held)).flatMap s.coreLanes) = some u →
      ∃ (t : State) (im : Image), exec (.contextHalted i none) s = .next t ∧
        t.mem = imageLaid u.mem im 4096 (0x4000000 - 4096) ∧ tfind t.images u.nextId = some im ∧ im.version = 1 ∧
        im.whole = false ∧ im.launch.record = x.record ∧
        (∃ y z, tfind u.launches i = some y ∧ tfind t.launches i = some z ∧ sameLaunch z { y with saving := some u.nextId }) ∧
        ∀ (j c : Nat), (sortLanes (x.cores ++ x.held))[j]? = some c → ∃ r : ImageCore, im.cores[j]? = some r ∧
          (∀ l y, l < 4096 → tfind u.lanes (c * 4096 + l) = some y → ∃ z : ImageLane, tfind r.lanes l = some z ∧
            z.v = y.v ∧ z.g = y.g ∧ z.lr = laneRecord y) ∧
          ∀ w y, w < 128 → tfind u.warps (c * 128 + w) = some y → ∃ z : Warp, tfind r.warps w = some z ∧
            { z with swt := [], owt := [] } = { y with swt := [], owt := [] }) ∧
    ∀ k im, x.killing = false → x.saving = some k → tfind s.images k = some im →
      (∀ c rest j, coresHeld s i x = c :: rest → (sortLanes (x.cores ++ x.held))[j]? = some c →
        (∀ h < j, (sortLanes (x.cores ++ x.held))[h]? ≠ some c) →
        ∃ t : State, exec (.contextHalted i none) s = .next t ∧ t.images = s.images ∧
          t.mem = imageLaid s.mem im (0x4000000 + 1966080 * j) 1966080 ∧ coresFree t [c] ∧
          (∀ e, e ≠ c → (t.core e).launch = (s.core e).launch) ∧ ∃ z, tfind t.launches i = some z ∧ sameLaunch z x) ∧
      (coresHeld s i x = [] →
        let laid := imageLaid s.mem im 0 4096
        let n := 0x4000000 + 1966080 * im.cores.length
        let digest := Config.sha3 (((List.range n).filter fun k => decide (k < 4032 ∨ 4096 ≤ k)).map fun k =>
          Memory.read laid (im.addr + k))
        ∃ t : State, exec (.contextHalted i none) s = .next t ∧ tfind t.images k = some { im with whole := true } ∧
          (isMemory (im.addr + 4032) = true → writtenAt laid t.mem (canonPa (im.addr + 4032)) (toLe digest.toNat 64)) ∧
          (∀ a ∈ x.askers, tget 0 (t.die a.1).mailbox a.2.1 = 0 ∧ tget .idle (t.die a.1).jobs a.2.1 = .idle) ∧
          (x.release = true → tfind t.launches i = none) ∧
          (x.release = false → (tfind t.launches i).map (·.state) = some (.halted k)))) ∧
  (∀ (im : Image) (j l q b : Nat) (r : ImageCore) (z : ImageLane), im.cores[j]? = some r → tfind r.lanes l = some z →
    l < (if im.launch.paired then 4096 else 2048) → q < 6 → b < 8 →
    (im.launch.paired = true → l / 32 % 2 = (sortLanes (im.launch.cores ++ im.launch.held)).getD j 0 % 2) →
    let k := if im.launch.paired then l / 64 * 32 + l % 32 else l
    im.byte (0x4000000 + 1966080 * j + 1839104 + 48 * k + 8 * q + b) = (toLe (dword z.lr q).toNat 8).getD b 0) ∧
  ∀ (s : State) (d q i k : Nat) (x : Launch) (im : Image) (y : Queue), queueAt s d q y →
    s.grantedLaunch d q = some (i, x) → x.state = .halted k → tfind s.images k = some im →
    let old := sortLanes (im.launch.cores ++ im.launch.held)
    let new := sortLanes (x.cores ++ x.held)
    old.Nodup → new.Nodup → old.length = new.length → im.cores.length = old.length →
    (∀ r ∈ im.cores, (r.lanes.map (·.1)).Nodup ∧ (∀ p ∈ r.lanes, p.1 < 4096) ∧
      (r.warps.map (·.1)).Nodup ∧ ∀ p ∈ r.warps, p.1 < 128) →
    ∃ t, exec (.launchPlace d q) s = .next t ∧ t.mem = s.mem ∧
      (∃ z, tfind t.launches i = some z ∧ z.state = .running ∧ z.record = x.record ∧ z.disp = im.launch.disp ∧
        z.num = BitVec.ofNat 32 (d % 8 * 2 ^ 29 + ((s.die d).placed + 1) % 2 ^ 29)) ∧
      (∀ c ∈ new, ∀ e ∈ t.copies, e.cache ≠ .l1 c ∧ e.cache ≠ .l2 (c / 192)) ∧
      ∀ (j c : Nat) (r : ImageCore), new[j]? = some c → im.cores[j]? = some r →
        (∀ (w : Nat) (z : Warp), (w, z) ∈ r.warps →
          { t.warp (c * 128 + w) with swt := [], owt := [] } = { z with swt := [], owt := [] } ∧
          ∀ sc ∈ scopes, tget 0 (t.warp (c * 128 + w)).swt sc.code = s.coreGt c + tget 0 z.swt sc.code ∧
            tget 0 (t.warp (c * 128 + w)).owt sc.code = s.coreGt c + tget 0 z.owt sc.code) ∧
        ∀ (l : Nat) (z : ImageLane), (l, z) ∈ r.lanes →
          let n := t.lane (c * 4096 + l)
          n.v = z.v ∧ n.g = z.g ∧ n.stack = [] ∧ n.restored = true ∧ n.spawned = z.spawned ∧ n.member = z.member ∧
          n.priv.toNat / 2 ^ 8 % 32 = z.qsel % 32 ∧ n.runFaults = (z.runFaults.map fun p => (p.1 + s.nextId, p.2)) ∧ n.runHandler = z.runHandler ∧
          ∀ h : Lane, haltedLane h → z.lr = laneRecord h → laneRecord n = z.lr

/-- spec/01 R14, spec/23 R350, spec/26 R370 to R376, R384 to R387: a replay and a failed link are logged, and the
contexts over a failed link are killed; a link's routes are those of its port's die; a scrub corrects what its code can,
and logs it, and lists the HBM row of what it cannot; the clock steps down while the module is hot; a module reset
leaves the reset state but for what fuses, maps and firmware's storage keep; at boot each die whose image is signed by a
fused key and new enough is ready, a die that fails answers its PCIe mailbox alone, and the module is in service unless
a die has more than one cluster to retire. (What replays and failed links log, how errors travel between HBM and caches,
what a reset keeps, the floor of the clock, and the firmware checks are the model's, log entries 5, 6, 40, 42, 43, 56,
66 and 67.) -/
def Obligations.IntegrityAndBoot : Prop :=
  open Sys2Proof.Claims in
  (∀ (s : State) (hop : BitVec 8) (d : Nat) (n : Fin 17), d < 8 → 4 ≤ hop.toNat → hop.toNat ≤ 7 → (s.die d).mcHead < 1024 →
    ∃ t, exec (.flitReplay hop d n) s = .next t ∧
      t = { s with dies := t.dies, freeCtr := t.freeCtr, errors := t.errors } ∧
      (t.die d).mcHead = ((s.die d).mcHead + n.val) % 1024 ∧ (t.die d).corrected = (s.die d).corrected + n.val ∧
      ∀ k < n.val, ∃ e, tfind (t.die d).mcLog (((s.die d).mcHead + k) % 1024) = some e ∧
        e.mc0 = mc0Of false hop.toNat d 0x7FF 0 ∧ e.mc2 = BitVec.ofNat 64 (s.dieGt d) ∧
        e.mc3.toNat % 2 ^ 32 = min (s.siteErrors (.link hop.toNat d) + k + 1) 0xFFFFFFFF) ∧
  (∀ (s : State) (hop : BitVec 8) (d port : Nat) (users : List Nat), d < 8 → 4 ≤ hop.toNat → hop.toNat ≤ 7 →
    (hop = 7 → port / 2 = d) → (s.launches.map (·.1)).Nodup →
    exec (.linkRetrain hop d port true users) s = .next s ∧
    ∃ t, exec (.linkRetrain hop d port false users) s = .next t ∧ t.mem = s.mem ∧ t.lanes = s.lanes ∧
      (t.die d).mcHead = ((s.die d).mcHead + 1) % 1024 ∧ (hop = 7 → tget false t.links port = false) ∧
      (∃ e, tfind (t.die d).mcLog (s.die d).mcHead = some e ∧
        e.mc0 = mc0Of true hop.toNat d 0x7FF ((users.head?.map fun i => (s.launchAt i).num).getD 0)) ∧
      ∀ i ∈ users, ∀ x, tfind s.launches i = some x → x.state = .running → x.killing = false →
        (tfind t.launches i).map (·.state) = some .halting) ∧
  (∀ (s : State) (port : Nat) (entries : List RouteEntry), port < 16 →
    (∃ t, exec (.fenlinkLinkChange port true entries) s = .next t ∧ t = { s with dies := t.dies, links := t.links } ∧
      tget false t.links port = true ∧
      (∀ e ∈ entries, e.1 = port / 2 → ∃ r, tfind (t.die e.1).routes e.2.1 = some r ∧ r.port = port) ∧
      ∀ d p r, (d = port / 2 → ∀ e ∈ entries, e.1 = d → e.2.1 ≠ p) → tfind (t.die d).routes p = some r → r.port ≠ port) ∧
    ∃ t, exec (.fenlinkLinkChange port false entries) s = .next t ∧ t.mem = s.mem ∧ t.lanes = s.lanes ∧
      tget false t.links port = false) ∧
  (∀ (s : State) (site : Site) (unc : Bool) (synd : W32), s.upsets = [{ site := site, unc := unc, synd := synd }] →
    ∃ t, exec (.scrub site) s = .next t ∧ t.mem = s.mem ∧ t.lanes = s.lanes ∧
      t.upsets = (if unc then s.upsets else []) ∧
      (t.die (s.siteDie site)).corrected = (s.die (s.siteDie site)).corrected + (if unc then 0 else 1) ∧
      (∀ g, site = .hbm g → unc = true → Config.rowOf g ∈ t.repairRows) ∧
      ∃ e, tfind (t.die (s.siteDie site)).mcLog (s.die (s.siteDie site)).mcHead = some e ∧
        (hopCode site < 256 → s.siteDie site < 8 → coreCode site < 2048 →
          e.mc0 = mc0Of unc (hopCode site) (s.siteDie site) (coreCode site) 0) ∧
        e.mc2 = BitVec.ofNat 64 (s.dieGt (s.siteDie site)) ∧ e.mc3.toNat / 2 ^ 32 = synd.toNat) ∧
  (∀ s : State, exec .temperatureLimitReached s = .next { s with hot := true, clock := max 1 (s.clock - 1) } ∧
    exec .temperatureLimitCleared s = .next { s with hot := false, clock := min 18 (s.clock + 1) }) ∧
  (∀ s : State, exec .moduleReset s = .next { State.reset with
    minVersion := s.minVersion, firmware := s.firmware, repairRows := s.repairRows, sparesUsed := s.sparesUsed,
    boots := s.boots, nextId := s.nextId, freeCtr := s.freeCtr, turn := s.turn, turns := s.turns
    dies := (s.dies.filter fun p => p.2.worn ≠ []).map fun p => (p.1, { worn := p.2.worn }) }) ∧
  (∀ (s : State) (image : List Byte), s.verifies image = true ↔
    Config.sha3 (toLe (Config.imageKey image).toNat 2592) ∈ Config.fusedKeys.take 4 ∧
    Config.mlDsaVerifies (Config.imageKey image) (Config.sha3 image) (Config.imageSignature image) = true ∧
    s.minVersion.toNat ≤ (Config.imageVersion image).toNat) ∧
  (∀ (s : State) (bad : List (List Nat)), (∃ d < 8, (s.die d).state ≠ .off) → exec (.boot bad) s = .next s) ∧
  ∀ (s : State) (bad : List (List Nat)), (∀ d < 8, (s.die d).state = .off) →
    let toRetire := fun d => (bad.getD d [] ++ (s.die d).worn).eraseDups
    let image := fun d => (tfind s.firmware d).getD (Config.factoryFirmware d)
    ∃ t, exec (.boot bad) s = .next t ∧ t.mem = s.mem ∧ t.hbm = s.hbm ∧ t.boots = s.boots + 1 ∧ t.errors = [] ∧
      t.repairRows = [] ∧ t.hostUp = (s.hostUp || s.verifies (image 8)) ∧
      (t.inService = true ↔ ∀ d < 8, (toRetire d).length ≤ 1) ∧
      ∀ d < 8, (t.die d).image = image d ∧ (t.die d).retired = (toRetire d).head? ∧ (t.die d).worn = [] ∧
        (t.die d).state = (if s.verifies (image d) then .ready else .failed) ∧
        ((t.die d).state = .failed ∨ t.inService = false → mb1 t d .pcie = 4) ∧
        (t.inService = false → mb1 t d .ucie = 4)

/-- spec/23 R329, R333, spec/24 R358 to R361, spec/26 R373, R376, R379, R382 to R385: the mailbox commands. One whose
port does not hold the semaphore is DENIED, and one that the mailbox does not ask for does nothing; CREATEQ makes a
queue of a right descriptor with its capabilities, whose tags a plain store of bytes clears, and is INVALID for a wrong
one; RESETQ takes a queue out of ERROR; PREEMPT and KILL ask for a halt and stay BUSY; LOADIMG asks for cores; ATTEST
writes the report; FWUPDATE keeps an image for the next boot; DEVRESET ends every context and keeps HBM. (Which
semaphore guards a command, where each argument stands in MB2 to MB511, that the event names the number CREATEQ gives,
where an image lies, when a command stays BUSY, what LOADIMG and RESETQ refuse or clear, and what a reset keeps, are
the model's, log entries 32, 35, 36, 37, 42, 59, 62 and 67.) -/
def Obligations.MailboxCommands : Prop :=
  open Sys2Proof.Claims in
  (∀ (i : Instr) (s : State) (port : Port) (d code sem : Nat), commandOf i = some (port, d, code, sem) → d < 8 →
    (job s d port ≠ .asked code → exec i s = .next s) ∧
    (job s d port = .asked code → ¬ holdsSem s port sem → ∃ t, exec i s = .next t ∧ t = { s with dies := t.dies } ∧
      mb1 t d port = 2 ∧ ∀ k, (t.die k).queues = (s.die k).queues)) ∧
  (∀ (x : Die) (a k : Nat) (bs : List Byte) (c : Capability) (otype n : Nat) (u : CapUse) (va : W64), k < 2 ^ 32 →
    (x.storeCap k c).loadCap k = c ∧
    (a < 16 * k + 16 → 16 * k < a + bs.length → ((x.storePlain a bs).loadCap k).tag = false) ∧
    (c.allows otype u va n = true ↔ c.tag = true ∧ c.otype.toNat = otype ∧ c.perms.getLsbD u.bit = true ∧
      c.base.toNat ≤ va.toNat ∧ va.toNat + n ≤ c.base.toNat + c.length.toNat)) ∧
  (∀ (s : State) (port : Port) (d q : Nat), accepts s port d 1 (3 + d) →
    let qd0 := mbArg s d port 2
    let qd1 := mbArg s d port 3
    let right := q < 64 ∧ s.queue d q = none ∧ qd0.toNat % 4096 = 0 ∧ qd1.toNat / 2 ^ 24 = 0 ∧ qd1.toNat / 2 ^ 11 % 32 = 0 ∧
      qd1.toNat / 2 ^ 8 % 8 = d ∧ 4 ≤ qd1.toNat % 32 ∧ qd1.toNat % 32 ≤ 16
    ∃ t, exec (.createq port d q) s = .next t ∧ t = { s with dies := t.dies, roots := t.roots } ∧
      (right → mb1 t d port = 0 ∧ (tfind t.roots (qd1.toNat / 2 ^ 16 % 256)).isSome ∧ ∃ y, t.queue d q = some y ∧
        y.qd0 = qd0 ∧ y.qd1 = qd1 ∧ y.qread = 0 ∧ y.qwrite = 0 ∧ y.error = false ∧ y.acts = [] ∧
        (t.die d).loadCap (ringSlot q) =
          { tag := true, base := qd0, length := BitVec.ofNat 40 (128 * 2 ^ (qd1.toNat % 32)), otype := 1, perms := 0x23 } ∧
        (t.die d).loadCap (descriptorSlot q) =
          { tag := true, base := BitVec.ofNat 64 (16 * q), length := 16, otype := 2, perms := 3 }) ∧
      (¬ right → mb1 t d port = 3 ∧ t.roots = s.roots ∧ t.queue d q = s.queue d q)) ∧
  (∀ (s : State) (port : Port) (d : Nat), accepts s port d 2 (3 + d) →
    let q := (mbArg s d port 2).toNat
    ∃ t, exec (.resetq port d) s = .next t ∧ t = { s with dies := t.dies } ∧
      (s.queue d q = none → mb1 t d port = 3) ∧
      ∀ y, s.queue d q = some y → mb1 t d port = 0 ∧ t.queue d q = some
        (if y.error then { y with error := false, errcode := 0, depunder := false, qwrite := y.qerridx } else y)) ∧
  (∀ (s : State) (port : Port) (d i : Nat) (n : W32) (x : Launch) (release : Bool), accepts s port d 3 (3 + d) →
    mbArg s d port 2 = n.setWidth 64 → mbArg s d port 3 = (if release then 1 else 0) →
    s.launchNumbered n = some (i, x) → tfind s.launches i = some x →
    (x.state = .running → ∃ t, exec (.preempt port d) s = .next t ∧ t.mem = s.mem ∧ mb1 t d port = 1 ∧
      ∃ z, tfind t.launches i = some z ∧ z.state = .halting ∧ z.release = (x.release || release) ∧
        z.killing = x.killing ∧ z.askers = x.askers ++ [(d, portCode port, false)]) ∧
    ∀ k, x.state = .halted k → ∃ t, exec (.preempt port d) s = .next t ∧ t.mem = s.mem ∧ mb1 t d port = 0 ∧
      (release = true → tfind t.launches i = none)) ∧
  (∀ (s : State) (port : Port) (d i : Nat) (n : W32) (x : Launch), accepts s port d 5 (3 + d) →
    mbArg s d port 2 = n.setWidth 64 → (s.launches.map (·.1)).Nodup →
    s.launchNumbered n = some (i, x) → tfind s.launches i = some x → x.state = .running → x.killing = false →
    ∃ t, exec (.kill port d) s = .next t ∧ t.mem = s.mem ∧ mb1 t d port = 1 ∧
      ∃ z, tfind t.launches i = some z ∧ z.state = .halting ∧ z.killing = true ∧
        z.askers = x.askers ++ [(d, portCode port, true)]) ∧
  (∀ (s : State) (port : Port) (d : Nat) (n : W32), mbArg s d port 2 = n.setWidth 64 → s.launchNumbered n = none →
    (accepts s port d 3 (3 + d) → ∃ t, exec (.preempt port d) s = .next t ∧ t = { s with dies := t.dies } ∧ mb1 t d port = 3) ∧
    (accepts s port d 5 (3 + d) → ∃ t, exec (.kill port d) s = .next t ∧ t = { s with dies := t.dies } ∧ mb1 t d port = 3)) ∧
  (∀ (arg : Nat → W64) (c : Nat), c ∈ coresOfArgs arg ↔ c < 1536 ∧ (arg (3 + c / 64)).getLsbD (c % 64) = true) ∧
  (∀ (s : State) (port : Port) (d : Nat) (k : Option Nat) (y : Queue) (im : Image), accepts s port d 4 (3 + d) →
    let arg := mbArg s d port
    let q := (arg 27).toNat
    let id := k.getD s.nextId
    s.queue d q = some y → coresOfArgs arg ≠ [] → (arg 28).toNat % 8 = 0 → s.imageAt (arg 2).toNat = some (k, im) →
    (s.imageOk im y.capx (coresOfArgs arg) = false → ∃ t, exec (.loadimg port d) s = .next t ∧
      t = { s with dies := t.dies } ∧ mb1 t d port = 4) ∧
    (s.imageOk im y.capx (coresOfArgs arg) = true → (∀ p ∈ s.launches, p.2.state ≠ .halted id) →
      ∃ (t : State) (i : Nat) (z : Launch), exec (.loadimg port d) s = .next t ∧ t.mem = s.mem ∧ mb1 t d port = 1 ∧
        i = (if k = none then s.nextId + 1 else s.nextId) ∧ (k = none → tfind t.images id = some im) ∧
        (id < 2 ^ 32 → (t.die 0).loadCap (imageSlot id) =
          { tag := true, base := BitVec.ofNat 64 im.addr, otype := 4, perms := 3,
            length := BitVec.ofNat 40 ((coresOfArgs arg).length * 1966080 + 0x4000000) }) ∧
        tfind t.launches i = some z ∧ z.state = .halted id ∧ z.queue = some (d, q) ∧ z.capx = y.capx ∧
        z.record = im.launch.record ∧ z.askers = [(d, portCode port, false)] ∧
        z.packet = if arg 28 = 0 then im.launch.packet else im.launch.packet.set 2 (arg 28))) ∧
  (∀ (s : State) (port : Port) (d : Nat) (y : Queue), accepts s port d 4 (3 + d) →
    s.queue d (mbArg s d port 27).toNat = some y → coresOfArgs (mbArg s d port) ≠ [] → (mbArg s d port 28).toNat % 8 = 0 →
    s.imageAt (mbArg s d port 2).toNat = none →
    ∃ t, exec (.loadimg port d) s = .next t ∧ t = { s with dies := t.dies } ∧ mb1 t d port = 4) ∧
  (∀ (s : State) (port : Port) (d : Nat), accepts s port d 6 2 →
    let addr := (mbArg s d port 10).toNat
    let nonce := (List.range 8).flatMap fun i => toLe (mbArg s d port (2 + i)).toNat 8
    let digest := fun bs => toLe (Config.sha3 bs).toNat 64
    addr + 5435 ≤ 2 ^ 40 →
    (s.hostUp = false → ∃ t, exec (.attest port d) s = .next t ∧ t = { s with dies := t.dies } ∧ mb1 t d port = 4) ∧
    (s.hostUp = true → ∃ (t : State) (bs : List Byte), exec (.attest port d) s = .next t ∧ mb1 t d port = 0 ∧
      bs.length = 5435 ∧ writtenAt s.mem t.mem addr bs ∧ bs.take 72 = toLe 1 8 ++ nonce ∧
      (bs.drop 72).take 80 = toLe Config.serial.toNat 16 ++ digest ((tfind s.firmware 8).getD (Config.factoryFirmware 8)) ∧
      (∀ k < 8, (bs.drop (152 + 64 * k)).take 64 = digest (s.die k).image) ∧
      (bs.drop 792).take 16 = toLe (s.dieGt d) 8 ++ toLe s.minVersion.toNat 8 ∧
      bs.drop 808 = toLe (Config.identitySignature (Config.sha3 (bs.take 808))).toNat 4627)) ∧
  (∀ (s : State) (port : Port) (d : Nat), accepts s port d 7 0 →
    let a := (mbArg s d port 2).toNat
    let n := (mbArg s d port 3).toNat
    let raise_ := (mbArg s d port 4).getLsbD 0
    let image := Memory.readBytes s.mem (canonPa a) n
    (mbArg s d port 4).toNat < 2 →
    (isMemory a = false ∨ regionSpan a n = false → ∃ t, exec (.fwupdate port d) s = .next t ∧
      t = { s with dies := t.dies } ∧ mb1 t d port = 3) ∧
    (isMemory a = true → regionSpan a n = true → ∃ t, exec (.fwupdate port d) s = .next t ∧ mb1 t d port = 0 ∧
      t = { s with dies := t.dies, firmware := tset s.firmware d image,
                   minVersion := if raise_ && s.verifies image then Config.imageVersion image else s.minVersion })) ∧
  ∀ (s : State) (port : Port) (d : Nat), accepts s port d 8 0 → ∃ t, exec (.devreset port d) s = .next t ∧ t.launches = [] ∧
    t.lanes = [] ∧ t.cores = [] ∧ t.blocks = [] ∧ t.groups = [] ∧ t.ops = [] ∧ t.copies = [] ∧ t.dirty = [] ∧ t.hbm = s.hbm ∧
    t.firmware = s.firmware ∧ t.minVersion = s.minVersion ∧
    t.inService = false ∧ (∀ k, (t.die k).state = .off ∧ (t.die k).queues = [] ∧ (t.die k).mcLog = (s.die k).mcLog) ∧
    (∀ n, (t.sem n).getLsbD 63 = false ∧ ((s.sem n).getLsbD 63 = false → t.sem n = s.sem n)) ∧
    ∀ a, Memory.read t.mem a = if tfind s.dirty (a / 256) ≠ none then Memory.read s.hbm a else Memory.read s.mem a

/-- spec/12 R218, R219, R221, spec/26 R372, R377 to R382: a semaphore is claimed by reading it and freed by its owner's
write, or when its owner's link goes down; the ports write HBM and the windows at home, read HBM past the caches, read
a window's own word, and read and write the registers of the views, a mailbox's command among them; an address is
physical, or an offset of the PCIe port's BAR0 and BAR2; an absent address reads as 0, and data that fails its code is
answered with an error; the host die's port does nothing until the host die's firmware has verified. (That a claim, a
release and a broken semaphore keep TAG, and that a write of MB0 starts a later step, are the model's readings, log
entries 32 and 41.) -/
def Obligations.PortAccesses : Prop :=
  open Sys2Proof.Claims in
  (∀ (i : Instr) (s : State) (port : Port), portOf i = some port → ¬ portRuns s port → exec i s = .next s) ∧
  (∀ (s : State) (a : Agent) (n : Nat), n < 64 → (∀ p, a = .port p → portRuns s p) →
    let w := s.sem n
    let owned : W64 := (w &&& ~~~(0xFF : W64)) ||| ((1 : W64) <<< 63) ||| BitVec.ofNat 64 (agentCode a)
    let held := w.getLsbD 63
    (∃ t, exec (.semClaimRead a n) s = .next t ∧ t = { s with sems := t.sems, lastRead := t.lastRead } ∧
      tget .none t.lastRead (agentCode a) = .data (if held then w else owned) ∧
      ∀ k, t.sem k = if k = n ∧ ¬ held then owned &&& ~~~((1 : W64) <<< 62) else s.sem k) ∧
    ∀ v : W64, v.toNat / 2 ^ 40 % 2 ^ 22 = 0 →
      ∃ t, exec (.semReleaseWrite a n v) s = .next t ∧ t = { s with sems := t.sems } ∧
        ∀ k, t.sem k = if k = n ∧ held ∧ w.toNat % 256 = agentCode a then
            (if v.getLsbD 63 then (w &&& ~~~(0xFFFFFFFF00 : W64)) ||| (v &&& 0xFFFFFFFF00) else w &&& 0xFFFFFFFF00)
          else s.sem k) ∧
  (∀ (s : State) (port : Port), ∃ t, exec (.portLinkDown port) s = .next t ∧ t = { s with sems := t.sems } ∧
    ∀ k, t.sem k = if (s.sem k).getLsbD 63 ∧ (s.sem k).toNat % 256 = portCode port
      then (s.sem k &&& 0xFFFFFFFF00) ||| ((1 : W64) <<< 62) else s.sem k) ∧
  (∀ (port : Port) (pa off : Nat), hostPlace (HostAddr.phys pa) port = pa ∧
    (port = .pcie → off < 0x2000000 → let d := off / 0x400000
      hostPlace (HostAddr.bar0 off) port = 0x200000000000 + 0x800000 * d + off % 0x400000 ∧
      hostPlace (HostAddr.bar2 off) port = 0x200000000000 + 0x800000 * d + 0x400000 + off % 0x400000) ∧
    (port = .ucie ∨ 0x2000000 ≤ off → regionOf (hostPlace (HostAddr.bar0 off) port) = .absent ∧
      regionOf (hostPlace (HostAddr.bar2 off) port) = .absent)) ∧
  (∀ (s : State) (port : Port) (a : HostAddr) (d off : Nat) (w : W64), portRuns s port →
    (regionOf (hostPlace a port) = .mmio d true off → off % 8 = 0 →
      (∀ n, n < 64 → off = 8 * n → exec (.registerWrite port a w) s = exec (.semReleaseWrite (.port port) n w) s) ∧
      (∀ p : Port, off = portCode p * 0x1000 →
        (job s d p ≠ .idle ∨ (s.die d).state = .off → exec (.registerWrite port a w) s = .next s) ∧
        ((s.die d).state ≠ .off → job s d p = .idle →
          ∃ t, exec (.registerWrite port a w) s = .next t ∧ t = { s with dies := t.dies } ∧
            ((s.die d).state = .failed → mb1 t d p = if p = .pcie then 4 else mb1 s d p) ∧
            ((s.die d).state = .ready → s.inService = false → mb1 t d p = 4) ∧
            ((s.die d).state = .ready → s.inService = true →
              (w.toNat % 256 = 0 ∨ 8 < w.toNat % 256 → mb1 t d p = 3) ∧
              (0 < w.toNat % 256 → w.toNat % 256 ≤ 8 → job t d p = .asked (w.toNat % 256) ∧ mb1 t d p = 1)))) ∧
      (∀ p : Port, off = portCode p * 0x1000 + 8 →
        exec (.registerWrite port a w) s = .next s) ∧
      (∀ m i, 1 ≤ m → m ≤ 2 → 2 ≤ i → i < 512 → off = m * 0x1000 + 8 * i →
        ∃ t, exec (.registerWrite port a w) s = .next t ∧ t = { s with dies := t.dies } ∧
          ∀ k, tget 0 (t.die d).mailArgs k = if k = m * 512 + i then w else tget 0 (s.die d).mailArgs k) ∧
      (∀ k i, k < 1024 → i < 4 → off = 0x10000 + 32 * k + 8 * i → ∃ t, exec (.registerWrite port a w) s = .next t ∧
        t = { s with dies := t.dies } ∧ (tget {} (t.die d).mcLog k).word i = w) ∧
      (0x18000 ≤ off → exec (.registerWrite port a w) s = .next s)) ∧
    (regionOf (hostPlace a port) = .mmio d false off →
      (∀ q, q < 64 → d < 8 → off = 4096 * q → exec (.registerWrite port a w) s = exec (.qnotify d q w) s) ∧
      ((∀ q, q < 64 → off ≠ 4096 * q) → exec (.registerWrite port a w) s = .next s))) ∧
  (∀ (s : State) (port : Port) (addr : Nat) (bs : List Byte), portRuns s port → addr % 256 + bs.length ≤ 256 →
    (∀ d al, regionOf addr = .window d al →
      ∃ t, exec (.hostWindowWrite port addr bs) s = .next t ∧ writtenAt s.mem t.mem (canonPa addr) bs) ∧
    (regionOf addr = .hbm → ∃ t, exec (.hostWrite port addr bs) s = .next t ∧ writtenAt s.mem t.mem addr bs ∧
      (s.dirty.length + s.copies.length < 6144 → t.hbm = s.hbm))) ∧
  (∀ (s : State) (port : Port) (addr n g : Nat) (synd : W32), portRuns s port →
    s.upsets = [{ site := .hbm g, unc := true, synd := synd }] →
    regionOf addr = .hbm → addr < 64 * g + 64 → 64 * g < addr + n →
    ∃ t, exec (.hostRead port (.phys addr) n) s = .next t ∧ tget .none t.lastRead (portCode port) = .error ∧ t.mem = s.mem) ∧
  ∀ (s : State) (port : Port) (addr n : Nat) (a : HostAddr), portRuns s port → s.upsets = [] →
    let pa := hostPlace a port
    let answer := fun (t : State) (w : Nat) => tget .none t.lastRead (portCode port) = .data (BitVec.ofNat 64 w) ∧
      t.mem = s.mem ∧ t.lanes = s.lanes
    (∀ d, regionOf addr = .window d true → ∃ t, exec (.hostAliasRead port addr n) s = .next t ∧
      answer t (leNat (Memory.readBytes s.mem (addr - 0x80000) n)) ∧
      let pulled := s.acquireWord 0 .system (addr - 0x80000) n
      (t.hbm, t.dirty, t.generations) = (pulled.hbm, pulled.dirty, pulled.generations)) ∧
    (regionOf pa = .hbm → ∃ t, exec (.hostRead port a n) s = .next t ∧ answer t (leNat (Memory.readBytes s.hbm pa n))) ∧
    (∀ d, regionOf pa = .window d false → ∃ t, exec (.hostRead port a n) s = .next t ∧
      answer t (leNat (Memory.readBytes s.mem pa n))) ∧
    (regionOf pa = .absent → ∃ t, exec (.hostRead port a n) s = .next t ∧ answer t 0) ∧
    (∀ d q y, n = 8 → regionOf pa = .mmio d false (q * 4096 + 0x010) → q < 64 → s.queue d q = some y →
      ∃ t, exec (.hostRead port a n) s = .next t ∧ answer t y.qread.toNat) ∧
    (∀ d, n = 8 → regionOf pa = .mmio d false 0x40000 →
      ∃ t, exec (.hostRead port a n) s = .next t ∧ answer t (s.dieGt d)) ∧
    (∀ d k, n = 8 → k < 64 → regionOf pa = .mmio d true (8 * k) →
      exec (.hostRead port a n) s = exec (.semClaimRead (.port port) k) s) ∧
    (∀ d (p : Port), n = 8 → regionOf pa = .mmio d true (portCode p * 0x1000 + 8) →
      ∃ t, exec (.hostRead port a n) s = .next t ∧ answer t (mb1 s d p).toNat) ∧
    (∀ d, n = 8 → regionOf pa = .mmio d true 0x18000 →
      ∃ t, exec (.hostRead port a n) s = .next t ∧ answer t (s.die d).mcHead) ∧
    ∀ d b off, n ≠ 8 → regionOf pa = .mmio d b off → ∃ t, exec (.hostRead port a n) s = .next t ∧ answer t 0


/-! ## The step and the encoding (spec/04, spec/02, spec/01) -/

namespace Sys2Proof.Claims

/-- The first word of an instruction, 0 for an event. -/
def firstWord (i : Instr) : W64 := (encode i).headD 0

/-- The registers that the launch of the current group's core allocates. -/
def allocated (s : State) : Alloc := ((s.launchOf s.curCore).map Launch.alloc).getD Alloc.full

/-- Does a group stand at a slot that runs: on its path, not waiting, its launch running, its warps in no other group's
release? -/
def standsReady (s : State) (core part path : Nat) (g : Group) : Prop :=
  core < 1536 ∧ part < 4 ∧ path < 4 ∧ tfind s.groups (pathAt core part path) = some g ∧ g.wait = none ∧
  s.issues core = true ∧ State.stalledElsewhere { s with cur := some (pathAt core part path) } = false

/-- Must the first thread of a running launch lead its partition's next group now (spec/09 R165)? -/
def leadDue (s : State) (core part : Nat) : Prop :=
  ∃ p ∈ s.launches, p.2.state = .running ∧ ∃ l, s.firstThread p.2 = some l ∧ overdueIn s core part l

/-- Does a word need privilege: a SYS opcode, or MOVSR with one of the privileged registers 0x20 to 0x24 (spec/02 R31,
spec/04 R85)? -/
def privilegedBits (w : W64) : Prop :=
  let opc := w.toNat / 2 ^ 56
  (0xE0 ≤ opc ∧ opc ≤ 0xE3) ∨ opc = 0x3E ∧ 0x20 ≤ w.toNat % 256 ∧ w.toNat % 256 ≤ 0x24

/-- The trap of a word that is no instruction; `va` is its address (spec/02 R40, spec/04 R79, R85). -/
def wordTrap (e : EncFault) (w va : W64) : Trap :=
  match e with
  | .cls o => { code := 0x03, opnd := o, info := w.toNat / 2 ^ 56 }
  | .illegalOp => { code := 0x01, info := w.toNat / 2 ^ 56 }
  | .reservedField i => { code := 0x05, addr := va + BitVec.ofNat 64 (8 * i), info := i }
  | .illegalOperand i o => { code := 0x02, opnd := o, info := i }

end Sys2Proof.Claims

/-- spec/04 R69, R71, R73, R76, R83, R85: a step runs the decoded instruction. When a group's turn comes and the word
of its slot, with the slot after it, decodes to an instruction that awaits no value, the step is exec of that
instruction there: what exec leaves, then the errors of written registers cleared, the group at its next slot, and the
next turn at hand; a word that does not decode faults in every lane of the group, whatever its predicate: with PRIV
first where the word needs a privilege that the lane lacks, CLASS and ILLEGAL_OP before it. The group moves past the
words of the instruction, and behind the clause's last slot its lanes stand before the following clause. A clause is
its header and its NSLOT + 1 words, as memory holds them from the lane's pc upward. -/
def Sys2Proof.Claims.SlotsRun : Prop :=
  open Sys2Proof.Claims in
  (∀ (s : State) (core part path : Nat) (g : Group), s.turn = .slot core part path → standsReady s core part path g →
    let here : State := { s with cur := some (pathAt core part path) }
    let word := g.words.getD g.slot 0
    (∀ i, decode (allocated here) (g.header.toNat / 2 ^ 56 % 16) word g.words[g.slot + 1]? = .ok i →
      here.interlocked i = false → s.upsets = [] →
      step s = match exec i here with
        | .next u => .next ((here.clearWritten i u (pathAt core part path)).finishSlot (pathAt core part path)
            (encode i).length g.lanes).nextTurn
        | .fault f => .fault f
        | .refused r => .refused r) ∧
    ∀ e, decode (allocated here) (g.header.toNat / 2 ^ 56 % 16) word g.words[g.slot + 1]? = .error e →
      step s = .next ((here.badWord e).finishSlot (pathAt core part path) 1 g.lanes).nextTurn) ∧
  (∀ (s : State) (e : EncFault), let g := s.group
    let w := g.word
    let va := g.pc.setWidth 64 + BitVec.ofNat 64 (8 * (g.slot + 1))
    open Classical in
    let denied := fun l => decide (((∃ i, e = .reservedField i) ∨ ∃ i o, e = .illegalOperand i o) ∧ privilegedBits w ∧
      (s.lane l).priv.getLsbD 0 = false ∧ ¬ (w.toNat / 2 ^ 56 = 0xE0 ∧ (s.lane l).hmode = .user))
    s.badWord e = (s.trapAll (g.lanes.filter denied) { code := 0x40, info := w.toNat / 2 ^ 56 }).trapAll
      (g.lanes.filter fun l => !denied l) (wordTrap e w va)) ∧
  (∀ (s : State) (k width : Nat) (ls : List Nat) (g : Group), tfind s.groups k = some g → g.lanes ≠ [] → g.wait = none →
    (∀ l ∈ g.lanes, (s.lane l).status ≠ .retired) →
    (g.slot + width ≤ g.header.toNat / 2 ^ 52 % 16 →
      let next := { g with slot := g.slot + width, released := false, served := [] }
      s.finishSlot k width ls = ({ s with cur := none, groups := tset s.groups k next } : State).meet ls) ∧
    (g.header.toNat / 2 ^ 52 % 16 < g.slot + width →
      ∃ t : State, s.finishSlot k width ls = t.meet ls ∧
        t = { s with cur := none, groups := tdel s.groups k, lanes := t.lanes } ∧
        ∀ l, t.lane l = if l ∈ g.lanes
          then standsAt s (s.lane l) (g.pc + BitVec.ofNat 48 (8 * (g.header.toNat / 2 ^ 52 % 16 + 2))) else s.lane l)) ∧
  ∀ (s : State) (l : Nat) (pc : Addr48) (h : W64) (ws : List W64), s.fetchClause l pc = .inl (h, ws) →
    h.toNat / 2 ^ 60 = 10 ∧ h.toNat / 2 ^ 56 % 16 < 6 ∧ h.toNat % 2 ^ 40 = 0 ∧
    ws.length = h.toNat / 2 ^ 52 % 16 + 1 ∧
    (∃ pa, s.laneVa l .fetch 8 (pc.setWidth 64) = .inl pa ∧ h = s.dwordAt pa) ∧
    ∀ j, j < ws.length → ∃ pa, s.laneVa l .fetch 8 (pc.setWidth 64 + 8 + BitVec.ofNat 64 (8 * j)) = .inl pa ∧
      ws[j]? = some (s.dwordAt pa)

/-- spec/01 R13, R14, spec/09 R164, R165, spec/17 R306, spec/26 R370: a turn of another agent is exec of its event; a
tick advances GT, and the cycles of the core clock and the bins' timers with it, and no lane's registers, no memory; a
lane that is not Ready has waited since now; no die's GT falls. An error strikes its granule, of 64 bits in registers
and accumulators, where data is held: two in one make it uncorrectable, but in HBM, whose code may correct several (log
entry 66, the model's reading), and in the instruction cache, which fetches again. The next turn is that of a launch's
first thread once it is overdue, else any. The turn itself is the model's own field (log entry 8). -/
def Sys2Proof.Claims.TurnsOfOtherAgents : Prop :=
  open Sys2Proof.Claims in
  (∀ (s : State) (i : Instr), s.turn = .event i → encode i = [] → step s = match exec i s with
    | .next u => .next u.nextTurn
    | .fault f => .fault f
    | .refused r => .refused r) ∧
  (∀ (s : State) (n : Nat) (skew : List (Fin 3)), s.turn = .tick n skew → ∃ t : State, step s = .next t.nextTurn ∧
    let k := n * s.clock + s.cycleRem
    t = { s with gt := s.gt + n, skew := t.skew, cycles := s.cycles + k / 10, cycleRem := k % 10, cores := t.cores,
                 lanes := t.lanes } ∧
    (∀ l, t.lane l = if s.ready l = true ∨ (s.lane l).status = .retired then { s.lane l with readyAt := (t.lane l).readyAt }
      else { s.lane l with readyAt := t.cycles }) ∧
    (∀ l, s.ready l = true → t.lane l = s.lane l) ∧
    (∀ c, t.core c = { s.core c with bins := (s.core c).bins.map fun p =>
      (p.1, { p.2 with timer := p.2.timer.map (· - k / 10) }) }) ∧
    ∀ d, d < 8 → s.gt + (s.skew.getD d 0).val ≤ t.gt + (t.skew.getD d 0).val) ∧
  (∀ (s : State) (site : Site) (unc : Bool) (synd : W32), s.turn = .upset site unc synd →
    let g := granuleOf site
    let mine := s.upsets.filter fun u => u.site == g
    let struck := fun b : Bool => { s with
      upsets := (s.upsets.filter fun u : Upset => !(u.site == g)) ++ [({ site := g, unc := b, synd := synd } : Upset)] }
    (s.holdsData g = false → step s = .next s.nextTurn) ∧
    (s.holdsData g = true → ((∃ a b, g = .icache a b) → step s = .next (struck false).nextTurn) ∧
      ((∃ a, g = .hbm a) ∨ (∃ a, g = .dram a) → step s = .next (struck (unc || mine.any (·.unc))).nextTurn) ∧
      ((∀ a b, g ≠ .icache a b) → (∀ a, g ≠ .hbm a ∧ g ≠ .dram a) →
        step s = .next (struck (unc || !mine.isEmpty)).nextTurn))) ∧
  (∀ (s : State) (c d p st w : Nat) (f : Fifo) (l : Nat) (o : Operand),
    (s.holdsData (.icache c d) = true ↔ d / 32 ∈ (s.core c).icache) ∧
    (s.holdsData (.fifo p st f w) = true ↔ 16 * w < heldNibbles (tget [] (s.pair p).streams (st * 4 + f.code))) ∧
    s.holdsData (.link c d) = false ∧ s.holdsData (.loaded l o) = false ∧ s.holdsData (.lane l o) = true ∧
    s.holdsData (.mem d) = true ∧ s.holdsData (.hbm d) = true ∧ s.holdsData (.l1 c d) = true) ∧
  (∀ l m : Nat, (∀ i j, granuleOf (.lane l (.v i)) = granuleOf (.lane m (.v j)) ↔ l = m ∧ i.val / 2 = j.val / 2) ∧
    (∀ i j, granuleOf (.lane l (.s i)) = granuleOf (.lane m (.s j)) ↔ l / 32 = m / 32 ∧ i.val / 2 = j.val / 2) ∧
    (∀ i j, granuleOf (.lane l (.g i)) = granuleOf (.lane m (.g j)) ↔ l = m ∧ i = j) ∧
    ∀ p r, granuleOf (.acc p r l) = granuleOf (.acc p r m) ↔ l % 64 / 2 = m % 64 / 2) ∧
  ∀ t : State, t.nextTurn = { t with turn := t.nextTurn.turn, turns := t.turns + 1 } ∧
    ((∀ c p, ¬ leadDue t c p) → t.nextTurn.turn = Config.turn t.turns) ∧
    ((∃ c p, leadDue t c p) → ∃ c p, leadDue t c p ∧ t.nextTurn.turn = .event (.progressForcedLead c p))

/-- spec/04 R75 to R85, spec/06 R93 to R98: decode and encode agree. In a clause of its class, with its literal slot, the
first word of every well-formed instruction decodes to that instruction, with every operand and modifier at every value
its encoding admits. -/
def Obligations.DecodeOfEncode : Prop :=
  open Sys2Proof.Claims in
  ∀ (al : Alloc) (i : Instr) (g : Guard) (o : Ops), i.fields = some (g, o) → i.wfIn al = true →
    decode al i.cls (firstWord i) (litSlot o) = .ok i ∧ encode i = firstWord i :: (litSlot o).toList

/-- spec/04 R75 to R85, spec/06 R94: no bit of a word is ignored. A word that decodes, with the slot after it, decodes
to a well-formed instruction of the clause's class (NOP: of any), whose encoding is that word, and that slot when it
has one. -/
def Obligations.EncodeOfDecode : Prop :=
  open Sys2Proof.Claims in
  ∀ (al : Alloc) (cls : Nat) (w : W64) (lit : Option W64) (i : Instr), decode al cls w lit = .ok i →
    i.wfIn al = true ∧ (i.cls = cls ∨ ∃ g, i = .nop g) ∧ firstWord i = w ∧
    ((encode i).length = 1 ∨ ∃ l, lit = some l ∧ encode i = [w, l])

/-- spec/04 R85, spec/06 R93, R94, spec/02 R41: words that are no instruction. An opcode outside the clause's class
faults first, then a reserved opcode, whatever the other bits hold. -/
def Sys2Proof.Claims.RefusedWords : Prop :=
  ∀ (al : Alloc) (cls : Nat) (w : W64) (lit : Option W64),
    let opc := w.toNat / 2 ^ 56
    let own := if opc < 0x60 then 0 else if opc < 0x70 then 1 else if opc < 0xA0 then 2 else if opc < 0xC0 then 3
      else if opc < 0xE0 then 4 else 5
    (opc ≠ 0 → own ≠ cls → decode al cls w lit = .error (.cls 0x3FF)) ∧
    (own = cls → (0x49 ≤ opc ∧ opc < 0x60) ∨ opc = 0x6E ∨ opc = 0x6F ∨ (0x83 ≤ opc ∧ opc < 0xA0) ∨
      (0xB2 ≤ opc ∧ opc < 0xC0) ∨ (0xCD ≤ opc ∧ opc < 0xE0) ∨ 0xE4 ≤ opc → decode al cls w lit = .error .illegalOp)

/-- spec/04 R75 to R85, spec/06 R93 to R98: words written out bit by bit from the encoding tables decode to the
instructions they stand for, one of each family (a sanity statement). -/
def Sys2Proof.Claims.WordsDecoded : Prop :=
  let always : Guard := { neg := false, idx := 7 }
  let dec := fun cls w lit => decode Alloc.full cls w lit
  let o := fun d a b c => ({ d, a, b, c } : Ops)
  dec 4 0x00FFFFFFFFFF7000 none = .ok (.nop always) ∧
  dec 0 0x15005C263FFF7000 none = .ok (.xor always (o (.v 1) (.sp .homelane) (.k 15) .none)) ∧
  dec 0 0x0100BFEFFFFF7000 (some 0x0000002800000000) = .ok (.mov always (o (.v 2) (.lit 40) .none .none)) ∧
  dec 0 0x340180301005700F none = .ok (.hfma2 always (o (.v 6) (.v 3) (.v 4) (.v 5)) true .mode) ∧
  dec 0 0x3EFFC02FFFFF7100 none = .ok (.movsrWrite always (o .none (.v 2) .none .none) .mode) ∧
  dec 0 0x4201404643FF7003 none = .ok (.wshfl always (o (.v 5) (.v 4) (.k 16) .none) .xor) ∧
  dec 1 0x68A0BFF902417000 none = .ok (.gcmp always (o (.p 2) .none (.g 0) (.g 1))) ∧
  dec 2 0x7001C04FFC207000 none = .ok (.ld always (o (.v 7) (.v 4) .none .none) 32 none .b32) ∧
  dec 2 0x79B0E08028107100 none = .ok (.copy always (o (.t 3) (.s 8) (.v 10) (.v 16)) .block false false false) ∧
  dec 3 0xA6B140201BFF720F none =
    .ok (.mxdrain always (o (.t 5) (.v 2) (.v 6) .none) (some .block) false false .bf16 .mode) ∧
  dec 3 0xADB16C4FFFFF7037 none = .ok (.hfwd always (o (.t 5) (.t 4) .none .none) 5 .mode) ∧
  dec 4 0xC0FFFFFFFFFD0000 none = .ok (.bra ⟨false, 0⟩ 0x3FFFFFFD false) ∧
  dec 4 0xC9FFC10049B92111 none = .ok (.park ⟨false, 2⟩ (o .none (.v 16) (.v 18) (.k 57)) .block true .eq true) ∧
  dec 5 0xE1FFC04FFFFF7013 none = .ok (.srwr always (o .none (.v 4) .none .none) (.fault 0))

/-- spec/24 R366, spec/12 R203, R219 (the canonical form is the model's own, log entry 4): every step keeps every
picture of memory canonical: the home slices', HBM's, and each leased line's. -/
def Obligations.StepsKeepMemoryCanonical : Prop :=
  ∀ (s t : State), s.canonical = true → step s = .next t → t.canonical = true

/-- spec/02 R31 to R34, R36, R37, spec/26 R376, R378: what reset leaves: every lane's registers and records 0 and none a
thread, SR.MODE at its reset value, thresholds, window and counters 0, SR.PONDT and SR.LEASE 256, tiles, accumulators,
logs and semaphores empty, no launch and no queue, memory canonical. (Values for which the spec gives none are log
entries 1 to 8.) -/
def Obligations.Reset : Prop :=
  let s := State.reset
  s.canonical = true ∧
  (∀ l, s.lane l = { status := .retired } ∧ (s.lane l).p = 0 ∧ (s.lane l).gstat = 0 ∧ (s.lane l).f0 = 0 ∧ (s.lane l).f1 = 0 ∧
    (s.lane l).f2 = 0 ∧ (s.lane l).f3 = 0 ∧ (s.lane l).priv = 0 ∧ (s.lane l).stack = [] ∧ (s.lane l).depth = 0 ∧
    ∀ i, tget 0 (s.lane l).v i = 0) ∧
  (∀ w, (s.warp w).mode = 0x000A208208200000 ∧ (s.warp w).acwin = 0 ∧ (s.warp w).ldc = 0 ∧ (s.warp w).stc = 0 ∧
    (s.warp w).mxc = 0 ∧ (s.warp w).tlc = 0 ∧ (∀ i, tget 0 (s.warp w).s i = 0) ∧ ∀ i, tget 0 (s.warp w).th i = 0) ∧
  (∀ c, (s.core c).pondt = 256 ∧ (s.core c).lease = 256 ∧ (s.core c).ktrapv = 0 ∧ s.launchOf c = none ∧ s.issues c = false ∧
    s.blockOf c = none ∧ s.log c = {} ∧ (∀ q, s.poolMin c q = 0)) ∧
  (∀ p, s.pair p = { acc := [], queue := [], arrays := [], streams := [], drains := [] }) ∧
  (∀ n, s.sem n = 0) ∧ (∀ d q, s.queue d q = none) ∧ s.launches = [] ∧ s.groups = [] ∧ s.ops = [] ∧ s.feeds = [] ∧
  s.tiles = [] ∧ s.copies = [] ∧ s.dirty = [] ∧ s.tlb = [] ∧ s.seals = [] ∧ s.arrivals = [] ∧ s.images = [] ∧ s.upsets = [] ∧
  s.inService = false ∧ s.gt = 0

/-- spec/04 R69 to R76, spec/01 R13: a step runs the decoded instruction, and what a turn of another agent does. -/
def Obligations.StepRunsDecodedInstruction : Prop :=
  Claims.SlotsRun ∧ Claims.TurnsOfOtherAgents

/-- spec/04 R75 to R85, spec/06 R93 to R98: words that decode to their instructions, and words that are none. -/
def Obligations.DecodedWords : Prop :=
  Claims.WordsDecoded ∧ Claims.RefusedWords

end Statements
end

