-- ==== Sys2Proof/Laws/Tab.lean ====
section
/-! SUPPORT. Laws of sparse tables and of memory: reading after writing, canonical form, and what writing one key does
not change. -/

namespace Sys2Proof.Machine

section Tables
variable {α : Type}

/-! ## Looking up after a change -/

@[simp] theorem tfind_nil (k : Nat) : tfind ([] : Tab α) k = none := rfl

@[simp] theorem tfind_tset (t : Tab α) (k j : Nat) (v : α) :
    tfind (tset t k v) j = if j = k then some v else tfind t j := by
  induction t with
  | nil => simp only [tset, tfind]; split_ifs <;> first | rfl | omega
  | cons p t ih =>
    obtain ⟨i, x⟩ := p
    simp only [tset]
    split_ifs with h h <;> simp only [tfind, ih] <;> split_ifs <;> first | rfl | omega

@[simp] theorem tfind_tdel (t : Tab α) (k j : Nat) :
    tfind (tdel t k) j = if j = k then none else tfind t j := by
  induction t with
  | nil => simp [tdel]
  | cons p t ih =>
    obtain ⟨i, x⟩ := p
    simp only [tdel]
    split_ifs with h <;> simp only [tfind, ih] <;> split_ifs <;> first | rfl | omega

@[simp] theorem tfind_tmod (t : Tab α) (k j : Nat) (f : α → α) :
    tfind (tmod t k f) j = if j = k then (tfind t k).map f else tfind t j := by
  unfold tmod
  cases h : tfind t k with
  | none => by_cases e : j = k <;> simp [e, h]
  | some x => simp

theorem tget_eq (d : α) (t : Tab α) (k : Nat) : tget d t k = (tfind t k).getD d := rfl

/-- Reading after a write: the value at the key, and elsewhere what was there. -/
@[simp] theorem tget_tput [DecidableEq α] (d : α) (t : Tab α) (k j : Nat) (v : α) :
    tget d (tput d t k v) j = if j = k then v else tget d t j := by
  unfold tput tget
  split <;> simp <;> split <;> simp_all

@[simp] theorem tget_tset (d : α) (t : Tab α) (k j : Nat) (v : α) :
    tget d (tset t k v) j = if j = k then v else tget d t j := by
  unfold tget; simp; split <;> simp

/-! ## Writing the same entry again -/

theorem tset_tset_self (t : Tab α) (k : Nat) (v w : α) : tset (tset t k v) k w = tset t k w := by
  induction t with
  | nil => simp [tset]
  | cons p t ih =>
    obtain ⟨i, x⟩ := p
    simp only [tset]
    split
    · simp [tset]
    · split
      · simp [tset]
      · simp_all [tset]

theorem tdel_tdel_self (t : Tab α) (k : Nat) : tdel (tdel t k) k = tdel t k := by
  induction t with
  | nil => rfl
  | cons p t ih =>
    obtain ⟨i, x⟩ := p
    simp only [tdel]; split <;> simp_all [tdel]

/-! ## Order and canonical form -/

/-- Every key of the table lies above `k`. -/
def tabove (k : Nat) (t : Tab α) : Prop := ∀ p ∈ t, k < p.1

theorem tsorted_cons (i : Nat) (x : α) (t : Tab α) :
    tsorted ((i, x) :: t) = true ↔ tabove i t ∧ tsorted t = true := by
  induction t generalizing i x with
  | nil => simp [tsorted, tabove]
  | cons q t ih =>
    obtain ⟨j, y⟩ := q
    simp only [tsorted, Bool.and_eq_true, decide_eq_true_eq, tabove, List.mem_cons, forall_eq_or_imp]
    constructor
    · rintro ⟨hij, hs⟩
      refine ⟨⟨hij, fun p hp => ?_⟩, hs⟩
      exact Nat.lt_trans hij (((ih j y).1 hs).1 p hp)
    · rintro ⟨⟨hij, _⟩, hs⟩
      exact ⟨hij, hs⟩

theorem tabove_cons {i j : Nat} {y : α} {t : Tab α} : tabove i ((j, y) :: t) ↔ i < j ∧ tabove i t := by
  simp only [tabove, List.mem_cons, forall_eq_or_imp]

theorem tabove_tset {k i : Nat} {t : Tab α} {v : α} (h : tabove i t) (hk : i < k) : tabove i (tset t k v) := by
  induction t with
  | nil => simpa [tset, tabove] using hk
  | cons p t ih =>
    obtain ⟨j, y⟩ := p
    have h' := tabove_cons.1 h
    simp only [tset]
    split_ifs
    · exact tabove_cons.2 ⟨hk, h⟩
    · exact tabove_cons.2 ⟨hk, h'.2⟩
    · exact tabove_cons.2 ⟨h'.1, ih h'.2⟩

theorem tsorted_tset {t : Tab α} (k : Nat) (v : α) (h : tsorted t = true) : tsorted (tset t k v) = true := by
  induction t with
  | nil => rfl
  | cons p t ih =>
    obtain ⟨i, x⟩ := p
    have hs := (tsorted_cons i x t).1 h
    simp only [tset]
    split
    · rename_i hk
      rw [tsorted_cons]
      refine ⟨?_, h⟩
      simp only [tabove, List.mem_cons, forall_eq_or_imp]
      exact ⟨hk, fun p hp => Nat.lt_trans hk (hs.1 p hp)⟩
    · split
      · rename_i _ e
        subst e
        rw [tsorted_cons]; exact hs
      · rename_i h1 h2
        rw [tsorted_cons]
        exact ⟨tabove_tset hs.1 (by omega), ih hs.2⟩

theorem mem_tdel {t : Tab α} {k : Nat} {p : Nat × α} (h : p ∈ tdel t k) : p ∈ t := by
  induction t with
  | nil => simp [tdel] at h
  | cons q t ih =>
    obtain ⟨i, x⟩ := q
    simp only [tdel] at h
    split at h
    · exact List.mem_cons_of_mem _ (ih h)
    · simp only [List.mem_cons] at h ⊢
      exact h.imp id ih

theorem tsorted_tdel {t : Tab α} (k : Nat) (h : tsorted t = true) : tsorted (tdel t k) = true := by
  induction t with
  | nil => rfl
  | cons p t ih =>
    obtain ⟨i, x⟩ := p
    have hs := (tsorted_cons i x t).1 h
    simp only [tdel]
    split
    · exact ih hs.2
    · rw [tsorted_cons]
      exact ⟨fun p hp => hs.1 p (mem_tdel hp), ih hs.2⟩

theorem mem_tset {t : Tab α} {k : Nat} {v : α} {p : Nat × α} (h : p ∈ tset t k v) : p = (k, v) ∨ p ∈ t := by
  induction t with
  | nil => simpa [tset] using h
  | cons q t ih =>
    obtain ⟨i, x⟩ := q
    simp only [tset] at h
    split at h
    · simpa using h
    · split at h
      · simp only [List.mem_cons] at h ⊢
        exact h.imp id Or.inr
      · simp only [List.mem_cons] at h ⊢
        rcases h with h | h
        · exact Or.inr (Or.inl h)
        · exact (ih h).imp id Or.inr

theorem tsorted_filter {t : Tab α} (p : Nat × α → Bool) (h : tsorted t = true) : tsorted (t.filter p) = true := by
  induction t with
  | nil => rfl
  | cons q t ih =>
    obtain ⟨i, x⟩ := q
    have hs := (tsorted_cons i x t).1 h
    simp only [List.filter_cons]
    split
    · rw [tsorted_cons]
      exact ⟨fun r hr => hs.1 r (List.mem_of_mem_filter hr), ih hs.2⟩
    · exact ih hs.2

variable [DecidableEq α]

theorem tcanon_iff (d : α) (t : Tab α) : tcanon d t = true ↔ tsorted t = true ∧ ∀ p ∈ t, p.2 ≠ d := by
  simp [tcanon]

/-- Writing keeps the canonical form. -/
theorem tcanon_tput {d : α} {t : Tab α} (k : Nat) (v : α) (h : tcanon d t = true) :
    tcanon d (tput d t k v) = true := by
  rw [tcanon_iff] at h ⊢
  unfold tput
  split
  · exact ⟨tsorted_tdel k h.1, fun p hp => h.2 p (mem_tdel hp)⟩
  · rename_i hv
    refine ⟨tsorted_tset k v h.1, fun p hp => ?_⟩
    rcases mem_tset hp with rfl | hp
    · exact hv
    · exact h.2 p hp

/-- Dropping entries keeps the canonical form. -/
theorem tcanon_filter {d : α} {t : Tab α} (p : Nat × α → Bool) (h : tcanon d t = true) :
    tcanon d (t.filter p) = true := by
  rw [tcanon_iff] at h ⊢
  exact ⟨tsorted_filter p h.1, fun q hq => h.2 q (List.mem_of_mem_filter hq)⟩

end Tables

/-! ## Memory -/

/-- Reading a byte after a write of one byte. -/
@[simp] theorem Memory.read_write (m : List Host.Cell) (a j : Nat) (b : Byte) :
    Memory.read (Memory.write m a b) j = if j = a then b else Memory.read m j := by
  unfold Memory.read Memory.write; simp

/-- A write keeps memory in canonical form. -/
theorem Memory.wf_write {m : List Host.Cell} (a : Nat) (b : Byte) (h : Memory.wf m = true) :
    Memory.wf (Memory.write m a b) = true := tcanon_tput a b h

/-- Writing bytes keeps memory in canonical form. -/
theorem Memory.wf_writeBytes {m : List Host.Cell} (a : Nat) (bs : List Byte) (h : Memory.wf m = true) :
    Memory.wf (Memory.writeBytes m a bs) = true := by
  induction bs generalizing m a with
  | nil => exact h
  | cons b bs ih => exact ih _ (Memory.wf_write a b h)

/-- The bytes of a range alone are in canonical form. -/
theorem Memory.wf_trange {m : List Host.Cell} (lo n : Nat) (h : Memory.wf m = true) :
    Memory.wf (trange m lo n) = true := tcanon_filter _ h

/-- Memory without the bytes of a range is in canonical form. -/
theorem Memory.wf_tclear {m : List Host.Cell} (lo n : Nat) (h : Memory.wf m = true) :
    Memory.wf (tclear m lo n) = true := tcanon_filter _ h

/-- Reading a byte after bytes were written from an address upward. -/
theorem Memory.read_writeBytes (m : List Host.Cell) (a j : Nat) (bs : List Byte) :
    Memory.read (Memory.writeBytes m a bs) j =
      if a ≤ j ∧ j < a + bs.length then bs.getD (j - a) 0 else Memory.read m j := by
  induction bs generalizing m a with
  | nil => simp only [Memory.writeBytes, List.length_nil]; split <;> [omega; rfl]
  | cons b bs ih =>
    simp only [Memory.writeBytes, ih, Memory.read_write, List.length_cons]
    by_cases e : j = a
    · subst e; simp
    · by_cases h : a + 1 ≤ j ∧ j < a + 1 + bs.length
      · have hj : j - a = (j - (a + 1)) + 1 := by omega
        rw [if_pos h, if_pos (by omega), hj]; simp
      · rw [if_neg h, if_neg e, if_neg (by omega)]

/-- The bytes of a number, counted. -/
@[simp] theorem length_toLe (x n : Nat) : (toLe x n).length = n := by
  induction n generalizing x with
  | zero => rfl
  | succ n ih => simp [toLe, ih]

/-- Bytes read are those at each address. -/
theorem Memory.readBytes_eq_map (m : List Host.Cell) (a n : Nat) :
    Memory.readBytes m a n = (List.range n).map fun k => Memory.read m (a + k) := by
  induction n generalizing a with
  | zero => rfl
  | succ n ih =>
    rw [Memory.readBytes, ih, List.range_succ_eq_map, List.map_cons, List.map_map]
    simp only [Function.comp_def, Nat.succ_eq_add_one, Nat.add_zero, List.cons.injEq, true_and]
    exact List.map_congr_left fun k _ => by rw [Nat.add_right_comm, Nat.add_assoc]

/-- Bytes written read back. -/
theorem Memory.readBytes_writeBytes (m : List Host.Cell) (a : Nat) (bs : List Byte) :
    Memory.readBytes (Memory.writeBytes m a bs) a bs.length = bs := by
  rw [Memory.readBytes_eq_map]
  apply List.ext_getElem (by simp)
  intro k h1 h2
  simp [Memory.read_writeBytes, h2]

end Sys2Proof.Machine
end

