-- ==== Sys2Proof/Laws/Context.lean ====
section
/-! SUPPORT. Laws of context images: what the digest of an image covers (spec/24 R356, R360). -/

namespace Sys2Proof.Machine

/-- The digest does not cover its own bytes. -/
theorem imageDigest_writeBytes (m : List Host.Cell) (addr n : Nat) (bs : List Byte) (h : bs.length = 64) :
    imageDigest (Memory.writeBytes m (addr + digestAt) bs) addr n = imageDigest m addr n := by
  unfold imageDigest
  congr 1
  refine List.map_congr_left fun k hk => ?_
  have hk : k < digestAt ∨ digestAt + 64 ≤ k := by simpa using (List.mem_filter.1 hk).2
  exact (Memory.read_writeBytes ..).trans (if_neg (by omega))

/-- An image whose digest stands in its place is whole. -/
theorem State.digestHolds_written (s : State) (im : Image) :
    ({ s with mem := Memory.writeBytes s.mem (im.addr + digestAt) (toLe (imageDigest s.mem im.addr im.bytes).toNat 64) } :
      State).digestHolds im = true := by
  unfold State.digestHolds
  rw [imageDigest_writeBytes _ _ _ _ (length_toLe _ _), beq_iff_eq]
  simpa using Memory.readBytes_writeBytes s.mem (im.addr + digestAt) (toLe (imageDigest s.mem im.addr im.bytes).toNat 64)

end Sys2Proof.Machine
end

