-- ==== Sys2Proof/Laws/State.lean ====
section
/-! SUPPORT. Laws of the state's updates: for each update, every field it leaves alone, and what the unit it changes
reads as. -/

namespace Sys2Proof.Machine

/-! ## setLane -/

@[simp] theorem State.setLane_warps (s : State) (l : Nat) (x : Lane) : (s.setLane l x).warps = s.warps := rfl
@[simp] theorem State.setLane_cores (s : State) (l : Nat) (x : Lane) : (s.setLane l x).cores = s.cores := rfl
@[simp] theorem State.setLane_blocks (s : State) (l : Nat) (x : Lane) : (s.setLane l x).blocks = s.blocks := rfl
@[simp] theorem State.setLane_pairs (s : State) (l : Nat) (x : Lane) : (s.setLane l x).pairs = s.pairs := rfl
@[simp] theorem State.setLane_tiles (s : State) (l : Nat) (x : Lane) : (s.setLane l x).tiles = s.tiles := rfl
@[simp] theorem State.setLane_groups (s : State) (l : Nat) (x : Lane) : (s.setLane l x).groups = s.groups := rfl
@[simp] theorem State.setLane_launches (s : State) (l : Nat) (x : Lane) : (s.setLane l x).launches = s.launches := rfl
@[simp] theorem State.setLane_dies (s : State) (l : Nat) (x : Lane) : (s.setLane l x).dies = s.dies := rfl
@[simp] theorem State.setLane_feeds (s : State) (l : Nat) (x : Lane) : (s.setLane l x).feeds = s.feeds := rfl
@[simp] theorem State.setLane_cur (s : State) (l : Nat) (x : Lane) : (s.setLane l x).cur = s.cur := rfl
@[simp] theorem State.setLane_mem (s : State) (l : Nat) (x : Lane) : (s.setLane l x).mem = s.mem := rfl
@[simp] theorem State.setLane_hbm (s : State) (l : Nat) (x : Lane) : (s.setLane l x).hbm = s.hbm := rfl
@[simp] theorem State.setLane_writes (s : State) (l : Nat) (x : Lane) : (s.setLane l x).writes = s.writes := rfl
@[simp] theorem State.setLane_dirty (s : State) (l : Nat) (x : Lane) : (s.setLane l x).dirty = s.dirty := rfl
@[simp] theorem State.setLane_generations (s : State) (l : Nat) (x : Lane) : (s.setLane l x).generations = s.generations := rfl
@[simp] theorem State.setLane_copies (s : State) (l : Nat) (x : Lane) : (s.setLane l x).copies = s.copies := rfl
@[simp] theorem State.setLane_granted (s : State) (l : Nat) (x : Lane) : (s.setLane l x).granted = s.granted := rfl
@[simp] theorem State.setLane_ops (s : State) (l : Nat) (x : Lane) : (s.setLane l x).ops = s.ops := rfl
@[simp] theorem State.setLane_tlb (s : State) (l : Nat) (x : Lane) : (s.setLane l x).tlb = s.tlb := rfl
@[simp] theorem State.setLane_seals (s : State) (l : Nat) (x : Lane) : (s.setLane l x).seals = s.seals := rfl
@[simp] theorem State.setLane_arrivals (s : State) (l : Nat) (x : Lane) : (s.setLane l x).arrivals = s.arrivals := rfl
@[simp] theorem State.setLane_roots (s : State) (l : Nat) (x : Lane) : (s.setLane l x).roots = s.roots := rfl
@[simp] theorem State.setLane_images (s : State) (l : Nat) (x : Lane) : (s.setLane l x).images = s.images := rfl
@[simp] theorem State.setLane_sems (s : State) (l : Nat) (x : Lane) : (s.setLane l x).sems = s.sems := rfl
@[simp] theorem State.setLane_upsets (s : State) (l : Nat) (x : Lane) : (s.setLane l x).upsets = s.upsets := rfl
@[simp] theorem State.setLane_errors (s : State) (l : Nat) (x : Lane) : (s.setLane l x).errors = s.errors := rfl
@[simp] theorem State.setLane_rowTimes (s : State) (l : Nat) (x : Lane) : (s.setLane l x).rowTimes = s.rowTimes := rfl
@[simp] theorem State.setLane_repairRows (s : State) (l : Nat) (x : Lane) : (s.setLane l x).repairRows = s.repairRows := rfl
@[simp] theorem State.setLane_sparesUsed (s : State) (l : Nat) (x : Lane) : (s.setLane l x).sparesUsed = s.sparesUsed := rfl
@[simp] theorem State.setLane_links (s : State) (l : Nat) (x : Lane) : (s.setLane l x).links = s.links := rfl
@[simp] theorem State.setLane_minVersion (s : State) (l : Nat) (x : Lane) : (s.setLane l x).minVersion = s.minVersion := rfl
@[simp] theorem State.setLane_firmware (s : State) (l : Nat) (x : Lane) : (s.setLane l x).firmware = s.firmware := rfl
@[simp] theorem State.setLane_hostUp (s : State) (l : Nat) (x : Lane) : (s.setLane l x).hostUp = s.hostUp := rfl
@[simp] theorem State.setLane_inService (s : State) (l : Nat) (x : Lane) : (s.setLane l x).inService = s.inService := rfl
@[simp] theorem State.setLane_boots (s : State) (l : Nat) (x : Lane) : (s.setLane l x).boots = s.boots := rfl
@[simp] theorem State.setLane_gt (s : State) (l : Nat) (x : Lane) : (s.setLane l x).gt = s.gt := rfl
@[simp] theorem State.setLane_skew (s : State) (l : Nat) (x : Lane) : (s.setLane l x).skew = s.skew := rfl
@[simp] theorem State.setLane_cycles (s : State) (l : Nat) (x : Lane) : (s.setLane l x).cycles = s.cycles := rfl
@[simp] theorem State.setLane_cycleRem (s : State) (l : Nat) (x : Lane) : (s.setLane l x).cycleRem = s.cycleRem := rfl
@[simp] theorem State.setLane_clock (s : State) (l : Nat) (x : Lane) : (s.setLane l x).clock = s.clock := rfl
@[simp] theorem State.setLane_hot (s : State) (l : Nat) (x : Lane) : (s.setLane l x).hot = s.hot := rfl
@[simp] theorem State.setLane_nextId (s : State) (l : Nat) (x : Lane) : (s.setLane l x).nextId = s.nextId := rfl
@[simp] theorem State.setLane_freeCtr (s : State) (l : Nat) (x : Lane) : (s.setLane l x).freeCtr = s.freeCtr := rfl
@[simp] theorem State.setLane_lastRead (s : State) (l : Nat) (x : Lane) : (s.setLane l x).lastRead = s.lastRead := rfl
@[simp] theorem State.setLane_turn (s : State) (l : Nat) (x : Lane) : (s.setLane l x).turn = s.turn := rfl
@[simp] theorem State.setLane_turns (s : State) (l : Nat) (x : Lane) : (s.setLane l x).turns = s.turns := rfl

/-! ## modLane -/

@[simp] theorem State.modLane_warps (s : State) (l : Nat) (f : Lane → Lane) : (s.modLane l f).warps = s.warps := rfl
@[simp] theorem State.modLane_cores (s : State) (l : Nat) (f : Lane → Lane) : (s.modLane l f).cores = s.cores := rfl
@[simp] theorem State.modLane_blocks (s : State) (l : Nat) (f : Lane → Lane) : (s.modLane l f).blocks = s.blocks := rfl
@[simp] theorem State.modLane_pairs (s : State) (l : Nat) (f : Lane → Lane) : (s.modLane l f).pairs = s.pairs := rfl
@[simp] theorem State.modLane_tiles (s : State) (l : Nat) (f : Lane → Lane) : (s.modLane l f).tiles = s.tiles := rfl
@[simp] theorem State.modLane_groups (s : State) (l : Nat) (f : Lane → Lane) : (s.modLane l f).groups = s.groups := rfl
@[simp] theorem State.modLane_launches (s : State) (l : Nat) (f : Lane → Lane) : (s.modLane l f).launches = s.launches := rfl
@[simp] theorem State.modLane_dies (s : State) (l : Nat) (f : Lane → Lane) : (s.modLane l f).dies = s.dies := rfl
@[simp] theorem State.modLane_feeds (s : State) (l : Nat) (f : Lane → Lane) : (s.modLane l f).feeds = s.feeds := rfl
@[simp] theorem State.modLane_cur (s : State) (l : Nat) (f : Lane → Lane) : (s.modLane l f).cur = s.cur := rfl
@[simp] theorem State.modLane_mem (s : State) (l : Nat) (f : Lane → Lane) : (s.modLane l f).mem = s.mem := rfl
@[simp] theorem State.modLane_hbm (s : State) (l : Nat) (f : Lane → Lane) : (s.modLane l f).hbm = s.hbm := rfl
@[simp] theorem State.modLane_writes (s : State) (l : Nat) (f : Lane → Lane) : (s.modLane l f).writes = s.writes := rfl
@[simp] theorem State.modLane_dirty (s : State) (l : Nat) (f : Lane → Lane) : (s.modLane l f).dirty = s.dirty := rfl
@[simp] theorem State.modLane_generations (s : State) (l : Nat) (f : Lane → Lane) : (s.modLane l f).generations = s.generations := rfl
@[simp] theorem State.modLane_copies (s : State) (l : Nat) (f : Lane → Lane) : (s.modLane l f).copies = s.copies := rfl
@[simp] theorem State.modLane_granted (s : State) (l : Nat) (f : Lane → Lane) : (s.modLane l f).granted = s.granted := rfl
@[simp] theorem State.modLane_ops (s : State) (l : Nat) (f : Lane → Lane) : (s.modLane l f).ops = s.ops := rfl
@[simp] theorem State.modLane_tlb (s : State) (l : Nat) (f : Lane → Lane) : (s.modLane l f).tlb = s.tlb := rfl
@[simp] theorem State.modLane_seals (s : State) (l : Nat) (f : Lane → Lane) : (s.modLane l f).seals = s.seals := rfl
@[simp] theorem State.modLane_arrivals (s : State) (l : Nat) (f : Lane → Lane) : (s.modLane l f).arrivals = s.arrivals := rfl
@[simp] theorem State.modLane_roots (s : State) (l : Nat) (f : Lane → Lane) : (s.modLane l f).roots = s.roots := rfl
@[simp] theorem State.modLane_images (s : State) (l : Nat) (f : Lane → Lane) : (s.modLane l f).images = s.images := rfl
@[simp] theorem State.modLane_sems (s : State) (l : Nat) (f : Lane → Lane) : (s.modLane l f).sems = s.sems := rfl
@[simp] theorem State.modLane_upsets (s : State) (l : Nat) (f : Lane → Lane) : (s.modLane l f).upsets = s.upsets := rfl
@[simp] theorem State.modLane_errors (s : State) (l : Nat) (f : Lane → Lane) : (s.modLane l f).errors = s.errors := rfl
@[simp] theorem State.modLane_rowTimes (s : State) (l : Nat) (f : Lane → Lane) : (s.modLane l f).rowTimes = s.rowTimes := rfl
@[simp] theorem State.modLane_repairRows (s : State) (l : Nat) (f : Lane → Lane) : (s.modLane l f).repairRows = s.repairRows := rfl
@[simp] theorem State.modLane_sparesUsed (s : State) (l : Nat) (f : Lane → Lane) : (s.modLane l f).sparesUsed = s.sparesUsed := rfl
@[simp] theorem State.modLane_links (s : State) (l : Nat) (f : Lane → Lane) : (s.modLane l f).links = s.links := rfl
@[simp] theorem State.modLane_minVersion (s : State) (l : Nat) (f : Lane → Lane) : (s.modLane l f).minVersion = s.minVersion := rfl
@[simp] theorem State.modLane_firmware (s : State) (l : Nat) (f : Lane → Lane) : (s.modLane l f).firmware = s.firmware := rfl
@[simp] theorem State.modLane_hostUp (s : State) (l : Nat) (f : Lane → Lane) : (s.modLane l f).hostUp = s.hostUp := rfl
@[simp] theorem State.modLane_inService (s : State) (l : Nat) (f : Lane → Lane) : (s.modLane l f).inService = s.inService := rfl
@[simp] theorem State.modLane_boots (s : State) (l : Nat) (f : Lane → Lane) : (s.modLane l f).boots = s.boots := rfl
@[simp] theorem State.modLane_gt (s : State) (l : Nat) (f : Lane → Lane) : (s.modLane l f).gt = s.gt := rfl
@[simp] theorem State.modLane_skew (s : State) (l : Nat) (f : Lane → Lane) : (s.modLane l f).skew = s.skew := rfl
@[simp] theorem State.modLane_cycles (s : State) (l : Nat) (f : Lane → Lane) : (s.modLane l f).cycles = s.cycles := rfl
@[simp] theorem State.modLane_cycleRem (s : State) (l : Nat) (f : Lane → Lane) : (s.modLane l f).cycleRem = s.cycleRem := rfl
@[simp] theorem State.modLane_clock (s : State) (l : Nat) (f : Lane → Lane) : (s.modLane l f).clock = s.clock := rfl
@[simp] theorem State.modLane_hot (s : State) (l : Nat) (f : Lane → Lane) : (s.modLane l f).hot = s.hot := rfl
@[simp] theorem State.modLane_nextId (s : State) (l : Nat) (f : Lane → Lane) : (s.modLane l f).nextId = s.nextId := rfl
@[simp] theorem State.modLane_freeCtr (s : State) (l : Nat) (f : Lane → Lane) : (s.modLane l f).freeCtr = s.freeCtr := rfl
@[simp] theorem State.modLane_lastRead (s : State) (l : Nat) (f : Lane → Lane) : (s.modLane l f).lastRead = s.lastRead := rfl
@[simp] theorem State.modLane_turn (s : State) (l : Nat) (f : Lane → Lane) : (s.modLane l f).turn = s.turn := rfl
@[simp] theorem State.modLane_turns (s : State) (l : Nat) (f : Lane → Lane) : (s.modLane l f).turns = s.turns := rfl

/-! ## setWarp -/

@[simp] theorem State.setWarp_lanes (s : State) (w : Nat) (x : Warp) : (s.setWarp w x).lanes = s.lanes := rfl
@[simp] theorem State.setWarp_cores (s : State) (w : Nat) (x : Warp) : (s.setWarp w x).cores = s.cores := rfl
@[simp] theorem State.setWarp_blocks (s : State) (w : Nat) (x : Warp) : (s.setWarp w x).blocks = s.blocks := rfl
@[simp] theorem State.setWarp_pairs (s : State) (w : Nat) (x : Warp) : (s.setWarp w x).pairs = s.pairs := rfl
@[simp] theorem State.setWarp_tiles (s : State) (w : Nat) (x : Warp) : (s.setWarp w x).tiles = s.tiles := rfl
@[simp] theorem State.setWarp_groups (s : State) (w : Nat) (x : Warp) : (s.setWarp w x).groups = s.groups := rfl
@[simp] theorem State.setWarp_launches (s : State) (w : Nat) (x : Warp) : (s.setWarp w x).launches = s.launches := rfl
@[simp] theorem State.setWarp_dies (s : State) (w : Nat) (x : Warp) : (s.setWarp w x).dies = s.dies := rfl
@[simp] theorem State.setWarp_feeds (s : State) (w : Nat) (x : Warp) : (s.setWarp w x).feeds = s.feeds := rfl
@[simp] theorem State.setWarp_cur (s : State) (w : Nat) (x : Warp) : (s.setWarp w x).cur = s.cur := rfl
@[simp] theorem State.setWarp_mem (s : State) (w : Nat) (x : Warp) : (s.setWarp w x).mem = s.mem := rfl
@[simp] theorem State.setWarp_hbm (s : State) (w : Nat) (x : Warp) : (s.setWarp w x).hbm = s.hbm := rfl
@[simp] theorem State.setWarp_writes (s : State) (w : Nat) (x : Warp) : (s.setWarp w x).writes = s.writes := rfl
@[simp] theorem State.setWarp_dirty (s : State) (w : Nat) (x : Warp) : (s.setWarp w x).dirty = s.dirty := rfl
@[simp] theorem State.setWarp_generations (s : State) (w : Nat) (x : Warp) : (s.setWarp w x).generations = s.generations := rfl
@[simp] theorem State.setWarp_copies (s : State) (w : Nat) (x : Warp) : (s.setWarp w x).copies = s.copies := rfl
@[simp] theorem State.setWarp_granted (s : State) (w : Nat) (x : Warp) : (s.setWarp w x).granted = s.granted := rfl
@[simp] theorem State.setWarp_ops (s : State) (w : Nat) (x : Warp) : (s.setWarp w x).ops = s.ops := rfl
@[simp] theorem State.setWarp_tlb (s : State) (w : Nat) (x : Warp) : (s.setWarp w x).tlb = s.tlb := rfl
@[simp] theorem State.setWarp_seals (s : State) (w : Nat) (x : Warp) : (s.setWarp w x).seals = s.seals := rfl
@[simp] theorem State.setWarp_arrivals (s : State) (w : Nat) (x : Warp) : (s.setWarp w x).arrivals = s.arrivals := rfl
@[simp] theorem State.setWarp_roots (s : State) (w : Nat) (x : Warp) : (s.setWarp w x).roots = s.roots := rfl
@[simp] theorem State.setWarp_images (s : State) (w : Nat) (x : Warp) : (s.setWarp w x).images = s.images := rfl
@[simp] theorem State.setWarp_sems (s : State) (w : Nat) (x : Warp) : (s.setWarp w x).sems = s.sems := rfl
@[simp] theorem State.setWarp_upsets (s : State) (w : Nat) (x : Warp) : (s.setWarp w x).upsets = s.upsets := rfl
@[simp] theorem State.setWarp_errors (s : State) (w : Nat) (x : Warp) : (s.setWarp w x).errors = s.errors := rfl
@[simp] theorem State.setWarp_rowTimes (s : State) (w : Nat) (x : Warp) : (s.setWarp w x).rowTimes = s.rowTimes := rfl
@[simp] theorem State.setWarp_repairRows (s : State) (w : Nat) (x : Warp) : (s.setWarp w x).repairRows = s.repairRows := rfl
@[simp] theorem State.setWarp_sparesUsed (s : State) (w : Nat) (x : Warp) : (s.setWarp w x).sparesUsed = s.sparesUsed := rfl
@[simp] theorem State.setWarp_links (s : State) (w : Nat) (x : Warp) : (s.setWarp w x).links = s.links := rfl
@[simp] theorem State.setWarp_minVersion (s : State) (w : Nat) (x : Warp) : (s.setWarp w x).minVersion = s.minVersion := rfl
@[simp] theorem State.setWarp_firmware (s : State) (w : Nat) (x : Warp) : (s.setWarp w x).firmware = s.firmware := rfl
@[simp] theorem State.setWarp_hostUp (s : State) (w : Nat) (x : Warp) : (s.setWarp w x).hostUp = s.hostUp := rfl
@[simp] theorem State.setWarp_inService (s : State) (w : Nat) (x : Warp) : (s.setWarp w x).inService = s.inService := rfl
@[simp] theorem State.setWarp_boots (s : State) (w : Nat) (x : Warp) : (s.setWarp w x).boots = s.boots := rfl
@[simp] theorem State.setWarp_gt (s : State) (w : Nat) (x : Warp) : (s.setWarp w x).gt = s.gt := rfl
@[simp] theorem State.setWarp_skew (s : State) (w : Nat) (x : Warp) : (s.setWarp w x).skew = s.skew := rfl
@[simp] theorem State.setWarp_cycles (s : State) (w : Nat) (x : Warp) : (s.setWarp w x).cycles = s.cycles := rfl
@[simp] theorem State.setWarp_cycleRem (s : State) (w : Nat) (x : Warp) : (s.setWarp w x).cycleRem = s.cycleRem := rfl
@[simp] theorem State.setWarp_clock (s : State) (w : Nat) (x : Warp) : (s.setWarp w x).clock = s.clock := rfl
@[simp] theorem State.setWarp_hot (s : State) (w : Nat) (x : Warp) : (s.setWarp w x).hot = s.hot := rfl
@[simp] theorem State.setWarp_nextId (s : State) (w : Nat) (x : Warp) : (s.setWarp w x).nextId = s.nextId := rfl
@[simp] theorem State.setWarp_freeCtr (s : State) (w : Nat) (x : Warp) : (s.setWarp w x).freeCtr = s.freeCtr := rfl
@[simp] theorem State.setWarp_lastRead (s : State) (w : Nat) (x : Warp) : (s.setWarp w x).lastRead = s.lastRead := rfl
@[simp] theorem State.setWarp_turn (s : State) (w : Nat) (x : Warp) : (s.setWarp w x).turn = s.turn := rfl
@[simp] theorem State.setWarp_turns (s : State) (w : Nat) (x : Warp) : (s.setWarp w x).turns = s.turns := rfl

/-! ## modWarp -/

@[simp] theorem State.modWarp_lanes (s : State) (w : Nat) (f : Warp → Warp) : (s.modWarp w f).lanes = s.lanes := rfl
@[simp] theorem State.modWarp_cores (s : State) (w : Nat) (f : Warp → Warp) : (s.modWarp w f).cores = s.cores := rfl
@[simp] theorem State.modWarp_blocks (s : State) (w : Nat) (f : Warp → Warp) : (s.modWarp w f).blocks = s.blocks := rfl
@[simp] theorem State.modWarp_pairs (s : State) (w : Nat) (f : Warp → Warp) : (s.modWarp w f).pairs = s.pairs := rfl
@[simp] theorem State.modWarp_tiles (s : State) (w : Nat) (f : Warp → Warp) : (s.modWarp w f).tiles = s.tiles := rfl
@[simp] theorem State.modWarp_groups (s : State) (w : Nat) (f : Warp → Warp) : (s.modWarp w f).groups = s.groups := rfl
@[simp] theorem State.modWarp_launches (s : State) (w : Nat) (f : Warp → Warp) : (s.modWarp w f).launches = s.launches := rfl
@[simp] theorem State.modWarp_dies (s : State) (w : Nat) (f : Warp → Warp) : (s.modWarp w f).dies = s.dies := rfl
@[simp] theorem State.modWarp_feeds (s : State) (w : Nat) (f : Warp → Warp) : (s.modWarp w f).feeds = s.feeds := rfl
@[simp] theorem State.modWarp_cur (s : State) (w : Nat) (f : Warp → Warp) : (s.modWarp w f).cur = s.cur := rfl
@[simp] theorem State.modWarp_mem (s : State) (w : Nat) (f : Warp → Warp) : (s.modWarp w f).mem = s.mem := rfl
@[simp] theorem State.modWarp_hbm (s : State) (w : Nat) (f : Warp → Warp) : (s.modWarp w f).hbm = s.hbm := rfl
@[simp] theorem State.modWarp_writes (s : State) (w : Nat) (f : Warp → Warp) : (s.modWarp w f).writes = s.writes := rfl
@[simp] theorem State.modWarp_dirty (s : State) (w : Nat) (f : Warp → Warp) : (s.modWarp w f).dirty = s.dirty := rfl
@[simp] theorem State.modWarp_generations (s : State) (w : Nat) (f : Warp → Warp) : (s.modWarp w f).generations = s.generations := rfl
@[simp] theorem State.modWarp_copies (s : State) (w : Nat) (f : Warp → Warp) : (s.modWarp w f).copies = s.copies := rfl
@[simp] theorem State.modWarp_granted (s : State) (w : Nat) (f : Warp → Warp) : (s.modWarp w f).granted = s.granted := rfl
@[simp] theorem State.modWarp_ops (s : State) (w : Nat) (f : Warp → Warp) : (s.modWarp w f).ops = s.ops := rfl
@[simp] theorem State.modWarp_tlb (s : State) (w : Nat) (f : Warp → Warp) : (s.modWarp w f).tlb = s.tlb := rfl
@[simp] theorem State.modWarp_seals (s : State) (w : Nat) (f : Warp → Warp) : (s.modWarp w f).seals = s.seals := rfl
@[simp] theorem State.modWarp_arrivals (s : State) (w : Nat) (f : Warp → Warp) : (s.modWarp w f).arrivals = s.arrivals := rfl
@[simp] theorem State.modWarp_roots (s : State) (w : Nat) (f : Warp → Warp) : (s.modWarp w f).roots = s.roots := rfl
@[simp] theorem State.modWarp_images (s : State) (w : Nat) (f : Warp → Warp) : (s.modWarp w f).images = s.images := rfl
@[simp] theorem State.modWarp_sems (s : State) (w : Nat) (f : Warp → Warp) : (s.modWarp w f).sems = s.sems := rfl
@[simp] theorem State.modWarp_upsets (s : State) (w : Nat) (f : Warp → Warp) : (s.modWarp w f).upsets = s.upsets := rfl
@[simp] theorem State.modWarp_errors (s : State) (w : Nat) (f : Warp → Warp) : (s.modWarp w f).errors = s.errors := rfl
@[simp] theorem State.modWarp_rowTimes (s : State) (w : Nat) (f : Warp → Warp) : (s.modWarp w f).rowTimes = s.rowTimes := rfl
@[simp] theorem State.modWarp_repairRows (s : State) (w : Nat) (f : Warp → Warp) : (s.modWarp w f).repairRows = s.repairRows := rfl
@[simp] theorem State.modWarp_sparesUsed (s : State) (w : Nat) (f : Warp → Warp) : (s.modWarp w f).sparesUsed = s.sparesUsed := rfl
@[simp] theorem State.modWarp_links (s : State) (w : Nat) (f : Warp → Warp) : (s.modWarp w f).links = s.links := rfl
@[simp] theorem State.modWarp_minVersion (s : State) (w : Nat) (f : Warp → Warp) : (s.modWarp w f).minVersion = s.minVersion := rfl
@[simp] theorem State.modWarp_firmware (s : State) (w : Nat) (f : Warp → Warp) : (s.modWarp w f).firmware = s.firmware := rfl
@[simp] theorem State.modWarp_hostUp (s : State) (w : Nat) (f : Warp → Warp) : (s.modWarp w f).hostUp = s.hostUp := rfl
@[simp] theorem State.modWarp_inService (s : State) (w : Nat) (f : Warp → Warp) : (s.modWarp w f).inService = s.inService := rfl
@[simp] theorem State.modWarp_boots (s : State) (w : Nat) (f : Warp → Warp) : (s.modWarp w f).boots = s.boots := rfl
@[simp] theorem State.modWarp_gt (s : State) (w : Nat) (f : Warp → Warp) : (s.modWarp w f).gt = s.gt := rfl
@[simp] theorem State.modWarp_skew (s : State) (w : Nat) (f : Warp → Warp) : (s.modWarp w f).skew = s.skew := rfl
@[simp] theorem State.modWarp_cycles (s : State) (w : Nat) (f : Warp → Warp) : (s.modWarp w f).cycles = s.cycles := rfl
@[simp] theorem State.modWarp_cycleRem (s : State) (w : Nat) (f : Warp → Warp) : (s.modWarp w f).cycleRem = s.cycleRem := rfl
@[simp] theorem State.modWarp_clock (s : State) (w : Nat) (f : Warp → Warp) : (s.modWarp w f).clock = s.clock := rfl
@[simp] theorem State.modWarp_hot (s : State) (w : Nat) (f : Warp → Warp) : (s.modWarp w f).hot = s.hot := rfl
@[simp] theorem State.modWarp_nextId (s : State) (w : Nat) (f : Warp → Warp) : (s.modWarp w f).nextId = s.nextId := rfl
@[simp] theorem State.modWarp_freeCtr (s : State) (w : Nat) (f : Warp → Warp) : (s.modWarp w f).freeCtr = s.freeCtr := rfl
@[simp] theorem State.modWarp_lastRead (s : State) (w : Nat) (f : Warp → Warp) : (s.modWarp w f).lastRead = s.lastRead := rfl
@[simp] theorem State.modWarp_turn (s : State) (w : Nat) (f : Warp → Warp) : (s.modWarp w f).turn = s.turn := rfl
@[simp] theorem State.modWarp_turns (s : State) (w : Nat) (f : Warp → Warp) : (s.modWarp w f).turns = s.turns := rfl

/-! ## setCore -/

@[simp] theorem State.setCore_lanes (s : State) (c : Nat) (x : Core) : (s.setCore c x).lanes = s.lanes := rfl
@[simp] theorem State.setCore_warps (s : State) (c : Nat) (x : Core) : (s.setCore c x).warps = s.warps := rfl
@[simp] theorem State.setCore_blocks (s : State) (c : Nat) (x : Core) : (s.setCore c x).blocks = s.blocks := rfl
@[simp] theorem State.setCore_pairs (s : State) (c : Nat) (x : Core) : (s.setCore c x).pairs = s.pairs := rfl
@[simp] theorem State.setCore_tiles (s : State) (c : Nat) (x : Core) : (s.setCore c x).tiles = s.tiles := rfl
@[simp] theorem State.setCore_groups (s : State) (c : Nat) (x : Core) : (s.setCore c x).groups = s.groups := rfl
@[simp] theorem State.setCore_launches (s : State) (c : Nat) (x : Core) : (s.setCore c x).launches = s.launches := rfl
@[simp] theorem State.setCore_dies (s : State) (c : Nat) (x : Core) : (s.setCore c x).dies = s.dies := rfl
@[simp] theorem State.setCore_feeds (s : State) (c : Nat) (x : Core) : (s.setCore c x).feeds = s.feeds := rfl
@[simp] theorem State.setCore_cur (s : State) (c : Nat) (x : Core) : (s.setCore c x).cur = s.cur := rfl
@[simp] theorem State.setCore_mem (s : State) (c : Nat) (x : Core) : (s.setCore c x).mem = s.mem := rfl
@[simp] theorem State.setCore_hbm (s : State) (c : Nat) (x : Core) : (s.setCore c x).hbm = s.hbm := rfl
@[simp] theorem State.setCore_writes (s : State) (c : Nat) (x : Core) : (s.setCore c x).writes = s.writes := rfl
@[simp] theorem State.setCore_dirty (s : State) (c : Nat) (x : Core) : (s.setCore c x).dirty = s.dirty := rfl
@[simp] theorem State.setCore_generations (s : State) (c : Nat) (x : Core) : (s.setCore c x).generations = s.generations := rfl
@[simp] theorem State.setCore_copies (s : State) (c : Nat) (x : Core) : (s.setCore c x).copies = s.copies := rfl
@[simp] theorem State.setCore_granted (s : State) (c : Nat) (x : Core) : (s.setCore c x).granted = s.granted := rfl
@[simp] theorem State.setCore_ops (s : State) (c : Nat) (x : Core) : (s.setCore c x).ops = s.ops := rfl
@[simp] theorem State.setCore_tlb (s : State) (c : Nat) (x : Core) : (s.setCore c x).tlb = s.tlb := rfl
@[simp] theorem State.setCore_seals (s : State) (c : Nat) (x : Core) : (s.setCore c x).seals = s.seals := rfl
@[simp] theorem State.setCore_arrivals (s : State) (c : Nat) (x : Core) : (s.setCore c x).arrivals = s.arrivals := rfl
@[simp] theorem State.setCore_roots (s : State) (c : Nat) (x : Core) : (s.setCore c x).roots = s.roots := rfl
@[simp] theorem State.setCore_images (s : State) (c : Nat) (x : Core) : (s.setCore c x).images = s.images := rfl
@[simp] theorem State.setCore_sems (s : State) (c : Nat) (x : Core) : (s.setCore c x).sems = s.sems := rfl
@[simp] theorem State.setCore_upsets (s : State) (c : Nat) (x : Core) : (s.setCore c x).upsets = s.upsets := rfl
@[simp] theorem State.setCore_errors (s : State) (c : Nat) (x : Core) : (s.setCore c x).errors = s.errors := rfl
@[simp] theorem State.setCore_rowTimes (s : State) (c : Nat) (x : Core) : (s.setCore c x).rowTimes = s.rowTimes := rfl
@[simp] theorem State.setCore_repairRows (s : State) (c : Nat) (x : Core) : (s.setCore c x).repairRows = s.repairRows := rfl
@[simp] theorem State.setCore_sparesUsed (s : State) (c : Nat) (x : Core) : (s.setCore c x).sparesUsed = s.sparesUsed := rfl
@[simp] theorem State.setCore_links (s : State) (c : Nat) (x : Core) : (s.setCore c x).links = s.links := rfl
@[simp] theorem State.setCore_minVersion (s : State) (c : Nat) (x : Core) : (s.setCore c x).minVersion = s.minVersion := rfl
@[simp] theorem State.setCore_firmware (s : State) (c : Nat) (x : Core) : (s.setCore c x).firmware = s.firmware := rfl
@[simp] theorem State.setCore_hostUp (s : State) (c : Nat) (x : Core) : (s.setCore c x).hostUp = s.hostUp := rfl
@[simp] theorem State.setCore_inService (s : State) (c : Nat) (x : Core) : (s.setCore c x).inService = s.inService := rfl
@[simp] theorem State.setCore_boots (s : State) (c : Nat) (x : Core) : (s.setCore c x).boots = s.boots := rfl
@[simp] theorem State.setCore_gt (s : State) (c : Nat) (x : Core) : (s.setCore c x).gt = s.gt := rfl
@[simp] theorem State.setCore_skew (s : State) (c : Nat) (x : Core) : (s.setCore c x).skew = s.skew := rfl
@[simp] theorem State.setCore_cycles (s : State) (c : Nat) (x : Core) : (s.setCore c x).cycles = s.cycles := rfl
@[simp] theorem State.setCore_cycleRem (s : State) (c : Nat) (x : Core) : (s.setCore c x).cycleRem = s.cycleRem := rfl
@[simp] theorem State.setCore_clock (s : State) (c : Nat) (x : Core) : (s.setCore c x).clock = s.clock := rfl
@[simp] theorem State.setCore_hot (s : State) (c : Nat) (x : Core) : (s.setCore c x).hot = s.hot := rfl
@[simp] theorem State.setCore_nextId (s : State) (c : Nat) (x : Core) : (s.setCore c x).nextId = s.nextId := rfl
@[simp] theorem State.setCore_freeCtr (s : State) (c : Nat) (x : Core) : (s.setCore c x).freeCtr = s.freeCtr := rfl
@[simp] theorem State.setCore_lastRead (s : State) (c : Nat) (x : Core) : (s.setCore c x).lastRead = s.lastRead := rfl
@[simp] theorem State.setCore_turn (s : State) (c : Nat) (x : Core) : (s.setCore c x).turn = s.turn := rfl
@[simp] theorem State.setCore_turns (s : State) (c : Nat) (x : Core) : (s.setCore c x).turns = s.turns := rfl

/-! ## modCore -/

@[simp] theorem State.modCore_lanes (s : State) (c : Nat) (f : Core → Core) : (s.modCore c f).lanes = s.lanes := rfl
@[simp] theorem State.modCore_warps (s : State) (c : Nat) (f : Core → Core) : (s.modCore c f).warps = s.warps := rfl
@[simp] theorem State.modCore_blocks (s : State) (c : Nat) (f : Core → Core) : (s.modCore c f).blocks = s.blocks := rfl
@[simp] theorem State.modCore_pairs (s : State) (c : Nat) (f : Core → Core) : (s.modCore c f).pairs = s.pairs := rfl
@[simp] theorem State.modCore_tiles (s : State) (c : Nat) (f : Core → Core) : (s.modCore c f).tiles = s.tiles := rfl
@[simp] theorem State.modCore_groups (s : State) (c : Nat) (f : Core → Core) : (s.modCore c f).groups = s.groups := rfl
@[simp] theorem State.modCore_launches (s : State) (c : Nat) (f : Core → Core) : (s.modCore c f).launches = s.launches := rfl
@[simp] theorem State.modCore_dies (s : State) (c : Nat) (f : Core → Core) : (s.modCore c f).dies = s.dies := rfl
@[simp] theorem State.modCore_feeds (s : State) (c : Nat) (f : Core → Core) : (s.modCore c f).feeds = s.feeds := rfl
@[simp] theorem State.modCore_cur (s : State) (c : Nat) (f : Core → Core) : (s.modCore c f).cur = s.cur := rfl
@[simp] theorem State.modCore_mem (s : State) (c : Nat) (f : Core → Core) : (s.modCore c f).mem = s.mem := rfl
@[simp] theorem State.modCore_hbm (s : State) (c : Nat) (f : Core → Core) : (s.modCore c f).hbm = s.hbm := rfl
@[simp] theorem State.modCore_writes (s : State) (c : Nat) (f : Core → Core) : (s.modCore c f).writes = s.writes := rfl
@[simp] theorem State.modCore_dirty (s : State) (c : Nat) (f : Core → Core) : (s.modCore c f).dirty = s.dirty := rfl
@[simp] theorem State.modCore_generations (s : State) (c : Nat) (f : Core → Core) : (s.modCore c f).generations = s.generations := rfl
@[simp] theorem State.modCore_copies (s : State) (c : Nat) (f : Core → Core) : (s.modCore c f).copies = s.copies := rfl
@[simp] theorem State.modCore_granted (s : State) (c : Nat) (f : Core → Core) : (s.modCore c f).granted = s.granted := rfl
@[simp] theorem State.modCore_ops (s : State) (c : Nat) (f : Core → Core) : (s.modCore c f).ops = s.ops := rfl
@[simp] theorem State.modCore_tlb (s : State) (c : Nat) (f : Core → Core) : (s.modCore c f).tlb = s.tlb := rfl
@[simp] theorem State.modCore_seals (s : State) (c : Nat) (f : Core → Core) : (s.modCore c f).seals = s.seals := rfl
@[simp] theorem State.modCore_arrivals (s : State) (c : Nat) (f : Core → Core) : (s.modCore c f).arrivals = s.arrivals := rfl
@[simp] theorem State.modCore_roots (s : State) (c : Nat) (f : Core → Core) : (s.modCore c f).roots = s.roots := rfl
@[simp] theorem State.modCore_images (s : State) (c : Nat) (f : Core → Core) : (s.modCore c f).images = s.images := rfl
@[simp] theorem State.modCore_sems (s : State) (c : Nat) (f : Core → Core) : (s.modCore c f).sems = s.sems := rfl
@[simp] theorem State.modCore_upsets (s : State) (c : Nat) (f : Core → Core) : (s.modCore c f).upsets = s.upsets := rfl
@[simp] theorem State.modCore_errors (s : State) (c : Nat) (f : Core → Core) : (s.modCore c f).errors = s.errors := rfl
@[simp] theorem State.modCore_rowTimes (s : State) (c : Nat) (f : Core → Core) : (s.modCore c f).rowTimes = s.rowTimes := rfl
@[simp] theorem State.modCore_repairRows (s : State) (c : Nat) (f : Core → Core) : (s.modCore c f).repairRows = s.repairRows := rfl
@[simp] theorem State.modCore_sparesUsed (s : State) (c : Nat) (f : Core → Core) : (s.modCore c f).sparesUsed = s.sparesUsed := rfl
@[simp] theorem State.modCore_links (s : State) (c : Nat) (f : Core → Core) : (s.modCore c f).links = s.links := rfl
@[simp] theorem State.modCore_minVersion (s : State) (c : Nat) (f : Core → Core) : (s.modCore c f).minVersion = s.minVersion := rfl
@[simp] theorem State.modCore_firmware (s : State) (c : Nat) (f : Core → Core) : (s.modCore c f).firmware = s.firmware := rfl
@[simp] theorem State.modCore_hostUp (s : State) (c : Nat) (f : Core → Core) : (s.modCore c f).hostUp = s.hostUp := rfl
@[simp] theorem State.modCore_inService (s : State) (c : Nat) (f : Core → Core) : (s.modCore c f).inService = s.inService := rfl
@[simp] theorem State.modCore_boots (s : State) (c : Nat) (f : Core → Core) : (s.modCore c f).boots = s.boots := rfl
@[simp] theorem State.modCore_gt (s : State) (c : Nat) (f : Core → Core) : (s.modCore c f).gt = s.gt := rfl
@[simp] theorem State.modCore_skew (s : State) (c : Nat) (f : Core → Core) : (s.modCore c f).skew = s.skew := rfl
@[simp] theorem State.modCore_cycles (s : State) (c : Nat) (f : Core → Core) : (s.modCore c f).cycles = s.cycles := rfl
@[simp] theorem State.modCore_cycleRem (s : State) (c : Nat) (f : Core → Core) : (s.modCore c f).cycleRem = s.cycleRem := rfl
@[simp] theorem State.modCore_clock (s : State) (c : Nat) (f : Core → Core) : (s.modCore c f).clock = s.clock := rfl
@[simp] theorem State.modCore_hot (s : State) (c : Nat) (f : Core → Core) : (s.modCore c f).hot = s.hot := rfl
@[simp] theorem State.modCore_nextId (s : State) (c : Nat) (f : Core → Core) : (s.modCore c f).nextId = s.nextId := rfl
@[simp] theorem State.modCore_freeCtr (s : State) (c : Nat) (f : Core → Core) : (s.modCore c f).freeCtr = s.freeCtr := rfl
@[simp] theorem State.modCore_lastRead (s : State) (c : Nat) (f : Core → Core) : (s.modCore c f).lastRead = s.lastRead := rfl
@[simp] theorem State.modCore_turn (s : State) (c : Nat) (f : Core → Core) : (s.modCore c f).turn = s.turn := rfl
@[simp] theorem State.modCore_turns (s : State) (c : Nat) (f : Core → Core) : (s.modCore c f).turns = s.turns := rfl

/-! ## setPair -/

@[simp] theorem State.setPair_lanes (s : State) (p : Nat) (x : Pair) : (s.setPair p x).lanes = s.lanes := rfl
@[simp] theorem State.setPair_warps (s : State) (p : Nat) (x : Pair) : (s.setPair p x).warps = s.warps := rfl
@[simp] theorem State.setPair_cores (s : State) (p : Nat) (x : Pair) : (s.setPair p x).cores = s.cores := rfl
@[simp] theorem State.setPair_blocks (s : State) (p : Nat) (x : Pair) : (s.setPair p x).blocks = s.blocks := rfl
@[simp] theorem State.setPair_tiles (s : State) (p : Nat) (x : Pair) : (s.setPair p x).tiles = s.tiles := rfl
@[simp] theorem State.setPair_groups (s : State) (p : Nat) (x : Pair) : (s.setPair p x).groups = s.groups := rfl
@[simp] theorem State.setPair_launches (s : State) (p : Nat) (x : Pair) : (s.setPair p x).launches = s.launches := rfl
@[simp] theorem State.setPair_dies (s : State) (p : Nat) (x : Pair) : (s.setPair p x).dies = s.dies := rfl
@[simp] theorem State.setPair_feeds (s : State) (p : Nat) (x : Pair) : (s.setPair p x).feeds = s.feeds := rfl
@[simp] theorem State.setPair_cur (s : State) (p : Nat) (x : Pair) : (s.setPair p x).cur = s.cur := rfl
@[simp] theorem State.setPair_mem (s : State) (p : Nat) (x : Pair) : (s.setPair p x).mem = s.mem := rfl
@[simp] theorem State.setPair_hbm (s : State) (p : Nat) (x : Pair) : (s.setPair p x).hbm = s.hbm := rfl
@[simp] theorem State.setPair_writes (s : State) (p : Nat) (x : Pair) : (s.setPair p x).writes = s.writes := rfl
@[simp] theorem State.setPair_dirty (s : State) (p : Nat) (x : Pair) : (s.setPair p x).dirty = s.dirty := rfl
@[simp] theorem State.setPair_generations (s : State) (p : Nat) (x : Pair) : (s.setPair p x).generations = s.generations := rfl
@[simp] theorem State.setPair_copies (s : State) (p : Nat) (x : Pair) : (s.setPair p x).copies = s.copies := rfl
@[simp] theorem State.setPair_granted (s : State) (p : Nat) (x : Pair) : (s.setPair p x).granted = s.granted := rfl
@[simp] theorem State.setPair_ops (s : State) (p : Nat) (x : Pair) : (s.setPair p x).ops = s.ops := rfl
@[simp] theorem State.setPair_tlb (s : State) (p : Nat) (x : Pair) : (s.setPair p x).tlb = s.tlb := rfl
@[simp] theorem State.setPair_seals (s : State) (p : Nat) (x : Pair) : (s.setPair p x).seals = s.seals := rfl
@[simp] theorem State.setPair_arrivals (s : State) (p : Nat) (x : Pair) : (s.setPair p x).arrivals = s.arrivals := rfl
@[simp] theorem State.setPair_roots (s : State) (p : Nat) (x : Pair) : (s.setPair p x).roots = s.roots := rfl
@[simp] theorem State.setPair_images (s : State) (p : Nat) (x : Pair) : (s.setPair p x).images = s.images := rfl
@[simp] theorem State.setPair_sems (s : State) (p : Nat) (x : Pair) : (s.setPair p x).sems = s.sems := rfl
@[simp] theorem State.setPair_upsets (s : State) (p : Nat) (x : Pair) : (s.setPair p x).upsets = s.upsets := rfl
@[simp] theorem State.setPair_errors (s : State) (p : Nat) (x : Pair) : (s.setPair p x).errors = s.errors := rfl
@[simp] theorem State.setPair_rowTimes (s : State) (p : Nat) (x : Pair) : (s.setPair p x).rowTimes = s.rowTimes := rfl
@[simp] theorem State.setPair_repairRows (s : State) (p : Nat) (x : Pair) : (s.setPair p x).repairRows = s.repairRows := rfl
@[simp] theorem State.setPair_sparesUsed (s : State) (p : Nat) (x : Pair) : (s.setPair p x).sparesUsed = s.sparesUsed := rfl
@[simp] theorem State.setPair_links (s : State) (p : Nat) (x : Pair) : (s.setPair p x).links = s.links := rfl
@[simp] theorem State.setPair_minVersion (s : State) (p : Nat) (x : Pair) : (s.setPair p x).minVersion = s.minVersion := rfl
@[simp] theorem State.setPair_firmware (s : State) (p : Nat) (x : Pair) : (s.setPair p x).firmware = s.firmware := rfl
@[simp] theorem State.setPair_hostUp (s : State) (p : Nat) (x : Pair) : (s.setPair p x).hostUp = s.hostUp := rfl
@[simp] theorem State.setPair_inService (s : State) (p : Nat) (x : Pair) : (s.setPair p x).inService = s.inService := rfl
@[simp] theorem State.setPair_boots (s : State) (p : Nat) (x : Pair) : (s.setPair p x).boots = s.boots := rfl
@[simp] theorem State.setPair_gt (s : State) (p : Nat) (x : Pair) : (s.setPair p x).gt = s.gt := rfl
@[simp] theorem State.setPair_skew (s : State) (p : Nat) (x : Pair) : (s.setPair p x).skew = s.skew := rfl
@[simp] theorem State.setPair_cycles (s : State) (p : Nat) (x : Pair) : (s.setPair p x).cycles = s.cycles := rfl
@[simp] theorem State.setPair_cycleRem (s : State) (p : Nat) (x : Pair) : (s.setPair p x).cycleRem = s.cycleRem := rfl
@[simp] theorem State.setPair_clock (s : State) (p : Nat) (x : Pair) : (s.setPair p x).clock = s.clock := rfl
@[simp] theorem State.setPair_hot (s : State) (p : Nat) (x : Pair) : (s.setPair p x).hot = s.hot := rfl
@[simp] theorem State.setPair_nextId (s : State) (p : Nat) (x : Pair) : (s.setPair p x).nextId = s.nextId := rfl
@[simp] theorem State.setPair_freeCtr (s : State) (p : Nat) (x : Pair) : (s.setPair p x).freeCtr = s.freeCtr := rfl
@[simp] theorem State.setPair_lastRead (s : State) (p : Nat) (x : Pair) : (s.setPair p x).lastRead = s.lastRead := rfl
@[simp] theorem State.setPair_turn (s : State) (p : Nat) (x : Pair) : (s.setPair p x).turn = s.turn := rfl
@[simp] theorem State.setPair_turns (s : State) (p : Nat) (x : Pair) : (s.setPair p x).turns = s.turns := rfl

/-! ## modPair -/

@[simp] theorem State.modPair_lanes (s : State) (p : Nat) (f : Pair → Pair) : (s.modPair p f).lanes = s.lanes := rfl
@[simp] theorem State.modPair_warps (s : State) (p : Nat) (f : Pair → Pair) : (s.modPair p f).warps = s.warps := rfl
@[simp] theorem State.modPair_cores (s : State) (p : Nat) (f : Pair → Pair) : (s.modPair p f).cores = s.cores := rfl
@[simp] theorem State.modPair_blocks (s : State) (p : Nat) (f : Pair → Pair) : (s.modPair p f).blocks = s.blocks := rfl
@[simp] theorem State.modPair_tiles (s : State) (p : Nat) (f : Pair → Pair) : (s.modPair p f).tiles = s.tiles := rfl
@[simp] theorem State.modPair_groups (s : State) (p : Nat) (f : Pair → Pair) : (s.modPair p f).groups = s.groups := rfl
@[simp] theorem State.modPair_launches (s : State) (p : Nat) (f : Pair → Pair) : (s.modPair p f).launches = s.launches := rfl
@[simp] theorem State.modPair_dies (s : State) (p : Nat) (f : Pair → Pair) : (s.modPair p f).dies = s.dies := rfl
@[simp] theorem State.modPair_feeds (s : State) (p : Nat) (f : Pair → Pair) : (s.modPair p f).feeds = s.feeds := rfl
@[simp] theorem State.modPair_cur (s : State) (p : Nat) (f : Pair → Pair) : (s.modPair p f).cur = s.cur := rfl
@[simp] theorem State.modPair_mem (s : State) (p : Nat) (f : Pair → Pair) : (s.modPair p f).mem = s.mem := rfl
@[simp] theorem State.modPair_hbm (s : State) (p : Nat) (f : Pair → Pair) : (s.modPair p f).hbm = s.hbm := rfl
@[simp] theorem State.modPair_writes (s : State) (p : Nat) (f : Pair → Pair) : (s.modPair p f).writes = s.writes := rfl
@[simp] theorem State.modPair_dirty (s : State) (p : Nat) (f : Pair → Pair) : (s.modPair p f).dirty = s.dirty := rfl
@[simp] theorem State.modPair_generations (s : State) (p : Nat) (f : Pair → Pair) : (s.modPair p f).generations = s.generations := rfl
@[simp] theorem State.modPair_copies (s : State) (p : Nat) (f : Pair → Pair) : (s.modPair p f).copies = s.copies := rfl
@[simp] theorem State.modPair_granted (s : State) (p : Nat) (f : Pair → Pair) : (s.modPair p f).granted = s.granted := rfl
@[simp] theorem State.modPair_ops (s : State) (p : Nat) (f : Pair → Pair) : (s.modPair p f).ops = s.ops := rfl
@[simp] theorem State.modPair_tlb (s : State) (p : Nat) (f : Pair → Pair) : (s.modPair p f).tlb = s.tlb := rfl
@[simp] theorem State.modPair_seals (s : State) (p : Nat) (f : Pair → Pair) : (s.modPair p f).seals = s.seals := rfl
@[simp] theorem State.modPair_arrivals (s : State) (p : Nat) (f : Pair → Pair) : (s.modPair p f).arrivals = s.arrivals := rfl
@[simp] theorem State.modPair_roots (s : State) (p : Nat) (f : Pair → Pair) : (s.modPair p f).roots = s.roots := rfl
@[simp] theorem State.modPair_images (s : State) (p : Nat) (f : Pair → Pair) : (s.modPair p f).images = s.images := rfl
@[simp] theorem State.modPair_sems (s : State) (p : Nat) (f : Pair → Pair) : (s.modPair p f).sems = s.sems := rfl
@[simp] theorem State.modPair_upsets (s : State) (p : Nat) (f : Pair → Pair) : (s.modPair p f).upsets = s.upsets := rfl
@[simp] theorem State.modPair_errors (s : State) (p : Nat) (f : Pair → Pair) : (s.modPair p f).errors = s.errors := rfl
@[simp] theorem State.modPair_rowTimes (s : State) (p : Nat) (f : Pair → Pair) : (s.modPair p f).rowTimes = s.rowTimes := rfl
@[simp] theorem State.modPair_repairRows (s : State) (p : Nat) (f : Pair → Pair) : (s.modPair p f).repairRows = s.repairRows := rfl
@[simp] theorem State.modPair_sparesUsed (s : State) (p : Nat) (f : Pair → Pair) : (s.modPair p f).sparesUsed = s.sparesUsed := rfl
@[simp] theorem State.modPair_links (s : State) (p : Nat) (f : Pair → Pair) : (s.modPair p f).links = s.links := rfl
@[simp] theorem State.modPair_minVersion (s : State) (p : Nat) (f : Pair → Pair) : (s.modPair p f).minVersion = s.minVersion := rfl
@[simp] theorem State.modPair_firmware (s : State) (p : Nat) (f : Pair → Pair) : (s.modPair p f).firmware = s.firmware := rfl
@[simp] theorem State.modPair_hostUp (s : State) (p : Nat) (f : Pair → Pair) : (s.modPair p f).hostUp = s.hostUp := rfl
@[simp] theorem State.modPair_inService (s : State) (p : Nat) (f : Pair → Pair) : (s.modPair p f).inService = s.inService := rfl
@[simp] theorem State.modPair_boots (s : State) (p : Nat) (f : Pair → Pair) : (s.modPair p f).boots = s.boots := rfl
@[simp] theorem State.modPair_gt (s : State) (p : Nat) (f : Pair → Pair) : (s.modPair p f).gt = s.gt := rfl
@[simp] theorem State.modPair_skew (s : State) (p : Nat) (f : Pair → Pair) : (s.modPair p f).skew = s.skew := rfl
@[simp] theorem State.modPair_cycles (s : State) (p : Nat) (f : Pair → Pair) : (s.modPair p f).cycles = s.cycles := rfl
@[simp] theorem State.modPair_cycleRem (s : State) (p : Nat) (f : Pair → Pair) : (s.modPair p f).cycleRem = s.cycleRem := rfl
@[simp] theorem State.modPair_clock (s : State) (p : Nat) (f : Pair → Pair) : (s.modPair p f).clock = s.clock := rfl
@[simp] theorem State.modPair_hot (s : State) (p : Nat) (f : Pair → Pair) : (s.modPair p f).hot = s.hot := rfl
@[simp] theorem State.modPair_nextId (s : State) (p : Nat) (f : Pair → Pair) : (s.modPair p f).nextId = s.nextId := rfl
@[simp] theorem State.modPair_freeCtr (s : State) (p : Nat) (f : Pair → Pair) : (s.modPair p f).freeCtr = s.freeCtr := rfl
@[simp] theorem State.modPair_lastRead (s : State) (p : Nat) (f : Pair → Pair) : (s.modPair p f).lastRead = s.lastRead := rfl
@[simp] theorem State.modPair_turn (s : State) (p : Nat) (f : Pair → Pair) : (s.modPair p f).turn = s.turn := rfl
@[simp] theorem State.modPair_turns (s : State) (p : Nat) (f : Pair → Pair) : (s.modPair p f).turns = s.turns := rfl

/-! ## setDie -/

@[simp] theorem State.setDie_lanes (s : State) (d : Nat) (x : Die) : (s.setDie d x).lanes = s.lanes := rfl
@[simp] theorem State.setDie_warps (s : State) (d : Nat) (x : Die) : (s.setDie d x).warps = s.warps := rfl
@[simp] theorem State.setDie_cores (s : State) (d : Nat) (x : Die) : (s.setDie d x).cores = s.cores := rfl
@[simp] theorem State.setDie_blocks (s : State) (d : Nat) (x : Die) : (s.setDie d x).blocks = s.blocks := rfl
@[simp] theorem State.setDie_pairs (s : State) (d : Nat) (x : Die) : (s.setDie d x).pairs = s.pairs := rfl
@[simp] theorem State.setDie_tiles (s : State) (d : Nat) (x : Die) : (s.setDie d x).tiles = s.tiles := rfl
@[simp] theorem State.setDie_groups (s : State) (d : Nat) (x : Die) : (s.setDie d x).groups = s.groups := rfl
@[simp] theorem State.setDie_launches (s : State) (d : Nat) (x : Die) : (s.setDie d x).launches = s.launches := rfl
@[simp] theorem State.setDie_feeds (s : State) (d : Nat) (x : Die) : (s.setDie d x).feeds = s.feeds := rfl
@[simp] theorem State.setDie_cur (s : State) (d : Nat) (x : Die) : (s.setDie d x).cur = s.cur := rfl
@[simp] theorem State.setDie_mem (s : State) (d : Nat) (x : Die) : (s.setDie d x).mem = s.mem := rfl
@[simp] theorem State.setDie_hbm (s : State) (d : Nat) (x : Die) : (s.setDie d x).hbm = s.hbm := rfl
@[simp] theorem State.setDie_writes (s : State) (d : Nat) (x : Die) : (s.setDie d x).writes = s.writes := rfl
@[simp] theorem State.setDie_dirty (s : State) (d : Nat) (x : Die) : (s.setDie d x).dirty = s.dirty := rfl
@[simp] theorem State.setDie_generations (s : State) (d : Nat) (x : Die) : (s.setDie d x).generations = s.generations := rfl
@[simp] theorem State.setDie_copies (s : State) (d : Nat) (x : Die) : (s.setDie d x).copies = s.copies := rfl
@[simp] theorem State.setDie_granted (s : State) (d : Nat) (x : Die) : (s.setDie d x).granted = s.granted := rfl
@[simp] theorem State.setDie_ops (s : State) (d : Nat) (x : Die) : (s.setDie d x).ops = s.ops := rfl
@[simp] theorem State.setDie_tlb (s : State) (d : Nat) (x : Die) : (s.setDie d x).tlb = s.tlb := rfl
@[simp] theorem State.setDie_seals (s : State) (d : Nat) (x : Die) : (s.setDie d x).seals = s.seals := rfl
@[simp] theorem State.setDie_arrivals (s : State) (d : Nat) (x : Die) : (s.setDie d x).arrivals = s.arrivals := rfl
@[simp] theorem State.setDie_roots (s : State) (d : Nat) (x : Die) : (s.setDie d x).roots = s.roots := rfl
@[simp] theorem State.setDie_images (s : State) (d : Nat) (x : Die) : (s.setDie d x).images = s.images := rfl
@[simp] theorem State.setDie_sems (s : State) (d : Nat) (x : Die) : (s.setDie d x).sems = s.sems := rfl
@[simp] theorem State.setDie_upsets (s : State) (d : Nat) (x : Die) : (s.setDie d x).upsets = s.upsets := rfl
@[simp] theorem State.setDie_errors (s : State) (d : Nat) (x : Die) : (s.setDie d x).errors = s.errors := rfl
@[simp] theorem State.setDie_rowTimes (s : State) (d : Nat) (x : Die) : (s.setDie d x).rowTimes = s.rowTimes := rfl
@[simp] theorem State.setDie_repairRows (s : State) (d : Nat) (x : Die) : (s.setDie d x).repairRows = s.repairRows := rfl
@[simp] theorem State.setDie_sparesUsed (s : State) (d : Nat) (x : Die) : (s.setDie d x).sparesUsed = s.sparesUsed := rfl
@[simp] theorem State.setDie_links (s : State) (d : Nat) (x : Die) : (s.setDie d x).links = s.links := rfl
@[simp] theorem State.setDie_minVersion (s : State) (d : Nat) (x : Die) : (s.setDie d x).minVersion = s.minVersion := rfl
@[simp] theorem State.setDie_firmware (s : State) (d : Nat) (x : Die) : (s.setDie d x).firmware = s.firmware := rfl
@[simp] theorem State.setDie_hostUp (s : State) (d : Nat) (x : Die) : (s.setDie d x).hostUp = s.hostUp := rfl
@[simp] theorem State.setDie_inService (s : State) (d : Nat) (x : Die) : (s.setDie d x).inService = s.inService := rfl
@[simp] theorem State.setDie_boots (s : State) (d : Nat) (x : Die) : (s.setDie d x).boots = s.boots := rfl
@[simp] theorem State.setDie_gt (s : State) (d : Nat) (x : Die) : (s.setDie d x).gt = s.gt := rfl
@[simp] theorem State.setDie_skew (s : State) (d : Nat) (x : Die) : (s.setDie d x).skew = s.skew := rfl
@[simp] theorem State.setDie_cycles (s : State) (d : Nat) (x : Die) : (s.setDie d x).cycles = s.cycles := rfl
@[simp] theorem State.setDie_cycleRem (s : State) (d : Nat) (x : Die) : (s.setDie d x).cycleRem = s.cycleRem := rfl
@[simp] theorem State.setDie_clock (s : State) (d : Nat) (x : Die) : (s.setDie d x).clock = s.clock := rfl
@[simp] theorem State.setDie_hot (s : State) (d : Nat) (x : Die) : (s.setDie d x).hot = s.hot := rfl
@[simp] theorem State.setDie_nextId (s : State) (d : Nat) (x : Die) : (s.setDie d x).nextId = s.nextId := rfl
@[simp] theorem State.setDie_freeCtr (s : State) (d : Nat) (x : Die) : (s.setDie d x).freeCtr = s.freeCtr := rfl
@[simp] theorem State.setDie_lastRead (s : State) (d : Nat) (x : Die) : (s.setDie d x).lastRead = s.lastRead := rfl
@[simp] theorem State.setDie_turn (s : State) (d : Nat) (x : Die) : (s.setDie d x).turn = s.turn := rfl
@[simp] theorem State.setDie_turns (s : State) (d : Nat) (x : Die) : (s.setDie d x).turns = s.turns := rfl

/-! ## modDie -/

@[simp] theorem State.modDie_lanes (s : State) (d : Nat) (f : Die → Die) : (s.modDie d f).lanes = s.lanes := rfl
@[simp] theorem State.modDie_warps (s : State) (d : Nat) (f : Die → Die) : (s.modDie d f).warps = s.warps := rfl
@[simp] theorem State.modDie_cores (s : State) (d : Nat) (f : Die → Die) : (s.modDie d f).cores = s.cores := rfl
@[simp] theorem State.modDie_blocks (s : State) (d : Nat) (f : Die → Die) : (s.modDie d f).blocks = s.blocks := rfl
@[simp] theorem State.modDie_pairs (s : State) (d : Nat) (f : Die → Die) : (s.modDie d f).pairs = s.pairs := rfl
@[simp] theorem State.modDie_tiles (s : State) (d : Nat) (f : Die → Die) : (s.modDie d f).tiles = s.tiles := rfl
@[simp] theorem State.modDie_groups (s : State) (d : Nat) (f : Die → Die) : (s.modDie d f).groups = s.groups := rfl
@[simp] theorem State.modDie_launches (s : State) (d : Nat) (f : Die → Die) : (s.modDie d f).launches = s.launches := rfl
@[simp] theorem State.modDie_feeds (s : State) (d : Nat) (f : Die → Die) : (s.modDie d f).feeds = s.feeds := rfl
@[simp] theorem State.modDie_cur (s : State) (d : Nat) (f : Die → Die) : (s.modDie d f).cur = s.cur := rfl
@[simp] theorem State.modDie_mem (s : State) (d : Nat) (f : Die → Die) : (s.modDie d f).mem = s.mem := rfl
@[simp] theorem State.modDie_hbm (s : State) (d : Nat) (f : Die → Die) : (s.modDie d f).hbm = s.hbm := rfl
@[simp] theorem State.modDie_writes (s : State) (d : Nat) (f : Die → Die) : (s.modDie d f).writes = s.writes := rfl
@[simp] theorem State.modDie_dirty (s : State) (d : Nat) (f : Die → Die) : (s.modDie d f).dirty = s.dirty := rfl
@[simp] theorem State.modDie_generations (s : State) (d : Nat) (f : Die → Die) : (s.modDie d f).generations = s.generations := rfl
@[simp] theorem State.modDie_copies (s : State) (d : Nat) (f : Die → Die) : (s.modDie d f).copies = s.copies := rfl
@[simp] theorem State.modDie_granted (s : State) (d : Nat) (f : Die → Die) : (s.modDie d f).granted = s.granted := rfl
@[simp] theorem State.modDie_ops (s : State) (d : Nat) (f : Die → Die) : (s.modDie d f).ops = s.ops := rfl
@[simp] theorem State.modDie_tlb (s : State) (d : Nat) (f : Die → Die) : (s.modDie d f).tlb = s.tlb := rfl
@[simp] theorem State.modDie_seals (s : State) (d : Nat) (f : Die → Die) : (s.modDie d f).seals = s.seals := rfl
@[simp] theorem State.modDie_arrivals (s : State) (d : Nat) (f : Die → Die) : (s.modDie d f).arrivals = s.arrivals := rfl
@[simp] theorem State.modDie_roots (s : State) (d : Nat) (f : Die → Die) : (s.modDie d f).roots = s.roots := rfl
@[simp] theorem State.modDie_images (s : State) (d : Nat) (f : Die → Die) : (s.modDie d f).images = s.images := rfl
@[simp] theorem State.modDie_sems (s : State) (d : Nat) (f : Die → Die) : (s.modDie d f).sems = s.sems := rfl
@[simp] theorem State.modDie_upsets (s : State) (d : Nat) (f : Die → Die) : (s.modDie d f).upsets = s.upsets := rfl
@[simp] theorem State.modDie_errors (s : State) (d : Nat) (f : Die → Die) : (s.modDie d f).errors = s.errors := rfl
@[simp] theorem State.modDie_rowTimes (s : State) (d : Nat) (f : Die → Die) : (s.modDie d f).rowTimes = s.rowTimes := rfl
@[simp] theorem State.modDie_repairRows (s : State) (d : Nat) (f : Die → Die) : (s.modDie d f).repairRows = s.repairRows := rfl
@[simp] theorem State.modDie_sparesUsed (s : State) (d : Nat) (f : Die → Die) : (s.modDie d f).sparesUsed = s.sparesUsed := rfl
@[simp] theorem State.modDie_links (s : State) (d : Nat) (f : Die → Die) : (s.modDie d f).links = s.links := rfl
@[simp] theorem State.modDie_minVersion (s : State) (d : Nat) (f : Die → Die) : (s.modDie d f).minVersion = s.minVersion := rfl
@[simp] theorem State.modDie_firmware (s : State) (d : Nat) (f : Die → Die) : (s.modDie d f).firmware = s.firmware := rfl
@[simp] theorem State.modDie_hostUp (s : State) (d : Nat) (f : Die → Die) : (s.modDie d f).hostUp = s.hostUp := rfl
@[simp] theorem State.modDie_inService (s : State) (d : Nat) (f : Die → Die) : (s.modDie d f).inService = s.inService := rfl
@[simp] theorem State.modDie_boots (s : State) (d : Nat) (f : Die → Die) : (s.modDie d f).boots = s.boots := rfl
@[simp] theorem State.modDie_gt (s : State) (d : Nat) (f : Die → Die) : (s.modDie d f).gt = s.gt := rfl
@[simp] theorem State.modDie_skew (s : State) (d : Nat) (f : Die → Die) : (s.modDie d f).skew = s.skew := rfl
@[simp] theorem State.modDie_cycles (s : State) (d : Nat) (f : Die → Die) : (s.modDie d f).cycles = s.cycles := rfl
@[simp] theorem State.modDie_cycleRem (s : State) (d : Nat) (f : Die → Die) : (s.modDie d f).cycleRem = s.cycleRem := rfl
@[simp] theorem State.modDie_clock (s : State) (d : Nat) (f : Die → Die) : (s.modDie d f).clock = s.clock := rfl
@[simp] theorem State.modDie_hot (s : State) (d : Nat) (f : Die → Die) : (s.modDie d f).hot = s.hot := rfl
@[simp] theorem State.modDie_nextId (s : State) (d : Nat) (f : Die → Die) : (s.modDie d f).nextId = s.nextId := rfl
@[simp] theorem State.modDie_freeCtr (s : State) (d : Nat) (f : Die → Die) : (s.modDie d f).freeCtr = s.freeCtr := rfl
@[simp] theorem State.modDie_lastRead (s : State) (d : Nat) (f : Die → Die) : (s.modDie d f).lastRead = s.lastRead := rfl
@[simp] theorem State.modDie_turn (s : State) (d : Nat) (f : Die → Die) : (s.modDie d f).turn = s.turn := rfl
@[simp] theorem State.modDie_turns (s : State) (d : Nat) (f : Die → Die) : (s.modDie d f).turns = s.turns := rfl

/-! ## modLaunch -/

@[simp] theorem State.modLaunch_lanes (s : State) (i : Nat) (f : Launch → Launch) : (s.modLaunch i f).lanes = s.lanes := rfl
@[simp] theorem State.modLaunch_warps (s : State) (i : Nat) (f : Launch → Launch) : (s.modLaunch i f).warps = s.warps := rfl
@[simp] theorem State.modLaunch_cores (s : State) (i : Nat) (f : Launch → Launch) : (s.modLaunch i f).cores = s.cores := rfl
@[simp] theorem State.modLaunch_blocks (s : State) (i : Nat) (f : Launch → Launch) : (s.modLaunch i f).blocks = s.blocks := rfl
@[simp] theorem State.modLaunch_pairs (s : State) (i : Nat) (f : Launch → Launch) : (s.modLaunch i f).pairs = s.pairs := rfl
@[simp] theorem State.modLaunch_tiles (s : State) (i : Nat) (f : Launch → Launch) : (s.modLaunch i f).tiles = s.tiles := rfl
@[simp] theorem State.modLaunch_groups (s : State) (i : Nat) (f : Launch → Launch) : (s.modLaunch i f).groups = s.groups := rfl
@[simp] theorem State.modLaunch_dies (s : State) (i : Nat) (f : Launch → Launch) : (s.modLaunch i f).dies = s.dies := rfl
@[simp] theorem State.modLaunch_feeds (s : State) (i : Nat) (f : Launch → Launch) : (s.modLaunch i f).feeds = s.feeds := rfl
@[simp] theorem State.modLaunch_cur (s : State) (i : Nat) (f : Launch → Launch) : (s.modLaunch i f).cur = s.cur := rfl
@[simp] theorem State.modLaunch_mem (s : State) (i : Nat) (f : Launch → Launch) : (s.modLaunch i f).mem = s.mem := rfl
@[simp] theorem State.modLaunch_hbm (s : State) (i : Nat) (f : Launch → Launch) : (s.modLaunch i f).hbm = s.hbm := rfl
@[simp] theorem State.modLaunch_writes (s : State) (i : Nat) (f : Launch → Launch) : (s.modLaunch i f).writes = s.writes := rfl
@[simp] theorem State.modLaunch_dirty (s : State) (i : Nat) (f : Launch → Launch) : (s.modLaunch i f).dirty = s.dirty := rfl
@[simp] theorem State.modLaunch_generations (s : State) (i : Nat) (f : Launch → Launch) : (s.modLaunch i f).generations = s.generations := rfl
@[simp] theorem State.modLaunch_copies (s : State) (i : Nat) (f : Launch → Launch) : (s.modLaunch i f).copies = s.copies := rfl
@[simp] theorem State.modLaunch_granted (s : State) (i : Nat) (f : Launch → Launch) : (s.modLaunch i f).granted = s.granted := rfl
@[simp] theorem State.modLaunch_ops (s : State) (i : Nat) (f : Launch → Launch) : (s.modLaunch i f).ops = s.ops := rfl
@[simp] theorem State.modLaunch_tlb (s : State) (i : Nat) (f : Launch → Launch) : (s.modLaunch i f).tlb = s.tlb := rfl
@[simp] theorem State.modLaunch_seals (s : State) (i : Nat) (f : Launch → Launch) : (s.modLaunch i f).seals = s.seals := rfl
@[simp] theorem State.modLaunch_arrivals (s : State) (i : Nat) (f : Launch → Launch) : (s.modLaunch i f).arrivals = s.arrivals := rfl
@[simp] theorem State.modLaunch_roots (s : State) (i : Nat) (f : Launch → Launch) : (s.modLaunch i f).roots = s.roots := rfl
@[simp] theorem State.modLaunch_images (s : State) (i : Nat) (f : Launch → Launch) : (s.modLaunch i f).images = s.images := rfl
@[simp] theorem State.modLaunch_sems (s : State) (i : Nat) (f : Launch → Launch) : (s.modLaunch i f).sems = s.sems := rfl
@[simp] theorem State.modLaunch_upsets (s : State) (i : Nat) (f : Launch → Launch) : (s.modLaunch i f).upsets = s.upsets := rfl
@[simp] theorem State.modLaunch_errors (s : State) (i : Nat) (f : Launch → Launch) : (s.modLaunch i f).errors = s.errors := rfl
@[simp] theorem State.modLaunch_rowTimes (s : State) (i : Nat) (f : Launch → Launch) : (s.modLaunch i f).rowTimes = s.rowTimes := rfl
@[simp] theorem State.modLaunch_repairRows (s : State) (i : Nat) (f : Launch → Launch) : (s.modLaunch i f).repairRows = s.repairRows := rfl
@[simp] theorem State.modLaunch_sparesUsed (s : State) (i : Nat) (f : Launch → Launch) : (s.modLaunch i f).sparesUsed = s.sparesUsed := rfl
@[simp] theorem State.modLaunch_links (s : State) (i : Nat) (f : Launch → Launch) : (s.modLaunch i f).links = s.links := rfl
@[simp] theorem State.modLaunch_minVersion (s : State) (i : Nat) (f : Launch → Launch) : (s.modLaunch i f).minVersion = s.minVersion := rfl
@[simp] theorem State.modLaunch_firmware (s : State) (i : Nat) (f : Launch → Launch) : (s.modLaunch i f).firmware = s.firmware := rfl
@[simp] theorem State.modLaunch_hostUp (s : State) (i : Nat) (f : Launch → Launch) : (s.modLaunch i f).hostUp = s.hostUp := rfl
@[simp] theorem State.modLaunch_inService (s : State) (i : Nat) (f : Launch → Launch) : (s.modLaunch i f).inService = s.inService := rfl
@[simp] theorem State.modLaunch_boots (s : State) (i : Nat) (f : Launch → Launch) : (s.modLaunch i f).boots = s.boots := rfl
@[simp] theorem State.modLaunch_gt (s : State) (i : Nat) (f : Launch → Launch) : (s.modLaunch i f).gt = s.gt := rfl
@[simp] theorem State.modLaunch_skew (s : State) (i : Nat) (f : Launch → Launch) : (s.modLaunch i f).skew = s.skew := rfl
@[simp] theorem State.modLaunch_cycles (s : State) (i : Nat) (f : Launch → Launch) : (s.modLaunch i f).cycles = s.cycles := rfl
@[simp] theorem State.modLaunch_cycleRem (s : State) (i : Nat) (f : Launch → Launch) : (s.modLaunch i f).cycleRem = s.cycleRem := rfl
@[simp] theorem State.modLaunch_clock (s : State) (i : Nat) (f : Launch → Launch) : (s.modLaunch i f).clock = s.clock := rfl
@[simp] theorem State.modLaunch_hot (s : State) (i : Nat) (f : Launch → Launch) : (s.modLaunch i f).hot = s.hot := rfl
@[simp] theorem State.modLaunch_nextId (s : State) (i : Nat) (f : Launch → Launch) : (s.modLaunch i f).nextId = s.nextId := rfl
@[simp] theorem State.modLaunch_freeCtr (s : State) (i : Nat) (f : Launch → Launch) : (s.modLaunch i f).freeCtr = s.freeCtr := rfl
@[simp] theorem State.modLaunch_lastRead (s : State) (i : Nat) (f : Launch → Launch) : (s.modLaunch i f).lastRead = s.lastRead := rfl
@[simp] theorem State.modLaunch_turn (s : State) (i : Nat) (f : Launch → Launch) : (s.modLaunch i f).turn = s.turn := rfl
@[simp] theorem State.modLaunch_turns (s : State) (i : Nat) (f : Launch → Launch) : (s.modLaunch i f).turns = s.turns := rfl

/-! ## modBlock -/

@[simp] theorem State.modBlock_lanes (s : State) (c : Nat) (f : Block → Block) : (s.modBlock c f).lanes = s.lanes := rfl
@[simp] theorem State.modBlock_warps (s : State) (c : Nat) (f : Block → Block) : (s.modBlock c f).warps = s.warps := rfl
@[simp] theorem State.modBlock_cores (s : State) (c : Nat) (f : Block → Block) : (s.modBlock c f).cores = s.cores := rfl
@[simp] theorem State.modBlock_pairs (s : State) (c : Nat) (f : Block → Block) : (s.modBlock c f).pairs = s.pairs := rfl
@[simp] theorem State.modBlock_tiles (s : State) (c : Nat) (f : Block → Block) : (s.modBlock c f).tiles = s.tiles := rfl
@[simp] theorem State.modBlock_groups (s : State) (c : Nat) (f : Block → Block) : (s.modBlock c f).groups = s.groups := rfl
@[simp] theorem State.modBlock_launches (s : State) (c : Nat) (f : Block → Block) : (s.modBlock c f).launches = s.launches := rfl
@[simp] theorem State.modBlock_dies (s : State) (c : Nat) (f : Block → Block) : (s.modBlock c f).dies = s.dies := rfl
@[simp] theorem State.modBlock_feeds (s : State) (c : Nat) (f : Block → Block) : (s.modBlock c f).feeds = s.feeds := rfl
@[simp] theorem State.modBlock_cur (s : State) (c : Nat) (f : Block → Block) : (s.modBlock c f).cur = s.cur := rfl
@[simp] theorem State.modBlock_mem (s : State) (c : Nat) (f : Block → Block) : (s.modBlock c f).mem = s.mem := rfl
@[simp] theorem State.modBlock_hbm (s : State) (c : Nat) (f : Block → Block) : (s.modBlock c f).hbm = s.hbm := rfl
@[simp] theorem State.modBlock_writes (s : State) (c : Nat) (f : Block → Block) : (s.modBlock c f).writes = s.writes := rfl
@[simp] theorem State.modBlock_dirty (s : State) (c : Nat) (f : Block → Block) : (s.modBlock c f).dirty = s.dirty := rfl
@[simp] theorem State.modBlock_generations (s : State) (c : Nat) (f : Block → Block) : (s.modBlock c f).generations = s.generations := rfl
@[simp] theorem State.modBlock_copies (s : State) (c : Nat) (f : Block → Block) : (s.modBlock c f).copies = s.copies := rfl
@[simp] theorem State.modBlock_granted (s : State) (c : Nat) (f : Block → Block) : (s.modBlock c f).granted = s.granted := rfl
@[simp] theorem State.modBlock_ops (s : State) (c : Nat) (f : Block → Block) : (s.modBlock c f).ops = s.ops := rfl
@[simp] theorem State.modBlock_tlb (s : State) (c : Nat) (f : Block → Block) : (s.modBlock c f).tlb = s.tlb := rfl
@[simp] theorem State.modBlock_seals (s : State) (c : Nat) (f : Block → Block) : (s.modBlock c f).seals = s.seals := rfl
@[simp] theorem State.modBlock_arrivals (s : State) (c : Nat) (f : Block → Block) : (s.modBlock c f).arrivals = s.arrivals := rfl
@[simp] theorem State.modBlock_roots (s : State) (c : Nat) (f : Block → Block) : (s.modBlock c f).roots = s.roots := rfl
@[simp] theorem State.modBlock_images (s : State) (c : Nat) (f : Block → Block) : (s.modBlock c f).images = s.images := rfl
@[simp] theorem State.modBlock_sems (s : State) (c : Nat) (f : Block → Block) : (s.modBlock c f).sems = s.sems := rfl
@[simp] theorem State.modBlock_upsets (s : State) (c : Nat) (f : Block → Block) : (s.modBlock c f).upsets = s.upsets := rfl
@[simp] theorem State.modBlock_errors (s : State) (c : Nat) (f : Block → Block) : (s.modBlock c f).errors = s.errors := rfl
@[simp] theorem State.modBlock_rowTimes (s : State) (c : Nat) (f : Block → Block) : (s.modBlock c f).rowTimes = s.rowTimes := rfl
@[simp] theorem State.modBlock_repairRows (s : State) (c : Nat) (f : Block → Block) : (s.modBlock c f).repairRows = s.repairRows := rfl
@[simp] theorem State.modBlock_sparesUsed (s : State) (c : Nat) (f : Block → Block) : (s.modBlock c f).sparesUsed = s.sparesUsed := rfl
@[simp] theorem State.modBlock_links (s : State) (c : Nat) (f : Block → Block) : (s.modBlock c f).links = s.links := rfl
@[simp] theorem State.modBlock_minVersion (s : State) (c : Nat) (f : Block → Block) : (s.modBlock c f).minVersion = s.minVersion := rfl
@[simp] theorem State.modBlock_firmware (s : State) (c : Nat) (f : Block → Block) : (s.modBlock c f).firmware = s.firmware := rfl
@[simp] theorem State.modBlock_hostUp (s : State) (c : Nat) (f : Block → Block) : (s.modBlock c f).hostUp = s.hostUp := rfl
@[simp] theorem State.modBlock_inService (s : State) (c : Nat) (f : Block → Block) : (s.modBlock c f).inService = s.inService := rfl
@[simp] theorem State.modBlock_boots (s : State) (c : Nat) (f : Block → Block) : (s.modBlock c f).boots = s.boots := rfl
@[simp] theorem State.modBlock_gt (s : State) (c : Nat) (f : Block → Block) : (s.modBlock c f).gt = s.gt := rfl
@[simp] theorem State.modBlock_skew (s : State) (c : Nat) (f : Block → Block) : (s.modBlock c f).skew = s.skew := rfl
@[simp] theorem State.modBlock_cycles (s : State) (c : Nat) (f : Block → Block) : (s.modBlock c f).cycles = s.cycles := rfl
@[simp] theorem State.modBlock_cycleRem (s : State) (c : Nat) (f : Block → Block) : (s.modBlock c f).cycleRem = s.cycleRem := rfl
@[simp] theorem State.modBlock_clock (s : State) (c : Nat) (f : Block → Block) : (s.modBlock c f).clock = s.clock := rfl
@[simp] theorem State.modBlock_hot (s : State) (c : Nat) (f : Block → Block) : (s.modBlock c f).hot = s.hot := rfl
@[simp] theorem State.modBlock_nextId (s : State) (c : Nat) (f : Block → Block) : (s.modBlock c f).nextId = s.nextId := rfl
@[simp] theorem State.modBlock_freeCtr (s : State) (c : Nat) (f : Block → Block) : (s.modBlock c f).freeCtr = s.freeCtr := rfl
@[simp] theorem State.modBlock_lastRead (s : State) (c : Nat) (f : Block → Block) : (s.modBlock c f).lastRead = s.lastRead := rfl
@[simp] theorem State.modBlock_turn (s : State) (c : Nat) (f : Block → Block) : (s.modBlock c f).turn = s.turn := rfl
@[simp] theorem State.modBlock_turns (s : State) (c : Nat) (f : Block → Block) : (s.modBlock c f).turns = s.turns := rfl

/-! ## modGroup -/

@[simp] theorem State.modGroup_lanes (s : State) (h : Group → Group) : (s.modGroup h).lanes = s.lanes := by
  unfold State.modGroup; split <;> rfl
@[simp] theorem State.modGroup_warps (s : State) (h : Group → Group) : (s.modGroup h).warps = s.warps := by
  unfold State.modGroup; split <;> rfl
@[simp] theorem State.modGroup_cores (s : State) (h : Group → Group) : (s.modGroup h).cores = s.cores := by
  unfold State.modGroup; split <;> rfl
@[simp] theorem State.modGroup_blocks (s : State) (h : Group → Group) : (s.modGroup h).blocks = s.blocks := by
  unfold State.modGroup; split <;> rfl
@[simp] theorem State.modGroup_pairs (s : State) (h : Group → Group) : (s.modGroup h).pairs = s.pairs := by
  unfold State.modGroup; split <;> rfl
@[simp] theorem State.modGroup_tiles (s : State) (h : Group → Group) : (s.modGroup h).tiles = s.tiles := by
  unfold State.modGroup; split <;> rfl
@[simp] theorem State.modGroup_launches (s : State) (h : Group → Group) : (s.modGroup h).launches = s.launches := by
  unfold State.modGroup; split <;> rfl
@[simp] theorem State.modGroup_dies (s : State) (h : Group → Group) : (s.modGroup h).dies = s.dies := by
  unfold State.modGroup; split <;> rfl
@[simp] theorem State.modGroup_feeds (s : State) (h : Group → Group) : (s.modGroup h).feeds = s.feeds := by
  unfold State.modGroup; split <;> rfl
@[simp] theorem State.modGroup_cur (s : State) (h : Group → Group) : (s.modGroup h).cur = s.cur := by
  unfold State.modGroup; split <;> rfl
@[simp] theorem State.modGroup_mem (s : State) (h : Group → Group) : (s.modGroup h).mem = s.mem := by
  unfold State.modGroup; split <;> rfl
@[simp] theorem State.modGroup_hbm (s : State) (h : Group → Group) : (s.modGroup h).hbm = s.hbm := by
  unfold State.modGroup; split <;> rfl
@[simp] theorem State.modGroup_writes (s : State) (h : Group → Group) : (s.modGroup h).writes = s.writes := by
  unfold State.modGroup; split <;> rfl
@[simp] theorem State.modGroup_dirty (s : State) (h : Group → Group) : (s.modGroup h).dirty = s.dirty := by
  unfold State.modGroup; split <;> rfl
@[simp] theorem State.modGroup_generations (s : State) (h : Group → Group) : (s.modGroup h).generations = s.generations := by
  unfold State.modGroup; split <;> rfl
@[simp] theorem State.modGroup_copies (s : State) (h : Group → Group) : (s.modGroup h).copies = s.copies := by
  unfold State.modGroup; split <;> rfl
@[simp] theorem State.modGroup_granted (s : State) (h : Group → Group) : (s.modGroup h).granted = s.granted := by
  unfold State.modGroup; split <;> rfl
@[simp] theorem State.modGroup_ops (s : State) (h : Group → Group) : (s.modGroup h).ops = s.ops := by
  unfold State.modGroup; split <;> rfl
@[simp] theorem State.modGroup_tlb (s : State) (h : Group → Group) : (s.modGroup h).tlb = s.tlb := by
  unfold State.modGroup; split <;> rfl
@[simp] theorem State.modGroup_seals (s : State) (h : Group → Group) : (s.modGroup h).seals = s.seals := by
  unfold State.modGroup; split <;> rfl
@[simp] theorem State.modGroup_arrivals (s : State) (h : Group → Group) : (s.modGroup h).arrivals = s.arrivals := by
  unfold State.modGroup; split <;> rfl
@[simp] theorem State.modGroup_roots (s : State) (h : Group → Group) : (s.modGroup h).roots = s.roots := by
  unfold State.modGroup; split <;> rfl
@[simp] theorem State.modGroup_images (s : State) (h : Group → Group) : (s.modGroup h).images = s.images := by
  unfold State.modGroup; split <;> rfl
@[simp] theorem State.modGroup_sems (s : State) (h : Group → Group) : (s.modGroup h).sems = s.sems := by
  unfold State.modGroup; split <;> rfl
@[simp] theorem State.modGroup_upsets (s : State) (h : Group → Group) : (s.modGroup h).upsets = s.upsets := by
  unfold State.modGroup; split <;> rfl
@[simp] theorem State.modGroup_errors (s : State) (h : Group → Group) : (s.modGroup h).errors = s.errors := by
  unfold State.modGroup; split <;> rfl
@[simp] theorem State.modGroup_rowTimes (s : State) (h : Group → Group) : (s.modGroup h).rowTimes = s.rowTimes := by
  unfold State.modGroup; split <;> rfl
@[simp] theorem State.modGroup_repairRows (s : State) (h : Group → Group) : (s.modGroup h).repairRows = s.repairRows := by
  unfold State.modGroup; split <;> rfl
@[simp] theorem State.modGroup_sparesUsed (s : State) (h : Group → Group) : (s.modGroup h).sparesUsed = s.sparesUsed := by
  unfold State.modGroup; split <;> rfl
@[simp] theorem State.modGroup_links (s : State) (h : Group → Group) : (s.modGroup h).links = s.links := by
  unfold State.modGroup; split <;> rfl
@[simp] theorem State.modGroup_minVersion (s : State) (h : Group → Group) : (s.modGroup h).minVersion = s.minVersion := by
  unfold State.modGroup; split <;> rfl
@[simp] theorem State.modGroup_firmware (s : State) (h : Group → Group) : (s.modGroup h).firmware = s.firmware := by
  unfold State.modGroup; split <;> rfl
@[simp] theorem State.modGroup_hostUp (s : State) (h : Group → Group) : (s.modGroup h).hostUp = s.hostUp := by
  unfold State.modGroup; split <;> rfl
@[simp] theorem State.modGroup_inService (s : State) (h : Group → Group) : (s.modGroup h).inService = s.inService := by
  unfold State.modGroup; split <;> rfl
@[simp] theorem State.modGroup_boots (s : State) (h : Group → Group) : (s.modGroup h).boots = s.boots := by
  unfold State.modGroup; split <;> rfl
@[simp] theorem State.modGroup_gt (s : State) (h : Group → Group) : (s.modGroup h).gt = s.gt := by
  unfold State.modGroup; split <;> rfl
@[simp] theorem State.modGroup_skew (s : State) (h : Group → Group) : (s.modGroup h).skew = s.skew := by
  unfold State.modGroup; split <;> rfl
@[simp] theorem State.modGroup_cycles (s : State) (h : Group → Group) : (s.modGroup h).cycles = s.cycles := by
  unfold State.modGroup; split <;> rfl
@[simp] theorem State.modGroup_cycleRem (s : State) (h : Group → Group) : (s.modGroup h).cycleRem = s.cycleRem := by
  unfold State.modGroup; split <;> rfl
@[simp] theorem State.modGroup_clock (s : State) (h : Group → Group) : (s.modGroup h).clock = s.clock := by
  unfold State.modGroup; split <;> rfl
@[simp] theorem State.modGroup_hot (s : State) (h : Group → Group) : (s.modGroup h).hot = s.hot := by
  unfold State.modGroup; split <;> rfl
@[simp] theorem State.modGroup_nextId (s : State) (h : Group → Group) : (s.modGroup h).nextId = s.nextId := by
  unfold State.modGroup; split <;> rfl
@[simp] theorem State.modGroup_freeCtr (s : State) (h : Group → Group) : (s.modGroup h).freeCtr = s.freeCtr := by
  unfold State.modGroup; split <;> rfl
@[simp] theorem State.modGroup_lastRead (s : State) (h : Group → Group) : (s.modGroup h).lastRead = s.lastRead := by
  unfold State.modGroup; split <;> rfl
@[simp] theorem State.modGroup_turn (s : State) (h : Group → Group) : (s.modGroup h).turn = s.turn := by
  unfold State.modGroup; split <;> rfl
@[simp] theorem State.modGroup_turns (s : State) (h : Group → Group) : (s.modGroup h).turns = s.turns := by
  unfold State.modGroup; split <;> rfl

/-! ## Units after an update -/

/-- Is there an entry for the lane? -/
def State.hasLane (s : State) (l : Nat) : Prop := (tfind s.lanes l).isSome = true

theorem State.lane_of_find {s : State} {l : Nat} {x : Lane} (h : tfind s.lanes l = some x) : s.lane l = x := by
  simp [State.lane, tget, h]

theorem State.lane_absent {s : State} {l : Nat} (h : tfind s.lanes l = none) : s.lane l = { status := .retired } := by
  simp [State.lane, tget, h]

@[simp] theorem State.lane_setLane (s : State) (l j : Nat) (x : Lane) :
    (s.setLane l x).lane j = if j = l then x else s.lane j := by
  simp [State.lane, State.setLane]

theorem State.lane_modLane (s : State) (l j : Nat) (f : Lane → Lane) (h : s.hasLane l) :
    (s.modLane l f).lane j = if j = l then f (s.lane l) else s.lane j := by
  obtain ⟨x, hx⟩ := Option.isSome_iff_exists.1 h
  by_cases e : j = l <;> simp [State.lane, State.modLane, tget, hx, e]

@[simp] theorem State.warp_setWarp (s : State) (w j : Nat) (x : Warp) :
    (s.setWarp w x).warp j = if j = w then x else s.warp j := by
  simp [State.warp, State.setWarp]

@[simp] theorem State.warp_modWarp (s : State) (w j : Nat) (f : Warp → Warp) :
    (s.modWarp w f).warp j = if j = w then f (s.warp w) else s.warp j := by
  simp [State.modWarp]

@[simp] theorem State.core_setCore (s : State) (c j : Nat) (x : Core) :
    (s.setCore c x).core j = if j = c then x else s.core j := by
  simp [State.core, State.setCore]

@[simp] theorem State.core_modCore (s : State) (c j : Nat) (f : Core → Core) :
    (s.modCore c f).core j = if j = c then f (s.core c) else s.core j := by
  simp [State.modCore]

@[simp] theorem State.pair_setPair (s : State) (p j : Nat) (x : Pair) :
    (s.setPair p x).pair j = if j = p then x else s.pair j := by
  simp [State.pair, State.setPair]

@[simp] theorem State.pair_modPair (s : State) (p j : Nat) (f : Pair → Pair) :
    (s.modPair p f).pair j = if j = p then f (s.pair p) else s.pair j := by
  simp [State.modPair]

@[simp] theorem State.die_setDie (s : State) (d j : Nat) (x : Die) :
    (s.setDie d x).die j = if j = d then x else s.die j := by
  simp [State.die, State.setDie]

@[simp] theorem State.die_modDie (s : State) (d j : Nat) (f : Die → Die) :
    (s.modDie d f).die j = if j = d then f (s.die d) else s.die j := by
  simp [State.modDie]

@[simp] theorem State.find_modLaunch (s : State) (i j : Nat) (f : Launch → Launch) :
    tfind (s.modLaunch i f).launches j = if j = i then (tfind s.launches i).map f else tfind s.launches j := by
  simp [State.modLaunch]

@[simp] theorem State.find_modBlock (s : State) (c j : Nat) (f : Block → Block) :
    tfind (s.modBlock c f).blocks j = if j = c then (tfind s.blocks c).map f else tfind s.blocks j := by
  simp [State.modBlock]

/-- A lane that is not retired has an entry. -/
theorem State.hasLane_of_status {s : State} {l : Nat} (h : (s.lane l).status ≠ .retired) : s.hasLane l := by
  unfold State.hasLane
  cases e : tfind s.lanes l with
  | none => simp [State.lane_absent e] at h
  | some x => rfl

/-- An executing lane is in flight. -/
theorem State.status_of_mem_exec {s : State} {g : Guard} {l : Nat} (h : l ∈ s.exec g) :
    (s.lane l).status = .inFlight := by
  simp [State.exec] at h; exact h.2.1.1

/-- An executing lane has an entry. -/
theorem State.hasLane_of_mem_exec {s : State} {g : Guard} {l : Nat} (h : l ∈ s.exec g) : s.hasLane l :=
  State.hasLane_of_status (by rw [State.status_of_mem_exec h]; simp)

end Sys2Proof.Machine
end

