-- ==== Sys2Proof/Laws/PerLane.lean ====
section
/-! SUPPORT. Laws of results: what writing a result again does, and everything an instruction with one result in each
executing lane can change. -/

namespace Sys2Proof.Machine

/-! ## Writing a result twice -/

section Settled
variable {α : Type}

/-- Does the table hold `v` at `k` already, in the place where a write would put it? -/
def tsettled [DecidableEq α] (d : α) (t : Tab α) (k : Nat) (v : α) : Prop := tput d t k v = t

theorem tsettled_tput_self [DecidableEq α] (d : α) (t : Tab α) (k : Nat) (v : α) : tsettled d (tput d t k v) k v := by
  unfold tsettled tput
  split_ifs
  · exact tdel_tdel_self t k
  · exact tset_tset_self t k v v

theorem tdel_eq_self_iff (t : Tab α) (k : Nat) : tdel t k = t ↔ ∀ p ∈ t, p.1 ≠ k := by
  constructor
  · intro h p hp
    rw [← h] at hp
    clear h
    induction t with
    | nil => simp [tdel] at hp
    | cons q t ih =>
      obtain ⟨i, x⟩ := q
      simp only [tdel] at hp
      split_ifs at hp with e
      · exact ih hp
      · rcases List.mem_cons.1 hp with rfl | hp
        · exact e
        · exact ih hp
  · intro h
    induction t with
    | nil => rfl
    | cons q t ih =>
      obtain ⟨i, x⟩ := q
      have h1 : i ≠ k := h (i, x) (by simp)
      simp only [tdel, if_neg h1]
      rw [ih fun p hp => h p (List.mem_cons_of_mem _ hp)]

theorem tsettled_tset {t : Tab α} {k j : Nat} {v w : α} (e : j ≠ k) (h : tset t k v = t) :
    tset (tset t j w) k v = tset t j w := by
  induction t with
  | nil => simp [tset] at h
  | cons q t ih =>
    obtain ⟨i, x⟩ := q
    simp only [tset] at h
    split_ifs at h with h1 h2
    · have := congrArg List.length h; simp at this
    · subst h2
      simp only [List.cons.injEq, Prod.mk.injEq, true_and, and_true] at h
      subst h
      by_cases a : j < k
      · simp [tset, a, Nat.lt_asymm a, Nat.ne_of_gt a]
      · simp [tset, a, e]
    · simp only [List.cons.injEq, true_and] at h
      simp only [tset]
      split_ifs with a b
      · have a1 : ¬ k < j := by omega
        have a2 : k ≠ j := by omega
        simp [tset, a1, a2, h1, h2, h]
      · simp [tset, h, e.symm]; omega
      · simp [tset, h1, h2, ih h]

theorem tsettled_tdel {t : Tab α} {k j : Nat} {v : α} (e : j ≠ k) (h : tset t k v = t) :
    tset (tdel t j) k v = tdel t j := by
  induction t with
  | nil => simp [tset] at h
  | cons q t ih =>
    obtain ⟨i, x⟩ := q
    simp only [tset] at h
    split_ifs at h with h1 h2
    · have := congrArg List.length h; simp at this
    · subst h2
      simp only [List.cons.injEq, Prod.mk.injEq, true_and, and_true] at h
      subst h
      simp only [tdel]
      rw [if_neg (by omega)]
      simp [tset]
    · simp only [List.cons.injEq, true_and] at h
      simp only [tdel]
      split_ifs with a
      · exact ih h
      · simp [tset, h1, h2, ih h]

theorem tsettled_tput [DecidableEq α] {d : α} {t : Tab α} {k j : Nat} {v w : α} (e : j ≠ k) (h : tsettled d t k v) :
    tsettled d (tput d t j w) k v := by
  unfold tsettled at *
  by_cases a : v = d <;> by_cases b : w = d <;> simp only [tput, a, b, if_true, if_false] at h ⊢
  · rw [tdel_eq_self_iff] at h ⊢
    exact fun p hp => h p (mem_tdel hp)
  · rw [tdel_eq_self_iff] at h ⊢
    intro p hp
    rcases mem_tset hp with rfl | hp
    · exact e
    · exact h p hp
  · exact tsettled_tdel e h
  · exact tsettled_tset e h

end Settled

theorem tsettled_putRun {t : Tab W32} {k i : Nat} {v : W32} (xs : List W32) (e : k < i) (h : tsettled 0 t k v) :
    tsettled 0 (putRun t i xs) k v := by
  induction xs generalizing t i with
  | nil => exact h
  | cons x xs ih => exact ih (by omega) (tsettled_tput (by omega) h)

/-- Writing the same run again changes nothing. -/
theorem putRun_putRun (t : Tab W32) (i : Nat) (xs : List W32) : putRun (putRun t i xs) i xs = putRun t i xs := by
  induction xs generalizing t i with
  | nil => rfl
  | cons x xs ih =>
    simp only [putRun]
    have h : tput 0 (putRun (tput 0 t i x) (i + 1) xs) i x = putRun (tput 0 t i x) (i + 1) xs :=
      tsettled_putRun xs (by omega) (tsettled_tput_self 0 t i x)
    rw [h, ih]

/-- What an entry reads as after a run is written. -/
theorem tget_putRun (t : Tab W32) (i j : Nat) (xs : List W32) :
    tget 0 (putRun t i xs) j = if i ≤ j ∧ j < i + xs.length then xs.getD (j - i) 0 else tget 0 t j := by
  induction xs generalizing t i with
  | nil => simp only [putRun, List.length_nil]; split <;> [omega; rfl]
  | cons x xs ih =>
    simp only [putRun, ih, tget_tput, List.length_cons]
    by_cases e : j = i
    · subst e; simp
    · by_cases h : i + 1 ≤ j ∧ j < i + 1 + xs.length
      · have hj : j - i = (j - (i + 1)) + 1 := by omega
        rw [if_pos h, if_pos (by omega), hj]; simp
      · rw [if_neg h, if_neg e, if_neg (by omega)]

theorem Lane.setPred_setPred (x : Lane) (i : Nat) (b : Bool) : (x.setPred i b).setPred i b = x.setPred i b := by
  unfold Lane.setPred
  by_cases h : i < 7
  · simp only [h, if_true]
    cases b
    · simp [BitVec.and_assoc]
    · simp [BitVec.or_assoc]
  · simp [h]

/-- Writing the same result again changes nothing. -/
theorem Lane.put_put (x : Lane) (d : Operand) (vals : List W32) : (x.put d vals).put d vals = x.put d vals := by
  cases d <;> simp [Lane.put, putRun_putRun, Lane.setPred_setPred]

theorem Warp.put_put (x : Warp) (d : Operand) (vals : List W32) : (x.put d vals).put d vals = x.put d vals := by
  cases d <;> simp [Warp.put, putRun_putRun]

/-- A result leaves a lane's other registers and control state alone. -/
theorem Lane.put_eq (x : Lane) (d : Operand) (vals : List W32) :
    x.put d vals = { x with v := (x.put d vals).v, p := (x.put d vals).p } := by
  cases d <;> simp [Lane.put, Lane.setPred]
  split <;> rfl

theorem Warp.put_eq (x : Warp) (d : Operand) (vals : List W32) :
    x.put d vals = { x with s := (x.put d vals).s } := by
  cases d <;> rfl

@[simp] theorem Lane.put_gstat (x : Lane) (d : Operand) (vals : List W32) : (x.put d vals).gstat = x.gstat := by
  rw [Lane.put_eq]
@[simp] theorem Lane.put_rsctr (x : Lane) (d : Operand) (vals : List W32) : (x.put d vals).rsctr = x.rsctr := by
  rw [Lane.put_eq]

theorem Lane.after_after (x : Lane) (f : Flags) (u : Bool) (c : W32) : (x.after f u c).after f u c = x.after f u c := by
  cases u <;> simp [Lane.after, Lane.sticky, BitVec.or_assoc]

/-! ## Changing some lanes, some warps -/

/-- A lane keeps its entry when another, or it, is changed. -/
@[simp] theorem State.hasLane_modLane (s : State) (l j : Nat) (f : Lane → Lane) :
    (s.modLane l f).hasLane j ↔ s.hasLane j := by
  unfold State.hasLane State.modLane
  by_cases e : j = l <;> simp [e]

theorem onlyLanes.refl (s : State) : onlyLanes s s := rfl
theorem onlyRegs.refl (s : State) : onlyRegs s s := rfl

theorem onlyLanes.trans {s t u : State} (h : onlyLanes s t) (k : onlyLanes t u) : onlyLanes s u := by
  unfold onlyLanes at *; rw [k, h]

theorem onlyRegs.trans {s t u : State} (h : onlyRegs s t) (k : onlyRegs t u) : onlyRegs s u := by
  unfold onlyRegs at *; rw [k, h]

theorem onlyLanes.regs {s t : State} (h : onlyLanes s t) : onlyRegs s t := by
  unfold onlyLanes onlyRegs at *; rw [h]

theorem onlyLanes.warps {s t : State} (h : onlyLanes s t) : t.warps = s.warps := by rw [h]

theorem onlyLanes_modLane (s : State) (l : Nat) (f : Lane → Lane) : onlyLanes s (s.modLane l f) := rfl

theorem onlyRegs_modWarp (s : State) (w : Nat) (f : Warp → Warp) : onlyRegs s (s.modWarp w f) := rfl

theorem onlyLanes_foldl {β : Type} (f : State → β → State) (h : ∀ t b, onlyLanes t (f t b)) (bs : List β) (s : State) :
    onlyLanes s (bs.foldl f s) := by
  induction bs generalizing s with
  | nil => exact .refl s
  | cons b bs ih => exact (h s b).trans (ih _)

theorem onlyRegs_foldl {β : Type} (f : State → β → State) (h : ∀ t b, onlyRegs t (f t b)) (bs : List β) (s : State) :
    onlyRegs s (bs.foldl f s) := by
  induction bs generalizing s with
  | nil => exact .refl s
  | cons b bs ih => exact (h s b).trans (ih _)

/-- Changing some lanes, each by a change that does nothing the second time. -/
theorem State.lane_foldl_modLane (ls : List Nat) (f : Nat → Lane → Lane) (hf : ∀ l x, f l (f l x) = f l x)
    (s : State) (h : ∀ l ∈ ls, s.hasLane l) (j : Nat) :
    (ls.foldl (fun t l => t.modLane l (f l)) s).lane j = if j ∈ ls then f j (s.lane j) else s.lane j := by
  induction ls generalizing s with
  | nil => simp
  | cons l ls ih =>
    have hl := h l (by simp)
    rw [List.foldl_cons, ih _ fun k hk => (State.hasLane_modLane s l k (f l)).2 (h k (List.mem_cons_of_mem _ hk))]
    rw [State.lane_modLane s l j (f l) hl]
    by_cases e : j = l
    · subst e; simp [hf]
    · simp [e]

/-- Changing some warps, each by a change that does nothing the second time; `g` says which lanes change their warp. -/
theorem State.warp_foldl_modWarp (ls : List Nat) (f : Nat → Warp → Warp) (p : Nat → Bool)
    (hf : ∀ l x, f l (f l x) = f l x)
    (hp : ∀ l ∈ ls, ∀ k ∈ ls, p l = true → p k = true → warpOf l = warpOf k → l = k) (s : State) (w : Nat) :
    (ls.foldl (fun t l => if p l then t.modWarp (warpOf l) (f l) else t) s).warp w =
      match ls.find? fun l => p l && warpOf l == w with
      | some l => f l (s.warp w)
      | none => s.warp w := by
  induction ls generalizing s with
  | nil => rfl
  | cons l ls ih =>
    rw [List.foldl_cons, ih fun a ha b hb => hp a (List.mem_cons_of_mem _ ha) b (List.mem_cons_of_mem _ hb)]
    rw [List.find?_cons]
    by_cases a : p l = true
    · by_cases e : warpOf l = w
      · subst e
        simp only [a, if_true, beq_self_eq_true, Bool.and_true]
        cases h : ls.find? fun k => p k && warpOf k == warpOf l with
        | none => simp
        | some k =>
          have hk := List.find?_some h
          simp at hk
          have : l = k := hp l (by simp) k (List.mem_cons_of_mem _ (List.mem_of_find?_eq_some h)) a hk.1 hk.2.symm
          subst this
          simp [hf]
      · have e' : (warpOf l == w) = false := by simpa using e
        simp only [a, if_true, e', Bool.and_false]
        have e2 : ¬ w = warpOf l := fun h => e h.symm
        cases h : ls.find? fun k => p k && warpOf k == w with
        | none => simp [e2]
        | some k => simp [e2]
    · simp [a]

/-! ## The lowest lane of each warp -/

theorem mem_warpsOf {ls : List Nat} {w : Nat} : w ∈ warpsOf ls ↔ ∃ l ∈ ls, warpOf l = w := by
  simp [warpsOf]

/-- The lowest lanes are the first of their warps. -/
theorem mem_lowestOf {ls : List Nat} {l : Nat} :
    l ∈ lowestOf ls ↔ ls.find? (fun k => warpOf k == warpOf l) = some l := by
  unfold lowestOf
  simp only [List.mem_filterMap, mem_warpsOf]
  constructor
  · rintro ⟨w, _, h⟩
    have := List.find?_some h
    simp at this
    rw [this]; exact h
  · intro h
    exact ⟨warpOf l, ⟨l, List.mem_of_find?_eq_some h, rfl⟩, h⟩

theorem State.find_lowest (s : State) (ls : List Nat) (w : Nat) :
    ls.find? (fun l => (lowestOf (ls.filter fun l => !(s.lane l).helper)).contains l && warpOf l == w) =
      s.sourceOf ls w := by
  unfold State.sourceOf
  generalize hn : (ls.filter fun l => !(s.lane l).helper) = ns
  cases h : ns.find? fun l => warpOf l == w with
  | none =>
    rw [List.find?_eq_none] at h ⊢
    intro l _ hl
    simp only [Bool.and_eq_true, List.contains_iff_mem, beq_iff_eq] at hl
    have hm := List.mem_of_find?_eq_some (mem_lowestOf.1 hl.1)
    exact h l hm (by simp [hl.2])
  | some l =>
    have hw : warpOf l = w := by simpa using List.find?_some h
    have hlow : l ∈ lowestOf ns := by rw [mem_lowestOf, hw]; exact h
    have uniq : ∀ k, k ∈ lowestOf ns → warpOf k = w → k = l := by
      intro k hk hkw
      rw [mem_lowestOf, hkw, h] at hk
      exact (Option.some.inj hk).symm
    have hmem : l ∈ ls := by
      have := List.mem_of_find?_eq_some h
      rw [← hn] at this
      exact (List.mem_filter.1 this).1
    cases h2 : ls.find? fun l => (lowestOf ns).contains l && warpOf l == w with
    | none =>
      rw [List.find?_eq_none] at h2
      exact absurd (by simp [hlow, hw]) (h2 l hmem)
    | some k =>
      have := List.find?_some h2
      simp only [Bool.and_eq_true, List.contains_iff_mem, beq_iff_eq] at this
      rw [uniq k this.1 this.2]

theorem Warp.put_of_not_sreg {d : Operand} (h : isSReg d = false) (x : Warp) (vals : List W32) : x.put d vals = x := by
  cases d <;> simp_all [isSReg, Warp.put]

theorem Lane.put_of_sreg {d : Operand} (h : isSReg d = true) (x : Lane) (vals : List W32) : x.put d vals = x := by
  cases d <;> simp_all [isSReg, Lane.put]

/-! ## One result in each of some lanes -/

/-- What `commit` does with one result for each of some lanes. -/
theorem State.commit_map (s : State) (ls : List Nat) (hls : ∀ l ∈ ls, s.hasLane l) (d : Operand)
    (r : Nat → List W32) :
    Changed s (s.commit d (ls.map fun l => (l, r l))) ls (fun l x => x.put d (r l)) d r ∧
      ∀ l, (s.commit d (ls.map fun l => (l, r l))).hasLane l ↔ s.hasLane l := by
  generalize ht : s.commit d (ls.map fun l => (l, r l)) = t
  by_cases hd : isSReg d = true
  · have ht : t = ls.foldl (fun t l => if (lowestOf (ls.filter fun l => !(s.lane l).helper)).contains l
        then t.modWarp (warpOf l) (·.put d (r l)) else t) s := by
      have hm : (ls.map fun l => (l, r l)).map (·.1) = ls := by
        rw [List.map_map]; exact List.map_id _
      rw [← ht]
      simp only [State.commit, hd, if_true, hm, List.foldl_map]
    have hl : t.lanes = s.lanes := by
      rw [ht]
      generalize lowestOf (ls.filter fun l => !(s.lane l).helper) = low
      clear * -
      induction ls generalizing s with
      | nil => rfl
      | cons l ls ih => rw [List.foldl_cons, ih]; split <;> rfl
    refine ⟨⟨?_, fun l => ?_, fun w => ?_⟩, fun l => by simp [State.hasLane, hl]⟩
    · rw [ht]
      exact onlyRegs_foldl _ (fun u b => by split <;> [exact onlyRegs_modWarp ..; exact .refl u]) _ _
    · simp [State.lane, hl, Lane.put_of_sreg hd]
    · have h1 : ∀ l ∈ ls, ∀ k ∈ ls,
          (lowestOf (ls.filter fun l => !(s.lane l).helper)).contains l = true →
          (lowestOf (ls.filter fun l => !(s.lane l).helper)).contains k = true → warpOf l = warpOf k → l = k := by
        intro l _ k _ h1 h2 e
        simp only [List.contains_iff_mem, mem_lowestOf] at h1 h2
        rw [e, h2] at h1
        exact (Option.some.inj h1).symm
      rw [ht, State.warp_foldl_modWarp _ (fun l x => x.put d (r l)) _ (fun l x => Warp.put_put x d (r l)) h1,
        State.find_lowest]
      try rfl
  · have hd' : isSReg d = false := by simpa using hd
    have ht : t = ls.foldl (fun t l => t.modLane l (·.put d (r l))) s := by
      rw [← ht]
      simp only [State.commit, hd', List.foldl_map]
      rfl
    have ho : onlyLanes s t := by
      rw [ht]; exact onlyLanes_foldl _ (fun u b => onlyLanes_modLane ..) _ _
    refine ⟨⟨ho.regs, fun l => ?_, fun w => ?_⟩, fun l => ?_⟩
    · rw [ht, State.lane_foldl_modLane _ (fun l x => x.put d (r l)) (fun l x => Lane.put_put x d (r l)) _ hls]
    · have : t.warp w = s.warp w := by simp [State.warp, ho.warps]
      rw [this]
      split <;> simp [Warp.put_of_not_sreg hd']
    · rw [ht]
      clear * -
      induction ls generalizing s with
      | nil => rfl
      | cons k ls ih => rw [List.foldl_cons, ih]; simp

/-- Changing lanes afterwards. -/
theorem Changed.modLanes {s t : State} {ls : List Nat} {f : Nat → Lane → Lane} {d : Operand} {r : Nat → List W32}
    (h : Changed s t ls f d r) (hh : ∀ l ∈ ls, t.hasLane l) (g : Nat → Lane → Lane)
    (hg : ∀ l x, g l (g l x) = g l x) :
    Changed s (ls.foldl (fun t l => t.modLane l (g l)) t) ls (fun l x => g l (f l x)) d r := by
  have ho : onlyLanes t (ls.foldl (fun t l => t.modLane l (g l)) t) :=
    onlyLanes_foldl _ (fun u b => onlyLanes_modLane ..) _ _
  refine ⟨h.rest.trans ho.regs, fun l => ?_, fun w => ?_⟩
  · rw [State.lane_foldl_modLane _ g hg _ hh, h.lane]; split <;> rfl
  · rw [State.warp, ho.warps]; exact h.warp w

theorem goodOf_ok (ls : List Nat) (f : Nat → LaneRes) (r : Nat → List W32) (fl : Nat → Flags) (rs : Nat → Bool)
    (h : ∀ l ∈ ls, f l = .ok (r l) (fl l) (rs l)) :
    goodOf (ls.map fun l => (l, f l)) = ls.map fun l => (l, r l) := by
  induction ls with
  | nil => rfl
  | cons l ls ih =>
    have h2 := ih fun k hk => h k (List.mem_cons_of_mem _ hk)
    simp only [goodOf] at h2
    simp [goodOf, h l (by simp), h2]

theorem badOf_ok (ls : List Nat) (f : Nat → LaneRes) (r : Nat → List W32) (fl : Nat → Flags) (rs : Nat → Bool)
    (h : ∀ l ∈ ls, f l = .ok (r l) (fl l) (rs l)) : badOf (ls.map fun l => (l, f l)) = [] := by
  induction ls with
  | nil => rfl
  | cons l ls ih =>
    have h2 := ih fun k hk => h k (List.mem_cons_of_mem _ hk)
    simp only [badOf] at h2
    simp [badOf, h l (by simp), h2]

/-- An instruction whose every executing lane has a result. -/
theorem State.perLane_ok {s : State} {g : Guard} {d : Operand} {f : Nat → LaneRes} {r : Nat → List W32}
    {fl : Nat → Flags} {rs : Nat → Bool} (h : ∀ l ∈ s.exec g, f l = .ok (r l) (fl l) (rs l)) :
    Result s (s.perLane g d f) g d r fl rs := by
  obtain ⟨hc, hh⟩ := State.commit_map s (s.exec g) (fun l hl => State.hasLane_of_mem_exec hl) d r
  generalize hu : s.commit d ((s.exec g).map fun l => (l, r l)) = u at hc hh
  have hp : s.perLane g d f =
      (s.exec g).foldl (fun t l => t.modLane l (·.after (fl l) (rs l) (u.lane l).rsctr)) u := by
    simp only [State.perLane, goodOf_ok _ _ r fl rs h, badOf_ok _ _ r fl rs h, State.trapEach, List.foldl_nil, hu]
    have key : ∀ (ls : List Nat) (v : State), (∀ l ∈ ls, f l = .ok (r l) (fl l) (rs l)) →
        (ls.map fun l => (l, f l)).foldl (fun t q => match q.2 with
          | .ok _ f k => t.modLane q.1 (·.after f k (u.lane q.1).rsctr)
          | .fault _ => t) v =
        ls.foldl (fun t l => t.modLane l (·.after (fl l) (rs l) (u.lane l).rsctr)) v := by
      intro ls
      induction ls with
      | nil => intros; rfl
      | cons l ls ih =>
        intro v hv
        simp only [List.map_cons, List.foldl_cons, hv l (by simp)]
        exact ih _ fun k hk => hv k (List.mem_cons_of_mem _ hk)
    exact key _ u h
  have := hc.modLanes (fun l hl => (hh l).2 (State.hasLane_of_mem_exec hl))
    (fun l x => x.after (fl l) (rs l) (u.lane l).rsctr) (fun l x => Lane.after_after x _ _ _)
  rw [hp]
  refine ⟨this.rest, fun l => ?_, this.warp⟩
  rw [this.lane]
  split <;> rename_i hl
  · rw [hc.lane, if_pos hl]; simp
  · rfl

end Sys2Proof.Machine
end

