-- ==== Sys2Proof/Tests/Slice0.lean ====
section
/-! SUPPORT. The model's own tests. Expected values come from the spec's tables and traces, or by hand from its rules. The
witnesses show that the hypotheses of every statement are met by a concrete state. -/

namespace Sys2Proof.Tests

open Sys2Proof Sys2Proof.Machine

set_option maxRecDepth 100000
set_option Elab.async false

def always : Guard := { neg := false, idx := 7 }

def ops (d a b c : Operand) : Ops := { d, a, b, c }

/-- The state in which one lane of core 0 stands at an instruction. -/
def place (i : Instr) : State :=
  let ws := encode i
  let t := State.reset.probe (ws.headD 0) (ws.getD 1 0)
  { t with cur := some (groupKey 0 0 (pathOf i.cls)) }

/-- What an instruction leaves. -/
def after (i : Instr) (s : State) : State :=
  match exec i s with
  | .next t => t
  | .fault _ => State.reset
  | .refused _ => State.reset

/-- The lane changed. -/
def lane0 (f : Lane → Lane) (s : State) : State := s.modLane 0 f

/-! ## Ill-formed terms -/

theorem test_wf_iadd : (Instr.iadd always (ops (.v 2) (.v 2) (.k 17) .none)).wf = true := by decide
theorem test_wf_k_as_destination : (Instr.iadd always (ops (.k 2) (.v 2) (.k 17) .none)).wf = false := by decide
theorem test_wf_odd_pair : (Instr.iadd64 always (ops (.v 3) (.v 2) (.v 4) .none)).wf = false := by decide
theorem test_wf_unused_field : (Instr.ineg always (ops (.v 3) (.v 2) (.v 4) .none)).wf = false := by decide
theorem test_wf_three_literals : (Instr.imad always (ops (.v 3) (.lit 1) (.lit 2) (.lit 3))).wf = false := by decide
theorem test_wf_cvt_pair : (Instr.cvt always (ops (.v 0) (.v 2) (.v 4) .none) .int8 .aq64 .rne).wf = false := by decide
theorem test_wf_red_exch : (Instr.red always (ops .none (.v 2) (.v 4) .none) .device false false .exch).wf = false := by
  decide
theorem test_wf_st_s8 : (Instr.st always (ops .none (.v 2) (.v 4) .none) 0 none .s8).wf = false := by decide
theorem test_wf_bar_grid : (Instr.bar always 8 .grid).wf = false := by decide
theorem test_wf_mma_classes : (Instr.mma always (ops .none (.v 2) .none .none) .bf16 .int4).wf = false := by decide
theorem test_wf_movsr_ro : (Instr.movsrWrite always (ops .none (.v 2) .none .none) .gt).wf = false := by decide

/-! ## Words written out from the encoding tables -/

def dec (cls : Nat) (w : W64) (lit : Option W64) : Decoded := decode Alloc.full cls w lit

-- spec/07, Encodings
theorem test_word_nop : dec 4 0x00FFFFFFFFFF7000 none = .ok (.nop always) := by decide
theorem test_word_xor : dec 0 0x15005C263FFF7000 none = .ok (.xor always (ops (.v 1) (.sp .homelane) (.k 15) .none)) := by
  decide
theorem test_word_itest :
    dec 0 0x1DA0400027FF700A none = .ok (.itest always (ops (.p 1) (.v 0) (.v 9) .none) true .lt) := by decide
theorem test_word_movsr : dec 0 0x3EFFC02FFFFF7100 none = .ok (.movsrWrite always (ops .none (.v 2) .none .none) .mode) := by
  decide
-- spec/04 R83, the countdown program
theorem test_word_mov_literal :
    dec 0 0x0100BFEFFFFF7000 (some 0x0000002800000000) = .ok (.mov always (ops (.v 2) (.lit 40) .none .none)) := by decide
theorem test_word_bra : dec 4 0xC0FFFFFFFFFD0000 none = .ok (.bra ⟨false, 0⟩ 0x3FFFFFFD false) := by decide
-- spec/08, Encodings
theorem test_word_hfma2 :
    dec 0 0x340180301005700F none = .ok (.hfma2 always (ops (.v 6) (.v 3) (.v 4) (.v 5)) true .mode) := by decide
theorem test_word_cvt :
    dec 0 0x3600801FFFFF7181 none = .ok (.cvt always (ops (.v 2) (.v 1) .none .none) .e4m3 .fp32 .rz) := by decide
-- spec/10
theorem test_word_wshfl :
    dec 0 0x4201404643FF7003 none = .ok (.wshfl always (ops (.v 5) (.v 4) (.k 16) .none) .xor) := by decide
-- spec/13, Encodings
theorem test_word_ld :
    dec 2 0x7001C04FFC207000 none = .ok (.ld always (ops (.v 7) (.v 4) .none .none) 32 none .b32) := by decide
theorem test_word_copy :
    dec 2 0x79B0E08028107100 none = .ok (.copy always (ops (.t 3) (.s 8) (.v 10) (.v 16)) .block false false false) := by
  decide
-- spec/14, spec/15, spec/16
theorem test_word_mxdrain :
    dec 3 0xA6B140201BFF720F none
      = .ok (.mxdrain always (ops (.t 5) (.v 2) (.v 6) .none) (some .block) false false .bf16 .mode) := by decide
theorem test_word_hfwd :
    dec 3 0xADB16C4FFFFF7037 none = .ok (.hfwd always (ops (.t 5) (.t 4) .none .none) 5 .mode) := by decide
theorem test_word_gcmp :
    dec 1 0x68A0BFF902417000 none = .ok (.gcmp always (ops (.p 2) .none (.g 0) (.g 1))) := by decide
-- spec/17, spec/24
theorem test_word_park :
    dec 4 0xC9FFC10049B92111 none
      = .ok (.park ⟨false, 2⟩ (ops .none (.v 16) (.v 18) (.k 57)) .block true .eq true) := by decide
theorem test_word_srwr :
    dec 5 0xE1FFC04FFFFF7013 none = .ok (.srwr always (ops .none (.v 4) .none .none) (.fault 0)) := by decide
theorem test_word_pcfg :
    dec 5 0xE3FFC06FFFFF7031 none = .ok (.pcfg always (ops .none (.v 6) .none .none) true 17) := by decide

/-! ## Words refused -/

theorem test_refuse_class : dec 2 0x15005C263FFF7000 none = .error (.cls 0x3FF) := by decide
theorem test_refuse_reserved_opcode : dec 0 0x49FFFFFFFFFF7000 none = .error .illegalOp := by decide
theorem test_refuse_mod : dec 0 0x15005C263FFF7001 none = .error (.reservedField 0) := by decide
theorem test_refuse_literal : dec 0 0x0100BFEFFFFF7000 (some 0x0000002800000001) = .error (.reservedField 1) := by decide
theorem test_refuse_k_destination : dec 0 0x15605C263FFF7000 none = .error (.illegalOperand 0 0x181) := by decide

/-! ## A word of every instruction, written out from the encoding tables (spec/04 R75, spec/06 R93 to R98) -/

theorem test_words_int_1 : ∀ p ∈ ([
    (0x00FFFFFFFFFF7000, .nop always),
    (0x0100803FFFFF7000, .mov always (ops (.v 2) (.v 3) .none .none)),
    (0x0200803607FF7000, .iadd always (ops (.v 2) (.v 3) (.k 1) .none)),
    (0x0300803607FF7000, .isub always (ops (.v 2) (.v 3) (.k 1) .none)),
    (0x0400803607FF7000, .imul always (ops (.v 2) (.v 3) (.k 1) .none)),
    (0x0500803013FF7001, .imulh always (ops (.v 2) (.v 3) (.v 4) .none) true),
    (0x0600803010057000, .imad always (ops (.v 2) (.v 3) (.v 4) (.v 5))),
    (0x0700803010067001, .imadw always (ops (.v 2) (.v 3) (.v 4) (.v 6)) true),
    (0x080080401BFF7000, .iadd64 always (ops (.v 2) (.v 4) (.v 6) .none)),
    (0x0901200005827000, .lea always (ops (.v 4) (.s 0) (.v 1) (.k 2))),
    (0x0A00803FFFFF7000, .ineg always (ops (.v 2) (.v 3) .none .none)),
    (0x0B00803FFFFF7000, .iabs always (ops (.v 2) (.v 3) .none .none)),
    (0x0C00803013FF7000, .imin always (ops (.v 2) (.v 3) (.v 4) .none) false),
    (0x0D00803013FF7001, .imax always (ops (.v 2) (.v 3) (.v 4) .none) true),
    (0x0E00803013FF7001, .idiv always (ops (.v 2) (.v 3) (.v 4) .none) true),
    (0x0F00803013FF7000, .irem always (ops (.v 2) (.v 3) (.v 4) .none) false),
    (0x1000803013FF7000, .shl always (ops (.v 2) (.v 3) (.v 4) .none)),
    (0x1100803013FF7001, .shr always (ops (.v 2) (.v 3) (.v 4) .none) true)] : List (W64 × Instr)),
    dec 0 p.1 none = .ok p.2 := by decide +kernel
theorem test_words_int_2 : ∀ p ∈ ([
    (0x1200803013FF7001, .rot always (ops (.v 2) (.v 3) (.v 4) .none) true),
    (0x13A0403013FF7000, .and always (ops (.p 1) (.v 3) (.v 4) .none)),
    (0x14A0403013FF7000, .or always (ops (.p 1) (.v 3) (.v 4) .none)),
    (0x15A0403013FF7000, .xor always (ops (.p 1) (.v 3) (.v 4) .none)),
    (0x16A0403013FF7000, .andn always (ops (.p 1) (.v 3) (.v 4) .none)),
    (0x1700803010057001, .bfe always (ops (.v 2) (.v 3) (.v 4) (.v 5)) true),
    (0x1800803010057000, .bfi always (ops (.v 2) (.v 3) (.v 4) (.v 5))),
    (0x1900803FFFFF7000, .popc always (ops (.v 2) (.v 3) .none .none)),
    (0x1A00803FFFFF7000, .clz always (ops (.v 2) (.v 3) .none .none)),
    (0x1B00803FFFFF7000, .brev always (ops (.v 2) (.v 3) .none .none)),
    (0x1C00803010057000, .bswz always (ops (.v 2) (.v 3) (.v 4) (.v 5))),
    (0x1DA0803013FF700D, .itest always (ops (.p 2) (.v 3) (.v 4) .none) true .ge),
    (0x1E00803012817000, .mux always (ops (.v 2) (.v 3) (.v 4) (.p 1))),
    (0x1FA0682A0FFF70E8, .plut always (ops (.p 1) (.p 2) (.p 3) .none) 0xE8)] : List (W64 × Instr)),
    dec 0 p.1 none = .ok p.2 := by decide +kernel
theorem test_words_float_1 : ∀ p ∈ ([
    (0x2000803013FF7000, .fadd always (ops (.v 2) (.v 3) (.v 4) .none) .rne),
    (0x2100803013FF7001, .fsub always (ops (.v 2) (.v 3) (.v 4) .none) .rz),
    (0x2200803013FF7002, .fmul always (ops (.v 2) (.v 3) (.v 4) .none) .ru),
    (0x2300803010057003, .ffma always (ops (.v 2) (.v 3) (.v 4) (.v 5)) .rd),
    (0x2400803013FF7001, .fmin always (ops (.v 2) (.v 3) (.v 4) .none) true),
    (0x2500803013FF7000, .fmax always (ops (.v 2) (.v 3) (.v 4) .none) false),
    (0x26A0403013FF700D, .ftest always (ops (.p 1) (.v 3) (.v 4) .none) .geu),
    (0x27A0403FFFFF7300, .fclass always (ops (.p 1) (.v 3) .none .none) 0x300),
    (0x2800803FFFFF7004, .frcp always (ops (.v 2) (.v 3) .none .none) .rna),
    (0x2900803FFFFF7005, .frsq always (ops (.v 2) (.v 3) .none .none) .rs),
    (0x2A00803FFFFF7007, .fsqrt always (ops (.v 2) (.v 3) .none .none) .mode),
    (0x2B00803FFFFF7000, .fexp2 always (ops (.v 2) (.v 3) .none .none) .rne),
    (0x2C00803FFFFF7001, .flog2 always (ops (.v 2) (.v 3) .none .none) .rz),
    (0x2D00803FFFFF7002, .fsinpi always (ops (.v 2) (.v 3) .none .none) .ru),
    (0x2E00803FFFFF7003, .fcospi always (ops (.v 2) (.v 3) .none .none) .rd),
    (0x3000803FFFFF7004, .frnd always (ops (.v 2) (.v 3) .none .none) .rna),
    (0x2F00803013FF7007, .fdiv always (ops (.v 2) (.v 3) (.v 4) .none) .mode),
    (0x3100803013FF7000, .fscale always (ops (.v 2) (.v 3) (.v 4) .none) .rne)] : List (W64 × Instr)),
    dec 0 p.1 none = .ok p.2 := by decide +kernel
theorem test_words_float_2 : ∀ p ∈ ([
    (0x3200803013FF7008, .hadd2 always (ops (.v 2) (.v 3) (.v 4) .none) true .rne),
    (0x3300803013FF7007, .hmul2 always (ops (.v 2) (.v 3) (.v 4) .none) false .mode),
    (0x340080301005700F, .hfma2 always (ops (.v 2) (.v 3) (.v 4) (.v 5)) true .mode),
    (0x3500803010057001, .hdot2 always (ops (.v 2) (.v 3) (.v 4) (.v 5)) false .rz),
    (0x3600804FFFFF7069, .cvt always (ops (.v 2) (.v 4) .none .none) .fp32 .fp64 .rz),
    (0x3700803FFFFF7517, .f2i always (ops (.v 2) (.v 3) .none .none) .int32 .fp16 .mode),
    (0x3800803FFFFF700F, .i2f always (ops (.v 2) (.v 3) .none .none) true .mode),
    (0x3900803013FF7018, .pack always (ops (.v 2) (.v 3) (.v 4) .none) .e4m3 .rne),
    (0x3A00803FFFFF72C8, .unpack always (ops (.v 2) (.v 3) .none .none) 5 .int4),
    (0x3B00803013FF70C7, .qnt always (ops (.v 2) (.v 3) (.v 4) .none) true .uint8 .mode),
    (0x3C00803013FF7038, .dqnt always (ops (.v 2) (.v 3) (.v 4) .none) false .int8 .rne),
    (0x3D00803013FF7000, .fabsmax always (ops (.v 2) (.v 3) (.v 4) .none))] : List (W64 × Instr)),
    dec 0 p.1 none = .ok p.2 := by decide +kernel
theorem test_words_exchange : ∀ p ∈ ([
    (0x3E00BFFFFFFF7013, .movsrRead always (ops (.v 2) .none .none .none) (.fault 0)),
    (0x3EFFC02FFFFF7104, .movsrWrite always (ops .none (.v 2) .none .none) .pondt),
    (0x3F00BFFFFFFF7000, .movpRead always (ops (.v 2) .none .none .none)),
    (0x3FFFC0200FFF7001, .movpWrite always (ops .none (.v 2) (.v 3) .none)),
    (0x4000803FFFFF7002, .qswap always (ops (.v 2) (.v 3) .none .none) .y),
    (0x4100803FFFFF7003, .qbcast always (ops (.v 2) (.v 3) .none .none) 3),
    (0x4200803604057001, .wshfl always (ops (.v 2) (.v 3) (.k 1) (.v 5)) .up),
    (0x43A0682FFFFF7003, .vote always (ops (.p 1) (.p 2) .none .none) .bal),
    (0x4400803FFFFF700A, .wred always (ops (.v 2) (.v 3) .none .none) .fmax),
    (0x4500803FFFFF7018, .wscan always (ops (.v 2) (.v 3) .none .none) true .fadd),
    (0x4600803FFC057000, .wmatch always (ops (.v 2) (.v 3) .none (.v 5))),
    (0x47A07FFFFFFF7000, .elect always (ops (.p 1) .none .none .none)),
    (0x4882403613FF7000, .v2s always (ops (.s 9) (.v 3) (.k 4) .none))] : List (W64 × Instr)),
    dec 0 p.1 none = .ok p.2 := by decide +kernel
theorem test_words_guarded : ∀ p ∈ ([
    (0x6090C04FFFFE7001, .gld always (ops (.g 3) (.v 4) .none .none) (-2) true),
    (0x6190E44FFFFF7000, .gmov always (ops (.g 3) (.g 4) .none .none)),
    (0x6290E44917FF7000, .gadd always (ops (.g 3) (.g 4) (.g 5) .none)),
    (0x6390E44917FF7000, .gsub always (ops (.g 3) (.g 4) (.g 5) .none)),
    (0x6490E44917FF7000, .gmul always (ops (.g 3) (.g 4) (.g 5) .none)),
    (0x6590E44FFFFF7000, .gneg always (ops (.g 3) (.g 4) .none .none)),
    (0x6690E44FFFFF7000, .gsqr always (ops (.g 3) (.g 4) .none .none)),
    (0x67A0682913FF7000, .gsgn always (ops (.p 1) (.p 2) (.g 4) .none)),
    (0x68A07FF912457000, .gcmp always (ops (.p 1) .none (.g 4) (.g 5))),
    (0x6900A44FFFFF7007, .gmid always (ops (.v 2) (.g 4) .none .none) .mode),
    (0x6A00A44FFFFF7000, .gbnd always (ops (.v 2) (.g 4) .none .none)),
    (0x6B90FFFFFFFF7000, .gsever always (ops (.g 3) .none .none .none)),
    (0x6C90FFFFFFFF7000, .gdrop always (ops (.g 3) .none .none .none)),
    (0x6D00BFFFFFFF7001, .gstat always (ops (.v 2) .none .none .none) true)] : List (W64 × Instr)),
    dec 1 p.1 none = .ok p.2 := by decide +kernel
theorem test_words_mem_1 : ∀ p ∈ ([
    (0x7002004FFC037141, .ld always (ops (.v 8) (.v 4) .none .none) 3 (some .block) .b64),
    (0x71FFC04023FF7483, .st always (ops .none (.v 4) (.v 8) .none) (-1) (some .device) .u8),
    (0x7200AC500FFF7006, .ldt always (ops (.v 2) (.t 5) (.v 3) .none) .s16),
    (0x73FFEC500C087002, .stt always (ops .none (.t 5) (.v 3) (.v 8)) .b128),
    (0x740080401BFF75C9, .atom always (ops (.v 2) (.v 4) (.v 6) .none) .system .acqrel false .fadd),
    (0x7500804018087450, .atomcas always (ops (.v 2) (.v 4) (.v 6) (.v 8)) .device .acq true),
    (0x76FFC0400D88740A, .red always (ops .none (.v 4) (.v 3) (.k 8)) .device false false .aq64),
    (0x77FFFFFFFFFF7300, .fence always (ops .none .none .none .none) .die),
    (0x78FFC1004BFF7102, .waitw always (ops .none (.v 16) (.v 18) .none) .block false .ge),
    (0x79B0E0802BFF720D, .copy always (ops (.t 3) (.s 8) (.v 10) .none) .cluster true true true),
    (0x7AB0E10030107108, .gather always (ops (.t 3) (.s 16) (.v 12) (.v 16)) .block true),
    (0x7BB0E08033FF7400, .scatter always (ops (.t 3) (.s 8) (.v 12) .none) .device false),
    (0x7CFFEC3004027005, .feed always (ops .none (.t 3) (.v 1) (.v 2)) true .b),
    (0x7DFFC04FFFF87001, .pref always (ops .none (.v 4) .none .none) (-8) true),
    (0x7EA06C7004027032, .talloc always (ops (.p 1) (.t 7) (.v 1) (.v 2)) .aq64 .cluster),
    (0x7FFFEC7FFFFF7000, .tfree always (ops .none (.t 7) .none .none)),
    (0x8000AC7FFFFF7000, .tinfo always (ops (.v 2) (.t 7) .none .none)),
    (0x8100AC7FFFFF7000, .ttag always (ops (.v 2) (.t 7) .none .none))] : List (W64 × Instr)),
    dec 2 p.1 none = .ok p.2 := by decide +kernel
theorem test_words_mem_2 : ∀ p ∈ ([
    (0x81FFEC700FFF7001, .ttagW always (ops .none (.t 7) (.v 3) .none)),
    (0x82FFC0400FFF7000, .flush always (ops .none (.v 4) (.v 3) .none))] : List (W64 × Instr)),
    dec 2 p.1 none = .ok p.2 := by decide +kernel
theorem test_words_mtx : ∀ p ∈ ([
    (0xA0FFC01008037000, .mxwin always (ops .none (.v 1) (.v 2) (.v 3))),
    (0xA1FFC0100BFF7000, .mxzero always (ops .none (.v 1) (.v 2) .none)),
    (0xA2FFC01FFFFF7083, .mma always (ops .none (.v 1) .none .none) .e4m3 .uint8),
    (0xA3FFC01FFFFF7299, .mmaq always (ops .none (.v 1) .none .none) .g64 .int4 .int4),
    (0xA40100100BFF7000, .mxld always (ops (.v 4) (.v 1) (.v 2) .none)),
    (0xA5FFC01008037000, .mxst always (ops .none (.v 1) (.v 2) (.v 3))),
    (0xA6B1402FFD867F8F, .mxdrain always (ops (.t 5) (.v 2) .none (.k 6)) none true true .bf16 .mode),
    (0xA7B06C2B0FFF7000, .tadd always (ops (.t 1) (.t 2) (.t 3) .none) .rne),
    (0xA8B06C200FFF7001, .tscale always (ops (.t 1) (.t 2) (.v 3) .none) .rz),
    (0xA9B06C2B0C047007, .taxpy always (ops (.t 1) (.t 2) (.t 3) (.v 4)) .mode),
    (0xAAB06C2FFFFF7027, .tact always (ops (.t 1) (.t 2) .none .none) .square .mode),
    (0xABB06C2B0FFF7005, .tmul always (ops (.t 1) (.t 2) (.t 3) .none) .rs),
    (0xACB06C2FFFFF7008, .trowred always (ops (.t 1) (.t 2) .none .none) true .rne),
    (0xADB06C2FFFFF7037, .hfwd always (ops (.t 1) (.t 2) .none .none) 5 .mode),
    (0xAEB06C2FFFFF7008, .hinv always (ops (.t 1) (.t 2) .none .none) 0 .rne),
    (0xAFB06C2FFFFF7002, .hthr always (ops (.t 1) (.t 2) .none .none) 2),
    (0xB0B06C200FFF7007, .tnorm always (ops (.t 1) (.t 2) (.v 3) .none) .mode),
    (0xB1B06C2FFFFF7048, .tcvt always (ops (.t 1) (.t 2) .none .none) .int4 .rne)] : List (W64 × Instr)),
    dec 3 p.1 none = .ok p.2 := by decide +kernel
theorem test_words_ctl : ∀ p ∈ ([
    (0xC0FFFFFFFFFD7001, .bra always (-3) true),
    (0xC1FFC04FFFFF7000, .brx always (ops .none (.v 4) .none .none) false),
    (0xC2FFC00123457000, .call always 0x12345),
    (0xC3FFE02FFFFF7000, .callx always (ops .none (.s 2) .none .none)),
    (0xC4FFFFFFFFFF7000, .ret always),
    (0xC5FFFFFFFFFF7000, .exit always),
    (0xC6FFC00000047000, .meet always 4),
    (0xC7FFFFFFFFFF700D, .bar always 3 .block),
    (0xC8023FFFFFF77007, .spawn always (-9) (.v 8) 3 true),
    (0xC9FFC10049B97111, .park always (ops .none (.v 16) (.v 18) (.k 57)) .block true .eq true),
    (0xCA017FFFFFFF7000, .fetcht always (ops (.v 5) .none .none .none)),
    (0xCBFFFFFFFFFF7ABC, .trap always 0xABC),
    (0xCCFFFFFFFFFF7001, .bkpt always 1)] : List (W64 × Instr)),
    dec 4 p.1 none = .ok p.2 := by decide +kernel
theorem test_words_sys : ∀ p ∈ ([
    (0xE0FFFFFFFFFF7000, .rtt always),
    (0xE1FFC04FFFFF7024, .srwr always (ops .none (.v 4) .none .none) .priv),
    (0xE2FFC04FFFFF7008, .tlbinv always (ops .none (.v 4) .none .none) .page1g),
    (0xE3FFC06FFFFF7031, .pcfg always (ops .none (.v 6) .none .none) true 17)] : List (W64 × Instr)),
    dec 5 p.1 none = .ok p.2 := by decide +kernel

/-! ## Witnesses: integers, floats -/

theorem witness_IntegerArithmetic :
    (Claims.arithRule (.iadd always (ops (.v 2) (.v 3) (.v 4) .none))).isSome = true ∧
    (Claims.arithRule (.idiv always (ops (.v 2) (.v 3) (.lit 0) .none) false)).isSome = true ∧
    (Claims.bitRule (.bfe always (ops (.v 2) (.v 3) (.v 4) (.v 5)) false)).isSome = true := ⟨rfl, rfl, rfl⟩

theorem witness_PairsAndSelection :
    (Claims.selectRule (.itest always (ops (.p 1) (.v 3) (.v 4) .none) true .lt)).isSome = true ∧
    (Claims.pairRule (.imadw always (ops (.v 2) (.v 3) (.v 4) (.v 6)) true)).isSome = true := ⟨rfl, rfl⟩

theorem witness_FloatValues :
    (FVal.fin true 0 0).isFin = true ∧ (FVal.fin true 3 (-1)).isFin = true ∧ (FVal.nan false true).isNan = true ∧
    (FVal.fin true 0 0).isZero = true ∧ (FVal.inf true).isInf = true ∧ (FVal.fin true 3 (-1)).isZero = false ∧
    ([FVal.fin true 0 0, .fin false 0 0] ≠ []) := by decide +kernel

/-- 5 × 2^0 on the grid of 2^1: between 2 and 3; 4 × 2^0: on the grid. -/
theorem witness_Rounding :
    (0 : Int) < 1 ∧ ((5 / 2 ^ ((1 : Int) - 0).toNat : Nat) : ℚ) ≠ (5 : ℚ) * (2 : ℚ) ^ ((0 : Int) - 1) ∧
    ((4 / 2 ^ ((1 : Int) - 0).toNat : Nat) : ℚ) = (4 : ℚ) * (2 : ℚ) ^ ((0 : Int) - 1) := by
  norm_num

/-- FP16 at 65,519 and at 65,520: the last value below the overflow, and the first of it; and at 2^−24 and 2^−14, tiny
and not. -/
theorem witness_RoundedResult :
    Fmt.eBits .fp16 ≠ 0 ∧ (65519 : Nat) ≠ 0 ∧ (decodeFmt .fp16 (Fmt.maxBits .fp16) = .fin false 2047 5) ∧
    (roundTo .rne 0 false 65519 0 5).1 = 2047 ∧ (roundTo .rne 0 false 65520 0 5).1 = 2048 ∧
    (roundTo .rne 0 false 1 (-24) (-34)).1 = 1024 ∧ (roundTo .rne 0 false 1 (-14) (-24)).1 = 1024 := by decide +kernel

theorem witness_FloatArithmetic :
    (Claims.fp32Rule (.ffma always (ops (.v 2) (.v 3) (.v 4) (.v 5)) .rs)).isSome = true ∧
    (Claims.packedRule (.hfma2 always (ops (.v 2) (.v 3) (.v 4) (.v 5)) true .mode)).isSome = true := ⟨rfl, rfl⟩

def someFloat : State := place (.fmin always (ops (.v 2) (.v 3) (.v 4) .none) false)

theorem witness_FloatMinMaxTestsAndScaling :
    (Claims.fp someFloat 0 (.lit 0x7FC00000)).isNan = true ∧ (Claims.fp someFloat 0 (.lit 0x7F800001)).isSig = true ∧
    (Claims.fp someFloat 0 (.lit 0x3F800000)).isNan = false ∧
    (Claims.fp someFloat 0 (.lit 0)).cmp (Claims.fp someFloat 0 (.lit 0x80000000)) = some 0 ∧
    Claims.fp someFloat 0 (.lit 0xFF800000) = .inf true ∧ Claims.fp someFloat 0 (.lit 0x40200000) = .fin false 10485760 (-22)
    := by decide +kernel

theorem witness_RealFunctions :
    Claims.functionSpecial .rcp (.fin true 0 0) = some (.inf true, 2) ∧
    (Claims.functionRule (.fexp2 always (ops (.v 2) (.v 3) .none .none) .mode)).isSome = true ∧
    (realFn .sqrt (Claims.fp someFloat 0 (.lit 0x40800000))).isSome = true := by decide +kernel

/-- FSINPI of 0.75 is of no fixed row; FEXP2 of −149 and FLOG2 of 2^−3 are; FEXP2 of −400 lies beyond the bound. -/
theorem witness_FunctionTable :
    Claims.functionSpecial .sinpi (.fin false 3 (-2)) = none ∧ (realFn .sqrt (.fin false 2 0)).isSome = true ∧
    Claims.FixedRow .exp2 (Claims.num (.fin true 149 0)) (2 ^ (-149 : Int)) ∧
    Claims.FixedRow .log2 (Claims.num (.fin false 1 (-3))) (-3 : Int) ∧
    Claims.FixedRow .sinpi (Claims.num (.fin false 2 0)) 0 ∧ 400 ≤ |Claims.num (.fin true 400 0)| ∧
    |Claims.num (.fin true 399 0)| < 400 := by
  refine ⟨by decide, by decide +kernel, ?_, ?_, ?_, ?_, ?_⟩
  · have h := Claims.FixedRow.exp2 (-149) (by decide)
    simpa [Claims.num] using h
  · have h := Claims.FixedRow.log2 (-3)
    simpa [Claims.num] using h
  · have h := Claims.FixedRow.sinpi 2
    simpa [Claims.num] using h
  · norm_num [Claims.num]
  · norm_num [Claims.num]

theorem witness_Quotients :
    (FVal.fin true 3 (-1)).isFin = true ∧ (FVal.fin true 3 (-1)).isZero = false ∧ (FVal.fin false 7 5).isZero = false ∧
    (2 ^ 300 - 1 : Int).natAbs < 2 ^ 300 ∧ (.inf true : FVal) ∈ [FVal.inf true, .fin false 1 0] ∧
    (.inf false : FVal) ∉ [FVal.inf true, .fin false 1 0] ∧ (∀ x ∈ [FVal.inf true, .fin false 1 0], ¬ x.isNan) ∧
    (∃ x ∈ [FVal.nan false true, .inf true], x.isNan) := by decide +kernel

theorem witness_Conversions :
    Claims.converts .e4m3 .fp32 = true ∧ Fmt.isInt .int8 = true ∧ Fmt.isInt .fp16 = false ∧
    (∀ l ∈ someFloat.exec always, -128 ≤ (someFloat.src l .int (.lit 0xFFFFFF80)).toInt ∧
      (someFloat.src l .int (.lit 0xFFFFFF80)).toInt ≤ 127) ∧
    someFloat.exec always = [0] ∧ ¬ (someFloat.src 0 .int (.lit 128)).toInt ≤ 127 := by decide +kernel

theorem witness_Quantisation :
    Claims.groupWordOk .int4 0x3C00000F ∧ ¬ Claims.groupWordOk .int4 0x3C000010 ∧ ¬ Claims.groupWordOk .uint8 0x3C000100 ∧
    someFloat.src 0 .int (.lit 0x3C00000F) = 0x3C00000F := by
  refine ⟨⟨by decide, fun _ => by decide⟩, fun h => absurd (h.2 rfl) (by decide), fun h => absurd h.1 (by decide), by decide⟩

/-! ## Witnesses: registers, special registers, exchanges -/

theorem witness_RegisterWrites :
    (place (.nop always)).group.served = [] ∧ (place (.nop always)).exec always = [0] ∧
    (place (.nop always)).exec ⟨false, 0⟩ = [] ∧ (place (.nop always)).exec ⟨true, 7⟩ = [] := by decide +kernel

def readKtrapv : Instr := .movsrRead always (ops (.v 2) .none .none .none) .ktrapv
def user (s : State) : State := lane0 (fun x => { x with priv := 0 }) s

theorem witness_PredicatesAndSpecialReads :
    Claims.mayTouch (place readKtrapv) .ktrapv ∧ Claims.mayTouch (user (place readKtrapv)) .mode := by
  refine ⟨fun _ l h => ?_, fun h => absurd h (by decide)⟩
  revert l; decide

def writePondt : Instr := .movsrWrite always (ops .none (.lit 65535) .none .none) .pondt

theorem witness_SpecialRegisterWrites :
    (∀ l ∈ (place writePondt).exec always,
      (place writePondt).checkSr l .pondt (Claims.srOperand (place writePondt) .pondt (.lit 65535) l) = none) ∧
    Claims.allPrivileged (place writePondt) ∧
    (place writePondt).checkSr 0 .trapv 0x0000FFFFFFFFFFF8 = none ∧
    ((0x0001000000000000 : W64).toNat / 2 ^ 48 ≠ 0) ∧ ((4 : W64).toNat % 8 ≠ 0) ∧
    (place writePondt).checkSr 0 .priv 0x1F01 = none ∧ (place writePondt).checkSr 0 .mode modeReset = none ∧
    (lane0 (fun x => { x with priv := 0x1400 }) (place writePondt)).checkSr 0 .poolmin 0 ≠ none := by
  refine ⟨by decide, ?_, by decide, by decide, by decide, by decide, by decide, by decide⟩
  intro l h; revert l; decide

def setCap (q : Fin 32) (m : W32) : Instr := .pcfg always (ops .none (.lit m) .none .none) true q

theorem witness_PrivilegeAndPools :
    Claims.privileged readKtrapv = true ∧ Claims.allUser (user (place readKtrapv)) ∧
    Claims.allPrivileged (place (setCap 19 4096)) ∧
    ((place (setCap 19 4096)).execThreads always).head? = some 0 ∧
    (place (setCap 19 4096)).poolMin 0 19 ≤ 4096 ∧
    (lane0 (fun x => { x with helper := true }) (place (setCap 19 4096))).execThreads always = [] := by
  refine ⟨rfl, ?_, ?_, by decide, by decide, by decide⟩ <;> intro l h <;> revert l <;> decide

/-- Values at the edge of what a register takes: 65,535 and 65,536 in SR.PONDT, RM 5 and 6 in SR.MODE, QSEL 19 and 20. -/
theorem witness_SpecialRegisterValues :
    (∀ l ∈ (place writePondt).exec always, Claims.accepted (place writePondt) l .pondt
      (Claims.srOperand (place writePondt) .pondt (.lit 65535) l)) ∧
    ¬ Claims.accepted (place writePondt) 0 .pondt 65536 ∧ Claims.mayTouch (place writePondt) .pondt ∧
    Claims.accepted (place writePondt) 0 .mode 5 ∧ ¬ Claims.accepted (place writePondt) 0 .mode 6 ∧
    Claims.accepted (lane0 (fun x => { x with priv := 0x1300 }) (place writePondt)) 0 .poolcap 4096 ∧
    ¬ Claims.accepted (lane0 (fun x => { x with priv := 0x1400 }) (place writePondt)) 0 .poolcap 4096 ∧
    Claims.accepted (place writePondt) 0 .lease 16 ∧ ¬ Claims.accepted (place writePondt) 0 .lease 15 ∧
    (Claims.refusedWith .trapv 4).code = 0x10 ∧ (Claims.refusedWith .trapv 0x0001000000000004).code = 0x05 := by
  unfold Claims.accepted Claims.refusedWith
  refine ⟨by decide +kernel, by decide +kernel, fun h => absurd h (by decide), ?_⟩
  decide +kernel

theorem witness_PoolConfiguration :
    Claims.allPrivileged (place (setCap 20 0)) ∧ ((place (setCap 20 0)).execThreads always).head? = some 0 ∧
    20 ≤ (20 : Fin 32).val ∧ (19 : Fin 32).val < 20 ∧
    ¬ ((place (setCap 19 4097)).src 0 .int (.lit 4097)).toNat ≤ 4096 := by
  refine ⟨?_, by decide, by decide, by decide, by decide⟩
  intro l h; revert l; decide

def vote : Instr := .vote always (ops (.v 2) (.v 3) .none .none) .bal
def voteMask (m : W32) : Instr := .vote always (ops (.v 2) (.v 3) .none (.lit m)) .bal

/-- Another lane of the warp stands ready before the clause. -/
def withReady (s : State) : State :=
  { s with lanes := tset s.lanes 1 { status := .idle, member := true, pc := 256 } }

/-- The first 64 KiB mapped, readable and writable. -/
def mapped (s : State) : State :=
  { s with tlb := [{ tlb := 0, capx := 0, page := 0, sizeLog := 16, leaf := 0x1B }] }

def load : Instr := .ld always (ops (.v 2) (.v 4) .none .none) 0 none .b32

/-- A lane besides the group's, at a clause's address and depth of CALLs, in some state. -/
def beside (st : LaneStatus) (pc : Addr48) : State :=
  { place load with lanes := tset (place load).lanes 1 { status := st, pc := pc } }

theorem witness_ExchangeStandings :
    (0 : Nat) ∈ (place load).group.lanes ∧ (1 : Nat) ∉ (place load).group.lanes ∧ tfind (place load).lanes 1 = none ∧
    tfind (beside .retired 256).lanes 1 = some { status := .retired, pc := 256 } ∧
    tfind (beside .dormant 256).lanes 1 = some { status := .dormant, pc := 256 } ∧
    (1023 - (0 : BitVec 10).toNat = 1023 - 0 ∧ (256 : Addr48).toNat ≤ (256 : Addr48).toNat) ∧
    ¬ (264 : Addr48).toNat ≤ (256 : Addr48).toNat ∧
    tfind (beside .idle 264).lanes 1 = some { status := .idle, pc := 264 } := by decide +kernel

theorem witness_Exchanges :
    (Claims.exchangeRule vote).isSome = true ∧ Claims.nothingAwaited (place vote) always (ops (.v 2) (.v 3) .none .none) ∧
    (∀ w ∈ warpsOf (withReady (place (voteMask 3))).group.lanes,
      (withReady (place (voteMask 3))).heldAt w 256 0 (Claims.groupDepth (withReady (place (voteMask 3)))) = []) ∧
    (∀ w ∈ warpsOf ((withReady (place (voteMask 3))).exec always), ∃ j < 32,
      (Claims.memberMask (withReady (place (voteMask 3))) always (ops (.v 2) (.v 3) .none (.lit 3)) w).getLsbD j ∧
      (withReady (place (voteMask 3))).standing (withReady (place (voteMask 3))).group.lanes
        (Claims.groupDepth (withReady (place (voteMask 3)))) 256 (w * 32 + j) = .awaited) := by
  refine ⟨rfl, ?_, by decide, by decide⟩
  unfold Claims.nothingAwaited; decide

/-! ## Witnesses: guarded reals, memory -/

/-- The launch has a log of 8,192 nodes. -/
def withLog (s : State) : State :=
  { s with launches := tset s.launches 0 { probeLaunch with record := probeLaunch.record ++ [8192] } }
/-- The log has given out all nodes but one. -/
def lastNode (s : State) : State := s.modBlock 0 fun b => { b with log := { next := 8191, live := 8190 } }

def gadd : Instr := .gadd always (ops (.g 0) (.g 1) (.g 2) .none)

theorem witness_GuardedArithmetic :
    (Claims.nodeRule gadd).isSome = true ∧
    (∀ l ∈ (lastNode (withLog (place gadd))).exec always,
      (lastNode (withLog (place gadd))).blockOf (coreOf l) ≠ none ∧
      ((lastNode (withLog (place gadd))).log (coreOf l)).next + 1 ≤ (lastNode (withLog (place gadd))).logLimit (coreOf l)) ∧
    (place gadd).exec always = [0] ∧ Claims.logFull (place gadd) 0 := by
  refine ⟨rfl, by decide, by decide, by unfold Claims.logFull; decide⟩

theorem witness_IntervalBounds :
    (⟨.fin true 1 0, .fin false 1 0⟩ : Interval).lo = .fin true 1 0 ∧ (⟨.inf true, .inf false⟩ : Interval).lo = .inf true ∧
    ({ lo := 0, hi := 0, handle := 1 } : GReg).handle ≠ 0 := by decide +kernel

theorem witness_GuardedEnclosure : Claims.encloses ⟨.fin true 1 0, .inf false⟩ (-1) := by
  refine ⟨Or.inr ⟨true, 1, 0, rfl, ?_⟩, Or.inl rfl⟩
  simp [Claims.num]

/-- A log of one leaf, the number 1. -/
def oneLeaf : Log := { next := 2, live := 1, nodes := [(1, { op := 1, ref := 1, val := 0x3F80000000000000 })] }

theorem witness_GeckoIsExact : Claims.finiteLeaves oneLeaf ∧ (oneLeaf.askedExact 1 none).isSome = true ∧
    oneLeaf.refine 1 none 5 = some (1, 1) := by
  refine ⟨fun h _ => ?_, by decide, by decide⟩
  by_cases h1 : h = 1
  · subst h1; exact ⟨_, _, _, rfl⟩
  · have : oneLeaf.node h = {} := by
      unfold Log.node
      simp [oneLeaf, tget, tfind, Ne.symm h1]
    rw [this]; exact ⟨_, _, _, rfl⟩

/-- 2^1023 squared six times, less 2^−1074: more than 65,536 bits. -/
def wideGraph : Log :=
  { next := 10, live := 9
    nodes := [(1, { op := 2, ref := 1, val := 0x7FE0000000000000 }), (2, { op := 7, a := 1 }), (3, { op := 7, a := 2 }),
              (4, { op := 7, a := 3 }), (5, { op := 7, a := 4 }), (6, { op := 7, a := 5 }), (7, { op := 7, a := 6 }),
              (8, { op := 2, ref := 1, val := 1 }), (9, { op := 4, a := 7, b := 8 })] }

theorem fits_pow (n : Int) : Claims.fits ((2 : ℚ) ^ n) := ⟨1, n, by simp, Nat.one_lt_two_pow (by norm_num)⟩

theorem denotes_unique {x : Log} {ok : ℚ → Prop} {h : Nat} {p q : ℚ} (hp : Claims.Denotes x ok h p) (hq : Claims.Denotes x ok h q) :
    p = q := by
  induction hp generalizing q with
  | null => cases hq <;> simp_all
  | leaf real is value => cases hq <;> simp_all [Claims.leafNode]
  | add real is _ _ _ l r => cases hq <;> simp_all [Claims.leafNode]; rw [l ‹_›, r ‹_›]
  | sub real is _ _ _ l r => cases hq <;> simp_all [Claims.leafNode]; rw [l ‹_›, r ‹_›]
  | mul real is _ _ _ l r => cases hq <;> simp_all [Claims.leafNode]; rw [l ‹_›, r ‹_›]
  | neg real is _ l => cases hq <;> simp_all [Claims.leafNode]; rw [l ‹_›]
  | sqr real is _ _ l => cases hq <;> simp_all [Claims.leafNode]; rw [l ‹_›]

theorem wide_squares : ∀ i : Nat, i < 7 → Claims.Denotes wideGraph Claims.fits (i + 1) ((2 : ℚ) ^ ((1023 * 2 ^ i : Nat) : Int)) := by
  intro i hi
  induction i with
  | zero =>
    have := Claims.Denotes.leaf (x := wideGraph) (ok := Claims.fits) (h := 1) (n := false) (m := 2 ^ 52) (e := 971) (by decide)
      (by unfold Claims.leafNode; decide) (by decide +kernel)
    convert this using 1
    simp only [Claims.num]
    rw [show (((1023 * 2 ^ 0 : Nat) : Int)) = 52 + 971 by norm_num, zpow_add₀ (by norm_num)]
    norm_num
  | succ i ih =>
    have e : ((2 : ℚ) ^ ((1023 * 2 ^ (i + 1) : Nat) : Int)) = ((2 : ℚ) ^ ((1023 * 2 ^ i : Nat) : Int)) ^ 2 := by
      rw [← zpow_natCast, ← zpow_mul]; congr 1; push_cast; ring
    have hn : (wideGraph.node (i + 2)).op = 7 ∧ (wideGraph.node (i + 2)).a = i + 1 := by
      have : i < 6 := by omega
      clear ih e hi; interval_cases i <;> decide
    rw [e]
    refine .sqr (by omega) hn.1 (by rw [hn.2]; exact ih (by omega)) ?_
    rw [← e]; exact fits_pow _

theorem wide_tiny : Claims.Denotes wideGraph Claims.fits 8 ((2 : ℚ) ^ (-1074 : Int)) := by
  have := Claims.Denotes.leaf (x := wideGraph) (ok := Claims.fits) (h := 8) (n := false) (m := 1) (e := -1074) (by decide)
      (by unfold Claims.leafNode; decide) (by decide +kernel)
  convert this using 1
  simp [Claims.num]

theorem not_fits (n : Nat) (b : Int) (hn : 65536 < n) : ¬ Claims.fits (((2 : ℚ) ^ n - 1) * (2 : ℚ) ^ b) := by
  rintro ⟨m, e, h, hm⟩
  have h : ((2 : ℚ) ^ n - 1) * (2 : ℚ) ^ (b - e) = m := by
    rw [zpow_sub₀ (by norm_num), ← mul_div_assoc, h]; exact mul_div_cancel_right₀ _ (by positivity)
  have big : (2 : ℤ) ^ 65536 ≤ 2 ^ n - 1 := by
    have := pow_le_pow_right₀ (show (1 : ℤ) ≤ 2 by norm_num) (show 65536 + 1 ≤ n by omega)
    rw [pow_succ] at this
    have := one_le_pow₀ (show (1 : ℤ) ≤ 2 by norm_num) (n := 65536)
    generalize (2 : ℤ) ^ 65536 = x at *
    omega
  have hm : |m| < 2 ^ 65536 := by rw [Int.abs_eq_natAbs]; exact_mod_cast hm
  rcases Int.eq_nat_or_neg (b - e) with ⟨k, hk | hk⟩
  · have : ((2 : ℤ) ^ n - 1) * 2 ^ k = m := by rw [hk, zpow_natCast] at h; exact_mod_cast h
    have one : (1 : ℤ) ≤ 2 ^ k := one_le_pow₀ (by norm_num)
    have pos : (0 : ℤ) ≤ 2 ^ n - 1 := le_trans (by positivity) big
    have : (2 : ℤ) ^ n - 1 ≤ m := by rw [← this]; exact le_mul_of_one_le_right pos one
    exact absurd hm (not_lt.2 (big.trans (this.trans (le_abs_self m))))
  · have : (2 : ℤ) ^ n - 1 = m * 2 ^ k := by
      rw [hk, zpow_neg, zpow_natCast, ← div_eq_mul_inv, div_eq_iff (by positivity)] at h; exact_mod_cast h
    rcases k with _ | k
    · rw [pow_zero, mul_one] at this
      exact absurd hm (not_lt.2 ((big.trans this.le).trans (le_abs_self m)))
    · obtain ⟨j, rfl⟩ := Nat.exists_eq_add_of_lt hn
      rw [pow_succ, pow_succ, ← mul_assoc] at this
      omega

theorem witness_GeckoIsExact_limit :
    Claims.finiteLeaves wideGraph ∧ Claims.Denotes wideGraph Claims.fits 7 ((2 : ℚ) ^ ((65472 : Nat) : Int)) ∧
    Claims.Denotes wideGraph Claims.fits 8 ((2 : ℚ) ^ (-1074 : Int)) ∧
    ¬ Claims.fits ((2 : ℚ) ^ ((65472 : Nat) : Int) - (2 : ℚ) ^ (-1074 : Int)) ∧
    ¬ ∃ v, Claims.Denotes wideGraph Claims.fits 9 v := by
  have wide : ¬ Claims.fits ((2 : ℚ) ^ ((65472 : Nat) : Int) - (2 : ℚ) ^ (-1074 : Int)) := by
    have := not_fits 66546 (-1074) (by norm_num)
    rwa [sub_mul, one_mul, ← zpow_natCast, ← zpow_add₀ (by norm_num), show ((66546 : Nat) : Int) + -1074 = ((65472 : Nat) : Int) by norm_num] at this
  refine ⟨?_, wide_squares 6 (by norm_num), wide_tiny, wide, ?_⟩
  · intro h leaf
    by_cases hh : h < 10
    · interval_cases h <;> exact ⟨_, _, _, rfl⟩
    · have : wideGraph.node h = {} := by
        unfold Log.node tget
        rw [show tfind wideGraph.nodes h = none from by
          simp [wideGraph, tfind]; iterate 9 rw [if_neg (by omega)]]
        rfl
      rw [this]; exact ⟨_, _, _, rfl⟩
  · rintro ⟨v, hv⟩
    cases hv with
    | sub real is left right ok =>
      rw [denotes_unique left (wide_squares 6 (by norm_num)), denotes_unique right wide_tiny] at ok
      exact wide ok
    | leaf real is _ => exact absurd is (by unfold Claims.leafNode; decide)
    | add real is => exact absurd is (by decide)
    | mul real is => exact absurd is (by decide)
    | neg real is => exact absurd is (by decide)
    | sqr real is => exact absurd is (by decide)

/-- Two spill nodes beside one of the chip, NEXT at the first of them; the log's page at address 0. -/
def spilling (s : State) : State :=
  ({ s with launches := tset s.launches 0 { probeLaunch with record := probeLaunch.record ++ [0x20001] } } : State).modBlock 0
    fun b => { b with log := { next := 1, live := 0 } }

theorem witness_IntervalBounds_infinite :
    Claims.apart (.inf true) (.inf false) ∧ (∀ x ∈ [FVal.inf true, .inf false, .fin false 1 0, .inf false], Claims.isNumber x) ∧
    ¬ Claims.apart (.inf true) (.fin false 1 0) ∧ ¬ Claims.apart (.inf false) (.inf false) ∧
    (∃ x ∈ [FVal.inf true, .fin false 0 0], ∃ y ∈ [FVal.fin false 1 0, .inf false], x.isInf ∧ y.isZero ∨ x.isZero ∧ y.isInf) := by
  refine ⟨⟨true, rfl, rfl⟩, ?_, ?_, ?_, ?_⟩
  · unfold Claims.isNumber; decide
  · rintro ⟨n, h, h'⟩; cases h'
  · rintro ⟨n, h, h'⟩; cases h; cases h'
  · decide

theorem witness_LogStorage :
    Claims.noSpill (place gadd) 0 ∧ (place gadd).launchOf 0 = some probeLaunch ∧
    (spilling (mapped (place gadd))).exec always = [0] ∧ Claims.roomFor (spilling (mapped (place gadd))) 0 1 ∧
    (spilling (mapped (place gadd))).nodeMapped 0 (Claims.nextHandle (spilling (mapped (place gadd))) 0) = true ∧
    (spilling (mapped (place gadd))).spilled 0 1 = true ∧
    ¬ Claims.logFull (spilling (place gadd)) 0 ∧
    (spilling (place gadd)).nodeMapped 0 (Claims.nextHandle (spilling (place gadd)) 0) = false := by
  unfold Claims.noSpill Claims.roomFor Claims.logFull
  refine ⟨?_, by decide, by decide +kernel, by decide +kernel, by decide +kernel, by decide +kernel, by decide +kernel,
    by decide +kernel⟩
  intro x h
  have hx : (place gadd).launchOf (coreOf 0) = some probeLaunch := by decide
  rw [hx] at h; cases h; decide

theorem witness_SignsAndSevering :
    ((place gadd).exec always).Nodup ∧
    (∀ l ∈ (lastNode (withLog (place gadd))).exec always,
      (lastNode (withLog (place gadd))).blockOf (coreOf l) ≠ none) ∧
    (⟨.fin false 1 0, .fin false 2 0⟩ : Interval).decide = some 1 := by decide +kernel

def store : Instr := .st always (ops .none (.v 4) (.v 2) .none) 0 (some .device) .b32
def gload : Instr := .gld always (ops (.g 1) (.v 4) .none .none) 0 false

/-- GT is past every time by 2. -/
def late (s : State) : State := { s with gt := 2 }

theorem witness_MemoryAccesses :
    (Claims.accessOf (mapped (place load)) load).isSome = true ∧
    (Claims.accessOf (mapped (place store)) store).map (·.lanes) = some [0] ∧
    Claims.mayIssue (mapped (place load)) [0] [0] 1 none ∧ Claims.mayIssue (late (mapped (place store))) [0] [1] 1 (some .device) ∧
    (((mapped (place gload)).laneVa 0 .read 4 0).isLeft = true) ∧
    Claims.mayIssue (mapped (withLog (place gload))) [0] [0] 1 none ∧ (withLog (place gload)).blockOf 0 ≠ none ∧
    ((withLog (place gload)).log 0).next + 1 ≤ (withLog (place gload)).logLimit 0 ∧
    ((withLog (place gload)).log 0).live + 1 < (withLog (place gload)).logLimit 0 := by
  refine ⟨rfl, by decide, ⟨by decide, by decide, ?_⟩, ⟨by decide, by decide, ?_⟩, by decide,
    ⟨by decide, by decide, ?_⟩, by decide, by decide, by decide⟩
  · intro sc h; cases h
  · intro sc h; cases h; exact Or.inr (by decide)
  · intro sc h; cases h

theorem witness_AddressChecks : (16 : Nat) ∈ [1, 2, 4, 8, 16] ∧
    ((mapped (place load)).checkVa 0 0 .read 4 0xFFFC).isLeft = true ∧
    ((mapped (place load)).checkVa 0 0 .read 4 0x0100000000000000).isLeft = false := by decide +kernel

def anOp (k : MemKind) (pa n : Nat) (data : List Byte) : MemOp :=
  { id := 0, ins := 0, kind := k, lane := 0, warp := 0, core := 0, launch := 0, pa := pa, n := n, data := data }
/-- An operation in flight. -/
def flying (o : MemOp) : State := { mapped (place load) with ops := [o], nextId := 1 }
def aLoad : MemOp := anOp (.load (.v 2) .b32 none) 252 4 []
def aStore : MemOp := anOp .store 252 4 [1, 2, 3, 4]
def anAtom : MemOp := anOp (.atom .iadd false (some (.v 2)) none 1 0) 252 4 []
def aCas : MemOp := anOp (.cas false (.v 2) none 0 1) 252 4 []
def anAq : MemOp := anOp (.atom .aq64 false none none 0x3F800000 0) 240 16 []

theorem witness_LoadsReturn :
    (flying aLoad).op 0 = some aLoad ∧ aLoad.returned = false ∧ (flying aLoad).loadReady aLoad = true ∧
    (flying aLoad).upsets = [] ∧ aLoad.writes = true ∧ ((flying aLoad).lane 0).status ≠ .retired ∧ aLoad.warp = warpOf 0 ∧
    252 + 4 ≤ Config.hbmBytes ∧ 252 % 256 + 4 ≤ 256 := by decide +kernel

theorem witness_WritesPerformed :
    (flying aStore).op 0 = some aStore ∧ aStore.performed = false ∧ (flying aStore).storeReady aStore = true ∧
    isMemory aStore.pa = true ∧
    (flying { aStore with performed := true }).op 0 = some { aStore with performed := true } ∧
    (∃ l ∈ (flying aStore).warpLanes 0, ((flying aStore).lane l).status ≠ .retired) ∧
    (flying anAtom).recalled 0 0 252 = false ∧ (flying anAtom).behind 0 0 252 4 (fun _ => true) = false ∧
    anAtom.n = 4 ∧ aCas.n = 4 ∧ anAq.n = 16 ∧ isMemory anAq.pa = true := by decide +kernel

theorem witness_AtomicsPerformed :
    ((flying anAtom).ops.map (·.id)).Nodup ∧ (flying anAtom).op 0 = some anAtom ∧ Claims.isAtomic anAtom.kind = true ∧
    anAtom.performed = false ∧ (flying anAtom).upsets = [] ∧ Claims.groupFree (flying anAtom) anAtom ∧
    ∀ p ∈ Claims.members (flying anAtom) anAtom, Claims.isAtomic p.kind = true := by
  unfold Claims.groupFree
  decide +kernel

def fence : Instr := .fence always (ops .none .none .none .none) .device
def waitEq (v : W32) : Instr := .waitw always (ops .none (.v 4) (.lit v) .none) .block false .eq

/-- The first page mapped to die 0's window. -/
def windowed (s : State) : State :=
  { s with tlb := [{ tlb := 0, capx := 0, page := 0, sizeLog := 16, leaf := 0x10000000001B }] }

theorem witness_FencesWaitsAndPrefetches :
    Claims.mayIssue (late (place fence)) [0] [] 0 (some .device) ∧ (windowed (place (waitEq 0))).lastSlot (ops .none (.v 4) (.lit 0) .none) ∧
    (∀ l ∈ (windowed (place (waitEq 0))).execThreads always, (windowed (place (waitEq 0))).acquireFree (warpOf l) = true) ∧
    (windowed (place (waitEq 0))).waitWord 0 (ops .none (.v 4) (.lit 0) .none) false = .inl (.mem 0x100000000000) ∧
    (windowed (place (waitEq 0))).wordHeld 0 false (.mem 0x100000000000) = false ∧ Claims.waitHolds .eq 0 0 ∧ ¬ Claims.waitHolds .eq 0 1 := by
  refine ⟨⟨by decide, by decide, ?_⟩, by decide, by decide, by decide, by decide, rfl, by unfold Claims.waitHolds; decide⟩
  intro sc h; cases h; exact Or.inr (by decide)

/-! ## Witnesses: tiles, copies, the matrix engine -/

/-- Tile 5 of core 0, one row of eight FP32 elements, and a layout record of such a row at S0. -/
def tiled (s : State) : State :=
  { s with tiles := [(5, { rows := 1, cols := 8 }), (6, { rows := 1, cols := 8, base := 1 })],
           warps := tset s.warps 0 { s := [(4, 8), (17, 8)], acwin := 0x08000000 } }

def copy : Instr := .copy always (ops (.t 5) (.s 0) (.v 10) .none) .block false false false
def copied : State := tiled (place copy)

theorem witness_CopyCommands :
    (Claims.copyRule copy).isSome = true ∧ (copied.execThreads always).Pairwise (· < ·) ∧
    Claims.perWarpLanes copied always = [0] ∧ (copied.warp 0).counter 3 + 1 ≤ 1023 ∧ copied.acquireFree 0 = true ∧
    Claims.poolRoom copied 0 17 1 ∧
    ∃ ly org list n rows k done, Claims.CopyChecked copied 0 .load (ops (.t 5) (.s 0) (.v 10) .none) .block false ly org list n
      rows k done := by
  refine ⟨rfl, by decide, by decide, by decide, by decide, by unfold Claims.poolRoom; decide, ?_⟩
  exact ⟨recFields (copied.srcRun 0 24 (.s 0)), [0], 0, 0, 1, 5, none, by decide, by decide, by decide,
    ⟨by decide, by decide, by decide⟩, ⟨by decide, by decide⟩, by decide, fun p _ pa _ x hx => by cases hx⟩

def tadd : Instr := .tadd always (ops (.t 5) (.t 5) (.t 6) .none) .mode
def mma : Instr := .mma always (ops .none (.lit 1984) .none .none) .bf16 .bf16
def drain : Instr := .mxdrain always (ops (.t 7) (.lit 2047) .none .none) none false false .fp32 .mode
def feed : Instr := .feed always (ops .none (.t 5) (.lit 0) (.lit 1)) false .a
/-- Tile 7, one row of the accumulators. -/
def drained : State := { tiled (place drain) with tiles := [(7, { rows := 1, cols := 64 })] }

theorem witness_EngineCommands :
    (Claims.tileRule (tiled (place tadd)) 0 tadd).isSome = true ∧
    (tiled (place tadd)).tileBound 0 5 = some 5 ∧ (tiled (place tadd)).tileBound 0 6 = some 6 ∧
    Claims.tilesFit .add ((tiled (place tadd)).tile 5) ((tiled (place tadd)).tile 5) (some ((tiled (place tadd)).tile 6)) ∧
    Claims.inWindow (tiled (place mma)) 0 1984 64 ∧
    ((tiled (place mma)).pair 0).queue.length + 1 ≤ 32 ∧ ((tiled (place mma)).warp 0).mxc + 1 ≤ 1023 ∧
    (∃ first n dest hw, Claims.DrainChecked drained 0 (ops (.t 7) (.lit 2047) .none .none) none false .fp32 first n dest hw) ∧
    (∃ k first n, Claims.FeedChecked (tiled (place feed)) 0 (ops .none (.t 5) (.lit 0) (.lit 1)) false .a k first n) ∧
    (tiled (place feed)).fifoUsed 0 0 .a + Claims.appended ((tiled (place feed)).tile 5) false 1
      ≤ 2 * (tiled (place feed)).fifoBytes 0 .a := by
  refine ⟨rfl, by decide, by decide, ?_, ?_, by decide, by decide, ?_, ?_, by decide⟩
  · unfold Claims.tilesFit; decide
  · unfold Claims.inWindow; decide
  · refine ⟨2047, 1, .tile 7, none, by decide, by decide, ?_, by decide, fun h => absurd rfl h, rfl, ?_⟩
    · unfold Claims.inWindow; decide
    · exact ⟨7, by decide, by decide, by decide, by decide, rfl⟩
  · exact ⟨5, 0, 1, by decide, by decide, by decide, by decide, fun h => absurd h (by decide)⟩

def zero (a n : W32) : Instr := .mxzero always (ops .none (.lit a) (.lit n) .none)
def element (r : W32) : Instr := .mxld always (ops (.v 2) (.lit r) (.lit 63) .none)

theorem witness_Accumulators :
    (tiled (place (zero 0 2048))).execThreads always = [0] ∧ Claims.inWindow (tiled (place (zero 0 2048))) 0 0 2048 ∧
    (tiled (place (zero 0 2048))).mmaMeets 0 0 0 2048 = false ∧ (tiled (place (zero 0 2048))).drainMeets 0 0 2048 = false ∧
    Claims.inWindow (tiled (place (element 2047))) 0 2047 1 ∧ (tiled (place (element 2047))).mmaMeets 0 0 2047 1 = false ∧
    (place (element 0)).exec always = [0] ∧ ((place (element 0)).lane 0).helper = false ∧
    ¬ Claims.inWindow (place (element 0)) 0 0 1 ∧ 0 ≠ (place (element 0)).leader 0 * 4096 + 1 := by
  unfold Claims.inWindow; decide

def retiring : MmaRun :=
  { op := { id := 0, org := { lane := 0, warp := 0, core := 0, launch := 0, pc := 256, slot := 0, cls := 3, word := 0,
                              mode := modeReset, seed := 0, gtid := 0, rsctr := 0 },
            fa := .uint8, fb := .int8, grp := some .g32, row := 1984, stream := 0 },
    a := [], b := [] }

theorem witness_MatrixProducts :
    let s : State := { place mma with pairs := [(0, { arrays := [retiring] })] }
    (s.pair 0).arrays = retiring :: [] ∧ s.upsets = [] := by decide +kernel

def talloc (b c : W32) : Instr := .talloc always (ops (.v 2) (.t 5) (.lit b) (.lit c)) .fp32 .core
def tagged (v : W32) : Instr := .ttagW always (ops .none (.t 5) (.lit v) .none)

theorem witness_TileTable :
    ((place (talloc 1024 112)).execThreads always).head? = some 0 ∧
    (place (talloc 1024 112)).src 0 .int (.lit 1024) = 1024 ∧ ((1024 * 112 * elemNibbles .fp32 + 1) / 2 + 511) / 512 ≤ 896 ∧
    ¬ ((1024 * 113 * elemNibbles .fp32 + 1) / 2 + 511) / 512 ≤ 896 ∧
    (tiled (place (talloc 1 8))).tileBound 0 5 ≠ none ∧ (place (talloc 1 8)).tileEntry 0 5 = none ∧
    (∀ w ∈ warpsOf ((place (talloc 1 8)).exec always), ((place (talloc 1 8)).warp w).tlc < 1023) ∧
    (place (tagged 1)).tileBound 0 5 = none ∧ (tiled (place (tagged 1))).tileBound 0 5 = some 5 ∧
    ((tiled (place (tagged 1))).tile 5).clearing = false ∧ ((tiled (place (tagged 1))).tile 5).engine = false ∧
    (1 : Nat) < 128 ∧ ¬ (128 : Nat) < 128 ∧ ¬ 2 ^ (72 / 8 % 8) ∣ ((tiled (place (tagged 72))).tile 5).rows ∧
    (place (tagged 1)).exec always = [0] := by decide +kernel

/-- A launch with a tile budget of 448 KiB on each core. -/
def budget (s : State) : State :=
  { s with launches := tset s.launches 0 { probeLaunch with record :=
      [0, BitVec.ofNat 64 (448 * 2 ^ 40 + 64 * 2 ^ 32 + 64 * 2 ^ 25 + 384 * 2 ^ 16 + 1)] } }

theorem witness_TilePlacement : (budget (tiled (place mma))).placeTile .core 0 894 = some 2 ∧
    (budget (tiled (place mma))).placeTile .core 0 895 = none := by decide +kernel

/-! ## Witnesses: control, exceptions, issue -/

def branch : Instr := .bra always 0x3FFFFFE0 false          -- 32 doublewords back from 256: address 0

/-- The clause has one more slot after the current one. -/
def early (s : State) : State := s.modGroup fun g => { g with header := g.header + 0x0010000000000000 }

theorem witness_Branches :
    (Claims.branchRule (place branch) branch).isSome = true ∧ Claims.inLastSlot (place branch) ∧
    (Claims.offsetTo (place branch) 0x3FFFFFE0) = .inl 0 ∧ (Claims.offsetTo (place branch) 0x3FFFFFDF).isLeft = false ∧
    (Claims.pairTo 0x0000FFFFFFFFFFF8).isLeft = true ∧ (Claims.pairTo 0x0001000000000000).isLeft = false ∧
    (Claims.pairTo 4).isLeft = false ∧ Claims.lastOnly branch = true ∧ ¬ Claims.inLastSlot (early (place branch)) ∧
    (∀ l ∈ (early (place branch)).group.lanes, ((early (place branch)).lane l).priv.getLsbD 0 = true) ∧
    (early (place branch)).lastSlot (ops .none (.v 4) (.v 6) .none) = false ∧
    (early (place branch)).lastSlot (ops .none (.v 4) (.lit 0) .none) = true := by
  unfold Claims.inLastSlot; decide +kernel

def aCall : Instr := .call always 32
def aRet : Instr := .ret always
/-- A lane inside `n` calls. -/
def inCalls (n : Nat) (s : State) : State :=
  lane0 (fun x => { x with depth := BitVec.ofNat 10 n, stack := List.replicate (min n 16) 512 }) s

theorem witness_CallsReturnsAndExits :
    (Claims.callRule (place aCall) aCall).isSome = true ∧ Claims.inLastSlot (place aCall) ∧ ((place aCall).exec always).Nodup ∧
    (∀ l ∈ (inCalls 15 (place aCall)).exec always, ((inCalls 15 (place aCall)).lane l).depth ≠ 1023 ∧
      ((inCalls 15 (place aCall)).lane l).stack.length < 16) ∧
    (∀ l ∈ (inCalls 1 (place aRet)).exec always, ((inCalls 1 (place aRet)).lane l).depth ≠ 0 ∧
      ((inCalls 1 (place aRet)).lane l).stack ≠ []) ∧
    (inCalls 1023 (place aCall)).exec always = [0] ∧ ((inCalls 1023 (place aCall)).lane 0).depth = 1023 ∧
    ((place aRet).lane 0).depth = 0 ∧ (place aRet).exec always = [0] ∧
    ((inCalls 16 (mapped (place aCall))).lane 0).stack.length = 16 ∧
    (inCalls 16 (mapped (place aCall))).laneVa 0 .write 8 0 = .inl 0 ∧
    (inCalls 16 (mapped (place aCall))).stackHeld 0 0 = false ∧ isMemory 0 = true ∧
    (∀ x ∈ (place (.exit always)).quadLanes 0, ((place (.exit always)).lane x).helper = false →
      x ∈ (place (.exit always)).exec always) ∧
    (∃ x ∈ (withReady (place (.exit always))).quadLanes 0, x ∉ (withReady (place (.exit always))).exec always) := by
  refine ⟨rfl, by unfold Claims.inLastSlot; decide, ?_⟩
  decide +kernel

def barrier (level : BarLevel) : Instr := .bar always 0 level
/-- The lane is a member, GT is late. -/
def atBarrier : State := late (place (barrier .block))

/-- A lane inside one call whose stack is empty: RET reads the doubleword at address 0. -/
def refilling : State := lane0 (fun x => { x with depth := 1, stack := [] }) (windowed (place aRet))

theorem witness_CallsAndReturns_refill :
    Claims.inLastSlot refilling ∧ refilling.exec always = [0] ∧ (refilling.lane 0).depth ≠ 0 ∧ (refilling.lane 0).stack = [] ∧
    refilling.laneVa 0 .read 8 ((refilling.lane 0).rsb + BitVec.ofNat 64 (8 * ((refilling.lane 0).depth.toNat - 1)))
      = .inl 0x100000000000 ∧
    refilling.stackHeld 0 0x100000000000 = false ∧ (refilling.readAs (coreOf 0) (warpOf 0) refilling.nextId 0x100000000000 8).2.awaits = [] ∧
    leNat (refilling.readAs (coreOf 0) (warpOf 0) refilling.nextId 0x100000000000 8).2.bytes % 8 = 0 ∧
    leNat (({ refilling with mem := [(0x100000000000, 4)] } : State).readAs (coreOf 0) (warpOf 0) refilling.nextId 0x100000000000 8).2.bytes % 8 = 4 := by
  unfold Claims.inLastSlot; decide +kernel

/-- The block's barrier with every member arrived. -/
def barFull : State := { atBarrier with launches := [(0, { probeLaunch with bars := [(atBarrier.barOf 0 .block 0, { arrived := [0] })] })] }

theorem witness_MeetingsAndBarriers :
    Claims.inLastSlot atBarrier ∧ (atBarrier.core 0).launch = some 0 ∧ tfind atBarrier.launches 0 = some probeLaunch ∧
    Claims.mayIssue atBarrier (warpsOf (Claims.barMembers atBarrier always)) [] 0 (some (barScope .block)) ∧
    Claims.barMembers atBarrier always = [0] ∧ 0 ∈ atBarrier.barLanes 0 (atBarrier.barOf 0 .block 0) ∧
    ¬ Claims.allArrived atBarrier 0 (atBarrier.barOf 0 .block 0) ∧ Claims.allArrived barFull 0 (atBarrier.barOf 0 .block 0) ∧
    0 < 2 ^ 25 ∧ atBarrier.leader (coreOf 0) < 2 ^ 20 ∧ (0x3FFFFFE0 : BitVec 30) ≠ 0 ∧ (0x3FFFFFDF : BitVec 30) ≠ 0 ∧
    Claims.offsetTo (place branch) 0x3FFFFFE0 = .inl 0 ∧ (Claims.offsetTo (place branch) 0x3FFFFFDF).isLeft = false ∧
    (256 : Addr48) ≠ 0 ∧ 0 ∈ (beside .idle 256).warpLanes 0 ∧ (1 : Nat) ∈ (beside .idle 256).warpLanes 0 := by
  refine ⟨by unfold Claims.inLastSlot; decide, by decide, by decide, ⟨by decide, by decide, ?_⟩, ?_⟩
  · intro sc h; cases h; exact Or.inr (by decide)
  · unfold Claims.allArrived; decide +kernel

def fetch : Instr := .fetcht always (ops (.v 2) .none .none .none)
def dispensing : Launch := { probeLaunch with disp := [(0, 1)] }

/-- Two dies' ranges, die 0's own empty, under order DIE. -/
def dispensingDie : Launch :=
  { dispensing with record := [0, BitVec.ofNat 64 (3 * 2 ^ 52)], cores := [0, 192], disp := [(1, 1), (1, 2)] }

theorem witness_FetchedItems :
    (place fetch).curCore = 0 ∧ ((place fetch).core 0).launch = some 0 ∧ tfind (place fetch).launches 0 = some probeLaunch ∧
    isSReg (.v 2) = false ∧ ((place fetch).exec always).Nodup ∧ (dispensing.take 0).isSome = true ∧ probeLaunch.take 0 = none ∧
    dispensing.order = 0 ∧ dispensingDie.order = 3 ∧ dispensingDie.dies = [0, 1] ∧
    (dispensingDie.take 0).map (·.1) = some 1 ∧ (dispensing.disp.getD 0 (0, 0)).1 < (dispensing.disp.getD 0 (0, 0)).2 ∧
    (dispensingDie.disp.getD 0 (0, 0)).2 ≤ (dispensingDie.disp.getD 0 (0, 0)).1 ∧
    ({ dispensing with record := [0, BitVec.ofNat 64 (2 ^ 52)] } : Launch).order = 1 ∧
    (2 : Nat) < 2 ^ 32 ∧ (0 : Nat) < 3 ∧ 3 < 2 * 2 := by decide +kernel

def spawned : Instr := .spawn always 32 (.v 8) 8 true

theorem witness_Spawning :
    Claims.offsetTo (place spawned) 32 = .inl 512 ∧
    ∀ l ∈ (place spawned).execThreads always, ∃ b, ((place spawned).core (coreOf l)).binFor 512 = some b ∧
      ((tfind ((place spawned).core (coreOf l)).bins b).map fun x => x.threads.length).getD 0 +
        ((place spawned).exec always).length ≤ 32 ∧
      Claims.poolRoom (place spawned) (coreOf l) b ((place spawned).exec always).length := by
  refine ⟨by decide, fun l h => ?_⟩
  have : l = 0 := by revert l; decide
  subst this
  exact ⟨0, by decide, by decide, by unfold Claims.poolRoom; decide⟩

def park : Instr := .park always (ops .none (.v 4) (.v 6) (.lit 0xFFFF)) .block true .eq true
/-- A pool of one record at address 128. -/
def pooled (s : State) : State :=
  { s with launches := tset s.launches 0 { probeLaunch with record := probeLaunch.record ++ [0, 0, 128, 1] } }

theorem witness_FetchedItems_disjoint :
    dispensingDie.disp.Pairwise (fun a b => ∀ k, ¬ (a.1 ≤ k ∧ k < a.2 ∧ b.1 ≤ k ∧ k < b.2)) := by
  refine List.Pairwise.cons ?_ (List.Pairwise.cons (by simp) .nil)
  intro b hb k h
  simp at hb; subst hb; omega

theorem witness_Parking :
    (place park).lastSlot (ops .none (.v 4) (.v 6) (.lit 0xFFFF)) = true ∧ (place park).exec always = [0] ∧
    ((place park).lane 0).helper = false ∧ ((place park).core 0).launch = some 0 ∧ (place park).curCore = 0 ∧
    ((inCalls 1 (place park)).lane 0).depth ≠ 0 ∧ (inCalls 1 (place park)).acquireFree 0 = true ∧
    (mapped (place park)).laneVa 0 .read 8 0 = .inl 0 ∧ probeLaunch.freeRecord = none ∧
    (late (pooled (mapped (place park)))).releaseReady 0 .block 0 = true ∧
    (tfind (pooled (mapped (place park))).launches 0).bind Launch.freeRecord = some 0 ∧
    (pooled (mapped (place park))).checkVa 0 0 (.sys true) 1 128 = .inl 128 ∧ isMemory 128 = true ∧
    (∀ j ∈ (place park).quadLanes 0, ((place park).lane j).runFaults = []) := by decide +kernel

theorem witness_Parking_noSpill : Claims.noSpill (late (pooled (mapped (place park)))) 0 := by
  unfold Claims.noSpill
  intro x h
  have hx : (late (pooled (mapped (place park)))).launchOf (coreOf 0)
    = some { probeLaunch with record := probeLaunch.record ++ [0, 0, 128, 1] } := by decide +kernel
  rw [hx] at h; cases h; decide

theorem witness_Exceptions :
    ((place branch).lane 0).helper = false ∧ ((place branch).lane 0).hmode = .normal ∧
    (lane0 (fun x => { x with helper := true }) (place branch)).lane 0 ≠ (place branch).lane 0 ∧
    ((place branch).modWarp 0 fun w => { w with trapv := 0x1000 }).warp 0 ≠ {} ∧
    (((place branch).modCore 0 fun k => { k with ktrapv := 0x2000 }).core 0).ktrapv ≠ 0 ∧
    ((place branch).core 0).ktrapv = 0 ∧ (0x21 : BitVec 8) ≠ 0xF0 ∧ (0x21 : BitVec 8) ≠ 0x11 := by decide +kernel

def rtt : Instr := .rtt always
def handling (s : State) : State := lane0 (fun x => { x with hmode := .kernel, f0 := 0x3012000000001000 }) s

theorem witness_ReturnsAndTlb :
    Claims.inLastSlot (handling (place rtt)) ∧ ((handling (place rtt)).exec always).Nodup ∧
    (∀ l ∈ (handling (place rtt)).group.lanes, ((handling (place rtt)).lane l).priv.getLsbD 0 = true) ∧
    (∀ l ∈ (handling (place rtt)).exec always, ((handling (place rtt)).lane l).hmode ≠ .normal) ∧
    (place rtt).group.lanes = [0] ∧ (place rtt).exec always = [0] ∧ ((place rtt).lane 0).hmode = .normal ∧
    ((user (place rtt)).lane 0).priv.getLsbD 0 = false ∧
    Claims.allPrivileged (place (.tlbinv always (ops .none .none .none .none) .all)) := by
  refine ⟨by unfold Claims.inLastSlot; decide, by decide, by decide, by decide, by decide, by decide, by decide, by decide,
    fun l h => ?_⟩
  revert l; decide

/-! ## Witnesses: other agents' steps -/

def leased (e : Nat) : State := { place load with copies := [{ cache := .l1 0, line := 1, leaseEnd := e }], gt := 5 }
def aFlush : MemOp := anOp (.flush [(0, 256)]) 0 0 []
def watch : Watch := { word := .mem 0x100000000000, w64 := false, cmp := .eq, value := 0, scope := .block, next := 272 }
def asleep (watched : Bool) (w : Watch) : State := lane0 (fun x => { x with status := .asleepWaitw watched w }) (place (waitEq 0))
def stalled (w : Wait) (gt : Nat) : State := { (place fence).modGroup fun g => { g with wait := some w } with gt := gt }

/-- Line 0 of die 0's window is dirty, written by launch 0; its first doubleword is a launch's completion signal. -/
def dirtied : State :=
  { windowed (place load) with mem := [(0x100000000000, 7)], dirty := [(0x1000000000, 0)], generations := [(0, 0x100000000000)] }

theorem witness_CachesAndWaits :
    ((flying anAtom).ops.map (·.id)).Nodup ∧ (flying anAtom).op 0 = some anAtom ∧
    dirtied.upsets = [] ∧ (dirtied.dirty.map (·.1)).Nodup ∧ tfind dirtied.dirty 0x1000000000 ≠ none ∧
    tfind dirtied.dirty (0x100000000000 / 256) ∈ ((dirtied.generations.filter fun g =>
      meets g.2 8 (canonPa 0x100000000000) 4).map fun g => some g.1) ∧
    (.l1 0 : CacheId) ≠ .l2 (dirtied.homeOf (0x1000000000 * 256)) ∧
    (∀ x ∈ (leased 5).copies, x.cache = .l1 0 → x.line = 1 → x.leaseEnd ≤ (leased 5).cacheGt (.l1 0)) ∧
    (∀ x ∈ (leased 6).copies, x.cache = .l1 0 → x.line = 1 → (leased 6).cacheGt (.l1 0) < x.leaseEnd) ∧
    (flying aFlush).op 0 = some aFlush ∧ (∃ l ∈ (flying aFlush).warpLanes 0, ((flying aFlush).lane l).status ≠ .retired) ∧
    ((asleep true { watch with fired := true }).lane 0).status = .asleepWaitw true { watch with fired := true } ∧
    ((asleep false watch).lane 0).status = .asleepWaitw false watch ∧
    (asleep false watch).wordHeld 0 false watch.word = false ∧
    ((asleep false { watch with word := .tile 5 0 }).lane 0).status = .asleepWaitw false { watch with word := .tile 5 0 } ∧
    (asleep false { watch with word := .tile 5 0 }).wordHeld 0 false (.tile 5 0) = false ∧
    tfind (stalled (.release [0] .device 1) 2).groups 2 = some { (place fence).group with wait := some (.release [0] .device 1) } ∧
    tfind (stalled .retry 0).groups 2 = some { (place fence).group with wait := some .retry } ∧
    Claims.pathAt 0 0 2 = 2 := by decide +kernel

/-- A lane ready before a clause at an address of the mapped page, readable and executable; `words` stand there. -/
def readyAt (pc : Addr48) (words : List W64) : State :=
  { place load with
    lanes := [(0, { status := .idle, member := true, pc := pc })], groups := [],
    tlb := [{ tlb := 0, capx := 0, page := 0, sizeLog := 16, leaf := 0x10000000002B }]
    mem := Memory.writeBytes [] (0x100000000000 + pc.toNat) (words.flatMap fun w => toLe w.toNat 8) }

/-- A clause of one NOP at address 256. -/
def ready : State := readyAt 256 [0xA00FFF0000000000, 0x00FFFFFFFFFF7000]

/-- The same with the page not mapped. -/
def unmapped : State := { ready with tlb := [] }

/-- The lane has been Ready for 65,536 cycles. -/
def overdue : State := { ready with cycles := 65536 }

/-- The lane was restored part-way through a clause of two slots. -/
def restored : State :=
  lane0 (fun x => { x with restored := true, rslot := 1 }) (readyAt 256 [0xA01FFF0000000000, 0x00FFFFFFFFFF7000, 0x00FFFFFFFFFF7000])

theorem witness_GroupsForm :
    ready.issues 0 = true ∧ ready.lead ((ready.pool 0 0).filter ready.ready) = some 0 ∧
    ready.launchOf 0 = some probeLaunch ∧ ready.firstThread probeLaunch = some 0 ∧
    (overdue.lane 0).readyAt + 65536 ≤ overdue.cycles ∧
    (∀ l ∈ (ready.pool 0 0).filter ready.ready, ¬ Claims.midClause ready l) ∧ Claims.midClause restored 0 ∧
    restored.lead ((restored.pool 0 0).filter restored.ready) = some 0 ∧
    (ready.lane 0).status = .idle ∧ (ready.lane 0).rslot = 0 ∧ (ready.lane 0).kept = none ∧ ready.upsets = [] ∧
    ready.clauseOpen 0 = true ∧ (unmapped.lane 0).status = .idle ∧
    Claims.clauseAhead ready 0 = .inl (0xA00FFF0000000000, [0x00FFFFFFFFFF7000]) ∧
    (∀ m ∈ ready.members [0] 0, (ready.lane m).status ≠ .retired) ∧ tfind ready.groups (Claims.pathAt 0 0 0) = none := by
  unfold Claims.midClause Claims.clauseAhead; decide +kernel

def held (f : FaultRec) : State := lane0 (fun x => { x with status := .translating f }) (place load)
def faulty : State := lane0 (fun x => { x with status := .idle, runFaults := [(4, { code := 0x11 })] }) (place load)
/-- Address space 0's tree: a table at 0 whose entry 0 of level 4 names the table at 4096, and so on to a 64 KiB leaf. -/
def tables : State :=
  { place load with
    roots := [(0, 0x100000000000)]
    mem := [(0x100000000000, 1), (0x100000000001, 16), (0x100000000005, 16), (0x100000001000, 1), (0x100000001001, 32),
      (0x100000001005, 16), (0x100000002000, 1), (0x100000002001, 48), (0x100000002005, 16), (0x100000003000, 1),
      (0x100000003001, 64), (0x100000003005, 16), (0x100000004000, 27), (0x100000004005, 16)] }

theorem witness_GroupsForm_forced : Claims.forced overdue 0 0 0 ∧ ∀ k, ¬ Claims.forced ready 0 0 k := by
  refine ⟨⟨⟨probeLaunch, by decide, by decide +kernel⟩, by decide, by decide, by decide, by decide +kernel, by decide, ?_⟩, ?_⟩
  · have h : Claims.clauseAhead overdue 0 = .inl (0xA00FFF0000000000, [0x00FFFFFFFFFF7000]) := by
      unfold Claims.clauseAhead; decide +kernel
    rw [h]; exact Or.inr (by decide)
  · intro k h
    have h0 : ready.cycles = 0 := by decide
    have := h.2.2.2.2.2.1
    omega

/-- The words of a fetch: a page not mapped, a wrong header, a reserved field, a later word beyond the page. -/
theorem witness_FetchAndReadiness :
    (unmapped.laneVa 0 .fetch 8 256).isLeft = false ∧ (Claims.clauseAhead unmapped 0).isLeft = false ∧
    ready.laneVa 0 .fetch 8 256 = .inl 0x100000000100 ∧ Claims.headerRight (ready.dwordAt 0x100000000100) ∧
    (ready.dwordAt 0x100000000100).toNat % 2 ^ 40 = 0 ∧
    (ready.laneVa 0 .fetch 8 (256 + 8 + BitVec.ofNat 64 (8 * 0))).isLeft = true ∧
    ¬ Claims.headerRight ((readyAt 256 [0xB00FFF0000000000]).dwordAt 0x100000000100) ∧
    ((readyAt 256 [0xA00FFF0000000001]).dwordAt 0x100000000100).toNat % 2 ^ 40 ≠ 0 ∧
    (readyAt 0xFFF8 [0xA00FFF0000000000]).laneVa 0 .fetch 8 0xFFF8 = .inl 0x10000000FFF8 ∧
    ((readyAt 0xFFF8 [0xA00FFF0000000000]).laneVa 0 .fetch 8 (0xFFF8 + 8 + BitVec.ofNat 64 (8 * 0))).isLeft = false ∧
    ¬ Claims.partWay (ready.lane 0) ∧ Claims.partWay (restored.lane 0) ∧
    Claims.thresholdsHold (ready.warp (warpOf 0)) (ready.dwordAt 0x100000000100) ∧
    ¬ Claims.thresholdsHold { ldc := 1 } 0xA000000000000000 := by
  unfold Claims.clauseAhead Claims.headerRight Claims.partWay Claims.thresholdsHold; decide +kernel

theorem witness_FaultsAndTranslations :
    (faulty.lane 0).runFaults = [(4, { code := 0x11 })] ∧ (faulty.lane 0).runHandler = .normal ∧
    faulty.issues (coreOf 0) = true ∧ (faulty.lane 0).status = .idle ∧ (faulty.lane 0).helper = false ∧
    (faulty.lane 0).rslot = 0 ∧ (faulty.lane 0).kept = none ∧
    ((asleep true watch).lane 0).status = .asleepWaitw true watch ∧
    ((lane0 (fun x => { x with runHandler := .user }) faulty).lane 0).runHandler ≠ .normal ∧
    ((lane0 (fun x => { x with status := .retired }) faulty).lane 0).status = .retired ∧
    ((held { code := 0x11 }).lane 0).status = .translating { code := 0x11 } ∧ canonical 0 = true ∧
    (tables.core 0).launch ≠ none ∧ (tables.walk (tables.capxOf 0) 0).isSome = true := by decide +kernel

/-! ## Witnesses: engines -/

def queuedCopy : State := windowed (after copy copied)

def theCopy : CopyOp := ((queuedCopy.core 0).copy0).headD { id := 0, kind := .store, org := default, tile := 0, record := [] }

def doneWord : Completion := { word := .mem 0x100000000040, va := 64, value := 7, w64 := false, scope := .block }
def completing : State :=
  { queuedCopy.modCore 0 fun k => { k with copy0 := [{ theCopy with moved := true, done := some doneWord }] } with gt := 2 }
def queuedFeed : State := after feed (tiled (place feed))

/-- An operation on tile 5, of rows of eight FP32 elements, in copy engine 0 of core 0; memory is die 0's window. -/
def anOrigin : Origin := { lane := 0, warp := 0, core := 0, launch := 0 }

def moving (rows : Nat) (mem : List Host.Cell) (o : CopyOp) : State :=
  windowed (({ place load with tiles := [(5, { rows := rows, cols := 8 })], mem := mem } : State).modCore 0
    fun k => { k with copy0 := [o] })

/-- The record of a row of eight elements at address 0; of four such rows; and of a Haar tile of 64 rows and one level,
its headers at 512. -/
def rowRecord : List W32 := [0, 0, 0, 0, 8, 0, 0, 0, 0, 0, 0, 0, 0, 0, 0, 0, 0, 8, 0, 0, 0, 0, 0, 0]

def rowsRecord : List W32 := [0, 0, 16, 0, 8, 4, 0, 0, 0, 32, 0, 0, 0, 0, 0, 0, 0, 4104, 0, 0, 0, 0, 0, 0]

def haarRecord : List W32 := [0, 0, 0xA0010, 0, 8, 64, 0, 0, 0, 32, 0, 0, 0, 0, 0, 0, 0, 8200, 0, 0, 512, 0, 0, 0]

def loadOp : CopyOp := { id := 3, kind := .load, org := anOrigin, tile := 5, record := rowRecord, origin := [0] }

def storeOp : CopyOp := { loadOp with kind := .store }

def gatherOp : CopyOp := { loadOp with kind := .gather, record := rowsRecord, index := 1024, count := 1 }

def scatterOp : CopyOp := { gatherOp with kind := .scatter }

def haarOp : CopyOp := { loadOp with record := haarRecord, origin := [0, 0] }

/-- The header of the Haar tile's group: rows 0 and 1 present, level 1. -/
def haarCells : List Host.Cell := [(0x100000000200, 3), (0x100000000208, 1)]

theorem copyTurns : Claims.CopyTurn (moving 1 [] loadOp) 0 false loadOp ∧ Claims.CopyTurn (moving 1 [] storeOp) 0 false storeOp ∧
    Claims.CopyTurn (moving 1 [] gatherOp) 0 false gatherOp ∧ Claims.CopyTurn (moving 1 [] scatterOp) 0 false scatterOp ∧
    Claims.CopyTurn (moving 2 haarCells haarOp) 0 false haarOp := by
  refine ⟨?_, ?_, ?_, ?_, ?_⟩ <;> constructor <;> decide +kernel

def firstPiece : List Piece := [⟨bitAddr 0, 32, 0⟩]

theorem indexAt_zero (ly : Layout) (h : Claims.indexValid ly 0) : Claims.indexAt ly 0 0 = fun _ => 0 := by
  funext k; simp [Claims.indexAt, h]

def aTile : Tile := { rows := 1, cols := 8 }

theorem rowIndex : Claims.indexValid (recFields rowsRecord) 0 := by unfold Claims.indexValid; decide

theorem rowInside : Claims.inExtents (recFields rowsRecord) fun _ => 0 := by unfold Claims.inExtents; decide

theorem witness_LoadRuns :
    Claims.found loadOp aTile 0 [] 0 = .inl firstPiece ∧ Claims.found gatherOp aTile 0 [] 0 = .inl firstPiece ∧
    Claims.found haarOp { aTile with rows := 2 } 0 [3, 1, 0, 0, 0, 0, 0, 0] 0 = .inl firstPiece ∧
    (moving 1 [] loadOp).piecesReady loadOp firstPiece = true ∧ (moving 1 [] gatherOp).piecesReady gatherOp firstPiece = true ∧
    (moving 2 haarCells haarOp).piecesReady haarOp firstPiece = true ∧
    Claims.foundBits (moving 1 [] loadOp) 0 false (.inl firstPiece) ≠ none ∧
    Claims.foundBits (moving 2 haarCells haarOp) 0 false (.inl firstPiece) ≠ none ∧
    Claims.indexNow (moving 1 [] gatherOp) 0 false gatherOp 8 0 ∧
    Claims.headerNow (moving 2 haarCells haarOp) 0 false haarOp 8 [3, 1, 0, 0, 0, 0, 0, 0] := by
  refine ⟨?_, ?_, ?_, by decide +kernel, by decide +kernel, by decide +kernel, by decide +kernel, by decide +kernel, ?_, ?_⟩
  · simp only [Claims.found]
    rw [if_neg (by decide), if_neg (by decide), if_pos (by unfold Claims.inExtents; decide)]
    decide
  · have e0 : gatherOp.origin.getD 0 0 + ((0 % aTile.cols : Nat) : Int) = 0 := by decide
    simp only [Claims.found]
    rw [if_pos (by decide), if_neg (by decide), e0, show gatherOp.record = rowsRecord from rfl, indexAt_zero _ rowIndex,
      if_pos ⟨rowIndex, rowInside⟩]
    decide
  · simp only [Claims.found]
    rw [if_neg (by decide), if_pos (by decide), if_neg (by decide), if_neg (by decide), if_pos (by decide)]
    decide
  · unfold Claims.indexNow
    rw [if_pos (by decide)]
    exact ⟨0, by decide, by decide +kernel⟩
  · refine ⟨rfl, ⟨by decide, by decide, ?_, by decide, by decide⟩, by decide +kernel⟩
    intro k h1 h2; interval_cases k <;> rfl

theorem witness_StoreRuns :
    Claims.stored storeOp aTile 0 0 = firstPiece ∧ Claims.stored scatterOp aTile 0 0 = firstPiece ∧
    (moving 1 [] storeOp).piecesReady storeOp ((List.range 8).flatMap fun e => [⟨bitAddr (32 * e), 32, 0⟩]) = true ∧
    (moving 1 [] scatterOp).piecesReady scatterOp firstPiece = true ∧ Claims.writable (moving 1 [] storeOp) 0 firstPiece ∧
    Claims.writable (moving 1 [] scatterOp) 0 firstPiece ∧ Claims.wholeTree aTile ∧ aTile.dom = false ∧
    Claims.wholeTree { aTile with rows := 2, dom := true, hlev := 1 } ∧ (recFields rowRecord).dom = false ∧
    Claims.indexNow (moving 1 [] scatterOp) 0 false scatterOp 8 0 := by
  refine ⟨?_, ?_, by decide +kernel, by decide +kernel, ?_, ?_, by unfold Claims.wholeTree; decide, rfl,
    by unfold Claims.wholeTree; decide, by decide, ?_⟩
  · simp only [Claims.stored]
    rw [if_neg (by decide), if_pos (by unfold Claims.inExtents; decide)]
    decide
  · have e0 : scatterOp.origin.getD 0 0 + ((0 % aTile.cols : Nat) : Int) = 0 := by decide
    simp only [Claims.stored]
    rw [if_pos (by decide), e0, show scatterOp.record = rowsRecord from rfl, indexAt_zero _ rowIndex,
      if_pos ⟨rowIndex, rowInside⟩]
    decide
  · unfold Claims.writable; decide +kernel
  · unfold Claims.writable; decide +kernel
  · unfold Claims.indexNow
    rw [if_pos (by decide)]
    exact ⟨0, by decide, by decide +kernel⟩

/-- An operation that has moved all its elements. -/
def movedAll (o : CopyOp) : CopyOp := { o with started := true, pos := 16 }

theorem witness_CopiesEnd : ∀ o ∈ [loadOp, storeOp, gatherOp, scatterOp, haarOp, { loadOp with done := some doneWord }],
    let s := moving 1 [] (movedAll o)
    nextCopy ((s.core 0).copies false) = some (movedAll o) ∧ (movedAll o).org.core = 0 ∧ s.issues 0 = true ∧
    (movedAll o).started = true ∧ tfind s.tiles (movedAll o).tile ≠ none ∧ (s.tile (movedAll o).tile).freeing = false ∧
    ((movedAll o).kind = .store → (recFields o.record).dom = false ∧ Claims.wholeTree ((s.tile 5).withTag (movedAll o).tag)) ∧
    (s.tile (movedAll o).tile).rows * (s.tile (movedAll o).tile).cols ≤ (movedAll o).pos := by
  unfold Claims.wholeTree; decide +kernel

theorem witness_CopiesAndFeedsRun :
    (let s : State := { tiled (place load) with tiles := [(5, { rows := 1, cols := 8, clearing := true })] }
     s.tileEntry 0 5 = some 5 ∧ (s.tile 5).clearing = true ∧ (s.tile 5).freeing = false) ∧
    (completing.core 0).copies false = { theCopy with moved := true, done := some doneWord } :: [] ∧ theCopy.org.core = 0 ∧
    completing.issues 0 = true ∧ completing.upsets = [] ∧ (completing.tile theCopy.tile).freeing = false ∧
    max (tget 0 theCopy.times Scope.block.code) doneWord.after + 2 ≤ completing.coreGt 0 ∧
    completing.checkVa 0 (completing.capxOf 0) .write 4 doneWord.va = .inl 0x100000000040 ∧
    isMemory 0x100000000040 = true ∧ queuedFeed.upsets = [] ∧
    (∃ f ∈ queuedFeed.feeds, queuedFeed.feeds.find? (fun x => x.id == f.id) = some f ∧
      (∀ x ∈ queuedFeed.feeds, f.id ≤ x.id) ∧ queuedFeed.tileTurn f.tile f.org.warp f.id false = true ∧
      (queuedFeed.tile f.tile).freeing = false) := by decide +kernel

def anMma : MmaOp := { retiring.op with fa := .bf16, fb := .bf16, grp := none }
/-- One run of 2,048 BF16 elements: all that an MMA takes from a stream. -/
def oneRun : FeedRun := { elems := List.replicate 2048 0x3F80, nibbles := 4 }
def streamed : State := { place mma with pairs := [(0, { queue := [anMma], streams := [(0, [oneRun]), (1, [oneRun])] })] }

theorem nibbles_oneRun : (Claims.streamNibbles [oneRun]).length = 8192 := by
  simp [Claims.streamNibbles, oneRun]

def queuedDrain : State := after drain drained
def theDrain : DrainOp := ((queuedDrain.pair 0).drains).headD { id := 9, org := default, first := 0, n := 0, dest := .tile 0, add := false, fmt := .fp32, rm := .rne }
def rising : DrainOp := { theDrain with amax := some (64, .block), moved := true, max := 0x3F800000 }
def amaxing : State := { windowed queuedDrain with pairs := [(0, { drains := [rising] })], gt := 2 }
def queuedTadd : State := after tadd (tiled (place tadd))
def theTadd : TileOp := ((queuedTadd.core 0).tileOps).headD { id := 9, op := .norm, org := default, d := 0, a := 0 }
def startedTadd : State := queuedTadd.modCore 0 fun k => { k with tileOps := [{ theTadd with started := true }] }

/-- An MMAQ of 64 by 64, whose two segments' parameter words are zero. -/
def anMmaq : MmaOp := { retiring.op with grp := some .g32 }

def bytesRun : FeedRun := { elems := List.replicate 4096 1, nibbles := 2 }

def zeroParams : FeedRun := { elems := List.replicate 128 0, nibbles := 8 }

def streamedq : State :=
  { place mma with pairs := [(0, { queue := [anMmaq], streams := [(0, [bytesRun]), (1, [bytesRun]), (2, [zeroParams])] })] }

theorem nibbles_bytesRun : (Claims.streamNibbles [bytesRun]).length = 8192 := by
  simp [Claims.streamNibbles, bytesRun]

theorem nibbles_zeroParams : Claims.streamNibbles [zeroParams] = List.replicate 1024 0 := by decide +kernel

theorem witness_MmaStart :
    (streamed.pair 0).queue = anMma :: [] ∧ anMma.grp = none ∧ (streamed.pair 0).arrays.length < 2 ∧ streamed.upsets = [] ∧
    64 * Claims.stepsOf anMma.fa * Claims.halfBytes anMma.fa = 8192 ∧ Claims.stepsOf anMma.fb = Claims.stepsOf anMma.fa ∧
    oneRun.dir = .spatial ∧ (streamedq.pair 0).queue = anMmaq :: [] ∧ Claims.stepsOf anMmaq.fa / 32 = 2 ∧
    64 * Claims.stepsOf anMmaq.fa * Claims.halfBytes anMmaq.fa = 8192 ∧ Claims.stepsOf anMmaq.fb = Claims.stepsOf anMmaq.fa ∧
    64 * Claims.stepsOf anMmaq.fa * Claims.halfBytes anMmaq.fb = 8192 ∧ bytesRun.dir = .spatial ∧ anMmaq.fa ≠ .int4 ∧
    tget [] (streamedq.pair 0).streams Fifo.m.code = [zeroParams] := by decide +kernel

/-- Drains of one row, to tile 7, and to die 0's window at address 64, and added there; of a Haar tree of two rows. -/
def rowDrain : DrainOp := { id := 3, org := { anOrigin with cls := 3 }, first := 2047, n := 1, dest := .tile 7, add := false, fmt := .fp32, rm := .rne }

def addDrain : DrainOp := { rowDrain with add := true }

def memDrain : DrainOp := { rowDrain with dest := .mem 64 }

def haarDrain : DrainOp := { rowDrain with first := 2046, n := 2, haar := some (1, 0, 0) }

def draining (rows : Nat) (d : DrainOp) : State :=
  windowed { place load with tiles := [(7, { rows := rows, cols := 64 })], pairs := [(0, { drains := [d] })] }

theorem witness_Drains : Claims.DrainTurn (draining 1 rowDrain) 0 rowDrain ∧ Claims.DrainTurn (draining 1 addDrain) 0 addDrain ∧
    Claims.DrainTurn (draining 1 memDrain) 0 memDrain ∧ Claims.DrainTurn (draining 2 haarDrain) 0 haarDrain ∧
    tfind (draining 1 rowDrain).tiles 7 ≠ none ∧ ((draining 1 addDrain).tile 7).dom = false ∧
    ((draining 2 haarDrain).tile 7).rows = haarDrain.n ∧ ((draining 1 rowDrain).tile 7).fmt = rowDrain.fmt ∧
    Claims.writable (draining 1 memDrain) 0 ((List.range 64).map fun e => ⟨bitAddr (8 * (64 + 4 * e : Nat)), 32, 0⟩) ∧
    (∀ e < 64, ((draining 1 memDrain).checkVa 0 0 .read 1 (BitVec.ofNat 64 (64 + 4 * e))).isLeft = true) := by
  refine ⟨?_, ?_, ?_, ?_, by decide +kernel, by decide +kernel, by decide +kernel, by decide +kernel, ?_, by decide +kernel⟩
  · refine ⟨by decide +kernel, by decide, by decide, rfl, by decide, rfl, ?_⟩; intro l k th h; cases h
  · refine ⟨by decide +kernel, by decide, by decide, rfl, by decide, rfl, ?_⟩; intro l k th h; cases h
  · refine ⟨by decide +kernel, by decide, by decide +kernel, rfl, by decide, rfl, ?_⟩; intro l k th h; cases h
  · refine ⟨by decide +kernel, by decide, by decide, rfl, by decide, rfl, ?_⟩
    intro l k th h; cases h; exact ⟨by decide, fun h => by cases h⟩
  · unfold Claims.writable; decide +kernel

/-- Drains whose rows are written, with and without AMAX. -/
def endedDrain (a : Option (W64 × Scope)) : DrainOp := { rowDrain with started := true, row := 1, amax := a }

theorem witness_DrainsEnd : Claims.DrainTurn (draining 1 (endedDrain none)) 0 (endedDrain none) ∧
    Claims.DrainTurn (draining 1 (endedDrain (some (64, .block)))) 0 (endedDrain (some (64, .block))) ∧
    (∃ l ∈ (draining 1 (endedDrain none)).warpLanes 0, ((draining 1 (endedDrain none)).lane l).status ≠ .retired) ∧
    ((draining 1 (endedDrain none)).tile 7).freeing = false := by
  refine ⟨?_, ?_, by decide +kernel, by decide +kernel⟩ <;>
  · refine ⟨by decide +kernel, by decide, by decide, rfl, by decide, rfl, ?_⟩; intro l k th h; cases h

/-- TADD of two spatial tiles; HINV of a Haar tile of two rows and one level. -/
def inverting : TileOp := { theTadd with op := .inv 1, d := 5, a := 6, b := none, started := true, tagA := { dom := true, hlev := 1 } }

def invertingState : State :=
  ({ place load with tiles := [(5, { rows := 2, cols := 8 }), (6, { rows := 2, cols := 8, dom := true, hlev := 1 })] } : State).modCore
    0 fun k => { k with tileOps := [inverting] }

theorem witness_MatrixAndTileEnginesRun :
    (amaxing.pair 0).drains.find? (fun d => d.moved && amaxing.issues d.org.core) = some rising ∧ amaxing.upsets = [] ∧
    rising.amax = some (64, .block) ∧ amaxing.checkVa 0 (amaxing.capxOf 0) .write 4 64 = .inl 0x100000000040 ∧
    max (tget 0 rising.times Scope.block.code) rising.after + 2 ≤ amaxing.coreGt 0 ∧
    (queuedTadd.core 0).tileOps = theTadd :: [] ∧ theTadd.started = false ∧ queuedTadd.issues 0 = true ∧
    queuedTadd.tileOpReady theTadd = true ∧ tfind queuedTadd.tiles theTadd.d ≠ none ∧
    (queuedTadd.tile 5).dom = false ∧ (queuedTadd.tile 6).dom = false ∧ theTadd.org.mode.getLsbD 48 = false ∧
    (startedTadd.core 0).tileOps = { theTadd with started := true } :: [] ∧ theTadd.b = some 6 ∧ theTadd.op = .add ∧
    startedTadd.upsets = [] ∧ tfind startedTadd.tiles theTadd.d ≠ none ∧
    Claims.tilesFit .add (startedTadd.tile 5) (startedTadd.tile 5) (some (startedTadd.tile 6)) ∧
    Claims.wholeTree (startedTadd.tile 5) ∧ Claims.wholeTree (startedTadd.tile 6) ∧ 0 < (startedTadd.tile 5).cols ∧
    (∀ k ∈ [5, 5, 6], (startedTadd.tile k).freeing = false) ∧
    (invertingState.core 0).tileOps = inverting :: [] ∧ invertingState.upsets = [] ∧ inverting.b = none ∧
    Claims.tilesFit (.inv 1) (invertingState.tile 5) ((invertingState.tile 6).withTag inverting.tagA) none ∧
    Claims.wholeTree ((invertingState.tile 6).withTag inverting.tagA) ∧
    ((invertingState.tile 6).withTag inverting.tagA).hlev = 1 := by
  unfold Claims.tilesFit Claims.wholeTree; decide +kernel

/-! ## Witnesses: the Gecko, the pond, the end of a launch -/

def signReq : GeckoReq := { lane := 0, slot := 0, ask := .sign 1 none 1 none 1, gcap := 5, word := 0, started := true }
def inGecko (r : GeckoReq) (g : GReg) : State :=
  (lane0 (fun x => { x with status := .refining, g := [(1, g)] }) (withLog (place gadd))).modCore 0 fun k => { k with gecko := [r] }
def deciding : State := (inGecko signReq { handle := 1, leaf := true }).modBlock 0 fun b => { b with log := oneLeaf }
def severing : State := inGecko { signReq with ask := .sever 1 } {}
def pendingRoot : State := (place gadd).modBlock 0 fun b => { b with log := { oneLeaf with pending := [1] } }

theorem witness_GuardedLogAndGecko :
    (deciding.core 0).gecko = signReq :: [] ∧ signReq.started = true ∧ (deciding.lane 0).status = .refining ∧
    (deciding.log 0).refine (deciding.greg 0 1).handle.toNat none 5 = some (1, 1) ∧
    (Log.refine { next := 2 } 0 (some 0) 0).isSome = true ∧
    (severing.lane 0).status = .refining ∧ Claims.roomFor severing 0 1 ∧
    severing.nodeMapped (coreOf 0) (Claims.nextHandle severing 0) = true ∧ (severing.core 0).gecko = { signReq with ask := .sever 1 } :: [] ∧
    (pendingRoot.log 0).pending = 1 :: [] := by unfold Claims.roomFor; decide +kernel

def binOf (timer : Option Nat) (n : Nat) : Bin := { key := 512, threads := List.replicate n {}, timer := timer }
def binned (x : Bin) (el : List Nat) : State := (place spawned).modCore 0 fun k => { k with bins := [(3, x)], eligible := el }
/-- Registers for one more warp: 64 V and no G. -/
def roomy (s : State) : State :=
  { s with launches := tset s.launches 0 { probeLaunch with record := [0, BitVec.ofNat 64 (64 * 2 ^ 16 + 1)] } }
def aRecord : Continuation := { cw := [0x0001000000000200, 0, 5, 0, 0, 0, 0, 0, 7], pa := 0, place := .queued 0, die := 0 }
def resuming : State :=
  { place spawned with launches := [(0, { probeLaunch with pool := [(0, aRecord)] })], dies := [(0, { resume := [(0, 0)] })] }

theorem witness_PondRuns :
    tfind ((binned (binOf (some 0) 1) []).core 0).bins 3 = some (binOf (some 0) 1) ∧
    ((binned (binOf none 32) [3]).core 0).eligible = 3 :: [] ∧ (roomy (binned (binOf none 32) [3])).blockOf 0 ≠ none ∧
    ((roomy (binned (binOf none 32) [3])).launchOf 0).map (fun x => (x.state, x.warps, x.alloc.nv, x.alloc.ng))
      = some (.running, 1, 64, 0) ∧
    tfind ((roomy (binned (binOf none 32) [3])).core 0).bins 3 = some (binOf none 32) ∧ (binOf none 32).threads.length ≤ 32 ∧
    (∀ th ∈ (binOf none 32).threads, tsorted th.times = true) ∧
    (∀ b, (roomy (binned (binOf none 32) [3])).blockOf 0 = some b →
      Claims.warpFree (roomy (binned (binOf none 32) [3])) b 0 1 1 ∧
      ∀ n < 1, ¬ Claims.warpFree (roomy (binned (binOf none 32) [3])) b 0 1 n) ∧
    ((roomy (binned (binOf none 32) [3])).liveWarps 0).length < 64 ∧
    (((roomy (binned (binOf none 32) [3])).liveWarps 0).length + 1) * (32 * (64 + 3 * 0)) ≤ 262144 ∧
    (resuming.core 0).launch = some 0 ∧ (resuming.blockOf 0).isSome = true ∧ (resuming.core 0).resume = [] ∧
    (tfind resuming.launches 0).map (·.state) = some .running ∧
    (resuming.die 0).resume.find? (fun e => e.1 == 0) = some (0, 0) ∧
    (tfind resuming.launches 0).bind (fun x => tfind x.pool 0) = some aRecord ∧ Claims.poolRoom resuming 0 16 1 ∧
    (resuming.core 0).binFor ((dword aRecord.cw 0).setWidth 48) = some 0 ∧ Claims.poolRoom resuming 0 0 2 := by
  refine ⟨by decide, by decide, by decide, by decide, by decide, by decide, by decide, fun b h => ?_, by decide, by decide,
    by decide, by decide, by decide, by decide, by decide, by decide, by unfold Claims.poolRoom; decide, by decide +kernel,
    by unfold Claims.poolRoom; decide⟩
  have hb : (roomy (binned (binOf none 32) [3])).blockOf 0 = some { launch := 0, id := 0, cores := [0], threads := 1, whole := false } := by
    decide
  rw [hb] at h
  cases h
  unfold Claims.warpFree
  refine ⟨by decide +kernel, fun n hn h => ?_⟩
  exact absurd h.1 (by omega)

/-- A launch on one core, idle, whose token waits there. -/
def tokenAt (t : Token) : State :=
  { place spawned with lanes := [], launches := [(0, { probeLaunch with token := t, queue := some (0, 0), packet := [] })], gt := 2 }

/-- The same decided, its signal at address 64 of the page that the tables map. -/
def signalling : State :=
  { tokenAt {} with launches := [(0, { probeLaunch with token := { decided := true }, queue := some (0, 0), packet := [0, 0, 64] })],
                    roots := tables.roots, mem := tables.mem }

theorem witness_LaunchesEnd :
    (tokenAt {}).idle 0 = true ∧ (tokenAt { round := true }).idle 0 = true ∧
    ((tokenAt { round := true }).launchAt 0).ring[0]? = some 0 ∧ ((tokenAt {}).launchAt 0).token = {} ∧
    ((tokenAt { round := true }).launchAt 0).state = .running ∧
    (tfind (tokenAt { decided := true }).launches 0).map
      (fun x => (x.token.decided, x.state, x.queue, dword x.packet 2, tget 0 x.token.times x.rscope.code))
        = some (true, .running, some (0, 0), 0, 0) ∧
    2 ≤ (tokenAt { decided := true }).dieGt 0 ∧
    (signalling.launchAt 0).token.decided = true ∧ dword (signalling.launchAt 0).packet 2 = 64 ∧
    signalling.checkVa cpAgent 0 .write 8 64 = .inl 0x100000000040 ∧ isMemory 0x100000000040 = true := by decide +kernel

/-- Two cores' ring, the token at its second place. -/
def secondPlace : State :=
  { tokenAt {} with launches := [(0, { probeLaunch with cores := [0, 1], token := { place := 1, round := true } })] }

theorem witness_LaunchesEnd_forward : ∃ x, Claims.TokenAt secondPlace 0 x 1 ∧ x.token.place ≠ 0 ∧ x.token.round = true :=
  ⟨_, ⟨rfl, rfl, rfl, rfl, by decide, by decide⟩, by decide, rfl⟩

/-! ## Witnesses: queues, packets, placement -/

/-- A queue of 16 packets at address 0x8000 of address space 0. -/
def aQueue : Queue := { qd0 := 0x8000, qd1 := 4, qwrite := 1, valid := true }

/-- Die 0 at work with one queue, 0, whose descriptor and capabilities firmware holds. -/
def dieOfQueue (y : Queue) : Die := ({ state := .ready, queues := [(0, y)] } : Die).holdQueue 0 y

/-- Memory of the command processor: tables whose leaf maps 2 MiB, a SIGNAL packet at 0x8000, a launch record at
0x9000, and more. -/
def cpMemory (more : List Host.Cell) : List Host.Cell :=
  [(0x100000000000, 1), (0x100000000001, 16), (0x100000000005, 16), (0x100000001000, 1), (0x100000001001, 32),
    (0x100000001005, 16), (0x100000002000, 1), (0x100000002001, 48),
    (0x100000002005, 16), (0x100000003000, 27), (0x100000003005, 16)] ++ [(0x100000008000, 1), (0x100000008001, 6), (0x100000008002, 36), (0x100000009001, 16), (0x100000009008, 1),
    (0x10000000900A, 8), (0x100000009030, 1), (0x100000009034, 1), (0x100000009038, 1), (0x100000009061, 8)] ++ more

def withQueue (y : Queue) : State :=
  { tables with
    dies := [(0, dieOfQueue y)], mem := cpMemory [], gt := 2, nextId := 7
    tlb := [{ tlb := cpAgent, capx := 0, page := 0, sizeLog := 21, leaf := 0x10000000001B }] }

def actOf (type : Nat) (rest : List W64) : Act := { idx := 0, packet := BitVec.ofNat 64 (0x240001 + type * 256) :: rest }
def signalled : State := withQueue aQueue

/-- The head is a packet whose counter, at address 0xA000, holds 1. -/
def counted (y : Queue) : State :=
  { withQueue y with mem := Memory.writeBytes (Memory.writeBytes (cpMemory []) 0x100000008018 (toLe 0xA000 8)) 0x10000000A000 [1] }

def watching : Queue := { aQueue with watch := some { pa := 0x10000000A000 } }

/-- The head packet's pointers are right, or its type is none. -/
def dispatching (type : Byte) : State :=
  { withQueue aQueue with mem := Memory.writeBytes (cpMemory []) 0x100000008001 [type] }

theorem witness_QueuesRun :
    Claims.queueAt signalled 0 0 aQueue ∧ aQueue.error = false ∧ aQueue.head = none ∧ aQueue.qread ≠ aQueue.qwrite ∧
    aQueue.qwrite.toNat < 2 ∧ (17 : Nat) ≤ aQueue.qread.toNat + aQueue.slots + 1 ∧
    ¬ aQueue.qread.toNat + aQueue.slots < 16 ∧ aQueue.qread.toNat + aQueue.slots < 17 ∧
    signalled.checkVa cpAgent aQueue.capx .read 8 (Claims.slotAt aQueue) = .inl 0x100000008000 ∧ signalled.upsets = [] ∧
    ((counted aQueue).frontPacket 0 0).map (fun p => (p.1, dword p.2 3)) = some (aQueue, 0xA000) ∧
    (counted aQueue).checkVa cpAgent 0 .read 8 0xA000 = .inl 0x10000000A000 ∧
    0 < (Claims.wordAt (counted aQueue).mem 0x10000000A000).toInt ∧ aQueue.watch = none ∧
    (counted watching).queue 0 0 = some watching ∧ meets 0x10000000A000 8 (canonPa 0x10000000A000) 1 = true ∧
    ((dispatching 6).nextHead 0).map (fun p => (p.1, p.2.1, (dispatching 6).packetError 0 p.1 p.2.1 p.2.2)) = some (0, aQueue, none) ∧
    ((dispatching 8).nextHead 0).map (fun p => (p.1, p.2.1, (dispatching 8).packetError 0 p.1 p.2.1 p.2.2))
      = some (0, aQueue, some 0x02) ∧
    ((dispatching 3).nextHead 0).map (·.1) = some 0 := by unfold Claims.queueAt; decide +kernel

def launchAct : Act := actOf 1 [0x9000]

def launchQueue : Queue := { aQueue with head := some launchAct }

/-- Firmware holds the capability to the head's launch record. -/
def launching : State := (withQueue launchQueue).modDie 0 (·.holdRecord 0 launchAct.packet)

def waiting : Launch := { probeLaunch with state := .waiting, queue := some (0, 0), prio := 3 }
def running : Launch := { waiting with state := .running, prio := 1 }
/-- A halted launch whose core is granted to a launch not yet placed. -/
def givingWay : State :=
  { launching with launches := [(1, waiting), (2, { waiting with state := .halted 0, cores := [0] })],
                   cores := [(0, { launch := none, requests := [1, 2] })] }

def granting (cur : Option Nat) : State :=
  { launching with launches := [(0, running), (1, waiting)], cores := [(0, { launch := cur, requests := [1] })] }

def placing : State :=
  { launching with launches := [(1, waiting)], cores := [(0, { launch := some 1 })], lanes := [], groups := [], blocks := [] }

theorem witness_LaunchesStart :
    Claims.queueAt launching 0 0 launchQueue ∧ launchQueue.head = some launchAct ∧
    (dword launchAct.packet 0).toNat / 2 ^ 8 % 2 ^ 8 = 1 ∧ launchAct.launch = none ∧ launching.upsets = [] ∧
    ((launching.die 0).loadCap (recordSlot 0)).allows 3 .read (dword launchAct.packet 1) 256 = true ∧
    (((withQueue launchQueue).die 0).loadCap (recordSlot 0)).allows 3 .read (dword launchAct.packet 1) 256 = false ∧
    ((launching.cpDwords 0 0x9000 32).bind fun r => (launching.launchOfPacket 0 0 launchQueue launchAct r).map (·.cores)) = some [0] ∧
    launching.launchOfPacket 0 0 launchQueue launchAct [] = none ∧
    (launching.core 0).launch ≠ some launching.nextId ∧ launching.nextId ∉ (launching.core 0).requests ∧
    (granting none).firstRequest 0 ((granting none).core 0).requests = some 1 ∧ ((granting none).die 0).state = .ready ∧
    ((granting none).core 0).launch = none ∧ ((granting (some 0)).core 0).launch = some 0 ∧
    givingWay.firstRequest 0 [1] = none ∧ givingWay.firstRequest 0 [1, 2] = some 2 ∧
    ((granting (some 0)).launchAt 0).prio < ((granting (some 0)).launchAt 1).prio ∧
    ((granting (some 0)).launchAt 0).state = .running ∧ Claims.queueAt placing 0 0 launchQueue ∧
    placing.grantedLaunch 0 0 = some (1, waiting) ∧ waiting.state = .waiting ∧ Claims.blockCore waiting 0 = some 0 ∧
    waiting.cores.Nodup ∧ waiting.threads ≤ 4096 := by
  unfold Claims.queueAt Claims.blockCore; decide +kernel

/-- A queue with a packet dispatched. -/
def actsIn (a : Act) : State := withQueue { aQueue with qread := 1, acts := [a] }
/-- A queue whose head holds a packet. -/
def headIn (a : Act) (counter : Byte) : State :=
  { withQueue { aQueue with head := some a } with mem := cpMemory [(0x10000000A000, counter)] }
def doneAct (signal : W64) : Act := { actOf 2 [0, signal] with acted := true }
def copyAct : Act := actOf 2 [0x9000, 0, 0, 0xA000, 0, 4]
def dependAct : Act := actOf 3 [0, 0, 0, 0xA000]
def sealAct : Act := actOf 4 [0, 0, 0, 0, 0, 1]
def flushAct (va n : W64) : Act := actOf 5 [va, 0, 0, 0, 0, n]
def netAct : Act := actOf 7 [0x9000, 0, 0, 0xA000, 0, 4]

theorem witness_PacketsRun :
    Claims.packetOf (.copyPacket 0 0 0) = some (0, 0, 0, 2) ∧
    ((actsIn (doneAct 0)).queue 0 0).bind (fun y => y.act 0 2) = some (doneAct 0) ∧ (doneAct 0).acted = true ∧
    ((actsIn (doneAct 0)).queue 0 0).map (·.head) = some none ∧
    tget 0 (doneAct 0).times (packetRscope (doneAct 0).packet).code + 2 ≤ (actsIn (doneAct 0)).dieGt 0 ∧
    dword (doneAct 0).packet 2 = 0 ∧ dword (doneAct 0xA000).packet 2 = 0xA000 ∧
    (actsIn (doneAct 0xA000)).checkVa cpAgent 0 .write 8 0xA000 = .inl 0x10000000A000 ∧ isMemory 0x10000000A000 = true ∧
    ((actsIn (actOf 6 [])).queue 0 0).bind (fun y => y.act 0 6) = some (actOf 6 []) ∧
    ((actsIn copyAct).queue 0 0).bind (fun y => y.act 0 2) = some copyAct ∧ copyAct.acted = false ∧
    ((actsIn copyAct).readVa cpAgent 0 .read 0x9000 4).isSome = true ∧ (actsIn copyAct).upsets = [] ∧
    (actsIn copyAct).rangeReady 0 .write 0xA000 4 = true ∧ (0xA000 % 256 + 4 ≤ 256) ∧
    (actsIn copyAct).checkVa cpAgent 0 .write 1 0xA000 = .inl 0x10000000A000 := by decide +kernel

def routedDie : Die :=
  { queues := [(0, { aQueue with head := some netAct })], routes := [(0, { port := 0, grant := [(0, 0x10000)] })] }
def linked : State := { headIn netAct 0 with dies := [(0, routedDie)], links := [(0, true)] }

theorem witness_PacketsRun_heads :
    ((headIn dependAct 1).queue 0 0).bind (fun y => y.headAct 0 3) = some dependAct ∧
    (headIn dependAct 1).checkVa cpAgent 0 .write 8 0xA000 = .inl 0x10000000A000 ∧
    tget 0 ((headIn dependAct 1).die 0).times (packetRscope dependAct.packet).code + 2 ≤ (headIn dependAct 1).dieGt 0 ∧
    ({ headIn dependAct 1 with gt := 1 } : State).dieGt 0 < 2 ∧
    0 < (Claims.wordAt (headIn dependAct 1).mem 0x10000000A000).toInt ∧
    (Claims.wordAt (withQueue { aQueue with head := some dependAct }).mem 0x10000000A000).toInt ≤ 0 ∧
    ((headIn netAct 0).queue 0 0).bind (fun y => y.headAct 0 7) = some netAct ∧ netAct.acted = false ∧
    (headIn netAct 0).linkOk 0 netAct.packet = false ∧ linked.linkOk 0 netAct.packet = true ∧ linked.upsets = [] ∧
    (linked.queue 0 0).bind (fun y => y.headAct 0 7) = some netAct ∧
    (linked.readVa cpAgent 0 .read 0x9000 4).isSome = true ∧
    (headIn { netAct with acted := true } 0).queue 0 0 = some { aQueue with head := some { netAct with acted := true } } := by decide +kernel

def sealing : State := { actsIn sealAct with mem := tables.mem }

def aSeal : Seal := { capx := 0, va := 0, page := 0x10000000 }

def anArrival : Arrival := { capx := 0, signal := 0xA000 }

theorem witness_PacketsRun_pages :
    (sealing.queue 0 0).bind (fun y => y.act 0 4) = some sealAct ∧ sealAct.acted = false ∧
    tfind sealing.roots 0 = some 0x100000000000 ∧ sealing.translate cpAgent 0 (.sys false) 0 = .ok 0x100000000000 ∧
    sealing.leafFrom 0 0x100000000000 4 = some (0x100000004000, 16) ∧ isMemory 0x100000004000 = true ∧
    sealing.sealed 0x100000000000 = false ∧ sealing.mappedWritable 0x100000000000 65536 = true ∧
    ({ sealing with launches := [] } : State).mappedWritable 0x100000000000 65536 = false ∧
    ({ sealing with seals := [aSeal] } : State).sealed 0x100000000000 = true ∧
    (actsIn sealAct).leafFrom 0 0x100000000000 4 = some (0x100000003000, 21) ∧
    ((actsIn (flushAct 0 0)).queue 0 0).bind (fun y => y.act 0 5) = some (flushAct 0 0) ∧
    ((actsIn (flushAct 0xFFFF 1)).checkVa cpAgent 0 .read 1 0xFFFF).isLeft = true ∧ 0xFFFF % 65536 + 1 ≤ 65536 ∧
    (actsIn sealAct).rangeReady 0 .write 0xA000 4 = true ∧ (actsIn sealAct).checkVa cpAgent 0 .write 1 0xA000 = .inl 0x10000000A000 ∧
    ({ actsIn sealAct with gt := 1 } : State).dieGt 0 < tget 0 anArrival.times Scope.system.code + 2 ∧
    tget 0 anArrival.times Scope.system.code + 2 ≤ (actsIn sealAct).dieGt 0 ∧
    (actsIn sealAct).checkVa cpAgent 0 .write 8 anArrival.signal = .inl 0x10000000A000 := by decide +kernel

/-! ## Witnesses: contexts, integrity, mailbox, ports -/

def halting : Launch := { probeLaunch with state := .halting }

/-- The same once its core has halted; and once its sections are written. -/
def reached : Launch := { halting with stopped := [0] }

def haltingState (x : Launch) : State := { place load with launches := [(0, x)], groups := [], ops := [] }

/-- A halted context's image, of one core and one lane. -/
def anImage : Image :=
  { gt := 0, launch := { probeLaunch with state := .halted 5 }
    cores := [{ core := {}, lanes := [(0, { lr := List.replicate 6 0 })], warps := [(0, {})] }] }

def resumed : Launch := { probeLaunch with state := .halted 5, queue := some (0, 0) }

def resumable : State :=
  { place load with dies := [(0, { state := .ready, queues := [(0, aQueue)] })], launches := [(1, resumed)], images := [(5, anImage)]
                    cores := [(0, { launch := some 1 })], lanes := [], groups := [], blocks := [] }

def savedState : State := { haltingState { reached with saving := some 5 } with images := [(5, { anImage with whole := false })] }

theorem witness_ContextsHaltAndResume :
    tfind (place load).launches 0 = some probeLaunch ∧ probeLaunch.state = .running ∧
    tfind (haltingState halting).launches 0 = some halting ∧ 0 ∈ halting.cores ++ halting.held ∧ 0 ∉ halting.stopped ∧
    (∃ p ∈ (place load).groups, p.1 / 16 ∈ probeLaunch.cores ++ probeLaunch.held ∧ p.2.lanes = [0] ∧ p.2.served = []) ∧
    tfind (place load).lanes 0 ≠ none ∧
    ((inCalls 1 (mapped (place load))).spillAll [0]).isSome = true ∧
    ((inCalls 1 (mapped (place load))).lane 0).status ≠ .retired ∧
    (haltingState reached).collected reached = true ∧ tfind (haltingState reached).launches 0 = some reached ∧
    reached.killing = false ∧ reached.saving = none ∧ ({ reached with killing := true } : Launch).killing = true ∧
    (haltingState { reached with killing := true }).collected { reached with killing := true } = true ∧
    (haltingState reached).upsets = [] ∧
    (((haltingState reached).writeBackContext reached).spillAll
      ((sortLanes (reached.cores ++ reached.held)).flatMap (haltingState reached).coreLanes)).isSome = true ∧
    savedState.collected { reached with saving := some 5 } = true ∧
    tfind savedState.images 5 = some { anImage with whole := false } := by decide +kernel

theorem witness_ContextsHaltAndResume_load :
    Claims.queueAt resumable 0 0 aQueue ∧ resumable.grantedLaunch 0 0 = some (1, resumed) ∧ tfind resumable.images 5 = some anImage ∧
    (sortLanes (anImage.launch.cores ++ anImage.launch.held)).Nodup ∧ (sortLanes (resumed.cores ++ resumed.held)).Nodup ∧
    (sortLanes (anImage.launch.cores ++ anImage.launch.held)).length = (sortLanes (resumed.cores ++ resumed.held)).length ∧
    anImage.cores.length = 1 ∧ (∀ r ∈ anImage.cores, (r.lanes.map (·.1)).Nodup ∧ (∀ p ∈ r.lanes, p.1 < 4096) ∧
      (r.warps.map (·.1)).Nodup ∧ ∀ p ∈ r.warps, p.1 < 128) ∧
    Claims.laneRecord { status := .idle, pc := 256, rslot := 2 } ≠ Claims.laneRecord {} := by
  unfold Claims.queueAt; decide +kernel

theorem witness_haltedLane : Claims.haltedLane { status := .idle, pc := 256, rslot := 31 } :=
  ⟨Or.inl rfl, by decide, by decide, by decide⟩

theorem witness_IntegrityAndBoot :
    4 ≤ (7 : BitVec 8).toNat ∧ (7 : BitVec 8).toNat ≤ 7 ∧ (1 : Nat) / 2 = 0 ∧ (State.reset.die 0).mcHead < 1024 ∧
    ((place load).launches.map (·.1)).Nodup ∧ tfind (place load).launches 0 = some probeLaunch ∧
    probeLaunch.state = .running ∧ probeLaunch.killing = false ∧
    ({ place load with upsets := [{ site := .mem 3, unc := false, synd := 1 }] } : State).upsets
      = [{ site := .mem 3, unc := false, synd := 1 }] ∧ Claims.hopCode (.mem 3) < 256 ∧ (place load).siteDie (.window 3) < 8 ∧
    Claims.coreCode (.mem 3) < 2048 ∧ (({ State.reset with dies := [(0, { state := .ready })] } : State).die 0).state ≠ .off ∧
    ∀ d < 8, (State.reset.die d).state = .off := by decide +kernel

/-- A machine in service whose PCIe port holds a die's semaphores, with a queue on die 0; its mailbox asks for a command,
with arguments from MB2 on. -/
def served (code : Nat) (args : Tab W64) : State :=
  { place load with
    inService := true, images := [(5, anImage)]
    dies := [(0, { state := .ready, queues := [(0, aQueue)], jobs := [(2, .asked code)], mailArgs := args })]
    sems := [(0, 0x8000000000000002), (2, 0x8000000000000002), (3, 0x8000000000000002)] }


/-- A right descriptor of a new queue; and the arguments of LOADIMG: address 0, core 0, queue 0, no new signal. -/
def queueArgs : Tab W64 := [(1026, 0x10000), (1027, 0x4)]

def loadArgs : Tab W64 := [(1027, 1)]

/-- LOADIMG of the image at address 0, whose digest stands in its place. -/
def loadable : State :=
  let s := served 4 loadArgs
  { s with mem := Memory.writeBytes s.mem (anImage.addr + digestAt) (toLe (imageDigest s.mem anImage.addr anImage.bytes).toNat 64) }

theorem loadable_digest : loadable.digestHolds anImage = true := (served 4 loadArgs).digestHolds_written anImage

theorem witness_MailboxCommands_loadimg :
    Claims.accepts loadable .pcie 0 4 3 ∧ loadable.queue 0 0 = some aQueue ∧ (Claims.mbArg loadable 0 .pcie 2).toNat = 0 ∧
    loadable.imageAt 0 = some (some 5, anImage) ∧ loadable.imageOk anImage aQueue.capx [0] = true ∧
    loadable.imageOk anImage aQueue.capx [0, 1] = false := by
  have at_ : loadable.images.filter (fun p => p.2.addr == 0 && p.2.whole && loadable.digestHolds p.2) = [(5, anImage)] := by
    rw [show loadable.images = [(5, anImage)] from rfl, List.filter_cons, loadable_digest]; rfl
  refine ⟨⟨by decide, rfl, ⟨by decide, by decide⟩, rfl⟩, rfl, rfl, ?_, ?_, ?_⟩
  · unfold State.imageAt; rw [at_]; rfl
  · unfold State.imageOk; rw [loadable_digest]; decide +kernel
  · unfold State.imageOk; rw [show loadable.imageFits anImage aQueue.capx [0, 1] = false by decide +kernel]; rfl

theorem witness_MailboxCommands :
    (∀ p ∈ [(1, 3), (2, 3), (3, 3), (4, 3), (5, 3), (6, 2), (7, 0), (8, 0)], Claims.accepts (served p.1 []) .pcie 0 p.1 p.2) ∧
    Claims.job (served 1 []) 0 .ucie ≠ .asked 1 ∧ ¬ Claims.holdsSem ({ served 1 [] with sems := [] } : State) .pcie 3 ∧
    Claims.job (served 1 []) 0 .pcie = .asked 1 ∧
    (served 1 queueArgs).queue 0 0 = some aQueue ∧ (served 1 queueArgs).queue 0 1 = none ∧
    (Claims.mbArg (served 1 queueArgs) 0 .pcie 2).toNat % 4096 = 0 ∧ (Claims.mbArg (served 1 queueArgs) 0 .pcie 3).toNat % 32 = 4 ∧
    (served 2 []).queue 0 (Claims.mbArg (served 2 []) 0 .pcie 2).toNat = some aQueue ∧
    (served 2 [(1026, 9)]).queue 0 (Claims.mbArg (served 2 [(1026, 9)]) 0 .pcie 2).toNat = none ∧
    Claims.mbArg (served 3 []) 0 .pcie 2 = probeLaunch.num.setWidth 64 ∧
    Claims.mbArg (served 3 [(1027, 1)]) 0 .pcie 3 = 1 ∧
    (served 3 []).launchNumbered probeLaunch.num = some (0, probeLaunch) ∧ (served 3 []).launchNumbered 9 = none ∧
    ((served 3 []).launches.map (·.1)).Nodup ∧
    (served 4 loadArgs).queue 0 (Claims.mbArg (served 4 loadArgs) 0 .pcie 27).toNat = some aQueue ∧
    coresOfArgs (Claims.mbArg (served 4 loadArgs) 0 .pcie) = [0] ∧ (Claims.mbArg (served 4 loadArgs) 0 .pcie 28).toNat % 8 = 0 ∧
    (∀ p ∈ (served 4 loadArgs).launches, p.2.state ≠ .halted 5) ∧
    (Claims.mbArg (served 6 []) 0 .pcie 10).toNat + 5435 ≤ 2 ^ 40 ∧ (served 6 []).hostUp = false ∧
    ({ served 6 [] with hostUp := true } : State).hostUp = true ∧ (Claims.mbArg (served 7 []) 0 .pcie 4).toNat < 2 ∧
    isMemory 0 = true ∧ regionSpan 0 64 = true ∧ isMemory 0x300000000000 = false := by
  unfold Claims.accepts Claims.holdsSem; decide +kernel

/-- The PCIe port's mailbox of a die, at nothing. -/
def atRest (x : DieState) : State :=
  { place load with inService := true, dies := [(0, { state := x, queues := [(0, aQueue)] })], sems := [(3, 0x8000000000000002)] }

theorem witness_PortAccesses :
    Claims.portRuns (atRest .ready) .pcie ∧ ¬ Claims.portRuns (atRest .ready) .ucie ∧
    Claims.portOf (.hostRead .ucie (.phys 0) 8) = some .ucie ∧
    (0 : W64).toNat / 2 ^ 40 % 2 ^ 22 = 0 ∧ ((atRest .ready).sem 3).getLsbD 63 = true ∧ ((atRest .ready).sem 9).getLsbD 63 = false ∧
    ((atRest .ready).sem 3).toNat % 256 = Claims.agentCode (.port .pcie) ∧ 0x400018 < 0x2000000 ∧
    regionOf (Claims.hostPlace (.phys 0x200000400018) .ucie) = .mmio 0 true (8 * 3) ∧
    regionOf (Claims.hostPlace (.phys 0x200000402000) .ucie) = .mmio 0 true (Claims.portCode .pcie * 0x1000) ∧
    regionOf (Claims.hostPlace (.phys 0x200000402008) .ucie) = .mmio 0 true (Claims.portCode .pcie * 0x1000 + 8) ∧
    regionOf (Claims.hostPlace (.phys 0x200000401010) .ucie) = .mmio 0 true (1 * 0x1000 + 8 * 2) ∧
    regionOf (Claims.hostPlace (.phys 0x200000410020) .ucie) = .mmio 0 true (0x10000 + 32 * 1 + 8 * 0) ∧
    regionOf (Claims.hostPlace (.phys 0x200000418000) .ucie) = .mmio 0 true 0x18000 ∧
    Claims.job (atRest .ready) 0 .pcie = .idle ∧ Claims.job (served 1 []) 0 .pcie ≠ .idle ∧
    ((atRest .off).die 0).state = .off ∧ ((atRest .failed).die 0).state = .failed ∧ ((atRest .ready).die 0).state = .ready ∧
    (atRest .ready).inService = true ∧
    regionOf (Claims.hostPlace (.bar0 0x1000) .pcie) = .mmio 0 false (4096 * 1) ∧
    regionOf (Claims.hostPlace (.bar0 0x10) .pcie) = .mmio 0 false (0 * 4096 + 0x010) ∧
    regionOf (Claims.hostPlace (.bar0 0x40000) .pcie) = .mmio 0 false 0x40000 ∧
    regionOf 0x100000000010 = .window 0 false ∧ regionOf 0x100000080010 = .window 0 true ∧ regionOf 0x10 = .hbm ∧
    regionOf 0x300000000000 = .absent ∧ (atRest .ready).upsets = [] ∧ 0x10 % 256 + 4 ≤ 256 ∧
    ({ atRest .ready with upsets := [{ site := .hbm 0, unc := true, synd := 1 }] } : State).upsets
      = [{ site := .hbm 0, unc := true, synd := 1 }] ∧ 0x10 < 64 * 0 + 64 ∧ 64 * 0 < 0x10 + 8 := by
  unfold Claims.portRuns; decide +kernel

/-! ## Witnesses: the step and the encoding -/

/-- A lane that stands at a NOP. -/
def aNop : State := place (.nop always)

/-- The same at a word that is no instruction: opcode 0x50; and at a MOVSR of register 0x20 with its operand missing. -/
def aBadWord : State := aNop.modGroup fun g => { g with words := [0x5000000000000000] }

def aPrivilegedWord : State := user (aNop.modGroup fun g => { g with words := [0x3EFFFFFFFFFF7120] })

/-- The same between turns: the group is no longer current. -/
def between (s : State) : State := { s with cur := none }

def idleNop : State := between aNop

/-- The last slot of a clause of one word is done. -/
def twoSlots : State := aNop.modGroup fun g => { g with header := g.header + 0x0010000000000000 }

theorem witness_StepRunsDecodedInstruction :
    idleNop.turn = .slot 0 0 0 ∧ Claims.standsReady idleNop 0 0 0 aNop.group ∧
    decode (Claims.allocated aNop) 0 (aNop.group.words.getD 0 0) none = .ok (.nop always) ∧
    aNop.interlocked (.nop always) = false ∧ idleNop.upsets = [] ∧
    (between aBadWord).turn = .slot 0 0 0 ∧ Claims.standsReady (between aBadWord) 0 0 0 aBadWord.group ∧
    decode (Claims.allocated aBadWord) 0 (aBadWord.group.words.getD 0 0) none = .error .illegalOp ∧
    (∃ e, decode (Claims.allocated aPrivilegedWord) 0 (aPrivilegedWord.group.words.getD 0 0) none = .error e) ∧
    (aPrivilegedWord.lane 0).priv.getLsbD 0 = false ∧
    (∀ l ∈ aNop.group.lanes, (aNop.lane l).status ≠ .retired) ∧ aNop.group.lanes ≠ [] ∧ aNop.group.wait = none ∧
    aNop.group.header.toNat / 2 ^ 52 % 16 < aNop.group.slot + 1 ∧
    twoSlots.group.slot + 1 ≤ twoSlots.group.header.toNat / 2 ^ 52 % 16 ∧
    ready.fetchClause 0 256 = .inl (0xA00FFF0000000000, [0x00FFFFFFFFFF7000]) := by
  refine ⟨by decide, by unfold Claims.standsReady; decide +kernel, by decide +kernel, by decide +kernel, rfl, by decide,
    by unfold Claims.standsReady; decide +kernel, by decide +kernel, ⟨_, rfl⟩, by decide, by decide, by decide, by decide,
    by decide, by decide, by decide +kernel⟩

theorem witness_TurnsOfOtherAgents :
    ({ State.reset with turn := .event (.coreGrant 3) } : State).turn = .event (.coreGrant 3) ∧ encode (.coreGrant 3) = [] ∧
    ({ State.reset with turn := .tick 5 [1] } : State).turn = .tick 5 [1] ∧
    (∀ x ∈ [Site.mem 1, .hbm 1, .link 4 0, .icache 0 1], ({ State.reset with turn := .upset x true 3 } : State).turn = .upset x true 3) ∧
    ready.ready 0 = true ∧ (State.reset.ready 0) = false ∧ State.reset.launches = [] := by decide +kernel

theorem witness_TurnsOfOtherAgents_lead : Claims.leadDue overdue 0 0 ∧ ∀ c p, ¬ Claims.leadDue State.reset c p := by
  refine ⟨⟨(0, probeLaunch), by decide, rfl, 0, by decide +kernel, witness_GroupsForm_forced.1.2⟩, ?_⟩
  rintro c p ⟨x, hx, _⟩; cases hx

theorem witness_DecodeOfEncode :
    (Instr.mov always (ops (.v 2) (.lit 40) .none .none)).fields = some (always, ops (.v 2) (.lit 40) .none .none) ∧
    (Instr.mov always (ops (.v 2) (.lit 40) .none .none)).wfIn Alloc.full = true := by decide +kernel

theorem witness_EncodeOfDecode :
    decode Alloc.full 0 0x0100BFEFFFFF7000 (some 0x0000002800000000) = .ok (.mov always (ops (.v 2) (.lit 40) .none .none)) := by
  decide +kernel

theorem witness_DecodedWords : (0xCF : Nat) ≠ 0 ∧ (0xCD ≤ 0xCF ∧ 0xCF < 0xE0) ∧
    (0xCF00000000000000 : W64).toNat / 2 ^ 56 = 0xCF ∧ (0x1500000000000000 : W64).toNat / 2 ^ 56 = 0x15 := by decide +kernel

theorem witness_StepsKeepMemoryCanonical : State.reset.canonical = true ∧ idleNop.canonical = true := by decide +kernel

/-- A step from a canonical state that answers a next state. -/
theorem witness_StepsKeepMemoryCanonical_step : ∃ t, step idleNop = .next t := ⟨_, rfl⟩

/-- With `withFetchWord`, the very next step runs the placed instruction: here the NOP, in a clause of class 0. -/
theorem test_withFetchWord : (State.reset.withFetchWord 64 0x00FFFFFFFFFF7000).lanes.length = 1 := by decide +kernel

/-! ## Witnesses: more forms of the statements above -/

theorem witness_BeyondTheLargest :
    Claims.formatRow .e4m3 = some (0x7E, none, some 0x7F) ∧ Claims.formatRow .e3m2 = some (0x1F, none, none) ∧
    Claims.formatRow .fp16 = some (0x7BFF, some 0x7C00, some 0x7E00) := by decide

theorem witness_IntegerConversions :
    Claims.rangeOf .int4 = some (-8, 7) ∧ Claims.tableFormats.length = 14 ∧ (∀ r ∈ Claims.tableRows, r.length = 14) ∧
    (roundTo .rne 0 true 17 (-1) 0).1 = 8 ∧ (roundTo .rne 0 true 19 (-1) 0).1 = 10 := by decide +kernel

theorem witness_Bounds_at_infinity :
    Claims.below0 (.inf true) ∧ Claims.above0 (.inf false) ∧ Claims.above0 (.fin false 1 0) ∧ Claims.below0 (.fin true 1 0) ∧
    Claims.at0 (.fin true 0 3) ∧ ¬ Claims.above0 (.inf true) := by
  refine ⟨Or.inl rfl, Or.inl rfl, Or.inr ⟨_, _, _, rfl, ?_⟩, Or.inr ⟨_, _, _, rfl, ?_⟩, ⟨_, _, rfl⟩, ?_⟩
  · simp [Claims.num]
  · simp [Claims.num]
  · rintro (h | ⟨_, _, _, h, _⟩) <;> cases h

theorem witness_LoadsReturn_kinds :
    (∀ o ∈ [{ anAtom with performed := true }, { aCas with performed := true }, anOp (.gload 1 false 1) 252 4 [],
        anOp (.tload 5 (.v 2) .b32) 0 4 []],
      (flying o).op 0 = some o ∧ o.returned = false ∧ (flying o).upsets = [] ∧ (∀ x ∈ (flying o).copies, x.fails = []) ∧
      ((flying o).lane o.lane).status ≠ .retired ∧ o.warp = warpOf o.lane) ∧
    (flying (anOp (.gload 1 false 1) 252 4 [])).loadReady (anOp (.gload 1 false 1) 252 4 []) = true ∧
    (tiled (flying (anOp (.tload 5 (.v 2) .b32) 0 4 []))).tileHeld 5 0 0 0 4 = false := by decide +kernel

/-- No place for 890 granules, though the budget has them: a tile stands in the middle. -/
theorem witness_TilePlacement_short :
    let s := budget (tiled (place mma))
    let t : State := { s with tiles := (3, { rows := 1, cols := 8, base := 500 }) :: s.tiles }
    t.placeTile .core 0 890 = none ∧ ∀ p < 1,
      (((t.tilesOn (0 + p)).map fun x => tileGranules x.1 x.2 (0 + p)).sum + (890 - p + 1 - 1) / 1) * 512
        ≤ ((t.launchOf (0 + p)).map Launch.tileBytes).getD 0 := by decide +kernel

/-- A store of two present rows of a Haar tile to the window of `haarRecord`; the same packed, ROWOFF 3 in memory. -/
def haarStoring (packed : Bool) : CopyOp :=
  { haarOp with kind := .store, record := if packed then haarRecord.set 2 0x4A0010 else haarRecord }

def haarTiled (o : CopyOp) : State :=
  { moving 2 [(0x10000000020C, 3)] o with tiles := [(5, { rows := 2, cols := 8, dom := true, hlev := 1 })] }

/-- What it writes: two rows of eight elements, then the header. -/
def haarItems (packed : Bool) : List (List Piece × Nat) :=
  Claims.haarStored (recFields (haarStoring packed).record) [0, 0] ((haarTiled (haarStoring packed)).tile 5) (if packed then 3 else 0)

theorem witness_HaarStoreRuns : ∀ packed : Bool, let o := haarStoring packed; let s := haarTiled o
    Claims.CopyTurn s 0 false o ∧ o.kind = .store ∧ (recFields o.record).dom = true ∧ (recFields o.record).hpack = packed ∧
    (s.tile 5).dom = true ∧ (s.tile 5).hlev = (recFields o.record).hlev ∧ o.origin.getD 1 0 % 64 = 0 ∧
    o.pos < (haarItems packed).length ∧ s.piecesReady o ((haarItems packed).flatMap (·.1)) = true ∧
    Claims.writable s 0 (((haarItems packed).drop 0).take 20 |>.flatMap (·.1)) ∧
    (packed = true → Claims.offNow s 0 false o 3) := by
  intro packed
  refine ⟨?_, rfl, ?_, ?_, ?_, ?_, ?_, ?_, ?_, ?_, ?_⟩
  · cases packed <;> constructor <;> decide +kernel
  · cases packed <;> decide
  · cases packed <;> decide
  · cases packed <;> decide
  · cases packed <;> decide
  · cases packed <;> decide
  · cases packed <;> decide +kernel
  · cases packed <;> decide +kernel
  · unfold Claims.writable; cases packed <;> decide +kernel
  · rintro rfl; exact ⟨3 * 2 ^ 32, by decide, by decide +kernel⟩

/-- A store of a spatial record from a Haar tile under DOMPOL 1. -/
def strict : CopyOp := { storeOp with org := { anOrigin with mode := modeReset ||| (1 <<< 48) } }

theorem witness_StoreMeetsTag : Claims.CopyTurn (haarTiled strict) 0 false strict ∧ strict.started = false ∧
    ((haarTiled strict).tile 5).freeing = false ∧ ((haarTiled strict).tile 5).dom = true ∧ strict.org.mode.getLsbD 48 = true ∧
    Claims.CopyTurn (moving 2 [] (haarStoring false)) 0 false (haarStoring false) ∧
    ((moving 2 [] (haarStoring false)).tile 5).dom = false := by
  refine ⟨?_, rfl, by decide, by decide, by decide, ?_, by decide⟩ <;> constructor <;> decide +kernel

theorem witness_CopiesEnd_haar : let o := { haarStoring false with started := true, pos := 24, tag := { dom := true, hlev := 1 } }
    nextCopy (((haarTiled o).core 0).copies false) = some o ∧
    (Claims.haarStored (recFields o.record) o.origin (((haarTiled o).tile 5).withTag o.tag) 0).length ≤ o.pos := by
  decide +kernel

theorem witness_CompletionFree :
    (∀ x ∈ completing.ops, x.warp = theCopy.org.warp → theCopy.id ≤ x.id) ∧
    completing.lineFree theCopy.id 0x100000000040 4 = true ∧ (∀ x ∈ amaxing.ops, x.warp = rising.org.warp → rising.id ≤ x.id) ∧
    amaxing.lineFree rising.id 0x100000000040 4 = true := by decide +kernel

/-- Steps of 64 BF16 elements fed along k from rows 0 and 1 in turn of a tile of two rows and one level, row 1 absent; or
along i, from columns of a tile. -/
def haarRuns (dir : StepDir) : List FeedRun :=
  (List.range 32).map fun q =>
    { elems := List.replicate 64 0x3F80, nibbles := 4, dir := dir, row := q % 2, rows := 2, hlev := 1, present := [true, false],
      handle := 9, bind := 1 }

def haarStreams (a b : List FeedRun) : State :=
  { place mma with pairs := [(0, { queue := [anMma], streams := [(0, a), (1, b)] })] }

theorem nibbles_haarRuns (dir : StepDir) : (Claims.streamNibbles (haarRuns dir)).length = 8192 := by
  cases dir <;> decide +kernel

theorem mmaTurns : Claims.MmaTurn streamed 0 anMma [] ∧ Claims.MmaTurn streamedq 0 anMmaq [] ∧
    ∀ d e, Claims.MmaTurn (haarStreams (haarRuns d) (haarRuns e)) 0 anMma [] := by
  refine ⟨⟨rfl, rfl, by decide, rfl, ?_⟩, ⟨rfl, rfl, by decide, rfl, ?_⟩, fun d e => ⟨rfl, rfl, Nat.zero_lt_two, rfl, ?_⟩⟩ <;> intro f
  · cases f
    · exact nibbles_oneRun.ge
    · exact nibbles_oneRun.ge
    · exact Nat.zero_le _
  · cases f
    · exact nibbles_bytesRun.ge
    · exact nibbles_bytesRun.ge
    · show _ ≤ (Claims.streamNibbles [zeroParams]).length
      rw [nibbles_zeroParams]; decide
  · cases f
    · exact (nibbles_haarRuns d).ge
    · exact (nibbles_haarRuns e).ge
    · exact Nat.zero_le _

/-- A single run feeds every step that it reaches. -/
theorem stepTag_single (f : Fmt) (r : FeedRun) (q : Nat) (h : 64 * q * Claims.halfBytes f < r.elems.length * r.nibbles) :
    Claims.stepTag f [r] q = r := by
  simp [Claims.stepTag, Claims.stepFeeder, Claims.feederAt, h]

theorem witness_MmaStarts :
    (∀ q < 32, Claims.stepPairs anMma [oneRun] [oneRun] q) ∧ (∀ q < 64, Claims.stepPairs anMmaq [bytesRun] [bytesRun] q) ∧
    (∀ q < 32, Claims.stepPairs anMma (haarRuns .alongK) (haarRuns .alongK) q) ∧
    (∀ q < 32, Claims.stepPairs anMma (haarRuns .alongI) (haarRuns .spatial) q) ∧
    (∀ i < 128, Claims.paramPasses anMmaq (Claims.paramOf streamedq 0 anMmaq i)) ∧ Claims.segmentsOf anMmaq = 2 := by
  have single (o : MmaOp) (r : FeedRun) (n : Nat) (hr : r.dir = .spatial)
      (h : ∀ f ∈ [o.fa, o.fb], ∀ q < n, 64 * q * Claims.halfBytes f < r.elems.length * r.nibbles) (hn : 0 < n) :
      ∀ q < n, Claims.stepPairs o [r] [r] q := by
    intro q hq
    unfold Claims.stepPairs
    rw [stepTag_single _ _ 0 (h _ (by simp) 0 hn), stepTag_single _ _ q (h _ (by simp) q hq),
      stepTag_single _ _ q (h _ (by simp) q hq)]
    simp [hr]
  unfold Claims.stepPairs
  refine ⟨single _ _ 32 rfl ?_ (by decide), single _ _ 64 rfl ?_ (by decide), by decide +kernel, by decide +kernel, ?_,
    by decide⟩
  · intro f hf q hq
    rw [show oneRun.elems.length * oneRun.nibbles = 8192 by simp [oneRun]]
    revert q; revert f; decide
  · intro f hf q hq
    rw [show bytesRun.elems.length * bytesRun.nibbles = 8192 by simp [bytesRun]]
    revert q; revert f; decide
  · intro i hi
    have z (k : Nat) : (List.replicate 1024 0).getD k 0 = 0 := by
      rw [List.getD_eq_getElem?_getD, List.getElem?_replicate]; split <;> rfl
    have : Claims.paramOf streamedq 0 anMmaq i = 0 := by
      unfold Claims.paramOf
      rw [show Claims.streamIn streamedq 0 anMmaq .m = [zeroParams] from rfl, nibbles_zeroParams]
      simp only [z, Nat.zero_mul]; rfl
    rw [this]; exact ⟨rfl, fun _ => rfl⟩

theorem witness_MmaRefuses :
    ¬ Claims.stepPairs anMma (haarRuns .alongK) (haarRuns .spatial) 0 ∧
    ¬ Claims.paramPasses anMmaq 0x100 := by
  unfold Claims.stepPairs Claims.paramPasses; decide +kernel

/-- TADD whose elements are written. -/
def tagging : State :=
  startedTadd.modCore 0 fun k => { k with tileOps := [{ theTadd with started := true, left := some ({}, 0) }] }

theorem witness_TileOpsTag :
    (tagging.core 0).tileOps = [{ theTadd with started := true, left := some ({}, 0) }] ∧ tfind tagging.tiles theTadd.d ≠ none ∧
    ∀ k ∈ theTadd.d :: theTadd.a :: theTadd.b.toList, (tagging.tile k).freeing = false := by decide +kernel

theorem witness_QueuesRun_checks :
    Claims.firstError (dispatching 6) 0 0 aQueue [0x240601] = none ∧ Claims.firstError (dispatching 8) 0 0 aQueue [0x240801] = some 0x02 ∧
    Claims.firstError (dispatching 6) 0 0 aQueue [0x200601] = some 0x01 ∧ Claims.firstError (dispatching 3) 0 0 aQueue [0x240301] = some 0x03 := by
  have clean : Claims.packetClean [0x240601] := by unfold Claims.packetClean; exact ⟨by decide, by decide, by decide, by decide, by decide, by decide, by decide,
    (by decide : (0 : W64) = 0 ∧ (0 : W64) = 0 ∧ (0 : W64) = 0 ∧ (0 : W64) = 0)⟩
  have clean3 : Claims.packetClean [0x240301] := by unfold Claims.packetClean; exact ⟨by decide, by decide, by decide, by decide, by decide, by decide, by decide,
    (by decide : (0 : W64) = 0 ∧ (0 : W64) = 0 ∧ (0 : W64) = 0)⟩
  have points : Claims.packetPoints (dispatching 6) aQueue.capx [0x240601] := ⟨Or.inl rfl, Or.inl rfl, trivial⟩
  refine ⟨?_, ?_, ?_, ?_⟩ <;> unfold Claims.firstError
  · rw [if_neg (by decide), if_neg (not_not.2 clean), if_neg (not_not.2 ⟨points, by decide +kernel⟩), if_neg,
      if_neg (by decide), if_neg fun h => absurd h.1 (by decide)]
    rintro ⟨k, h, _⟩; cases (show (none : Option Int) = some k from h)
  · rw [if_pos (by decide)]
  · rw [if_neg (by decide), if_pos (fun h => absurd h.2.2.1 (by decide))]
  · rw [if_neg (by decide), if_neg (not_not.2 clean3), if_pos (fun h => h.1.2.2.1 rfl)]

/-- The launch record at 0x9000; and one whose doubleword 13 is not 0. -/
def aLaunchRecord : List W64 := (launching.cpDwords 0 0x9000 32).getD []

def wrongRecord : State := { launching with mem := Memory.write launching.mem 0x100000009068 1 }

theorem witness_LaunchesStart_record :
    launching.cpDwords 0 0x9000 32 = some aLaunchRecord ∧ Claims.recordPasses launching 0 launchAct.packet aLaunchRecord [0] ∧
    ((wrongRecord.cpDwords 0 0x9000 32).map fun r => (dword r 12, dword r 13)) = some (2048, 1) ∧
    ∀ (r : List W64) (cs : List Nat), dword r 12 = 2048 → dword r 13 = 1 → ¬ Claims.recordPasses wrongRecord 0 launchAct.packet r cs := by
  refine ⟨by decide +kernel, ⟨?_, ?_⟩, by decide +kernel, fun r cs h12 h13 h => ?_⟩
  · unfold Claims.coresNamed; simp only []
    rw [if_pos (by decide +kernel)]; decide +kernel
  · unfold Claims.pointsTo
    repeat' apply And.intro
    all_goals decide +kernel
  · have := h.1
    unfold Claims.coresNamed at this
    rw [h12, h13, if_pos (by decide)] at this
    exact absurd this.2.2.1 (by decide)

theorem witness_LinesFree :
    (actsIn (doneAct 0xA000)).lineFree 7 0x10000000A000 8 = true ∧ (actsIn copyAct).rangeFree 0 0x9000 4 false = true ∧
    (actsIn copyAct).rangeFree 0 0xA000 4 true = true ∧ signalling.lineFree signalling.nextId 0x100000000040 8 = true ∧
    (pooled (mapped (place park))).lineFree 0 128 128 = true ∧ linked.rangeFree 0 0x9000 4 false = true := by decide +kernel

/-- The launch section is written, and the core waits for its own; the header comes once the core is free. -/
theorem witness_ContextsHaltAndResume_saving :
    (let x := { reached with saving := some 5 }
     Claims.coresHeld savedState 0 x = [0] ∧ (sortLanes (x.cores ++ x.held))[0]? = some 0 ∧
     Claims.coresHeld ({ savedState with cores := [] } : State) 0 x = []) ∧
    ((((haltingState reached).writeBackContext reached).spillAll
      ((sortLanes (reached.cores ++ reached.held)).flatMap (haltingState reached).coreLanes)).all
        fun u => decide (u.nextId < 2 ^ 32)) = true ∧ (reached.cores ++ reached.held).length ≤ 1536 ∧
    (((anImage.cores[0]?).bind fun r => tfind r.lanes 0).isSome = true) := by decide +kernel

/-- A lane asleep, refining or translating is in no group when its core halts. -/
theorem witness_ContextsHaltAndResume_alone :
    (∀ p ∈ (haltingState halting).groups, p.1 / 16 = 0 → 0 ∉ p.2.lanes) ∧ coreOf 0 = 0 := by decide +kernel

theorem witness_TurnsOfOtherAgents_strikes :
    ({ ready with cores := [(0, { icache := [8] })] } : State).holdsData (granuleOf (.icache 0 257)) = true ∧
    ready.holdsData (granuleOf (.icache 0 257)) = false ∧ ready.holdsData (granuleOf (.lane 0 (.v 3))) = true ∧
    granuleOf (.lane 0 (.v 3)) = .lane 0 (.v 2) ∧ ready.holdsData (granuleOf (.hbm 1)) = true := by decide +kernel

/-! ## One step each: values of the spec's tables, worked examples and rules -/

/-- V3, V4, V5, V6 of the lane set. -/
def withV (xs : List W32) (s : State) : State :=
  lane0 (fun y => { y with v := xs.zipIdx.foldl (fun v p => tput 0 v (3 + p.2) p.1) y.v }) s
/-- V2 of the lane after an instruction that began with V3 onward as given. -/
def v2 (i : Instr) (xs : List W32) : W32 := tget 0 ((after i (withV xs (place i))).lane 0).v 2
/-- A pair's value after it. -/
def pair2 (i : Instr) (xs : List W32) : W64 :=
  let t := after i (withV xs (place i))
  (tget 0 (t.lane 0).v 3 ++ tget 0 (t.lane 0).v 2)
/-- GSTAT after it. -/
def gstat (i : Instr) (xs : List W32) : Nat := ((after i (withV xs (place i))).lane 0).gstat.toNat

abbrev ab : Ops := ops (.v 2) (.v 3) (.v 4) .none
abbrev abc : Ops := ops (.v 2) (.v 3) (.v 4) (.v 5)
abbrev one : Ops := ops (.v 2) (.v 3) .none .none

-- spec/07, "Worked values at the edges"
theorem test_idiv : v2 (.idiv always ab false) [7, 0] = 0xFFFFFFFF ∧ v2 (.idiv always ab false) [0x80000000, 0xFFFFFFFF] = 0x80000000 ∧
    v2 (.idiv always ab false) [0xFFFFFFF9, 2] = 0xFFFFFFFD ∧ v2 (.idiv always ab true) [0xFFFFFFF9, 2] = 0x7FFFFFFC := by
  decide +kernel
theorem test_irem : v2 (.irem always ab false) [7, 0] = 7 ∧ v2 (.irem always ab false) [0x80000000, 0xFFFFFFFF] = 0 ∧
    v2 (.irem always ab false) [0xFFFFFFF9, 2] = 0xFFFFFFFF ∧ v2 (.irem always ab true) [0xFFFFFFF9, 2] = 1 := by decide +kernel
theorem test_imulh : v2 (.imulh always ab false) [0xFFFFFFFF, 0xFFFFFFFF] = 0 ∧
    v2 (.imulh always ab true) [0xFFFFFFFF, 0xFFFFFFFF] = 0xFFFFFFFE := by decide +kernel
theorem test_shifts : v2 (.shr always ab false) [0x80000000, 40] = 0xFFFFFFFF ∧ v2 (.shr always ab true) [0x80000000, 40] = 0 ∧
    v2 (.shl always ab) [0x80000000, 40] = 0 ∧ v2 (.rot always ab false) [0x80000001, 33] = 3 := by decide +kernel
theorem test_counts : v2 (.clz always one) [0] = 32 ∧ v2 (.popc always one) [0xFFFFFFFF] = 32 ∧
    v2 (.iabs always one) [0x80000000] = 0x80000000 := by decide +kernel
theorem test_bfe : v2 (.bfe always abc false) [0xF00, 8, 4] = 0xFFFFFFFF ∧ v2 (.bfe always abc true) [0xF00, 8, 4] = 0xF ∧
    v2 (.bfe always abc false) [0x80000000, 28, 8] = 0xFFFFFFF8 ∧ v2 (.bfe always abc true) [0x80000000, 28, 8] = 8 := by
  decide +kernel
theorem test_iadd_wraps : v2 (.iadd always ab) [0xFFFFFFFF, 2] = 1 ∧ v2 (.isub always ab) [0, 1] = 0xFFFFFFFF := by decide +kernel
theorem test_iadd64 : pair2 (.iadd64 always (ops (.v 2) (.v 4) (.v 6) .none)) [0, 0xFFFFFFFF, 0, 1, 0] = 0x0000000100000000 := by
  decide +kernel
theorem test_imadw : pair2 (.imadw always (ops (.v 2) (.v 3) (.v 4) (.v 6)) false) [0xFFFFFFFF, 2, 0, 5, 0] = 3 := by decide +kernel

-- spec/03 after R58: FP32 to E4M3 under MOD RM, SAT = 1; 470.0 rounds beyond 448 (OVERFLOW and INEXACT)
def e4m3 (rm : Rm) : Instr := .cvt always one .e4m3 .fp32 rm
theorem test_cvt_e4m3 : v2 (e4m3 .rne) [0x43E60000] = 0x7E ∧ v2 (e4m3 .rne) [0x43E80000] = 0x7E ∧ v2 (e4m3 .rne) [0x43EB0000] = 0x7E ∧
    v2 (e4m3 .rne) [0x3A83126F] = 0x01 := by decide +kernel
theorem test_cvt_flags : gstat (e4m3 .rne) [0x43E60000] % 32 = gstat (e4m3 .rz) [0x43EB0000] % 32 ∧
    gstat (e4m3 .rne) [0x43EB0000] ≠ gstat (e4m3 .rz) [0x43EB0000] := by decide +kernel
-- spec/03 R61: INT32 300 to INT8 is 127 with SAT = 1
theorem test_cvt_int8 : v2 (.cvt always one .int8 .int32 .mode) [300] = 127 := by decide +kernel
-- spec/03 R49, four addends of 48.0 at anchor 8, and its reading as FP32; spec/08: FFMA rounds once
theorem test_fadd : v2 (.fadd always ab .rne) [0x4B800000, 0x3F800000] = 0x4B800000 ∧
    v2 (.fmul always ab .rne) [0x40000000, 0x40400000] = 0x40C00000 := by decide +kernel
theorem test_ffma_once : v2 (.ffma always abc .rne) [0x3F800001, 0x3F800001, 0xBF800002] = 0x28800000 := by decide +kernel
theorem test_fdiv : v2 (.fdiv always ab .rne) [0x3F800000, 0x40400000] = 0x3EAAAAAB ∧
    v2 (.fsqrt always one .rne) [0x40000000] = 0x3FB504F3 := by decide +kernel
theorem test_fnan : v2 (.fadd always ab .rne) [0x7F800000, 0xFF800000] = 0x7FC00000 ∧
    v2 (.fmin always ab false) [0x7FC00000, 0x3F800000] = 0x3F800000 := by decide +kernel

/-- 32 lanes of home warp 0 in one group, lane l with V3 = `f l`. -/
def warp32 (i : Instr) (f : Nat → W32) : State :=
  let s := place i
  let s : State := { s with lanes := (List.range 32).map fun l => (l, { s.lane 0 with v := [(3, f l)] }) }
  s.modGroup fun g => { g with lanes := List.range 32 }

-- spec/03 after R66: lane 0 holds 2^24 and lanes 1 to 31 hold 1.0; WRED.FADD gives 0x4B80000F
theorem test_wred_fadd : tget 0 ((after (.wred always one .fadd) (warp32 (.wred always one .fadd) fun l =>
    if l = 0 then 0x4B800000 else 0x3F800000)).lane 5).v 2 = 0x4B80000F := by decide +kernel
-- lane 6 folds [0-3], [4-5] and [6]: 2^24, 1, 1, 1 and 1, 1 and 1
theorem test_wscan_iadd : tget 0 ((after (.wscan always one false .iadd) (warp32 (.wscan always one false .iadd)
    fun l => BitVec.ofNat 32 l)).lane 6).v 2 = 21 := by decide +kernel
theorem test_vote : tget 0 ((after (.vote always (ops (.v 2) (.p 0) .none .none) .any)
    (warp32 (.vote always (ops (.v 2) (.p 0) .none .none) .any) fun _ => 0)).lane 5).v 2 = 0 := by decide +kernel

/-- The lane with both trap vectors set. -/
def trapping (i : Instr) (user kernel : W64) : State :=
  ((place i).modWarp 0 fun w => { w with trapv := user }).modCore 0 fun k => { k with ktrapv := kernel }

-- spec/02 R39, R40, R42, spec/24: TRAP with code 0x2A enters SR.TRAPV; F0 holds CODE 0x30, SLOT 0, CLASS 4, PC
theorem test_trap : ((after (.trap always 0x2A) (trapping (.trap always 0x2A) 0x800 0x900)).lane 0).f0 = 0x3004000000000100 ∧
    ((after (.trap always 0x2A) (trapping (.trap always 0x2A) 0x800 0x900)).lane 0).pc = 0x800 ∧
    (((after (.trap always 0x2A) (trapping (.trap always 0x2A) 0x800 0x900)).lane 0).f3).toNat % 65536 = 0x2A := by decide +kernel
theorem test_trap_kernel : ((after (.bkpt always 1) (trapping (.bkpt always 1) 0 0x900)).lane 0).pc = 0x900 ∧
    ((after (.bkpt always 1) (trapping (.bkpt always 1) 0 0x900)).lane 0).hmode = .kernel := by decide +kernel

-- spec/12: a store's four bytes; an atomic add to 10
theorem test_store_performed : (match exec (.writePerformed 0) (flying { aStore with pa := 0x1000000000FC }) with
    | .next t => (List.range 5).map fun k => Memory.read t.mem (0x1000000000FC + k)
    | _ => []) = [1, 2, 3, 4, 0] := by decide +kernel

-- a guard that is false leaves the register
theorem test_guard : v2 (.iadd ⟨false, 0⟩ ab) [1, 2] = 0 ∧ v2 (.iadd ⟨true, 0⟩ ab) [1, 2] = 3 := by decide +kernel

-- PLUT with an undefined operand code in B is refused (spec/04 R79, spec/02 R41)
theorem test_refuse_plut : dec 0 0x21A050AF70285096 none ≠ .ok (.nop always) ∧
    (RawWord.ofWord 0x0200803F73FF7000).b = 988 ∧ dec 0 0x0200803F73FF7000 none = .error (.illegalOperand 2 988) := by decide +kernel

end Sys2Proof.Tests
end

section
/-! SUPPORT. Tables, folds, and the machine-check log: what logging an error, a link or replays writes and leaves
(spec/26 R370 to R374). -/

namespace Sys2Proof.Machine

/-! ## Tables and folds -/

/-- A key of a table whose values are changed one by one. -/
theorem tfind_mapValues {α β : Type} (t : Tab α) (f : α → β) (k : Nat) :
    tfind (t.map fun p => (p.1, f p.2)) k = (tfind t k).map f := by
  induction t with
  | nil => rfl
  | cons p t ih => simp only [List.map_cons, tfind, ih]; split <;> rfl

/-- A key of a table that keeps entries by their keys. -/
theorem tfind_filterKeys {α : Type} (t : Tab α) (q : Nat → Bool) (k : Nat) :
    tfind (t.filter fun p => q p.1) k = if q k then tfind t k else none := by
  induction t with
  | nil => simp
  | cons p t ih =>
    rw [List.filter_cons]
    by_cases e : p.1 = k
    · by_cases h : q p.1 <;> simp_all [tfind]
    · by_cases h : q p.1 <;> simp_all [tfind]

/-- What a key reads as is one of the table's entries. -/
theorem mem_of_tfind {α : Type} {t : Tab α} {k : Nat} {x : α} (h : tfind t k = some x) : (k, x) ∈ t := by
  induction t with
  | nil => simp at h
  | cons p t ih =>
    rw [tfind] at h
    split at h
    next e => cases h; subst e; exact List.mem_cons_self
    next => exact List.mem_cons_of_mem _ (ih h)

/-- Where keys stand once, an entry is what its key reads as. -/
theorem tfind_of_mem {α : Type} {t : Tab α} (hn : (t.map (·.1)).Nodup) {p : Nat × α} (h : p ∈ t) :
    tfind t p.1 = some p.2 := by
  induction t with
  | nil => simp at h
  | cons q t ih =>
    obtain ⟨hq, ht⟩ := List.nodup_cons.1 hn
    rcases List.mem_cons.1 h with rfl | h
    · simp [tfind]
    · have : q.1 ≠ p.1 := fun e => hq (List.mem_map.2 ⟨p, h, e.symm⟩)
      rw [tfind, if_neg this, ih ht h]

/-- A fold over a list that holds `a` establishes `P`, when the step at `a` makes `P` out of `Q` and every step keeps
both. -/
theorem foldl_establishes {α β : Type} {P Q : β → Prop} {op : β → α → β} {a : α} {l : List α} (ha : a ∈ l)
    (keepQ : ∀ b c, Q b → Q (op b c)) (keepP : ∀ b c, P b → P (op b c)) (make : ∀ b, Q b → P (op b a)) {b : β}
    (h : Q b) : P (l.foldl op b) := by
  induction l generalizing b with
  | nil => simp at ha
  | cons c l ih =>
    rcases List.mem_cons.1 ha with rfl | ha
    · exact List.foldlRecOn l op (make b h) fun b hb c _ => keepP b c hb
    · exact ih ha (keepQ b c h)

/-- A die is read from the table of dies alone. -/
theorem State.die_congr {s t : State} (h : t.dies = s.dies) (d : Nat) : t.die d = s.die d := by
  rw [State.die, State.die, h]

/-! ## Steps as the machine takes them -/

theorem exec_flitReplay (hop : BitVec 8) (d : Nat) (n : Fin 17) (s : State) :
    exec (.flitReplay hop d n) s = execFlitReplay hop d n s := rfl
theorem exec_linkRetrain (hop : BitVec 8) (d port : Nat) (ok : Bool) (users : List Nat) (s : State) :
    exec (.linkRetrain hop d port ok users) s = execLinkRetrain hop d port ok users s := rfl
theorem exec_fenlinkLinkChange (port : Nat) (up : Bool) (entries : List RouteEntry) (s : State) :
    exec (.fenlinkLinkChange port up entries) s = execFenlinkLinkChange port up entries s := rfl
theorem exec_scrub (site : Site) (s : State) : exec (.scrub site) s = execScrub site s := rfl
theorem exec_boot (bad : List (List Nat)) (s : State) : exec (.boot bad) s = execBoot bad s := rfl

/-! ## The machine-check log -/

/-- The entry that an error at a site writes (spec/26 R374). -/
def State.logEntry (s : State) (site : Site) (unc : Bool) (synd : W32) (core : Nat) (launch : W32) : McEntry :=
  { mc0 := mcWord unc (hopOf site) (s.siteDie site) core launch
    mc1 := s.siteWord site (if siteUnnamed site then s.free.1 else 0)
    mc2 := BitVec.ofNat 64 (s.dieGt (s.siteDie site))
    mc3 := BitVec.ofNat 64 (synd.toNat * 2 ^ 32 + min (s.siteErrors site + 1) 0xFFFFFFFF) }

/-- Listing a row for repair changes the rows' times and the list alone. -/
theorem State.listRow_eq (s : State) (site : Site) (unc : Bool) :
    ∃ ts rows, s.listRow site unc = { s with rowTimes := ts, repairRows := rows } := by
  unfold State.listRow
  cases siteRow site with
  | none => exact ⟨_, _, rfl⟩
  | some r =>
    dsimp only
    generalize (ite (unc = true) _ _ : List Nat) = ts
    split <;> exact ⟨_, _, rfl⟩

/-- An uncorrectable error lists its HBM row (spec/26 R387). -/
theorem State.mem_listRow {s : State} {site : Site} {r : Nat} (h : siteRow site = some r) :
    r ∈ (s.listRow site true).repairRows := by
  by_cases hr : r ∈ s.repairRows <;> simp [State.listRow, h, hr]

/-- The state with the entry in the log of the site's die and the error counted; its row is still to be listed. -/
def State.noted (s : State) (site : Site) (unc : Bool) (synd : W32) (core : Nat) (launch : W32) : State :=
  { (s.modDie (s.siteDie site) fun x => (x.log (s.logEntry site unc synd core launch) unc).wear site unc) with
    freeCtr := if siteUnnamed site then s.freeCtr + 1 else s.freeCtr
    errors := (site, min (s.siteErrors site + 1) 0xFFFFFFFF) :: s.errors.filter (fun x => x.1 ≠ site) }

theorem State.logError_eq_listRow (s : State) (site : Site) (unc : Bool) (synd : W32) (core : Nat) (launch : W32) :
    s.logError site unc synd core launch = (s.noted site unc synd core launch).listRow site unc := by
  unfold State.logError State.noted State.logEntry
  cases siteUnnamed site <;> rfl

/-- Logging an error: the entry, the count, and the rows' times and list. -/
theorem State.logError_eq (s : State) (site : Site) (unc : Bool) (synd : W32) (core : Nat) (launch : W32) :
    ∃ ts rows, s.logError site unc synd core launch =
      { s.noted site unc synd core launch with rowTimes := ts, repairRows := rows } := by
  rw [State.logError_eq_listRow]
  exact State.listRow_eq _ _ _

/-- Logging an uncorrectable error lists its HBM row (spec/26 R387). -/
theorem State.mem_repairRows_logError {s : State} {site : Site} {synd : W32} {core : Nat} {launch : W32} {r : Nat}
    (h : siteRow site = some r) : r ∈ (s.logError site true synd core launch).repairRows := by
  rw [State.logError_eq_listRow]
  exact State.mem_listRow h

theorem State.dies_noted (s : State) (site : Site) (unc : Bool) (synd : W32) (core : Nat) (launch : W32) :
    (s.noted site unc synd core launch).dies = (s.modDie (s.siteDie site) fun x =>
      (x.log (s.logEntry site unc synd core launch) unc).wear site unc).dies := rfl

/-- The log of the site's die gets the entry; the other dies stay. -/
theorem State.die_noted (s : State) (site : Site) (unc : Bool) (synd : W32) (core : Nat) (launch : W32) (j : Nat) :
    (s.noted site unc synd core launch).die j =
      if j = s.siteDie site then ((s.die j).log (s.logEntry site unc synd core launch) unc).wear site unc
      else s.die j := by
  rw [State.die_congr (State.dies_noted s site unc synd core launch), State.die_modDie]
  split
  next h => rw [h]
  next => rfl

/-- The errors counted at the site itself (spec/26 R374). -/
theorem State.siteErrors_noted (s : State) (site : Site) (unc : Bool) (synd : W32) (core : Nat) (launch : W32) :
    (s.noted site unc synd core launch).siteErrors site = min (s.siteErrors site + 1) 0xFFFFFFFF := by
  unfold State.noted
  simp [State.siteErrors]

/-- An error's wear changes the die's worn clusters alone. -/
theorem Die.wear_eq (x : Die) (site : Site) (unc : Bool) : ∃ cs, x.wear site unc = { x with worn := cs } := by
  unfold Die.wear
  dsimp only
  split
  · split <;> exact ⟨_, rfl⟩
  · exact ⟨_, rfl⟩

@[simp] theorem Die.wear_mcLog (x : Die) (site : Site) (unc : Bool) : (x.wear site unc).mcLog = x.mcLog := by
  obtain ⟨cs, e⟩ := x.wear_eq site unc
  rw [e]

@[simp] theorem Die.wear_corrected (x : Die) (site : Site) (unc : Bool) :
    (x.wear site unc).corrected = x.corrected := by
  obtain ⟨cs, e⟩ := x.wear_eq site unc
  rw [e]

/-- SYNDROME and COUNT of MC3 share the doubleword. -/
theorem mc3_toNat (synd : W32) (n : Nat) :
    (BitVec.ofNat 64 (synd.toNat * 2 ^ 32 + min n 0xFFFFFFFF)).toNat = synd.toNat * 2 ^ 32 + min n 0xFFFFFFFF := by
  rw [BitVec.toNat_ofNat, Nat.mod_eq_of_lt]
  have := synd.isLt
  omega

/-- MC0 as the claims write it, for codes that fit their fields. -/
theorem mcWord_eq_mc0Of {unc : Bool} {hop d core : Nat} (launch : W32) (hh : hop < 256) (hd : d < 8)
    (hc : core < 2048) :
    mcWord unc hop d core launch = Claims.mc0Of unc hop d core launch := by
  rw [mcWord, Claims.mc0Of, Nat.mod_eq_of_lt hh, Nat.mod_eq_of_lt hd, Nat.mod_eq_of_lt hc]

theorem hopOf_eq_hopCode (site : Site) : hopOf site = Claims.hopCode site := by cases site <;> rfl
theorem siteCore_eq_coreCode (site : Site) : siteCore site = Claims.coreCode site := by cases site <;> rfl

/-! ## Links in the log (R372) -/

/-- A link's log entry is that of an error at the link, with a free syndrome; a link has no HBM row. -/
theorem State.logLink_eq (s : State) (hop d : Nat) (unc : Bool) (launch : W32) :
    s.logLink hop d unc launch = s.free.2.noted (.link hop d) unc (s.free.1.setWidth 32) 0x7FF launch :=
  (State.logError_eq_listRow s.free.2 (.link hop d) unc (s.free.1.setWidth 32) 0x7FF launch).trans rfl

theorem State.die_logLink (s : State) (hop d : Nat) (unc : Bool) (launch : W32) (j : Nat) :
    (s.logLink hop d unc launch).die j = if j = d then
      (s.die j).log (s.free.2.logEntry (.link hop d) unc (s.free.1.setWidth 32) 0x7FF launch) unc else s.die j := by
  rw [State.logLink_eq, State.die_noted]; rfl

theorem State.siteErrors_logLink (s : State) (hop d : Nat) (unc : Bool) (launch : W32) :
    (s.logLink hop d unc launch).siteErrors (.link hop d) = min (s.siteErrors (.link hop d) + 1) 0xFFFFFFFF := by
  rw [State.logLink_eq, State.siteErrors_noted]; rfl

/-- The entry of a link: MC0, MC2 and COUNT. -/
theorem State.exists_linkEntry (s : State) {hop d : Nat} (unc : Bool) (launch : W32) (hh : hop < 256) (hd : d < 8) :
    ∃ e, tfind ((s.logLink hop d unc launch).die d).mcLog (s.die d).mcHead = some e ∧
      e.mc0 = Claims.mc0Of unc hop d 0x7FF launch ∧ e.mc2 = BitVec.ofNat 64 (s.dieGt d) ∧
      e.mc3.toNat % 2 ^ 32 = min (s.siteErrors (.link hop d) + 1) 0xFFFFFFFF := by
  refine ⟨_, by rw [State.die_logLink, if_pos rfl]; exact (tfind_tset _ _ _ _).trans (if_pos rfl), ?_, rfl, ?_⟩
  · exact mcWord_eq_mc0Of launch hh hd (by decide)
  · refine (congrArg (· % 2 ^ 32) (mc3_toNat _ _)).trans ?_
    have : s.free.2.siteErrors (.link hop d) = s.siteErrors (.link hop d) := rfl
    rw [this]; omega

/-! ## Replays (R372, R374) -/

theorem State.logReplays_frame (s : State) (hop d n : Nat) :
    let t := s.logReplays hop d n
    t = { s with dies := t.dies, freeCtr := t.freeCtr, errors := t.errors } := by
  induction n generalizing s with
  | zero => rfl
  | succ n ih => exact (ih (s.logLink hop d false 0)).trans rfl

theorem State.mcHead_logReplays (s : State) (hop d n : Nat) (h : (s.die d).mcHead < 1024) :
    ((s.logReplays hop d n).die d).mcHead = ((s.die d).mcHead + n) % 1024 := by
  induction n generalizing s with
  | zero => exact (Nat.mod_eq_of_lt h).symm
  | succ n ih =>
    have head : ((s.logLink hop d false 0).die d).mcHead = ((s.die d).mcHead + 1) % 1024 := by
      rw [State.die_logLink, if_pos rfl]; rfl
    rw [State.logReplays, ih _ (by omega), head]
    omega

theorem State.corrected_logReplays (s : State) (hop d n : Nat) :
    ((s.logReplays hop d n).die d).corrected = (s.die d).corrected + n := by
  induction n generalizing s with
  | zero => rfl
  | succ n ih =>
    have one : ((s.logLink hop d false 0).die d).corrected = (s.die d).corrected + 1 := by
      rw [State.die_logLink, if_pos rfl]; rfl
    rw [State.logReplays, ih, one]
    omega

/-- Replays write their own places of the ring and no other. -/
theorem State.mcLog_logReplays_of_ne (s : State) (hop d n i : Nat) (h : (s.die d).mcHead < 1024)
    (hi : ∀ k < n, ((s.die d).mcHead + k) % 1024 ≠ i) :
    tfind ((s.logReplays hop d n).die d).mcLog i = tfind (s.die d).mcLog i := by
  induction n generalizing s with
  | zero => rfl
  | succ n ih =>
    have next : (s.logLink hop d false 0).die d = _ := (State.die_logLink s hop d false 0 d).trans (if_pos rfl)
    have head : ((s.logLink hop d false 0).die d).mcHead = ((s.die d).mcHead + 1) % 1024 := by rw [next]; rfl
    have first : i ≠ (s.die d).mcHead := by have := hi 0 (by omega); omega
    rw [State.logReplays, ih _ (by omega), next]
    · exact (tfind_tset _ _ _ _).trans (if_neg first)
    · intro k hk
      have := hi (k + 1) (by omega)
      omega

/-- A saturating count goes on from where it stands. -/
theorem min_count (a k m : Nat) : min (min (a + 1) m + k + 1) m = min (a + (k + 1) + 1) m := by omega

/-- Each replay has its entry, in order (spec/26 R374). -/
theorem State.exists_replayEntry (s : State) {hop d n k : Nat} (hh : hop < 256) (hd : d < 8)
    (h : (s.die d).mcHead < 1024) (hn : n ≤ 1024) (hk : k < n) :
    ∃ e, tfind ((s.logReplays hop d n).die d).mcLog (((s.die d).mcHead + k) % 1024) = some e ∧
      e.mc0 = Claims.mc0Of false hop d 0x7FF 0 ∧ e.mc2 = BitVec.ofNat 64 (s.dieGt d) ∧
      e.mc3.toNat % 2 ^ 32 = min (s.siteErrors (.link hop d) + k + 1) 0xFFFFFFFF := by
  induction n generalizing s k with
  | zero => omega
  | succ n ih =>
    have head : ((s.logLink hop d false 0).die d).mcHead = ((s.die d).mcHead + 1) % 1024 := by
      rw [State.die_logLink, if_pos rfl]; rfl
    have lt : ((s.logLink hop d false 0).die d).mcHead < 1024 := by omega
    cases k with
    | zero =>
      rw [State.logReplays, State.mcLog_logReplays_of_ne _ hop d n _ lt (by intro k hk; omega), Nat.add_zero,
        Nat.mod_eq_of_lt h]
      exact s.exists_linkEntry false 0 hh hd
    | succ k =>
      obtain ⟨e, he, h0, h2, h3⟩ := ih (s.logLink hop d false 0) lt (by omega) (k := k) (by omega)
      refine ⟨e, ?_, h0, h2, ?_⟩
      · have place : ((s.die d).mcHead + (k + 1)) % 1024 = (((s.die d).mcHead + 1) % 1024 + k) % 1024 := by omega
        rw [State.logReplays, place, ← head, he]
      · rw [h3, State.siteErrors_logLink, min_count]

end Sys2Proof.Machine
end

section
/-! SUPPORT. Links: what kills and a Fenlink's fall change, and a port's routes (spec/26 R372, R373; spec/23 R350). -/

namespace Sys2Proof.Machine

/-! ## Changes to dies alone -/

/-- Only dies have changed. -/
def onlyDies (s t : State) : Prop := t = { s with dies := t.dies }

theorem onlyDies.trans {s t u : State} (h : onlyDies s t) (k : onlyDies t u) : onlyDies s u := by
  rw [onlyDies, k, h]

theorem onlyDies.mem {s t : State} (h : onlyDies s t) : t.mem = s.mem := by rw [h]

theorem onlyDies.lanes {s t : State} (h : onlyDies s t) : t.lanes = s.lanes := by rw [h]

theorem onlyDies.links {s t : State} (h : onlyDies s t) : t.links = s.links := by rw [h]

theorem onlyDies.of_links {s t : State} {l : Tab Bool} (h : onlyDies { s with links := l } t) :
    t = { s with dies := t.dies, links := t.links } := by
  rw [h]

theorem onlyDies_modDie (s : State) (d : Nat) (f : Die → Die) : onlyDies s (s.modDie d f) := rfl

/-! ## What a kill leaves unchanged (R373) -/

/-- Only launches, cores, and the queues of dies have changed. -/
def onlyQueued (s t : State) : Prop :=
  t = { s with launches := t.launches, cores := t.cores, dies := t.dies } ∧
    ∀ d, t.die d = { s.die d with queues := (t.die d).queues }

theorem onlyQueued.refl (s : State) : onlyQueued s s := ⟨rfl, fun _ => rfl⟩

theorem onlyQueued.trans {s t u : State} (h : onlyQueued s t) (k : onlyQueued t u) : onlyQueued s u := by
  obtain ⟨h, hd⟩ := h
  obtain ⟨k, kd⟩ := k
  exact ⟨by rw [k, h], fun d => by rw [kd, hd]⟩

theorem onlyQueued.mem {s t : State} (h : onlyQueued s t) : t.mem = s.mem := by rw [h.1]

theorem onlyQueued.lanes {s t : State} (h : onlyQueued s t) : t.lanes = s.lanes := by rw [h.1]

theorem onlyQueued.links {s t : State} (h : onlyQueued s t) : t.links = s.links := by rw [h.1]

theorem onlyQueued.mcHead {s t : State} (h : onlyQueued s t) (d : Nat) : (t.die d).mcHead = (s.die d).mcHead := by
  rw [h.2 d]

theorem onlyQueued_modDie (s : State) (d : Nat) (f : Die → Tab Queue) :
    onlyQueued s (s.modDie d fun x => { x with queues := f x }) := by
  refine ⟨rfl, fun j => ?_⟩
  rw [State.die_modDie]
  split
  next h => rw [h]
  next => rfl

theorem onlyQueued_modLaunch (s : State) (i : Nat) (f : Launch → Launch) : onlyQueued s (s.modLaunch i f) :=
  ⟨rfl, fun _ => rfl⟩

theorem onlyQueued_withdraw (s : State) (is : List Nat) : onlyQueued s (s.withdraw is) := ⟨rfl, fun _ => rfl⟩

theorem onlyQueued_stopQueue (s : State) (d q : Nat) (code : BitVec 8) (idx : W64) :
    onlyQueued s (s.stopQueue d q code idx) :=
  (onlyQueued_withdraw s (s.waitingOf d q)).trans (onlyQueued_modDie _ d fun x => tmod x.queues q _)

theorem onlyQueued_endLaunch (s : State) (i : Nat) (x : Launch) : onlyQueued s (s.endLaunch i x) := by
  have gone : onlyQueued s { s with launches := tdel s.launches i } := ⟨rfl, fun _ => rfl⟩
  unfold State.endLaunch
  cases x.queue with
  | none => exact gone
  | some p => exact gone.trans (onlyQueued_modDie _ p.1 fun y => tmod y.queues p.2 _)

/-! ## What a kill does to launches (R373) -/

/-- A launch whose context is killed: a running one halts. -/
def Launch.kill (x : Launch) : Launch :=
  { x with killing := true, state := match x.state with
      | .running => .halting
      | st => st }

theorem State.killLaunch_absent {s : State} {i : Nat} (h : tfind s.launches i = none) : s.killLaunch i = s := by
  rw [State.killLaunch, h]

/-- What a kill can do: nothing to a launch that is over or already being killed; else it is marked, its queue stops
where it has one, and one that stands halted may leave. -/
theorem State.killLaunch_cases {s : State} {i : Nat} {x : Launch} (h : tfind s.launches i = some x) :
    (s.killLaunch i = s ∧ (x.state = .complete ∨ x.state = .killed ∨ x.killing = true)) ∨
    (x.killing = false ∧ ∃ t, (t = s.modLaunch i Launch.kill ∨
        ∃ d q idx, t = (s.modLaunch i Launch.kill).stopQueue d q 0x08 idx) ∧
      (s.killLaunch i = t ∨ x.resumes = true ∧ s.killLaunch i = t.withdraw [i])) := by
  rw [State.killLaunch, h]
  dsimp only
  split
  next e => exact .inl ⟨rfl, .inl e⟩
  next e => exact .inl ⟨rfl, .inr (.inl e)⟩
  next =>
    split
    next k => exact .inl ⟨rfl, .inr (.inr k)⟩
    next k =>
      refine .inr ⟨by simpa using k, ?_⟩
      split
      next => exact ⟨_, .inl rfl, .inl rfl⟩
      next d q _ =>
        split
        next y _ =>
          refine ⟨_, .inr ⟨d, q, y.qread, rfl⟩, ?_⟩
          split
          next e => exact .inr ⟨by rw [Launch.resumes, e], rfl⟩
          next => exact .inl rfl
        next => exact ⟨_, .inl rfl, .inl rfl⟩

theorem onlyQueued_killLaunch (s : State) (i : Nat) : onlyQueued s (s.killLaunch i) := by
  cases h : tfind s.launches i with
  | none => rw [State.killLaunch_absent h]; exact .refl s
  | some x =>
    rcases State.killLaunch_cases h with ⟨e, -⟩ | ⟨-, t, ht, e⟩
    · rw [e]; exact .refl s
    · have stopped : onlyQueued s t := by
        rcases ht with rfl | ⟨d, q, idx, rfl⟩
        · exact onlyQueued_modLaunch s i _
        · exact (onlyQueued_modLaunch s i _).trans (onlyQueued_stopQueue _ d q _ idx)
      rcases e with e | ⟨-, e⟩ <;> rw [e]
      · exact stopped
      · exact stopped.trans (onlyQueued_withdraw t [i])

/-- What a kill of a context wherever it is can do. -/
theorem State.killContext_cases (s : State) (i : Nat) :
    (tfind s.launches i = none ∧ s.killContext i = s) ∨ ∃ x, tfind s.launches i = some x ∧
      (x.resumes = true ∧ s.killContext i = (s.killLaunch i).endLaunch i x ∨ s.killContext i = s.killLaunch i) := by
  unfold State.killContext
  cases h : tfind s.launches i with
  | none => exact .inl ⟨rfl, rfl⟩
  | some x =>
    refine .inr ⟨x, rfl, ?_⟩
    cases r : x.resumes
    · exact .inr (by simp [r])
    · exact .inl ⟨rfl, by simp [r]⟩

theorem onlyQueued_killContext (s : State) (i : Nat) : onlyQueued s (s.killContext i) := by
  rcases s.killContext_cases i with ⟨-, e⟩ | ⟨x, -, ⟨-, e⟩ | e⟩ <;> rw [e]
  · exact .refl s
  · exact (onlyQueued_killLaunch s i).trans (onlyQueued_endLaunch _ i x)
  · exact onlyQueued_killLaunch s i

/-! ## A context over a failed link halts (R372, R373) -/

/-- No entry of a launch waits for cores. -/
def State.placed (s : State) (i : Nat) : Prop := ∀ p ∈ s.launches, p.1 = i → p.2.state ≠ .waiting

/-- A launch is known, with some property, and no longer waits for cores. -/
def State.placedAs (s : State) (i : Nat) (ok : Launch → Prop) : Prop :=
  s.placed i ∧ ∃ x, tfind s.launches i = some x ∧ ok x

theorem State.not_mem_waitingOf {s : State} {i : Nat} (h : s.placed i) (d q : Nat) : i ∉ s.waitingOf d q := by
  intro hi
  obtain ⟨p, hp, e⟩ := List.mem_filterMap.1 hi
  split at e
  next hw =>
    cases e
    exact h p hp rfl (by simpa using (Bool.and_eq_true_iff.1 hw).1)
  next => cases e

theorem State.find_withdraw (s : State) (is : List Nat) (i : Nat) :
    tfind (s.withdraw is).launches i = if i ∈ is then none else tfind s.launches i := by
  refine (tfind_filterKeys s.launches (fun k => !is.contains k) i).trans ?_
  by_cases h : i ∈ is <;> simp [h]

theorem State.placedAs.withdraw {s : State} {i : Nat} {ok : Launch → Prop} (h : s.placedAs i ok) {is : List Nat}
    (hi : i ∉ is) : (s.withdraw is).placedAs i ok := by
  obtain ⟨hp, x, hx, hok⟩ := h
  exact ⟨fun p hm => hp p (List.mem_filter.1 hm).1, x, by rw [State.find_withdraw, if_neg hi, hx], hok⟩

theorem State.placedAs.stopQueue {s : State} {i : Nat} {ok : Launch → Prop} (h : s.placedAs i ok) (d q : Nat)
    (code : BitVec 8) (idx : W64) : (s.stopQueue d q code idx).placedAs i ok :=
  h.withdraw (State.not_mem_waitingOf h.1 d q)

theorem State.placedAs.endLaunch {s : State} {i j : Nat} {ok : Launch → Prop} (h : s.placedAs i ok) (hj : i ≠ j)
    (x : Launch) : (s.endLaunch j x).placedAs i ok := by
  obtain ⟨hp, y, hy, hok⟩ := h
  have gone : (s.endLaunch j x).launches = tdel s.launches j := by
    unfold State.endLaunch; split <;> rfl
  refine ⟨fun p hm => hp p (mem_tdel (gone ▸ hm)), y, ?_, hok⟩
  rw [gone, tfind_tdel, if_neg hj, hy]

theorem Launch.kill_state_ne_waiting {x : Launch} (h : x.state ≠ .waiting) : x.kill.state ≠ .waiting := by
  unfold Launch.kill
  cases e : x.state <;> simp_all

/-- A launch marked as killed: the marked one is as the kill makes it, another stays. -/
theorem State.placedAs.markKilled {s : State} {i : Nat} {ok ok' : Launch → Prop} (h : s.placedAs i ok) (j : Nat)
    (hok : ∀ x, ok x → ok' (if i = j then x.kill else x)) : (s.modLaunch j Launch.kill).placedAs i ok' := by
  obtain ⟨hp, x, hx, hk⟩ := h
  refine ⟨?_, _, ?_, hok x hk⟩
  · intro p hm e
    unfold State.modLaunch tmod at hm
    cases hj : tfind s.launches j with
    | none => simp only [hj] at hm; exact hp p hm e
    | some y =>
      simp only [hj] at hm
      rcases mem_tset hm with rfl | hm
      · exact Launch.kill_state_ne_waiting (hp _ (mem_of_tfind hj) e)
      · exact hp p hm e
  · rw [State.find_modLaunch]
    split
    next e => rw [← e, hx]; rfl
    next => exact hx

/-- A running launch not yet killed, or one on its way to a halt. -/
def Launch.goes (x : Launch) : Prop := x.state = .running ∧ x.killing = false ∨ x.state = .halting

/-- A launch on its way to a halt. -/
def Launch.halts (x : Launch) : Prop := x.state = .halting

theorem Launch.halts.goes {x : Launch} (h : x.halts) : x.goes := .inr h

theorem Launch.halts.kill {x : Launch} (h : x.halts) : x.kill.halts := by
  unfold Launch.halts at h
  simp [Launch.halts, Launch.kill, h]

theorem Launch.goes.kill_halts {x : Launch} (h : x.goes) : x.kill.halts := by
  rcases h with ⟨h, -⟩ | h
  · simp [Launch.halts, Launch.kill, h]
  · exact Launch.halts.kill h

theorem Launch.goes.not_resumes {x : Launch} (h : x.goes) : x.resumes = false := by
  rcases h with ⟨h, -⟩ | h <;> simp [Launch.resumes, h]

/-- A kill of any launch, for a launch that goes: what a kill makes of it where it is the one that is killed, unless it
is being killed already. -/
theorem State.placedAs.killLaunch {s : State} {i : Nat} {ok ok' : Launch → Prop} (h : s.placedAs i ok)
    (goes : ∀ x, ok x → x.goes) (j : Nat) (kept : ∀ x, ok x → (i = j → x.halts) → ok' x)
    (killed : ∀ x, ok x → i = j → ok' x.kill) : (s.killLaunch j).placedAs i ok' := by
  have marked : (s.modLaunch j Launch.kill).placedAs i ok' := h.markKilled j fun x hx => by
    split
    next e => exact killed x hx e
    next e => exact kept x hx fun e' => absurd e' e
  obtain ⟨hp, x, hx, hok⟩ := h
  cases hj : tfind s.launches j with
  | none =>
    rw [State.killLaunch_absent hj]
    refine ⟨hp, x, hx, kept x hok ?_⟩
    rintro rfl
    cases hx.symm.trans hj
  | some y =>
    rcases State.killLaunch_cases hj with ⟨e, spent⟩ | ⟨-, t, ht, e⟩
    · rw [e]
      refine ⟨hp, x, hx, kept x hok ?_⟩
      rintro rfl
      cases hx.symm.trans hj
      rcases goes x hok with ⟨hr, hk⟩ | hh
      · simp [hr, hk] at spent
      · exact hh
    · have stopped : t.placedAs i ok' := by
        rcases ht with rfl | ⟨d, q, idx, rfl⟩
        · exact marked
        · exact marked.stopQueue d q _ idx
      rcases e with e | ⟨hr, e⟩ <;> rw [e]
      · exact stopped
      · refine stopped.withdraw ?_
        rw [List.mem_singleton]
        rintro rfl
        cases hx.symm.trans hj
        rw [(goes x hok).not_resumes] at hr
        cases hr

/-- The same for a kill of a context wherever it is. -/
theorem State.placedAs.killContext {s : State} {i : Nat} {ok ok' : Launch → Prop} (h : s.placedAs i ok)
    (goes : ∀ x, ok x → x.goes) (j : Nat) (kept : ∀ x, ok x → (i = j → x.halts) → ok' x)
    (killed : ∀ x, ok x → i = j → ok' x.kill) : (s.killContext j).placedAs i ok' := by
  have dead := h.killLaunch goes j kept killed
  obtain ⟨hp, x, hx, hok⟩ := h
  rcases s.killContext_cases j with ⟨hj, e⟩ | ⟨y, hj, ⟨hr, e⟩ | e⟩ <;> rw [e]
  · rwa [State.killLaunch_absent hj] at dead
  · refine dead.endLaunch ?_ y
    rintro rfl
    cases hx.symm.trans hj
    rw [(goes x hok).not_resumes] at hr
    cases hr
  · exact dead

/-- Of the contexts over a failed link each that runs is halting once all are killed (R372). -/
theorem State.placedAs_halts_of_mem_users {s : State} {users : List Nat} {i : Nat} (hi : i ∈ users)
    (h : s.placedAs i Launch.goes) : (users.foldl State.killContext s).placedAs i Launch.halts :=
  foldl_establishes (P := fun t : State => t.placedAs i Launch.halts) (Q := fun t : State => t.placedAs i Launch.goes)
    hi
    (fun _ j h => h.killContext (fun _ hx => hx) j (fun _ hx _ => hx) fun _ hx _ => hx.kill_halts.goes)
    (fun _ j h => h.killContext (fun _ hx => hx.goes) j (fun _ hx _ => hx) fun _ hx _ => hx.kill)
    (fun _ h => h.killContext (fun _ hx => hx) i (fun _ _ hh => hh rfl) fun _ hx _ => hx.kill_halts) h

/-- A known launch that runs and is not being killed goes, where keys stand once. -/
theorem State.placedAs_goes {s : State} {i : Nat} {x : Launch} (hn : (s.launches.map (·.1)).Nodup)
    (hx : tfind s.launches i = some x) (hr : x.state = .running) (hk : x.killing = false) :
    s.placedAs i Launch.goes := by
  refine ⟨?_, x, hx, .inl ⟨hr, hk⟩⟩
  rintro p hp rfl
  cases (tfind_of_mem hn hp).symm.trans hx
  simp [hr]

/-! ## A Fenlink goes down (spec/23 R350) -/

/-- What a failed Fenlink does to the queues before it is down: those with a NETWRITE over it stop or drop it. -/
theorem State.linkFails_eq (s : State) (port : Nat) : ∃ op : State → Nat × Queue → State,
    s.linkFails port = { (s.die (port / 2)).queues.foldl op s with
      links := tput false ((s.die (port / 2)).queues.foldl op s).links port false } ∧
    ∀ t p, op t p = t ∨ (∃ q code idx, op t p = t.stopQueue (port / 2) q code idx) ∨
      ∃ q f, op t p = t.modQueue (port / 2) q f := by
  refine ⟨_, rfl, fun t p => ?_⟩
  dsimp only
  split
  · exact .inr (.inl ⟨_, _, _, rfl⟩)
  · split
    · exact .inr (.inr ⟨_, _, rfl⟩)
    · exact .inl rfl

/-- A failed Fenlink is down, and but for it only queues and launches have changed. -/
theorem State.linkFails_onlyQueued (s : State) (port : Nat) :
    ∃ t, onlyQueued s t ∧ s.linkFails port = { t with links := tput false s.links port false } := by
  obtain ⟨op, e, ops⟩ := s.linkFails_eq port
  have all : onlyQueued s ((s.die (port / 2)).queues.foldl op s) :=
    List.foldlRecOn _ op (.refl s) fun t h p _ => by
      rcases ops t p with e | ⟨q, code, idx, e⟩ | ⟨q, f, e⟩ <;> rw [e]
      · exact h
      · exact h.trans (onlyQueued_stopQueue t _ q code idx)
      · exact h.trans (onlyQueued_modDie t _ fun x => tmod x.queues q f)
  refine ⟨_, all, ?_⟩
  rw [e, all.links]

theorem State.placedAs.linkFails {s : State} {i : Nat} {ok : Launch → Prop} (h : s.placedAs i ok) (port : Nat) :
    (s.linkFails port).placedAs i ok := by
  obtain ⟨op, e, ops⟩ := s.linkFails_eq port
  rw [e]
  exact List.foldlRecOn (motive := fun t : State => t.placedAs i ok) _ op h fun t h p _ => by
    rcases ops t p with e | ⟨q, code, idx, e⟩ | ⟨q, f, e⟩ <;> rw [e]
    · exact h
    · exact h.stopQueue _ q code idx
    · exact h

/-- What a link that fails to train does before its entry: the kills, and the fall of a Fenlink. -/
def State.linkLost (s : State) (hop : BitVec 8) (port : Nat) (users : List Nat) : State :=
  if hop = 7 then (users.foldl State.killContext s).linkFails port else users.foldl State.killContext s

theorem State.placedAs.linkLost {s : State} {users : List Nat} {i : Nat} (h : s.placedAs i Launch.goes)
    (hop : BitVec 8) (port : Nat) (hi : i ∈ users) : (s.linkLost hop port users).placedAs i Launch.halts := by
  have dead := State.placedAs_halts_of_mem_users hi h
  unfold State.linkLost
  split
  · exact dead.linkFails port
  · exact dead

/-- Over a lost link, memory, lanes and the dies' logs stay, and a Fenlink is down. -/
theorem State.linkLost_keeps (s : State) (hop : BitVec 8) (port : Nat) (users : List Nat) :
    (s.linkLost hop port users).mem = s.mem ∧ (s.linkLost hop port users).lanes = s.lanes ∧
      (∀ d, ((s.linkLost hop port users).die d).mcHead = (s.die d).mcHead) ∧
      (hop = 7 → tget false (s.linkLost hop port users).links port = false) := by
  have kills : onlyQueued s (users.foldl State.killContext s) :=
    List.foldlRecOn _ _ (.refl s) fun t h j _ => h.trans (onlyQueued_killContext t j)
  unfold State.linkLost
  split
  next =>
    obtain ⟨t, h, e⟩ := (users.foldl State.killContext s).linkFails_onlyQueued port
    have both := kills.trans h
    rw [e]
    exact ⟨both.mem, both.lanes, both.mcHead, fun _ => by simp⟩
  next e => exact ⟨kills.mem, kills.lanes, kills.mcHead, fun h => absurd h e⟩

/-- A hop that is a link, of a die, on a port of that die where it is a Fenlink. -/
theorem retrain_named {hop : BitVec 8} {d port : Nat} (hd : d < 8) (hh : isLink hop.toNat = true)
    (hp : hop = 7 → port / 2 = d) :
    (!(decide (d < Config.dies) && isLink hop.toNat && (hop != 7 || port / 2 == d))) = false := by
  have port_ : (hop != 7 || port / 2 == d) = true := by
    by_cases e : hop = 7
    · rw [hp e, beq_self_eq_true, Bool.or_true]
    · rw [bne_iff_ne.2 e, Bool.true_or]
  rw [port_, hh, decide_eq_true (show d < Config.dies from hd)]
  rfl

theorem execLinkRetrain_trained {hop : BitVec 8} {d port : Nat} (users : List Nat) (s : State) (hd : d < 8)
    (hh : isLink hop.toNat = true) (hp : hop = 7 → port / 2 = d) :
    execLinkRetrain hop d port true users s = .next s := by
  rw [execLinkRetrain, retrain_named hd hh hp]
  rfl

theorem execLinkRetrain_lost {hop : BitVec 8} {d port : Nat} (users : List Nat) (s : State) (hd : d < 8)
    (hh : isLink hop.toNat = true) (hp : hop = 7 → port / 2 = d) :
    execLinkRetrain hop d port false users s = .next ((s.linkLost hop port users).logLink hop.toNat d true
      ((users.head?.map fun i => (s.launchAt i).num).getD 0)) := by
  rw [execLinkRetrain, retrain_named hd hh hp]
  rfl

/-! ## Routes of a Fenlink's port (spec/23 R350) -/

/-- A die without the routes of a port. -/
def Die.unroute (x : Die) (port : Nat) : Die := { x with routes := x.routes.filter fun r => r.2.port != port }

/-- The state with the routes of a port gone. -/
def State.unrouted (s : State) (port : Nat) : State := { s with dies := s.dies.map fun p => (p.1, p.2.unroute port) }

/-- The state with one route of a port. -/
def State.route (port : Nat) (s : State) (e : RouteEntry) : State :=
  s.modDie e.1 fun x => { x with routes := tset x.routes e.2.1 { port := port, grant := e.2.2 } }

/-- The state with the routes of a port those that some entries name on its own die. -/
def State.reroute (s : State) (port : Nat) (entries : List RouteEntry) : State :=
  (entries.filter fun e => e.1 == port / 2).foldl (State.route port) (s.unrouted port)

theorem execFenlinkLinkChange_eq {port : Nat} (up : Bool) (entries : List RouteEntry) (s : State) (h : port < 16) :
    execFenlinkLinkChange port up entries s = .next
      ((if up then { s with links := tput false s.links port true } else s.linkFails port).reroute port entries) := by
  simp [execFenlinkLinkChange, h]
  rfl

theorem onlyDies_reroute (s : State) (port : Nat) (entries : List RouteEntry) : onlyDies s (s.reroute port entries) :=
  List.foldlRecOn (motive := onlyDies s) _ (State.route port) (show onlyDies s (s.unrouted port) from rfl)
    fun t h e _ => h.trans (onlyDies_modDie t e.1 _)

theorem State.die_unrouted (s : State) (port d : Nat) : (s.unrouted port).die d = (s.die d).unroute port := by
  have table : (s.unrouted port).dies = s.dies.map fun p => (p.1, p.2.unroute port) := rfl
  rw [State.die, tget, table, tfind_mapValues s.dies (·.unroute port), State.die, tget]
  cases tfind s.dies d <;> rfl

theorem State.port_of_unrouted {s : State} {port d p : Nat} {r : Route}
    (h : tfind ((s.unrouted port).die d).routes p = some r) : r.port ≠ port := by
  rw [State.die_unrouted] at h
  simpa using (List.mem_filter.1 (mem_of_tfind h)).2

theorem State.find_route (port : Nat) (s : State) (e : RouteEntry) (d p : Nat) :
    tfind ((s.route port e).die d).routes p =
      if d = e.1 ∧ p = e.2.1 then some { port := port, grant := e.2.2 } else tfind (s.die d).routes p := by
  rw [State.route, State.die_modDie]
  by_cases hd : d = e.1
  · subst hd; simp
  · simp [hd]

/-- Every entry of the port's die has its route, on the port. -/
theorem State.exists_route_reroute (s : State) {port : Nat} {entries : List RouteEntry} {e : RouteEntry}
    (he : e ∈ entries) (hd : e.1 = port / 2) :
    ∃ r, tfind ((s.reroute port entries).die e.1).routes e.2.1 = some r ∧ r.port = port :=
  foldl_establishes (op := State.route port) (Q := fun _ => True)
    (P := fun t : State => ∃ r, tfind (t.die e.1).routes e.2.1 = some r ∧ r.port = port)
    (List.mem_filter.2 ⟨he, by simpa using hd⟩) (fun _ _ _ => trivial)
    (fun t c ⟨r, hr, hp⟩ => by
      rw [State.find_route]
      split
      · exact ⟨_, rfl, rfl⟩
      · exact ⟨r, hr, hp⟩)
    (fun t _ => ⟨_, by rw [State.find_route, if_pos ⟨rfl, rfl⟩], rfl⟩) trivial

/-- A place that no entry names has no route on the port. -/
theorem State.port_of_reroute {s : State} {port d p : Nat} {entries : List RouteEntry} {r : Route}
    (h : d = port / 2 → ∀ e ∈ entries, e.1 = d → e.2.1 ≠ p)
    (hr : tfind ((s.reroute port entries).die d).routes p = some r) : r.port ≠ port := by
  have kept : tfind ((s.reroute port entries).die d).routes p = tfind ((s.unrouted port).die d).routes p :=
    List.foldlRecOn (motive := fun t : State => tfind (t.die d).routes p = _) _ (State.route port) rfl
      fun t ht e he => by
        obtain ⟨he, own⟩ := List.mem_filter.1 he
        have other : ¬ (d = e.1 ∧ p = e.2.1) := fun ⟨hd, hp⟩ => h (hd.trans (by simpa using own)) e he hd.symm hp.symm
        rw [State.find_route, if_neg other, ht]
  exact State.port_of_unrouted (kept ▸ hr)

end Sys2Proof.Machine
end

section
/-! SUPPORT. Scrubbing and boot (spec/26 R384, R386, R387). -/

namespace Sys2Proof.Machine

/-! ## Scrubbing (R387) -/

/-- A scrub of the one granule that holds an error logs it, and drops it where the code corrects it. -/
theorem execScrub_single {s : State} {site : Site} {unc : Bool} {synd : W32}
    (h : s.upsets = [{ site := site, unc := unc, synd := synd }]) :
    execScrub site s = .next (({ s with upsets := if unc then s.upsets else [] } : State).logError site unc synd
      (siteCore site) 0) := by
  have here : inGranule site site = true := by simp [inGranule]
  cases unc <;> simp [execScrub, State.consume, h, here, Upset.origin]

/-- Logging an error leaves memory, lanes and the errors that stand. -/
theorem State.logError_keeps (s : State) (site : Site) (unc : Bool) (synd : W32) (core : Nat) (launch : W32) :
    (s.logError site unc synd core launch).mem = s.mem ∧ (s.logError site unc synd core launch).lanes = s.lanes ∧
      (s.logError site unc synd core launch).upsets = s.upsets := by
  obtain ⟨ts, rows, e⟩ := s.logError_eq site unc synd core launch
  rw [e]
  exact ⟨rfl, rfl, rfl⟩

theorem State.die_logError (s : State) (site : Site) (unc : Bool) (synd : W32) (core : Nat) (launch : W32) :
    (s.logError site unc synd core launch).die (s.siteDie site) =
      ((s.die (s.siteDie site)).log (s.logEntry site unc synd core launch) unc).wear site unc := by
  obtain ⟨ts, rows, e⟩ := s.logError_eq site unc synd core launch
  have dies : (s.logError site unc synd core launch).dies = (s.noted site unc synd core launch).dies := by rw [e]
  rw [State.die_congr dies, State.die_noted, if_pos rfl]

/-- The entry of an error (R374). -/
theorem State.find_logError (s : State) (site : Site) (unc : Bool) (synd : W32) (core : Nat) (launch : W32) :
    tfind ((s.logError site unc synd core launch).die (s.siteDie site)).mcLog (s.die (s.siteDie site)).mcHead =
      some (s.logEntry site unc synd core launch) := by
  rw [State.die_logError, Die.wear_mcLog, Die.log, tfind_tset, if_pos rfl]

/-- Corrections are counted. -/
theorem State.corrected_logError (s : State) (site : Site) (unc : Bool) (synd : W32) (core : Nat) (launch : W32) :
    ((s.logError site unc synd core launch).die (s.siteDie site)).corrected =
      (s.die (s.siteDie site)).corrected + if unc then 0 else 1 := by
  rw [State.die_logError, Die.wear_corrected, Die.log]
  cases unc <;> rfl

/-! ## Boot (R384, R386, R387) -/

/-- What a boot changes apart from the switches that it sets at the end. -/
def bootsTo (s t : State) : Prop :=
  t = { s with dies := t.dies, upsets := t.upsets, rowTimes := t.rowTimes, sparesUsed := t.sparesUsed
               freeCtr := t.freeCtr }

theorem bootsTo.refl (s : State) : bootsTo s s := rfl

theorem bootsTo.trans {s t u : State} (h : bootsTo s t) (k : bootsTo t u) : bootsTo s u := by
  rw [bootsTo, k, h]

theorem bootsTo.keeps {s t : State} (h : bootsTo s t) :
    t.mem = s.mem ∧ t.hbm = s.hbm ∧ t.boots = s.boots ∧ t.errors = s.errors ∧ t.repairRows = s.repairRows ∧
      t.hostUp = s.hostUp ∧ t.inService = s.inService := by
  rw [h]
  exact ⟨rfl, rfl, rfl, rfl, rfl, rfl, rfl⟩

theorem bootsTo_foldl {β : Type} {op : State → β → State} (h : ∀ t b, bootsTo t (op t b)) (bs : List β) (s : State) :
    bootsTo s (bs.foldl op s) :=
  List.foldlRecOn bs op (.refl s) fun t ht b _ => ht.trans (h t b)

theorem bootsTo_bootDie (s : State) (d : Nat) (bad : List Nat) : bootsTo s (s.bootDie d bad) := rfl

theorem bootsTo_modDie (s : State) (d : Nat) (f : Die → Die) : bootsTo s (s.modDie d f) := rfl

theorem bootsTo_logWorn (s : State) (d : Nat) : bootsTo s (s.logWorn d) := rfl

theorem bootsTo_outOfService (s : State) : bootsTo s s.outOfService :=
  bootsTo_foldl (fun t d => bootsTo_modDie t d _) _ s

/-- A row's repair drops errors, counts a spare row and forgets the row's times; the dies stay. -/
theorem State.repairRow_eq (s : State) (r : Nat) : ∃ us ts used,
    s.repairRow r = { s with upsets := us, rowTimes := ts, sparesUsed := used } := by
  unfold State.repairRow State.overwrite
  dsimp only
  split
  · split <;> exact ⟨_, _, _, rfl⟩
  · exact ⟨_, _, _, rfl⟩

theorem bootsTo_repairRow (s : State) (r : Nat) : bootsTo s (s.repairRow r) := by
  obtain ⟨us, ts, used, e⟩ := s.repairRow_eq r
  rw [e]; rfl

theorem State.dies_foldl_repairRow (rows : List Nat) (s : State) : (rows.foldl State.repairRow s).dies = s.dies :=
  List.foldlRecOn (motive := fun t : State => t.dies = s.dies) rows _ rfl fun t h r _ => by
    obtain ⟨us, ts, used, e⟩ := t.repairRow_eq r
    rw [e]; exact h

/-- A die as it boots. -/
def State.booted (s : State) (d : Nat) (bad : List Nat) : Die :=
  { state := if s.verifies (s.storedImage d) then .ready else .failed, image := s.storedImage d
    retired := (bad ++ (s.die d).worn).eraseDups.head?
    mailbox := if s.verifies (s.storedImage d) then [] else [(Port.owner .pcie, 4)]
    mcHead := (s.die d).mcHead, mcLog := (s.die d).mcLog }

/-- A die that fails reports it in its PCIe mailbox. -/
theorem State.booted_failed {s : State} {d : Nat} {bad : List Nat} (h : (s.booted d bad).state = .failed) :
    tget 0 (s.booted d bad).mailbox (Claims.portCode .pcie) = 4 := by
  unfold State.booted at *
  cases ok : s.verifies (s.storedImage d)
  · rfl
  · simp [ok] at h

theorem State.die_bootDie (s : State) (d : Nat) (bad : List Nat) (j : Nat) :
    (s.bootDie d bad).die j = if j = d then s.booted d bad else s.die j := State.die_setDie _ _ _ _

/-- A die's boot reads that die, the images and the minimum version. -/
theorem State.booted_congr {s t : State} {d : Nat} (h : bootsTo s t) (hd : t.die d = s.die d) (bad : List Nat) :
    t.booted d bad = s.booted d bad := by
  have image : t.storedImage d = s.storedImage d := by rw [State.storedImage, h]; rfl
  have fits : t.verifies (s.storedImage d) = s.verifies (s.storedImage d) := by rw [State.verifies, h]; rfl
  rw [State.booted, hd, image, fits, State.booted]

/-- Dies that boot one after another, each once, boot as they stood before. -/
theorem State.die_foldl_bootDie (bad : Nat → List Nat) {ds : List Nat} (hn : ds.Nodup) (s : State) (j : Nat) :
    (ds.foldl (fun t d => t.bootDie d (bad d)) s).die j = if j ∈ ds then s.booted j (bad j) else s.die j := by
  induction ds generalizing s with
  | nil => simp
  | cons d ds ih =>
    obtain ⟨hd, hn⟩ := List.nodup_cons.1 hn
    rw [List.foldl_cons, ih hn]
    by_cases e : j = d
    · subst e
      simp [hd, State.die_bootDie]
    · have other : (s.bootDie d (bad d)).die j = s.die j := by rw [State.die_bootDie, if_neg e]
      rw [other, State.booted_congr (bootsTo_bootDie s d (bad d)) other]
      simp [e]

/-- Only a die's log has changed. -/
def Die.onlyLogged (x y : Die) : Prop := y = { x with mcHead := y.mcHead, mcLog := y.mcLog }

theorem Die.onlyLogged.refl (x : Die) : x.onlyLogged x := rfl

theorem Die.onlyLogged.trans {x y z : Die} (h : x.onlyLogged y) (k : y.onlyLogged z) : x.onlyLogged z := by
  rw [Die.onlyLogged, k, h]

theorem Die.onlyLogged_logWorn (s : State) (d j : Nat) : (s.die j).onlyLogged ((s.logWorn d).die j) := by
  have entry : (s.logWorn d).die j = if j = d then _ else s.die j := State.die_modDie s.free.2.free.2 d j _
  rw [entry]
  split
  next e => rw [e]; exact rfl
  next => exact .refl _

theorem Die.onlyLogged_foldl_logWorn (ds : List Nat) (s : State) (j : Nat) :
    (s.die j).onlyLogged ((ds.foldl State.logWorn s).die j) :=
  List.foldlRecOn (motive := fun t : State => (s.die j).onlyLogged (t.die j)) ds _ (.refl _)
    fun t h d _ => h.trans (Die.onlyLogged_logWorn t d j)

/-- The mailboxes of a die out of service (R386). -/
def Die.outOfService (x : Die) : Die := { x with mailbox := [(Port.owner .ucie, 4), (Port.owner .pcie, 4)] }

theorem State.die_foldl_modDie {f : Die → Die} {ds : List Nat} (hn : ds.Nodup) (s : State) (j : Nat) :
    (ds.foldl (fun t d => t.modDie d f) s).die j = if j ∈ ds then f (s.die j) else s.die j := by
  induction ds generalizing s with
  | nil => simp
  | cons d ds ih =>
    obtain ⟨hd, hn⟩ := List.nodup_cons.1 hn
    rw [List.foldl_cons, ih hn, State.die_modDie]
    by_cases e : j = d
    · subst e; simp [hd]
    · simp [e]

theorem State.die_outOfService (s : State) {d : Nat} (h : d < 8) : s.outOfService.die d = (s.die d).outOfService :=
  (State.die_foldl_modDie List.nodup_range s d).trans (if_pos (List.mem_range.2 h))

/-- The dies that have more than one cluster to retire. -/
def State.wornDies (s : State) (bad : List (List Nat)) : List Nat := (List.range 8).filter (s.tooWorn bad)

theorem State.wornDies_isEmpty (s : State) (bad : List (List Nat)) : (s.wornDies bad).isEmpty = true ↔
    ∀ d < 8, ((bad.getD d [] ++ (s.die d).worn).eraseDups).length ≤ 1 := by
  rw [State.wornDies, List.isEmpty_iff, List.filter_eq_nil_iff]
  simp only [List.mem_range, State.tooWorn, decide_eq_true_eq]
  exact forall₂_congr fun d _ => by omega

/-- The module with every die booted and the listed rows repaired. -/
def State.diesBooted (s : State) (bad : List (List Nat)) : State :=
  s.repairRows.foldl State.repairRow ((List.range 8).foldl (fun t d => t.bootDie d (bad.getD d [])) s)

/-- The module as it ends its boot, before the worn dies are logged. -/
def State.bootEnd (s : State) (bad : List (List Nat)) : State :=
  { s.diesBooted bad with errors := [], repairRows := [], boots := (s.diesBooted bad).boots + 1
                          inService := (s.wornDies bad).isEmpty, hostUp := s.hostUp || s.verifies (s.storedImage 8) }

theorem bootsTo_diesBooted (s : State) (bad : List (List Nat)) : bootsTo s (s.diesBooted bad) :=
  (bootsTo_foldl (fun t d => bootsTo_bootDie t d _) _ s).trans (bootsTo_foldl bootsTo_repairRow _ _)

theorem State.die_bootEnd (s : State) (bad : List (List Nat)) {d : Nat} (h : d < 8) :
    (s.bootEnd bad).die d = s.booted d (bad.getD d []) := by
  have dies : (s.bootEnd bad).dies = _ := State.dies_foldl_repairRow s.repairRows _
  rw [State.die_congr dies, State.die_foldl_bootDie (fun d => bad.getD d []) List.nodup_range,
    if_pos (List.mem_range.2 h)]

/-- The module after a boot. -/
def State.afterBoot (s : State) (bad : List (List Nat)) : State :=
  (s.wornDies bad).foldl State.logWorn
    (if (s.wornDies bad).isEmpty then s.bootEnd bad else (s.bootEnd bad).outOfService)

theorem bootsTo_afterBoot (s : State) (bad : List (List Nat)) : bootsTo (s.bootEnd bad) (s.afterBoot bad) := by
  refine bootsTo.trans ?_ (bootsTo_foldl bootsTo_logWorn _ _)
  split
  · exact .refl _
  · exact bootsTo_outOfService _

/-- A die after a boot: as it booted, its mailboxes those of a module out of service where one is too worn. -/
theorem State.die_afterBoot (s : State) (bad : List (List Nat)) {d : Nat} (h : d < 8) :
    (if (s.wornDies bad).isEmpty then s.booted d (bad.getD d [])
      else (s.booted d (bad.getD d [])).outOfService).onlyLogged ((s.afterBoot bad).die d) := by
  have logged := Die.onlyLogged_foldl_logWorn (s.wornDies bad)
    (if (s.wornDies bad).isEmpty then s.bootEnd bad else (s.bootEnd bad).outOfService) d
  rw [← State.die_bootEnd s bad h, ← State.die_outOfService _ h]
  rwa [apply_ite (fun t : State => t.die d)] at logged

theorem State.afterBoot_die_fields (s : State) (bad : List (List Nat)) {d : Nat} (h : d < 8) :
    let x := (s.afterBoot bad).die d
    x.image = s.storedImage d ∧ x.retired = (bad.getD d [] ++ (s.die d).worn).eraseDups.head? ∧ x.worn = [] ∧
      x.state = (s.booted d (bad.getD d [])).state ∧ x.jobs = [] ∧
      x.mailbox = if (s.wornDies bad).isEmpty then (s.booted d (bad.getD d [])).mailbox
        else [(Port.owner .ucie, 4), (Port.owner .pcie, 4)] := by
  have die : (s.afterBoot bad).die d = _ := s.die_afterBoot bad h
  dsimp only
  rw [die]
  cases (s.wornDies bad).isEmpty <;> exact ⟨rfl, rfl, rfl, rfl, rfl, rfl⟩

theorem execBoot_running {s : State} {d : Nat} (bad : List (List Nat)) (hd : d < 8) (h : (s.die d).state ≠ .off) :
    execBoot bad s = .next s :=
  if_pos (List.any_eq_true.2 ⟨d, List.mem_range.2 hd, by simpa using h⟩)

theorem execBoot_off {s : State} (bad : List (List Nat)) (h : ∀ d < 8, (s.die d).state = .off) :
    execBoot bad s = .next (s.afterBoot bad) := by
  have off : ¬ ((List.range Config.dies).any fun d => (s.die d).state != .off) = true := by
    rw [List.any_eq_true]
    rintro ⟨d, hd, hs⟩
    exact bne_iff_ne.1 hs (h d (List.mem_range.1 hd))
  exact (if_neg off).trans rfl

/-- MB1 of a mailbox at which no command stands. -/
theorem mb1_of_no_jobs {t : State} {d : Nat} (h : (t.die d).jobs = []) (port : Port) :
    Claims.mb1 t d port = tget 0 (t.die d).mailbox (Claims.portCode port) := by
  rw [Claims.mb1, Claims.job, h]
  rfl

end Sys2Proof.Machine
end

section
/-! SUPPORT. Integrity and boot: each clause, and the obligation (spec/01 R14; spec/23 R350; spec/26 R370 to
R376, R384 to R387). -/

namespace Sys2Proof.Machine

/-! ## The clauses of integrity and boot -/

theorem isLink_of_bounds {hop : Nat} (h4 : 4 ≤ hop) (h7 : hop ≤ 7) : isLink hop = true := by simp [isLink, h4, h7]

/-- Each replay of a flit is logged, one entry after another. -/
theorem flitReplay_logs (s : State) (hop : BitVec 8) (d : Nat) (n : Fin 17) (hd : d < 8) (h4 : 4 ≤ hop.toNat)
    (h7 : hop.toNat ≤ 7) (hm : (s.die d).mcHead < 1024) :
    ∃ t, exec (.flitReplay hop d n) s = .next t ∧
      t = { s with dies := t.dies, freeCtr := t.freeCtr, errors := t.errors } ∧
      (t.die d).mcHead = ((s.die d).mcHead + n.val) % 1024 ∧ (t.die d).corrected = (s.die d).corrected + n.val ∧
      ∀ k < n.val, ∃ e, tfind (t.die d).mcLog (((s.die d).mcHead + k) % 1024) = some e ∧
        e.mc0 = Claims.mc0Of false hop.toNat d 0x7FF 0 ∧ e.mc2 = BitVec.ofNat 64 (s.dieGt d) ∧
        e.mc3.toNat % 2 ^ 32 = min (s.siteErrors (.link hop.toNat d) + k + 1) 0xFFFFFFFF := by
  have named : (decide (d < Config.dies) && isLink hop.toNat) = true := by
    rw [isLink_of_bounds h4 h7, decide_eq_true (show d < Config.dies from hd)]; rfl
  refine ⟨s.logReplays hop.toNat d n.val, ?_, s.logReplays_frame _ d _, s.mcHead_logReplays _ d _ hm,
    s.corrected_logReplays _ d _, fun k hk => s.exists_replayEntry hop.isLt hd hm (by omega) hk⟩
  rw [exec_flitReplay, execFlitReplay, if_pos named]

/-- A link that trains again goes on; one that does not kills the contexts over it and is logged. -/
theorem linkRetrain_outcomes (s : State) (hop : BitVec 8) (d port : Nat) (users : List Nat) (hd : d < 8)
    (h4 : 4 ≤ hop.toNat) (h7 : hop.toNat ≤ 7) (hp : hop = 7 → port / 2 = d) (hn : (s.launches.map (·.1)).Nodup) :
    exec (.linkRetrain hop d port true users) s = .next s ∧
    ∃ t, exec (.linkRetrain hop d port false users) s = .next t ∧ t.mem = s.mem ∧ t.lanes = s.lanes ∧
      (t.die d).mcHead = ((s.die d).mcHead + 1) % 1024 ∧ (hop = 7 → tget false t.links port = false) ∧
      (∃ e, tfind (t.die d).mcLog (s.die d).mcHead = some e ∧
        e.mc0 = Claims.mc0Of true hop.toNat d 0x7FF ((users.head?.map fun i => (s.launchAt i).num).getD 0)) ∧
      ∀ i ∈ users, ∀ x, tfind s.launches i = some x → x.state = .running → x.killing = false →
        (tfind t.launches i).map (·.state) = some .halting := by
  have link := isLink_of_bounds h4 h7
  refine ⟨(exec_linkRetrain hop d port true users s).trans (execLinkRetrain_trained users s hd link hp), _,
    (exec_linkRetrain hop d port false users s).trans (execLinkRetrain_lost users s hd link hp), ?_⟩
  obtain ⟨mem, lanes, heads, links⟩ := s.linkLost_keeps hop port users
  generalize hnum : (users.head?.map fun i => (s.launchAt i).num).getD 0 = num
  obtain ⟨e, he, h0, -, -⟩ := (s.linkLost hop port users).exists_linkEntry true num hop.isLt hd
  rw [heads d] at he
  refine ⟨mem, lanes, ?_, links, ⟨e, he, h0⟩, ?_⟩
  · rw [State.die_logLink, if_pos rfl, ← heads d]; rfl
  · intro i hi x hx hr hk
    obtain ⟨-, y, hy, halts⟩ := (State.placedAs_goes hn hx hr hk).linkLost hop port hi
    exact (congrArg (Option.map _) hy).trans (congrArg some halts)

/-- A Fenlink that comes up gets the routes of its port's die, and no other route names the port. -/
theorem fenlinkUp_routes (s : State) (port : Nat) (entries : List RouteEntry) (h : port < 16) :
    ∃ t, exec (.fenlinkLinkChange port true entries) s = .next t ∧ t = { s with dies := t.dies, links := t.links } ∧
      tget false t.links port = true ∧
      (∀ e ∈ entries, e.1 = port / 2 → ∃ r, tfind (t.die e.1).routes e.2.1 = some r ∧ r.port = port) ∧
      ∀ d p r, (d = port / 2 → ∀ e ∈ entries, e.1 = d → e.2.1 ≠ p) → tfind (t.die d).routes p = some r →
        r.port ≠ port := by
  have same := onlyDies_reroute { s with links := tput false s.links port true } port entries
  refine ⟨_, (exec_fenlinkLinkChange port true entries s).trans (execFenlinkLinkChange_eq true entries s h),
    same.of_links, (congrArg (tget false · port) same.links).trans ?_,
    fun e he hd => State.exists_route_reroute _ he hd, fun d p r hp hr => State.port_of_reroute hp hr⟩
  simp

/-- A Fenlink that goes down leaves memory and lanes. -/
theorem fenlinkDown_keeps (s : State) (port : Nat) (entries : List RouteEntry) (h : port < 16) :
    ∃ t, exec (.fenlinkLinkChange port false entries) s = .next t ∧ t.mem = s.mem ∧ t.lanes = s.lanes ∧
      tget false t.links port = false := by
  obtain ⟨u, queued, e⟩ := s.linkFails_onlyQueued port
  refine ⟨_, (exec_fenlinkLinkChange port false entries s).trans (execFenlinkLinkChange_eq false entries s h), ?_⟩
  have same := onlyDies_reroute (s.linkFails port) port entries
  rw [e] at same ⊢
  exact ⟨same.mem.trans queued.mem, same.lanes.trans queued.lanes, by rw [if_neg Bool.false_ne_true, same.links]; simp⟩

/-- A scrub logs the error it meets, and what the code corrects is gone. -/
theorem scrub_logs (s : State) (site : Site) (unc : Bool) (synd : W32)
    (h : s.upsets = [{ site := site, unc := unc, synd := synd }]) :
    ∃ t, exec (.scrub site) s = .next t ∧ t.mem = s.mem ∧ t.lanes = s.lanes ∧
      t.upsets = (if unc then s.upsets else []) ∧
      (t.die (s.siteDie site)).corrected = (s.die (s.siteDie site)).corrected + (if unc then 0 else 1) ∧
      (∀ g, site = .hbm g → unc = true → Config.rowOf g ∈ t.repairRows) ∧
      ∃ e, tfind (t.die (s.siteDie site)).mcLog (s.die (s.siteDie site)).mcHead = some e ∧
        (Claims.hopCode site < 256 → s.siteDie site < 8 → Claims.coreCode site < 2048 →
          e.mc0 = Claims.mc0Of unc (Claims.hopCode site) (s.siteDie site) (Claims.coreCode site) 0) ∧
        e.mc2 = BitVec.ofNat 64 (s.dieGt (s.siteDie site)) ∧ e.mc3.toNat / 2 ^ 32 = synd.toNat := by
  let u : State := { s with upsets := if unc then s.upsets else [] }
  obtain ⟨mem, lanes, upsets⟩ := u.logError_keeps site unc synd (siteCore site) 0
  refine ⟨_, (exec_scrub site s).trans (execScrub_single h), mem, lanes, upsets,
    u.corrected_logError site unc synd _ 0, ?_, _, u.find_logError site unc synd _ 0, ?_, rfl, ?_⟩
  · rintro g rfl rfl
    exact State.mem_repairRows_logError rfl
  · intro hh hd hc
    rw [← hopOf_eq_hopCode] at hh ⊢
    rw [← siteCore_eq_coreCode] at hc ⊢
    exact mcWord_eq_mc0Of 0 hh hd hc
  · refine (congrArg (· / 2 ^ 32) (mc3_toNat synd _)).trans ?_
    omega

/-- The checks of a firmware image, one by one (R384). -/
theorem verifies_iff (s : State) (image : List Byte) : s.verifies image = true ↔
    Config.sha3 (toLe (Config.imageKey image).toNat 2592) ∈ Config.fusedKeys.take 4 ∧
    Config.mlDsaVerifies (Config.imageKey image) (Config.sha3 image) (Config.imageSignature image) = true ∧
    s.minVersion.toNat ≤ (Config.imageVersion image).toNat := by
  simp only [State.verifies, signed, Bool.and_eq_true, decide_eq_true_eq, List.contains_iff_mem, and_assoc]

/-- A boot of a module that is off: every die by its own image, and the module's service by its clusters. -/
theorem boot_off (s : State) (bad : List (List Nat)) (h : ∀ d < 8, (s.die d).state = .off) :
    let toRetire := fun d => (bad.getD d [] ++ (s.die d).worn).eraseDups
    let image := fun d => (tfind s.firmware d).getD (Config.factoryFirmware d)
    ∃ t, exec (.boot bad) s = .next t ∧ t.mem = s.mem ∧ t.hbm = s.hbm ∧ t.boots = s.boots + 1 ∧ t.errors = [] ∧
      t.repairRows = [] ∧ t.hostUp = (s.hostUp || s.verifies (image 8)) ∧
      (t.inService = true ↔ ∀ d < 8, (toRetire d).length ≤ 1) ∧
      ∀ d < 8, (t.die d).image = image d ∧ (t.die d).retired = (toRetire d).head? ∧ (t.die d).worn = [] ∧
        (t.die d).state = (if s.verifies (image d) then .ready else .failed) ∧
        ((t.die d).state = .failed ∨ t.inService = false → Claims.mb1 t d .pcie = 4) ∧
        (t.inService = false → Claims.mb1 t d .ucie = 4) := by
  obtain ⟨mem, hbm, boots, errors, rows, host, service⟩ := (bootsTo_afterBoot s bad).keeps
  obtain ⟨mem', hbm', boots', -⟩ := (bootsTo_diesBooted s bad).keeps
  refine ⟨_, (exec_boot bad s).trans (execBoot_off bad h), mem.trans mem', hbm.trans hbm',
    boots.trans (congrArg (· + 1) boots'), errors, rows, host, ?_, fun d hd => ?_⟩
  · rw [service]; exact s.wornDies_isEmpty bad
  · obtain ⟨image, retired, worn, state, jobs, mailbox⟩ := s.afterBoot_die_fields bad hd
    refine ⟨image, retired, worn, state, ?_⟩
    rw [mb1_of_no_jobs jobs, mb1_of_no_jobs jobs, mailbox, state, service]
    change (_ ∨ (s.wornDies bad).isEmpty = false → _) ∧ ((s.wornDies bad).isEmpty = false → _)
    cases (s.wornDies bad).isEmpty with
    | false => exact ⟨fun _ => rfl, fun _ => rfl⟩
    | true => exact ⟨fun fails => State.booted_failed (fails.resolve_right nofun), nofun⟩

/-- Settles O52: replays and lost links by what the log's rule writes, the kills by following one launch through them,
the scrub by the same rule, and the boot by what each die's boot reads and writes. -/
theorem integrityAndBoot : Obligations.IntegrityAndBoot := by
  unfold Obligations.IntegrityAndBoot
  exact ⟨flitReplay_logs, linkRetrain_outcomes,
    fun s port entries h => ⟨fenlinkUp_routes s port entries h, fenlinkDown_keeps s port entries h⟩,
    scrub_logs, fun _ => ⟨rfl, rfl⟩, fun _ => rfl, verifies_iff,
    fun s bad ⟨_, hd, h⟩ => (exec_boot bad s).trans (execBoot_running bad hd h), boot_off⟩

end Sys2Proof.Machine
end

section
/-! SUPPORT. Register writes: which registers a result reaches, and which lanes a guard lets execute (spec/02 R25 to R27,
spec/04 R76). -/

namespace Sys2Proof.Machine

/-- A predicate after a write: P7 keeps reading 1 (spec/02 R27). -/
theorem Lane.pred_setPred (x : Lane) {i j : Nat} (b : Bool) (hj : j < 8) :
    (x.setPred i b).pred j = if j = 7 then true else if j = i then b else x.pred j := by
  by_cases h7 : j = 7
  · simp [Lane.pred, h7]
  by_cases hi : i < 7
  · have j7 : j < 7 := by omega
    have bit : (1#7 <<< i).getLsbD j = decide (j = i) := by
      rw [BitVec.getLsbD_shiftLeft, BitVec.getLsbD_one]
      by_cases e : j = i
      · simp [e, hi]
      · simp [e]; omega
    simp only [Lane.setPred, Lane.pred, hi, h7, if_true, if_false]
    cases b
    · rw [if_neg nofun, BitVec.getLsbD_and, BitVec.getLsbD_not, bit]
      by_cases e : j = i <;> simp [e, j7]
    · rw [if_pos rfl, BitVec.getLsbD_or, bit]
      by_cases e : j = i <;> simp [e]
  · have e : j ≠ i := by omega
    simp [Lane.setPred, hi, h7, e]

theorem Lane.setPred_eq (x : Lane) (i : Nat) (b : Bool) : x.setPred i b = { x with p := (x.setPred i b).p } := by
  unfold Lane.setPred
  split <;> rfl

/-- A lane passes a guard unless its predicate bit equals PNEG; P7 reads 1 (spec/04 R76). -/
theorem Lane.guardHolds_iff (x : Lane) (g : Guard) :
    x.guardHolds g = true ↔ (if g.idx = 7 then true else x.p.getLsbD g.idx.val) ≠ g.neg := by
  have h : g.idx.val = 7 ↔ g.idx = 7 := ⟨fun h => Fin.ext h, fun h => by rw [h]; rfl⟩
  simp [Lane.guardHolds, Lane.pred, h]

/-- The executing lanes of a slot at which none has been served yet. -/
theorem State.mem_exec_of_unserved {s : State} (h : s.group.served = []) (g : Guard) (l : Nat) :
    l ∈ s.exec g ↔ l ∈ s.group.lanes ∧ (s.lane l).status = .inFlight ∧ (s.lane l).guardHolds g = true := by
  simp [State.exec, h]

/-- A write of V, P or S registers: the registers it names, and nothing else. -/
theorem writesOfRegisters : Claims.WritesOfRegisters := by
  refine ⟨fun x i vals => ⟨rfl, fun j => tget_putRun x.v i.val j vals⟩, fun x i vals => ⟨?_, fun j hj => ?_⟩,
    fun x i vals => ⟨rfl, fun j => tget_putRun x.s i.val j vals⟩⟩
  · exact x.setPred_eq i.val _
  · exact x.pred_setPred _ hj

theorem predicateGuards : Claims.PredicateGuards := fun s g l h => by
  rw [State.mem_exec_of_unserved h, Lane.guardHolds_iff]

/-- Settles O10: a run of registers by reading it back entry by entry, predicates bit by bit, and the guard from the
filter that forms the executing lanes. -/
theorem registerWrites : Obligations.RegisterWrites := ⟨writesOfRegisters, predicateGuards⟩

end Sys2Proof.Machine
end

section
/-! SUPPORT. Special registers: the check of a value, and what a write leaves in the holder (spec/02 R22, R23, R31 to R33,
spec/07 R122, spec/24 R364). -/

namespace Sys2Proof.Machine

/-! ## Fields of a doubleword -/

theorem field_eq_div_mod (w : W64) (lo n : Nat) : field w lo n = w.toNat / 2 ^ lo % 2 ^ n := by
  rw [field, Nat.shiftRight_eq_div_pow]

/-- A field that reaches bit 63 is all that stands above its lowest bit. -/
theorem field_top (w : W64) {lo n : Nat} (h : lo + n = 64) : field w lo n = w.toNat / 2 ^ lo := by
  rw [field_eq_div_mod, Nat.mod_eq_of_lt]
  apply Nat.div_lt_of_lt_mul
  rw [← pow_add, h]
  exact w.isLt

/-- A value clear under a mask of 32 bits has its low bits only where the mask has none. -/
theorem and_mask_eq_zero_iff {m : Nat} {p : Nat → Prop} (hm : m < 2 ^ 32)
    (hp : ∀ j < 32, m.testBit j = true ↔ ¬ p j) (v : W64) :
    v.toNat &&& m = 0 ↔ ∀ j < 32, v.getLsbD j = true → p j := by
  constructor
  · intro h j hj hv
    by_contra hn
    have : (v.toNat &&& m).testBit j = true := by
      rw [Nat.testBit_and, BitVec.testBit_toNat, hv, (hp j hj).2 hn]; rfl
    simp [h] at this
  · intro h
    refine Nat.eq_of_testBit_eq fun j => ?_
    rw [Nat.testBit_and, BitVec.testBit_toNat, Nat.zero_testBit, Bool.and_eq_false_iff]
    by_cases hj : j < 32
    · by_cases hv : v.getLsbD j = true
      · have := mt (hp j hj).1 (not_not.2 (h j hj hv))
        exact .inr (by simpa using this)
      · exact .inl (by simpa using hv)
    · exact .inr (Nat.testBit_lt_two_pow (lt_of_lt_of_le hm (Nat.pow_le_pow_right (by decide) (by omega))))

/-! ## The check of a value -/

theorem State.poolSum_eq_sum (s : State) (c q m : Nat) :
    s.poolSum c q m = ((List.range 20).map fun j => if j = q then m else s.poolMin c j).sum := by
  rw [List.sum_eq_foldl, List.foldl_map]; rfl

theorem Lane.qsel_eq (x : Lane) : x.qsel = x.priv.toNat / 256 % 32 := by
  have h : x.priv.toNat % 2 ^ 64 = x.priv.toNat := Nat.mod_eq_of_lt (by omega)
  rw [Lane.qsel, field_eq_div_mod, BitVec.toNat_setWidth, h]
  rfl

theorem modeRmOk_iff (v : W64) (k : Nat) : modeRmOk v k = true ↔ v.toNat / 2 ^ k % 8 ≤ 5 := by
  rw [modeRmOk, decide_eq_true_eq, field_eq_div_mod]; exact Nat.lt_succ_iff

/-- A register whose check is one test refuses with RESERVED_FIELD. -/
theorem checkSr_test {b : Bool} {p : Prop} {e : Trap} (h : b = true ↔ p) :
    (p → (if b then none else some e) = none) ∧ (¬ p → (if b then none else some e) = some e) :=
  ⟨fun hp => by rw [if_pos (h.2 hp)], fun hn => by rw [if_neg (mt h.1 hn)]⟩

/-- The check of a handler's vector: RESERVED_FIELD above bit 47, else ALIGN for one that is no doubleword's address. -/
theorem checkSr_vector (s : State) (l : Nat) (v : W64) :
    (Claims.accepted s l .trapv v → s.checkSr l .trapv v = none) ∧
    (¬ Claims.accepted s l .trapv v → s.checkSr l .trapv v = some (Claims.refusedWith .trapv v)) := by
  have h48 : field v 48 16 = v.toNat / 2 ^ 48 := field_top v rfl
  have h3 : field v 0 3 = v.toNat % 8 := by rw [field_eq_div_mod, pow_zero, Nat.div_one]; rfl
  simp only [Claims.accepted, State.checkSr, Claims.refusedWith, h48, h3]
  generalize v.toNat / 2 ^ 48 = high
  generalize v.toNat % 8 = low
  by_cases a : high = 0
  · by_cases b : low = 0 <;> simp [a, b, Code.align]
  · simp [a, Code.reservedField]

/-- The check passes exactly the values allowed, and names the fault of every other one. -/
theorem specialRegisterValues : Claims.SpecialRegisterValues := by
  intro s l sr v
  cases sr with
  | trapv => exact checkSr_vector s l v
  | ktrapv => simpa [Claims.accepted, State.checkSr, Claims.refusedWith] using checkSr_vector s l v
  | mode =>
    refine checkSr_test ?_
    simp only [Bool.and_eq_true, decide_eq_true_eq, List.all_eq_true, modeRmOk_iff, field_top v (show 52 + 12 = 64 from rfl),
      field_eq_div_mod, and_assoc]
    exact Iff.and Iff.rfl (Iff.and Nat.lt_succ_iff Iff.rfl)
  | pondt => exact checkSr_test decide_eq_true_iff
  | lease => exact checkSr_test (by simp [Claims.accepted])
  | poolmin =>
    refine checkSr_test ?_
    simp only [State.poolMinOk, State.poolSum_eq_sum, Lane.qsel_eq, Bool.and_eq_true, decide_eq_true_eq, and_assoc]
    rfl
  | poolcap =>
    refine checkSr_test ?_
    simp only [State.poolCapOk, Lane.qsel_eq, Bool.and_eq_true, decide_eq_true_eq, and_assoc]
    rfl
  | priv =>
    refine checkSr_test (decide_eq_true_iff.trans ?_)
    exact and_mask_eq_zero_iff (by decide) (by decide) v
  | gstat =>
    refine checkSr_test (decide_eq_true_iff.trans ?_)
    exact and_mask_eq_zero_iff (by decide) (by decide) v
  | fault i =>
    match i with
    | 0 => exact ⟨fun _ => rfl, fun h => absurd trivial h⟩
    | 1 => exact ⟨fun _ => rfl, fun h => absurd trivial h⟩
    | 2 => exact ⟨fun _ => rfl, fun h => absurd trivial h⟩
    | 3 =>
      refine checkSr_test ?_
      simp only [Bool.and_eq_true, decide_eq_true_eq, field_top v (show 32 + 32 = 64 from rfl), field_eq_div_mod]
      rfl
  | _ => exact ⟨fun _ => rfl, fun h => absurd trivial h⟩

theorem State.checkSr_eq_none_iff {s : State} {l : Nat} {sr : SReg} {v : W64} :
    s.checkSr l sr v = none ↔ Claims.accepted s l sr v := by
  obtain ⟨pass, refuse⟩ := specialRegisterValues s l sr v
  exact ⟨fun h => by_contra fun hn => (nomatch (refuse hn).symm.trans h), pass⟩

/-- Whatever the check names is the fault of a refused value. -/
theorem State.eq_refusedWith_of_checkSr {s : State} {l : Nat} {sr : SReg} {v : W64} {t : Trap}
    (h : s.checkSr l sr v = some t) : t = Claims.refusedWith sr v := by
  obtain ⟨pass, refuse⟩ := specialRegisterValues s l sr v
  have hn : ¬ Claims.accepted s l sr v := fun hp => nomatch (pass hp).symm.trans h
  exact Option.some.inj (h.symm.trans (refuse hn))

theorem specialRegisterChecks : Claims.SpecialRegisterChecks := by
  intro s l v reserved
  have values := fun sr => specialRegisterValues s l sr v
  have allowed {sr : SReg} : s.checkSr l sr v = none → Claims.accepted s l sr v := State.checkSr_eq_none_iff.1
  refine ⟨⟨rfl, fun h => ?_, fun h h3 => ?_, fun h h3 => (values .trapv).1 ⟨h, h3⟩⟩, ?_, ?_, fun _ => rfl, rfl, rfl,
    allowed, fun h => ?_, fun q hq h20 => ⟨?_, ?_⟩⟩
  · rw [(values .trapv).2 fun a => h a.1, Claims.refusedWith, if_neg fun a => h a.2]
  · rw [(values .trapv).2 fun a => h3 a.2, Claims.refusedWith, if_pos ⟨.inl rfl, h⟩]
  · split
    next h => exact (values .pondt).2 (Nat.not_le.2 h)
    next h => exact (values .pondt).1 (Nat.not_lt.1 h)
  · split
    next h => exact (values .lease).2 fun ⟨h16, hmax⟩ => h.elim (Nat.not_lt.2 h16) (Nat.not_lt.2 hmax)
    next h => exact (values .lease).1 ⟨Nat.not_lt.1 (not_or.1 h).1, Nat.not_lt.1 (not_or.1 h).2⟩
  · obtain ⟨h52, h49, h46, hrm⟩ := allowed h
    exact ⟨h49, h52, h46, hrm⟩
  · exact (values .poolmin).2 fun a => absurd a.1 (by rw [← hq]; exact Nat.not_lt.2 h20)
  · exact (values .poolcap).2 fun a => absurd a.1 (by rw [← hq]; exact Nat.not_lt.2 h20)

/-! ## What a write leaves in the holder -/

/-- How each holder takes a value: the write is a change of the one unit that holds the register. -/
theorem State.writeSr_lane {sr : SReg} (h : holderOf sr = .lane) (hgt : sr ≠ .gt) (hl : sr ≠ .launch) (s : State)
    (l : Nat) (v : W64) : s.writeSr l sr v = s.modLane l (Claims.laneWrite sr v) := by
  cases sr with
  | fault i => match i with
    | 0 => rfl
    | 1 => rfl
    | 2 => rfl
    | 3 => rfl
  | rsb => rfl
  | gstat => rfl
  | priv => rfl
  | gt => exact absurd rfl hgt
  | launch => exact absurd rfl hl
  | _ => nomatch h

theorem State.writeSr_warp {sr : SReg} (h : holderOf sr = .warp) (s : State) (l : Nat) (v : W64) :
    s.writeSr l sr v = s.modWarp (warpOf l) (Claims.warpWrite sr v) := by
  cases sr with
  | mode => rfl
  | trapv => rfl
  | seed => rfl
  | th => rfl
  | acwin => rfl
  | _ => nomatch h

theorem State.writeSr_core {sr : SReg} (h : holderOf sr = .core) (s : State) (l : Nat) (v : W64) :
    s.writeSr l sr v = s.modCore (coreOf l) (Claims.coreWrite sr ((s.lane l).priv.toNat / 256 % 32) v) := by
  cases sr with
  | pondt => rfl
  | ktrapv => rfl
  | lease => rfl
  | poolmin => rw [← Lane.qsel_eq]; rfl
  | poolcap => rw [← Lane.qsel_eq]; rfl
  | _ => nomatch h

/-- A register that one kind of unit holds is no part of the others. -/
theorem laneWrite_of_holder {sr : SReg} (h : holderOf sr ≠ .lane) (v : W64) (x : Lane) :
    Claims.laneWrite sr v x = x := by
  cases sr <;> simp [holderOf, Claims.laneWrite] at h ⊢

theorem warpWrite_of_holder {sr : SReg} (h : holderOf sr ≠ .warp) (v : W64) (x : Warp) :
    Claims.warpWrite sr v x = x := by
  cases sr <;> simp [holderOf, Claims.warpWrite] at h ⊢

theorem coreWrite_of_holder {sr : SReg} (h : holderOf sr ≠ .core) (q : Nat) (v : W64) (x : Core) :
    Claims.coreWrite sr q v x = x := by
  cases sr <;> simp [holderOf, Claims.coreWrite] at h ⊢

/-- Writing the same value again changes nothing. -/
theorem laneWrite_laneWrite (sr : SReg) (v : W64) (x : Lane) :
    Claims.laneWrite sr v (Claims.laneWrite sr v x) = Claims.laneWrite sr v x := by
  cases sr with
  | fault i => match i with
    | 0 => rfl
    | 1 => rfl
    | 2 => rfl
    | 3 => rfl
  | _ => rfl

theorem warpWrite_warpWrite (sr : SReg) (v : W64) (x : Warp) :
    Claims.warpWrite sr v (Claims.warpWrite sr v x) = Claims.warpWrite sr v x := by
  cases sr with
  | th i => exact congrArg (fun t => { x with th := t }) (tsettled_tput_self 0 x.th i.val _)
  | _ => rfl

/-- Changes to warps change no other table. -/
theorem foldl_modWarp_eq (f : Nat → Warp → Warp) (ls : List Nat) (s : State) :
    ∃ ws, ls.foldl (fun t l => if true then t.modWarp (warpOf l) (f l) else t) s = { s with warps := ws } := by
  induction ls generalizing s with
  | nil => exact ⟨_, rfl⟩
  | cons l ls ih =>
    obtain ⟨ws, e⟩ := ih (s.modWarp (warpOf l) (f l))
    exact ⟨ws, e⟩

/-- The lowest lane of a warp among some lanes is the first of them in it. -/
theorem find_lowestOf (ls : List Nat) (w : Nat) :
    (lowestOf ls).find? (fun l => warpOf l == w) = ls.find? fun l => warpOf l == w := by
  have low {k : Nat} (hk : k ∈ lowestOf ls) (e : warpOf k = w) : ls.find? (fun l => warpOf l == w) = some k := by
    rw [← e]; exact mem_lowestOf.1 hk
  cases h : (lowestOf ls).find? fun l => warpOf l == w with
  | some k => exact (low (List.mem_of_find?_eq_some h) (by simpa using List.find?_some h)).symm
  | none =>
    cases h2 : ls.find? fun l => warpOf l == w with
    | none => rfl
    | some k =>
      have hw : warpOf k = w := by simpa using List.find?_some h2
      exact absurd (by simpa using hw) (List.find?_eq_none.1 h k (mem_lowestOf.2 (by rw [hw]; exact h2)))

/-- The warps of the lowest lanes are distinct. -/
theorem eq_of_mem_lowestOf {ls : List Nat} {l k : Nat} (hl : l ∈ lowestOf ls) (hk : k ∈ lowestOf ls)
    (e : warpOf l = warpOf k) : l = k := by
  rw [mem_lowestOf] at hl hk
  rw [e] at hl
  exact Option.some.inj (hl.symm.trans hk)

/-- The lanes as a write of another unit's register leaves them, in the form of `Claims.Stored`. -/
theorem lane_of_unheld {s t : State} {sr : SReg} (h : holderOf sr ≠ .lane) (e : t.lanes = s.lanes) (ls : List Nat)
    (v : Nat → W64) (l : Nat) : t.lane l = if l ∈ ls then Claims.laneWrite sr (v l) (s.lane l) else s.lane l := by
  rw [laneWrite_of_holder h, ite_self, State.lane, e]; rfl

theorem warp_of_unheld {s t : State} {sr : SReg} (h : holderOf sr ≠ .warp) (e : t.warps = s.warps) (ls : List Nat)
    (v : Nat → W64) (w : Nat) : t.warp w = match s.sourceOf ls w with
      | some l => Claims.warpWrite sr (v l) (s.warp w)
      | none => s.warp w := by
  rw [State.warp, e]
  split
  · rw [warpWrite_of_holder h]; rfl
  · rfl

theorem core_of_unheld {s t : State} {sr : SReg} (h : holderOf sr ≠ .core) (e : t.cores = s.cores) (ls : List Nat)
    (v : Nat → W64) (c : Nat) : t.core c = match (ls.filter fun l => !(s.lane l).helper).head? with
      | some l => if coreOf l = c
          then Claims.coreWrite sr ((s.lane l).priv.toNat / 256 % 32) (v l) (s.core c) else s.core c
      | none => s.core c := by
  rw [State.core, e]
  split
  · rw [coreWrite_of_holder h, ite_self]; rfl
  · rfl

/-- A lane's register is written in each of some lanes. -/
theorem State.stored_lane (s : State) {ls : List Nat} (hls : ∀ l ∈ ls, s.hasLane l) {sr : SReg}
    (h : holderOf sr = .lane) (hgt : sr ≠ .gt) (hl : sr ≠ .launch) (v : Nat → W64) :
    Claims.Stored s (ls.foldl (fun t l => t.writeSr l sr (v l)) s) ls sr v := by
  have step : (fun (t : State) l => t.writeSr l sr (v l)) = fun t l => t.modLane l (Claims.laneWrite sr (v l)) :=
    funext fun t => funext fun l => t.writeSr_lane h hgt hl l (v l)
  rw [step]
  have only : onlyLanes s (ls.foldl (fun t l => t.modLane l (Claims.laneWrite sr (v l))) s) :=
    onlyLanes_foldl _ (fun t l => onlyLanes_modLane t l _) ls s
  have twice (l : Nat) (x : Lane) := laneWrite_laneWrite sr (v l) x
  exact ⟨by rw [only], State.lane_foldl_modLane ls _ twice s hls,
    warp_of_unheld (by simp [h]) (by rw [only]) ls v, core_of_unheld (by simp [h]) (by rw [only]) ls v⟩

/-- A warp's register is written from the lowest lane of the warp that is no helper (R22). -/
theorem State.stored_warp (s : State) (ls : List Nat) {sr : SReg} (h : holderOf sr = .warp) (v : Nat → W64) :
    Claims.Stored s ((lowestOf (ls.filter fun l => !(s.lane l).helper)).foldl (fun t l => t.writeSr l sr (v l)) s)
      ls sr v := by
  have step : (fun (t : State) l => t.writeSr l sr (v l)) =
      fun t l => if true then t.modWarp (warpOf l) (Claims.warpWrite sr (v l)) else t :=
    funext fun t => funext fun l => t.writeSr_warp h l (v l)
  rw [step]
  generalize hlow : lowestOf (ls.filter fun l => !(s.lane l).helper) = low
  obtain ⟨ws, e⟩ := foldl_modWarp_eq (fun l => Claims.warpWrite sr (v l)) low s
  refine ⟨by rw [e], lane_of_unheld (by simp [h]) (by rw [e]) ls v, fun w => ?_,
    core_of_unheld (by simp [h]) (by rw [e]) ls v⟩
  have twice (l : Nat) (x : Warp) := warpWrite_warpWrite sr (v l) x
  rw [State.warp_foldl_modWarp low _ (fun _ => true) twice
    (fun l hl k hk _ _ e => eq_of_mem_lowestOf (hlow ▸ hl) (hlow ▸ hk) e)]
  simp only [Bool.true_and, ← hlow, find_lowestOf]
  rfl

/-- A core's register is written from the lowest lane that is no helper (R23). -/
theorem State.stored_core (s : State) (ls : List Nat) {sr : SReg} (h : holderOf sr = .core) (v : Nat → W64) :
    Claims.Stored s (((ls.filter fun l => !(s.lane l).helper).take 1).foldl (fun t l => t.writeSr l sr (v l)) s)
      ls sr v := by
  cases e : (ls.filter fun l => !(s.lane l).helper) with
  | nil => exact ⟨rfl, lane_of_unheld (by simp [h]) rfl ls v, warp_of_unheld (by simp [h]) rfl ls v, fun c => by rw [e]; rfl⟩
  | cons k ks =>
    change Claims.Stored s (s.writeSr k sr (v k)) ls sr v
    rw [State.writeSr_core h]
    refine ⟨rfl, lane_of_unheld (by simp [h]) rfl ls v, warp_of_unheld (by simp [h]) rfl ls v, fun c => ?_⟩
    rw [e, State.core_modCore]
    by_cases hc : c = coreOf k
    · simp [hc]
    · simp [hc, Ne.symm hc]

/-- A value written by some lanes reaches the holder, from the lanes that R22 and R23 name, and nothing else. -/
theorem State.stored_writeSr (s : State) {ls : List Nat} (hls : ∀ l ∈ ls, s.hasLane l) {sr : SReg} (hgt : sr ≠ .gt)
    (hl : sr ≠ .launch) (v : Nat → W64) :
    Claims.Stored s ((s.suppliers (holderOf sr) ls).foldl (fun t l => t.writeSr l sr (v l)) s) ls sr v := by
  cases h : holderOf sr with
  | lane => exact s.stored_lane hls h hgt hl v
  | warp => exact s.stored_warp ls h v
  | core => exact s.stored_core ls h v

/-- The lanes whose value is refused, each with the fault of its value. -/
theorem State.filterMap_checkSr (s : State) (ls : List Nat) (sr : SReg) (v : Nat → W64) :
    (ls.filterMap fun l => (s.checkSr l sr (v l)).map fun t => (l, t)) =
      (ls.filter fun l => (s.checkSr l sr (v l)).isSome).map fun l => (l, Claims.refusedWith sr (v l)) := by
  induction ls with
  | nil => rfl
  | cons l ls ih =>
    cases h : s.checkSr l sr (v l) with
    | none => simpa [h] using ih
    | some t => simpa [h, State.eq_refusedWith_of_checkSr h] using ih

/-- A write by the executing lanes: the holder takes the values that pass, and each other lane its fault. -/
theorem State.storeSr_eq (s : State) (g : Guard) {sr : SReg} (hgt : sr ≠ .gt) (hl : sr ≠ .launch) (v : Nat → W64) :
    ∃ t, s.storeSr g sr v = t.trapEach (((s.exec g).filter fun l => (s.checkSr l sr (v l)).isSome).map fun l =>
        (l, Claims.refusedWith sr (v l))) ∧
      Claims.Stored s t ((s.exec g).filter fun l => (s.checkSr l sr (v l)).isNone) sr v :=
  ⟨_, congrArg _ (s.filterMap_checkSr (s.exec g) sr v),
    s.stored_writeSr (fun _ hm => State.hasLane_of_mem_exec (List.mem_filter.1 hm).1) hgt hl v⟩

/-- With values that all pass, a write has no fault. -/
theorem State.storeSr_of_accepted (s : State) (g : Guard) {sr : SReg} (hgt : sr ≠ .gt) (hl : sr ≠ .launch)
    {v : Nat → W64} (h : ∀ l ∈ s.exec g, Claims.accepted s l sr (v l)) :
    Claims.Stored s (s.storeSr g sr v) (s.exec g) sr v := by
  have pass (l : Nat) (hm : l ∈ s.exec g) : s.checkSr l sr (v l) = none := State.checkSr_eq_none_iff.2 (h l hm)
  obtain ⟨t, e, stored⟩ := s.storeSr_eq g hgt hl v
  rw [List.filter_eq_self.2 fun l hm => by rw [pass l hm]; rfl] at stored
  rw [List.filter_eq_nil_iff.2 fun l hm => by rw [pass l hm]; nofun] at e
  rw [e]
  exact stored

/-! ## Privilege -/

/-- A group that is privileged throughout loses no lane to PRIV. -/
theorem State.denyUser_of_allPrivileged {s : State} (h : Claims.allPrivileged s) : s.denyUser = s := by
  have none : (s.group.lanes.filter fun l => !(s.lane l).privileged) = [] :=
    List.filter_eq_nil_iff.2 fun l hl => by simp [Lane.privileged, h l hl]
  rw [State.denyUser, none]; rfl

/-- The registers of privileged mode (spec/02 R31). -/
theorem privileged_eq_sysReg (sr : SReg) : sr.privileged = Claims.sysReg sr := by cases sr <;> rfl

theorem State.checkSrPriv_of_mayTouch {s : State} {sr : SReg} (h : Claims.mayTouch s sr) : s.checkSrPriv sr = s := by
  unfold State.checkSrPriv
  split
  next p => exact State.denyUser_of_allPrivileged (h (privileged_eq_sysReg sr ▸ p))
  next => rfl

theorem wide_eq_wideSr (sr : SReg) : sr.wide = Claims.wideSr sr := by cases sr <;> rfl

theorem State.srValue_eq_srOperand (s : State) (sr : SReg) (a : Operand) : s.srValue sr a = Claims.srOperand s sr a := by
  funext l
  rw [State.srValue, State.srcWord, wide_eq_wideSr]; rfl

theorem exec_movsrWrite {s : State} {sr : SReg} (h : Claims.mayTouch s sr) (g : Guard) (o : Ops) :
    exec (.movsrWrite g o sr) s = .next (s.storeSr g sr (Claims.srOperand s sr o.a)) := by
  change execMovsrWrite g o sr s = _
  rw [execMovsrWrite, State.checkSrPriv_of_mayTouch h, State.srValue_eq_srOperand]

theorem exec_srwr {s : State} (h : Claims.allPrivileged s) (g : Guard) (o : Ops) (sr : SReg) :
    exec (.srwr g o sr) s = .next (s.storeSr g sr (Claims.srOperand s sr o.a)) := by
  change execSrwr g o sr s = _
  rw [execSrwr, State.denyUser_of_allPrivileged h, State.srValue_eq_srOperand]

theorem writesOfSpecialRegisters : Claims.WritesOfSpecialRegisters := by
  intro s g o sr hgt hl v
  obtain ⟨t, e, stored⟩ := s.storeSr_eq g hgt hl v
  exact ⟨fun ok => ⟨fun h => ⟨_, exec_movsrWrite h g o, s.storeSr_of_accepted g hgt hl ok⟩,
      fun h => ⟨_, exec_srwr h g o sr, s.storeSr_of_accepted g hgt hl ok⟩⟩,
    fun h => ⟨t, (exec_movsrWrite h g o).trans (congrArg _ e), stored⟩,
    fun h => ⟨t, (exec_srwr h g o sr).trans (congrArg _ e), stored⟩⟩

/-- Settles O12: the check register by register, and the write holder by holder. -/
theorem specialRegisterWrites : Obligations.SpecialRegisterWrites :=
  ⟨writesOfSpecialRegisters, specialRegisterValues, specialRegisterChecks⟩

end Sys2Proof.Machine
end

section
/-! SUPPORT. Exceptions: what a lane's fault records, which handler it enters, and what it leaves alone (spec/02 R39 to
R42, spec/09 R160, spec/24 R362). -/

namespace Sys2Proof.Machine

/-! ## The record (R39) -/

theorem toNat_append_eq_add {n m : Nat} (x : BitVec n) (y : BitVec m) :
    (x ++ y).toNat = x.toNat * 2 ^ m + y.toNat := by
  rw [BitVec.toNat_append, ← Nat.shiftLeft_add_eq_or_of_lt y.isLt, Nat.shiftLeft_eq]

/-- SR.FAULT0 is its four fields side by side. -/
theorem FaultRec.f0_eq_append (f : FaultRec) :
    f.f0 = f.code ++ BitVec.ofNat 4 f.slot ++ BitVec.ofNat 4 f.cls ++ f.pc := by
  apply BitVec.eq_of_toNat_eq
  have hc := f.code.isLt
  have hp := f.pc.isLt
  rw [toNat_append_eq_add, toNat_append_eq_add, toNat_append_eq_add, FaultRec.f0]
  simp only [BitVec.toNat_ofNat]
  omega

theorem Lane.record_eq_recorded (x : Lane) (f : FaultRec) : x.record f = Claims.recorded x f := by
  rw [Lane.record, f.f0_eq_append]; rfl

/-- The record of a condition at the current slot: CLASS is bits [59:56] of the clause's header (spec/04 R70). -/
theorem State.faultHere_eq (s : State) (t : Trap) :
    s.faultHere t = { code := t.code, slot := s.group.slot, cls := s.group.header.toNat / 2 ^ 56 % 16, pc := s.group.pc,
                      word := s.group.word, addr := t.addr, opnd := t.opnd, info := t.info } :=
  congrArg (fun k : Nat => FaultRec.mk t.code s.group.slot k s.group.pc s.group.word t.addr t.opnd t.info)
    (field_eq_div_mod s.group.header 56 4)

/-! ## Where a faulting lane stands -/

/-- The state in which a lane has left its group and stands as given. -/
def State.entered (s : State) (l : Nat) (y : Lane) : State :=
  { s with lanes := tset s.lanes l y, groups := Claims.without s [l] }

theorem State.leaveGroup_eq (s : State) (l : Nat) : s.leaveGroup l = { s with groups := Claims.without s [l] } := by
  unfold State.leaveGroup Claims.without
  congr 1
  refine List.map_congr_left fun p _ => ?_
  by_cases h : coreOf l = p.1 / 16
  · have left : p.2.lanes.filter (· ≠ l) = p.2.lanes.filter fun k => !(decide (k ∈ [l]) && coreOf k == p.1 / 16) :=
      List.filter_congr fun k _ => by by_cases e : k = l <;> simp [e, h]
    rw [if_pos (show groupCore p.1 = coreOf l from h.symm), left]
  · have all : (p.2.lanes.filter fun k => !(decide (k ∈ [l]) && coreOf k == p.1 / 16)) = p.2.lanes :=
      List.filter_eq_self.2 fun k _ => by by_cases e : k = l <;> simp [e, h]
    rw [if_neg (show ¬ groupCore p.1 = coreOf l from fun e => h e.symm), all]

theorem State.setLane_leaveGroup (s : State) (l : Nat) (y : Lane) : (s.leaveGroup l).setLane l y = s.entered l y := by
  rw [State.leaveGroup_eq]; rfl

/-- No user handler takes the fault: the warp has none, or the lane is in it. -/
theorem not_user_of_or {v : W64} {m : HMode} (h : v = 0 ∨ m = .user) : ¬ (v ≠ 0 ∧ m = .normal) := by
  rintro ⟨hv, hn⟩
  rcases h with h | h
  · exact hv h
  · rw [h] at hn; cases hn

section Delivered
variable {s : State} {l : Nat} (f : FaultRec)

theorem State.deliver_helper (h : (s.lane l).helper = true) :
    s.deliver l f = s.entered l { s.lane l with status := .dormant } := by
  rw [State.deliver, ← State.setLane_leaveGroup]; exact if_pos h

variable (nh : (s.lane l).helper = false)
include nh

theorem State.deliver_machineCheck (h : f.code = 0xF0) :
    s.deliver l f = (s.entered l { (if (s.lane l).hmode = .kernel then s.lane l else Claims.recorded (s.lane l) f) with
      status := .stopped, rslot := f.slot }).killCore (coreOf l) := by
  rw [State.deliver, ← State.setLane_leaveGroup, ← Lane.record_eq_recorded]
  exact (if_neg (by simp [nh])).trans (if_pos h)

theorem State.deliver_translation (h : f.code = 0x11) :
    s.deliver l f = s.entered l { s.lane l with
      status := .translating f, rslot := f.slot, pc := f.pc, kept := s.clauseOf l } := by
  rw [State.deliver, ← State.setLane_leaveGroup]
  exact (if_neg (by simp [nh])).trans ((if_neg (by rw [h]; decide)).trans (if_pos h))

variable (hm : f.code ≠ 0xF0) (ht : f.code ≠ 0x11)
include hm ht

theorem State.deliver_inKernel (h : (s.lane l).hmode = .kernel) :
    s.deliver l f = (s.entered l { s.lane l with status := .stopped, rslot := f.slot, pc := f.pc }).killCore (coreOf l) := by
  rw [State.deliver, ← State.setLane_leaveGroup]
  exact (if_neg (by simp [nh])).trans ((if_neg hm).trans ((if_neg ht).trans (if_pos h)))

/-- A fault that finds its lane outside the kernel handler enters the user handler, the kernel handler, or none. -/
theorem State.deliver_eq (h : (s.lane l).hmode ≠ .kernel) :
    s.deliver l f =
      if (s.warp (warpOf l)).trapv ≠ 0 ∧ (s.lane l).hmode = .normal then
        s.entered l ((s.lane l).enter f (s.warp (warpOf l)).trapv false (s.clauseOf l))
      else if (s.core (coreOf l)).ktrapv ≠ 0 then
        s.entered l ((s.lane l).enter f (s.core (coreOf l)).ktrapv true (s.clauseOf l))
      else (s.entered l { Claims.recorded (s.lane l) f with status := .stopped, rslot := f.slot, pc := f.pc }).killCore
        (coreOf l) := by
  rw [State.deliver, ← State.setLane_leaveGroup, ← State.setLane_leaveGroup, ← State.setLane_leaveGroup,
    ← Lane.record_eq_recorded]
  exact (if_neg (by simp [nh])).trans ((if_neg hm).trans ((if_neg ht).trans (if_neg h)))

theorem State.deliver_user (h : (s.lane l).hmode = .normal) (hv : (s.warp (warpOf l)).trapv ≠ 0) :
    s.deliver l f = s.entered l { Claims.recorded (s.lane l) f with
      hmode := .user, pc := (s.warp (warpOf l)).trapv.setWidth 48, rslot := 0, status := .idle, kept := none,
      faulted := s.clauseOf l :: (s.lane l).faulted } := by
  rw [State.deliver_eq f nh hm ht (by simp [h]), if_pos ⟨hv, h⟩, Lane.enter, Lane.record_eq_recorded]; rfl

theorem State.deliver_kernel (h : (s.lane l).hmode ≠ .kernel)
    (hu : (s.warp (warpOf l)).trapv = 0 ∨ (s.lane l).hmode = .user) (hk : (s.core (coreOf l)).ktrapv ≠ 0) :
    s.deliver l f = s.entered l { Claims.recorded (s.lane l) f with
      kprev := (s.lane l).priv.getLsbD 0, uprev := decide ((s.lane l).hmode = .user), hmode := .kernel,
      priv := (s.lane l).priv ||| 1, pc := (s.core (coreOf l)).ktrapv.setWidth 48, rslot := 0, status := .idle,
      kept := none, faulted := s.clauseOf l :: (s.lane l).faulted } := by
  rw [State.deliver_eq f nh hm ht h, if_neg (not_user_of_or hu), if_pos hk, Lane.enter, Lane.record_eq_recorded]; rfl

theorem State.deliver_noHandler (h : (s.lane l).hmode ≠ .kernel)
    (hu : (s.warp (warpOf l)).trapv = 0 ∨ (s.lane l).hmode = .user) (hk : (s.core (coreOf l)).ktrapv = 0) :
    s.deliver l f = (s.entered l { Claims.recorded (s.lane l) f with
      status := .stopped, rslot := f.slot, pc := f.pc }).killCore (coreOf l) := by
  rw [State.deliver_eq f nh hm ht h, if_neg (not_user_of_or hu), if_neg (not_not.2 hk)]

end Delivered

/-- Settles O37: the cases of a delivered fault, each a lane that has left its group with its record. -/
theorem exceptions : Obligations.Exceptions := by
  refine ⟨fun s g code => ⟨rfl, rfl⟩, fun s l t => congrArg (s.deliver l) (s.faultHere_eq t), fun s l f => ?_⟩
  exact ⟨State.deliver_helper f, State.deliver_machineCheck f, State.deliver_translation f,
    fun nh hm ht => ⟨State.deliver_user f nh hm ht, State.deliver_kernel f nh hm ht, State.deliver_noHandler f nh hm ht,
      State.deliver_inKernel f nh hm ht⟩⟩

end Sys2Proof.Machine
end

section
/-! SUPPORT. Privilege: a group in user mode that meets a privileged instruction, and PCFG (spec/02 R31, R41, spec/24 R364
to R368). -/

namespace Sys2Proof.Machine

/-! ## What every fault leaves -/

theorem onlyQueued_killCore (s : State) (c : Nat) : onlyQueued s (s.killCore c) := by
  unfold State.killCore
  split
  · exact onlyQueued_killLaunch s _
  · exact onlyQueued.refl s

/-- Whatever the fault, its lane is in flight no more and has left its group; beside that, only queues, launches and
cores may change, by a kill. -/
theorem State.deliver_leaves (s : State) (l : Nat) (f : FaultRec) :
    ∃ y : Lane, y.status ≠ .inFlight ∧ onlyQueued (s.entered l y) (s.deliver l f) := by
  have killed {y : Lane} (hy : y.status ≠ .inFlight) (e : s.deliver l f = (s.entered l y).killCore (coreOf l)) :
      ∃ y : Lane, y.status ≠ .inFlight ∧ onlyQueued (s.entered l y) (s.deliver l f) :=
    ⟨y, hy, by rw [e]; exact onlyQueued_killCore _ _⟩
  have stands {y : Lane} (hy : y.status ≠ .inFlight) (e : s.deliver l f = s.entered l y) :
      ∃ y : Lane, y.status ≠ .inFlight ∧ onlyQueued (s.entered l y) (s.deliver l f) :=
    ⟨y, hy, by rw [e]; exact onlyQueued.refl _⟩
  cases nh : (s.lane l).helper with
  | true => exact stands (by simp) (State.deliver_helper f nh)
  | false =>
    by_cases hm : f.code = 0xF0
    · exact killed (by simp) (State.deliver_machineCheck f nh hm)
    by_cases ht : f.code = 0x11
    · exact stands (by simp) (State.deliver_translation f nh ht)
    by_cases h : (s.lane l).hmode = .kernel
    · exact killed (by simp) (State.deliver_inKernel f nh hm ht h)
    have e := State.deliver_eq f nh hm ht h
    split at e
    · exact stands (by simp [Lane.enter]) e
    split at e
    · exact stands (by simp [Lane.enter]) e
    · exact killed (by simp) e

/-- A lane in flight after a fault was in flight before it, and is not the one that took it. -/
theorem State.inFlight_of_trap {s : State} {l j : Nat} {t : Trap} (h : ((s.trap l t).lane j).status = .inFlight) :
    j ≠ l ∧ (s.lane j).status = .inFlight := by
  obtain ⟨y, hy, only⟩ := s.deliver_leaves l (s.faultHere t)
  have lane : (s.trap l t).lane j = if j = l then y else s.lane j := by
    rw [State.trap, State.lane, only.lanes, State.entered, tget_tset]; rfl
  rw [lane] at h
  by_cases e : j = l
  · rw [if_pos e] at h; exact absurd h hy
  · rw [if_neg e] at h; exact ⟨e, h⟩

/-- A key of a table whose entries are changed one by one. -/
theorem tfind_mapEntries {α β : Type} (t : Tab α) (f : Nat × α → β) (k : Nat) :
    tfind (t.map fun p => (p.1, f p)) k = (tfind t k).map fun x => f (k, x) := by
  induction t with
  | nil => rfl
  | cons p t ih =>
    obtain ⟨i, x⟩ := p
    simp only [List.map_cons, tfind, ih]
    split
    next e => rw [e]; rfl
    next => rfl

/-- No lane joins the current group by a fault. -/
theorem State.group_trap_subset (s : State) (l : Nat) (t : Trap) : (s.trap l t).group.lanes ⊆ s.group.lanes := by
  obtain ⟨y, -, only⟩ := s.deliver_leaves l (s.faultHere t)
  have cur : (s.trap l t).cur = s.cur := by rw [State.trap, only.1]; rfl
  have groups : (s.trap l t).groups = Claims.without s [l] := by rw [State.trap, only.1]; rfl
  unfold State.group
  rw [cur]
  cases s.cur with
  | none => exact fun _ h => h
  | some k =>
    dsimp only
    rw [tget_eq, tget_eq, groups, Claims.without, tfind_mapEntries]
    cases tfind s.groups k with
    | none => exact fun _ h => h
    | some x => exact List.filter_subset_self _

/-- After faults of some lanes these are in flight no more, and the group has gained no lane. -/
theorem State.trapAll_leaves (s : State) (ls : List Nat) (t : Trap) :
    (s.trapAll ls t).group.lanes ⊆ s.group.lanes ∧
    ∀ j, ((s.trapAll ls t).lane j).status = .inFlight → j ∉ ls ∧ (s.lane j).status = .inFlight := by
  induction ls generalizing s with
  | nil => exact ⟨fun _ h => h, fun j h => ⟨List.not_mem_nil, h⟩⟩
  | cons l ls ih =>
    obtain ⟨group, lanes⟩ := ih (s.trap l t)
    refine ⟨fun j h => s.group_trap_subset l t (group h), fun j h => ?_⟩
    obtain ⟨notRest, inFlight⟩ := lanes j h
    obtain ⟨notFirst, inFlight⟩ := State.inFlight_of_trap inFlight
    exact ⟨by simp [notFirst, notRest], inFlight⟩

/-- When the whole group has faulted no lane executes. -/
theorem State.exec_trapAll_group (s : State) (t : Trap) (g : Guard) : (s.trapAll s.group.lanes t).exec g = [] := by
  obtain ⟨group, lanes⟩ := s.trapAll_leaves s.group.lanes t
  refine List.eq_nil_iff_forall_not_mem.2 fun j h => ?_
  have inGroup : j ∈ (s.trapAll s.group.lanes t).group.lanes := (List.mem_filter.1 h).1
  exact (lanes j (State.status_of_mem_exec h)).1 (group inGroup)

/-! ## Instructions at which no lane executes -/

theorem State.perLane_of_no_exec {s : State} {g : Guard} (h : s.exec g = []) (d : Operand) (f : Nat → LaneRes) :
    s.perLane g d f = s := by
  rw [State.perLane, h]
  simp [State.commit, goodOf, badOf, State.noteFlags, State.trapEach]

theorem State.storeSr_of_no_exec {s : State} {g : Guard} (h : s.exec g = []) (sr : SReg) (v : Nat → W64) :
    s.storeSr g sr v = s := by
  have none : s.suppliers (holderOf sr) [] = [] := by cases holderOf sr <;> rfl
  rw [State.storeSr, h]
  simp [none, State.trapEach]

/-! ## PRIV (R41, R364 to R368) -/

/-- PRIV in a group that is in user mode throughout reaches every lane. -/
theorem State.denyUser_of_allUser {s : State} (h : Claims.allUser s) :
    s.denyUser = s.trapAll s.group.lanes { code := 0x40, info := s.group.word.toNat / 2 ^ 56 } := by
  have all : (s.group.lanes.filter fun l => !(s.lane l).privileged) = s.group.lanes :=
    List.filter_eq_self.2 fun l hl => by rw [Lane.privileged, h l hl]; rfl
  have opcode : (s.group.word.extractLsb' 56 8).toNat = s.group.word.toNat / 2 ^ 56 := by
    rw [BitVec.extractLsb'_toNat, Nat.shiftRight_eq_div_pow]
    exact Nat.mod_eq_of_lt (by have := s.group.word.isLt; omega)
  rw [State.denyUser, all, opcode]; rfl

theorem privilegeTrap : Claims.PrivilegeTrap := by
  intro i s hi hu
  rw [← State.denyUser_of_allUser hu]
  have none (g : Guard) : s.denyUser.exec g = [] := by
    rw [State.denyUser_of_allUser hu]; exact s.exec_trapAll_group _ g
  have deny {sr : SReg} (h : Claims.sysReg sr = true) : s.checkSrPriv sr = s.denyUser := by
    rw [State.checkSrPriv, privileged_eq_sysReg, if_pos h]
  cases i with
  | movsrRead g o sr =>
    change execMovsrRead g o sr s = _
    rw [execMovsrRead, deny hi]
    exact congrArg _ (State.perLane_of_no_exec (none g) _ _)
  | movsrWrite g o sr =>
    change execMovsrWrite g o sr s = _
    rw [execMovsrWrite, deny hi]
    exact congrArg _ (State.storeSr_of_no_exec (none g) _ _)
  | srwr g o sr => exact congrArg _ (State.storeSr_of_no_exec (none g) _ _)
  | tlbinv g o what =>
    change execTlbinv g o what s = _
    rw [execTlbinv, none g]; rfl
  | pcfg g o cap q =>
    change execPcfg g o cap q s = _
    rw [execPcfg, State.execThreads, none g]; rfl
  | _ => cases hi

/-! ## PCFG (R365) -/

theorem tget_tput_ne {α : Type} [DecidableEq α] {d e : α} {t : Tab α} {k j : Nat} {v : α} (h : j ≠ k) :
    tget d (tput e t k v) j = tget d t j := by
  rw [tget_eq, tget_eq]
  unfold tput
  split <;> simp [h]

/-- PCFG of a privileged group with no executing thread. -/
theorem exec_pcfg_none {s : State} {g : Guard} (h : Claims.allPrivileged s) (hl : (s.execThreads g).head? = none)
    (o : Ops) (cap : Bool) (q : Fin 32) : exec (.pcfg g o cap q) s = .next s := by
  change execPcfg g o cap q s = _
  simp only [execPcfg, State.denyUser_of_allPrivileged h, hl]

/-- PCFG by the lowest executing thread of a privileged group. -/
theorem exec_pcfg_some {s : State} {g : Guard} {l : Nat} (h : Claims.allPrivileged s)
    (hl : (s.execThreads g).head? = some l) (o : Ops) (cap : Bool) (q : Fin 32) :
    exec (.pcfg g o cap q) s =
      let m := (s.src l .int o.a).toNat
      .next (if 20 ≤ q.val then s.trap l { code := Code.reservedField, addr := slotAddr s.group.pc s.group.slot }
        else if !(if cap then s.poolCapOk (coreOf l) q.val m else s.poolMinOk (coreOf l) q.val m) then
          s.trap l { code := Code.reservedField }
        else if cap then s.setPoolCap (coreOf l) q.val m else s.setPoolMin (coreOf l) q.val m) := by
  change execPcfg g o cap q s = _
  simp only [execPcfg, State.denyUser_of_allPrivileged h, hl]

theorem poolMin_setPoolMin (s : State) (c q m j : Nat) :
    (s.setPoolMin c q m).poolMin c j = if j = q then m else s.poolMin c j := by
  rw [State.setPoolMin, State.poolMin, State.core_modCore, if_pos rfl]
  by_cases e : j = q
  · rw [if_pos e, e, tget_tput, if_pos rfl]
  · rw [if_neg e, tget_tput_ne e]; rfl

theorem poolCap_setPoolCap (s : State) (c q m j : Nat) :
    (s.setPoolCap c q m).poolCap c j = if j = q then m else s.poolCap c j := by
  rw [State.setPoolCap, State.poolCap, State.core_modCore, if_pos rfl]
  by_cases e : j = q
  · rw [if_pos e, e, tget_tput, if_pos rfl]
  · rw [if_neg e, tget_tput_ne e]; rfl

/-- The checks of R31 on a pool value: a cap, or a minimum. -/
theorem State.poolCapOk_iff {q : Nat} (h : q < 20) (s : State) (c m : Nat) :
    s.poolCapOk c q m = true ↔ m ≤ 4096 ∧ s.poolMin c q ≤ m := by
  simp [State.poolCapOk, h]

theorem State.poolMinOk_iff {q : Nat} (h : q < 20) (s : State) (c m : Nat) :
    s.poolMinOk c q m = true ↔
      m ≤ s.poolCap c q ∧ ((List.range 20).map fun j => if j = q then m else s.poolMin c j).sum ≤ 4096 := by
  simp [State.poolMinOk, h, State.poolSum_eq_sum]

/-- A value that fails its check faults, and one that passes is written. -/
theorem poolConfiguration : Claims.PoolConfiguration := by
  intro s g o cap q hp
  cases hl : (s.execThreads g).head? with
  | none => exact exec_pcfg_none hp hl o cap q
  | some l =>
    have run := exec_pcfg_some hp hl o cap q
    dsimp only at run ⊢
    generalize (s.src l .int o.a).toNat = m at run ⊢
    refine ⟨fun h20 => by rw [run, if_pos h20]; rfl, fun hq refused => ?_, fun hq passed => ?_⟩
    · rw [run, if_neg (Nat.not_le.2 hq)]
      cases cap with
      | true =>
        have fails : ¬ s.poolCapOk (coreOf l) q.val m = true := mt (State.poolCapOk_iff hq s _ m).1 (by simpa using refused)
        rw [if_pos (by simpa using fails)]; rfl
      | false =>
        have fails : ¬ s.poolMinOk (coreOf l) q.val m = true := mt (State.poolMinOk_iff hq s _ m).1 (by simpa using refused)
        rw [if_pos (by simpa using fails)]; rfl
    · rw [if_neg (Nat.not_le.2 hq)] at run
      cases cap with
      | true =>
        rw [if_neg (by simpa [State.poolCapOk_iff hq] using passed), if_pos rfl] at run
        refine ⟨_, run, rfl, fun k hk => ?_, fun j => ?_, fun j => ?_, ?_⟩
        · rw [State.setPoolCap, State.core_modCore, if_neg hk]
        · rw [if_neg (by simp), State.setPoolCap, State.poolMin, State.core_modCore, if_pos rfl]; rfl
        · rw [poolCap_setPoolCap]; simp
        · rw [State.setPoolCap, State.core_modCore, if_pos rfl]
      | false =>
        rw [if_neg (by simpa [State.poolMinOk_iff hq] using passed), if_neg (by simp)] at run
        refine ⟨_, run, rfl, fun k hk => ?_, fun j => ?_, fun j => ?_, ?_⟩
        · rw [State.setPoolMin, State.core_modCore, if_neg hk]
        · rw [poolMin_setPoolMin]; simp
        · rw [if_neg (by simp), State.setPoolMin, State.poolCap, State.core_modCore, if_pos rfl]; rfl
        · rw [State.setPoolMin, State.core_modCore, if_pos rfl]

/-- Settles O13: PRIV takes every lane out of flight, so the instruction then finds none that executes; PCFG by the
checks of its value. -/
theorem privilegeAndPools : Obligations.PrivilegeAndPools := ⟨privilegeTrap, poolConfiguration⟩

end Sys2Proof.Machine
end

section
/-! SUPPORT. EXIT over a table that lists a lane twice, and the pools of a core right after reset (spec/02 R31, spec/10
R169, spec/11 R191, R201). -/

namespace Sys2Proof.Machine

/-! ## Reset -/

/-- A core that nothing has written has the minimums that firmware sets at a launch (R201), not 0. -/
theorem State.poolMin_reset (c q : Nat) : State.reset.poolMin c q = poolMinReset q := rfl

/-- Refutes O58: right after reset the pool minimum of a pond bin reads 16. The model's table of minimums lists the queues
that differ from R201's values, and reset leaves it empty. -/
theorem not_reset : ¬ Obligations.Reset := by
  unfold Obligations.Reset
  rintro ⟨-, -, -, cores, -⟩
  obtain ⟨-, -, -, -, -, -, -, minimums⟩ := cores 0
  have zero : poolMinReset 0 = 0 := (State.poolMin_reset 0 0).symm.trans (minimums 0)
  exact absurd zero (by decide)

/-! ## EXIT -/

/-- EXIT in its clause's last slot: the executing lanes leave one by one. -/
theorem exec_exit {s : State} (h : s.atEnd = true) (g : Guard) :
    exec (.exit g) s = .next (((s.exec g).foldl State.leave s).afterLeave s.curCore (s.exec g)) := by
  change execExit g s = _
  rw [execExit, if_neg (by simp [h])]

/-- The sole lane of a block, in flight at the last slot of a clause. The table lists the lane a second time, asleep at a
word of the block's tile. -/
def exitListedTwice : State where
  lanes := [(0, { status := .inFlight }),
    (0, { status := .asleepWaitw true { word := .tile 0 0, w64 := false, cmp := .eq, value := 0, scope := .warp } })]
  cores := [(0, { block := some 0 })]
  blocks := [(0, { launch := 0, id := 0, cores := [0], threads := 1, whole := false })]
  tiles := [(0, {})]
  groups := [(0, { lanes := [0], pc := 0, header := 0, words := [] })]
  cur := some 0

/-- The lane retires, its block ends, and the tile that is freed wakes the lane that the second entry names. -/
theorem exitListedTwice_idle : ∃ t, exec (.exit ⟨false, 7⟩) exitListedTwice = .next t ∧ (t.lane 0).status = .idle :=
  ⟨_, exec_exit (by decide) _, by decide⟩

/-- The lane is its quad's last thread. -/
theorem exitListedTwice_quadLeaves : Claims.quadLeaves exitListedTwice ⟨false, 7⟩ 0 := by
  unfold Claims.quadLeaves
  decide

theorem not_exits : ¬ Claims.Exits := by
  intro h
  obtain ⟨t, ht, -, -, threads⟩ := h exitListedTwice ⟨false, 7⟩ rfl
  obtain ⟨u, hu, idle⟩ := exitListedTwice_idle
  cases ht.symm.trans hu
  have retired := ((threads 0 (by decide)).1 exitListedTwice_quadLeaves).1
  rw [idle] at retired
  cases retired

/-- Refutes O39, by its clause on EXIT: a freed tile looks for its sleepers entry by entry (R191), and every other
operation reads a lane by its key. In a table that lists a lane twice, the second entry asleep at the tile, EXIT of the
block's last thread leaves that thread idle and not retired. -/
theorem not_callsReturnsAndExits : ¬ Obligations.CallsReturnsAndExits := fun h => not_exits h.2

end Sys2Proof.Machine
end

section
/-! SUPPORT. Finite values as rational numbers: exact sums, products, comparison and quotients, and what NaNs, infinities
and zeros give (spec/03 R45, R53, spec/08 R128). -/

namespace Sys2Proof.Machine

/-! ## The classes of a value -/

theorem FVal.isNan_iff {a : FVal} : a.isNan = true ↔ ∃ neg sig, a = .nan neg sig := by
  cases a <;> simp [FVal.isNan]

theorem FVal.isInf_iff {a : FVal} : a.isInf = true ↔ ∃ neg, a = .inf neg := by
  cases a <;> simp [FVal.isInf]

theorem FVal.isFin_iff {a : FVal} : a.isFin = true ↔ ∃ neg m e, a = .fin neg m e := by
  cases a <;> simp [FVal.isFin]

theorem FVal.isZero_iff {a : FVal} : a.isZero = true ↔ ∃ neg e, a = .fin neg 0 e := by
  cases a <;> simp [FVal.isZero]

/-- A finite value that is no zero, which is how the statements name it. -/
theorem FVal.nonzero_iff {a : FVal} : a.isFin = true ∧ ¬ a.isZero = true ↔ ∃ neg m e, m ≠ 0 ∧ a = .fin neg m e := by
  cases a <;> simp [FVal.isFin, FVal.isZero]

theorem oppositeInfs_iff {xs : List FVal} : oppositeInfs xs = true ↔ .inf false ∈ xs ∧ .inf true ∈ xs := by
  simp [oppositeInfs]

/-! ## The number a finite value stands for -/

theorem num_fin (neg : Bool) (m : Nat) (e : Int) : Claims.num (.fin neg m e) = FVal.int neg m * (2 : ℚ) ^ e := by
  cases neg <;> simp [Claims.num, FVal.int]

theorem num_zero (neg : Bool) (e : Int) : Claims.num (.fin neg 0 e) = 0 := by
  cases neg <;> simp [Claims.num]

theorem abs_num_fin (neg : Bool) (m : Nat) (e : Int) : |Claims.num (.fin neg m e)| = m * (2 : ℚ) ^ e := by
  cases neg <;> simp [Claims.num, abs_mul, abs_zpow]

theorem FVal.int_mul (na nb : Bool) (ma mb : Nat) :
    FVal.int (na != nb) (ma * mb) = FVal.int na ma * FVal.int nb mb := by
  cases na <;> cases nb <;> simp [FVal.int]

theorem FVal.int_natAbs (t : Int) : FVal.int (t < 0) t.natAbs = t := by
  by_cases neg : t < 0
  · simp only [FVal.int, neg, decide_true, if_true]; omega
  · simp only [FVal.int, neg, decide_false, Bool.false_eq_true, if_false]; omega

/-- A mantissa counted in units of 2^e, e at or below its exponent, is the same number. -/
theorem int_shiftLeft_mul (neg : Bool) (m : Nat) {e x : Int} (h : e ≤ x) :
    (FVal.int neg (m <<< (x - e).toNat) : ℚ) * (2 : ℚ) ^ e = Claims.num (.fin neg m x) := by
  obtain ⟨k, rfl⟩ := Int.le.dest h
  have shifted : FVal.int neg (m <<< k) = FVal.int neg m * 2 ^ k := by
    cases neg <;> simp [FVal.int, Nat.shiftLeft_eq]
  rw [add_sub_cancel_left, Int.toNat_natCast, shifted, num_fin, zpow_add₀ two_ne_zero]
  push_cast
  rw [zpow_natCast]
  ring

/-! ## Products and comparison -/

theorem num_mul (na nb : Bool) (ma mb : Nat) (ea eb : Int) :
    Claims.num (.fin (na != nb) (ma * mb) (ea + eb)) = Claims.num (.fin na ma ea) * Claims.num (.fin nb mb eb) := by
  rw [num_fin, num_fin, num_fin, FVal.int_mul, zpow_add₀ two_ne_zero]
  push_cast
  ring

theorem cmp_fin (na nb : Bool) (ma mb : Nat) (ea eb : Int) :
    let x := Claims.num (.fin na ma ea)
    let y := Claims.num (.fin nb mb eb)
    (FVal.fin na ma ea).cmp (.fin nb mb eb) = some (if x < y then -1 else if x = y then 0 else 1) := by
  have pos : (0 : ℚ) < 2 ^ min ea eb := zpow_pos two_pos _
  simp only [FVal.cmp]
  rw [← int_shiftLeft_mul na ma (min_le_left ea eb), ← int_shiftLeft_mul nb mb (min_le_right ea eb)]
  simp only [mul_lt_mul_iff_left₀ pos, mul_left_inj' pos.ne', Int.cast_lt, Int.cast_inj]

/-! ## Sums -/

/-- Every exponent of a nonzero term is at or above `e`. -/
def AtOrAbove (e : Int) (xs : List FVal) : Prop := ∀ neg m x, .fin neg m x ∈ xs → m ≠ 0 → e ≤ x

theorem leastExp_le_start (d : Int) (xs : List FVal) : leastExp d xs ≤ d := by
  induction xs generalizing d with
  | nil => exact le_rfl
  | cons x xs ih =>
    cases x with
    | fin neg m e =>
      refine (ih _).trans ?_
      split <;> omega
    | nan | inf => exact ih d

theorem leastExp_atOrAbove (d : Int) (xs : List FVal) : AtOrAbove (leastExp d xs) xs := by
  induction xs generalizing d with
  | nil => intro _ _ _ h; cases h
  | cons x xs ih =>
    intro neg m e h nonzero
    rcases List.mem_cons.1 h with rfl | tail
    · refine (leastExp_le_start _ xs).trans ?_
      split <;> omega
    · cases x with
      | fin => exact ih _ neg m e tail nonzero
      | nan | inf => exact ih d neg m e tail nonzero

theorem sumAt_mul {e : Int} {xs : List FVal} (fin : ∀ x ∈ xs, x.isFin) (above : AtOrAbove e xs) :
    (sumAt e xs : ℚ) * (2 : ℚ) ^ e = (xs.map Claims.num).sum := by
  induction xs with
  | nil => simp [sumAt]
  | cons x xs ih =>
    obtain ⟨neg, m, k, rfl⟩ := FVal.isFin_iff.1 (fin x List.mem_cons_self)
    have rest := ih (fun y hy => fin y (List.mem_cons_of_mem _ hy))
      (fun _ _ _ h => above _ _ _ (List.mem_cons_of_mem _ h))
    rw [sumAt, List.map_cons, List.sum_cons, ← rest]
    by_cases zero : m = 0
    · rw [if_pos zero, zero, num_zero]; push_cast; ring
    · rw [if_neg zero, ← int_shiftLeft_mul neg m (above _ _ _ List.mem_cons_self zero)]; push_cast; ring

/-- A sum with a NaN or infinities of both signs. -/
theorem exactSum_of_invalid (rm : Rm) {xs : List FVal} (h : (∃ x ∈ xs, x.isNan) ∨ oppositeInfs xs = true) :
    exactSum rm xs = (.nan false false, if xs.any FVal.isSig || oppositeInfs xs then 1 else 0) := by
  have here : (xs.any FVal.isNan || oppositeInfs xs) = true := by simpa using h
  rw [exactSum, if_pos here]
  rfl

theorem exactSum_of_nan (rm : Rm) {xs : List FVal} (nan : ∃ x ∈ xs, x.isNan) (h : oppositeInfs xs = false) :
    exactSum rm xs = (.nan false false, if xs.any FVal.isSig then 1 else 0) := by
  rw [exactSum_of_invalid rm (.inl nan), h, Bool.or_false]

theorem exactSum_of_oppositeInfs (rm : Rm) {xs : List FVal} (h : oppositeInfs xs = true) :
    exactSum rm xs = (.nan false false, 1) := by
  rw [exactSum_of_invalid rm (.inr h), h, Bool.or_true, if_pos rfl]

/-- A sum with infinities of one sign. -/
theorem exactSum_of_inf (rm : Rm) {xs : List FVal} (noNan : ∀ x ∈ xs, ¬ x.isNan) {n : Bool} (inf : .inf n ∈ xs)
    (one : .inf (!n) ∉ xs) : exactSum rm xs = (.inf n, 0) := by
  have none : ¬ (xs.any FVal.isNan || oppositeInfs xs) = true := by
    rw [Bool.or_eq_true, List.any_eq_true, oppositeInfs_iff]
    rintro (⟨x, hx, nan⟩ | ⟨hf, ht⟩)
    · exact noNan x hx nan
    · cases n
      · exact one ht
      · exact one hf
  have some : xs.any FVal.isInf = true := List.any_eq_true.2 ⟨_, inf, rfl⟩
  have sign : xs.contains (.inf true) = n := by
    cases n
    · simpa using one
    · simpa using inf
  rw [exactSum, if_neg none, if_pos some, sign]

/-- A sum of finite values: of zeros alone, or counted in units of the least exponent. -/
theorem exactSum_of_fin (rm : Rm) {xs : List FVal} (fin : ∀ x ∈ xs, x.isFin) :
    exactSum rm xs =
      if xs.all FVal.isZero then
        (.fin (if xs.all FVal.neg then true else if xs.all (fun x => !x.neg) then false else rm == .rd) 0 0, 0)
      else
        let e := leastExp (firstExp xs) xs
        let t := sumAt e xs
        if t = 0 then (.fin (rm == .rd) 0 0, 0) else (.fin (t < 0) t.natAbs e, 0) := by
  have noInf (n : Bool) : .inf n ∉ xs := fun h => absurd (fin _ h) (by simp [FVal.isFin])
  have noNan (n s : Bool) : .nan n s ∉ xs := fun h => absurd (fin _ h) (by simp [FVal.isFin])
  have valid : ¬ (xs.any FVal.isNan || oppositeInfs xs) = true := by
    rw [Bool.or_eq_true, List.any_eq_true, oppositeInfs_iff]
    rintro (⟨x, hx, nan⟩ | ⟨hf, -⟩)
    · obtain ⟨n, s, rfl⟩ := FVal.isNan_iff.1 nan
      exact noNan n s hx
    · exact noInf false hf
  have finite : ¬ xs.any FVal.isInf = true := by
    rw [List.any_eq_true]
    rintro ⟨x, hx, inf⟩
    obtain ⟨n, rfl⟩ := FVal.isInf_iff.1 inf
    exact noInf n hx
  rw [exactSum, if_neg valid, if_neg finite]
  by_cases zeros : xs.all FVal.isZero = true
  · rw [if_pos zeros, if_pos zeros]
    split
    · rfl
    · split <;> rfl
  · rw [if_neg zeros, if_neg zeros]

theorem sum_num_of_zeros {xs : List FVal} (h : xs.all FVal.isZero = true) : (xs.map Claims.num).sum = 0 := by
  refine List.sum_eq_zero fun q hq => ?_
  obtain ⟨x, hx, rfl⟩ := List.mem_map.1 hq
  obtain ⟨neg, e, rfl⟩ := FVal.isZero_iff.1 (List.all_eq_true.1 h x hx)
  exact num_zero neg e

/-- Values of a list that is not empty are not all of both signs. -/
theorem not_all_neg_of_all_pos {xs : List FVal} (ne : xs ≠ []) (h : xs.all (fun x => !x.neg) = true) :
    xs.all (fun x => x.neg) = false := by
  obtain ⟨x, xs, rfl⟩ := List.exists_cons_of_ne_nil ne
  have first : x.neg = false := by simpa using List.all_eq_true.1 h x List.mem_cons_self
  simp [first]

/-- The sign of a sum of zeros: theirs when they share one. -/
theorem sign_of_zeros {xs : List FVal} (ne : xs ≠ []) (rd : Bool) :
    (if xs.all FVal.neg then true else if xs.all (fun x => !x.neg) then false else rd) =
      if xs.all (fun x => x.neg) || xs.all (fun x => !x.neg) then xs.all (fun x => x.neg) else rd := by
  by_cases neg : xs.all (fun x => x.neg) = true
  · simp [neg]
  · by_cases pos : xs.all (fun x => !x.neg) = true
    · simp [pos, not_all_neg_of_all_pos ne pos]
    · simp [neg, pos]

/-- A finite sum is exact, and a zero has the sign that R53 gives it. -/
theorem exactSum_exact (rm : Rm) {xs : List FVal} (ne : xs ≠ []) (fin : ∀ x ∈ xs, x.isFin) :
    (exactSum rm xs).1.isFin ∧ Claims.num (exactSum rm xs).1 = (xs.map Claims.num).sum ∧ (exactSum rm xs).2 = 0 ∧
      (Claims.num (exactSum rm xs).1 = 0 → (exactSum rm xs).1.neg =
        if xs.all (fun x => x.isZero) && (xs.all (fun x => x.neg) || xs.all (fun x => !x.neg))
          then xs.all (fun x => x.neg) else rm == .rd) := by
  have exact := sumAt_mul fin (leastExp_atOrAbove (firstExp xs) xs)
  rw [exactSum_of_fin rm fin]
  by_cases zeros : xs.all FVal.isZero = true
  · rw [if_pos zeros]
    refine ⟨rfl, (num_zero _ 0).trans (sum_num_of_zeros zeros).symm, rfl, fun _ => ?_⟩
    rw [zeros, Bool.true_and]
    exact sign_of_zeros ne _
  · rw [if_neg zeros]
    dsimp only
    generalize leastExp (firstExp xs) xs = e at exact
    by_cases zero : sumAt e xs = 0
    · rw [if_pos zero]
      refine ⟨rfl, ?_, rfl, fun _ => ?_⟩
      · rw [num_zero, ← exact, zero]; simp
      · rw [Bool.not_eq_true] at zeros
        rw [zeros]; rfl
    · rw [if_neg zero]
      have value : Claims.num (.fin (sumAt e xs < 0) (sumAt e xs).natAbs e) = (xs.map Claims.num).sum := by
        rw [num_fin, FVal.int_natAbs, exact]
      refine ⟨rfl, value, rfl, fun none => ?_⟩
      rw [value, ← exact] at none
      rcases mul_eq_zero.1 none with h | h
      · exact absurd (Int.cast_eq_zero.1 h) zero
      · exact absurd h (zpow_pos two_pos e).ne'

/-- Sums, products and comparison of finite values are those of the numbers. -/
theorem exactArithmetic : Claims.ExactArithmetic := by
  refine ⟨fun a b ha hb => ?_, fun rm xs ne fin => exactSum_exact rm ne fin, fun a b ha hb => ?_⟩
  · obtain ⟨na, ma, ea, rfl⟩ := FVal.isFin_iff.1 ha
    obtain ⟨nb, mb, eb, rfl⟩ := FVal.isFin_iff.1 hb
    exact ⟨rfl, num_mul na nb ma mb ea eb, rfl, rfl⟩
  · obtain ⟨na, ma, ea, rfl⟩ := FVal.isFin_iff.1 ha
    obtain ⟨nb, mb, eb, rfl⟩ := FVal.isFin_iff.1 hb
    exact cmp_fin na nb ma mb ea eb

/-! ## NaNs, infinities and zeros -/

theorem exactMul_of_nan {a b : FVal} (h : a.isNan ∨ b.isNan) :
    exactMul a b = (.nan false false, if a.isSig || b.isSig then 1 else 0) := by
  rcases h with h | h
  · obtain ⟨n, s, rfl⟩ := FVal.isNan_iff.1 h
    rfl
  · obtain ⟨n, s, rfl⟩ := FVal.isNan_iff.1 h
    cases a <;> rfl

theorem exactDiv_of_nan {a b : FVal} (h : a.isNan ∨ b.isNan) :
    exactDiv a b = (.nan false false, if a.isSig || b.isSig then 1 else 0) := by
  rcases h with h | h
  · obtain ⟨n, s, rfl⟩ := FVal.isNan_iff.1 h
    rfl
  · obtain ⟨n, s, rfl⟩ := FVal.isNan_iff.1 h
    cases a <;> rfl

theorem exactMul_zero_inf {a b : FVal} (ha : a.isZero) (hb : b.isInf) :
    exactMul a b = (.nan false false, 1) ∧ exactMul b a = (.nan false false, 1) := by
  obtain ⟨na, ea, rfl⟩ := FVal.isZero_iff.1 ha
  obtain ⟨nb, rfl⟩ := FVal.isInf_iff.1 hb
  exact ⟨rfl, rfl⟩

/-- An infinity times any value but a NaN and a zero. -/
theorem exactMul_inf {a b : FVal} (ha : a.isInf) (noNan : ¬ b.isNan) (nonzero : ¬ b.isZero) :
    exactMul a b = (.inf (a.neg != b.neg), 0) ∧ exactMul b a = (.inf (a.neg != b.neg), 0) := by
  obtain ⟨na, rfl⟩ := FVal.isInf_iff.1 ha
  cases b with
  | nan => exact absurd rfl noNan
  | inf nb => exact ⟨rfl, congrArg (fun n => (FVal.inf n, 0)) (bne_comm)⟩
  | fin nb m e =>
    have m0 : (m == 0) = false := by simpa [FVal.isZero] using nonzero
    simp [exactMul, FVal.isZero, FVal.neg, m0, bne_comm]

theorem exactDiv_by_zero {a b : FVal} (ha : a.isFin) (nonzero : ¬ a.isZero) (hb : b.isZero) :
    exactDiv a b = (.inf (a.neg != b.neg), 2) := by
  obtain ⟨na, m, e, m0, rfl⟩ := FVal.nonzero_iff.1 ⟨ha, nonzero⟩
  obtain ⟨nb, eb, rfl⟩ := FVal.isZero_iff.1 hb
  simp [exactDiv, m0, FVal.neg, flagDivZero]

/-- 0/0 and ∞/∞. -/
theorem exactDiv_invalid {a b : FVal} (h : a.isZero ∧ b.isZero ∨ a.isInf ∧ b.isInf) :
    exactDiv a b = (.nan false false, 1) := by
  rcases h with ⟨ha, hb⟩ | ⟨ha, hb⟩
  · obtain ⟨na, ea, rfl⟩ := FVal.isZero_iff.1 ha
    obtain ⟨nb, eb, rfl⟩ := FVal.isZero_iff.1 hb
    rfl
  · obtain ⟨na, rfl⟩ := FVal.isInf_iff.1 ha
    obtain ⟨nb, rfl⟩ := FVal.isInf_iff.1 hb
    rfl

theorem exactDiv_inf_fin {a b : FVal} (ha : a.isInf) (hb : b.isFin) : exactDiv a b = (.inf (a.neg != b.neg), 0) := by
  obtain ⟨na, rfl⟩ := FVal.isInf_iff.1 ha
  obtain ⟨nb, mb, eb, rfl⟩ := FVal.isFin_iff.1 hb
  rfl

theorem exactDiv_fin_inf {a b : FVal} (ha : a.isFin) (hb : b.isInf) :
    exactDiv a b = (.fin (a.neg != b.neg) 0 0, 0) := by
  obtain ⟨na, ma, ea, rfl⟩ := FVal.isFin_iff.1 ha
  obtain ⟨nb, rfl⟩ := FVal.isInf_iff.1 hb
  rfl

theorem exactDiv_zero_fin {a b : FVal} (ha : a.isZero) (hb : b.isFin) (nonzero : ¬ b.isZero) :
    exactDiv a b = (.fin (a.neg != b.neg) 0 0, 0) := by
  obtain ⟨na, ea, rfl⟩ := FVal.isZero_iff.1 ha
  obtain ⟨nb, m, e, m0, rfl⟩ := FVal.nonzero_iff.1 ⟨hb, nonzero⟩
  simp [exactDiv, m0, FVal.neg]

/-- A NaN and one other value are no infinities of both signs. -/
theorem oppositeInfs_pair_of_nan {a b : FVal} (h : a.isNan ∨ b.isNan) : oppositeInfs [a, b] = false := by
  rcases h with h | h
  · obtain ⟨n, s, rfl⟩ := FVal.isNan_iff.1 h
    rcases b with _ | (_ | _) | _ <;> rfl
  · obtain ⟨n, s, rfl⟩ := FVal.isNan_iff.1 h
    rcases a with _ | (_ | _) | _ <;> rfl

theorem exactSum_pair_of_nan (rm : Rm) {a b : FVal} (h : a.isNan ∨ b.isNan) :
    exactSum rm [a, b] = (.nan false false, if a.isSig || b.isSig then 1 else 0) := by
  rw [exactSum_of_nan rm (by simpa using h) (oppositeInfs_pair_of_nan h)]
  simp

theorem exactSum_inf_inf (rm : Rm) (n : Bool) : exactSum rm [.inf n, .inf (!n)] = (.nan false false, 1) :=
  exactSum_of_oppositeInfs rm (by cases n <;> rfl)

/-- An infinity and a finite value, in either order. -/
theorem exactSum_inf_fin (rm : Rm) (n : Bool) {a : FVal} (ha : a.isFin) :
    exactSum rm [.inf n, a] = (.inf n, 0) ∧ exactSum rm [a, .inf n] = (.inf n, 0) := by
  obtain ⟨na, ma, ea, rfl⟩ := FVal.isFin_iff.1 ha
  constructor
  · exact exactSum_of_inf rm (n := n) (by simp [FVal.isNan]) (by simp) (by simp)
  · exact exactSum_of_inf rm (n := n) (by simp [FVal.isNan]) (by simp) (by simp)

theorem oppositeInfs_eq_false {xs : List FVal} (h : .inf false ∉ xs ∨ .inf true ∉ xs) : oppositeInfs xs = false := by
  rw [← Bool.not_eq_true, oppositeInfs_iff]
  exact not_and_or.2 h

theorem specialOperands : Claims.SpecialOperands := by
  refine ⟨fun a b h => ⟨exactMul_of_nan h, exactDiv_of_nan h, fun rm => exactSum_pair_of_nan rm h⟩,
    fun a b ha hb => exactMul_zero_inf ha hb, exactSum_inf_inf, fun rm n a ha => exactSum_inf_fin rm n ha,
    fun a b h => exactDiv_invalid h, fun a b ha nonzero hb => exactDiv_by_zero ha nonzero hb,
    fun a b ha hb => exactDiv_inf_fin ha hb, fun a b ha noNan nonzero => exactMul_inf ha noNan nonzero,
    fun a b ha hb => ?_, fun a b ha hb nonzero => ?_,
    fun rm xs nan one => exactSum_of_nan rm nan (oppositeInfs_eq_false one),
    fun rm xs hf ht => exactSum_of_oppositeInfs rm (oppositeInfs_iff.2 ⟨hf, ht⟩),
    fun rm xs noNan n inf one => exactSum_of_inf rm noNan inf one⟩
  · rw [exactDiv_fin_inf ha hb]
    exact ⟨rfl, rfl, rfl⟩
  · rw [exactDiv_zero_fin ha hb nonzero]
    exact ⟨rfl, rfl, rfl⟩

/-! ## Quotients -/

/-- Two numbers stand alike to every binary fraction of `p` bits. -/
def SameSide (p : Nat) (x y : ℚ) : Prop :=
  ∀ n k : Int, n.natAbs < 2 ^ p →
    (x < n * (2 : ℚ) ^ k ↔ y < n * (2 : ℚ) ^ k) ∧ (n * (2 : ℚ) ^ k < x ↔ n * (2 : ℚ) ^ k < y)

theorem SameSide.mono {p r : Nat} {x y : ℚ} (h : SameSide p x y) (le : r ≤ p) : SameSide r x y :=
  fun n k hn => h n k (hn.trans_le (Nat.pow_le_pow_right two_pos le))

theorem SameSide.neg {p : Nat} {x y : ℚ} (h : SameSide p x y) : SameSide p (-x) (-y) := by
  intro n k hn
  obtain ⟨above, below⟩ := h (-n) k (by rwa [Int.natAbs_neg])
  push_cast at above below
  rw [neg_mul] at above below
  exact ⟨by rw [neg_lt, neg_lt (a := y), below], by rw [lt_neg, lt_neg (b := y), above]⟩

theorem SameSide.mul_zpow {p : Nat} {x y : ℚ} (h : SameSide p x y) (t : Int) :
    SameSide p (x * (2 : ℚ) ^ t) (y * (2 : ℚ) ^ t) := by
  intro n k hn
  have pos : (0 : ℚ) < 2 ^ t := zpow_pos two_pos t
  have unscaled : (n : ℚ) * 2 ^ k = n * 2 ^ (k - t) * 2 ^ t := by
    rw [mul_assoc, ← zpow_add₀ two_ne_zero, sub_add_cancel]
  rw [unscaled, mul_lt_mul_iff_left₀ pos, mul_lt_mul_iff_left₀ pos, mul_lt_mul_iff_left₀ pos, mul_lt_mul_iff_left₀ pos]
  exact h n (k - t) hn

/-- Two numbers of `p` bits and more that stand alike to the integers stand alike to the fractions of `p` bits: these are
integers, or below 2^p. -/
theorem sameSide_of_integers {p : Nat} {x y : ℚ} (hx : 2 ^ p ≤ x) (hy : 2 ^ p ≤ y)
    (h : ∀ z : Int, (x < z ↔ y < z) ∧ ((z : ℚ) < x ↔ (z : ℚ) < y)) : SameSide p x y := by
  intro n k hn
  rcases le_or_gt 0 k with nonneg | negative
  · obtain ⟨j, rfl⟩ := Int.eq_ofNat_of_zero_le nonneg
    simpa using h (n * 2 ^ j)
  · have small : (n : ℚ) < 2 ^ p := by
      have : n < 2 ^ p := lt_of_le_of_lt Int.le_natAbs (by exact_mod_cast hn)
      exact_mod_cast this
    have one : (2 : ℚ) ^ k ≤ 1 := zpow_le_one_of_nonpos₀ one_le_two negative.le
    have less : (n : ℚ) * 2 ^ k < 2 ^ p := by
      rcases le_total (n : ℚ) 0 with le | ge
      · exact (mul_nonpos_of_nonpos_of_nonneg le (zpow_pos two_pos k).le).trans_lt (by positivity)
      · exact (mul_le_of_le_one_right ge one).trans_lt small
    exact ⟨iff_of_false (less.trans_le hx).not_gt (less.trans_le hy).not_gt,
      iff_of_true (less.trans_le hx) (less.trans_le hy)⟩

/-- How a number between two neighbouring integers stands to an integer. -/
theorem between_integers {x : ℚ} {q : Int} (lo : (q : ℚ) < x) (hi : x < q + 1) (z : Int) :
    (x < z ↔ q < z) ∧ ((z : ℚ) < x ↔ z ≤ q) := by
  have up : q < z → x < z := fun h => hi.trans_le (by exact_mod_cast Int.add_one_le_of_lt h)
  have down : z ≤ q → (z : ℚ) < x := fun h => lt_of_le_of_lt (by exact_mod_cast h) lo
  refine ⟨⟨fun h => ?_, up⟩, ⟨fun h => ?_, down⟩⟩
  · by_contra no
    exact absurd h (down (not_lt.1 no)).not_gt
  · by_contra no
    exact absurd h (up (not_le.1 no)).not_gt

/-- A quotient is its integer part and its remainder. -/
theorem div_eq_add_mod_div (m d : Nat) (hd : 0 < d) : (m : ℚ) / d = (m / d : Nat) + (m % d : Nat) / (d : ℚ) := by
  have pos : (d : ℚ) ≠ 0 := by exact_mod_cast hd.ne'
  rw [div_eq_iff pos, add_mul, div_mul_cancel₀ _ pos, mul_comm _ (d : ℚ)]
  exact_mod_cast (Nat.div_add_mod m d).symm

theorem fraction_pos {rem d : Nat} (h : rem ≠ 0) (hd : 0 < d) : (0 : ℚ) < rem / d :=
  div_pos (by exact_mod_cast Nat.pos_of_ne_zero h) (by exact_mod_cast hd)

theorem fraction_lt_one {rem d : Nat} (h : rem < d) : (rem : ℚ) / d < 1 :=
  (div_lt_one (by exact_mod_cast Nat.zero_lt_of_lt h)).2 (by exact_mod_cast h)

/-- The integer quotient with a half added when the division goes on. -/
def stickyQuotient (n d : Nat) : ℚ := (n / d : Nat) + if n % d = 0 then 0 else 1 / 2

/-- It stands to every integer as the quotient does: it is the quotient, or both lie between the same two integers. -/
theorem stickyQuotient_integers (n : Nat) {d : Nat} (hd : 0 < d) (z : Int) :
    (stickyQuotient n d < z ↔ (n : ℚ) / d < z) ∧ ((z : ℚ) < stickyQuotient n d ↔ (z : ℚ) < n / d) := by
  have parts := div_eq_add_mod_div n d hd
  by_cases even : n % d = 0
  · have same : stickyQuotient n d = n / d := by rw [stickyQuotient, if_pos even, parts, even]; simp
    rw [same]
    exact ⟨Iff.rfl, Iff.rfl⟩
  · have rest := fraction_pos even hd
    have less := fraction_lt_one (Nat.mod_lt n hd)
    have sticky := between_integers (x := stickyQuotient n d) (q := (n / d : Nat))
      (by rw [stickyQuotient, if_neg even, Int.cast_natCast]; linarith)
      (by rw [stickyQuotient, if_neg even, Int.cast_natCast]; linarith) z
    have quotient := between_integers (x := (n : ℚ) / d) (q := (n / d : Nat))
      (by rw [parts, Int.cast_natCast]; linarith) (by rw [parts, Int.cast_natCast]; linarith) z
    exact ⟨sticky.1.trans quotient.1.symm, sticky.2.trans quotient.2.symm⟩

/-- The bits of a quotient are the sticky quotient of a numerator shifted up. -/
theorem divBits_value (p n d : Nat) :
    ((divBits p n d).1 : ℚ) * (2 : ℚ) ^ (divBits p n d).2 =
      stickyQuotient (n * 2 ^ (p + bitLen d)) d * (2 : ℚ) ^ (-((p + bitLen d : Nat) : Int)) := by
  have half : (2 : ℚ) ^ (-((p + bitLen d : Nat) : Int) - 1) = 2 ^ (-((p + bitLen d : Nat) : Int)) / 2 :=
    zpow_sub_one₀ two_ne_zero _
  simp only [divBits, stickyQuotient, Nat.shiftLeft_eq, half]
  split <;> · push_cast; ring

theorem lt_two_pow_bitLen (m : Nat) : m < 2 ^ bitLen m := by
  by_cases zero : m = 0
  · simp [zero]
  · rw [bitLen, if_neg zero]
    exact Nat.lt_log2_self

/-- A numerator shifted up by `p` bits more than the denominator has gives a quotient of `p` bits and more. -/
theorem two_pow_le_shifted_div (p : Nat) {n d : Nat} (hn : n ≠ 0) (hd : 0 < d) :
    2 ^ p ≤ n * 2 ^ (p + bitLen d) / d := by
  rw [Nat.le_div_iff_mul_le hd, pow_add]
  calc 2 ^ p * d ≤ 2 ^ p * 2 ^ bitLen d := Nat.mul_le_mul_left _ (lt_two_pow_bitLen d).le
    _ ≤ n * (2 ^ p * 2 ^ bitLen d) := Nat.le_mul_of_pos_left _ (Nat.pos_of_ne_zero hn)

/-- The bits of a quotient stand to the fractions of `p` bits as the quotient does. -/
theorem divBits_sameSide (p : Nat) {n d : Nat} (hn : n ≠ 0) (hd : d ≠ 0) :
    SameSide p (((divBits p n d).1 : ℚ) * (2 : ℚ) ^ (divBits p n d).2) (n / d) := by
  have posd := Nat.pos_of_ne_zero hd
  have large : (2 : ℚ) ^ p ≤ (n * 2 ^ (p + bitLen d) / d : Nat) := by exact_mod_cast two_pow_le_shifted_div p hn posd
  have sticky : (2 : ℚ) ^ p ≤ stickyQuotient (n * 2 ^ (p + bitLen d)) d := by
    refine large.trans (le_add_of_nonneg_right ?_)
    split <;> norm_num
  have shifted := (sameSide_of_integers sticky (large.trans Nat.cast_div_le)
    (stickyQuotient_integers _ posd)).mul_zpow (-((p + bitLen d : Nat) : Int))
  have back : ((n * 2 ^ (p + bitLen d) : Nat) : ℚ) / d * 2 ^ (-((p + bitLen d : Nat) : Int)) = n / d := by
    rw [zpow_neg, zpow_natCast]
    push_cast
    field_simp
  rwa [back, ← divBits_value] at shifted

theorem exactDiv_fin {na nb : Bool} {ma mb : Nat} {ea eb : Int} (ha : ma ≠ 0) (hb : mb ≠ 0) :
    exactDiv (.fin na ma ea) (.fin nb mb eb) =
      (.fin (na != nb) (divBits 400 ma mb).1 ((divBits 400 ma mb).2 + ea - eb), 0) := by
  simp only [exactDiv, if_neg ha, if_neg hb]

/-- A magnitude with a sign is a number or its negation. -/
theorem num_fin_sign (neg : Bool) (m : Nat) (e : Int) :
    Claims.num (.fin neg m e) = if neg then -((m : ℚ) * 2 ^ e) else m * 2 ^ e := by
  cases neg <;> simp [Claims.num]

/-- The exact quotient of two finite values, its sign apart. -/
theorem num_div_num (na nb : Bool) (ma mb : Nat) (ea eb : Int) :
    Claims.num (.fin na ma ea) / Claims.num (.fin nb mb eb) =
      if na != nb then -((ma : ℚ) / mb * 2 ^ (ea - eb)) else (ma : ℚ) / mb * 2 ^ (ea - eb) := by
  have magnitude : (ma : ℚ) * 2 ^ ea / (mb * 2 ^ eb) = ma / mb * 2 ^ (ea - eb) := by
    rw [zpow_sub₀ two_ne_zero, mul_div_mul_comm]
  rw [num_fin_sign, num_fin_sign, ← magnitude]
  cases na <;> cases nb <;> simp [neg_div, div_neg]

theorem exactDiv_sameSide (na nb : Bool) {ma mb : Nat} (ea eb : Int) (ha : ma ≠ 0) (hb : mb ≠ 0) :
    SameSide 400 (Claims.num (.fin (na != nb) (divBits 400 ma mb).1 ((divBits 400 ma mb).2 + ea - eb)))
      (Claims.num (.fin na ma ea) / Claims.num (.fin nb mb eb)) := by
  have scaled := (divBits_sameSide 400 ha hb).mul_zpow (ea - eb)
  rw [mul_assoc, ← zpow_add₀ two_ne_zero, ← add_sub_assoc] at scaled
  rw [num_div_num, num_fin_sign]
  split
  · exact scaled.neg
  · exact scaled

theorem quotients : Claims.Quotients := by
  intro a b ha a0 hb b0
  obtain ⟨na, ma, ea, hma, rfl⟩ := FVal.nonzero_iff.1 ⟨ha, a0⟩
  obtain ⟨nb, mb, eb, hmb, rfl⟩ := FVal.nonzero_iff.1 ⟨hb, b0⟩
  rw [exactDiv_fin hma hmb]
  exact ⟨rfl, rfl, rfl, (exactDiv_sameSide na nb ea eb hma hmb).mono (by norm_num)⟩

/-- Settles O5: sums in units of their least exponent, special operands class by class, and quotients by how their bits
stand to integers. -/
theorem floatValues : Obligations.FloatValues := ⟨exactArithmetic, specialOperands, quotients⟩

end Sys2Proof.Machine
end

section
/-! SUPPORT. Rounding to a grid: which neighbour a mode takes, and the points of the grid that a rounded magnitude does not
cross (spec/03 R53). -/

namespace Sys2Proof.Machine

/-! ## One rounding to a grid (R53) -/

/-- Does a mode take the upper neighbour `lo + 1` of a magnitude whose part below the grid is `rem` in `one`ths? -/
def takesUpper (rm : Rm) (rs : Nat) (neg : Bool) (lo rem k : Nat) : Bool :=
  match rm with
  | .rz => false
  | .ru => !neg
  | .rd => neg
  | .rna => 2 ^ k ≤ 2 * rem
  | .rs => (rs < ((if neg then 2 ^ k - rem else rem) <<< 32) >>> k) != neg
  | _ => 2 ^ k < 2 * rem || (2 * rem == 2 ^ k && lo % 2 == 1)

/-- The neighbour taken. -/
def chosen (rm : Rm) (rs : Nat) (neg : Bool) (lo rem k : Nat) : Nat :=
  if takesUpper rm rs neg lo rem k then lo + 1 else lo

theorem chosen_eq_or (rm : Rm) (rs : Nat) (neg : Bool) (lo rem k : Nat) :
    chosen rm rs neg lo rem k = lo ∨ chosen rm rs neg lo rem k = lo + 1 := (ite_eq_or_eq _ _ _).symm

theorem roundTo_of_le (rm : Rm) (rs : Nat) (neg : Bool) (m : Nat) {e q : Int} (h : q ≤ e) :
    roundTo rm rs neg m e q = (m * 2 ^ (e - q).toNat, false) := by
  rw [roundTo, if_pos h, Nat.shiftLeft_eq]

theorem roundTo_of_lt (rm : Rm) (rs : Nat) (neg : Bool) (m : Nat) {e q : Int} (h : e < q) :
    let k := (q - e).toNat
    roundTo rm rs neg m e q =
      if m % 2 ^ k = 0 then (m / 2 ^ k, false) else (chosen rm rs neg (m / 2 ^ k) (m % 2 ^ k) k, true) := by
  simp only [roundTo, if_neg (not_le.2 h), ← Nat.shiftRight_eq_div_pow]
  cases rm <;> rfl

/-- A magnitude in units of the grid, as a quotient of integers. -/
theorem mul_zpow_sub (m : Nat) {e q : Int} (h : e < q) :
    (m : ℚ) * (2 : ℚ) ^ (e - q) = m / (2 ^ (q - e).toNat : Nat) := by
  have shift : e - q = -((q - e).toNat : Int) := by omega
  rw [shift, zpow_neg, zpow_natCast, ← div_eq_mul_inv]
  push_cast
  rfl

/-! The upper neighbour by the part `rem` of 2^k above `lo`, as a fraction: the rows of R53 that read it. -/

theorem fraction_lt_half (rem k : Nat) : (rem : ℚ) / (2 ^ k : Nat) < 1 / 2 ↔ 2 * rem < 2 ^ k := by
  rw [div_lt_div_iff₀ (by positivity) two_pos, one_mul, mul_comm]
  norm_cast

theorem half_lt_fraction (rem k : Nat) : (1 / 2 : ℚ) < rem / (2 ^ k : Nat) ↔ 2 ^ k < 2 * rem := by
  rw [div_lt_div_iff₀ two_pos (by positivity), one_mul, mul_comm]
  norm_cast

theorem fraction_eq_half (rem k : Nat) : (rem : ℚ) / (2 ^ k : Nat) = 1 / 2 ↔ 2 * rem = 2 ^ k := by
  rw [div_eq_div_iff (by positivity) two_ne_zero, one_mul, mul_comm]
  norm_cast

theorem floor_fraction (rem k : Nat) : ⌊(rem : ℚ) / (2 ^ k : Nat) * 2 ^ 32⌋ = ((rem <<< 32) >>> k : Nat) := by
  have quotient := Rat.floor_natCast_div_natCast (rem * 2 ^ 32) (2 ^ k)
  rw [Nat.shiftLeft_eq, Nat.shiftRight_eq_div_pow, div_mul_eq_mul_div]
  push_cast at quotient ⊢
  exact quotient

/-- RNE: the nearer, and the even one on a tie. -/
theorem chosen_rne (rs : Nat) (neg : Bool) (lo rem k : Nat) :
    ((rem : ℚ) / (2 ^ k : Nat) < 1 / 2 → chosen .rne rs neg lo rem k = lo) ∧
    ((rem : ℚ) / (2 ^ k : Nat) > 1 / 2 → chosen .rne rs neg lo rem k = lo + 1) ∧
    ((rem : ℚ) / (2 ^ k : Nat) = 1 / 2 → chosen .rne rs neg lo rem k % 2 = 0) := by
  have upper : takesUpper .rne rs neg lo rem k = true ↔ 2 ^ k < 2 * rem ∨ 2 * rem = 2 ^ k ∧ lo % 2 = 1 := by
    simp only [takesUpper, Bool.or_eq_true, Bool.and_eq_true, decide_eq_true_iff, beq_iff_eq]
  rw [fraction_lt_half, gt_iff_lt, half_lt_fraction, fraction_eq_half]
  simp only [chosen, upper]
  exact ⟨fun less => if_neg (by omega), fun more => if_pos (.inl more), fun tie => by split <;> omega⟩

/-- RNA: the nearer, and the upper one on a tie. -/
theorem chosen_rna (rs : Nat) (neg : Bool) (lo rem k : Nat) :
    chosen .rna rs neg lo rem k = if (rem : ℚ) / (2 ^ k : Nat) < 1 / 2 then lo else lo + 1 := by
  have upper : takesUpper .rna rs neg lo rem k = true ↔ ¬ 2 * rem < 2 ^ k := by
    rw [not_lt]
    exact decide_eq_true_iff
  simp only [chosen, upper, fraction_lt_half, ite_not]

/-- RS: the higher number by its draw, which for a negative number is the lower magnitude. -/
theorem chosen_rs (rs : Nat) (neg : Bool) (lo : Nat) {rem k : Nat} (small : rem < 2 ^ k) :
    chosen .rs rs neg lo rem k =
      if neg then (if (rs : Int) < ⌊(1 - (rem : ℚ) / (2 ^ k : Nat)) * 2 ^ 32⌋ then lo else lo + 1)
      else (if (rs : Int) < ⌊(rem : ℚ) / (2 ^ k : Nat) * 2 ^ 32⌋ then lo + 1 else lo) := by
  have rest : 1 - (rem : ℚ) / (2 ^ k : Nat) = (2 ^ k - rem : Nat) / (2 ^ k : Nat) := by
    rw [Nat.cast_sub small.le, sub_div, div_self (by positivity)]
  simp only [rest, floor_fraction, Int.ofNat_lt, chosen]
  cases neg
  · simp [takesUpper]
  · have upper : takesUpper .rs rs true lo rem k = true ↔ ¬ rs < ((2 ^ k - rem) <<< 32) >>> k := by simp [takesUpper]
    simp only [upper, ite_not, if_true]

/-- On the grid a magnitude stays. -/
theorem roundTo_on_grid (rm : Rm) (rs : Nat) (neg : Bool) (m : Nat) {e q : Int} (h : e < q)
    (even : m % 2 ^ (q - e).toNat = 0) : roundTo rm rs neg m e q = (m / 2 ^ (q - e).toNat, false) :=
  (roundTo_of_lt rm rs neg m h).trans (if_pos even)

/-- Between its neighbours a magnitude goes to one of them. -/
theorem roundTo_off_grid (rm : Rm) (rs : Nat) (neg : Bool) (m : Nat) {e q : Int} (h : e < q)
    (odd : m % 2 ^ (q - e).toNat ≠ 0) :
    roundTo rm rs neg m e q =
      (chosen rm rs neg (m / 2 ^ (q - e).toNat) (m % 2 ^ (q - e).toNat) (q - e).toNat, true) :=
  (roundTo_of_lt rm rs neg m h).trans (if_neg odd)

theorem roundingModes : Claims.RoundingModes := by
  refine ⟨fun rm rs neg m e q h => roundTo_of_le rm rs neg m h, fun rm rs neg m e q h => ?_⟩
  have pos : 0 < 2 ^ (q - e).toNat := Nat.two_pow_pos _
  have cut := (mul_zpow_sub m h).trans (div_eq_add_mod_div m _ pos)
  by_cases even : m % 2 ^ (q - e).toNat = 0
  · have onGrid : (m : ℚ) * (2 : ℚ) ^ (e - q) = (m / 2 ^ (q - e).toNat : Nat) := by rw [cut, even]; simp
    exact ⟨fun _ => roundTo_on_grid rm rs neg m h even, fun off => absurd onGrid.symm off⟩
  · have small := Nat.mod_lt m pos
    have above := fraction_pos even pos
    have below := fraction_lt_one small
    dsimp only
    rw [roundTo_off_grid rm rs neg m h even, cut, add_sub_cancel_left, add_sub_add_left_eq_sub]
    refine ⟨fun on => absurd on (by linarith), fun _ => ⟨by linarith, by linarith, rfl, chosen_eq_or .., ?_⟩⟩
    refine ⟨?rz, ?ru, ?rd, ?rne, ?rna, ?rs⟩
    case rz => rintro rfl; rfl
    case ru => rintro rfl; cases neg <;> rfl
    case rd => rintro rfl; rfl
    case rne => rintro rfl; exact chosen_rne ..
    case rna => rintro rfl; exact chosen_rna ..
    case rs => rintro rfl; exact chosen_rs rs neg _ small

/-! ## Rounding keeps to the grid -/

/-- A multiple of 2^q in units of a finer grid. -/
theorem mul_zpow_of_le (c : Nat) {e q : Int} (h : e ≤ q) :
    (c : ℚ) * (2 : ℚ) ^ q = (c * 2 ^ (q - e).toNat : Nat) * (2 : ℚ) ^ e := by
  obtain ⟨k, rfl⟩ := Int.le.dest h
  rw [add_sub_cancel_left, Int.toNat_natCast, zpow_add₀ two_ne_zero, zpow_natCast]
  push_cast
  ring

theorem natCast_mul_zpow_le {a b : Nat} (e : Int) : (a : ℚ) * (2 : ℚ) ^ e ≤ b * (2 : ℚ) ^ e ↔ a ≤ b := by
  rw [mul_le_mul_iff_left₀ (zpow_pos two_pos e), Nat.cast_le]

/-- A magnitude at or above a point of the grid does not round below it. -/
theorem le_roundTo (rm : Rm) (rs : Nat) (neg : Bool) {m c : Nat} {e q : Int}
    (h : (c : ℚ) * (2 : ℚ) ^ q ≤ m * (2 : ℚ) ^ e) : c ≤ (roundTo rm rs neg m e q).1 := by
  rcases le_or_gt q e with le | lt
  · rw [mul_zpow_of_le m le, natCast_mul_zpow_le] at h
    rwa [roundTo_of_le rm rs neg m le]
  · rw [mul_zpow_of_le c lt.le, natCast_mul_zpow_le, ← Nat.le_div_iff_mul_le (Nat.two_pow_pos _)] at h
    by_cases even : m % 2 ^ (q - e).toNat = 0
    · rwa [roundTo_on_grid rm rs neg m lt even]
    · rw [roundTo_off_grid rm rs neg m lt even]
      rcases chosen_eq_or rm rs neg (m / 2 ^ (q - e).toNat) (m % 2 ^ (q - e).toNat) (q - e).toNat with same | next <;> omega

/-- A magnitude at or below a point of the grid does not round above it. -/
theorem roundTo_le (rm : Rm) (rs : Nat) (neg : Bool) {m c : Nat} {e q : Int}
    (h : (m : ℚ) * (2 : ℚ) ^ e ≤ c * (2 : ℚ) ^ q) : (roundTo rm rs neg m e q).1 ≤ c := by
  rcases le_or_gt q e with le | lt
  · rw [mul_zpow_of_le m le, natCast_mul_zpow_le] at h
    rwa [roundTo_of_le rm rs neg m le]
  · rw [mul_zpow_of_le c lt.le, natCast_mul_zpow_le] at h
    by_cases even : m % 2 ^ (q - e).toNat = 0
    · rw [roundTo_on_grid rm rs neg m lt even]
      exact Nat.div_le_of_le_mul (by rwa [mul_comm])
    · have between : m < c * 2 ^ (q - e).toNat := lt_of_le_of_ne h (by rintro rfl; simp at even)
      have less := (Nat.div_lt_iff_lt_mul (Nat.two_pow_pos _)).2 between
      rw [roundTo_off_grid rm rs neg m lt even]
      rcases chosen_eq_or rm rs neg (m / 2 ^ (q - e).toNat) (m % 2 ^ (q - e).toNat) (q - e).toNat with same | next <;> omega

end Sys2Proof.Machine
end

section
/-! SUPPORT. Round: what a rounded magnitude's bits decode to, its flags, and what stands beyond the largest finite value
(spec/03 R44, R45, R52, R55). -/

namespace Sys2Proof.Machine

/-! ## The encoding (R44) -/

/-- The exponent of a format's least step, that of its subnormals. -/
def leastStep (f : Fmt) : Int := 1 - (f.bias : Int) - f.mBits

/-- What the rows of R44 share: the largest finite value is normal, below the sign bit, and below what its format keeps for
infinities and NaNs. -/
theorem maxBits_bounds {f : Fmt} (hf : f.eBits ≠ 0) :
    2 ^ f.mBits ≤ f.maxBits ∧ f.maxBits < f.signBit ∧ (f.ieee = true → f.maxBits / 2 ^ f.mBits < 2 ^ f.eBits - 1) := by
  cases f <;> simp [Fmt.eBits] at hf <;> decide

theorem signBit_eq (f : Fmt) : f.signBit = 2 ^ f.mBits * 2 ^ f.eBits := by
  rw [Fmt.signBit, pow_add, mul_comm]

/-- The three fields of magnitude bits with a sign. -/
theorem signed_fields (f : Fmt) (neg : Bool) {mag : Nat} (h : mag < f.signBit) :
    decide (f.signed neg mag / f.signBit % 2 = 1) = neg ∧
    f.signed neg mag / 2 ^ f.mBits % 2 ^ f.eBits = mag / 2 ^ f.mBits ∧
    f.signed neg mag % 2 ^ f.mBits = mag % 2 ^ f.mBits := by
  have pos : 0 < f.signBit := Nat.zero_lt_of_lt h
  have field : mag / 2 ^ f.mBits % 2 ^ f.eBits = mag / 2 ^ f.mBits :=
    Nat.mod_eq_of_lt (Nat.div_lt_of_lt_mul (by rwa [← signBit_eq]))
  cases neg
  · exact ⟨by simp [Fmt.signed, Nat.div_eq_of_lt h], field, rfl⟩
  · refine ⟨?_, ?_, ?_⟩
    · simp [Fmt.signed, Nat.add_div_left _ pos, Nat.div_eq_of_lt h]
    · rw [Fmt.signed, if_pos rfl, signBit_eq, Nat.mul_add_div (Nat.two_pow_pos _), Nat.add_mod_left, field]
    · rw [Fmt.signed, if_pos rfl, signBit_eq, Nat.mul_add_mod]

/-- Bits up to those of the largest finite value are finite: subnormal below the first exponent, and normal from there. -/
theorem decodeFmt_signed {f : Fmt} (hf : f.eBits ≠ 0) (neg : Bool) {mag : Nat} (h : mag ≤ f.maxBits) :
    decodeFmt f (f.signed neg mag) =
      if mag / 2 ^ f.mBits = 0 then .fin neg (mag % 2 ^ f.mBits) (leastStep f)
      else .fin neg (2 ^ f.mBits + mag % 2 ^ f.mBits) (((mag / 2 ^ f.mBits : Nat) : Int) - f.bias - f.mBits) := by
  obtain ⟨-, top, special⟩ := maxBits_bounds hf
  obtain ⟨sign, field, fraction⟩ := signed_fields f neg (h.trans_lt top)
  have notSpecial : ¬ (f.ieee = true ∧ mag / 2 ^ f.mBits = 2 ^ f.eBits - 1) := fun ⟨ieee, all⟩ =>
    absurd ((Nat.div_le_div_right h).trans_lt (special ieee)) (by rw [all]; exact lt_irrefl _)
  have notNan : ¬ (f = .e4m3 ∧ f.signed neg mag % 128 = 127) := by
    rintro ⟨rfl, all⟩
    have h : mag ≤ 126 := h
    have low : Fmt.signed .e4m3 neg mag % 128 = mag % 128 := by
      cases neg
      · rfl
      · exact Nat.add_mod_left 128 mag
    omega
  simp only [decodeFmt, field, fraction, sign, if_neg notSpecial, if_neg notNan]
  rfl

/-- Bits up to the first normal value count the least steps. -/
theorem decodeFmt_of_le_firstNormal {f : Fmt} (hf : f.eBits ≠ 0) (neg : Bool) {mag : Nat} (h : mag ≤ 2 ^ f.mBits) :
    decodeFmt f (f.signed neg mag) = .fin neg mag (leastStep f) := by
  rw [decodeFmt_signed hf neg (h.trans (maxBits_bounds hf).1)]
  rcases h.lt_or_eq with less | rfl
  · rw [if_pos (Nat.div_eq_of_lt less), Nat.mod_eq_of_lt less]
  · rw [Nat.div_self (Nat.two_pow_pos _), Nat.mod_self]
    rfl

/-- The magnitude bits of `y` × 2^q, where `y` is a fraction of full precision with its leading bit. -/
def normalBits (f : Fmt) (y : Nat) (q : Int) : Nat := (q + f.bias + f.mBits).toNat * 2 ^ f.mBits + (y - 2 ^ f.mBits)

/-- A magnitude of full precision at or above the least step. -/
structure Normal (f : Fmt) (y : Nat) (q : Int) : Prop where
  leading : 2 ^ f.mBits ≤ y
  precision : y < 2 ^ (f.mBits + 1)
  step : leastStep f ≤ q

theorem Normal.exponent_eq {f : Fmt} {y : Nat} {q : Int} (h : Normal f y q) :
    ((q + f.bias + f.mBits).toNat : Int) = q + f.bias + f.mBits ∧ 1 ≤ (q + f.bias + f.mBits).toNat := by
  have step := h.step
  rw [leastStep] at step
  omega

theorem Normal.fields {f : Fmt} {y : Nat} {q : Int} (h : Normal f y q) :
    normalBits f y q / 2 ^ f.mBits = (q + f.bias + f.mBits).toNat ∧ normalBits f y q % 2 ^ f.mBits = y - 2 ^ f.mBits := by
  have less : y - 2 ^ f.mBits < 2 ^ f.mBits := by
    have := h.precision
    rw [pow_succ] at this
    omega
  rw [normalBits, mul_comm]
  exact ⟨by rw [Nat.mul_add_div (Nat.two_pow_pos _), Nat.div_eq_of_lt less, add_zero],
    by rw [Nat.mul_add_mod, Nat.mod_eq_of_lt less]⟩

theorem decodeFmt_normalBits {f : Fmt} (hf : f.eBits ≠ 0) (neg : Bool) {y : Nat} {q : Int} (h : Normal f y q)
    (fits : normalBits f y q ≤ f.maxBits) : decodeFmt f (f.signed neg (normalBits f y q)) = .fin neg y q := by
  obtain ⟨exponent, one⟩ := h.exponent_eq
  obtain ⟨field, fraction⟩ := h.fields
  rw [decodeFmt_signed hf neg fits, field, fraction, if_neg (by omega), exponent, Nat.add_sub_cancel' h.leading]
  congr 1
  ring

/-! ## The order of magnitudes -/

/-- The value of normal magnitude bits, in units of 2^(−bias − mBits). -/
def normalUnits (b mag : Nat) : Nat := (2 ^ b + mag % 2 ^ b) * 2 ^ (mag / 2 ^ b)

/-- Magnitude bits are in the order of their values. -/
theorem normalUnits_strictMono (b : Nat) : StrictMono (normalUnits b) := by
  intro x y less
  have pos := Nat.two_pow_pos b
  rcases (Nat.div_le_div_right less.le : x / 2 ^ b ≤ y / 2 ^ b).eq_or_lt with same | lower
  · have fraction : x % 2 ^ b < y % 2 ^ b := by
      have hx := Nat.div_add_mod x (2 ^ b)
      have hy := Nat.div_add_mod y (2 ^ b)
      rw [same] at hx
      omega
    rw [normalUnits, normalUnits, same]
    exact Nat.mul_lt_mul_of_pos_right (Nat.add_lt_add_left fraction _) (Nat.two_pow_pos _)
  · calc normalUnits b x < 2 ^ b * 2 * 2 ^ (x / 2 ^ b) :=
          Nat.mul_lt_mul_of_pos_right (by have := Nat.mod_lt x pos; omega) (Nat.two_pow_pos _)
      _ = 2 ^ b * 2 ^ (x / 2 ^ b + 1) := by rw [pow_succ, mul_assoc, mul_comm 2]
      _ ≤ (2 ^ b + y % 2 ^ b) * 2 ^ (y / 2 ^ b) :=
          Nat.mul_le_mul (Nat.le_add_right _ _) (Nat.pow_le_pow_right two_pos lower)

theorem normalUnits_value (b mag : Nat) (s : Int) :
    ((2 ^ b + mag % 2 ^ b : Nat) : ℚ) * (2 : ℚ) ^ (((mag / 2 ^ b : Nat) : Int) - s) = normalUnits b mag * (2 : ℚ) ^ (-s) := by
  rw [sub_eq_add_neg, zpow_add₀ two_ne_zero, zpow_natCast, normalUnits]
  push_cast
  ring

theorem num_maxBits {f : Fmt} (hf : f.eBits ≠ 0) :
    Claims.num (decodeFmt f f.maxBits) = normalUnits f.mBits f.maxBits * (2 : ℚ) ^ (-(f.bias + f.mBits : Int)) := by
  have normal : f.maxBits / 2 ^ f.mBits ≠ 0 := (Nat.div_pos (maxBits_bounds hf).1 (Nat.two_pow_pos _)).ne'
  have decoded := decodeFmt_signed hf false (le_refl f.maxBits)
  rw [if_neg normal, sub_sub] at decoded
  rw [show f.maxBits = f.signed false f.maxBits from rfl, decoded, num_fin_sign, if_neg Bool.false_ne_true, normalUnits_value]
  rfl

theorem Normal.value {f : Fmt} {y : Nat} {q : Int} (h : Normal f y q) :
    (y : ℚ) * (2 : ℚ) ^ q = normalUnits f.mBits (normalBits f y q) * (2 : ℚ) ^ (-(f.bias + f.mBits : Int)) := by
  obtain ⟨exponent, -⟩ := h.exponent_eq
  obtain ⟨field, fraction⟩ := h.fields
  rw [← normalUnits_value, field, fraction, exponent, Nat.add_sub_cancel' h.leading]
  congr 2
  ring

/-- A magnitude is beyond the largest finite value when its bits are. -/
theorem Normal.beyond_iff {f : Fmt} (hf : f.eBits ≠ 0) {y : Nat} {q : Int} (h : Normal f y q) :
    Claims.num (decodeFmt f f.maxBits) < (y : ℚ) * (2 : ℚ) ^ q ↔ f.maxBits < normalBits f y q := by
  rw [num_maxBits hf, h.value, mul_lt_mul_iff_left₀ (zpow_pos two_pos _), Nat.cast_lt,
    (normalUnits_strictMono f.mBits).lt_iff_lt]

theorem firstNormal_eq (f : Fmt) :
    (2 : ℚ) ^ (leastStep f + f.mBits) = (2 ^ f.mBits : Nat) * (2 : ℚ) ^ leastStep f := by
  rw [zpow_add₀ two_ne_zero, zpow_natCast, mul_comm]
  push_cast
  rfl

/-- The first normal value is no larger than the largest. -/
theorem firstNormal_le_max {f : Fmt} (hf : f.eBits ≠ 0) :
    (2 : ℚ) ^ (leastStep f + f.mBits) ≤ Claims.num (decodeFmt f f.maxBits) := by
  have first : Normal f (2 ^ f.mBits) (leastStep f) :=
    ⟨le_rfl, Nat.pow_lt_pow_right one_lt_two (Nat.lt_succ_self _), le_rfl⟩
  have bits : normalBits f (2 ^ f.mBits) (leastStep f) = 2 ^ f.mBits := by
    have one : (leastStep f + f.bias + f.mBits).toNat = 1 := by rw [leastStep]; omega
    rw [normalBits, one, one_mul, Nat.sub_self, add_zero]
  have within := mt (first.beyond_iff hf).1 (by rw [bits]; exact not_lt.2 (maxBits_bounds hf).1)
  rw [firstNormal_eq]
  exact not_lt.1 within

/-! ## A rounded magnitude with its carry (R52) -/

/-- The grid of a format's precision at m × 2^e. -/
def precisionStep (f : Fmt) (m : Nat) (e : Int) : Int := e + (Nat.log2 m : Int) - f.mBits

/-- A rounded magnitude whose rounding carried into a new leading bit, at the next exponent. -/
def carried (b y : Nat) (q : Int) : Nat × Int := if y = 2 ^ (b + 1) then (2 ^ b, q + 1) else (y, q)

theorem carried_value (b y : Nat) (q : Int) :
    ((carried b y q).1 : ℚ) * (2 : ℚ) ^ (carried b y q).2 = y * (2 : ℚ) ^ q := by
  rw [carried]
  split
  case isTrue h => rw [h, zpow_add_one₀ two_ne_zero, pow_succ]; push_cast; ring
  case isFalse => rfl

theorem carried_bounds {b y : Nat} (q : Int) (lo : 2 ^ b ≤ y) (hi : y ≤ 2 ^ (b + 1)) :
    2 ^ b ≤ (carried b y q).1 ∧ (carried b y q).1 < 2 ^ (b + 1) := by
  rw [carried]
  split
  · exact ⟨le_rfl, Nat.pow_lt_pow_right one_lt_two (Nat.lt_succ_self b)⟩
  case isFalse h => exact ⟨lo, lt_of_le_of_ne hi h⟩

/-- Rounded to a format's precision, a magnitude has that precision, or one bit more when it carried. -/
theorem roundTo_precision (f : Fmt) (rm : Rm) (rs : Nat) (neg : Bool) {m : Nat} (e : Int) (hm : m ≠ 0) :
    2 ^ f.mBits ≤ (roundTo rm rs neg m e (precisionStep f m e)).1 ∧
    (roundTo rm rs neg m e (precisionStep f m e)).1 ≤ 2 ^ (f.mBits + 1) := by
  have scaled (k : Nat) : ((2 ^ (f.mBits + k) : Nat) : ℚ) * (2 : ℚ) ^ precisionStep f m e =
      (2 ^ (Nat.log2 m + k) : Nat) * (2 : ℚ) ^ e := by
    have exponents : ((f.mBits + k : Nat) : Int) + precisionStep f m e = ((Nat.log2 m + k : Nat) : Int) + e := by
      rw [precisionStep]; push_cast; ring
    push_cast
    rw [← zpow_natCast, ← zpow_natCast, ← zpow_add₀ two_ne_zero, ← zpow_add₀ two_ne_zero, exponents]
  constructor
  · refine le_roundTo rm rs neg ?_
    rw [← add_zero f.mBits, scaled 0, natCast_mul_zpow_le]
    exact Nat.log2_self_le hm
  · refine roundTo_le rm rs neg ?_
    rw [scaled 1, natCast_mul_zpow_le]
    exact Nat.lt_log2_self.le

/-- A magnitude with its leading bit is below the first normal value when its step is below the least. -/
theorem below_firstNormal_iff {f : Fmt} {y : Nat} {q : Int} (lo : 2 ^ f.mBits ≤ y) (hi : y < 2 ^ (f.mBits + 1)) :
    (y : ℚ) * (2 : ℚ) ^ q < (2 : ℚ) ^ (leastStep f + f.mBits) ↔ q < leastStep f := by
  have pos : (0 : ℚ) < 2 ^ q := zpow_pos two_pos q
  have lead : (2 : ℚ) ^ (q + f.mBits) ≤ y * 2 ^ q := by
    rw [zpow_add₀ two_ne_zero, zpow_natCast, mul_comm]
    exact mul_le_mul_of_nonneg_right (by exact_mod_cast lo) pos.le
  have next : (y : ℚ) * 2 ^ q < (2 : ℚ) ^ (q + f.mBits + 1) := by
    rw [add_assoc, zpow_add₀ two_ne_zero, mul_comm, mul_lt_mul_iff_right₀ pos]
    exact_mod_cast hi
  constructor
  · intro less
    by_contra no
    exact absurd (lead.trans_lt less) (zpow_le_zpow_right₀ one_le_two (by omega)).not_gt
  · intro less
    exact next.trans_le (zpow_le_zpow_right₀ one_le_two (by omega))

/-! ## Round (R52)

The magnitude m × 2^e rounded to a format's precision, as the tests of R52 read it: `roundedAt` with its leading bit. -/

section Round

variable {f : Fmt} {c : Ctl} {rs : Nat} {neg : Bool} {m : Nat} {e : Int}

/-- The magnitude rounded to the format's precision, in units of `precisionStep`, and whether it changed. -/
def toPrecision (f : Fmt) (c : Ctl) (rs : Nat) (neg : Bool) (m : Nat) (e : Int) : Nat × Bool :=
  roundTo c.rm rs neg m e (precisionStep f m e)

/-- The same magnitude with its carry: a fraction with its leading bit, and its exponent. -/
def roundedAt (f : Fmt) (c : Ctl) (rs : Nat) (neg : Bool) (m : Nat) (e : Int) : Nat × Int :=
  carried f.mBits (toPrecision f c rs neg m e).1 (precisionStep f m e)

theorem roundedAt_value :
    ((roundedAt f c rs neg m e).1 : ℚ) * (2 : ℚ) ^ (roundedAt f c rs neg m e).2 =
      (toPrecision f c rs neg m e).1 * (2 : ℚ) ^ precisionStep f m e :=
  carried_value _ _ _

theorem roundedAt_bounds (hm : m ≠ 0) :
    2 ^ f.mBits ≤ (roundedAt f c rs neg m e).1 ∧ (roundedAt f c rs neg m e).1 < 2 ^ (f.mBits + 1) :=
  let ⟨lo, hi⟩ := roundTo_precision f c.rm rs neg e hm
  carried_bounds _ lo hi

/-- R52's test for a tiny value is a test of the exponent. -/
theorem tiny_iff (hm : m ≠ 0) :
    ((toPrecision f c rs neg m e).1 : ℚ) * (2 : ℚ) ^ precisionStep f m e < (2 : ℚ) ^ (leastStep f + f.mBits) ↔
      (roundedAt f c rs neg m e).2 < leastStep f := by
  obtain ⟨lead, precision⟩ := roundedAt_bounds hm
  rw [← below_firstNormal_iff lead precision, roundedAt_value]

theorem roundedAt_normal (hm : m ≠ 0) (h : ¬ (roundedAt f c rs neg m e).2 < leastStep f) :
    Normal f (roundedAt f c rs neg m e).1 (roundedAt f c rs neg m e).2 :=
  let ⟨lead, precision⟩ := roundedAt_bounds hm
  ⟨lead, precision, not_lt.1 h⟩

theorem precisionStep_eq (hm : m ≠ 0) : e + (bitLen m : Int) - ((f.mBits + 1 : Nat) : Int) = precisionStep f m e := by
  rw [bitLen, if_neg hm, precisionStep]
  push_cast
  ring

/-- The model's magnitude and its exponent are the two parts of `roundedAt`. -/
theorem roundedAt_fst : (roundedAt f c rs neg m e).1 =
    if (toPrecision f c rs neg m e).1 = 2 ^ (f.mBits + 1) then 2 ^ f.mBits else (toPrecision f c rs neg m e).1 := by
  rw [roundedAt, carried]; split <;> rfl

theorem roundedAt_snd : (roundedAt f c rs neg m e).2 =
    if (toPrecision f c rs neg m e).1 = 2 ^ (f.mBits + 1) then precisionStep f m e + 1 else precisionStep f m e := by
  rw [roundedAt, carried]; split <;> rfl

/-- The model's comparison of bits is that of `normalBits`, from the first normal exponent on. -/
theorem maxBits_lt_iff {y : Nat} {q : Int} (h : Normal f y q) :
    (f.maxBits : Int) < (q + f.bias + f.mBits) * 2 ^ f.mBits + (y - 2 ^ f.mBits : Nat) ↔ f.maxBits < normalBits f y q := by
  rw [normalBits, ← h.exponent_eq.1]
  norm_cast

/-- Round of a nonzero value: tiny, beyond the largest finite value, or in between. -/
theorem roundFin_of_ne_zero (hm : m ≠ 0) :
    roundFin f c rs neg m e =
      if (roundedAt f c rs neg m e).2 < leastStep f then
        if c.ftzo then (f.signed neg 0, 8 ||| 16)
        else (f.signed neg (roundTo c.rm rs neg m e (leastStep f)).1,
          if (roundTo c.rm rs neg m e (leastStep f)).2 then 8 ||| 16 else 0)
      else if (f.maxBits : Int) < ((roundedAt f c rs neg m e).2 + f.bias + f.mBits) * 2 ^ f.mBits +
          ((roundedAt f c rs neg m e).1 - 2 ^ f.mBits : Nat) then (overflowBits f c neg, 4 ||| 16)
      else (f.signed neg (normalBits f (roundedAt f c rs neg m e).1 (roundedAt f c rs neg m e).2),
        if (toPrecision f c rs neg m e).2 then 16 else 0) := by
  simp only [roundFin, if_neg hm, precisionStep_eq hm, roundedAt_fst, roundedAt_snd]
  rfl

/-- R52's test for an overflow is the model's, on the bits. -/
theorem beyond_iff (hf : f.eBits ≠ 0) (hm : m ≠ 0) (h : ¬ (roundedAt f c rs neg m e).2 < leastStep f) :
    Claims.num (decodeFmt f f.maxBits) < ((toPrecision f c rs neg m e).1 : ℚ) * (2 : ℚ) ^ precisionStep f m e ↔
      (f.maxBits : Int) < ((roundedAt f c rs neg m e).2 + f.bias + f.mBits) * 2 ^ f.mBits +
        ((roundedAt f c rs neg m e).1 - 2 ^ f.mBits : Nat) := by
  rw [maxBits_lt_iff (roundedAt_normal hm h), ← roundedAt_value, (roundedAt_normal hm h).beyond_iff hf]

/-- Step 2 of R52. -/
theorem roundFin_overflow (hf : f.eBits ≠ 0) (hm : m ≠ 0)
    (big : Claims.num (decodeFmt f f.maxBits) < ((toPrecision f c rs neg m e).1 : ℚ) * (2 : ℚ) ^ precisionStep f m e) :
    roundFin f c rs neg m e = (overflowBits f c neg, 4 ||| 16) := by
  have notTiny : ¬ (roundedAt f c rs neg m e).2 < leastStep f := fun tiny =>
    absurd (((tiny_iff hm).2 tiny).trans_le (firstNormal_le_max hf)) big.not_gt
  rw [roundFin_of_ne_zero hm, if_neg notTiny, if_pos ((beyond_iff hf hm notTiny).1 big)]

/-- Step 3 of R52, flushed. -/
theorem roundFin_flushed (hm : m ≠ 0)
    (tiny : ((toPrecision f c rs neg m e).1 : ℚ) * (2 : ℚ) ^ precisionStep f m e < (2 : ℚ) ^ (leastStep f + f.mBits))
    (flush : c.ftzo = true) : roundFin f c rs neg m e = (f.signed neg 0, 8 ||| 16) := by
  rw [roundFin_of_ne_zero hm, if_pos ((tiny_iff hm).1 tiny), if_pos flush]

/-- A tiny value takes no more least steps than the first normal value has. -/
theorem roundTo_leastStep_le (hm : m ≠ 0)
    (tiny : ((toPrecision f c rs neg m e).1 : ℚ) * (2 : ℚ) ^ precisionStep f m e < (2 : ℚ) ^ (leastStep f + f.mBits)) :
    (roundTo c.rm rs neg m e (leastStep f)).1 ≤ 2 ^ f.mBits := by
  have step : precisionStep f m e ≤ leastStep f := by
    have lower := (tiny_iff hm).1 tiny
    rw [roundedAt_snd] at lower
    split at lower <;> omega
  refine roundTo_le c.rm rs neg (not_lt.1 fun above => tiny.not_ge ?_)
  rw [firstNormal_eq, mul_zpow_of_le _ step, natCast_mul_zpow_le]
  refine le_roundTo c.rm rs neg ?_
  rw [← mul_zpow_of_le _ step]
  exact above.le

/-- Step 3 of R52 on the subnormal grid. -/
theorem roundFin_subnormal (hf : f.eBits ≠ 0) (hm : m ≠ 0)
    (tiny : ((toPrecision f c rs neg m e).1 : ℚ) * (2 : ℚ) ^ precisionStep f m e < (2 : ℚ) ^ (leastStep f + f.mBits))
    (keep : ¬ c.ftzo = true) :
    (roundFin f c rs neg m e).2 = (if (roundTo c.rm rs neg m e (leastStep f)).2 then 8 ||| 16 else 0) ∧
      decodeFmt f (roundFin f c rs neg m e).1 = .fin neg (roundTo c.rm rs neg m e (leastStep f)).1 (leastStep f) := by
  rw [roundFin_of_ne_zero hm, if_pos ((tiny_iff hm).1 tiny), if_neg keep]
  exact ⟨rfl, decodeFmt_of_le_firstNormal hf neg (roundTo_leastStep_le hm tiny)⟩

/-- Step 4 of R52. -/
theorem roundFin_normal (hf : f.eBits ≠ 0) (hm : m ≠ 0)
    (fits : ¬ Claims.num (decodeFmt f f.maxBits) < ((toPrecision f c rs neg m e).1 : ℚ) * (2 : ℚ) ^ precisionStep f m e)
    (large : ¬ ((toPrecision f c rs neg m e).1 : ℚ) * (2 : ℚ) ^ precisionStep f m e < (2 : ℚ) ^ (leastStep f + f.mBits)) :
    (roundFin f c rs neg m e).2 = (if (toPrecision f c rs neg m e).2 then 16 else 0) ∧
      decodeFmt f (roundFin f c rs neg m e).1 =
        .fin neg (roundedAt f c rs neg m e).1 (roundedAt f c rs neg m e).2 := by
  have notTiny := mt (tiny_iff hm).2 large
  have normal := roundedAt_normal hm notTiny
  have within := mt (beyond_iff hf hm notTiny).2 fits
  rw [roundFin_of_ne_zero hm, if_neg notTiny, if_neg within]
  exact ⟨rfl, decodeFmt_normalBits hf neg normal (not_lt.1 (mt (maxBits_lt_iff normal).2 within))⟩

end Round

theorem roundedResult : Claims.RoundedResult := by
  intro f c rs neg m e hf hm
  refine ⟨roundFin_overflow hf hm, fun _ => roundFin_flushed hm, fun _ tiny keep => ?_, fun fits large => ?_⟩
  · obtain ⟨flags, value⟩ := roundFin_subnormal hf hm tiny keep
    rw [value]
    exact ⟨flags, rfl, rfl, abs_num_fin _ _ _⟩
  · obtain ⟨flags, value⟩ := roundFin_normal hf hm fits large
    rw [value]
    exact ⟨flags, rfl, rfl, (abs_num_fin _ _ _).trans roundedAt_value⟩

/-! ## Beyond the largest finite value (R44, R45, R55) -/

/-- What a format keeps beyond its largest finite value, by its row of R44: infinities and NaNs, one NaN, or neither. -/
inductive Beyond (f : Fmt) : Option Nat → Option Nat → Prop
  | ieee (ieee : f.ieee = true) (notFp6 : f.fp6 = false) : Beyond f (some f.infBits) (some f.nanBits)
  | nanOnly (h : f = .e4m3) : Beyond f none (some 0x7F)
  | neither (fp6 : f.fp6 = true) : Beyond f none none

/-- The rows of R44 in the model's own terms. -/
theorem formatRow_eq {f : Fmt} {max : Nat} {inf nan : Option Nat} (h : Claims.formatRow f = some (max, inf, nan)) :
    f.maxBits = max ∧ 2 ^ (f.width - 1) = f.signBit ∧ Beyond f inf nan := by
  cases f
  case fp32 | bf16 | fp16 | e5m2 | fp64 => cases h; exact ⟨rfl, rfl, .ieee rfl rfl⟩
  case e4m3 => cases h; exact ⟨rfl, rfl, .nanOnly rfl⟩
  case e3m2 | e2m3 => cases h; exact ⟨rfl, rfl, .neither rfl⟩
  all_goals cases h

theorem withSign_eq {f : Fmt} (h : 2 ^ (f.width - 1) = f.signBit) (neg : Bool) (mag : Nat) :
    Claims.withSign f neg mag = f.signed neg mag := by
  rw [Claims.withSign, Fmt.signed, h]
  cases neg
  · exact Nat.zero_add mag
  · rfl

/-- The modes that keep an overflow at the largest finite value: those towards zero for its sign. -/
theorem overflowBits_eq (f : Fmt) (c : Ctl) (neg : Bool) :
    overflowBits f c neg =
      if c.sat = true ∨ f.fp6 = true ∨ c.rm = .rz ∨ (c.rm = .ru ∧ neg = true) ∨ (c.rm = .rd ∧ neg = false)
        then f.signed neg f.maxBits else f.signed neg (if f.ieee then f.infBits else f.nanBits) := by
  obtain ⟨rm, sat, ftzo⟩ := c
  rw [overflowBits]
  congr 1
  cases rm <;> cases neg <;> simp

theorem round_zero (f : Fmt) (c : Ctl) (rs : Nat) (neg : Bool) (e : Int) :
    (FVal.fin neg 0 e).round f c rs = (f.signed neg 0, 0) := rfl

theorem round_inf_of_ieee {f : Fmt} (h : f.ieee = true) (c : Ctl) (rs : Nat) (neg : Bool) :
    (FVal.inf neg).round f c rs = (f.signed neg f.infBits, 0) := if_pos h

theorem round_inf_e4m3 (c : Ctl) (rs : Nat) (neg : Bool) :
    (FVal.inf neg).round .e4m3 c rs = (Fmt.e4m3.signed neg (if c.sat then Fmt.e4m3.maxBits else 0x7F), 4) := by
  obtain ⟨rm, _ | _, ftzo⟩ := c <;> rfl

theorem round_inf_of_fp6 {f : Fmt} (h : f.fp6 = true) (c : Ctl) (rs : Nat) (neg : Bool) :
    (FVal.inf neg).round f c rs = (f.signed neg f.maxBits, 4) := by
  cases f
  case e3m2 | e2m3 => rfl
  all_goals cases h

theorem round_nan_of_not_fp6 {f : Fmt} (h : f.fp6 = false) (c : Ctl) (rs : Nat) (neg sig : Bool) :
    (FVal.nan neg sig).round f c rs = (f.signed neg f.nanBits, if sig then 1 else 0) := by
  simp only [FVal.round, h, Bool.or_false, Bool.false_eq_true, if_false]
  rfl

theorem round_nan_of_fp6 {f : Fmt} (h : f.fp6 = true) (c : Ctl) (rs : Nat) (neg sig : Bool) :
    (FVal.nan neg sig).round f c rs = (f.signed neg f.maxBits, 1) := by
  simp only [FVal.round, h, Bool.or_true, if_true]
  rfl

theorem beyondTheLargest : Claims.BeyondTheLargest := by
  intro f c rs neg sig max inf nan row
  obtain ⟨rfl, sign, beyond⟩ := formatRow_eq row
  simp only [withSign_eq sign, overflowBits_eq]
  cases beyond with
  | ieee ieee notFp6 =>
    refine ⟨by simp [ieee, notFp6], ?_, nofun, ?_, nofun, round_zero f c rs neg⟩
    · rintro i ⟨⟩; exact round_inf_of_ieee ieee c rs neg
    · rintro q ⟨⟩; exact round_nan_of_not_fp6 notFp6 c rs neg sig
  | nanOnly h =>
    subst h
    have noInf : Fmt.e4m3.ieee = false ∧ Fmt.e4m3.fp6 = false ∧ Fmt.e4m3.nanBits = 0x7F := ⟨rfl, rfl, rfl⟩
    refine ⟨by simp [noInf], nofun, fun _ => ?_, ?_, nofun, round_zero _ c rs neg⟩
    · simpa using round_inf_e4m3 c rs neg
    · rintro q ⟨⟩; exact round_nan_of_not_fp6 rfl c rs neg sig
  | neither fp6 =>
    refine ⟨by simp [fp6], nofun, fun _ => ?_, nofun, fun _ => round_nan_of_fp6 fp6 c rs neg sig, round_zero f c rs neg⟩
    simpa using round_inf_of_fp6 fp6 c rs neg

/-- Settles O6: the neighbours by the fraction above the lower one, Round by the order of magnitude bits, and the overflows
by what each format keeps beyond its largest value. -/
theorem rounding : Obligations.Rounding := ⟨roundingModes, roundedResult, beyondTheLargest⟩

end Sys2Proof.Machine
end

section
/-! SUPPORT. MOD: the codes of the modifiers, the fields that MOD is cut into, and what each opcode's MOD stands for
(spec/06 R93 to R100). -/

namespace Sys2Proof

/-! ## Codes of modifiers (R95 to R98) -/

/-- `ofCode` reads back what `code` gives and nothing else, and every code is below `n`. -/
structure Numbered {α : Type} (ofCode : Nat → Option α) (code : α → Nat) (n : Nat) : Prop where
  ofCode_code : ∀ x, ofCode (code x) = some x
  code_of : ∀ k x, ofCode k = some x → code x = k
  code_lt : ∀ x, code x < n

theorem Numbered.eq_some_iff {α : Type} {ofCode : Nat → Option α} {code : α → Nat} {n k : Nat} {x : α}
    (h : Numbered ofCode code n) : ofCode k = some x ↔ code x = k :=
  ⟨h.code_of k x, fun e => e ▸ h.ofCode_code x⟩

theorem Scope.numbered : Numbered Scope.ofCode Scope.code 6 :=
  ⟨by rintro ⟨⟩ <;> rfl, fun _ _ h => by unfold Scope.ofCode at h; split at h <;> cases h <;> rfl,
    by rintro ⟨⟩ <;> decide⟩

theorem Rm.numbered : Numbered Rm.ofCode Rm.code 8 :=
  ⟨by rintro ⟨⟩ <;> rfl, fun _ _ h => by unfold Rm.ofCode at h; split at h <;> cases h <;> rfl,
    by rintro ⟨⟩ <;> decide⟩

theorem Fmt.numbered : Numbered Fmt.ofCode Fmt.code 14 :=
  ⟨by rintro ⟨⟩ <;> rfl, fun _ _ h => by unfold Fmt.ofCode at h; split at h <;> cases h <;> rfl,
    by rintro ⟨⟩ <;> decide⟩

theorem ICmp.numbered : Numbered ICmp.ofCode ICmp.code 6 :=
  ⟨by rintro ⟨⟩ <;> rfl, fun _ _ h => by unfold ICmp.ofCode at h; split at h <;> cases h <;> rfl,
    by rintro ⟨⟩ <;> decide⟩

theorem WCmp.numbered : Numbered WCmp.ofCode WCmp.code 6 :=
  ⟨by rintro ⟨⟩ <;> rfl, fun _ _ h => by unfold WCmp.ofCode at h; split at h <;> cases h <;> rfl,
    by rintro ⟨⟩ <;> decide⟩

theorem FCmp.numbered : Numbered FCmp.ofCode FCmp.code 14 :=
  ⟨by rintro ⟨⟩ <;> rfl, fun _ _ h => by unfold FCmp.ofCode at h; split at h <;> cases h <;> rfl,
    by rintro ⟨⟩ <;> decide⟩

theorem SwapMode.numbered : Numbered SwapMode.ofCode SwapMode.code 4 :=
  ⟨by rintro ⟨⟩ <;> rfl, fun _ _ h => by unfold SwapMode.ofCode at h; split at h <;> cases h <;> rfl,
    by rintro ⟨⟩ <;> decide⟩

theorem ShflMode.numbered : Numbered ShflMode.ofCode ShflMode.code 4 :=
  ⟨by rintro ⟨⟩ <;> rfl, fun _ _ h => by unfold ShflMode.ofCode at h; split at h <;> cases h <;> rfl,
    by rintro ⟨⟩ <;> decide⟩

theorem VoteMode.numbered : Numbered VoteMode.ofCode VoteMode.code 4 :=
  ⟨by rintro ⟨⟩ <;> rfl, fun _ _ h => by unfold VoteMode.ofCode at h; split at h <;> cases h <;> rfl,
    by rintro ⟨⟩ <;> decide⟩

theorem RedOp.numbered : Numbered RedOp.ofCode RedOp.code 11 :=
  ⟨by rintro ⟨⟩ <;> rfl, fun _ _ h => by unfold RedOp.ofCode at h; split at h <;> cases h <;> rfl,
    by rintro ⟨⟩ <;> decide⟩

theorem MemSize.numbered : Numbered MemSize.ofCode MemSize.code 7 :=
  ⟨by rintro ⟨⟩ <;> rfl, fun _ _ h => by unfold MemSize.ofCode at h; split at h <;> cases h <;> rfl,
    by rintro ⟨⟩ <;> decide⟩

theorem AtomOp.numbered : Numbered AtomOp.ofCode AtomOp.code 11 :=
  ⟨by rintro ⟨⟩ <;> rfl, fun _ _ h => by unfold AtomOp.ofCode at h; split at h <;> cases h <;> rfl,
    by rintro ⟨⟩ <;> decide⟩

theorem AtomOrd.numbered : Numbered AtomOrd.ofCode AtomOrd.code 4 :=
  ⟨by rintro ⟨⟩ <;> rfl, fun _ _ h => by unfold AtomOrd.ofCode at h; split at h <;> cases h <;> rfl,
    by rintro ⟨⟩ <;> decide⟩

theorem Fifo.numbered : Numbered Fifo.ofCode Fifo.code 3 :=
  ⟨by rintro ⟨⟩ <;> rfl, fun _ _ h => by unfold Fifo.ofCode at h; split at h <;> cases h <;> rfl,
    by rintro ⟨⟩ <;> decide⟩

theorem TileLevel.numbered : Numbered TileLevel.ofCode TileLevel.code 3 :=
  ⟨by rintro ⟨⟩ <;> rfl, fun _ _ h => by unfold TileLevel.ofCode at h; split at h <;> cases h <;> rfl,
    by rintro ⟨⟩ <;> decide⟩

theorem GroupSize.numbered : Numbered GroupSize.ofCode GroupSize.code 4 :=
  ⟨by rintro ⟨⟩ <;> rfl, fun _ _ h => by unfold GroupSize.ofCode at h; split at h <;> cases h <;> rfl,
    by rintro ⟨⟩ <;> decide⟩

theorem ActFn.numbered : Numbered ActFn.ofCode ActFn.code 5 :=
  ⟨by rintro ⟨⟩ <;> rfl, fun _ _ h => by unfold ActFn.ofCode at h; split at h <;> cases h <;> rfl,
    by rintro ⟨⟩ <;> decide⟩

theorem BarLevel.numbered : Numbered BarLevel.ofCode BarLevel.code 4 :=
  ⟨by rintro ⟨⟩ <;> rfl, fun _ _ h => by unfold BarLevel.ofCode at h; split at h <;> cases h <;> rfl,
    by rintro ⟨⟩ <;> decide⟩

theorem TlbWhat.numbered : Numbered TlbWhat.ofCode TlbWhat.code 9 :=
  ⟨by rintro ⟨⟩ <;> rfl, fun _ _ h => by unfold TlbWhat.ofCode at h; split at h <;> cases h <;> rfl,
    by rintro ⟨⟩ <;> decide⟩

theorem SReg.numbered : Numbered SReg.ofCode SReg.code 0x25 where
  ofCode_code sr := by
    cases sr with
    | th i => fin_cases i <;> rfl
    | fault i => fin_cases i <;> rfl
    | _ => rfl
  code_of k sr h := by unfold SReg.ofCode at h; split at h <;> cases h <;> rfl
  code_lt sr := by
    cases sr with
    | th i => simp only [SReg.code]; omega
    | fault i => simp only [SReg.code]; omega
    | _ => decide

/-- MXDRAIN's AMAX: no word, or a scope (R98). -/
def amaxCode : Option Scope → Nat
  | none => 7
  | some sc => sc.code

theorem amax_numbered : Numbered decodeMtx.amaxOf amaxCode 8 where
  ofCode_code
    | none => rfl
    | some sc => by cases sc <;> rfl
  code_of k amax h := by
    unfold decodeMtx.amaxOf at h
    split at h
    · cases h; rfl
    · obtain ⟨sc, e, rfl⟩ := Option.map_eq_some_iff.mp h
      exact Scope.numbered.code_of k sc e
  code_lt
    | none => by decide
    | some sc => Nat.lt_of_lt_of_le (Scope.numbered.code_lt sc) (by decide)

theorem Scope.code_lt (v : Scope) : v.code < 6 := Scope.numbered.code_lt v
theorem Rm.code_lt (v : Rm) : v.code < 8 := Rm.numbered.code_lt v
theorem Fmt.code_lt (v : Fmt) : v.code < 14 := Fmt.numbered.code_lt v
theorem ICmp.code_lt (v : ICmp) : v.code < 6 := ICmp.numbered.code_lt v
theorem WCmp.code_lt (v : WCmp) : v.code < 6 := WCmp.numbered.code_lt v
theorem FCmp.code_lt (v : FCmp) : v.code < 14 := FCmp.numbered.code_lt v
theorem SwapMode.code_lt (v : SwapMode) : v.code < 4 := SwapMode.numbered.code_lt v
theorem ShflMode.code_lt (v : ShflMode) : v.code < 4 := ShflMode.numbered.code_lt v
theorem VoteMode.code_lt (v : VoteMode) : v.code < 4 := VoteMode.numbered.code_lt v
theorem RedOp.code_lt (v : RedOp) : v.code < 11 := RedOp.numbered.code_lt v
theorem MemSize.code_lt (v : MemSize) : v.code < 7 := MemSize.numbered.code_lt v
theorem AtomOp.code_lt (v : AtomOp) : v.code < 11 := AtomOp.numbered.code_lt v
theorem AtomOrd.code_lt (v : AtomOrd) : v.code < 4 := AtomOrd.numbered.code_lt v
theorem Fifo.code_lt (v : Fifo) : v.code < 3 := Fifo.numbered.code_lt v
theorem TileLevel.code_lt (v : TileLevel) : v.code < 3 := TileLevel.numbered.code_lt v
theorem GroupSize.code_lt (v : GroupSize) : v.code < 4 := GroupSize.numbered.code_lt v
theorem ActFn.code_lt (v : ActFn) : v.code < 5 := ActFn.numbered.code_lt v
theorem BarLevel.code_lt (v : BarLevel) : v.code < 4 := BarLevel.numbered.code_lt v
theorem TlbWhat.code_lt (v : TlbWhat) : v.code < 9 := TlbWhat.numbered.code_lt v
theorem SReg.code_lt (v : SReg) : v.code < 37 := SReg.numbered.code_lt v

/-! A field that reads as a modifier holds its code. -/

@[simp] theorem Scope.ofCode_eq_some {k : Nat} {v : Scope} : Scope.ofCode k = some v ↔ v.code = k :=
  Scope.numbered.eq_some_iff
@[simp] theorem Rm.ofCode_eq_some {k : Nat} {v : Rm} : Rm.ofCode k = some v ↔ v.code = k :=
  Rm.numbered.eq_some_iff
@[simp] theorem Fmt.ofCode_eq_some {k : Nat} {v : Fmt} : Fmt.ofCode k = some v ↔ v.code = k :=
  Fmt.numbered.eq_some_iff
@[simp] theorem ICmp.ofCode_eq_some {k : Nat} {v : ICmp} : ICmp.ofCode k = some v ↔ v.code = k :=
  ICmp.numbered.eq_some_iff
@[simp] theorem WCmp.ofCode_eq_some {k : Nat} {v : WCmp} : WCmp.ofCode k = some v ↔ v.code = k :=
  WCmp.numbered.eq_some_iff
@[simp] theorem FCmp.ofCode_eq_some {k : Nat} {v : FCmp} : FCmp.ofCode k = some v ↔ v.code = k :=
  FCmp.numbered.eq_some_iff
@[simp] theorem SwapMode.ofCode_eq_some {k : Nat} {v : SwapMode} : SwapMode.ofCode k = some v ↔ v.code = k :=
  SwapMode.numbered.eq_some_iff
@[simp] theorem ShflMode.ofCode_eq_some {k : Nat} {v : ShflMode} : ShflMode.ofCode k = some v ↔ v.code = k :=
  ShflMode.numbered.eq_some_iff
@[simp] theorem VoteMode.ofCode_eq_some {k : Nat} {v : VoteMode} : VoteMode.ofCode k = some v ↔ v.code = k :=
  VoteMode.numbered.eq_some_iff
@[simp] theorem RedOp.ofCode_eq_some {k : Nat} {v : RedOp} : RedOp.ofCode k = some v ↔ v.code = k :=
  RedOp.numbered.eq_some_iff
@[simp] theorem MemSize.ofCode_eq_some {k : Nat} {v : MemSize} : MemSize.ofCode k = some v ↔ v.code = k :=
  MemSize.numbered.eq_some_iff
@[simp] theorem AtomOp.ofCode_eq_some {k : Nat} {v : AtomOp} : AtomOp.ofCode k = some v ↔ v.code = k :=
  AtomOp.numbered.eq_some_iff
@[simp] theorem AtomOrd.ofCode_eq_some {k : Nat} {v : AtomOrd} : AtomOrd.ofCode k = some v ↔ v.code = k :=
  AtomOrd.numbered.eq_some_iff
@[simp] theorem Fifo.ofCode_eq_some {k : Nat} {v : Fifo} : Fifo.ofCode k = some v ↔ v.code = k :=
  Fifo.numbered.eq_some_iff
@[simp] theorem TileLevel.ofCode_eq_some {k : Nat} {v : TileLevel} : TileLevel.ofCode k = some v ↔ v.code = k :=
  TileLevel.numbered.eq_some_iff
@[simp] theorem GroupSize.ofCode_eq_some {k : Nat} {v : GroupSize} : GroupSize.ofCode k = some v ↔ v.code = k :=
  GroupSize.numbered.eq_some_iff
@[simp] theorem ActFn.ofCode_eq_some {k : Nat} {v : ActFn} : ActFn.ofCode k = some v ↔ v.code = k :=
  ActFn.numbered.eq_some_iff
@[simp] theorem BarLevel.ofCode_eq_some {k : Nat} {v : BarLevel} : BarLevel.ofCode k = some v ↔ v.code = k :=
  BarLevel.numbered.eq_some_iff
@[simp] theorem TlbWhat.ofCode_eq_some {k : Nat} {v : TlbWhat} : TlbWhat.ofCode k = some v ↔ v.code = k :=
  TlbWhat.numbered.eq_some_iff
@[simp] theorem SReg.ofCode_eq_some {k : Nat} {v : SReg} : SReg.ofCode k = some v ↔ v.code = k :=
  SReg.numbered.eq_some_iff
@[simp] theorem amaxOf_eq_some {k : Nat} {amax : Option Scope} : decodeMtx.amaxOf k = some amax ↔ amaxCode amax = k :=
  amax_numbered.eq_some_iff

@[simp] theorem fmtIf_eq_some {p : Fmt → Bool} {k : Nat} {f : Fmt} : fmtIf p k = some f ↔ f.code = k ∧ p f = true := by
  unfold fmtIf
  split
  next f' e =>
    rw [Fmt.ofCode_eq_some] at e
    subst e
    rw [← Fmt.ofCode_eq_some, Fmt.numbered.ofCode_code, Option.some.injEq, Option.ite_none_right_eq_some,
      Option.some.injEq]
    exact ⟨fun ⟨ok, e⟩ => ⟨e, e ▸ ok⟩, fun ⟨e, ok⟩ => ⟨e ▸ ok, e⟩⟩
  next none => simp [← Fmt.ofCode_eq_some, none]

/-! ## The fields of MOD -/

@[simp] theorem bit_false : bit false = 0 := rfl
@[simp] theorem bit_true : bit true = 1 := rfl

theorem bit_lt (b : Bool) : bit b < 2 := by cases b <;> decide

section Mod
variable {m : BitVec 12}

theorem modBelow_iff {n : Nat} : modBelow m n = true ↔ m.toNat < 2 ^ n := by simp [modBelow]

theorem modBelow_of {n : Nat} (h : m.toNat < 2 ^ n) : modBelow m n = true := modBelow_iff.mpr h

theorem modField_eq (m : BitVec 12) (lo n : Nat) : modField m lo n = m.toNat / 2 ^ lo % 2 ^ n := by
  rw [modField, Nat.shiftRight_eq_div_pow]

theorem modBit_iff {k : Nat} {b : Bool} : modBit m k = b ↔ bit b = m.toNat / 2 ^ k % 2 := by
  rw [modBit, Nat.shiftRight_eq_div_pow]
  have := Nat.mod_two_eq_zero_or_one (m.toNat / 2 ^ k)
  cases b <;> simp <;> omega

theorem bit_modBit (m : BitVec 12) (k : Nat) : bit (modBit m k) = m.toNat / 2 ^ k % 2 := modBit_iff.mp rfl

theorem modBit_eq (m : BitVec 12) (k : Nat) (b : Bool) (e : bit b = m.toNat / 2 ^ k % 2) : modBit m k = b :=
  modBit_iff.mpr e

/-- A field that holds a modifier's code reads as that modifier. -/
theorem Numbered.read {α : Type} {ofCode : Nat → Option α} {code : α → Nat} {n : Nat} (h : Numbered ofCode code n)
    (m : BitVec 12) (lo w : Nat) (x : α) (e : code x = m.toNat / 2 ^ lo % 2 ^ w) :
    ofCode (modField m lo w) = some x := by
  rw [modField_eq, ← e, h.ofCode_code]

theorem fmtIf_read {p : Fmt → Bool} {f : Fmt} (m : BitVec 12) (lo : Nat) (ok : p f = true)
    (e : f.code = m.toNat / 2 ^ lo % 2 ^ 4) : fmtIf p (modField m lo 4) = some f :=
  fmtIf_eq_some.mpr ⟨by rw [modField_eq, e], ok⟩

theorem extract_of_toNat {n : Nat} {x : BitVec n} (h : x.toNat = m.toNat) : m.extractLsb' 0 n = x := by
  apply BitVec.eq_of_toNat_eq
  rw [BitVec.extractLsb'_toNat, Nat.shiftRight_zero, ← h, Nat.mod_eq_of_lt x.isLt]

theorem not_of_bnot {b : Bool} (h : (!b) = true) : ¬ b = true := by simpa using h

theorem ofOption_map {α : Type} (x : Option α) (f : α → Instr) :
    ModResult.ofOption (x.map f) = match x with
      | some a => .ok (f a)
      | none => .reserved := by
  cases x <;> rfl

/-! ## Whole MODs that several opcodes share -/

theorem modNone_zero {i : Instr} (h : 0 = m.toNat) : modNone m i = .ok i :=
  if_pos (BitVec.eq_of_toNat_eq h.symm)

theorem modFlag_bit {f : Bool → Instr} {b : Bool} (h : bit b = m.toNat) : modFlag m f = .ok (f b) := by
  have := bit_lt b
  rw [modFlag, if_pos (modBelow_of (by omega)), modBit_eq m 0 b (by omega)]

theorem modRm_code {f : Rm → Instr} {rm : Rm} (h : rm.code = m.toNat) : modRm m f = .ok (f rm) := by
  have := rm.code_lt
  rw [modRm, if_pos (modBelow_of (by omega)), Rm.numbered.read m 0 3 rm (by omega)]
  rfl

theorem modBfRm_code {f : Bool → Rm → Instr} {b : Bool} {rm : Rm} (h : bit b * 8 + rm.code = m.toNat) :
    modBfRm m f = .ok (f b rm) := by
  have := bit_lt b
  have := rm.code_lt
  rw [modBfRm, if_pos (modBelow_of (by omega)), Rm.numbered.read m 0 3 rm (by omega), modBit_eq m 3 b (by omega)]
  rfl

/-- A MOD that is one field of `w` bits. -/
theorem Numbered.whole {α : Type} {ofCode : Nat → Option α} {code : α → Nat} {n : Nat} (h : Numbered ofCode code n)
    (w : Nat) (hn : n ≤ 2 ^ w) {x : α} (f : α → Instr) (e : code x = m.toNat) :
    (if modBelow m w then ModResult.ofOption ((ofCode (modField m 0 w)).map f) else .reserved) = .ok (f x) := by
  have := h.code_lt x
  rw [if_pos (modBelow_of (by omega)), h.read m 0 w x (by rw [Nat.mod_eq_of_lt (by omega)]; simp [e])]
  rfl

end Mod

section Arms
variable {g : Guard} {o : Ops} {m : BitVec 12} (disp : BitVec 10) (off : BitVec 30)

/-! ## Integer instructions -/

theorem decodeInt_itest {u : Bool} {c : ICmp} (h : bit u * 8 + c.code = m.toNat) :
    decodeInt 0x1D g o m = .ok (.itest g o u c) := by
  have := bit_lt u
  have := c.code_lt
  rw [decodeInt, if_pos (modBelow_of (by omega)), ICmp.numbered.read m 0 3 c (by omega), modBit_eq m 3 u (by omega)]
  rfl

theorem decodeInt_plut {lut : BitVec 8} (h : lut.toNat = m.toNat) : decodeInt 0x1F g o m = .ok (.plut g o lut) := by
  have := lut.isLt
  rw [decodeInt, if_pos (modBelow_of (by omega)), extract_of_toNat h]

/-! ## Floating-point and conversion instructions -/

theorem decodeFloat_fclass {mask : BitVec 10} (h : mask.toNat = m.toNat) :
    decodeFloat 0x27 g o m = .ok (.fclass g o mask) := by
  have := mask.isLt
  rw [decodeFloat, if_pos (modBelow_of (by omega)), extract_of_toNat h]

theorem decodeFloat_cvt {dst src : Fmt} {rm : Rm} (h : dst.code * 128 + src.code * 8 + rm.code = m.toNat)
    (ok : cvtAllowed dst src = true) : decodeFloat 0x36 g o m = .ok (.cvt g o dst src rm) := by
  have := dst.code_lt
  have := src.code_lt
  have := rm.code_lt
  rw [decodeFloat, if_pos (modBelow_of (by omega)), Fmt.numbered.read m 7 4 dst (by omega),
    Fmt.numbered.read m 3 4 src (by omega), Rm.numbered.read m 0 3 rm (by omega)]
  exact if_pos ok

theorem decodeFloat_f2i {dst src : Fmt} {rm : Rm} (h : dst.code * 128 + src.code * 8 + rm.code = m.toNat)
    (ok : (7 ≤ dst.code && dst.code ≤ 11 && (src.isFloat || src == .fp64)) = true) :
    decodeFloat 0x37 g o m = .ok (.f2i g o dst src rm) := by
  obtain ⟨okd, oks⟩ := (Bool.and_eq_true _ _).mp ok
  have := dst.code_lt
  have := src.code_lt
  have := rm.code_lt
  rw [decodeFloat, if_pos (modBelow_of (by omega)), fmtIf_read m 7 okd (by omega),
    fmtIf_read m 3 oks (by omega), Rm.numbered.read m 0 3 rm (by omega)]

theorem decodeFloat_pack {f : Fmt} {rm : Rm} (h : f.code * 8 + rm.code = m.toNat) (ok : f.isMatrix = true) :
    decodeFloat 0x39 g o m = .ok (.pack g o f rm) := by
  have := f.code_lt
  have := rm.code_lt
  rw [decodeFloat, if_pos (modBelow_of (by omega)), fmtIf_read m 3 ok (by omega),
    Rm.numbered.read m 0 3 rm (by omega)]

theorem decodeFloat_unpack {idx : Fin 8} {f : Fmt} (h : idx.val * 128 + f.code * 8 = m.toNat)
    (ok : (f.isMatrix && decodeFloat.unpackIdxOk f idx.val) = true) :
    decodeFloat 0x3A g o m = .ok (.unpack g o idx f) := by
  obtain ⟨okf, oki⟩ := (Bool.and_eq_true _ _).mp ok
  have := f.code_lt
  have hidx : modField m 7 3 = idx.val := by rw [modField_eq]; omega
  rw [decodeFloat, if_pos, fmtIf_read m 3 okf (by omega)]
  · simp only [hidx, oki, if_true]
  · simp only [modBelow_of (m := m) (n := 10) (by omega), Bool.true_and, beq_iff_eq, modField_eq]; omega

theorem decodeFloat_quant {k : Bool → Fmt → Rm → Instr} {asym : Bool} {f : Fmt} {rm : Rm}
    (h : bit asym * 128 + f.code * 8 + rm.code = m.toNat)
    (ok : (3 ≤ f.code && f.code ≤ 9 && (!asym || 8 ≤ f.code)) = true) :
    (if modBelow m 8 then decodeFloat.quant k m else .reserved) = .ok (k asym f rm) := by
  have := f.code_lt
  have := rm.code_lt
  have := bit_lt asym
  have hasym := modBit_eq m 7 asym (by omega)
  rw [if_pos (modBelow_of (by omega)), decodeFloat.quant, fmtIf_read m 3 (by rw [hasym]; exact ok) (by omega),
    Rm.numbered.read m 0 3 rm (by omega), hasym]

theorem decodeFloat_movsrRead {sr : SReg} (h : sr.code = m.toNat) :
    decodeFloat 0x3E g o m = .ok (.movsrRead g o sr) := by
  have := sr.code_lt
  rw [decodeFloat, if_pos (modBelow_of (by omega)), SReg.numbered.read m 0 8 sr (by omega),
    modBit_eq m 8 false (by rw [bit_false]; omega)]
  rfl

theorem decodeFloat_movsrWrite {sr : SReg} (h : 256 + sr.code = m.toNat) (ok : (!sr.readOnly) = true) :
    decodeFloat 0x3E g o m = .ok (.movsrWrite g o sr) := by
  have := sr.code_lt
  rw [decodeFloat, if_pos (modBelow_of (by omega)), SReg.numbered.read m 0 8 sr (by omega),
    modBit_eq m 8 true (by rw [bit_true]; omega)]
  simpa using ok

theorem decodeFloat_movp {b : Bool} (h : bit b = m.toNat) :
    decodeFloat 0x3F g o m = .ok (if b then .movpWrite g o else .movpRead g o) := by
  have := bit_lt b
  rw [decodeFloat, if_pos (modBelow_of (by omega)), modBit_eq m 0 b (by omega)]
  cases b <;> rfl

/-! ## Exchanges -/

theorem decodeExchange_qbcast {src : Fin 4} (h : src.val = m.toNat) :
    decodeExchange 0x41 g o m = .ok (.qbcast g o src) := by
  have hsrc : modField m 0 2 = src.val := by rw [modField_eq]; omega
  rw [decodeExchange, if_pos (modBelow_of (by omega))]
  simp only [hsrc]

theorem decodeExchange_wscan {excl : Bool} {op : RedOp} (h : bit excl * 16 + op.code = m.toNat) :
    decodeExchange 0x45 g o m = .ok (.wscan g o excl op) := by
  have := bit_lt excl
  have := op.code_lt
  rw [decodeExchange, if_pos (modBelow_of (by omega)), RedOp.numbered.read m 0 4 op (by omega),
    modBit_eq m 4 excl (by omega)]
  rfl

/-! ## Memory instructions -/

theorem memClear_iff : decodeMem.memClear m = true ↔ m.toNat < 2 ^ 11 ∧ m.toNat / 2 ^ 3 % 2 ^ 3 = 0 := by
  rw [decodeMem.memClear, Bool.and_eq_true, modBelow_iff, beq_iff_eq, modField_eq]

theorem atomClear_iff : decodeMem.atomClear m = true ↔ m.toNat < 2 ^ 11 ∧ m.toNat / 2 ^ 5 % 2 = 0 := by
  rw [decodeMem.atomClear, Bool.and_eq_true, modBelow_iff, Bool.not_eq_true', modBit_iff, bit_false, eq_comm (a := 0)]

/-- ORD and SCOPE of LD and ST, bits [10:6]. -/
theorem ordered_iff {code : Nat} (hc : code = 1 ∨ code = 2) {sc : Option Scope} :
    decodeMem.ordered m code = some sc ↔ ordBits code sc = m.toNat / 2 ^ 6 % 2 ^ 5 * 2 ^ 6 := by
  unfold decodeMem.ordered
  rw [modField_eq, modField_eq]
  cases sc with
  | none =>
    rw [ordBits]
    split_ifs <;> simp <;> omega
  | some sc =>
    have := sc.code_lt
    rw [ordBits]
    split_ifs <;> simp <;> omega

theorem ordBits_bounds {code : Nat} (hc : code = 1 ∨ code = 2) (sc : Option Scope) :
    ordBits code sc % 64 = 0 ∧ ordBits code sc < 2048 := by
  cases sc with
  | none => simp [ordBits]
  | some sc =>
    have := sc.code_lt
    simp only [ordBits]
    omega

/-- ORD, SCOPE and SIZE of LD and ST. -/
theorem decodeMem_access {code : Nat} (hc : code = 1 ∨ code = 2) {sc : Option Scope} {size : MemSize}
    (h : ordBits code sc + size.code = m.toNat) :
    decodeMem.memClear m = true ∧ MemSize.ofCode (modField m 0 3) = some size ∧ decodeMem.ordered m code = some sc := by
  have := size.code_lt
  obtain ⟨_, _⟩ := ordBits_bounds hc sc
  exact ⟨memClear_iff.mpr (by omega), MemSize.numbered.read m 0 3 size (by omega), (ordered_iff hc).mpr (by omega)⟩

theorem decodeMem_ld {acq : Option Scope} {size : MemSize} (h : ordBits 1 acq + size.code = m.toNat) :
    decodeMem 0x70 g o m disp = .ok (.ld g o disp acq size) := by
  obtain ⟨clear, hsize, hacq⟩ := decodeMem_access (.inl rfl) h
  rw [decodeMem, if_pos clear, hsize, hacq]

theorem decodeMem_st {rel : Option Scope} {size : MemSize} (h : ordBits 2 rel + size.code = m.toNat)
    (ok : size.storable = true) : decodeMem 0x71 g o m disp = .ok (.st g o disp rel size) := by
  obtain ⟨clear, hsize, hrel⟩ := decodeMem_access (.inr rfl) h
  rw [decodeMem, if_pos clear, hsize, hrel]
  exact if_pos ok

theorem decodeMem_stt {size : MemSize} (h : size.code = m.toNat) (ok : size.storable = true) :
    decodeMem 0x73 g o m disp = .ok (.stt g o size) := by
  have := size.code_lt
  rw [decodeMem, if_pos (modBelow_of (by omega)), MemSize.numbered.read m 0 3 size (by omega)]
  exact if_pos ok

/-- SCOPE, ORD, W64 and OP of the atomics. -/
theorem decodeMem_atomic {sc : Scope} {ord : AtomOrd} {w64 : Bool} {op : Nat} (hop : op < 16)
    (h : sc.code * 256 + ord.code * 64 + bit w64 * 16 + op = m.toNat) :
    decodeMem.atomClear m = true ∧ Scope.ofCode (modField m 8 3) = some sc ∧
      AtomOrd.ofCode (modField m 6 2) = some ord ∧ modBit m 4 = w64 ∧ modField m 0 4 = op := by
  have := bit_lt w64
  have := sc.code_lt
  have := ord.code_lt
  exact ⟨atomClear_iff.mpr (by omega), Scope.numbered.read m 8 3 sc (by omega),
    AtomOrd.numbered.read m 6 2 ord (by omega), modBit_eq m 4 w64 (by omega), by rw [modField_eq]; omega⟩

theorem decodeMem_atom {sc : Scope} {ord : AtomOrd} {w64 : Bool} {op : AtomOp}
    (h : sc.code * 256 + ord.code * 64 + bit w64 * 16 + op.code = m.toNat) (ok : (op != .aq64) = true) :
    decodeMem 0x74 g o m disp = .ok (.atom g o sc ord w64 op) := by
  have := op.code_lt
  obtain ⟨clear, hsc, hord, hw, hop⟩ := decodeMem_atomic (by omega) h
  rw [decodeMem, if_pos clear, hsc, hord, hw, hop, AtomOp.numbered.ofCode_code]
  exact if_neg (not_of_bnot ok)

theorem decodeMem_atomcas {sc : Scope} {ord : AtomOrd} {w64 : Bool}
    (h : sc.code * 256 + ord.code * 64 + bit w64 * 16 = m.toNat) :
    decodeMem 0x75 g o m disp = .ok (.atomcas g o sc ord w64) := by
  obtain ⟨clear, hsc, hord, hw, hop⟩ := decodeMem_atomic (m := m) (op := 0) (by omega) ((Nat.add_zero _).trans h)
  rw [decodeMem, if_pos (by rw [clear, hop]; rfl), hsc, hord, hw]

/-- RED's ordering, release or none, as an ORD. -/
theorem red_ord_code (rel : Bool) : (if rel then AtomOrd.rel else .none).code * 64 = bit rel * 128 := by
  cases rel <;> rfl

theorem decodeMem_red {sc : Scope} {rel w64 : Bool} {op : AtomOp}
    (h : sc.code * 256 + bit rel * 128 + bit w64 * 16 + op.code = m.toNat)
    (ok : (op != .exch && !(op == .aq64 && w64)) = true) :
    decodeMem 0x76 g o m disp = .ok (.red g o sc rel w64 op) := by
  have := op.code_lt
  rw [← red_ord_code] at h
  obtain ⟨clear, hsc, hord, hw, hop⟩ := decodeMem_atomic (by omega) h
  rw [decodeMem, if_pos clear, hsc, hord, hw, hop, AtomOp.numbered.ofCode_code]
  cases rel <;> exact if_pos (by simpa [decodeMem.redAllowed] using ok)

theorem decodeMem_fence {sc : Scope} (h : sc.code * 256 = m.toNat) :
    decodeMem 0x77 g o m disp = .ok (.fence g o sc) := by
  have := sc.code_lt
  rw [decodeMem, if_pos, Scope.numbered.read m 8 3 sc (by omega)]
  · rfl
  · simp only [modBelow_of (m := m) (n := 11) (by omega), Bool.true_and, beq_iff_eq, modField_eq]; omega

theorem decodeMem_waitw {sc : Scope} {w64 : Bool} {c : WCmp} (h : sc.code * 256 + bit w64 * 8 + c.code = m.toNat) :
    decodeMem 0x78 g o m disp = .ok (.waitw g o sc w64 c) := by
  have := sc.code_lt
  have := c.code_lt
  have := bit_lt w64
  rw [decodeMem, if_pos, Scope.numbered.read m 8 3 sc (by omega), WCmp.numbered.read m 0 3 c (by omega),
    modBit_eq m 3 w64 (by omega)]
  simp only [modBelow_of (m := m) (n := 11) (by omega), Bool.true_and, beq_iff_eq, modField_eq]; omega

theorem decodeMem_copy {sc : Scope} {w64 eng store : Bool}
    (h : sc.code * 256 + bit w64 * 8 + bit eng * 4 + bit store = m.toNat) :
    decodeMem 0x79 g o m disp = .ok (.copy g o sc w64 eng store) := by
  have := sc.code_lt
  have := bit_lt w64
  have := bit_lt eng
  have := bit_lt store
  rw [decodeMem, if_pos, Scope.numbered.read m 8 3 sc (by omega), modBit_eq m 3 w64 (by omega),
    modBit_eq m 2 eng (by omega), modBit_eq m 0 store (by omega)]
  · rfl
  · simp only [modBelow_of (m := m) (n := 11) (by omega), Bool.true_and, Bool.and_eq_true, beq_iff_eq,
      decide_eq_true_eq, modField_eq]
    omega

/-- GATHER and SCATTER. -/
theorem decodeMem_indexed {k : Scope → Bool → Instr} {sc : Scope} {w64 : Bool}
    (h : sc.code * 256 + bit w64 * 8 = m.toNat) :
    (if modBelow m 11 && modField m 4 4 == 0 && modField m 0 3 == 0 then
      ModResult.ofOption ((Scope.ofCode (modField m 8 3)).map fun sc => k sc (modBit m 3)) else .reserved)
      = .ok (k sc w64) := by
  have := sc.code_lt
  have := bit_lt w64
  rw [if_pos, Scope.numbered.read m 8 3 sc (by omega), modBit_eq m 3 w64 (by omega)]
  · rfl
  · simp only [modBelow_of (m := m) (n := 11) (by omega), Bool.true_and, Bool.and_eq_true, beq_iff_eq, modField_eq]
    omega

theorem decodeMem_feed {tr : Bool} {f : Fifo} (h : bit tr * 4 + f.code = m.toNat) (ok : (!(f == .m && tr)) = true) :
    decodeMem 0x7C g o m disp = .ok (.feed g o tr f) := by
  have := bit_lt tr
  have := f.code_lt
  rw [decodeMem, if_pos (modBelow_of (by omega)), Fifo.numbered.read m 0 2 f (by omega), modBit_eq m 2 tr (by omega)]
  exact if_neg (not_of_bnot ok)

theorem decodeMem_talloc {f : Fmt} {lvl : TileLevel} (h : f.code * 4 + lvl.code = m.toNat) :
    decodeMem 0x7E g o m disp = .ok (.talloc g o f lvl) := by
  have := f.code_lt
  have := lvl.code_lt
  rw [decodeMem, if_pos (modBelow_of (by omega)), Fmt.numbered.read m 2 4 f (by omega),
    TileLevel.numbered.read m 0 2 lvl (by omega)]

theorem decodeMem_ttag {b : Bool} (h : bit b = m.toNat) :
    decodeMem 0x81 g o m disp = .ok (if b then .ttagW g o else .ttag g o) := by
  have := bit_lt b
  rw [decodeMem, if_pos (modBelow_of (by omega)), modBit_eq m 0 b (by omega)]
  cases b <;> rfl

/-! ## Matrix and tile instructions -/

theorem decodeMtx_mma {fa fb : Fmt} (h : fb.code * 16 + fa.code = m.toNat)
    (ok : (fa.isMatrix && fb.isMatrix && fa.kClass == fb.kClass) = true) :
    decodeMtx 0xA2 g o m = .ok (.mma g o fa fb) := by
  simp only [Bool.and_eq_true] at ok
  obtain ⟨⟨oka, okb⟩, okk⟩ := ok
  have := fa.code_lt
  have := fb.code_lt
  rw [decodeMtx, if_pos (modBelow_of (by simp [Fmt.isMatrix] at okb; omega)), fmtIf_read m 0 oka (by omega),
    fmtIf_read m 4 okb (by omega)]
  exact if_pos okk

theorem decodeMtx_mmaq {grp : GroupSize} {fa fb : Fmt} (h : grp.code * 256 + fb.code * 16 + fa.code = m.toNat)
    (ok : ((fa == .uint8 || fa == .int4) && 3 ≤ fb.code && fb.code ≤ 9 && fa.kClass == fb.kClass) = true) :
    decodeMtx 0xA3 g o m = .ok (.mmaq g o grp fa fb) := by
  simp only [Bool.and_eq_true] at ok
  obtain ⟨⟨⟨oka, lo⟩, hi⟩, okk⟩ := ok
  have := fa.code_lt
  have := fb.code_lt
  have := grp.code_lt
  rw [decodeMtx, if_pos (modBelow_of (by omega)), GroupSize.numbered.read m 8 2 grp (by omega),
    fmtIf_read m 0 oka (by omega), fmtIf_read m 4 (by rw [lo, hi]; rfl) (by omega)]
  exact if_pos okk

theorem decodeMtx_mxdrain {amax : Option Scope} {add haar : Bool} {f : Fmt} {rm : Rm}
    (h : amaxCode amax * 512 + bit add * 256 + bit haar * 128 + f.code * 8 + rm.code = m.toNat) :
    decodeMtx 0xA6 g o m = .ok (.mxdrain g o amax add haar f rm) := by
  have := bit_lt add
  have := bit_lt haar
  have := f.code_lt
  have := rm.code_lt
  rw [decodeMtx, amax_numbered.read m 9 3 amax (by omega), Fmt.numbered.read m 3 4 f (by omega),
    Rm.numbered.read m 0 3 rm (by omega), modBit_eq m 8 add (by omega), modBit_eq m 7 haar (by omega)]

theorem decodeMtx_tact {fn : ActFn} {rm : Rm} (h : fn.code * 8 + rm.code = m.toNat) :
    decodeMtx 0xAA g o m = .ok (.tact g o fn rm) := by
  have := fn.code_lt
  have := rm.code_lt
  rw [decodeMtx, if_pos (modBelow_of (by omega)), ActFn.numbered.read m 3 4 fn (by omega),
    Rm.numbered.read m 0 3 rm (by omega)]

theorem decodeMtx_trowred {max : Bool} {rm : Rm} (h : bit max * 8 + rm.code = m.toNat) :
    decodeMtx 0xAC g o m = .ok (.trowred g o max rm) := by
  have := bit_lt max
  have := rm.code_lt
  rw [decodeMtx, if_pos, Rm.numbered.read m 0 3 rm (by omega), modBit_eq m 3 max (by omega)]
  · rfl
  · simp only [modBelow_of (m := m) (n := 5) (by omega), Bool.true_and, decide_eq_true_eq, modField_eq]; omega

/-- HFWD and HINV. -/
theorem decodeMtx_haar {k : Fin 6 → Rm → Instr} {lev : Fin 6} {rm : Rm} (h : (lev.val + 1) * 8 + rm.code = m.toNat) :
    decodeMtx.haar m k = .ok (k lev rm) := by
  have := rm.code_lt
  have hlev : modField m 3 3 = lev.val + 1 := by rw [modField_eq]; omega
  rw [decodeMtx.haar, if_pos (modBelow_of (by omega)), Rm.numbered.read m 0 3 rm (by omega), hlev]
  fin_cases lev <;> rfl

theorem decodeMtx_hthr {th : Fin 4} (h : th.val = m.toNat) : decodeMtx 0xAF g o m = .ok (.hthr g o th) := by
  have hth : modField m 0 2 = th.val := by rw [modField_eq]; omega
  rw [decodeMtx, if_pos (modBelow_of (by omega))]
  simp only [hth]

theorem decodeMtx_tcvt {f : Fmt} {rm : Rm} (h : f.code * 8 + rm.code = m.toNat) (ok : decide (f.code ≤ 9) = true) :
    decodeMtx 0xB1 g o m = .ok (.tcvt g o f rm) := by
  have := f.code_lt
  have := rm.code_lt
  rw [decodeMtx, if_pos (modBelow_of (by omega)), fmtIf_read m 3 ok (by omega), Rm.numbered.read m 0 3 rm (by omega)]

/-! ## Control and system instructions -/

theorem decodeCtl_bar {idx : Fin 16} {lvl : BarLevel} (h : idx.val * 4 + lvl.code = m.toNat)
    (ok : (!(lvl == .grid && 8 ≤ idx.val)) = true) : decodeCtl 0xC7 g o m off = .ok (.bar g idx lvl) := by
  have := lvl.code_lt
  have hidx : modField m 2 4 = idx.val := by rw [modField_eq]; omega
  rw [decodeCtl, if_pos (modBelow_of (by omega)), BarLevel.numbered.read m 0 2 lvl (by omega)]
  simp only [hidx]
  exact if_neg (not_of_bnot ok)

theorem decodeCtl_spawn {narg : Fin 9} {t : Bool} (h : narg.val * 2 + bit t = m.toNat) :
    decodeCtl 0xC8 g o m off = .ok (.spawn g off o.d narg t) := by
  have := bit_lt t
  have hnarg : modField m 1 4 = narg.val := by rw [modField_eq]; omega
  rw [decodeCtl, if_pos (modBelow_of (by omega)), modBit_eq m 0 t (by omega)]
  simp only [hnarg, narg.isLt, dite_true]

theorem decodeCtl_park {sc : Scope} {w64 : Bool} {c : WCmp} {t : Bool}
    (h : sc.code * 256 + bit w64 * 16 + c.code * 2 + bit t = m.toNat) :
    decodeCtl 0xC9 g o m off = .ok (.park g o sc w64 c t) := by
  have := sc.code_lt
  have := c.code_lt
  have := bit_lt w64
  have := bit_lt t
  rw [decodeCtl, if_pos, Scope.numbered.read m 8 3 sc (by omega), WCmp.numbered.read m 1 3 c (by omega),
    modBit_eq m 4 w64 (by omega), modBit_eq m 0 t (by omega)]
  simp only [modBelow_of (m := m) (n := 11) (by omega), Bool.true_and, beq_iff_eq, modField_eq]; omega

theorem decodeSys_srwr {sr : SReg} (h : sr.code = m.toNat) (ok : (!(sr == .gt || sr == .launch)) = true) :
    decodeSys 0xE1 g o m = .ok (.srwr g o sr) := by
  have := sr.code_lt
  rw [decodeSys, if_pos (modBelow_of (by omega)), SReg.numbered.read m 0 8 sr (by omega)]
  exact if_neg (not_of_bnot ok)

theorem decodeSys_pcfg {cap : Bool} {q : Fin 32} (h : bit cap * 32 + q.val = m.toNat) :
    decodeSys 0xE3 g o m = .ok (.pcfg g o cap q) := by
  have := bit_lt cap
  have hq : modField m 0 5 = q.val := by rw [modField_eq]; omega
  rw [decodeSys, if_pos (modBelow_of (by omega)), modBit_eq m 5 cap (by omega)]
  simp only [hq]

end Arms

/-! ## What the decoder reads from an opcode and a MOD -/

/-- Guard, operands, displacement and offset of an instruction replaced, its modifiers kept. -/
def Instr.onWord (g : Guard) (o : Ops) (disp : BitVec 10) (off : BitVec 30) : Instr → Instr
  | .nop _ => .nop g | .mov _ _ => .mov g o | .iadd _ _ => .iadd g o | .isub _ _ => .isub g o
  | .imul _ _ => .imul g o | .imulh _ _ u => .imulh g o u | .imad _ _ => .imad g o | .imadw _ _ u => .imadw g o u
  | .iadd64 _ _ => .iadd64 g o | .lea _ _ => .lea g o | .ineg _ _ => .ineg g o | .iabs _ _ => .iabs g o
  | .imin _ _ u => .imin g o u | .imax _ _ u => .imax g o u | .idiv _ _ u => .idiv g o u | .irem _ _ u => .irem g o u
  | .shl _ _ => .shl g o | .shr _ _ u => .shr g o u | .rot _ _ r => .rot g o r | .and _ _ => .and g o
  | .or _ _ => .or g o | .xor _ _ => .xor g o | .andn _ _ => .andn g o | .bfe _ _ u => .bfe g o u
  | .bfi _ _ => .bfi g o | .popc _ _ => .popc g o | .clz _ _ => .clz g o | .brev _ _ => .brev g o
  | .bswz _ _ => .bswz g o | .itest _ _ u cmp => .itest g o u cmp | .mux _ _ => .mux g o
  | .plut _ _ lut => .plut g o lut | .fadd _ _ rm => .fadd g o rm | .fsub _ _ rm => .fsub g o rm
  | .fmul _ _ rm => .fmul g o rm | .ffma _ _ rm => .ffma g o rm | .fmin _ _ nan => .fmin g o nan
  | .fmax _ _ nan => .fmax g o nan | .ftest _ _ cmp => .ftest g o cmp | .fclass _ _ mask => .fclass g o mask
  | .frcp _ _ rm => .frcp g o rm | .frsq _ _ rm => .frsq g o rm | .fsqrt _ _ rm => .fsqrt g o rm
  | .fexp2 _ _ rm => .fexp2 g o rm | .flog2 _ _ rm => .flog2 g o rm | .fsinpi _ _ rm => .fsinpi g o rm
  | .fcospi _ _ rm => .fcospi g o rm | .fdiv _ _ rm => .fdiv g o rm | .frnd _ _ rm => .frnd g o rm
  | .fscale _ _ rm => .fscale g o rm | .hadd2 _ _ bf rm => .hadd2 g o bf rm | .hmul2 _ _ bf rm => .hmul2 g o bf rm
  | .hfma2 _ _ bf rm => .hfma2 g o bf rm | .hdot2 _ _ bf rm => .hdot2 g o bf rm
  | .cvt _ _ dst src rm => .cvt g o dst src rm | .f2i _ _ dst src rm => .f2i g o dst src rm
  | .i2f _ _ u rm => .i2f g o u rm | .pack _ _ fmt rm => .pack g o fmt rm
  | .unpack _ _ idx fmt => .unpack g o idx fmt | .qnt _ _ asym fmt rm => .qnt g o asym fmt rm
  | .dqnt _ _ asym fmt rm => .dqnt g o asym fmt rm | .fabsmax _ _ => .fabsmax g o
  | .movsrRead _ _ sr => .movsrRead g o sr | .movsrWrite _ _ sr => .movsrWrite g o sr
  | .movpRead _ _ => .movpRead g o | .movpWrite _ _ => .movpWrite g o | .qswap _ _ xm => .qswap g o xm
  | .qbcast _ _ src => .qbcast g o src | .wshfl _ _ mode => .wshfl g o mode | .vote _ _ mode => .vote g o mode
  | .wred _ _ op => .wred g o op | .wscan _ _ excl op => .wscan g o excl op | .wmatch _ _ => .wmatch g o
  | .elect _ _ => .elect g o | .v2s _ _ => .v2s g o | .gld _ _ _ f64 => .gld g o disp f64 | .gmov _ _ => .gmov g o
  | .gadd _ _ => .gadd g o | .gsub _ _ => .gsub g o | .gmul _ _ => .gmul g o | .gneg _ _ => .gneg g o
  | .gsqr _ _ => .gsqr g o | .gsgn _ _ => .gsgn g o | .gcmp _ _ => .gcmp g o | .gmid _ _ rm => .gmid g o rm
  | .gbnd _ _ => .gbnd g o | .gsever _ _ => .gsever g o | .gdrop _ _ => .gdrop g o | .gstat _ _ clr => .gstat g o clr
  | .ld _ _ _ acq size => .ld g o disp acq size | .st _ _ _ rel size => .st g o disp rel size
  | .ldt _ _ size => .ldt g o size | .stt _ _ size => .stt g o size
  | .atom _ _ scope ord w64 op => .atom g o scope ord w64 op
  | .atomcas _ _ scope ord w64 => .atomcas g o scope ord w64 | .red _ _ scope rel w64 op => .red g o scope rel w64 op
  | .fence _ _ scope => .fence g o scope | .waitw _ _ scope w64 cmp => .waitw g o scope w64 cmp
  | .copy _ _ scope w64 eng store => .copy g o scope w64 eng store | .gather _ _ scope w64 => .gather g o scope w64
  | .scatter _ _ scope w64 => .scatter g o scope w64 | .feed _ _ tr fifo => .feed g o tr fifo
  | .pref _ _ _ l2 => .pref g o disp l2 | .talloc _ _ fmt lvl => .talloc g o fmt lvl | .tfree _ _ => .tfree g o
  | .tinfo _ _ => .tinfo g o | .ttag _ _ => .ttag g o | .ttagW _ _ => .ttagW g o | .flush _ _ => .flush g o
  | .mxwin _ _ => .mxwin g o | .mxzero _ _ => .mxzero g o | .mma _ _ fa fb => .mma g o fa fb
  | .mmaq _ _ grp fa fb => .mmaq g o grp fa fb | .mxld _ _ => .mxld g o | .mxst _ _ => .mxst g o
  | .mxdrain _ _ amax add haar fmt rm => .mxdrain g o amax add haar fmt rm | .tadd _ _ rm => .tadd g o rm
  | .tscale _ _ rm => .tscale g o rm | .taxpy _ _ rm => .taxpy g o rm | .tact _ _ fn rm => .tact g o fn rm
  | .tmul _ _ rm => .tmul g o rm | .trowred _ _ max rm => .trowred g o max rm | .hfwd _ _ lev rm => .hfwd g o lev rm
  | .hinv _ _ lev rm => .hinv g o lev rm | .hthr _ _ th => .hthr g o th | .tnorm _ _ rm => .tnorm g o rm
  | .tcvt _ _ fmt rm => .tcvt g o fmt rm | .bra _ _ y => .bra g off y | .brx _ _ y => .brx g o y
  | .call _ _ => .call g off | .callx _ _ => .callx g o | .ret _ => .ret g | .exit _ => .exit g
  | .meet _ _ => .meet g off | .bar _ idx level => .bar g idx level | .spawn _ _ _ narg t => .spawn g off o.d narg t
  | .park _ _ scope w64 cmp t => .park g o scope w64 cmp t | .fetcht _ _ => .fetcht g o
  | .trap _ code => .trap g code | .bkpt _ code => .bkpt g code | .rtt _ => .rtt g | .srwr _ _ sr => .srwr g o sr
  | .tlbinv _ _ what => .tlbinv g o what | .pcfg _ _ cap q => .pcfg g o cap q
  | i => i

/-- What the decoder reads from an opcode, a MOD and the other parts of a word: a legal instruction that has just
these. -/
structure Reads (opc : Nat) (g : Guard) (o : Ops) (r : RawWord) (i : Instr) : Prop where
  word : i.fields.isSome = true
  opcode : i.opcode = opc
  mod : i.modBits = r.mod.toNat
  modsOk : i.modsOk = true
  onWord : i.onWord g o r.c r.off = i

section Build
variable {opc : Nat} {g : Guard} {o : Ops} {r : RawWord} {i : Instr}

/-- The instruction that an opcode and a MOD stand for is built. -/
theorem buildInstr_of_reads (h : Reads opc g o r i) : buildInstr opc g o r = .ok i := by
  obtain ⟨word, rfl, mod, ok, on⟩ := h
  cases i <;> cases on
  case nop | mov | iadd | isub | imul | imad | iadd64 | lea | ineg | iabs | shl | and | or | xor | andn | bfi | popc
      | clz | brev | bswz | mux | fabsmax | wmatch | elect | v2s | gmov | gadd | gsub | gmul | gneg | gsqr | gsgn | gcmp
      | gbnd | gsever | gdrop | tfree | tinfo | flush | mxwin | mxzero | mxld | mxst | call | callx | ret | exit | meet
      | fetcht | rtt => exact modNone_zero mod
  case imulh | imadw | imin | imax | idiv | irem | shr | rot | bfe | fmin | fmax | gld | gstat | pref | bra | brx =>
    exact modFlag_bit mod
  case fadd | fsub | fmul | ffma | frcp | frsq | fsqrt | fexp2 | flog2 | fsinpi | fcospi | fdiv | frnd | fscale | gmid
      | tadd | tscale | taxpy | tmul | tnorm => exact modRm_code mod
  case hadd2 | hmul2 | hfma2 | hdot2 | i2f => exact modBfRm_code mod
  case itest => exact decodeInt_itest mod
  case plut => exact decodeInt_plut mod
  case ftest => exact FCmp.numbered.whole 4 (by decide) _ mod
  case fclass => exact decodeFloat_fclass mod
  case cvt => exact decodeFloat_cvt mod ok
  case f2i => exact decodeFloat_f2i mod ok
  case pack => exact decodeFloat_pack mod ok
  case unpack => exact decodeFloat_unpack mod ok
  case qnt | dqnt => exact decodeFloat_quant mod ok
  case movsrRead => exact decodeFloat_movsrRead mod
  case movsrWrite => exact decodeFloat_movsrWrite mod ok
  case movpRead => exact decodeFloat_movp (b := false) mod
  case movpWrite => exact decodeFloat_movp (b := true) mod
  case qswap => exact SwapMode.numbered.whole 2 (by decide) _ mod
  case qbcast => exact decodeExchange_qbcast mod
  case wshfl => exact ShflMode.numbered.whole 2 (by decide) _ mod
  case vote => exact VoteMode.numbered.whole 2 (by decide) _ mod
  case wred => exact RedOp.numbered.whole 4 (by decide) _ mod
  case wscan => exact decodeExchange_wscan mod
  case ld => exact decodeMem_ld r.c mod
  case st => exact decodeMem_st r.c mod ok
  case ldt => exact MemSize.numbered.whole 3 (by decide) _ mod
  case stt => exact decodeMem_stt r.c mod ok
  case atom => exact decodeMem_atom r.c mod ok
  case atomcas => exact decodeMem_atomcas r.c mod
  case red => exact decodeMem_red r.c mod ok
  case fence => exact decodeMem_fence r.c mod
  case waitw => exact decodeMem_waitw r.c mod
  case copy => exact decodeMem_copy r.c mod
  case gather | scatter => exact decodeMem_indexed mod
  case feed => exact decodeMem_feed r.c mod ok
  case talloc => exact decodeMem_talloc r.c mod
  case ttag => exact decodeMem_ttag r.c (b := false) mod
  case ttagW => exact decodeMem_ttag r.c (b := true) mod
  case mma => exact decodeMtx_mma mod ok
  case mmaq => exact decodeMtx_mmaq mod ok
  case mxdrain => exact decodeMtx_mxdrain mod
  case tact => exact decodeMtx_tact mod
  case trowred => exact decodeMtx_trowred mod
  case hfwd | hinv => exact decodeMtx_haar mod
  case hthr => exact decodeMtx_hthr mod
  case tcvt => exact decodeMtx_tcvt mod ok
  case bar => exact decodeCtl_bar (o := o) r.off mod ok
  case spawn => exact decodeCtl_spawn r.off mod
  case park => exact decodeCtl_park r.off mod
  case trap | bkpt => exact congrArg _ (congrArg _ (BitVec.eq_of_toNat_eq mod.symm))
  case srwr => exact decodeSys_srwr mod ok
  case tlbinv => exact TlbWhat.numbered.whole 4 (by decide) _ mod
  case pcfg => exact decodeSys_pcfg mod
  all_goals cases word

theorem redAllowed_iff {ord : AtomOrd} {op : AtomOp} {w64 : Bool} : decodeMem.redAllowed ord op w64 = true ↔
    bit (ord == .rel) * 128 = ord.code * 64 ∧ (op != .exch && !(op == .aq64 && w64)) = true := by
  rw [decodeMem.redAllowed, Bool.and_assoc, Bool.and_eq_true]
  refine and_congr_left fun _ => ?_
  cases ord <;> decide

/-! The arms of each table: the fields that an arm reads add up to MOD, bit for bit, and what it tests is what makes the
modifiers legal. -/

theorem reads_of_decodeInt (h : decodeInt opc g o r.mod = .ok i) : Reads opc g o r i := by
  unfold decodeInt modNone modFlag at h
  simp only [ofOption_map] at h
  split at h
  all_goals repeat' split at h
  all_goals cases h
  all_goals refine ⟨rfl, rfl, ?_, ?_, rfl⟩
  all_goals simp_all [Instr.modBits, Instr.modsOk, modField_eq, modBelow_iff, bit_modBit]
  all_goals omega

theorem reads_of_decodeFloat (h : decodeFloat opc g o r.mod = .ok i) : Reads opc g o r i := by
  unfold decodeFloat decodeFloat.quant modNone modFlag modRm modBfRm at h
  simp only [ofOption_map] at h
  split at h
  all_goals repeat' split at h
  all_goals cases h
  all_goals refine ⟨rfl, rfl, ?_, ?_, rfl⟩
  all_goals simp_all [Instr.modBits, Instr.modsOk, modField_eq, modBelow_iff, bit_modBit, modBit_iff]
  all_goals omega

theorem reads_of_decodeExchange (h : decodeExchange opc g o r.mod = .ok i) : Reads opc g o r i := by
  unfold decodeExchange modNone at h
  simp only [ofOption_map] at h
  split at h
  all_goals repeat' split at h
  all_goals cases h
  all_goals refine ⟨rfl, rfl, ?_, ?_, rfl⟩
  all_goals simp_all [Instr.modBits, Instr.modsOk, modField_eq, modBelow_iff, bit_modBit]
  all_goals omega

theorem reads_of_decodeGuarded (h : decodeGuarded opc g o r.mod r.c = .ok i) : Reads opc g o r i := by
  unfold decodeGuarded modNone modFlag modRm at h
  simp only [ofOption_map] at h
  split at h
  all_goals repeat' split at h
  all_goals cases h
  all_goals refine ⟨rfl, rfl, ?_, ?_, rfl⟩
  all_goals simp_all [Instr.modBits, Instr.modsOk, modField_eq, modBelow_iff, bit_modBit]

theorem reads_of_decodeMem (h : decodeMem opc g o r.mod r.c = .ok i) : Reads opc g o r i := by
  unfold decodeMem modNone at h
  simp only [ofOption_map] at h
  split at h
  all_goals repeat' split at h
  all_goals cases h
  all_goals refine ⟨rfl, rfl, ?_, ?_, rfl⟩
  all_goals simp_all [Instr.modBits, Instr.modsOk, modField_eq, modBelow_iff, bit_modBit, modBit_iff, memClear_iff,
    atomClear_iff, ordered_iff, redAllowed_iff]
  all_goals grind

theorem reads_of_decodeMtx (h : decodeMtx opc g o r.mod = .ok i) : Reads opc g o r i := by
  unfold decodeMtx decodeMtx.haar modNone modRm at h
  have := r.mod.isLt
  simp only [ofOption_map] at h
  split at h
  all_goals repeat' split at h
  all_goals cases h
  all_goals refine ⟨rfl, rfl, ?_, ?_, rfl⟩
  all_goals simp_all [Instr.modBits, Instr.modsOk, modField_eq, modBelow_iff, bit_modBit]
  all_goals grind [amaxCode]

theorem reads_of_decodeCtl (h : decodeCtl opc g o r.mod r.off = .ok i) : Reads opc g o r i := by
  unfold decodeCtl modNone modFlag at h
  split at h
  all_goals repeat' split at h
  all_goals cases h
  all_goals refine ⟨rfl, rfl, ?_, ?_, rfl⟩
  all_goals simp_all [Instr.modBits, Instr.modsOk, modField_eq, modBelow_iff, bit_modBit]
  all_goals grind

theorem reads_of_decodeSys (h : decodeSys opc g o r.mod = .ok i) : Reads opc g o r i := by
  unfold decodeSys modNone at h
  simp only [ofOption_map] at h
  split at h
  all_goals repeat' split at h
  all_goals cases h
  all_goals refine ⟨rfl, rfl, ?_, ?_, rfl⟩
  all_goals simp_all [Instr.modBits, Instr.modsOk, modField_eq, modBelow_iff, bit_modBit]
  all_goals omega

theorem reads_of_buildInstr (h : buildInstr opc g o r = .ok i) : Reads opc g o r i := by
  unfold buildInstr at h
  split_ifs at h
  · exact reads_of_decodeInt h
  · exact reads_of_decodeFloat h
  · exact reads_of_decodeExchange h
  · exact reads_of_decodeGuarded h
  · exact reads_of_decodeMem h
  · exact reads_of_decodeMtx h
  · exact reads_of_decodeCtl h
  · exact reads_of_decodeSys h

end Build

end Sys2Proof
end

section
/-! SUPPORT. Words and operands: the fields of a word, the codes of operands, and the bounds of opcodes and MODs
(spec/04 R75, R78, R84;
spec/06 R98). -/

namespace Sys2Proof

theorem Instr.opcode_lt (i : Instr) : i.opcode < 256 := by cases i <;> simp [Instr.opcode]

theorem ordBits_lt (k : Nat) (hk : k < 3) (sc : Option Scope) : ordBits k sc < 2048 := by
  cases sc with
  | none => simp [ordBits]
  | some sc =>
    have := sc.code_lt
    simp only [ordBits]
    omega

theorem amaxCode_lt (amax : Option Scope) : amaxCode amax < 8 := amax_numbered.code_lt amax

theorem modBits_mxdrain {g : Guard} {o : Ops} {amax : Option Scope} {add haar : Bool} {f : Fmt} {rm : Rm} :
    (Instr.mxdrain g o amax add haar f rm).modBits =
      amaxCode amax * 512 + bit add * 256 + bit haar * 128 + f.code * 8 + rm.code := rfl

theorem Instr.modBits_lt (i : Instr) : i.modBits < 4096 := by
  cases i
  case mxdrain amax add haar f rm =>
    have := amaxCode_lt amax; have := bit_lt add; have := bit_lt haar; have := f.code_lt; have := rm.code_lt
    rw [modBits_mxdrain]
    omega
  all_goals simp only [Instr.modBits]
  case imulh u | imadw u | imin u | imax u | idiv u | irem u | shr u | rot u | bfe u | fmin u | fmax u | gld u | gstat u
      | pref u | bra u | brx u => have := bit_lt u; omega
  case fadd rm | fsub rm | fmul rm | ffma rm | frcp rm | frsq rm | fsqrt rm | fexp2 rm | flog2 rm | fsinpi rm
      | fcospi rm | fdiv rm | frnd rm | fscale rm | gmid rm | tadd rm | tscale rm | taxpy rm | tmul rm | tnorm rm =>
    have := rm.code_lt; omega
  case hadd2 b rm | hmul2 b rm | hfma2 b rm | hdot2 b rm | i2f b rm | trowred b rm =>
    have := bit_lt b; have := rm.code_lt; omega
  case cvt dst src rm | f2i dst src rm => have := dst.code_lt; have := src.code_lt; have := rm.code_lt; omega
  case pack f rm | tcvt f rm | tact f rm => have := f.code_lt; have := rm.code_lt; omega
  case qnt b f rm | dqnt b f rm => have := bit_lt b; have := f.code_lt; have := rm.code_lt; omega
  case unpack f => have := f.code_lt; omega
  case mma fa fb => have := fa.code_lt; have := fb.code_lt; omega
  case mmaq grp fa fb => have := grp.code_lt; have := fa.code_lt; have := fb.code_lt; omega
  case itest b c | wscan b c | feed b c => have := bit_lt b; have := c.code_lt; omega
  case ftest c | movsrRead c | movsrWrite c | qswap c | wshfl c | vote c | wred c | ldt c | stt c | fence c | bar c
      | srwr c | tlbinv c => have := c.code_lt; omega
  case ld sc size | st sc size =>
    have := ordBits_lt 1 (by decide) sc; have := ordBits_lt 2 (by decide) sc; have := size.code_lt; omega
  case atom sc ord w64 op => have := sc.code_lt; have := ord.code_lt; have := bit_lt w64; have := op.code_lt; omega
  case atomcas sc ord w64 => have := sc.code_lt; have := ord.code_lt; have := bit_lt w64; omega
  case red sc rel w64 op => have := sc.code_lt; have := bit_lt rel; have := bit_lt w64; have := op.code_lt; omega
  case gather sc w64 | scatter sc w64 => have := sc.code_lt; have := bit_lt w64; omega
  case waitw sc w64 c => have := sc.code_lt; have := bit_lt w64; have := c.code_lt; omega
  case copy sc w64 eng store => have := sc.code_lt; have := bit_lt w64; have := bit_lt eng; have := bit_lt store; omega
  case talloc f lvl => have := f.code_lt; have := lvl.code_lt; omega
  case park sc w64 c t => have := sc.code_lt; have := bit_lt w64; have := c.code_lt; have := bit_lt t; omega
  case hfwd rm | hinv rm => have := rm.code_lt; omega
  case spawn t => have := bit_lt t; omega
  case pcfg cap q => have := bit_lt cap; omega
  all_goals omega

theorem RawWord.toWord_ofWord (w : W64) : (RawWord.ofWord w).toWord = w := by
  open BitVec in
  simp only [RawWord.toWord, RawWord.ofWord]
  rw [extractLsb'_append_extractLsb'_eq_extractLsb' (by rfl : 56 = 46 + 10),
    extractLsb'_append_extractLsb'_eq_extractLsb' (by rfl : 46 = 36 + 10),
    extractLsb'_append_extractLsb'_eq_extractLsb' (by rfl : 36 = 26 + 10),
    extractLsb'_append_extractLsb'_eq_extractLsb' (by rfl : 26 = 16 + 10),
    extractLsb'_append_extractLsb'_eq_extractLsb' (by rfl : 16 = 15 + 1),
    extractLsb'_append_extractLsb'_eq_extractLsb' (by rfl : 15 = 12 + 3),
    extractLsb'_append_extractLsb'_eq_extractLsb' (by rfl : 12 = 0 + 12)]
  exact extractLsb'_eq_self

theorem RawWord.ofWord_toWord (r : RawWord) : RawWord.ofWord r.toWord = r := by
  obtain ⟨opc, d, a, b, c, pneg, pidx, mod⟩ := r
  simp only [RawWord.ofWord, RawWord.toWord, RawWord.mk.injEq]
  refine ⟨?_, ?_, ?_, ?_, ?_, ?_, ?_, ?_⟩
  all_goals
    apply BitVec.eq_of_getLsbD_eq
    intro i hi
    simp only [BitVec.getLsbD_cast, BitVec.getLsbD_append, BitVec.getLsbD_extractLsb', hi, decide_true, Bool.true_and]
    grind

theorem RawWord.off_of_extract {r : RawWord} {off : BitVec 30} (ha : r.a = off.extractLsb' 20 10)
    (hb : r.b = off.extractLsb' 10 10) (hc : r.c = off.extractLsb' 0 10) : r.off = off := by
  rw [RawWord.off, ha, hb, hc, BitVec.extractLsb'_append_extractLsb'_eq_extractLsb' (by rfl : 20 = 10 + 10),
    BitVec.extractLsb'_append_extractLsb'_eq_extractLsb' (by rfl : 10 = 0 + 10)]
  exact BitVec.extractLsb'_eq_self

theorem RawWord.extract_off (r : RawWord) :
    r.off.extractLsb' 20 10 = r.a ∧ r.off.extractLsb' 10 10 = r.b ∧ r.off.extractLsb' 0 10 = r.c := by
  refine ⟨?_, ?_, ?_⟩
  all_goals
    apply BitVec.eq_of_getLsbD_eq
    intro i hi
    simp only [RawWord.off, BitVec.getLsbD_cast, BitVec.getLsbD_append, BitVec.getLsbD_extractLsb', hi, decide_true,
      Bool.true_and]
    grind

theorem RawWord.toNat_opc (w : W64) : (RawWord.ofWord w).opc.toNat = w.toNat / 2 ^ 56 := by
  have := w.isLt
  rw [RawWord.ofWord, BitVec.extractLsb'_toNat, Nat.shiftRight_eq_div_pow]
  omega

/-! ## Operand codes (R78, R83) -/

theorem Special.ofIndex_index (x : Special) : Special.ofIndex x.index = some x := by cases x <;> rfl

theorem Special.index_of_ofIndex {n : Nat} {x : Special} (h : Special.ofIndex n = some x) : x.index = n := by
  unfold Special.ofIndex at h
  split at h <;> cases h <;> rfl

theorem Special.index_lt (x : Special) : x.index < 16 := by cases x <;> decide

/-- An operand as its code alone gives it: a literal without its value. -/
def Operand.unlit : Operand → Operand
  | .lit _ => .lit 0
  | o => o

theorem Operand.code_unlit (x : Operand) : x.unlit.code = x.code := by cases x <;> rfl
theorem Operand.isLit_unlit (x : Operand) : x.unlit.isLit = x.isLit := by cases x <;> rfl

/-- The place of an operand's code, as a number. -/
def Operand.place : Operand → Nat
  | .v i => i.val
  | .k i => 384 + i.val
  | .sp x => 0x1C0 + x.index
  | .s i => 0x200 + i.val
  | .g i => 0x240 + i.val
  | .p i => 0x280 + i.val
  | .t i => 0x2C0 + i.val
  | .lit _ => 0x3FE
  | .none => 0x3FF

theorem Operand.toNat_code (x : Operand) : x.code.toNat = x.place := by
  cases x with
  | sp y => have := y.index_lt; simp only [code, place, BitVec.toNat_ofNat]; omega
  | lit | none => rfl
  | _ i => simp only [code, place, BitVec.toNat_ofNat]; omega


theorem Operand.ofCode_of_place {c : BitVec 10} {x : Operand} (h : c.toNat = x.place) :
    Operand.ofCode c = some x.unlit := by
  unfold Operand.ofCode
  extract_lets n
  have hn : n = x.place := h
  cases x with
  | v i =>
    change n = i.val at hn
    rw [dif_pos (by omega)]
    exact congrArg (some <| v ·) (Fin.ext hn)
  | k i =>
    change n = 384 + i.val at hn
    rw [dif_neg (by omega), dif_pos (by omega)]
    exact congrArg (some <| k ·) (Fin.ext (by change n - 384 = i; omega))
  | sp y =>
    have := y.index_lt
    change n = 0x1C0 + y.index at hn
    rw [dif_neg (by omega), dif_neg (by omega), if_pos (by omega), hn, Nat.add_sub_cancel_left, Special.ofIndex_index]
    rfl
  | s i =>
    change n = 0x200 + i.val at hn
    rw [dif_neg (by omega), dif_neg (by omega), if_neg (by omega), if_neg (by omega), dif_pos (by omega)]
    exact congrArg (some <| s ·) (Fin.ext (by change n - 0x200 = i; omega))
  | g i =>
    change n = 0x240 + i.val at hn
    rw [dif_neg (by omega), dif_neg (by omega), if_neg (by omega), if_neg (by omega), dif_neg (by omega), dif_pos
      (by omega)]
    exact congrArg (some <| g ·) (Fin.ext (by change n - 0x240 = i; omega))
  | p i =>
    change n = 0x280 + i.val at hn
    rw [dif_neg (by omega), dif_neg (by omega), if_neg (by omega), if_neg (by omega), dif_neg (by omega), dif_neg
      (by omega), dif_pos (by omega)]
    exact congrArg (some <| p ·) (Fin.ext (by change n - 0x280 = i; omega))
  | t i =>
    change n = 0x2C0 + i.val at hn
    rw [dif_neg (by omega), dif_neg (by omega), if_neg (by omega), if_neg (by omega), dif_neg (by omega), dif_neg
      (by omega), dif_neg (by omega), if_neg (by omega), dif_pos (by omega)]
    exact congrArg (some <| t ·) (Fin.ext (by change n - 0x2C0 = i; omega))
  | lit =>
    change n = 0x3FE at hn
    rw [dif_neg (by omega), dif_neg (by omega), if_neg (by omega), if_neg (by omega), dif_neg (by omega),
      dif_neg (by omega), dif_neg (by omega), if_neg (by omega), dif_neg (by omega), if_pos hn]
    rfl
  | none =>
    change n = 0x3FF at hn
    rw [dif_neg (by omega), dif_neg (by omega), if_neg (by omega), if_neg (by omega), dif_neg (by omega),
      dif_neg (by omega), dif_neg (by omega), if_neg (by omega), dif_neg (by omega), if_neg (by omega), if_pos hn]
    rfl

theorem Operand.place_of_ofCode {c : BitVec 10} {x : Operand} (h : Operand.ofCode c = some x) : x.place = c.toNat := by
  unfold Operand.ofCode at h
  extract_lets n at h
  by_cases hv : n < 384
  · rw [dif_pos hv] at h
    cases h
    rfl
  rw [dif_neg hv] at h
  by_cases hk : n - 384 < 64
  · rw [dif_pos hk] at h
    cases h
    exact Nat.add_sub_of_le (by omega)
  rw [dif_neg hk] at h
  by_cases hsp : n < 0x1D0
  · rw [if_pos hsp] at h
    obtain ⟨y, e, rfl⟩ := Option.map_eq_some_iff.mp h
    exact (congrArg _ (Special.index_of_ofIndex e)).trans (Nat.add_sub_of_le (by omega))
  rw [if_neg hsp, Option.ite_none_left_eq_some] at h
  obtain ⟨hr, h⟩ := h
  by_cases hs : n - 0x200 < 64
  · rw [dif_pos hs] at h
    cases h
    exact Nat.add_sub_of_le (by omega)
  rw [dif_neg hs] at h
  by_cases hg : n - 0x240 < 64
  · rw [dif_pos hg] at h
    cases h
    exact Nat.add_sub_of_le (by omega)
  rw [dif_neg hg] at h
  by_cases hp : n - 0x280 < 8
  · rw [dif_pos hp] at h
    cases h
    exact Nat.add_sub_of_le (by omega)
  rw [dif_neg hp, Option.ite_none_left_eq_some] at h
  obtain ⟨hr', h⟩ := h
  by_cases ht : n - 0x2C0 < 192
  · rw [dif_pos ht] at h
    cases h
    exact Nat.add_sub_of_le (by omega)
  rw [dif_neg ht] at h
  by_cases hl : n = 0x3FE
  · rw [if_pos hl] at h
    cases h
    exact hl.symm
  rw [if_neg hl, Option.ite_none_right_eq_some] at h
  obtain ⟨hn, h⟩ := h
  cases h
  exact hn.symm

theorem Operand.code_of_ofCode {c : BitVec 10} {x : Operand} (h : Operand.ofCode c = some x) : x.code = c :=
  BitVec.eq_of_toNat_eq (by rw [toNat_code, place_of_ofCode h])

end Sys2Proof
end

section
/-! SUPPORT. Fields: which operands an instruction's fields hold, and its literal slot (spec/04 R78 to R84). -/

namespace Sys2Proof

/-! ## Instructions whose operands are replaced -/

section OnWord
variable {g g' : Guard} {o o' : Ops} {disp disp' : BitVec 10} {off off' : BitVec 30} {i : Instr}

theorem Instr.opcode_onWord : (i.onWord g o disp off).opcode = i.opcode := by cases i <;> rfl
theorem Instr.modBits_onWord : (i.onWord g o disp off).modBits = i.modBits := by cases i <;> rfl
theorem Instr.modsOk_onWord : (i.onWord g o disp off).modsOk = i.modsOk := by cases i <;> rfl
theorem Instr.word_onWord : (i.onWord g o disp off).fields.isSome = i.fields.isSome := by cases i <;> rfl
theorem Instr.onWord_onWord : (i.onWord g o disp off).onWord g' o' disp' off' = i.onWord g' o' disp' off' := by
  cases i <;> rfl

/-- Is the operand a tile? -/
def Operand.isTile : Operand → Bool
  | .t _ => true
  | _ => false

theorem Instr.shape_waitw (g : Guard) (o : Ops) (sc : Scope) (w64 : Bool) (cmp : WCmp) :
    (Instr.waitw g o sc w64 cmp).shape =
      ⟨.unused, .handleOrPair, wordSrc w64, if o.a.isTile then .src32 else .unused⟩ := by
  obtain ⟨d, a, b, c⟩ := o
  cases a <;> rfl

/-- Which fields are operands depends on the operands in WAITW alone, whose C is one when A is a tile. -/
theorem Instr.shape_onWord (h : i.shape.a = .handleOrPair → o.a.isTile = o'.a.isTile) :
    (i.onWord g o disp off).shape = (i.onWord g' o' disp' off').shape := by
  cases i
  case waitw =>
    have h := h rfl
    rw [Instr.onWord, Instr.onWord, Instr.shape_waitw, Instr.shape_waitw, h]
  all_goals rfl

/-- An operand stands in every field of a kind that takes one, and in no other. -/
def Shape.bare (sh : Shape) (o : Ops) : Prop :=
  sh.d.bare o.d = true ∧ sh.a.bare o.a = true ∧ sh.b.bare o.b = true ∧ sh.c.bare o.c = true

theorem Instr.fields_of_onWord (word : i.fields.isSome = true) (on : i.onWord g o disp off = i) (h : i.shape.bare o) :
    i.fields = some (g, o) := by
  obtain ⟨d, a, b, c⟩ := o
  cases i <;> cases on
  all_goals try rfl
  all_goals try cases word
  all_goals simp_all [Instr.fields, Shape.bare, Instr.shape, FieldKind.bare]

theorem Instr.onWord_of_fields (hf : i.fields = some (g, o)) (hd : ∀ d, i.dispBits = some d → d = disp)
    (ho : ∀ f, i.offBits = some f → f = off) : i.onWord g o disp off = i := by
  cases i
  all_goals try cases hf
  all_goals simp_all [Instr.onWord, Instr.dispBits, Instr.offBits]

theorem Instr.dispBits_of_onWord (on : i.onWord g o disp off = i) {d : BitVec 10} (h : i.dispBits = some d) :
    d = disp := by
  cases i
  all_goals try cases h
  all_goals cases on; rfl

theorem Instr.offBits_of_onWord (on : i.onWord g o disp off = i) {f : BitVec 30} (h : i.offBits = some f) :
    f = off := by
  cases i
  all_goals try cases h
  all_goals cases on; rfl

end OnWord

/-- May a kind of field stand in a clause of this class: guarded registers in GRD, tiles in MEM and MTX (R78)? -/
def FieldKind.inClass (cls : Nat) : FieldKind → Bool
  | .guarded => cls == 1
  | .handle | .handleOrPair => cls == 2 || cls == 3
  | _ => true

/-- Is the field an operand, of a kind that every class has? -/
def FieldKind.plain : FieldKind → Bool
  | .raw | .guarded | .handle | .handleOrPair => false
  | _ => true

theorem Fmt.srcKind_plain (f : Fmt) : f.srcKind.plain = true := by cases f <;> rfl
theorem Fmt.dstKind_plain (f : Fmt) : f.dstKind.plain = true := by cases f <;> rfl
theorem MemSize.srcKind_plain (z : MemSize) : z.srcKind.plain = true := by cases z <;> rfl
theorem MemSize.dstKind_plain (z : MemSize) : z.dstKind.plain = true := by cases z <;> rfl
theorem wordSrc_plain (w64 : Bool) : (wordSrc w64).plain = true := by cases w64 <;> rfl
theorem wordDst_plain (w64 : Bool) : (wordDst w64).plain = true := by cases w64 <;> rfl

theorem FieldKind.plain_ite {p : Prop} [Decidable p] {k l : FieldKind} (hk : k.plain = true) (hl : l.plain = true) :
    (if p then k else l).plain = true := by split <;> assumption

/-- A kind of field fits where it stands: it is no operand just where the word holds bits of something else, and its
class is the clause's. -/
def FieldKind.fits (cls : Nat) (raw : Bool) (k : FieldKind) : Bool := ((k == .raw) == raw) && k.inClass cls

theorem FieldKind.fits_of_plain {k : FieldKind} {cls : Nat} (h : k.plain = true) : k.fits cls false = true := by
  cases k with
  | raw | guarded | handle | handleOrPair => cases h
  | _ => rfl

/-- Offsets fill A, B and C, displacements C, and every other field is an operand, or nothing. -/
theorem Instr.fits (i : Instr) : i.shape.d.fits i.cls false = true ∧ i.shape.a.fits i.cls i.offBits.isSome = true ∧
    i.shape.b.fits i.cls i.offBits.isSome = true ∧
    i.shape.c.fits i.cls (i.offBits.isSome || i.dispBits.isSome) = true := by
  open FieldKind in
  cases i
  case cvt dst src rm =>
    exact ⟨fits_of_plain dst.dstKind_plain, fits_of_plain src.srcKind_plain, fits_of_plain (plain_ite rfl rfl), rfl⟩
  case f2i dst src rm => exact ⟨rfl, fits_of_plain src.srcKind_plain, rfl, rfl⟩
  case movsrRead => exact ⟨fits_of_plain (plain_ite rfl rfl), rfl, rfl, rfl⟩
  case movsrWrite | srwr => exact ⟨rfl, fits_of_plain (plain_ite rfl rfl), rfl, rfl⟩
  case ld size => exact ⟨fits_of_plain size.dstKind_plain, rfl, rfl, rfl⟩
  case st size => exact ⟨rfl, rfl, fits_of_plain size.srcKind_plain, rfl⟩
  case ldt size => exact ⟨fits_of_plain size.dstKind_plain, rfl, rfl, rfl⟩
  case stt size => exact ⟨rfl, rfl, rfl, fits_of_plain size.srcKind_plain⟩
  case atom => exact ⟨fits_of_plain (wordDst_plain _), rfl, fits_of_plain (wordSrc_plain _), rfl⟩
  case atomcas =>
    exact ⟨fits_of_plain (wordDst_plain _), rfl, fits_of_plain (wordSrc_plain _), fits_of_plain (wordSrc_plain _)⟩
  case red => exact ⟨rfl, rfl, fits_of_plain (wordSrc_plain _), fits_of_plain (plain_ite rfl rfl)⟩
  case waitw o _ _ _ =>
    refine ⟨rfl, rfl, fits_of_plain (wordSrc_plain _), ?_⟩
    obtain ⟨d, a, b, c⟩ := o
    cases a <;> rfl
  case mxdrain => exact ⟨rfl, rfl, fits_of_plain (plain_ite rfl rfl), fits_of_plain (plain_ite rfl rfl)⟩
  case spawn => exact ⟨fits_of_plain (plain_ite rfl rfl), rfl, rfl, rfl⟩
  case park => exact ⟨rfl, rfl, fits_of_plain (wordSrc_plain _), rfl⟩
  case tlbinv what => cases what <;> exact ⟨rfl, rfl, rfl, rfl⟩
  all_goals exact ⟨rfl, rfl, rfl, rfl⟩

/-! ## What stands in a field -/

theorem FieldKind.accepts_unlit (al : Alloc) (k : FieldKind) (x : Operand) : k.accepts al x.unlit = k.accepts al x := by
  cases x <;> rfl

/-- The operand that a field holds: one that its kind accepts, by its code; none where the field is no operand. -/
structure FieldKind.Holds (al : Alloc) (k : FieldKind) (code : BitVec 10) (x : Operand) : Prop where
  accepts : k.accepts al x = true
  bare : k.bare x = true
  code : k ≠ .raw → x.code = code

section Field
variable {al : Alloc} {k : FieldKind} {code : BitVec 10} {x : Operand}

theorem FieldKind.eq_none_of_bare (h : k.bare x = true) (hk : k = .raw ∨ k = .unused) : x = .none := by
  rcases hk with rfl | rfl <;> simpa [FieldKind.bare] using h

theorem FieldKind.Holds.ofCode (h : k.Holds al code x) (hk : k ≠ .raw) : Operand.ofCode code = some x.unlit := by
  rw [← h.code hk, Operand.ofCode_of_place (Operand.toNat_code x)]

theorem FieldKind.eq_guarded_of_accepts {i : Fin 64} (hr : k ≠ .raw) (h : k.accepts al (.g i) = true) :
    k = .guarded := by
  cases k with
  | raw => exact absurd rfl hr
  | guarded => rfl
  | _ => cases h

theorem FieldKind.eq_handle_of_accepts {i : Fin 192} (hr : k ≠ .raw) (h : k.accepts al (.t i) = true) :
    k = .handle ∨ k = .handleOrPair := by
  cases k with
  | raw => exact absurd rfl hr
  | handle => exact .inl rfl
  | handleOrPair => exact .inr rfl
  | _ => cases h

/-- A kind that accepts a guarded register or a tile is one of its class alone. -/
theorem FieldKind.Holds.operandClassOk (h : k.Holds al code x) {cls : Nat} (hc : k.inClass cls = true) :
    operandClassOk cls k code = true := by
  by_cases hr : k = .raw
  · rw [hr]; rfl
  obtain ⟨ha, -, -⟩ := id h
  unfold Sys2Proof.operandClassOk
  rw [h.ofCode hr]
  cases x with
  | g i =>
    obtain rfl := FieldKind.eq_guarded_of_accepts hr ha
    exact hc
  | t i =>
    obtain rfl | rfl := FieldKind.eq_handle_of_accepts hr ha <;> exact hc
  | _ => cases k <;> rfl

theorem FieldKind.Holds.unusedOk (h : k.Holds al code x) : unusedOk k code = true := by
  by_cases hk : k = .unused
  · subst hk
    rw [Sys2Proof.unusedOk, ← h.code (by decide), eq_none_of_bare h.bare (.inr rfl)]
    rfl
  · cases k with
    | unused => exact absurd rfl hk
    | _ => rfl

theorem fieldOperand_eq (hr : k ≠ .raw) (hu : k ≠ .unused) : fieldOperand k code = Operand.ofCode code := by
  cases k with
  | raw => exact absurd rfl hr
  | unused => exact absurd rfl hu
  | _ => rfl

theorem FieldKind.Holds.fieldOperand (h : k.Holds al code x) : (fieldOperand k code).getD .none = x.unlit := by
  by_cases hk : k = .raw ∨ k = .unused
  · rw [eq_none_of_bare h.bare hk]
    rcases hk with rfl | rfl <;> rfl
  · rw [not_or] at hk
    rw [fieldOperand_eq hk.1 hk.2, h.ofCode hk.1]
    rfl

theorem Operand.code_eq_lit_iff (x : Operand) : x.code = 0x3FE ↔ x.isLit = true := by
  constructor
  · intro h
    have hx := Operand.ofCode_of_place (Operand.toNat_code x)
    rw [h, show Operand.ofCode 0x3FE = some (.lit 0) by decide, Option.some.injEq] at hx
    rw [← isLit_unlit, ← hx]
    rfl
  · cases x with
    | lit v => exact fun _ => rfl
    | _ => exact fun h => Bool.noConfusion h

/-- Is the operand a literal, as a count (R83)? -/
def Operand.litBit (x : Operand) : Nat := if x.isLit then 1 else 0

theorem FieldKind.Holds.litBit (h : k.Holds al code x) : (if k != .raw && code == 0x3FE then 1 else 0) = x.litBit := by
  by_cases hk : k = .raw
  · rw [eq_none_of_bare h.bare (.inl hk), hk]
    rfl
  · have : (k != .raw && code == 0x3FE) = x.isLit := by
      rw [← h.code hk, bne_iff_ne.mpr hk, Bool.true_and, Bool.eq_iff_iff, beq_iff_eq, Operand.code_eq_lit_iff]
    rw [this, Operand.litBit]

theorem checkField_eq_none_iff {slot lits : Nat} {hasLit : Bool} (hk : k ≠ .raw) (hu : k ≠ .unused) :
    checkField al slot k code hasLit lits = none ↔ ∃ x, Operand.ofCode code = some x ∧
      (x.isLit = true → slot ≠ 0 ∧ hasLit = true ∧ lits < 2) ∧ k.accepts al x = true := by
  have : checkField al slot k code hasLit lits = match Operand.ofCode code with
      | none => some (.illegalOperand slot code.toNat)
      | some x =>
        if x.isLit && (slot == 0 || !hasLit || 2 ≤ lits) then some (.illegalOperand slot code.toNat)
        else if k.accepts al x then none
        else some (.illegalOperand slot code.toNat) := by
    cases k with
    | raw => exact absurd rfl hk
    | unused => exact absurd rfl hu
    | _ => rfl
  rw [this]
  cases Operand.ofCode code with
  | none => simp
  | some x =>
    simp only [Option.some.injEq, exists_eq_left']
    grind

theorem FieldKind.Holds.checkField (h : k.Holds al code x) {slot lits : Nat} {hasLit : Bool}
    (hl : x.isLit = true → slot ≠ 0 ∧ hasLit = true ∧ lits < 2) : checkField al slot k code hasLit lits = none := by
  by_cases hk : k = .raw
  · rw [hk]; rfl
  by_cases hu : k = .unused
  · rw [hu]; rfl
  refine (checkField_eq_none_iff hk hu).mpr ⟨x.unlit, h.ofCode hk, ?_, ?_⟩
  · rwa [Operand.isLit_unlit]
  · rw [accepts_unlit, h.accepts]

/-- A field that passes its checks holds what its code gives. -/
theorem FieldKind.holds_of_checks {slot lits : Nat} {hasLit : Bool} (hu : Sys2Proof.unusedOk k code = true)
    (hc : Sys2Proof.checkField al slot k code hasLit lits = none)
    (hx : x.unlit = (Sys2Proof.fieldOperand k code).getD .none) :
    k.Holds al code x ∧ (x.isLit = true → slot ≠ 0 ∧ hasLit = true ∧ lits < 2) := by
  by_cases hk : k = .raw ∨ k = .unused
  · have hn : x = .none := by
      have : x.unlit = .none := by rcases hk with rfl | rfl <;> exact hx
      cases x with
      | none => rfl
      | _ => cases this
    subst hn
    rcases hk with rfl | rfl
    · exact ⟨⟨rfl, rfl, fun h => absurd rfl h⟩, fun h => by cases h⟩
    · exact ⟨⟨rfl, rfl, fun _ => (beq_iff_eq.mp hu).symm⟩, fun h => by cases h⟩
  · rw [not_or] at hk
    obtain ⟨y, hy, lit, ok⟩ := (checkField_eq_none_iff hk.1 hk.2).mp hc
    rw [fieldOperand_eq hk.1 hk.2, hy, Option.getD_some] at hx
    refine ⟨⟨?_, ?_, fun _ => ?_⟩, ?_⟩
    · rw [← accepts_unlit, hx, ok]
    · cases k with
      | raw => exact absurd rfl hk.1
      | unused => exact absurd rfl hk.2
      | _ => rfl
    · rw [← Operand.code_unlit, hx, Operand.code_of_ofCode hy]
    · rwa [← Operand.isLit_unlit, hx]

end Field

/-! ## The literal slot (R83) -/

/-- The value of a literal. -/
def Operand.litVal : Operand → Option W32
  | .lit x => some x
  | _ => Option.none

@[simp] theorem Operand.isLit_lit (x : W32) : (Operand.lit x).isLit = true := rfl
@[simp] theorem Operand.unlit_lit (x : W32) : (Operand.lit x).unlit = .lit 0 := rfl
@[simp] theorem Operand.litVal_lit (x : W32) : (Operand.lit x).litVal = some x := rfl

theorem Operand.lit_cases (x : Operand) :
    (∃ v, x = .lit v) ∨ (x.isLit = false ∧ x.litVal = Option.none ∧ x.unlit = x) := by
  cases x with
  | lit v => exact .inl ⟨v, rfl⟩
  | _ => exact .inr ⟨rfl, rfl, rfl⟩

/-- The doubleword of some literals: the first in [63:32], the second in [31:0]. -/
def slotWord : List W32 → Option W64
  | [] => none
  | [x] => some (x ++ (0 : W32))
  | x :: y :: _ => some (x ++ y)

theorem litSlot_eq (o : Ops) : litSlot o = slotWord ([o.a, o.b, o.c].filterMap Operand.litVal) := by
  change slotWord (List.filterMap _ _) = slotWord _
  congr 2

theorem litCount_eq (o : Ops) : litCount o = o.a.litBit + o.b.litBit + o.c.litBit := rfl

/-- Operands as their codes alone give them. -/
def Ops.unlit (o : Ops) : Ops := ⟨o.d.unlit, o.a.unlit, o.b.unlit, o.c.unlit⟩

theorem litCount_unlit (o : Ops) : litCount o.unlit = litCount o := by
  simp only [litCount, Ops.unlit, Operand.isLit_unlit]

theorem unlit_fillLits (o : Ops) (l : W64) : (fillLits o l).unlit = o.unlit := by
  obtain ⟨d, a, b, c⟩ := o
  rcases a.lit_cases with ⟨x, rfl⟩ | ⟨ha, -, ea⟩ <;> rcases b.lit_cases with ⟨y, rfl⟩ | ⟨hb, -, eb⟩ <;>
    rcases c.lit_cases with ⟨z, rfl⟩ | ⟨hc, -, ec⟩ <;> simp [fillLits, Ops.unlit, *]

theorem append_hi (x y : W32) : (x ++ y).extractLsb' 32 32 = x := BitVec.extractLsb'_append_eq_left
theorem append_lo (x y : W32) : (x ++ y).extractLsb' 0 32 = y := BitVec.extractLsb'_append_eq_right

theorem append_halves (l : W64) : l.extractLsb' 32 32 ++ l.extractLsb' 0 32 = l := by
  rw [BitVec.extractLsb'_append_extractLsb'_eq_extractLsb' (by rfl : 32 = 0 + 32)]
  exact BitVec.extractLsb'_eq_self

theorem litSlot_isSome (o : Ops) : (litSlot o).isSome = true ↔ litCount o ≠ 0 := by
  obtain ⟨d, a, b, c⟩ := o
  rw [litSlot_eq]
  rcases a.lit_cases with ⟨x, rfl⟩ | ⟨ha, va, -⟩ <;> rcases b.lit_cases with ⟨y, rfl⟩ | ⟨hb, vb, -⟩ <;>
    rcases c.lit_cases with ⟨z, rfl⟩ | ⟨hc, vc, -⟩ <;>
    simp [litCount, List.filterMap, slotWord, *]

/-- The literal slot gives the literals back. -/
theorem fillLits_litSlot {o : Ops} (hd : o.d.isLit = false) (h : litCount o ≤ 2) :
    fillLits o.unlit ((litSlot o).getD 0) = o := by
  obtain ⟨d, a, b, c⟩ := o
  have ed : d.unlit = d := by rcases d.lit_cases with ⟨x, rfl⟩ | ⟨-, -, e⟩; cases hd; exact e
  rw [litSlot_eq]
  rcases a.lit_cases with ⟨x, rfl⟩ | ⟨ha, va, ea⟩ <;> rcases b.lit_cases with ⟨y, rfl⟩ | ⟨hb, vb, eb⟩ <;>
    rcases c.lit_cases with ⟨z, rfl⟩ | ⟨hc, vc, ec⟩ <;>
    simp_all [litCount, fillLits, Ops.unlit, List.filterMap, slotWord, append_hi, append_lo]

/-- With one literal, [31:0] of the slot are 0. -/
theorem litSlot_low {o : Ops} (h : litCount o = 1) {l : W64} (hl : litSlot o = some l) : l.extractLsb' 0 32 = 0 := by
  obtain ⟨d, a, b, c⟩ := o
  rw [litSlot_eq] at hl
  rcases a.lit_cases with ⟨x, rfl⟩ | ⟨ha, va, ea⟩ <;> rcases b.lit_cases with ⟨y, rfl⟩ | ⟨hb, vb, eb⟩ <;>
    rcases c.lit_cases with ⟨z, rfl⟩ | ⟨hc, vc, ec⟩ <;>
    simp_all [litCount, List.filterMap, slotWord]
  all_goals subst hl; exact append_lo _ _

/-- Literals filled in from a slot give the slot back: it has no bit beside them. -/
theorem litSlot_fillLits {o : Ops} {l : W64} (h0 : litCount o ≠ 0) (h : litCount o ≤ 2)
    (low : litCount o = 1 → l.extractLsb' 0 32 = 0) : litSlot (fillLits o l) = some l := by
  obtain ⟨d, a, b, c⟩ := o
  have hl := append_halves l
  rw [litSlot_eq]
  rcases a.lit_cases with ⟨x, rfl⟩ | ⟨ha, va, ea⟩ <;> rcases b.lit_cases with ⟨y, rfl⟩ | ⟨hb, vb, eb⟩ <;>
    rcases c.lit_cases with ⟨z, rfl⟩ | ⟨hc, vc, ec⟩ <;>
    simp_all [litCount, fillLits, List.filterMap, slotWord]

end Sys2Proof
end

section
/-! SUPPORT. Decoding and encoding agree: what the decoder takes for an instruction, and an instruction's own word
(spec/04 R75 to R85, spec/06 R93 to R98). -/

namespace Sys2Proof

/-! ## The checks of a word's four fields -/

/-- The operands that the fields of a word hold. -/
structure Shape.Holds (al : Alloc) (sh : Shape) (r : RawWord) (o : Ops) : Prop where
  d : sh.d.Holds al r.d o.d
  a : sh.a.Holds al r.a o.a
  b : sh.b.Holds al r.b o.b
  c : sh.c.Holds al r.c o.c

/-- Literals stand as R83 has them: none in D, at most two, and with a literal slot. -/
def Ops.litsOk (o : Ops) (hasLit : Bool) : Prop :=
  o.d.isLit = false ∧ litCount o ≤ 2 ∧ (litCount o ≠ 0 → hasLit = true)

section Word
variable {al : Alloc} {sh : Shape} {r : RawWord} {o : Ops} {cls : Nat} {hasLit : Bool}

theorem Shape.Holds.rawOps (h : sh.Holds al r o) : rawOps sh r = o.unlit := by
  rw [Sys2Proof.rawOps, h.d.fieldOperand, h.a.fieldOperand, h.b.fieldOperand, h.c.fieldOperand]
  rfl

theorem Shape.Holds.unusedFields (h : sh.Holds al r o) : unusedFields sh r = true := by
  rw [Sys2Proof.unusedFields, h.d.unusedOk, h.a.unusedOk, h.b.unusedOk, h.c.unusedOk]
  rfl

theorem classFields_eq_none_iff : classFields cls sh r = none ↔ operandClassOk cls sh.d r.d = true ∧
    operandClassOk cls sh.a r.a = true ∧ operandClassOk cls sh.b r.b = true ∧ operandClassOk cls sh.c r.c = true := by
  simp [classFields]

theorem checkFields_eq_none_iff : checkFields al sh r hasLit = none ↔ checkField al 0 sh.d r.d hasLit 0 = none ∧
    checkField al 1 sh.a r.a hasLit 0 = none ∧
    checkField al 2 sh.b r.b hasLit (if sh.a != .raw && r.a == 0x3FE then 1 else 0) = none ∧
    checkField al 3 sh.c r.c hasLit ((if sh.a != .raw && r.a == 0x3FE then 1 else 0) +
      if sh.b != .raw && r.b == 0x3FE then 1 else 0) = none := by
  simp [checkFields]

theorem Operand.litBit_eq (x : Operand) : x.litBit = if x.isLit then 1 else 0 := rfl

theorem Shape.Holds.checkFields (h : sh.Holds al r o) (lits : o.litsOk hasLit) : checkFields al sh r hasLit = none := by
  obtain ⟨hd, two, slot⟩ := lits
  rw [litCount_eq] at two slot
  rw [checkFields_eq_none_iff, h.a.litBit, h.b.litBit]
  have one : ∀ x : Operand, x.isLit = true → x.litBit = 1 := fun x hx => by rw [Operand.litBit_eq, if_pos hx]
  refine ⟨h.d.checkField fun e => ?_, h.a.checkField fun e => ?_, h.b.checkField fun e => ?_,
    h.c.checkField fun e => ?_⟩
  · rw [hd] at e; cases e
  · have := one _ e
    exact ⟨by decide, slot (by omega), by decide⟩
  · have := one _ e
    exact ⟨by decide, slot (by omega), by omega⟩
  · have := one _ e
    exact ⟨by decide, slot (by omega), by omega⟩

theorem Operand.unlit_of_ofCode {c : BitVec 10} {x : Operand} (h : Operand.ofCode c = some x) : x.unlit = x :=
  Option.some.inj ((Operand.ofCode_of_place (Operand.place_of_ofCode h).symm).symm.trans h)

theorem unlit_fieldOperand (k : FieldKind) (code : BitVec 10) :
    ((fieldOperand k code).getD .none).unlit = (fieldOperand k code).getD .none := by
  by_cases hk : k = .raw ∨ k = .unused
  · rcases hk with rfl | rfl <;> rfl
  · rw [not_or] at hk
    rw [fieldOperand_eq hk.1 hk.2]
    cases h : Operand.ofCode code with
    | none => rfl
    | some x => exact Operand.unlit_of_ofCode h

theorem unlit_rawOps (sh : Shape) (r : RawWord) : (rawOps sh r).unlit = rawOps sh r := by
  simp only [rawOps, Ops.unlit, unlit_fieldOperand]

/-- A word that passes its field checks holds the operands of its codes, whatever its literals are. -/
theorem Shape.holds_of_checks (hu : Sys2Proof.unusedFields sh r = true)
    (hc : Sys2Proof.checkFields al sh r hasLit = none) (ho : o.unlit = Sys2Proof.rawOps sh r) :
    sh.Holds al r o ∧ o.litsOk hasLit := by
  simp only [Sys2Proof.unusedFields, Bool.and_eq_true] at hu
  obtain ⟨⟨⟨ud, ua⟩, ub⟩, uc⟩ := hu
  obtain ⟨cd, ca, cb, cc⟩ := checkFields_eq_none_iff.mp hc
  simp only [Ops.unlit, Sys2Proof.rawOps, Ops.mk.injEq] at ho
  obtain ⟨od, oa, ob, oc⟩ := ho
  obtain ⟨hd, ld⟩ := FieldKind.holds_of_checks ud cd od
  obtain ⟨ha, la⟩ := FieldKind.holds_of_checks ua ca oa
  obtain ⟨hb, lb⟩ := FieldKind.holds_of_checks ub cb ob
  obtain ⟨hc, lc⟩ := FieldKind.holds_of_checks uc cc oc
  rw [ha.litBit] at lb
  rw [ha.litBit, hb.litBit] at lc
  refine ⟨⟨hd, ha, hb, hc⟩, Bool.eq_false_iff.mpr fun e => (ld e).1 rfl, ?_, fun h => ?_⟩
  · rw [litCount_eq]
    simp only [Operand.litBit_eq] at lc ⊢
    grind
  · rw [litCount_eq] at h
    simp only [Operand.litBit_eq] at h
    grind

end Word

/-! ## The decoder -/

/-- What the decoder asks of a word that it takes for an instruction. -/
structure Decodes (al : Alloc) (cls : Nat) (r : RawWord) (lit : Option W64) (i j : Instr) : Prop where
  opcode : r.opc.toNat = 0 ∨ opcodeClass r.opc.toNat = cls
  build : buildInstr r.opc.toNat r.guard (codeOps r) r = .ok i
  classes : classFields cls i.shape r = none
  unused : unusedFields i.shape r = true
  low : litCount (rawOps i.shape r) = 1 → ∀ l, lit = some l → l.extractLsb' 0 32 = 0
  fields : checkFields al i.shape r lit.isSome = none
  finish : finishInstr r.opc.toNat r i.shape (lit.getD 0) = .ok j

theorem lowBits_iff (n : Nat) (lit : Option W64) :
    (decide (n = 1) && lit.any fun l => l.extractLsb' 0 32 != 0) = true ↔
      ¬ (n = 1 → ∀ l, lit = some l → l.extractLsb' 0 32 = 0) := by
  cases lit <;> simp

theorem decode_eq_ok_iff {al : Alloc} {cls : Nat} {w : W64} {lit : Option W64} {j : Instr} :
    decode al cls w lit = .ok j ↔ ∃ i, Decodes al cls (RawWord.ofWord w) lit i j := by
  unfold decode
  generalize RawWord.ofWord w = r
  simp only [lowBits_iff]
  constructor
  · intro h
    split at h
    · cases h
    next opcode =>
    split at h
    · split at h <;> cases h
    · split at h
      · cases h
      · repeat' split at h
        all_goals cases h
    next i build =>
    split at h
    · cases h
    next classes =>
    split at h
    · cases h
    next unused =>
    split at h
    · cases h
    next low =>
    split at h
    · cases h
    next fields =>
    split at h
    next finish =>
      cases h
      exact ⟨i, by tauto, build, classes, by simpa using unused, by tauto, fields, finish⟩
    · cases h
  · rintro ⟨i, opcode, build, classes, unused, low, fields, finish⟩
    rw [if_neg (by tauto), build]
    simp only [classes, unused, fields, finish, Bool.not_true, Bool.false_eq_true, if_false]
    rw [if_neg (by tauto)]

/-! ## Encoding and decoding -/

section RoundTrip
variable {al : Alloc} {cls opc : Nat} {g : Guard} {o o' : Ops} {r : RawWord} {i j : Instr} {lit : Option W64} {w : W64}

/-- The same opcode and MOD with other operands. -/
theorem Reads.withOps (h : Reads opc g o r i) (o' : Ops) : Reads opc g o' r (i.onWord g o' r.c r.off) where
  word := by rw [Instr.word_onWord, h.word]
  opcode := by rw [Instr.opcode_onWord, h.opcode]
  mod := by rw [Instr.modBits_onWord, h.mod]
  modsOk := by rw [Instr.modsOk_onWord, h.modsOk]
  onWord := Instr.onWord_onWord

theorem FieldKind.raw_of_fits {k : FieldKind} {raw : Bool} (h : k.fits cls raw = true) : k = .raw ↔ raw = true := by
  simp only [FieldKind.fits, Bool.and_eq_true, beq_iff_eq] at h
  rw [← h.1, beq_iff_eq]

theorem FieldKind.inClass_of_fits {k : FieldKind} {raw : Bool} (h : k.fits cls raw = true) : k.inClass cls = true := by
  simp only [FieldKind.fits, Bool.and_eq_true] at h
  exact h.2

theorem rawWord_opc (i : Instr) (g : Guard) (o : Ops) : (i.rawWord g o).opc.toNat = i.opcode := by
  have : (i.rawWord g o).opc = BitVec.ofNat 8 i.opcode := by unfold Instr.rawWord; cases i.offBits <;> rfl
  rw [this, BitVec.toNat_ofNat, Nat.mod_eq_of_lt i.opcode_lt]

theorem rawWord_mod (i : Instr) (g : Guard) (o : Ops) : (i.rawWord g o).mod.toNat = i.modBits := by
  have : (i.rawWord g o).mod = BitVec.ofNat 12 i.modBits := by unfold Instr.rawWord; cases i.offBits <;> rfl
  rw [this, BitVec.toNat_ofNat, Nat.mod_eq_of_lt i.modBits_lt]

theorem rawWord_guard (i : Instr) (g : Guard) (o : Ops) : (i.rawWord g o).guard = g := by
  have hn : (i.rawWord g o).pneg = if g.neg then 1 else 0 := by unfold Instr.rawWord; cases i.offBits <;> rfl
  have hp : (i.rawWord g o).pidx = BitVec.ofNat 3 g.idx.val := by unfold Instr.rawWord; cases i.offBits <;> rfl
  obtain ⟨neg, idx⟩ := g
  rw [RawWord.guard, hn, hp]
  congr 1
  · cases neg <;> rfl
  · exact Fin.ext (by simp)

theorem rawWord_off (i : Instr) (g : Guard) (o : Ops) {f : BitVec 30} (h : i.offBits = some f) :
    (i.rawWord g o).off = f := by
  unfold Instr.rawWord
  rw [h]
  exact RawWord.off_of_extract rfl rfl rfl

theorem Instr.offBits_eq_none_of_dispBits (i : Instr) {d : BitVec 10} (h : i.dispBits = some d) : i.offBits = none := by
  cases i with
  | bra | call | meet | spawn => cases h
  | _ => rfl

theorem rawWord_disp (i : Instr) (g : Guard) (o : Ops) {d : BitVec 10} (h : i.dispBits = some d) :
    (i.rawWord g o).c = d := by
  have := i.offBits_eq_none_of_dispBits h
  unfold Instr.rawWord
  rw [this, h]
  rfl

theorem rawWord_codes (i : Instr) (g : Guard) (o : Ops) : (i.rawWord g o).d = o.d.code ∧
    (i.offBits = none → (i.rawWord g o).a = o.a.code ∧ (i.rawWord g o).b = o.b.code ∧
      (i.dispBits = none → (i.rawWord g o).c = o.c.code)) := by
  unfold Instr.rawWord
  cases i.offBits with
  | none => exact ⟨rfl, fun _ => ⟨rfl, rfl, fun h => by simp only [h]; rfl⟩⟩
  | some f => exact ⟨rfl, fun h => by cases h⟩

/-- The word of an instruction holds the instruction's opcode, MOD, guard and operands. -/
theorem reads_rawWord (hf : i.fields = some (g, o)) (ok : i.modsOk = true) :
    Reads i.opcode g o (i.rawWord g o) i where
  word := by rw [hf]; rfl
  opcode := rfl
  mod := (rawWord_mod i g o).symm
  modsOk := ok
  onWord := Instr.onWord_of_fields hf (fun _ h => (rawWord_disp i g o h).symm) fun _ h => (rawWord_off i g o h).symm

theorem accepts_iff {sh : Shape} : sh.accepts al o = true ↔
    (sh.d.accepts al o.d = true ∧ sh.a.accepts al o.a = true ∧ sh.b.accepts al o.b = true ∧
      sh.c.accepts al o.c = true) ∧
      sh.bare o := by
  simp only [Shape.accepts, Shape.bare, Bool.and_eq_true]
  tauto

/-- A word with the codes of accepted operands holds them. -/
theorem holds_rawWord (h : i.shape.accepts al o = true) : i.shape.Holds al (i.rawWord g o) o := by
  obtain ⟨⟨ad, aa, ab, ac⟩, bd, ba, bb, bc⟩ := accepts_iff.mp h
  obtain ⟨fd, fa, fb, fc⟩ := i.fits
  obtain ⟨hd, habc⟩ := rawWord_codes i g o
  have off : ∀ {k : FieldKind}, k.fits i.cls i.offBits.isSome = true → k ≠ .raw → i.offBits = none := fun f h =>
    Option.not_isSome_iff_eq_none.mp fun e => h ((FieldKind.raw_of_fits f).mpr e)
  refine ⟨⟨ad, bd, fun _ => hd.symm⟩, ⟨aa, ba, fun h => ?_⟩, ⟨ab, bb, fun h => ?_⟩, ⟨ac, bc, fun h => ?_⟩⟩
  · exact (habc (off fa h)).1.symm
  · exact (habc (off fb h)).2.1.symm
  · have := mt (FieldKind.raw_of_fits fc).mpr h
    simp only [Bool.or_eq_true, not_or, Option.not_isSome_iff_eq_none] at this
    exact ((habc this.1).2.2 this.2).symm

theorem RawWord.eq_of_parts {r s : RawWord} (opc : r.opc.toNat = s.opc.toNat) (mod : r.mod.toNat = s.mod.toNat)
    (guard : r.guard = s.guard) (d : r.d = s.d) (a : r.a = s.a) (b : r.b = s.b) (c : r.c = s.c) : r = s := by
  obtain ⟨_, _, _, _, _, n, x, _⟩ := r
  obtain ⟨_, _, _, _, _, n', x', _⟩ := s
  simp only [RawWord.guard, Guard.mk.injEq, decide_eq_decide] at guard
  obtain ⟨hn, hx⟩ := guard
  have hn : n = n' := by
    rcases BitVec.eq_zero_or_eq_one n with rfl | rfl <;> rcases BitVec.eq_zero_or_eq_one n' with rfl | rfl <;> simp_all
  have hx : x = x' := BitVec.eq_of_toNat_eq (congrArg Fin.val hx)
  simp only [RawWord.mk.injEq]
  exact ⟨BitVec.eq_of_toNat_eq opc, d, a, b, c, hn, hx, BitVec.eq_of_toNat_eq mod⟩

/-- The word that an instruction was read from is its own. -/
theorem rawWord_eq (hr : Reads r.opc.toNat r.guard o r i) (hh : i.shape.Holds al r o) : i.rawWord r.guard o = r := by
  obtain ⟨hd, ha, hb, hc⟩ := hh
  obtain ⟨fd, fa, fb, fc⟩ := i.fits
  have keep : ∀ {k : FieldKind} {raw : Bool}, k.fits i.cls raw = true → raw = false → k ≠ .raw := fun f e h => by
    rw [(FieldKind.raw_of_fits f).mp h] at e
    cases e
  obtain ⟨ed, eabc⟩ := rawWord_codes i r.guard o
  have abc : (i.rawWord r.guard o).a = r.a ∧ (i.rawWord r.guard o).b = r.b ∧ (i.rawWord r.guard o).c = r.c := by
    cases ho : i.offBits with
    | some f =>
      obtain rfl := Instr.offBits_of_onWord hr.onWord ho
      have := (i.rawWord r.guard o).extract_off
      rw [rawWord_off i r.guard o ho] at this
      obtain ⟨a, b, c⟩ := r.extract_off
      exact ⟨this.1.symm.trans a, this.2.1.symm.trans b, this.2.2.symm.trans c⟩
    | none =>
      rw [ho] at fa fb fc
      obtain ⟨ea, eb, ec⟩ := eabc ho
      refine ⟨ea.trans (ha.code (keep fa rfl)), eb.trans (hb.code (keep fb rfl)), ?_⟩
      cases hp : i.dispBits with
      | some d => rw [rawWord_disp i r.guard o hp, Instr.dispBits_of_onWord hr.onWord hp]
      | none =>
        rw [hp] at fc
        exact (ec hp).trans (hc.code (keep fc rfl))
  obtain ⟨a, b, c⟩ := abc
  exact RawWord.eq_of_parts ((rawWord_opc i _ o).trans hr.opcode) ((rawWord_mod i _ o).trans hr.mod)
    (rawWord_guard i _ o) (ed.trans (hd.code (keep fd rfl))) a b c

theorem encode_of_fields (hf : i.fields = some (g, o)) : encode i = (i.rawWord g o).toWord :: (litSlot o).toList := by
  unfold encode
  rw [hf]
  dsimp only
  cases litSlot o <;> rfl

theorem Operand.isTile_unlit (x : Operand) : x.unlit.isTile = x.isTile := by cases x <;> rfl

/-- The first pass of the decoder, with operands by their codes alone, sees the right fields. -/
theorem shape_codeOps {disp disp' : BitVec 10} {off off' : BitVec 30}
    (h : i.shape.a = .handleOrPair → Operand.ofCode r.a = some o.a.unlit) :
    (i.onWord g (codeOps r) disp off).shape = (i.onWord g o disp' off').shape :=
  Instr.shape_onWord fun e => by rw [codeOps, h e, Option.getD_some, Operand.isTile_unlit]

/-- A word that holds the operands of an instruction, with its literal slot, decodes to it. -/
theorem decodes_of_reads (hr : Reads r.opc.toNat r.guard o r i) (hh : i.shape.Holds al r o)
    (lits : o.litsOk (litSlot o).isSome) :
    Decodes al i.cls r (litSlot o) (i.onWord r.guard (codeOps r) r.c r.off) i := by
  obtain ⟨fd, fa, fb, fc⟩ := i.fits
  have shape : (i.onWord r.guard (codeOps r) r.c r.off).shape = i.shape := by
    have := shape_codeOps (g := r.guard) (disp := r.c) (off := r.off) (disp' := r.c) (off' := r.off)
      fun e => hh.a.ofCode (by rw [e]; decide)
    rwa [hr.onWord] at this
  refine ⟨.inr (congrArg opcodeClass hr.opcode.symm), buildInstr_of_reads (hr.withOps _), ?_, ?_, ?_, ?_, ?_⟩
  all_goals rw [shape]
  · exact classFields_eq_none_iff.mpr ⟨hh.d.operandClassOk (FieldKind.inClass_of_fits fd),
      hh.a.operandClassOk (FieldKind.inClass_of_fits fa), hh.b.operandClassOk (FieldKind.inClass_of_fits fb),
      hh.c.operandClassOk (FieldKind.inClass_of_fits fc)⟩
  · exact hh.unusedFields
  · rw [hh.rawOps, litCount_unlit]
    exact fun one _ => litSlot_low one
  · exact hh.checkFields lits
  · rw [finishInstr, hh.rawOps, fillLits_litSlot lits.1 lits.2.1]
    exact buildInstr_of_reads hr

theorem decode_encode (hf : i.fields = some (g, o)) (hwf : i.wfIn al = true) :
    decode al i.cls (i.rawWord g o).toWord (litSlot o) = .ok i := by
  simp only [Instr.wfIn, hf, Bool.and_eq_true, Bool.not_eq_true', decide_eq_true_eq] at hwf
  obtain ⟨⟨⟨mods, acc⟩, nolit⟩, two⟩ := hwf
  have reads := reads_rawWord hf mods
  rw [← rawWord_opc i g o] at reads
  nth_rewrite 2 [← rawWord_guard i g o] at reads
  rw [decode_eq_ok_iff, RawWord.ofWord_toWord]
  exact ⟨_, decodes_of_reads reads (holds_rawWord acc) ⟨nolit, two, (litSlot_isSome o).mpr⟩⟩

/-- Settles O55: the fields of a well-formed instruction's word hold its operands, and its opcode and MOD read as the
instruction they were taken from. -/
theorem decodeOfEncode : Obligations.DecodeOfEncode := by
  unfold Obligations.DecodeOfEncode
  intro al i g o hf hwf
  have he := encode_of_fields hf
  rw [Claims.firstWord, he]
  exact ⟨decode_encode hf hwf, rfl⟩

/-- What a decoded word gives: an instruction read from it, whose fields hold the operands of their codes. -/
theorem Decodes.holds (h : Decodes al cls r lit i j) : ∃ o, Reads r.opc.toNat r.guard o r j ∧ j.shape.Holds al r o ∧
    o.litsOk lit.isSome ∧ (litSlot o = none ∨ ∃ l, lit = some l ∧ litSlot o = some l) := by
  obtain ⟨-, build, -, unused, low, fields, finish⟩ := h
  have ri := reads_of_buildInstr build
  have rj := reads_of_buildInstr finish
  have unlit := (unlit_fillLits (rawOps i.shape r) (lit.getD 0)).trans (unlit_rawOps i.shape r)
  have count : litCount (fillLits (rawOps i.shape r) (lit.getD 0)) = litCount (rawOps i.shape r) := by
    rw [← litCount_unlit, unlit]
  obtain ⟨holds, lits⟩ := Shape.holds_of_checks unused fields unlit
  have shape : j.shape = i.shape := by
    have := shape_codeOps (g := r.guard) (disp := r.c) (off := r.off) (disp' := r.c) (off' := r.off)
      fun e => holds.a.ofCode (by rw [e]; decide)
    rw [ri.onWord] at this
    rw [this, ModResult.ok.inj (finish.symm.trans (buildInstr_of_reads (ri.withOps _)))]
  refine ⟨_, rj, shape ▸ holds, lits, ?_⟩
  obtain ⟨-, two, slot⟩ := lits
  by_cases zero : litCount (fillLits (rawOps i.shape r) (lit.getD 0)) = 0
  · exact .inl (Option.not_isSome_iff_eq_none.mp fun e => (litSlot_isSome _).mp e zero)
  · obtain ⟨l, rfl⟩ := Option.isSome_iff_exists.mp (slot zero)
    exact .inr ⟨l, rfl, litSlot_fillLits (count ▸ zero) (count ▸ two) fun one => low one l rfl⟩

theorem Instr.eq_nop (word : i.fields.isSome = true) (h : i.opcode = 0) : ∃ g, i = .nop g := by
  cases i
  case nop g => exact ⟨g, rfl⟩
  all_goals cases h <;> cases word

theorem wfIn_of_holds (hr : Reads opc g o r i) (hf : i.fields = some (g, o)) (hh : i.shape.Holds al r o)
    {hasLit : Bool} (lits : o.litsOk hasLit) : i.wfIn al = true := by
  obtain ⟨nolit, two, -⟩ := lits
  have acc : i.shape.accepts al o = true := accepts_iff.mpr ⟨⟨hh.d.accepts, hh.a.accepts, hh.b.accepts, hh.c.accepts⟩,
    hh.d.bare, hh.a.bare, hh.b.bare, hh.c.bare⟩
  simp only [Instr.wfIn, hf, hr.modsOk, acc, nolit, Bool.not_false, Bool.and_self, Bool.true_and, decide_eq_true_eq]
  exact two

/-- Settles O56: a word that decodes holds the operands of the instruction that it gives, and opcode, MOD and guard are
its own too, so that its encoding is the word. -/
theorem encodeOfDecode : Obligations.EncodeOfDecode := by
  unfold Obligations.EncodeOfDecode
  intro al cls w lit j h
  obtain ⟨i, hi⟩ := decode_eq_ok_iff.mp h
  obtain ⟨o, reads, holds, lits, slot⟩ := hi.holds
  have hf := Instr.fields_of_onWord reads.word reads.onWord ⟨holds.d.bare, holds.a.bare, holds.b.bare, holds.c.bare⟩
  have he : encode j = w :: (litSlot o).toList := by
    rw [encode_of_fields hf, rawWord_eq reads holds, RawWord.toWord_ofWord]
  refine ⟨wfIn_of_holds reads hf holds lits, ?_, ?_, ?_⟩
  · rcases hi.opcode with zero | cls
    · exact .inr (Instr.eq_nop reads.word (reads.opcode.trans zero))
    · exact .inl ((congrArg opcodeClass reads.opcode).trans cls)
  · rw [Claims.firstWord, he]
    rfl
  · rcases slot with none | ⟨l, hl, some⟩
    · exact .inl (by rw [he, none]; rfl)
    · exact .inr ⟨l, hl, by rw [he, some]; rfl⟩

end RoundTrip

end Sys2Proof
end

section
/-! SUPPORT. Words that are no instruction: the reserved opcodes, and the order of the first two checks (spec/04 R85,
spec/06 R93, R94). -/

namespace Sys2Proof

/-- The reserved opcodes, as the ranges that the tables of spec/06 R93 leave free. -/
theorem opcodeReserved_iff (opc : Nat) :
    opcodeReserved opc = true ↔ (0x49 ≤ opc ∧ opc < 0x60) ∨ opc = 0x6E ∨ opc = 0x6F ∨
      (0x83 ≤ opc ∧ opc < 0xA0) ∨ (0xB2 ≤ opc ∧ opc < 0xC0) ∨ (0xCD ≤ opc ∧ opc < 0xE0) ∨ 0xE4 ≤ opc := by
  simp [opcodeReserved, or_assoc]

/-- No table of the decoder has a row for a reserved opcode, whatever MOD and the operands are. -/
theorem buildInstr_of_opcodeReserved {opc : Nat} (g : Guard) (o : Ops) (r : RawWord) (hlt : opc < 256)
    (h : opcodeReserved opc = true) : buildInstr opc g o r = .reserved := by
  obtain h | h | h | h | h | h | h := (opcodeReserved_iff opc).1 h
  · obtain ⟨hlo, hhi⟩ := h
    interval_cases opc <;> rfl
  · subst h; rfl
  · subst h; rfl
  · obtain ⟨hlo, hhi⟩ := h
    interval_cases opc <;> rfl
  · obtain ⟨hlo, hhi⟩ := h
    interval_cases opc <;> rfl
  · obtain ⟨hlo, hhi⟩ := h
    interval_cases opc <;> rfl
  · interval_cases opc <;> rfl

/-- The class is looked at first: an opcode of another class than the clause's, NOP's apart, is CLASS (spec/04 R85). -/
theorem decode_of_otherClass {al : Alloc} {cls : Nat} {w : W64} {lit : Option W64}
    (h : (RawWord.ofWord w).opc.toNat ≠ 0 ∧ opcodeClass (RawWord.ofWord w).opc.toNat ≠ cls) :
    decode al cls w lit = .error (.cls 0x3FF) := by
  simp only [decode, if_pos h]

/-- Within the clause's class a reserved opcode is ILLEGAL_OP before any field is looked at (spec/06 R93, R94). -/
theorem decode_of_opcodeReserved {al : Alloc} {cls : Nat} {w : W64} {lit : Option W64}
    (hc : opcodeClass (RawWord.ofWord w).opc.toNat = cls)
    (h : opcodeReserved (RawWord.ofWord w).opc.toNat = true) : decode al cls w lit = .error .illegalOp := by
  have hb := buildInstr_of_opcodeReserved (RawWord.ofWord w).guard (codeOps (RawWord.ofWord w)) (RawWord.ofWord w)
    (RawWord.ofWord w).opc.isLt h
  have hown : ¬ ((RawWord.ofWord w).opc.toNat ≠ 0 ∧ opcodeClass (RawWord.ofWord w).opc.toNat ≠ cls) := fun hn => hn.2 hc
  simp only [decode, if_neg hown, hb, if_pos h]

/-- The two checks that come before every field. -/
theorem refusedWords : Claims.RefusedWords := by
  intro al cls w lit opc own
  have hopc : (RawWord.ofWord w).opc.toNat = opc := RawWord.toNat_opc w
  refine ⟨fun h0 hcls => decode_of_otherClass ?_, fun hcls hres => decode_of_opcodeReserved ?_ ?_⟩ <;> rw [hopc]
  · exact ⟨h0, hcls⟩
  · exact hcls
  · exact (opcodeReserved_iff opc).2 hres

/-- Each word of the tables is evaluated by the decoder. -/
theorem wordsDecoded : Claims.WordsDecoded :=
  ⟨by decide, by decide, by decide, by decide, by decide, by decide, by decide, by decide, by decide, by decide,
    by decide, by decide, by decide, by decide⟩

/-- Settles O60: fourteen words of the tables are decoded, and a word of another class or of a reserved opcode is
refused before its other bits are looked at. -/
theorem decodedWords : Obligations.DecodedWords := ⟨wordsDecoded, refusedWords⟩

end Sys2Proof
end

section
/-! SUPPORT. A group's turn: the slot that is decoded and run, the word that faults, what follows a slot, and the
words of a clause (spec/04 R69 to R76, R85). -/

namespace Sys2Proof.Machine
open Claims

/-! ## The slot at hand -/

/-- An instruction has operand fields exactly when it has words: an event has none. -/
theorem fields_eq_none_iff (i : Instr) : i.fields = none ↔ encode i = [] := by
  unfold encode
  cases i.fields with
  | none => exact iff_of_true rfl rfl
  | some f =>
    dsimp only
    split <;> simp

/-- An instruction takes as many slots as it has words. -/
theorem slotsOf_eq_length {i : Instr} (h : encode i ≠ []) : slotsOf i = (encode i).length := by
  obtain ⟨f, hf⟩ := Option.ne_none_iff_exists'.1 fun hn => h ((fields_eq_none_iff i).1 hn)
  unfold slotsOf encode
  rw [hf]
  dsimp only
  cases litSlot f.2 <;> rfl

/-- A decoded instruction has a word. -/
theorem encode_ne_nil_of_decode {al : Alloc} {cls : Nat} {w : W64} {lit : Option W64} {i : Instr}
    (h : decode al cls w lit = .ok i) : encode i ≠ [] := by
  obtain ⟨-, -, -, hlen | ⟨l, -, hl⟩⟩ := encodeOfDecode al cls w lit i h
  · exact List.ne_nil_of_length_pos (hlen ▸ Nat.one_pos)
  · exact hl ▸ List.cons_ne_nil _ _

/-- The group that the current slot is taken from. -/
theorem State.group_of_cur {s : State} {k : Nat} {g : Group} (h : tfind s.groups k = some g) :
    ({ s with cur := some k } : State).group = g := by
  dsimp only [State.group]
  rw [tget_eq, h]; rfl

theorem classOf_eq (h : W64) : classOf h = h.toNat / 2 ^ 56 % 16 := field_eq_div_mod h 56 4

theorem nslot_eq (h : W64) : nslot h = h.toNat / 2 ^ 52 % 16 := field_eq_div_mod h 52 4

theorem opcode_eq (w : W64) : field w 56 8 = w.toNat / 2 ^ 56 := field_top w rfl

/-- What the current slot decodes to. -/
theorem State.slotDecode_of_cur {s : State} {k : Nat} {g : Group} (h : tfind s.groups k = some g) :
    ({ s with cur := some k } : State).slotDecode =
      decode (allocated { s with cur := some k }) (g.header.toNat / 2 ^ 56 % 16) (g.words.getD g.slot 0)
        g.words[g.slot + 1]? := by
  rw [State.slotDecode, State.group_of_cur h, classOf_eq]; rfl

/-- Where no error is outstanding, a slot meets none. -/
theorem State.meetSlotErrors_of_nil {s : State} (h : s.upsets = []) (g : Guard) (i : Instr) :
    s.meetSlotErrors g i = s := by
  rw [State.meetSlotErrors, h]; rfl

/-- A group that stands ready has its slot decoded in the state `t` where it is current, and run or faulted. -/
theorem runSlot_of_standsReady {ex : Instr → State → Out} {s t : State} {core part path : Nat} {g : Group}
    (h : standsReady s core part path g) (ht : { s with cur := some (pathAt core part path) } = t) :
    runSlot ex core part path s =
      match t.slotDecode with
      | .error f => .next ((t.badWord f).finishSlot (pathAt core part path) 1 g.lanes)
      | .ok i =>
        if t.interlocked i then .next s
        else
          let t := match i.fields with
            | some (gd, _) => t.meetSlotErrors gd i
            | none => t
          match ex i t with
          | .next u =>
            .next ((t.clearWritten i u (pathAt core part path)).finishSlot (pathAt core part path) (slotsOf i) g.lanes)
          | .fault f => .fault f
          | .refused r => .refused r := by
  subst ht
  obtain ⟨hcore, hpart, hpath, hgroup, hwait, hissues, hstalled⟩ := h
  have hunit : (!(decide (core < Config.cores) && decide (part < 4) && decide (path < 4))) = false := by
    simp [Config.cores, hcore, hpart, hpath]
  have hk : groupKey core part path = pathAt core part path := rfl
  simp only [runSlot, hk, hunit, hgroup, hwait, hissues, hstalled]
  rfl

/-- The turn of a ready group whose slot decodes, where no error is outstanding and no value awaited. -/
theorem step_of_decoded {s t : State} {core part path : Nat} {g : Group} {i : Instr}
    (turn : s.turn = .slot core part path) (h : standsReady s core part path g)
    (ht : { s with cur := some (pathAt core part path) } = t)
    (hdec : decode (allocated t) (g.header.toNat / 2 ^ 56 % 16) (g.words.getD g.slot 0) g.words[g.slot + 1]? = .ok i)
    (hfree : t.interlocked i = false) (hups : s.upsets = []) :
    step s = match exec i t with
      | .next u => .next ((t.clearWritten i u (pathAt core part path)).finishSlot (pathAt core part path)
          (encode i).length g.lanes).nextTurn
      | .fault f => .fault f
      | .refused r => .refused r := by
  have hword := encode_ne_nil_of_decode hdec
  have hslot : t.slotDecode = .ok i := by
    subst ht
    exact (State.slotDecode_of_cur h.2.2.2.1).trans hdec
  have hclean : t.upsets = [] := by
    subst ht
    exact hups
  obtain ⟨f, hf⟩ := Option.ne_none_iff_exists'.1 fun hn => hword ((fields_eq_none_iff i).1 hn)
  simp only [step, runTurn, turn, runSlot_of_standsReady h ht, hslot, hfree, hf, State.meetSlotErrors_of_nil hclean,
    slotsOf_eq_length hword]
  cases exec i t <;> rfl

/-- The turn of a ready group whose slot is no instruction. -/
theorem step_of_badWord {s t : State} {core part path : Nat} {g : Group} {e : EncFault}
    (turn : s.turn = .slot core part path) (h : standsReady s core part path g)
    (ht : { s with cur := some (pathAt core part path) } = t)
    (hdec : decode (allocated t) (g.header.toNat / 2 ^ 56 % 16) (g.words.getD g.slot 0) g.words[g.slot + 1]? =
      .error e) :
    step s = .next ((t.badWord e).finishSlot (pathAt core part path) 1 g.lanes).nextTurn := by
  have hslot : t.slotDecode = .error e := by
    subst ht
    exact (State.slotDecode_of_cur h.2.2.2.1).trans hdec
  simp only [step, runTurn, turn, runSlot_of_standsReady h ht, hslot]

/-! ## A word that is no instruction -/

theorem privilegedWord_iff (w : W64) : privilegedWord w = true ↔ privilegedBits w := by
  have hlow : field w 0 8 = w.toNat % 256 := by rw [field_eq_div_mod, pow_zero, Nat.div_one]; rfl
  simp only [privilegedWord, privilegedBits, opcode_eq, hlow, Bool.or_eq_true, Bool.and_eq_true,
    decide_eq_true_eq, and_assoc]

theorem encTrap_eq_wordTrap (e : EncFault) (w va : W64) : encTrap e w va = wordTrap e w va := by
  cases e with
  | cls o => rw [encTrap, opcode_eq]; rfl
  | illegalOp => rw [encTrap, opcode_eq]; rfl
  | reservedField i => rfl
  | illegalOperand i o => rfl

theorem encAfterPriv_iff (e : EncFault) :
    encAfterPriv e = true ↔ (∃ i, e = .reservedField i) ∨ ∃ i o, e = .illegalOperand i o := by
  cases e <;> simp [encAfterPriv]

/-- The lanes that PRIV takes before a word's own fault. -/
theorem State.unprivileged_of_encAfterPriv (s : State) (e : EncFault) (p : Nat → Bool)
    (hp : ∀ l, p l = true ↔ ((∃ i, e = .reservedField i) ∨ ∃ i o, e = .illegalOperand i o) ∧
      privilegedBits s.group.word ∧ (s.lane l).priv.getLsbD 0 = false ∧
      ¬ (s.group.word.toNat / 2 ^ 56 = 0xE0 ∧ (s.lane l).hmode = .user)) :
    (if encAfterPriv e then s.unprivileged s.group.word else []) = s.group.lanes.filter p := by
  by_cases hafter : encAfterPriv e = true
  · rw [if_pos hafter]
    by_cases hword : privilegedWord s.group.word = true
    · rw [State.unprivileged, if_pos hword]
      refine List.filter_congr fun l _ => Bool.eq_iff_iff.2 ?_
      simp [hp l, (encAfterPriv_iff e).1 hafter, (privilegedWord_iff _).1 hword, opcode_eq, Lane.privileged,
        imp_iff_not_or]
    · rw [State.unprivileged, if_neg hword]
      exact (List.filter_eq_nil_iff.2 fun l _ h => hword ((privilegedWord_iff _).2 ((hp l).1 h).2.1)).symm
  · rw [if_neg hafter]
    exact (List.filter_eq_nil_iff.2 fun l _ h => hafter ((encAfterPriv_iff e).2 ((hp l).1 h).1)).symm

/-- A bad word: PRIV where it comes first, then the word's own fault in the other lanes. -/
theorem State.badWord_eq (s : State) (e : EncFault) (p : Nat → Bool)
    (hp : ∀ l, p l = true ↔ ((∃ i, e = .reservedField i) ∨ ∃ i o, e = .illegalOperand i o) ∧
      privilegedBits s.group.word ∧ (s.lane l).priv.getLsbD 0 = false ∧
      ¬ (s.group.word.toNat / 2 ^ 56 = 0xE0 ∧ (s.lane l).hmode = .user)) :
    s.badWord e = (s.trapAll (s.group.lanes.filter p) { code := 0x40, info := s.group.word.toNat / 2 ^ 56 }).trapAll
      (s.group.lanes.filter fun l => !p l)
      (wordTrap e s.group.word (s.group.pc.setWidth 64 + BitVec.ofNat 64 (8 * (s.group.slot + 1)))) := by
  have hrest : (s.group.lanes.filter fun l => !(s.group.lanes.filter p).contains l) =
      s.group.lanes.filter fun l => !p l :=
    List.filter_congr fun l hl => by simp [hl]
  rw [State.badWord, State.unprivileged_of_encAfterPriv s e p hp, hrest, encTrap_eq_wordTrap, opcode_eq]
  rfl

/-! ## Behind a slot -/

/-- A group that goes on within its clause. -/
theorem State.finishSlot_within {s : State} {k width : Nat} {g : Group} (ls : List Nat) (hg : tfind s.groups k = some g)
    (hlanes : g.lanes ≠ []) (hwait : g.wait = none) (h : g.slot + width ≤ g.header.toNat / 2 ^ 52 % 16) :
    s.finishSlot k width ls = ({ s with
      cur := none
      groups := tset s.groups k { g with slot := g.slot + width, released := false, served := [] } } : State).meet
        ls := by
  have hempty : g.lanes.isEmpty = false := List.isEmpty_eq_false_iff.2 hlanes
  simp only [State.finishSlot, hg, hempty, hwait, State.advanceGroup, nslot_eq, if_pos h]
  rfl

/-- Standing before a clause a second time changes nothing. -/
theorem standsAt_standsAt (s : State) (x : Lane) (pc : Addr48) : standsAt s (standsAt s x pc) pc =
    standsAt s x pc := rfl

/-- The state in which the lanes of a group that has left its clause stand before the following one. -/
def State.leftBehind (s : State) (k : Nat) (g : Group) (pc : Addr48) : State :=
  { g.lanes.foldl (fun t l => t.modLane l fun x => standsAt s x pc) { s with groups := tdel s.groups k } with
    cur := none }

/-- A group at its clause's end goes. -/
theorem State.finishSlot_end {s : State} {k width : Nat} {g : Group} (ls : List Nat) (hg : tfind s.groups k = some g)
    (hlanes : g.lanes ≠ []) (hwait : g.wait = none) (h : g.header.toNat / 2 ^ 52 % 16 < g.slot + width) :
    s.finishSlot k width ls =
      (s.leftBehind k g (g.pc + BitVec.ofNat 48 (8 * (g.header.toNat / 2 ^ 52 % 16 + 2)))).meet ls := by
  have hempty : g.lanes.isEmpty = false := List.isEmpty_eq_false_iff.2 hlanes
  simp only [State.finishSlot, hg, hempty, hwait, State.advanceGroup, nslot_eq, if_neg (Nat.not_le.2 h), nextClause]
  rfl

theorem State.leftBehind_only (s : State) (k : Nat) (g : Group) (pc : Addr48) :
    s.leftBehind k g pc = { s with cur := none, groups := tdel s.groups k, lanes := (s.leftBehind k g pc).lanes } :=
  congrArg (fun t : State => { t with cur := none })
    (onlyLanes_foldl (fun t l => t.modLane l fun x => standsAt s x pc) (fun t l => onlyLanes_modLane t l _) g.lanes
      { s with groups := tdel s.groups k })

theorem State.lane_leftBehind {s : State} {g : Group} (k : Nat) (pc : Addr48)
    (h : ∀ l ∈ g.lanes, (s.lane l).status ≠ .retired) (l : Nat) :
    (s.leftBehind k g pc).lane l = if l ∈ g.lanes then standsAt s (s.lane l) pc else s.lane l :=
  State.lane_foldl_modLane g.lanes (fun _ x => standsAt s x pc) (fun _ x => standsAt_standsAt s x pc)
    { s with groups := tdel s.groups k } (fun m hm => State.hasLane_of_status (h m hm)) l

/-! ## The words of a clause -/

/-- A doubleword that is fetched is what memory holds at the address that its own translates to. -/
theorem State.fetchAt_eq_inl {s : State} {l : Nat} {va w : W64} (h : s.fetchAt l va = .inl w) :
    ∃ pa, s.laneVa l .fetch 8 va = .inl pa ∧ w = s.dwordAt pa := by
  unfold State.fetchAt at h
  split at h
  · cases h
  · next pa hpa =>
    split at h
    · cases h
    · exact ⟨pa, hpa, (Sum.inl.inj h).symm⟩

/-- A run that is fetched is as long as asked, and each of its doublewords is what memory holds. -/
theorem State.fetchRun_eq_inl {s : State} {l n : Nat} {va : W64} {ws : List W64} (h : s.fetchRun l va n = .inl ws) :
    ws.length = n ∧ ∀ j, j < ws.length → ∃ pa, s.laneVa l .fetch 8 (va + BitVec.ofNat 64 (8 * j)) = .inl pa ∧
      ws[j]? = some (s.dwordAt pa) := by
  induction n generalizing va ws with
  | zero =>
    obtain rfl := Sum.inl.inj h
    exact ⟨rfl, fun j hj => absurd hj (Nat.not_lt_zero j)⟩
  | succ n ih =>
    unfold State.fetchRun at h
    split at h
    · cases h
    · next w hw =>
      split at h
      · cases h
      · next vs hvs =>
        obtain rfl := Sum.inl.inj h
        obtain ⟨hlen, hrest⟩ := ih hvs
        refine ⟨congrArg (· + 1) hlen, fun j hj => ?_⟩
        cases j with
        | zero =>
          obtain ⟨pa, hpa, hval⟩ := State.fetchAt_eq_inl hw
          exact ⟨pa, by rwa [Nat.mul_zero, BitVec.add_zero], congrArg some hval⟩
        | succ j =>
          obtain ⟨pa, hpa, hval⟩ := hrest j (Nat.lt_of_succ_lt_succ hj)
          have hva : va + BitVec.ofNat 64 (8 * (j + 1)) = va + 8 + BitVec.ofNat 64 (8 * j) := by
            rw [BitVec.add_assoc, Nat.mul_succ, Nat.add_comm, BitVec.ofNat_add]; rfl
          exact ⟨pa, hva ▸ hpa, hval⟩

/-- The parts of a clause that is fetched whole. -/
theorem State.fetchClause_eq_inl {s : State} {l : Nat} {pc : Addr48} {h : W64} {ws : List W64}
    (hf : s.fetchClause l pc = .inl (h, ws)) :
    s.fetchAt l (pc.setWidth 64) = .inl h ∧ headerOk h = true ∧ field h 0 40 = 0 ∧
      s.fetchRun l (pc.setWidth 64 + 8) (nslot h + 1) = .inl ws := by
  unfold State.fetchClause at hf
  dsimp only at hf
  split at hf
  · cases hf
  · next h' hh =>
    split at hf
    · cases hf
    · next hok =>
      split at hf
      · cases hf
      · next hlow =>
        split at hf
        · cases hf
        · next ws' hws =>
          obtain ⟨rfl, rfl⟩ := Prod.mk.inj (Sum.inl.inj hf)
          exact ⟨hh, by simpa using hok, not_not.1 hlow, hws⟩

theorem headerOk_iff (h : W64) : headerOk h = true ↔ h.toNat / 2 ^ 60 = 10 ∧ h.toNat / 2 ^ 56 % 16 < 6 := by
  rw [headerOk, Bool.and_eq_true, decide_eq_true_eq, decide_eq_true_eq, classOf_eq, field_top h rfl]

open Classical in
/-- The four parts of a group's turn. -/
theorem slotsRun : SlotsRun := by
  refine ⟨fun s core part path g turn ready => ⟨fun i hdec hfree hups => ?_, fun e hdec => ?_⟩, fun s e => ?_,
    fun s k width ls g hg hlanes hwait hlive => ⟨fun hw => ?_, fun hw => ?_⟩, fun s l pc h ws hf => ?_⟩
  · exact step_of_decoded turn ready rfl hdec hfree hups
  · exact step_of_badWord turn ready rfl hdec
  · exact s.badWord_eq e _ fun l => decide_eq_true_iff
  · exact State.finishSlot_within ls hg hlanes hwait hw
  · exact ⟨_, State.finishSlot_end ls hg hlanes hwait hw, s.leftBehind_only k g _, State.lane_leftBehind k _ hlive⟩
  · obtain ⟨hhead, hok, hlow, hrun⟩ := State.fetchClause_eq_inl hf
    obtain ⟨hcheck, hclass⟩ := (headerOk_iff h).1 hok
    obtain ⟨hlen, hwords⟩ := State.fetchRun_eq_inl hrun
    have hzero : h.toNat % 2 ^ 40 = 0 := by rwa [field_eq_div_mod, pow_zero, Nat.div_one] at hlow
    exact ⟨hcheck, hclass, hzero, nslot_eq h ▸ hlen, State.fetchAt_eq_inl hhead, hwords⟩

end Sys2Proof.Machine
end

section
/-! SUPPORT. The other turns: events, time, errors that strike, and which turn comes next (spec/01 R13, spec/09 R165,
spec/26 R370). -/

namespace Sys2Proof.Machine
open Claims

/-! ## The turn of an event -/

/-- The turn of another agent is `exec` of its event. -/
theorem step_of_event {s : State} {i : Instr} (turn : s.turn = .event i) (h : encode i = []) :
    step s = match exec i s with
      | .next u => .next u.nextTurn
      | .fault f => .fault f
      | .refused r => .refused r := by
  simp only [step, runTurn, turn, (fields_eq_none_iff i).2 h]
  rfl

/-! ## Time that passes -/

theorem step_of_tick {s : State} {n : Nat} {skew : List (Fin 3)} (turn : s.turn = .tick n skew) :
    step s = .next (s.passTime n skew).nextTurn := by
  simp only [step, runTurn, turn]

/-- A lane after some ticks: one that is there and not Ready has waited since now. -/
theorem State.lane_passTime (s : State) (n : Nat) (skew : List (Fin 3)) (l : Nat) :
    (s.passTime n skew).lane l = if s.ready l = true ∨ tfind s.lanes l = none then s.lane l
      else { s.lane l with readyAt := (s.passTime n skew).cycles } := by
  have hmap := tfind_mapEntries s.lanes
    (fun p => if s.ready p.1 then p.2 else { p.2 with readyAt := (s.passTime n skew).cycles }) l
  have hlanes : tfind (s.passTime n skew).lanes l = _ := hmap
  rw [State.lane, State.lane, tget_eq, tget_eq, hlanes]
  cases tfind s.lanes l with
  | none => simp
  | some x => by_cases h : s.ready l = true <;> simp [h]

/-- A lane that is not Ready, and is no retired one, has waited since now; the others are as they were. -/
theorem State.lane_passTime_waiting (s : State) (n : Nat) (skew : List (Fin 3)) (l : Nat) :
    (s.passTime n skew).lane l = if s.ready l = true ∨ (s.lane l).status = .retired
      then { s.lane l with readyAt := ((s.passTime n skew).lane l).readyAt }
      else { s.lane l with readyAt := (s.passTime n skew).cycles } := by
  rw [State.lane_passTime]
  by_cases hready : s.ready l = true
  · simp [hready]
  · by_cases habsent : tfind s.lanes l = none
    · simp [hready, habsent, State.lane_absent]
    · by_cases hlive : (s.lane l).status = .retired <;> simp [hready, habsent, hlive]

theorem State.core_passTime (s : State) (n : Nat) (skew : List (Fin 3)) (c : Nat) :
    (s.passTime n skew).core c = (s.core c).elapse ((n * s.clock + s.cycleRem) / 10) := by
  have hcores : tfind (s.passTime n skew).cores c = _ :=
    tfind_mapValues s.cores (Core.elapse · ((n * s.clock + s.cycleRem) / 10)) c
  rw [State.core, State.core, tget_eq, tget_eq, hcores]
  cases tfind s.cores c <;> rfl

/-- No die's clock falls: what it stood ahead of the slowest it has lost to the ticks at most. -/
theorem le_nextSkew (old new : List (Fin 3)) (n : Nat) {d : Nat} (hd : d < 8) :
    (old.getD d 0).val ≤ n + ((nextSkew old new n).getD d 0).val := by
  have hget : (nextSkew old new n).getD d 0 = Fin.ofNat 3 (max (new.getD d 0).val ((old.getD d 0).val - n)) := by
    simp [nextSkew, Config.dies, hd]
  have hmod : (Fin.ofNat 3 (max (new.getD d 0).val ((old.getD d 0).val - n))).val =
      max (new.getD d 0).val ((old.getD d 0).val - n) := by
    refine Nat.mod_eq_of_lt ?_
    omega
  rw [hget, hmod]
  omega

/-! ## Errors that strike -/

theorem step_of_upset {s : State} {site : Site} {unc : Bool} {synd : W32} (turn : s.turn = .upset site unc synd) :
    step s = .next (s.strike site unc synd).nextTurn := by
  simp only [step, runTurn, turn]

/-- The state in which one error stands in a granule. -/
def State.struck (s : State) (g : Site) (unc : Bool) (synd : W32) : State :=
  { s with upsets := (s.upsets.filter fun u : Upset => !(u.site == g)) ++
    [({ site := g, unc := unc, synd := synd } : Upset)] }

/-- An error that strikes a place which holds no data is lost. -/
theorem State.strike_of_not_holdsData {s : State} {site : Site} (unc : Bool) (synd : W32)
    (h : s.holdsData (granuleOf site) = false) : s.strike site unc synd = s := by
  simp [State.strike, h]

/-- An error that strikes data: what its granule then holds. -/
theorem State.strike_of_holdsData {s : State} {site : Site} {unc : Bool} {synd : W32} {bad : Bool}
    (h : s.holdsData (granuleOf site) = true)
    (hbad : ((unc || (s.upsets.filter (·.site == granuleOf site)).any (·.unc) ||
      siteSingle (granuleOf site) && !(s.upsets.filter (·.site == granuleOf site)).isEmpty) &&
        !siteRefetched (granuleOf site)) = bad) :
    s.strike site unc synd = s.struck (granuleOf site) bad synd := by
  have hrest : (s.upsets.filter fun u => decide (u.site ≠ granuleOf site)) =
      s.upsets.filter fun u => !(u.site == granuleOf site) :=
    List.filter_congr fun u _ => by rw [decide_not, beq_eq_decide]
  simp only [State.strike, h, hbad, State.struck, hrest]
  rfl

/-- What an outstanding error adds where two make a granule fail. -/
theorem any_unc_or_not_isEmpty (us : List Upset) : (us.any (·.unc) || !us.isEmpty) = !us.isEmpty := by
  cases us <;> simp

theorem holdsDataPlaces (s : State) (c d p st w : Nat) (f : Fifo) (l : Nat) (o : Operand) :
    (s.holdsData (.icache c d) = true ↔ d / 32 ∈ (s.core c).icache) ∧
    (s.holdsData (.fifo p st f w) = true ↔ 16 * w < heldNibbles (tget [] (s.pair p).streams (st * 4 + f.code))) ∧
    s.holdsData (.link c d) = false ∧ s.holdsData (.loaded l o) = false ∧ s.holdsData (.lane l o) = true ∧
    s.holdsData (.mem d) = true ∧ s.holdsData (.hbm d) = true ∧ s.holdsData (.l1 c d) = true :=
  ⟨List.contains_iff_mem, decide_eq_true_iff, rfl, rfl, rfl, rfl, rfl, rfl⟩

/-- Two errors make a granule fail at once, but in HBM. -/
theorem siteSingle_iff (g : Site) : siteSingle g = true ↔ ∀ a, g ≠ .hbm a ∧ g ≠ .dram a := by
  cases g <;> simp [siteSingle]

/-- The instruction cache alone fetches again. -/
theorem siteRefetched_iff (g : Site) : siteRefetched g = true ↔ ∃ a b, g = .icache a b := by
  cases g <;> simp [siteRefetched]

/-- What a turn that strikes a site leaves, by what its granule's code can do. -/
theorem upsetsStrike (s : State) (site : Site) (unc : Bool) (synd : W32) (turn : s.turn = .upset site unc synd) :
    let g := granuleOf site
    let mine := s.upsets.filter fun u => u.site == g
    (s.holdsData g = false → step s = .next s.nextTurn) ∧
    (s.holdsData g = true → ((∃ a b, g = .icache a b) → step s = .next (s.struck g false synd).nextTurn) ∧
      ((∃ a, g = .hbm a) ∨ (∃ a, g = .dram a) → step s = .next (s.struck g (unc || mine.any (·.unc)) synd).nextTurn) ∧
      ((∀ a b, g ≠ .icache a b) → (∀ a, g ≠ .hbm a ∧ g ≠ .dram a) →
        step s = .next (s.struck g (unc || !mine.isEmpty) synd).nextTurn)) := by
  intro g mine
  rw [step_of_upset turn]
  refine ⟨fun h => by rw [State.strike_of_not_holdsData unc synd h], fun h => ⟨?_, ?_, ?_⟩⟩
  · rintro ⟨a, b, hg⟩
    have hbad : ∀ x : Bool, (x && !siteRefetched g) = false := fun x => by rw [hg]; exact Bool.and_false x
    rw [State.strike_of_holdsData h (hbad _)]
  · intro hg
    have hsingle : siteSingle g = false ∧ siteRefetched g = false := by
      obtain ⟨a, ha⟩ | ⟨a, ha⟩ := hg <;> rw [ha] <;> exact ⟨rfl, rfl⟩
    rw [State.strike_of_holdsData (bad := unc || mine.any (·.unc)) h]
    simp [hsingle.1, hsingle.2, g, mine]
  · intro hcode hhbm
    have hsingle : siteSingle g = true := (siteSingle_iff g).2 hhbm
    have hkept : siteRefetched g = false := by
      rw [← Bool.not_eq_true, siteRefetched_iff]
      rintro ⟨a, b, hg⟩
      exact hcode a b hg
    rw [State.strike_of_holdsData (bad := unc || !mine.isEmpty) h]
    rw [hsingle, hkept, Bool.true_and, Bool.or_assoc, any_unc_or_not_isEmpty, Bool.not_false, Bool.and_true]

/-! ## The lead that the progress promise forces (spec/09 R165) -/

/-- A lane that must lead its partition's next group is overdue there. -/
theorem State.mustLead_iff (s : State) (core part l : Nat) :
    s.mustLead core part l = true ↔ overdueIn s core part l := by
  have hahead : s.nextClauseOf l = clauseAhead s l := rfl
  rw [State.mustLead, State.pathFree, overdueIn, hahead]
  cases clauseAhead s l with
  | inr f => simp [and_assoc]
  | inl c =>
    simp only [Bool.and_eq_true, Bool.or_eq_true, beq_iff_eq, decide_eq_true_eq, Option.isNone_iff_eq_none, nslot_eq,
      classOf_eq, and_assoc]
    rfl

/-- The partition that `overdue` names is one where a lead is due. -/
theorem State.leadDue_of_overdue {s : State} {c p : Nat} (h : s.overdue = some (c, p)) : leadDue s c p := by
  obtain ⟨x, hx, hsome⟩ := List.exists_of_findSome?_eq_some h
  split at hsome
  · cases hsome
  · next hrun =>
    obtain ⟨l, hl, hlead⟩ := Option.bind_eq_some_iff.1 hsome
    split at hlead
    · next hmust =>
      obtain ⟨rfl, rfl⟩ := Prod.mk.inj (Option.some.inj hlead)
      exact ⟨x, hx, by simpa using hrun, l, hl, (s.mustLead_iff _ _ _).1 hmust⟩
    · cases hlead

/-- Where `overdue` names no partition, no lead is due. -/
theorem State.not_leadDue_of_overdue {s : State} (h : s.overdue = none) (c p : Nat) : ¬ leadDue s c p := by
  rintro ⟨x, hx, hrun, l, hl, hdue⟩
  have hnone := List.findSome?_eq_none_iff.1 h x hx
  have hmust : s.mustLead (coreOf l) (s.partOf l) l = true := by
    rw [hdue.1, hdue.2.1]
    exact (s.mustLead_iff c p l).2 hdue
  simp [hrun, hl, hmust] at hnone

theorem State.nextTurn_turn (t : State) : t.nextTurn.turn = match t.overdue with
    | some (c, p) => .event (.progressForcedLead c p)
    | none => Config.turn t.turns := rfl

/-- The next turn is a lead's that is due, if there is one. -/
theorem nextTurns (t : State) :
    t.nextTurn = { t with turn := t.nextTurn.turn, turns := t.turns + 1 } ∧
    ((∀ c p, ¬ leadDue t c p) → t.nextTurn.turn = Config.turn t.turns) ∧
    ((∃ c p, leadDue t c p) → ∃ c p, leadDue t c p ∧ t.nextTurn.turn = .event (.progressForcedLead c p)) := by
  refine ⟨rfl, fun hnone => ?_, fun ⟨c, p, hdue⟩ => ?_⟩
  · rw [t.nextTurn_turn]
    cases h : t.overdue with
    | none => rfl
    | some x => exact absurd (State.leadDue_of_overdue h) (hnone x.1 x.2)
  · rw [t.nextTurn_turn]
    cases h : t.overdue with
    | none => exact absurd hdue (State.not_leadDue_of_overdue h c p)
    | some x => exact ⟨x.1, x.2, State.leadDue_of_overdue h, rfl⟩

/-- Time changes no more than the clocks, the bins' timers, and since when a lane has waited. -/
theorem ticksPass (s : State) (n : Nat) (skew : List (Fin 3)) (turn : s.turn = .tick n skew) :
    ∃ t : State, step s = .next t.nextTurn ∧
    let k := n * s.clock + s.cycleRem
    t = { s with gt := s.gt + n, skew := t.skew, cycles := s.cycles + k / 10, cycleRem := k % 10, cores := t.cores,
                 lanes := t.lanes } ∧
    (∀ l, t.lane l = if s.ready l = true ∨ (s.lane l).status = .retired
      then { s.lane l with readyAt := (t.lane l).readyAt }
      else { s.lane l with readyAt := t.cycles }) ∧
    (∀ l, s.ready l = true → t.lane l = s.lane l) ∧
    (∀ c, t.core c = { s.core c with bins := (s.core c).bins.map fun p =>
      (p.1, { p.2 with timer := p.2.timer.map (· - k / 10) }) }) ∧
    ∀ d, d < 8 → s.gt + (s.skew.getD d 0).val ≤ t.gt + (t.skew.getD d 0).val := by
  refine ⟨s.passTime n skew, step_of_tick turn, rfl, s.lane_passTime_waiting n skew, fun l h => ?_,
    s.core_passTime n skew, fun d hd => ?_⟩
  · rw [s.lane_passTime, if_pos (.inl h)]
  · calc s.gt + (s.skew.getD d 0).val ≤ s.gt + (n + ((nextSkew s.skew skew n).getD d 0).val) :=
          Nat.add_le_add_left (le_nextSkew s.skew skew n hd) _
      _ = s.gt + n + ((nextSkew s.skew skew n).getD d 0).val := (Nat.add_assoc ..).symm

/-- Two registers or accumulators share a granule just where their 64 bits are the same. -/
theorem registerGranules (l m : Nat) :
    (∀ i j, granuleOf (.lane l (.v i)) = granuleOf (.lane m (.v j)) ↔ l = m ∧ i.val / 2 = j.val / 2) ∧
    (∀ i j, granuleOf (.lane l (.s i)) = granuleOf (.lane m (.s j)) ↔ l / 32 = m / 32 ∧ i.val / 2 = j.val / 2) ∧
    (∀ i j, granuleOf (.lane l (.g i)) = granuleOf (.lane m (.g j)) ↔ l = m ∧ i = j) ∧
    ∀ p r, granuleOf (.acc p r l) = granuleOf (.acc p r m) ↔ l % 64 / 2 = m % 64 / 2 := by
  refine ⟨fun i j => ?_, fun i j => ?_, fun i j => ?_, fun p r => ?_⟩
  · simp only [granuleOf, Site.lane.injEq, Operand.v.injEq, Fin.mk.injEq]
    omega
  · simp only [granuleOf, Site.lane.injEq, Operand.s.injEq, Fin.mk.injEq]
    omega
  · simp only [granuleOf, Site.lane.injEq, Operand.g.injEq]
  · simp only [granuleOf, Site.acc.injEq, true_and]
    omega

theorem turnsOfOtherAgents : TurnsOfOtherAgents :=
  ⟨fun _ _ => step_of_event, ticksPass, upsetsStrike, holdsDataPlaces, registerGranules, nextTurns⟩

end Sys2Proof.Machine

/-- Settles O59: a group's turn runs or faults its slot and moves it on, and the other turns do what their agents do;
each part is a law of the function that carries it out. -/
theorem Sys2Proof.stepRunsDecodedInstruction : Obligations.StepRunsDecodedInstruction :=
  ⟨Machine.slotsRun, Machine.turnsOfOtherAgents⟩

end

section
/-! SUPPORT. Integer instructions of one result word: how a rule is met, and arithmetic on 32 bits (spec/07 R109
to R112). -/

namespace Sys2Proof.Machine

/-! ## A result in each executing lane -/

/-- A result for every executing lane, with no flag. -/
theorem perLane_result (g : Guard) (d : Operand) (s : State) (r : Nat → List W32) :
    ∃ t, perLane g d s (fun l => .ok (r l)) = .next t ∧ Result s t g d r (fun _ => 0) (fun _ => false) :=
  ⟨_, rfl, State.perLane_ok fun _ _ => rfl⟩

/-- An instruction gives each lane a function of its words A, B and C, and the function obeys a rule. -/
def Gives (i : Instr) (g : Guard) (o : Ops) (R : W32 → W32 → W32 → W32 → Prop) : Prop :=
  ∃ f : W32 → W32 → W32 → W32, (∀ s, exec i s = ternary g o s f) ∧ ∀ a b c, R a b c (f a b c)

theorem obeys_of_gives {rule : Instr → Option Claims.WordRule}
    (h : ∀ i g o R, rule i = some (g, o, R) → Gives i g o R) : Claims.obeys rule := by
  intro i s g o R hi
  obtain ⟨f, run, obeys⟩ := h i g o R hi
  obtain ⟨t, e, result⟩ := perLane_result g o.d s fun l =>
    [f (s.src l .int o.a) (s.src l .int o.b) (s.src l .int o.c)]
  exact ⟨_, t, fun l => obeys _ _ _, (run s).trans e, result⟩

/-! ## Arithmetic (R109 to R112) -/

theorem toNat_ofInt_eq_emod (n : Nat) (x : Int) : ((BitVec.ofInt n x).toNat : Int) = x % 2 ^ n := by
  rw [BitVec.toNat_ofInt, Int.toNat_of_nonneg (Int.emod_nonneg _ (by positivity))]
  push_cast; rfl

theorem toNat_sub_eq_emod (a b : W32) : ((a - b).toNat : Int) = ((a.toNat : Int) - b.toNat) % 2 ^ 32 := by
  rw [BitVec.toNat_sub]
  have := a.isLt; have := b.isLt
  omega

theorem toNat_mul_add (a b c : W32) : (a * b + c).toNat = (a.toNat * b.toNat + c.toNat) % 2 ^ 32 := by
  rw [BitVec.toNat_add, BitVec.toNat_mul, Nat.mod_add_mod]

theorem toNat_neg_eq_emod (a : W32) : ((-a).toNat : Int) = -a.toInt % 2 ^ 32 := by
  rw [← toNat_ofInt_eq_emod, BitVec.ofInt_neg, BitVec.ofInt_toInt]

theorem toNat_absWord (a : W32) : (absWord a).toNat = a.toInt.natAbs := by
  rw [absWord, BitVec.toInt_eq_msb_cond]
  split
  next h => rw [BitVec.toNat_neg]; have := BitVec.toNat_ge_of_msb_true h; omega
  next => exact (Int.natAbs_natCast _).symm

/-- The word that IMIN or IMAX picks is one of the two, and its number the smaller or the larger. -/
theorem intRead_pickWord (u larger : Bool) (a b : W32) :
    (pickWord u larger a b = a ∨ pickWord u larger a b = b) ∧ intRead u (pickWord u larger a b) =
      if larger then max (intRead u a) (intRead u b) else min (intRead u a) (intRead u b) := by
  unfold pickWord
  by_cases h : intRead u a ≤ intRead u b
  · cases larger <;> simp [h]
  · have := (not_le.1 h).le
    cases larger <;> simp [h, this]

theorem divQuot_spec (u : Bool) (a b : W32) : if b = 0 then divQuot u a b = 0xFFFFFFFF
    else ((divQuot u a b).toNat : Int) = (intRead u a).tdiv (intRead u b) % 2 ^ 32 := by
  rw [divQuot]
  split
  next => rfl
  next => exact toNat_ofInt_eq_emod 32 _

theorem divRem_spec (u : Bool) (a b : W32) : if b = 0 then divRem u a b = a
    else ((divRem u a b).toNat : Int) =
      (intRead u a - (intRead u a).tdiv (intRead u b) * intRead u b) % 2 ^ 32 := by
  rw [divRem]
  split
  next => rfl
  next => rw [toNat_ofInt_eq_emod, Int.tmod_def, Int.mul_comm]

theorem gives_of_arithRule (i : Instr) (g : Guard) (o : Ops) (R : W32 → W32 → W32 → W32 → Prop)
    (h : Claims.arithRule i = some (g, o, R)) : Gives i g o R := by
  cases i with
  | mov => cases h; exact ⟨fun a _ _ => a, fun _ => rfl, fun _ _ _ => rfl⟩
  | iadd => cases h; exact ⟨fun a b _ => a + b, fun _ => rfl, fun a b _ => BitVec.toNat_add a b⟩
  | isub => cases h; exact ⟨fun a b _ => a - b, fun _ => rfl, fun a b _ => toNat_sub_eq_emod a b⟩
  | imul => cases h; exact ⟨fun a b _ => a * b, fun _ => rfl, fun a b _ => BitVec.toNat_mul a b⟩
  | imulh => cases h; exact ⟨fun a b _ => mulHigh _ a b, fun _ => rfl, fun a b _ => toNat_ofInt_eq_emod 32 _⟩
  | imad => cases h; exact ⟨fun a b c => a * b + c, fun _ => rfl, toNat_mul_add⟩
  | ineg => cases h; exact ⟨fun a _ _ => -a, fun _ => rfl, fun a _ _ => toNat_neg_eq_emod a⟩
  | iabs => cases h; exact ⟨fun a _ _ => absWord a, fun _ => rfl, fun a _ _ => toNat_absWord a⟩
  | imin _ _ u =>
    cases h
    exact ⟨fun a b _ => pickWord u false a b, fun _ => rfl, fun a b _ => intRead_pickWord u false a b⟩
  | imax _ _ u =>
    cases h
    exact ⟨fun a b _ => pickWord u true a b, fun _ => rfl, fun a b _ => intRead_pickWord u true a b⟩
  | idiv => cases h; exact ⟨fun a b _ => divQuot _ a b, fun _ => rfl, fun a b _ => divQuot_spec _ a b⟩
  | irem => cases h; exact ⟨fun a b _ => divRem _ a b, fun _ => rfl, fun a b _ => divRem_spec _ a b⟩
  | _ => cases h

theorem integerOperations : Claims.IntegerOperations := obeys_of_gives gives_of_arithRule

end Sys2Proof.Machine
end

section
/-! SUPPORT. Shifts, rotation, logic, bit counting, bit fields and byte permutation (spec/07 R113 to R117). -/

namespace Sys2Proof.Machine

/-! ## Shifts and rotation (R113) -/

theorem toNat_shlWord (a b : W32) :
    (shlWord a b).toNat = if b.toNat < 32 then a.toNat * 2 ^ b.toNat % 2 ^ 32 else 0 := by
  rw [shlWord]
  by_cases h : b.toNat < 32
  · rw [if_neg (by omega), if_pos h, BitVec.toNat_shiftLeft, Nat.shiftLeft_eq]
  · rw [if_pos (by omega), if_neg h]; rfl

theorem toNat_shrWord_unsigned (a b : W32) :
    (shrWord true a b).toNat = if b.toNat < 32 then a.toNat / 2 ^ b.toNat else 0 := by
  rw [shrWord, if_pos rfl]
  by_cases h : b.toNat < 32
  · rw [if_neg (by omega), if_pos h, BitVec.toNat_ushiftRight, Nat.shiftRight_eq_div_pow]
  · rw [if_pos (by omega), if_neg h]; rfl

/-- A shift by 32 leaves the sign in every bit. -/
theorem sshiftRight_all (a : W32) : a.sshiftRight 32 = if a.getLsbD 31 then 0xFFFFFFFF else 0 := by
  have sign : a.msb = a.getLsbD 31 := rfl
  apply BitVec.eq_of_getLsbD_eq
  intro j hj
  rw [BitVec.getLsbD_sshiftRight, sign, if_neg (by omega)]
  cases a.getLsbD 31
  · simp
  · change _ = (BitVec.allOnes 32).getLsbD j
    rw [BitVec.getLsbD_allOnes]
    simp [hj]

theorem shrWord_signed (a b : W32) : if b.toNat < 32
    then ((shrWord false a b).toNat : Int) = a.toInt / 2 ^ b.toNat % 2 ^ 32
    else shrWord false a b = if a.getLsbD 31 then 0xFFFFFFFF else 0 := by
  rw [shrWord, if_neg Bool.false_ne_true]
  split
  next h =>
    rw [Nat.min_eq_left (by omega), BitVec.sshiftRight, toNat_ofInt_eq_emod, Int.shiftRight_eq_div_pow]
    push_cast; rfl
  next h => rw [Nat.min_eq_right (by omega), sshiftRight_all]

/-- A bit of a word turned right by `m`: it comes from `m` places up, or from the other end. -/
theorem getLsbD_turned (a : W32) {m j : Nat} (hm : m ≤ 32) (hj : j < 32) :
    (bif j < 32 - m then a.getLsbD (m + j) else decide (j < 32) && a.getLsbD (j - (32 - m))) =
      a.getLsbD ((j + m) % 32) := by
  by_cases h : j < 32 - m
  · rw [decide_eq_true h, cond_true, Nat.mod_eq_of_lt (by omega), Nat.add_comm]
  · rw [decide_eq_false h, cond_false, decide_eq_true hj, Bool.true_and]
    exact congrArg _ (by omega)

theorem getLsbD_rotWord (right : Bool) (a b : W32) {j : Nat} (hj : j < 32) : (rotWord right a b).getLsbD j =
    a.getLsbD ((if right then j + b.toNat % 32 else j + (32 - b.toNat % 32)) % 32) := by
  have small : b.toNat % 32 < 32 := Nat.mod_lt _ (by decide)
  simp only [rotWord]
  generalize b.toNat % 32 = n at small
  cases right
  · have turned := getLsbD_turned a (Nat.sub_le 32 n) hj
    rw [Nat.sub_sub_self small.le] at turned
    rw [if_neg Bool.false_ne_true, if_neg Bool.false_ne_true, BitVec.getLsbD_rotateLeft, Nat.mod_eq_of_lt small, turned]
  · rw [if_pos rfl, if_pos rfl, BitVec.getLsbD_rotateRight, Nat.mod_eq_of_lt small, getLsbD_turned a small.le hj]

/-! ## Logic, counting and reversing bits (R114) -/

theorem getLsbD_andNot (a b : W32) {j : Nat} (hj : j < 32) :
    (a &&& ~~~b).getLsbD j = (a.getLsbD j && !b.getLsbD j) := by
  simp [hj]

theorem toNat_popWord (a : W32) : (popWord a).toNat = ((List.range 32).filter fun j => a.getLsbD j).length := by
  rw [popWord, BitVec.toNat_ofNat]
  refine Nat.mod_eq_of_lt (lt_of_le_of_lt (List.length_filter_le _ _) ?_)
  rw [List.length_range]; decide

/-- The highest 1 bit of a number that is not 0 stands just below its length. -/
theorem testBit_bitLen_pred {m : Nat} (h : m ≠ 0) : m.testBit (bitLen m - 1) = true := by
  rw [bitLen, if_neg h]
  exact Nat.testBit_log2 h

theorem bitLen_le {m n : Nat} (h : m < 2 ^ n) : bitLen m ≤ n := by
  rw [bitLen]
  split
  next => exact Nat.zero_le n
  next hm => exact (Nat.log2_lt hm).2 h

theorem clzWord_spec (a : W32) : (clzWord a).toNat ≤ 32 ∧
    (∀ j < 32, 32 - (clzWord a).toNat ≤ j → a.getLsbD j = false) ∧
    ((clzWord a).toNat < 32 → a.getLsbD (31 - (clzWord a).toNat) = true) := by
  have len : bitLen a.toNat ≤ 32 := bitLen_le a.isLt
  have value : (clzWord a).toNat = 32 - bitLen a.toNat := by
    rw [clzWord, BitVec.toNat_ofNat, Nat.mod_eq_of_lt (by omega)]
  rw [value]
  refine ⟨Nat.sub_le .., fun j _ hj => ?_, fun h => ?_⟩
  · refine Nat.testBit_lt_two_pow (lt_of_lt_of_le (lt_two_pow_bitLen a.toNat) (Nat.pow_le_pow_right (by decide) ?_))
    omega
  · have zero : a.toNat ≠ 0 := fun e => by simp [e, bitLen] at h
    have : 31 - (32 - bitLen a.toNat) = bitLen a.toNat - 1 := by omega
    rw [this]
    exact testBit_bitLen_pred zero

/-- The number whose low `n` bits are those of a predicate. -/
def numOfBits (p : Nat → Bool) (n : Nat) : Nat :=
  (List.range n).foldl (fun acc i => acc + (if p i then 2 ^ i else 0)) 0

theorem numOfBits_succ (p : Nat → Bool) (n : Nat) :
    numOfBits p (n + 1) = numOfBits p n + (if p n then 2 ^ n else 0) := by
  rw [numOfBits, List.range_succ, List.foldl_append]; rfl

theorem numOfBits_lt (p : Nat → Bool) (n : Nat) : numOfBits p n < 2 ^ n := by
  induction n with
  | zero => exact Nat.one_pos
  | succ n ih => rw [numOfBits_succ, pow_succ]; split <;> omega

theorem testBit_numOfBits (p : Nat → Bool) {n j : Nat} (hj : j < n) : (numOfBits p n).testBit j = p j := by
  induction n with
  | zero => omega
  | succ n ih =>
    have top : (numOfBits p n).testBit n = false := Nat.testBit_lt_two_pow (numOfBits_lt p n)
    rw [numOfBits_succ]
    by_cases e : j = n
    · subst e
      cases h : p j
      · simpa using top
      · rw [if_pos rfl, Nat.add_comm, Nat.testBit_two_pow_add_eq, top]; rfl
    · have below : j < n := by omega
      split
      next => rw [Nat.add_comm, Nat.testBit_two_pow_add_gt below, ih below]
      next => rw [Nat.add_zero, ih below]

theorem getLsbD_revWord (a : W32) {j : Nat} (hj : j < 32) : (revWord a).getLsbD j = a.getLsbD (31 - j) := by
  change (BitVec.ofNat 32 (numOfBits (fun i => a.getLsbD (31 - i)) 32)).getLsbD j = _
  rw [BitVec.getLsbD_ofNat, decide_eq_true hj, Bool.true_and, testBit_numOfBits _ hj]

/-! ## Bit fields (R115, R116) -/

/-- The integer of `len` bits is that of a word of that width. -/
theorem signedOf_eq_toInt {len : Nat} (h : len ≠ 0) (n : Nat) : signedOf len n = (BitVec.ofNat len n).toInt := by
  obtain ⟨k, rfl⟩ := Nat.exists_eq_succ_of_ne_zero h
  have two : (2 : Nat) ^ (k + 1) = 2 * 2 ^ k := by rw [pow_succ, Nat.mul_comm]
  rw [signedOf, BitVec.toInt_eq_toNat_cond, BitVec.toNat_ofNat]
  have : 2 * (n % 2 ^ (k + 1)) < 2 ^ (k + 1) ↔ n % 2 ^ (k + 1) < 2 ^ k := by omega
  simp [this]

/-- Bit `j` of a field of A from `pos` up: above bit 31 the sign, or 0 with U. -/
def fieldBit (u : Bool) (a : W32) (pos j : Nat) : Bool :=
  if pos + j ≤ 31 then a.getLsbD (pos + j) else !u && a.getLsbD 31

theorem getLsbD_signedShift (a : W32) (pos : Nat) {j : Nat} (hj : j < 32) :
    (a.sshiftRight (min pos 32)).getLsbD j = fieldBit false a pos j := by
  have sign : a.msb = a.getLsbD 31 := rfl
  rw [BitVec.getLsbD_sshiftRight, sign, fieldBit]
  by_cases e : pos + j ≤ 31
  · have : min pos 32 = pos := by omega
    simp [hj, e, this, show pos + j < 32 by omega]
  · simp [hj, e, show ¬ min pos 32 + j < 32 by omega]

theorem testBit_unsignedShift (a : W32) (pos j : Nat) : (a.toNat >>> pos).testBit j = fieldBit true a pos j := by
  rw [Nat.testBit_shiftRight, BitVec.testBit_toNat, fieldBit]
  split
  next => rfl
  next h => exact BitVec.getLsbD_of_ge a (pos + j) (by omega)

/-- A field of `len` bits extended with its sign. -/
theorem getLsbD_ofInt_signedOf {len : Nat} (h : len ≠ 0) (n : Nat) {j : Nat} (hj : j < 32) :
    (BitVec.ofInt 32 (signedOf len n)).getLsbD j = n.testBit (if j < len then j else len - 1) := by
  rw [signedOf_eq_toInt h]
  change (BitVec.signExtend 32 _).getLsbD j = _
  rw [BitVec.getLsbD_signExtend, BitVec.msb_eq_getLsbD_last, BitVec.getLsbD_ofNat, BitVec.getLsbD_ofNat]
  by_cases e : j < len
  · simp [e, hj]
  · simp [e, hj, Nat.pos_of_ne_zero h]

theorem getLsbD_bfeWord (u : Bool) (a b c : W32) {j : Nat} (hj : j < 32) :
    (bfeWord u a b c).getLsbD j = if j < min (c.toNat % 256) 32 then fieldBit u a (b.toNat % 256) j
      else !u && min (c.toNat % 256) 32 != 0 && fieldBit u a (b.toNat % 256) (min (c.toNat % 256) 32 - 1) := by
  have hlen : min (c.toNat % 256) 32 ≤ 32 := Nat.min_le_right ..
  simp only [bfeWord]
  generalize b.toNat % 256 = pos
  generalize min (c.toNat % 256) 32 = len at hlen
  cases u
  · by_cases zero : len = 0
    · simp [zero]
    · rw [if_neg Bool.false_ne_true, if_neg zero, getLsbD_ofInt_signedOf zero _ hj, BitVec.testBit_toNat,
        getLsbD_signedShift a pos (by split <;> omega)]
      split
      next => rfl
      next => simp [zero]
  · rw [if_pos rfl, BitVec.getLsbD_ofNat, Nat.testBit_mod_two_pow, testBit_unsignedShift, decide_eq_true hj]
    by_cases e : j < len <;> simp [e]

theorem getLsbD_bfiWord (a b c : W32) {j : Nat} (hj : j < 32) : (bfiWord a b c).getLsbD j =
    if c.toNat % 256 ≤ j ∧ j < c.toNat % 256 + min (c.toNat / 256 % 256) 32
    then a.getLsbD (j - c.toNat % 256) else b.getLsbD j := by
  simp only [bfiWord]
  generalize c.toNat % 256 = pos
  generalize min (c.toNat / 256 % 256) 32 = len
  simp only [BitVec.getLsbD_or, BitVec.getLsbD_and, BitVec.getLsbD_not, BitVec.getLsbD_ofNat, Nat.testBit_shiftLeft,
    Nat.testBit_two_pow_sub_one, BitVec.testBit_toNat, hj, decide_true, Bool.true_and]
  by_cases low : pos ≤ j
  · have : j - pos < len ↔ j < pos + len := by omega
    by_cases high : j < pos + len <;> simp [low, high, this]
  · simp [low]

/-! ## Bytes (R117) -/

theorem bswzByte_lt (a b c : W32) (i : Nat) : bswzByte a b c i < 256 := by
  simp only [bswzByte]
  split
  · exact Nat.mod_lt _ (by decide)
  · decide
  · split_ifs <;> decide
  · decide

/-- Byte `n` of the pair A, B: one of A's four or one of B's. -/
theorem pair_byte (a b : Nat) (ha : a < 2 ^ 32) {n : Nat} (hn : n < 8) :
    (if n < 4 then a >>> (8 * n) else b >>> (8 * (n - 4))) % 256 = (a + 2 ^ 32 * b) / 2 ^ (8 * n) % 256 := by
  simp only [Nat.shiftRight_eq_div_pow]
  interval_cases n <;> simp <;> omega

theorem bswzByte_eq (a b c : W32) (k : Nat) :
    bswzByte a b c k =
      let x := (a.toNat + 2 ^ 32 * b.toNat) / 2 ^ (8 * (c.toNat / 2 ^ (3 * k) % 8)) % 256
      let m := c.toNat / 2 ^ (12 + 2 * k) % 4
      if m = 0 then x else if m = 1 then 0 else if m = 2 then (if 128 ≤ x then 255 else 0) else 255 := by
  have hm : c.toNat / 2 ^ (12 + 2 * k) % 4 < 4 := Nat.mod_lt _ (by decide)
  simp only [bswzByte, pair_byte a.toNat b.toNat a.isLt (Nat.mod_lt (c.toNat >>> (3 * k)) (by decide : 0 < 8))]
  simp only [Nat.shiftRight_eq_div_pow]
  generalize c.toNat / 2 ^ (12 + 2 * k) % 4 = m at hm
  interval_cases m <;> rfl

/-- Byte `k` of the word that BSWZ builds. -/
theorem byte_bswzWord (a b c : W32) {k : Nat} (hk : k < 4) :
    (bswzWord a b c).toNat / 2 ^ (8 * k) % 256 = bswzByte a b c k := by
  have h0 := bswzByte_lt a b c 0
  have h1 := bswzByte_lt a b c 1
  have h2 := bswzByte_lt a b c 2
  have h3 := bswzByte_lt a b c 3
  rw [bswzWord, BitVec.toNat_ofNat]
  interval_cases k <;> omega

/-! ## The rules -/

theorem gives_of_bitRule (i : Instr) (g : Guard) (o : Ops) (R : W32 → W32 → W32 → W32 → Prop)
    (h : Claims.bitRule i = some (g, o, R)) : Gives i g o R := by
  cases i with
  | shl => cases h; exact ⟨fun a b _ => shlWord a b, fun _ => rfl, fun a b _ => toNat_shlWord a b⟩
  | shr _ _ u =>
    cases u with
    | false => cases h; exact ⟨fun a b _ => shrWord false a b, fun _ => rfl, fun a b _ => shrWord_signed a b⟩
    | true => cases h; exact ⟨fun a b _ => shrWord true a b, fun _ => rfl, fun a b _ => toNat_shrWord_unsigned a b⟩
  | rot _ _ right =>
    cases h
    exact ⟨fun a b _ => rotWord right a b, fun _ => rfl, fun a b _ _ => getLsbD_rotWord right a b⟩
  | and => cases h; exact ⟨fun a b _ => a &&& b, fun _ => rfl, fun _ _ _ _ _ => BitVec.getLsbD_and⟩
  | or => cases h; exact ⟨fun a b _ => a ||| b, fun _ => rfl, fun _ _ _ _ _ => BitVec.getLsbD_or⟩
  | xor => cases h; exact ⟨fun a b _ => a ^^^ b, fun _ => rfl, fun _ _ _ _ _ => BitVec.getLsbD_xor⟩
  | andn => cases h; exact ⟨fun a b _ => a &&& ~~~b, fun _ => rfl, fun a b _ _ => getLsbD_andNot a b⟩
  | popc => cases h; exact ⟨fun a _ _ => popWord a, fun _ => rfl, fun a _ _ => toNat_popWord a⟩
  | clz => cases h; exact ⟨fun a _ _ => clzWord a, fun _ => rfl, fun a _ _ => clzWord_spec a⟩
  | brev => cases h; exact ⟨fun a _ _ => revWord a, fun _ => rfl, fun a _ _ _ => getLsbD_revWord a⟩
  | bfe _ _ u => cases h; exact ⟨fun a b c => bfeWord u a b c, fun _ => rfl, fun a b c _ => getLsbD_bfeWord u a b c⟩
  | bfi => cases h; exact ⟨fun a b c => bfiWord a b c, fun _ => rfl, fun a b c _ => getLsbD_bfiWord a b c⟩
  | bswz =>
    cases h
    exact ⟨fun a b c => bswzWord a b c, fun _ => rfl,
      fun a b c k hk => (byte_bswzWord a b c hk).trans (bswzByte_eq a b c k)⟩
  | _ => cases h

theorem shiftsLogicAndFields : Claims.ShiftsLogicAndFields := obeys_of_gives gives_of_bitRule

/-- Settles O1: each instruction gives a function of its source words, and each function meets its rule, by its number
modulo 2^32 or bit by bit. -/
theorem integerArithmetic : Obligations.IntegerArithmetic := ⟨integerOperations, shiftsLogicAndFields⟩

end Sys2Proof.Machine
end

section
/-! SUPPORT. Comparison and selection, and the instructions that write a pair (spec/07 R111, R118 to R120). -/

namespace Sys2Proof.Machine

/-! ## Selection -/

theorem icmpHolds_iff (cmp : ICmp) (x y : Int) : icmpHolds cmp x y = true ↔ match cmp with
    | .eq => x = y | .ne => x ≠ y | .lt => x < y | .le => x ≤ y | .gt => x > y | .ge => x ≥ y := by
  cases cmp <;> simp [icmpHolds]

theorem boolWord_spec {b : Bool} {p : Prop} (h : b = true ↔ p) : (p → boolWord b = 1) ∧ (¬ p → boolWord b = 0) :=
  ⟨fun hp => by rw [h.2 hp]; rfl, fun hn => by rw [Bool.eq_false_iff.2 (mt h.1 hn)]; rfl⟩

/-- PLUT gives the entry of its table whose number has a bit for each source that is not 0. -/
theorem plutWord_eq (lut : BitVec 8) (a b c : W32) : plutWord lut a b c =
    if lut.getLsbD ((if a = 0 then 0 else 1) + 2 * (if b = 0 then 0 else 1) + 4 * (if c = 0 then 0 else 1))
    then 1 else 0 := by
  have twice : (if b = 0 then 0 else 2) = 2 * (if b = 0 then 0 else 1) := by split <;> rfl
  have four : (if c = 0 then 0 else 4) = 4 * (if c = 0 then 0 else 1) := by split <;> rfl
  rw [plutWord, boolWord, twice, four]

theorem gives_of_selectRule (i : Instr) (g : Guard) (o : Ops) (R : W32 → W32 → W32 → W32 → Prop)
    (h : Claims.selectRule i = some (g, o, R)) : Gives i g o R := by
  cases i with
  | itest _ _ u cmp =>
    cases h
    exact ⟨fun a b _ => boolWord (icmpHolds cmp (intRead u a) (intRead u b)), fun _ => rfl,
      fun a b _ => boolWord_spec (icmpHolds_iff cmp _ _)⟩
  | mux =>
    cases h
    exact ⟨fun a b c => if c = 0 then b else a, fun _ => rfl, fun _ _ _ => ⟨fun h => if_neg h, fun h => if_pos h⟩⟩
  | plut _ _ lut =>
    cases h
    exact ⟨fun a b c => plutWord lut a b c, fun _ => rfl, fun a b c => plutWord_eq lut a b c⟩
  | _ => cases h

theorem comparisonAndSelection : Claims.ComparisonAndSelection := obeys_of_gives gives_of_selectRule

/-! ## Pairs -/

theorem toNat_shiftSigned (x : W32) (n : Nat) :
    ((x.signExtend 64 <<< n).toNat : Int) = x.toInt * 2 ^ n % 2 ^ 64 := by
  rw [BitVec.toNat_shiftLeft, Nat.shiftLeft_eq, BitVec.signExtend]
  push_cast
  rw [toNat_ofInt_eq_emod]
  exact (Int.mod_modEq x.toInt (2 ^ 64)).mul_right (2 ^ n)

/-- The sum of two words that hold numbers modulo 2^64. -/
theorem toNat_add_of_emod {x y : W64} {m n : Int} (hx : (x.toNat : Int) = m % 2 ^ 64)
    (hy : (y.toNat : Int) = n % 2 ^ 64) : ((x + y).toNat : Int) = (m + n) % 2 ^ 64 := by
  rw [BitVec.toNat_add]
  push_cast
  rw [hx, hy]
  exact (Int.add_emod m n (2 ^ 64)).symm

theorem toNat_eq_emod (x : W64) : (x.toNat : Int) = (x.toNat : Int) % 2 ^ 64 := by
  have := x.isLt
  omega

/-- What a pair instruction gives each lane, and that it obeys the rule. -/
theorem pair_of_pairRule (i : Instr) (g : Guard) (o : Ops) (R : State → Nat → W64 → Prop)
    (h : Claims.pairRule i = some (g, o, R)) :
    ∃ f : State → Nat → W64, (∀ s, exec i s = perLane g o.d s fun l => .ok (wordsOf (f s l))) ∧
      ∀ s l, R s l (f s l) := by
  cases i with
  | imadw _ _ u =>
    cases h
    exact ⟨fun s l => BitVec.ofInt 64 (intRead u (s.src l .int o.a) * intRead u (s.src l .int o.b)) + s.src64 l o.c,
      fun _ => rfl, fun s l => toNat_add_of_emod (toNat_ofInt_eq_emod 64 _) (toNat_eq_emod _)⟩
  | iadd64 =>
    cases h
    exact ⟨fun s l => s.src64 l o.a + s.src64 l o.b, fun _ => rfl, fun s l => BitVec.toNat_add _ _⟩
  | lea =>
    cases h
    exact ⟨fun s l => s.src64 l o.a + ((s.src l .int o.b).signExtend 64 <<< ((s.src l .int o.c).toNat % 32)),
      fun _ => rfl, fun s l => toNat_add_of_emod (toNat_eq_emod _) (toNat_shiftSigned _ _)⟩
  | _ => cases h

theorem pairArithmetic : Claims.PairArithmetic := by
  intro i s g o R h
  obtain ⟨f, run, obeys⟩ := pair_of_pairRule i g o R h
  obtain ⟨t, e, result⟩ := perLane_result g o.d s fun l => wordsOf (f s l)
  exact ⟨f s, t, obeys s, (run s).trans e, result⟩

/-- Settles O2: comparisons and table entries case by case, and pair results as sums of numbers modulo 2^64. -/
theorem pairsAndSelection : Obligations.PairsAndSelection := ⟨comparisonAndSelection, pairArithmetic⟩

end Sys2Proof.Machine
end

section
/-! SUPPORT. MOVP, and MOVSR as a read: the predicate set bit by bit, and what each special register reads as (spec/02
R31, spec/07 R108, R121, R122). -/

namespace Sys2Proof.Machine

/-! ## The predicate set (R121) -/

/-- The predicate set as one value, P7 reading 1. -/
theorem Lane.getLsbD_predSet (x : Lane) (j : Nat) :
    ((x.p.setWidth 32) ||| (0x80 : W32)).getLsbD j = if j < 8 then x.pred j else false := by
  have top : (0x80 : W32).getLsbD j = decide (j = 7) := by
    change (BitVec.twoPow 32 7).getLsbD j = _
    rw [BitVec.getLsbD_twoPow]; simp [eq_comm]
  rw [BitVec.getLsbD_or, BitVec.getLsbD_setWidth, top, Lane.pred]
  by_cases h7 : j = 7
  · simp [h7]
  by_cases hj : j < 8
  · have : j < 32 := by omega
    simp [hj, h7, this]
  · have : x.p.getLsbD j = false := BitVec.getLsbD_of_ge _ _ (by omega)
    simp [hj, h7, this]

/-- A lane with the predicates that a mask names taken from a value. -/
def Lane.setPreds (x : Lane) (a m : BitVec 7) : Lane := { x with p := (x.p &&& ~~~m) ||| (a &&& m) }

theorem Lane.setPreds_setPreds (x : Lane) (a m : BitVec 7) : (x.setPreds a m).setPreds a m = x.setPreds a m := by
  have bits : ((x.p &&& ~~~m ||| a &&& m) &&& ~~~m) ||| (a &&& m) = x.p &&& ~~~m ||| a &&& m := by
    apply BitVec.eq_of_getLsbD_eq
    intro j hj
    simp only [BitVec.getLsbD_or, BitVec.getLsbD_and, BitVec.getLsbD_not, hj, decide_true, Bool.true_and]
    cases m.getLsbD j <;> simp
  simp only [setPreds, bits]

/-- P7 is no part of the set that a mask writes. -/
theorem Lane.pred_setPreds (x : Lane) (a m : BitVec 7) (j : Nat) :
    (x.setPreds a m).pred j = if m.getLsbD j then a.getLsbD j else x.pred j := by
  by_cases hj : j < 7
  · have h7 : j ≠ 7 := by omega
    simp only [Lane.pred, Lane.setPreds, h7, if_false, BitVec.getLsbD_or, BitVec.getLsbD_and, BitVec.getLsbD_not, hj]
    cases m.getLsbD j <;> simp
  · have hm : m.getLsbD j = false := BitVec.getLsbD_of_ge _ _ (by omega)
    by_cases h7 : j = 7
    · simp [Lane.pred, h7]
    · simp [hm, h7, Lane.pred, Lane.setPreds, BitVec.getLsbD_of_ge _ j (Nat.le_of_not_lt hj)]

/-- The predicates that MOVP's mask names: all seven without one. -/
def State.predMask (s : State) (o : Ops) (l : Nat) : BitVec 7 :=
  if o.b = .none then .allOnes 7 else (s.src l .int o.b).setWidth 7

theorem State.getLsbD_predMask (s : State) (o : Ops) (l : Nat) (j : Nat) :
    (s.predMask o l).getLsbD j = true ↔ j < 7 ∧ (o.b = .none ∨ (s.src l .int o.b).getLsbD j = true) := by
  rw [State.predMask]
  split
  next h => rw [BitVec.getLsbD_allOnes, decide_eq_true_eq, and_iff_left (.inl h)]
  next h => simp [h]

theorem exec_movpWrite (g : Guard) (o : Ops) (s : State) : exec (.movpWrite g o) s = .next
    ((s.exec g).foldl (fun t l => t.modLane l (·.setPreds ((s.src l .int o.a).setWidth 7) (s.predMask o l))) s) := rfl

theorem predicateSets : Claims.PredicateSets := by
  refine ⟨fun _ _ => rfl, fun s g o => ?_, fun s g o => ?_⟩
  · obtain ⟨t, e, result⟩ := perLane_result g o.d s fun l => [(s.lane l).p.setWidth 32 ||| 0x80]
    exact ⟨t, _, e, result, fun l j _ => (s.lane l).getLsbD_predSet j⟩
  · have lanes := State.lane_foldl_modLane (s.exec g)
      (fun l x => x.setPreds ((s.src l .int o.a).setWidth 7) (s.predMask o l))
      (fun l x => x.setPreds_setPreds _ _) s fun l hl => State.hasLane_of_mem_exec hl
    refine ⟨_, exec_movpWrite g o s, onlyLanes_foldl _ (fun t l => onlyLanes_modLane t l _) _ _,
      fun l hl => by rw [lanes, if_neg hl], fun l hl => ⟨by rw [lanes, if_pos hl]; rfl, fun j _ => ?_⟩⟩
    rw [lanes, if_pos hl, Lane.pred_setPreds]
    simp only [State.getLsbD_predMask]
    split
    next h => simp [h.1]
    next => rfl

/-! ## Special registers (spec/02 R31) -/

/-- A special register reads as its holder's value. -/
theorem State.readSr_eq_srOf (s : State) (l : Nat) (sr : SReg) : s.readSr l sr = Claims.srOf s l sr := by
  cases sr with
  | fault i => match i with
    | 0 => rfl
    | 1 => rfl
    | 2 => rfl
    | 3 => rfl
  | launch =>
    simp only [State.readSr, State.launchNum, Claims.srOf]
    cases s.launchOf (coreOf l) <;> rfl
  | poolmin => simp only [State.readSr, Claims.srOf, Lane.qsel_eq]
  | poolcap => simp only [State.readSr, Claims.srOf, Lane.qsel_eq]
  | _ => rfl

theorem exec_movsrRead {s : State} {sr : SReg} (h : Claims.mayTouch s sr) (g : Guard) (o : Ops) :
    exec (.movsrRead g o sr) s = perLane g o.d s fun l => .ok (if Claims.wideSr sr
      then wordsOf (Claims.srOf s l sr) else [(Claims.srOf s l sr).setWidth 32]) := by
  change execMovsrRead g o sr s = _
  simp only [execMovsrRead, State.checkSrPriv_of_mayTouch h, wide_eq_wideSr, State.readSr_eq_srOf]

theorem specialRegisterReads : Claims.SpecialRegisterReads := fun s g o sr h => by
  rw [exec_movsrRead h]
  exact perLane_result g o.d s _

/-- Settles O11: the predicate set bit by bit, and each special register by the unit that holds it. -/
theorem predicatesAndSpecialReads : Obligations.PredicatesAndSpecialReads := ⟨predicateSets, specialRegisterReads⟩

end Sys2Proof.Machine
end

section
/-! SUPPORT. Floating operations of one result word: the sources after FTZI and the rounded result in the statements'
own terms, FP32 arithmetic and packed halves (spec/03 R52, R56, R58, spec/08 R128, R134, R135, R139). -/

namespace Sys2Proof.Machine

/-! ## Sources and results -/

/-- FTZI of a floating format but FP64 is its bit of SR.MODE. -/
theorem ftzi_eq {f : Fmt} (float : f.isInt = false) (notFp64 : f ≠ .fp64) (m : W64) :
    ftzi m f = decide (modeField m f / 16 % 2 = 1) := by
  simp [ftzi, float, notFp64]

theorem flushIn_eq {f : Fmt} (float : f.isInt = false) (notFp64 : f ≠ .fp64) (m : W64) (x : FVal) :
    flushIn m f x = if modeField m f / 16 % 2 = 1 then x.flush f else x := by
  rw [flushIn, ftzi_eq float notFp64]
  simp only [decide_eq_true_eq]

/-- An FP32 source as the statements read it. -/
theorem State.val_fp32 (s : State) (l : Nat) (o : Operand) : s.val l .fp32 o = Claims.fp s l o := by
  have bits : (s.src l .fp32 o).toNat % 2 ^ 32 = (s.src l .fp32 o).toNat := Nat.mod_eq_of_lt (s.src l .fp32 o).isLt
  change flushIn (s.mode l) .fp32 (decodeFmt .fp32 ((s.src l .fp32 o).toNat % 2 ^ 32)) = _
  rw [bits, flushIn_eq (f := .fp32) rfl (by decide)]
  rfl

/-- A value rounded as a lane's result gives what the statements say. -/
theorem State.rounded_eq (s : State) (l : Nat) (f : Fmt) (rm : Rm) (x : FVal × Flags) :
    s.rounded l f rm x =
      .ok (Claims.round1 s l f rm x).1 (Claims.round1 s l f rm x).2.1 (Claims.round1 s l f rm x).2.2 := rfl

/-- An instruction that gives each executing lane words, flags and its use of RS. -/
theorem perLane_given (g : Guard) (d : Operand) (s : State) (x : Nat → Claims.Given) :
    ∃ t, perLane g d s (fun l => .ok (x l).1 (x l).2.1 (x l).2.2) = .next t ∧
      Result s t g d (fun l => (x l).1) (fun l => (x l).2.1) (fun l => (x l).2.2) :=
  ⟨_, rfl, State.perLane_ok fun _ _ => rfl⟩

/-! ## FP32 operations (R128, R135, R139) -/

/-- Each operation rounds the exact result that its rule names. -/
theorem exec_of_fp32Rule (i : Instr) (s : State) (g : Guard) (o : Ops) (rm : Rm) (f : State → Nat → FVal × Flags)
    (h : Claims.fp32Rule i = some (g, o, rm, f)) :
    exec i s = perLane g o.d s fun l => s.rounded l .fp32 rm (f s l) := by
  cases i with
  | fadd | fsub | fmul | ffma | fdiv | hdot2 => cases h; simp only [← State.val_fp32]; rfl
  | i2f => cases h; rfl
  | _ => cases h

theorem floatOperations : Claims.FloatOperations := by
  intro i s g o rm f h
  obtain ⟨t, run, result⟩ := perLane_given g o.d s fun l => Claims.round1 s l .fp32 rm (f s l)
  exact ⟨t, (exec_of_fp32Rule i s g o rm f h).trans run, result⟩

/-! ## Packed halves (R134) -/

theorem halfFmt_float (bf : Bool) : (halfFmt bf).isInt = false ∧ halfFmt bf ≠ .fp64 := by
  cases bf <;> decide

/-- An element of a packed source as the statements read it. -/
theorem State.half_eq (s : State) (l : Nat) (bf : Bool) (o : Operand) (i : Nat) :
    s.half l (halfFmt bf) o i = Claims.elem s l (halfFmt bf) o i := by
  rw [State.half, flushIn_eq (halfFmt_float bf).1 (halfFmt_float bf).2, Nat.shiftRight_eq_div_pow]
  rfl

/-- Each packed instruction gives the elements that its rule names. -/
theorem exec_of_packedRule (i : Instr) (s : State) (g : Guard) (o : Ops) (bf : Bool) (rm : Rm)
    (f : Rm → FVal → FVal → FVal → FVal × Flags) (h : Claims.packedRule i = some (g, o, bf, rm, f)) :
    exec i s = packed g o bf rm s f := by
  cases i with
  | hadd2 | hmul2 | hfma2 => cases h; rfl
  | _ => cases h

theorem packedHalves : Claims.PackedHalves := by
  intro i s g o bf rm f h
  refine ⟨s.perLane g o.d _, exec_of_packedRule i s g o bf rm f h, State.perLane_ok fun l _ => ?_⟩
  simp only [State.half_eq]
  rfl

/-- Settles O7: each instruction rounds the exact result of its rule, in the statement's terms. -/
theorem floatArithmetic : Obligations.FloatArithmetic := ⟨floatOperations, packedHalves⟩

end Sys2Proof.Machine
end

section
/-! SUPPORT. FP32 patterns: their fields, FTZI on the bits, and what scaling and rounding to an integer give (spec/03
R44, R52, R56, spec/08 R132). -/

namespace Sys2Proof.Machine

/-! ## Fields under a mask -/

/-- A mask of `n` ones from bit `k` keeps a field in its place. -/
theorem and_shifted_ones (x n k : Nat) : x &&& (2 ^ n - 1) <<< k = x / 2 ^ k % 2 ^ n * 2 ^ k := by
  have moved : x &&& (2 ^ n - 1) <<< k = (x >>> k &&& (2 ^ n - 1)) <<< k := by
    refine Nat.eq_of_testBit_eq fun j => ?_
    simp only [Nat.testBit_and, Nat.testBit_shiftLeft, Nat.testBit_shiftRight]
    by_cases h : k ≤ j
    · simp [h]
    · simp [h]
  rw [moved, Nat.and_two_pow_sub_one_eq_mod, Nat.shiftLeft_eq, Nat.shiftRight_eq_div_pow]

/-- The exponent bits of an FP32 pattern are clear when its exponent field is 0. -/
theorem exponentMask_eq_zero_iff (b : W32) : b &&& 0x7F800000 = 0 ↔ b.toNat / 2 ^ 23 % 2 ^ 8 = 0 := by
  rw [← BitVec.toNat_inj, BitVec.toNat_and]
  change b.toNat &&& (2 ^ 8 - 1) <<< 23 = 0 ↔ _
  rw [and_shifted_ones]
  simp

theorem toNat_signMask (b : W32) : (b &&& 0x80000000).toNat = b.toNat / 2 ^ 31 % 2 ^ 1 * 2 ^ 31 := by
  rw [BitVec.toNat_and]
  exact and_shifted_ones b.toNat 1 31

/-! ## The fields of an FP32 pattern (R44) -/

theorem decodeFmt_fp32 (n : Nat) : decodeFmt .fp32 n =
    if n / 2 ^ 23 % 2 ^ 8 = 255 then
      if n % 2 ^ 23 = 0 then .inf (n / 2 ^ 31 % 2 = 1) else .nan (n / 2 ^ 31 % 2 = 1) (n % 2 ^ 23 < 2 ^ 22)
    else if n / 2 ^ 23 % 2 ^ 8 = 0 then .fin (n / 2 ^ 31 % 2 = 1) (n % 2 ^ 23) (-149)
    else .fin (n / 2 ^ 31 % 2 = 1) (2 ^ 23 + n % 2 ^ 23) ((n / 2 ^ 23 % 2 ^ 8 : Nat) - 150) := by
  have bias : ((n / 2 ^ 23 % 2 ^ 8 : Nat) : Int) - 150 = (n / 2 ^ 23 % 2 ^ 8 : Nat) - 127 - 23 := by ring
  rw [bias]
  simp only [decodeFmt, Fmt.ieee, Fmt.signBit, Fmt.eBits, Fmt.mBits, Fmt.bias, true_and, reduceCtorEq, false_and,
    if_false]
  rfl

/-- Bits above the pattern's 32 are not read. -/
theorem decodeFmt_fp32_mod (n : Nat) : decodeFmt .fp32 (n % 2 ^ 32) = decodeFmt .fp32 n := by
  have sign : n % 2 ^ 32 / 2 ^ 31 % 2 = n / 2 ^ 31 % 2 := by omega
  have field : n % 2 ^ 32 / 2 ^ 23 % 2 ^ 8 = n / 2 ^ 23 % 2 ^ 8 := by omega
  have fraction : n % 2 ^ 32 % 2 ^ 23 = n % 2 ^ 23 := by omega
  rw [decodeFmt_fp32, decodeFmt_fp32, sign, field, fraction]

theorem decodeFmt_fp32_ofNat (n : Nat) : decodeFmt .fp32 (BitVec.ofNat 32 n).toNat = decodeFmt .fp32 n := by
  rw [BitVec.toNat_ofNat, decodeFmt_fp32_mod]

/-- The finite values of FP32 have 24 bits, and exponents from −149 to 104. -/
theorem decodeFmt_fp32_bounds {n : Nat} {neg : Bool} {m : Nat} {e : Int} (h : decodeFmt .fp32 n = .fin neg m e) :
    m < 2 ^ 24 ∧ -149 ≤ e ∧ e ≤ 104 := by
  have fraction : n % 2 ^ 23 < 2 ^ 23 := Nat.mod_lt _ (by norm_num)
  have field : n / 2 ^ 23 % 2 ^ 8 < 2 ^ 8 := Nat.mod_lt _ (by norm_num)
  rw [decodeFmt_fp32] at h
  split at h
  · split at h <;> cases h
  · split at h <;> cases h <;> omega

/-! ## Sources after FTZI (R56) -/

/-- FTZI takes a subnormal to a zero: the exponent field is 0. -/
theorem flush_decodeFmt_fp32 (n : Nat) : (decodeFmt .fp32 n).flush .fp32 =
    if n / 2 ^ 23 % 2 ^ 8 = 0 then .fin (n / 2 ^ 31 % 2 = 1) 0 (-149) else decodeFmt .fp32 n := by
  have fraction : n % 2 ^ 23 < 2 ^ 23 := Nat.mod_lt _ (by norm_num)
  have flushed (neg : Bool) (m : Nat) (e : Int) : (FVal.fin neg m e).flush .fp32 =
      if m < 2 ^ 23 ∧ e = -149 then .fin neg 0 e else .fin neg m e := rfl
  rw [decodeFmt_fp32]
  by_cases top : n / 2 ^ 23 % 2 ^ 8 = 255
  · have notZero : n / 2 ^ 23 % 2 ^ 8 ≠ 0 := by omega
    rw [if_pos top, if_neg notZero]
    split <;> rfl
  · rw [if_neg top]
    by_cases zero : n / 2 ^ 23 % 2 ^ 8 = 0
    · rw [if_pos zero, if_pos zero, flushed, if_pos ⟨fraction, rfl⟩]
    · rw [if_neg zero, if_neg zero, flushed, if_neg (by omega)]

/-- The bits after FTZI stand for the value after FTZI. -/
theorem State.decode_valBits (s : State) (l : Nat) (o : Operand) :
    decodeFmt .fp32 (s.valBits l o).toNat = Claims.fp s l o := by
  generalize hb : s.src l .fp32 o = b
  have value : Claims.fp s l o = if ftzi (s.mode l) .fp32 then (decodeFmt .fp32 b.toNat).flush .fp32
      else decodeFmt .fp32 b.toNat := by
    rw [ftzi_eq (f := .fp32) rfl (by decide), ← hb]
    simp only [decide_eq_true_eq]
    rfl
  have bits : s.valBits l o = if ftzi (s.mode l) .fp32 = true ∧ b.toNat / 2 ^ 23 % 2 ^ 8 = 0 then b &&& 0x80000000
      else b := by
    simp only [← exponentMask_eq_zero_iff, ← hb, State.valBits, Bool.and_eq_true, beq_iff_eq]
  rw [value, bits]
  by_cases on : ftzi (s.mode l) .fp32 = true
  · rw [if_pos on, flush_decodeFmt_fp32]
    by_cases zero : b.toNat / 2 ^ 23 % 2 ^ 8 = 0
    · rw [if_pos ⟨on, zero⟩, if_pos zero, toNat_signMask, decodeFmt_fp32, if_neg (by omega), if_pos (by omega)]
      congr 1
      · congr 1; apply propext; omega
      · omega
    · rw [if_neg (fun h => zero h.2), if_neg zero]
  · rw [if_neg (fun h => on h.1), if_neg on]

/-- A finite source has 24 bits, and an exponent from −149 to 104. -/
theorem fp_bounds {s : State} {l : Nat} {o : Operand} {neg : Bool} {m : Nat} {e : Int}
    (h : Claims.fp s l o = .fin neg m e) : m < 2 ^ 24 ∧ -149 ≤ e ∧ e ≤ 104 :=
  decodeFmt_fp32_bounds ((s.decode_valBits l o).trans h)

/-! ## Values that a format's precision holds -/

/-- Such a magnitude is the multiple of its grid that it is. -/
theorem toPrecision_exact {f : Fmt} (c : Ctl) (rs : Nat) (neg : Bool) {m : Nat} (e : Int) (hm : m ≠ 0)
    (fits : m < 2 ^ (f.mBits + 1)) :
    ((toPrecision f c rs neg m e).1 : ℚ) * (2 : ℚ) ^ precisionStep f m e = m * (2 : ℚ) ^ e := by
  have le : precisionStep f m e ≤ e := by
    have := (Nat.log2_lt hm).2 fits
    rw [precisionStep]; omega
  rw [toPrecision, roundTo_of_le _ _ _ _ le, ← mul_zpow_of_le m le]

theorem decode_maxBits_fp32 : decodeFmt .fp32 (Fmt.maxBits .fp32) = .fin false 16777215 104 := by decide +kernel

/-- A value of 24 bits in FP32's normal range is itself in FP32. -/
theorem roundFin_fp32_exact (c : Ctl) (rs : Nat) (neg : Bool) {m : Nat} {e : Int} (hm : m ≠ 0) (fits : m < 2 ^ 24)
    (lo : -126 ≤ e) (hi : e ≤ 104) :
    (decodeFmt .fp32 (roundFin .fp32 c rs neg m e).1).neg = neg ∧
      |Claims.num (decodeFmt .fp32 (roundFin .fp32 c rs neg m e).1)| = m * (2 : ℚ) ^ e := by
  have exact := toPrecision_exact (f := .fp32) c rs neg e hm fits
  have one : (1 : ℚ) ≤ m := by exact_mod_cast Nat.one_le_iff_ne_zero.2 hm
  have most : (m : ℚ) ≤ 16777215 := by exact_mod_cast Nat.le_pred_of_lt fits
  have largest : Claims.num (decodeFmt .fp32 (Fmt.maxBits .fp32)) = 16777215 * (2 : ℚ) ^ (104 : Int) := by
    rw [decode_maxBits_fp32]; rfl
  have notBig : ¬ Claims.num (decodeFmt .fp32 (Fmt.maxBits .fp32)) <
      ((toPrecision .fp32 c rs neg m e).1 : ℚ) * (2 : ℚ) ^ precisionStep .fp32 m e := by
    rw [exact, largest, not_lt]
    exact mul_le_mul most (zpow_le_zpow_right₀ one_le_two hi) (zpow_pos two_pos _).le (by norm_num)
  have notTiny : ¬ ((toPrecision .fp32 c rs neg m e).1 : ℚ) * (2 : ℚ) ^ precisionStep .fp32 m e <
      (2 : ℚ) ^ (leastStep .fp32 + (Fmt.mBits .fp32 : Int)) := by
    rw [exact, not_lt]
    calc (2 : ℚ) ^ (leastStep .fp32 + (Fmt.mBits .fp32 : Int)) ≤ 2 ^ e := zpow_le_zpow_right₀ one_le_two lo
      _ ≤ m * 2 ^ e := le_mul_of_one_le_left (zpow_pos two_pos _).le one
  rw [(roundFin_normal (by decide) hm notBig notTiny).2]
  exact ⟨rfl, (abs_num_fin _ _ _).trans (roundedAt_value.trans exact)⟩

/-! ## Values far beyond FP32's range -/

theorem roundFin_fp32_huge (c : Ctl) (rs : Nat) (neg : Bool) {m : Nat} {e : Int} (hm : m ≠ 0) (fits : m < 2 ^ 24)
    (far : 128 ≤ e) : roundFin .fp32 c rs neg m e = (overflowBits .fp32 c neg, 4 ||| 16) := by
  refine roundFin_overflow (by decide) hm ?_
  rw [toPrecision_exact (f := .fp32) c rs neg e hm fits, decode_maxBits_fp32]
  calc Claims.num (.fin false 16777215 104) < (2 : ℚ) ^ (128 : Int) := by norm_num [Claims.num]
    _ ≤ 2 ^ e := zpow_le_zpow_right₀ one_le_two far
    _ ≤ m * 2 ^ e := le_mul_of_one_le_left (zpow_pos two_pos _).le (by exact_mod_cast Nat.one_le_iff_ne_zero.2 hm)

/-- Does a magnitude far below a grid go up to its first step? -/
def farUpper (rm : Rm) (rs : Nat) (neg : Bool) : Bool :=
  match rm with
  | .ru => !neg
  | .rd => neg
  | .rs => (rs < if neg then 2 ^ 32 - 1 else 0) != neg
  | _ => false

/-- 2^32 times what a small number leaves of 2^k. -/
theorem shifted_complement {m k : Nat} (hm : m ≠ 0) (small : m * 2 ^ 33 < 2 ^ k) :
    ((2 ^ k - m) <<< 32) >>> k = 2 ^ 32 - 1 := by
  rw [Nat.shiftLeft_eq, Nat.shiftRight_eq_div_pow]
  refine Nat.div_eq_of_lt_le ?_ ?_
  · rw [Nat.sub_mul]; omega
  · rw [Nat.sub_mul]; omega

theorem roundTo_far (rm : Rm) (rs : Nat) (neg : Bool) {m : Nat} {e q : Int} (hm : m ≠ 0) (below : e < q)
    (small : m * 2 ^ 33 < 2 ^ (q - e).toNat) :
    roundTo rm rs neg m e q = (if farUpper rm rs neg then 1 else 0, true) := by
  generalize hk : (q - e).toNat = k at small
  have less : m < 2 ^ k := by omega
  have upper : takesUpper rm rs neg 0 m k = farUpper rm rs neg := by
    cases rm
    case rs =>
      cases neg
      · have none : (m <<< 32) >>> k = 0 := by
          rw [Nat.shiftLeft_eq, Nat.shiftRight_eq_div_pow]
          exact Nat.div_eq_of_lt (lt_of_le_of_lt (Nat.mul_le_mul_left m (by norm_num)) small)
        simp only [takesUpper, farUpper, Bool.false_eq_true, if_false, none]
      · simp only [takesUpper, farUpper, if_true, shifted_complement hm small]
    case rz | ru | rd => rfl
    case rna => exact decide_eq_false (by omega)
    all_goals
      simp only [takesUpper, farUpper, Bool.or_eq_false_iff, decide_eq_false_iff_not, Bool.and_eq_false_iff]
      exact ⟨by omega, .inr rfl⟩
  rw [roundTo_off_grid rm rs neg m below (by rw [hk, Nat.mod_eq_of_lt less]; exact hm), hk, Nat.div_eq_of_lt less,
    Nat.mod_eq_of_lt less, chosen, upper]

/-- Far below FP32's least step the exponent no longer shows. -/
theorem roundFin_fp32_far (c : Ctl) (rs : Nat) (neg : Bool) {m : Nat} {e : Int} (hm : m ≠ 0) (fits : m < 2 ^ 24)
    (far : e ≤ -250) : roundFin .fp32 c rs neg m e =
      (Fmt.fp32.signed neg (if c.ftzo then 0 else if farUpper c.rm rs neg then 1 else 0), 8 ||| 16) := by
  have least : leastStep .fp32 = -149 := rfl
  have tiny : (roundedAt .fp32 c rs neg m e).2 < leastStep .fp32 := by
    rw [← tiny_iff hm, toPrecision_exact (f := .fp32) c rs neg e hm fits, least]
    calc (m : ℚ) * 2 ^ e ≤ 2 ^ (24 : Int) * 2 ^ (-250 : Int) :=
          mul_le_mul (by exact_mod_cast fits.le) (zpow_le_zpow_right₀ one_le_two far) (zpow_pos two_pos _).le
            (by norm_num)
      _ < 2 ^ ((-149 : Int) + (Fmt.mBits .fp32 : Int)) := by norm_num [Fmt.mBits]
  have small : m * 2 ^ 33 < 2 ^ (leastStep .fp32 - e).toNat :=
    calc m * 2 ^ 33 < 2 ^ 24 * 2 ^ 33 := Nat.mul_lt_mul_of_pos_right fits (by norm_num)
      _ = 2 ^ 57 := by norm_num
      _ ≤ 2 ^ (leastStep .fp32 - e).toNat := Nat.pow_le_pow_right two_pos (by omega)
  rw [roundFin_of_ne_zero hm, if_pos tiny, roundTo_far c.rm rs neg hm (by omega) small]
  cases c.ftzo <;> rfl

/-- FSCALE's bound on the exponent changes no result. -/
theorem roundFin_fp32_clamp (c : Ctl) (rs : Nat) (neg : Bool) {m : Nat} {e : Int} (n : Int) (fits : m < 2 ^ 24)
    (lo : -149 ≤ e) (hi : e ≤ 104) :
    roundFin .fp32 c rs neg m (e + clamp (-1000) 1000 n) = roundFin .fp32 c rs neg m (e + n) := by
  by_cases hm : m = 0
  · rw [roundFin, roundFin, if_pos hm, if_pos hm]
  rw [clamp]
  split
  · rw [roundFin_fp32_far c rs neg hm fits (by omega), roundFin_fp32_far c rs neg hm fits (by omega)]
  split
  · rw [roundFin_fp32_huge c rs neg hm fits (by omega), roundFin_fp32_huge c rs neg hm fits (by omega)]
  · rfl

end Sys2Proof.Machine
end

section
/-! SUPPORT. FSCALE and FRND, FMIN and FMAX, FTEST and FCLASS (spec/08 R129 to R132). -/

namespace Sys2Proof.Machine

/-! ## FSCALE (R128) -/

/-- A value rounded in each executing lane. -/
theorem perLane_rounded (g : Guard) (d : Operand) (s : State) (rm : Rm) (x : Nat → FVal × Flags) :
    ∃ (t : State) (r : Nat → W32) (fl : Nat → Flags), perLane g d s (fun l => s.rounded l .fp32 rm (x l)) = .next t ∧
      Result s t g d (fun l => [r l]) fl (fun l => Claims.rm32 s l rm == .rs) ∧
      ∀ l, ([r l], fl l, Claims.rm32 s l rm == .rs) = Claims.round1 s l .fp32 rm (x l) :=
  ⟨_, _, _, rfl, State.perLane_ok fun _ _ => rfl, fun _ => rfl⟩

/-- A result that rounds to known bits and flags. -/
theorem eq_of_round1 {s : State} {l : Nat} {rm : Rm} {x : FVal × Flags} {r b : W32} {fl fl' : Flags} {u v : Bool}
    (h : ([r], fl, u) = Claims.round1 s l .fp32 rm x) (hx : Claims.round1 s l .fp32 rm x = ([b], fl', v)) :
    r = b ∧ fl = fl' := by
  have same := h.trans hx
  simp only [Prod.mk.injEq, List.cons.injEq] at same
  exact ⟨same.1.1, same.2.1⟩

theorem round1_inf (s : State) (l : Nat) (rm : Rm) (neg : Bool) : Claims.round1 s l .fp32 rm (.inf neg, 0) =
    ([if neg then 0xFF800000 else 0x7F800000], 0, Claims.rm32 s l rm == .rs) := by
  have bits : BitVec.ofNat 32 (Fmt.fp32.signed neg Fmt.fp32.infBits) = if neg then 0xFF800000 else 0x7F800000 := by
    cases neg <;> rfl
  simp only [Claims.round1, round_inf_of_ieee (f := .fp32) rfl, bits]
  rfl

theorem round1_nan (s : State) (l : Nat) (rm : Rm) (sig : Bool) :
    Claims.round1 s l .fp32 rm (.nan false false, if sig then 1 else 0) =
      ([0x7FC00000], if sig then 1 else 0, Claims.rm32 s l rm == .rs) := by
  have bits : BitVec.ofNat 32 (Fmt.fp32.signed false Fmt.fp32.nanBits) = 0x7FC00000 := rfl
  simp only [Claims.round1, round_nan_of_not_fp6 (f := .fp32) rfl, bits]
  cases sig <;> rfl

/-! ## FRND (R132) -/

/-- What FRND gives a lane: bits, flags and whether it rounded under RS. -/
def integralRounding (s : State) (l : Nat) (o : Operand) (rm : Rm) : W32 × Flags × Bool :=
  match Claims.fp s l o with
  | .nan _ sig => (0x7FC00000, if sig then 1 else 0, false)
  | .inf _ => (s.valBits l o, 0, false)
  | .fin neg m e =>
    if m = 0 ∨ 0 ≤ e then (s.valBits l o, 0, false)
    else
      let r := roundTo (Claims.rm32 s l rm) (s.rs l 0) neg m e 0
      (BitVec.ofNat 32 (roundFin .fp32 Ctl.nearest 0 neg r.1 0).1, if r.2 then 16 else 0, Claims.rm32 s l rm == .rs)

theorem exec_frnd (g : Guard) (o : Ops) (rm : Rm) (s : State) :
    exec (.frnd g o rm) s = perLane g o.d s fun l => .ok [(integralRounding s l o.a rm).1]
      (integralRounding s l o.a rm).2.1 (integralRounding s l o.a rm).2.2 := by
  change execFrnd g o rm s = _
  simp only [execFrnd, State.val_fp32]
  congr 1
  funext l
  rw [integralRounding]
  rcases Claims.fp s l o.a with _ | _ | ⟨neg, m, e⟩
  · rfl
  · rfl
  · by_cases h : m = 0 ∨ 0 ≤ e
    · simp only [if_pos h]
    · simp only [if_neg h]; rfl

/-- The bits of an FP32 infinity. -/
theorem eq_of_decode_inf {b : W32} {neg : Bool} (h : decodeFmt .fp32 b.toNat = .inf neg) :
    b = if neg then 0xFF800000 else 0x7F800000 := by
  have small := b.isLt
  rw [decodeFmt_fp32] at h
  split at h
  next top =>
    split at h
    next none =>
      injection h with sign
      rw [← sign]
      by_cases set : b.toNat / 2 ^ 31 % 2 = 1
      · rw [if_pos (decide_eq_true set)]
        apply BitVec.eq_of_toNat_eq
        change b.toNat = 0xFF800000
        omega
      · rw [if_neg (by simpa using set)]
        apply BitVec.eq_of_toNat_eq
        change b.toNat = 0x7F800000
        omega
    next => cases h
  next => split at h <;> cases h

/-- A magnitude of 24 bits below 2^24 rounds to an integer that FP32 holds. -/
theorem decode_integralRounding (rm : Rm) (rs : Nat) (neg : Bool) {m : Nat} {e : Int} (fits : m < 2 ^ 24)
    (below : e < 0) :
    (decodeFmt .fp32 (roundFin .fp32 Ctl.nearest 0 neg (roundTo rm rs neg m e 0).1 0).1).neg = neg ∧
      |Claims.num (decodeFmt .fp32 (roundFin .fp32 Ctl.nearest 0 neg (roundTo rm rs neg m e 0).1 0).1)| =
        ((roundTo rm rs neg m e 0).1 : ℚ) := by
  have bound : (roundTo rm rs neg m e 0).1 ≤ 2 ^ 24 - 1 := by
    refine roundTo_le rm rs neg ?_
    have one : (2 : ℚ) ^ e ≤ 1 := zpow_le_one_of_nonpos₀ one_le_two below.le
    have most : (m : ℚ) ≤ ((2 ^ 24 - 1 : Nat) : ℚ) := by exact_mod_cast Nat.le_pred_of_lt fits
    rw [zpow_zero, mul_one]
    exact (mul_le_of_le_one_right (by positivity) one).trans most
  generalize (roundTo rm rs neg m e 0).1 = k at bound
  by_cases zero : k = 0
  · rw [zero]
    cases neg <;> simp [roundFin, decodeFmt_fp32, Fmt.signed, Fmt.signBit, Fmt.eBits, Fmt.mBits, FVal.neg, Claims.num]
  · have exact := roundFin_fp32_exact Ctl.nearest 0 neg zero (e := 0) (by omega) (by norm_num) (by norm_num)
    simpa using exact

theorem scalingAndIntegralRounding : Claims.ScalingAndIntegralRounding := by
  refine ⟨fun s g o rm => ?_, fun s g o rm => ?_⟩
  · obtain ⟨t, r, fl, run, result, given⟩ := perLane_rounded g o.d s rm fun l =>
      arith ((Claims.fp s l o.a).scale (clamp (-1000) 1000 (s.src l .int o.b).toInt))
    refine ⟨t, r, fl, ?_, result, fun l => ?_⟩
    · simp only [← State.val_fp32] at run
      exact run
    · have here := given l
      dsimp only
      split
      next neg m e value =>
        obtain ⟨fits, lo, hi⟩ := fp_bounds value
        rw [value] at here
        refine here.trans ?_
        simp only [FVal.scale, arith, Claims.round1, FVal.round, roundFin_fp32_clamp _ _ _ _ fits lo hi]
      next neg value =>
        rw [value] at here
        exact eq_of_round1 here (round1_inf s l rm neg)
      next neg sig value =>
        rw [value] at here
        exact eq_of_round1 here (round1_nan s l rm sig)
  · obtain ⟨t, run, result⟩ := perLane_given g o.d s fun l =>
      ([(integralRounding s l o.a rm).1], (integralRounding s l o.a rm).2)
    refine ⟨t, _, _, _, (exec_frnd g o rm s).trans run, result, fun l => ?_⟩
    have kept := s.decode_valBits l o.a
    dsimp only
    split
    next neg sig value => simp only [integralRounding, value, and_self]
    next neg value =>
      rw [value] at kept
      simp only [integralRounding, value, and_self, and_true]
      exact eq_of_decode_inf kept
    next neg m e value =>
      rw [value] at kept
      simp only [integralRounding, value]
      refine ⟨fun h => ?_, fun hm below => ?_⟩
      · rw [if_pos h]
        exact ⟨kept, rfl, rfl⟩
      · rw [if_neg (by omega)]
        obtain ⟨sign, magnitude⟩ :=
          decode_integralRounding (Claims.rm32 s l rm) (s.rs l 0) neg (fp_bounds value).1 below
        dsimp only
        rw [decodeFmt_fp32_ofNat]
        exact ⟨sign, magnitude, rfl, rfl⟩

/-! ## FMIN and FMAX (R129) -/

theorem cmp_self {a : FVal} (h : ¬ a.isNan) : a.cmp a = some 0 := by
  cases a with
  | nan => exact absurd rfl h
  | inf => simp [FVal.cmp]
  | fin => simp [cmp_fin]

/-- Values that are no NaNs compare, and the other way round with the opposite sign. -/
theorem cmp_swap {a b : FVal} (ha : ¬ a.isNan) (hb : ¬ b.isNan) :
    ∃ c : Int, a.cmp b = some c ∧ b.cmp a = some (-c) := by
  rcases a with _ | na | ⟨na, ma, ea⟩
  · exact absurd rfl ha
  · rcases b with _ | nb | _
    · exact absurd rfl hb
    · exact ⟨_, rfl, by cases na <;> cases nb <;> rfl⟩
    · exact ⟨_, rfl, by cases na <;> rfl⟩
  · rcases b with _ | nb | ⟨nb, mb, eb⟩
    · exact absurd rfl hb
    · exact ⟨_, rfl, by cases nb <;> rfl⟩
    · refine ⟨_, cmp_fin na nb ma mb ea eb, ?_⟩
      rw [cmp_fin]
      rcases lt_trichotomy (Claims.num (.fin na ma ea)) (Claims.num (.fin nb mb eb)) with h | h | h
      · simp [h, h.not_gt, h.ne']
      · simp [h]
      · simp [h, h.not_gt, h.ne']

theorem minMax_flags (max nan : Bool) (a b : W32) : (minMax max nan a b).2 =
    if (decodeFmt .fp32 a.toNat).isSig || (decodeFmt .fp32 b.toNat).isSig then 1 else 0 := by
  simp only [minMax]
  split
  · rfl
  split
  · rfl
  split <;> rfl

section Picks

variable {a b : W32} (max nan : Bool)

/-- A NaN gives way to the other operand, unless both are NaNs or .NAN asks for one. -/
theorem minMax_of_nan :
    ((decodeFmt .fp32 a.toNat).isNan ∧ (decodeFmt .fp32 b.toNat).isNan → (minMax max nan a b).1 = 0x7FC00000) ∧
    (((decodeFmt .fp32 a.toNat).isNan ∨ (decodeFmt .fp32 b.toNat).isNan) → nan → (minMax max nan a b).1 = 0x7FC00000) ∧
    ((decodeFmt .fp32 a.toNat).isNan → ¬ (decodeFmt .fp32 b.toNat).isNan → ¬ nan → (minMax max nan a b).1 = b) ∧
    (¬ (decodeFmt .fp32 a.toNat).isNan → (decodeFmt .fp32 b.toNat).isNan → ¬ nan → (minMax max nan a b).1 = a) := by
  refine ⟨fun ⟨ha, hb⟩ => ?_, fun h on => ?_, fun ha hb off => ?_, fun ha hb off => ?_⟩
  · simp [minMax, ha, hb]
  · rcases h with h | h <;> simp [minMax, h, on]
  · simp [minMax, ha, hb, off]
  · simp [minMax, ha, hb, off]

/-- Of two values that are no NaNs, FMIN takes the first where it is below the second, and where they are equal and the
second is no negative; FMAX takes the second where the first is below it. A −0 is below a +0. -/
theorem minMax_of_ordered (ha : ¬ (decodeFmt .fp32 a.toNat).isNan) (hb : ¬ (decodeFmt .fp32 b.toNat).isNan) {c : Int}
    (order : (decodeFmt .fp32 a.toNat).cmp (decodeFmt .fp32 b.toNat) = some c) :
    let below := c < 0 ∨ c = 0 ∧ (decodeFmt .fp32 a.toNat).neg = true ∧ (decodeFmt .fp32 b.toNat).neg = false
    let level := c = 0 ∧ (decodeFmt .fp32 b.toNat).neg = false
    (minMax max nan a b).1 = if max then (if below then b else a) else if below ∨ level then a else b := by
  rw [Bool.not_eq_true] at ha hb
  simp only [minMax, ha, hb, order, Option.getD_some, Bool.and_self, Bool.or_self, Bool.false_and, Bool.false_eq_true,
    if_false, Bool.or_eq_true, Bool.and_eq_true, beq_iff_eq, decide_eq_true_eq, Bool.not_eq_true', ite_or, and_assoc]

end Picks

/-- `z` is the lower or the higher of `x` and `y`, −0 below +0. -/
def Extreme (max : Bool) (x y z : FVal) : Prop :=
  (z = x ∨ z = y) ∧ (∀ w ∈ [x, y], ∀ c, z.cmp w = some c → if max then 0 ≤ c else c ≤ 0) ∧
    (x.cmp y = some 0 → x.neg ≠ y.neg → z.neg = !max)

/-- The first of two values where its order to the second says so, and on a tie its sign. -/
theorem extreme_first {max : Bool} {x y : FVal} {c : Int} (hx : ¬ x.isNan) (order : x.cmp y = some c)
    (h : if max then 0 ≤ c else c ≤ 0) (tie : c = 0 → x.neg ≠ y.neg → x.neg = !max) : Extreme max x y x := by
  refine ⟨.inl rfl, ?_, fun zero => tie (by rw [order] at zero; exact Option.some.inj zero)⟩
  simp only [List.forall_mem_cons, cmp_self hx, order, Option.some.injEq]
  refine ⟨?_, ?_, by simp⟩
  · rintro _ rfl; cases max <;> exact le_rfl
  · rintro _ rfl; exact h

/-- The second likewise, its order to the first being the opposite. -/
theorem extreme_second {max : Bool} {x y : FVal} {c : Int} (hx : ¬ x.isNan) (hy : ¬ y.isNan) (order : x.cmp y = some c)
    (h : if max then c ≤ 0 else 0 ≤ c) (tie : c = 0 → x.neg ≠ y.neg → y.neg = !max) : Extreme max x y y := by
  obtain ⟨d, there, back⟩ := cmp_swap hx hy
  obtain rfl : d = c := Option.some.inj (there.symm.trans order)
  refine ⟨.inr rfl, ?_, fun zero => tie (by rw [order] at zero; exact Option.some.inj zero)⟩
  simp only [List.forall_mem_cons, cmp_self hy, back, Option.some.injEq]
  refine ⟨?_, ?_, by simp⟩
  · rintro _ rfl; cases max <;> simpa using h
  · rintro _ rfl; cases max <;> exact le_rfl

theorem minMax_extreme (max nan : Bool) {a b : W32} (ha : ¬ (decodeFmt .fp32 a.toNat).isNan)
    (hb : ¬ (decodeFmt .fp32 b.toNat).isNan) : Extreme max (decodeFmt .fp32 a.toNat) (decodeFmt .fp32 b.toNat)
      (decodeFmt .fp32 (minMax max nan a b).1.toNat) := by
  obtain ⟨c, order, -⟩ := cmp_swap ha hb
  rw [minMax_of_ordered max nan ha hb order]
  cases max with
  | true =>
    rw [if_pos rfl]
    split
    next below =>
      refine extreme_second ha hb order (by rw [if_pos rfl]; omega) fun zero _ => ?_
      obtain ⟨-, -, pos⟩ := below.resolve_left (by omega)
      exact pos
    next notBelow =>
      rw [not_or, not_and, not_and] at notBelow
      refine extreme_first ha order (by rw [if_pos rfl]; omega) fun zero signs => ?_
      by_contra neg
      rw [Bool.not_true, Bool.not_eq_false] at neg
      rw [neg] at signs
      exact notBelow.2 zero neg (by simpa using signs)
  | false =>
    rw [if_neg Bool.false_ne_true]
    split
    next first =>
      refine extreme_first ha order (by rw [if_neg Bool.false_ne_true]; omega) fun zero signs => ?_
      have pos : (decodeFmt .fp32 b.toNat).neg = false := by
        rcases first with (less | ⟨-, -, pos⟩) | ⟨-, pos⟩
        · omega
        · exact pos
        · exact pos
      rw [pos] at signs
      simpa using signs
    next second =>
      rw [not_or, not_or] at second
      obtain ⟨⟨notLess, -⟩, notLevel⟩ := second
      refine extreme_second ha hb order (by rw [if_neg Bool.false_ne_true]; omega) fun zero _ => ?_
      simpa using not_and.1 notLevel zero

theorem exec_minMax (g : Guard) (o : Ops) (nan max : Bool) (s : State) :
    exec (if max then .fmax g o nan else .fmin g o nan) s = perLane g o.d s fun l =>
      .ok [(minMax max nan (s.valBits l o.a) (s.valBits l o.b)).1]
        (minMax max nan (s.valBits l o.a) (s.valBits l o.b)).2 := by
  cases max <;> rfl

theorem minimumAndMaximum : Claims.MinimumAndMaximum := by
  intro s g o nan max
  obtain ⟨t, run, result⟩ := perLane_given g o.d s fun l =>
    ([(minMax max nan (s.valBits l o.a) (s.valBits l o.b)).1],
      (minMax max nan (s.valBits l o.a) (s.valBits l o.b)).2, false)
  refine ⟨t, _, _, (exec_minMax g o nan max s).trans run, result, fun l => ?_⟩
  have flags := minMax_flags max nan (s.valBits l o.a) (s.valBits l o.b)
  obtain ⟨both, form, first, second⟩ := minMax_of_nan (a := s.valBits l o.a) (b := s.valBits l o.b) max nan
  have extreme := minMax_extreme max nan (a := s.valBits l o.a) (b := s.valBits l o.b)
  simp only [State.decode_valBits] at flags both form first second extreme
  refine ⟨flags, both, form, fun ha hb off => ?_, fun ha hb off => ?_, fun ha hb => extreme ha hb⟩
  · rw [first ha hb off, State.decode_valBits]
  · rw [second ha hb off, State.decode_valBits]

/-! ## FTEST and FCLASS (R130, R131) -/

theorem fcmpHolds_iff (cmp : FCmp) (c : Option Int) : fcmpHolds cmp c = true ↔ Claims.ftestHolds cmp c := by
  cases c with
  | none => cases cmp <;> simp [fcmpHolds, Claims.ftestHolds]
  | some c => cases cmp <;> simp [fcmpHolds, Claims.ftestHolds]

theorem exec_ftest (g : Guard) (o : Ops) (cmp : FCmp) (s : State) :
    exec (.ftest g o cmp) s = perLane g o.d s fun l =>
      .ok [boolWord (fcmpHolds cmp ((Claims.fp s l o.a).cmp (Claims.fp s l o.b)))]
        (if (Claims.fp s l o.a).isSig || (Claims.fp s l o.b).isSig then 1 else 0) := by
  simp only [← State.val_fp32]
  rfl

/-- The class of the decoded value is that of the pattern's magnitude and sign. -/
theorem classBit_eq (b : W32) : classBit b = Claims.classOfBits b := by
  have small := b.isLt
  have sign : decide (b.toNat / 2 ^ 31 % 2 = 1) = decide (2 ^ 31 ≤ b.toNat) := decide_eq_decide.2 (by omega)
  rw [classBit, decodeFmt_fp32, Claims.classOfBits, sign]
  by_cases top : b.toNat / 2 ^ 23 % 2 ^ 8 = 255
  · rw [if_pos top]
    by_cases none : b.toNat % 2 ^ 23 = 0
    · have inf : b.toNat % 2 ^ 31 = 0x7F800000 := by omega
      simp only [if_pos none, inf, decide_eq_true_eq, gt_iff_lt, lt_irrefl, if_false, if_true]
    · have nan : b.toNat % 2 ^ 31 > 0x7F800000 := by omega
      have quiet : b.toNat % 2 ^ 23 < 2 ^ 22 ↔ b.toNat % 2 ^ 31 < 0x7FC00000 := by omega
      simp only [if_neg none, if_pos nan, decide_eq_true_eq, quiet]
  · have notNan : ¬ b.toNat % 2 ^ 31 > 0x7F800000 := by omega
    have notInf : b.toNat % 2 ^ 31 ≠ 0x7F800000 := by omega
    rw [if_neg top, if_neg notNan, if_neg notInf]
    by_cases zero : b.toNat / 2 ^ 23 % 2 ^ 8 = 0
    · have fraction : b.toNat % 2 ^ 23 = b.toNat % 2 ^ 31 := by omega
      have subnormal : b.toNat % 2 ^ 31 < 2 ^ 23 ∧ b.toNat % 2 ^ 31 < 0x800000 := by omega
      simp only [if_pos zero, fraction, decide_eq_true_eq, if_pos subnormal.1, if_pos subnormal.2]
    · have normal : ¬ b.toNat % 2 ^ 31 < 0x800000 := by omega
      have nonzero : b.toNat % 2 ^ 31 ≠ 0 := by omega
      have lead : 2 ^ 23 + b.toNat % 2 ^ 23 ≠ 0 ∧ ¬ 2 ^ 23 + b.toNat % 2 ^ 23 < 2 ^ 23 := by omega
      simp only [if_neg zero, if_neg lead.1, if_neg lead.2, if_neg nonzero, if_neg normal, decide_eq_true_eq]

theorem exec_fclass (g : Guard) (o : Ops) (mask : BitVec 10) (s : State) :
    exec (.fclass g o mask) s = perLane g o.d s fun l =>
      .ok [if mask.getLsbD (Claims.classOfBits (s.src l .fp32 o.a)) then 1 else 0] := by
  simp only [← classBit_eq]
  rfl

theorem floatTests : Claims.FloatTests := by
  refine ⟨fun s g o cmp => ?_, fun s g o mask => ?_⟩
  · obtain ⟨t, run, result⟩ := perLane_given g o.d s fun l =>
      ([boolWord (fcmpHolds cmp ((Claims.fp s l o.a).cmp (Claims.fp s l o.b)))],
        if (Claims.fp s l o.a).isSig || (Claims.fp s l o.b).isSig then 1 else 0, false)
    exact ⟨t, _, (exec_ftest g o cmp s).trans run, result, fun l => boolWord_spec (fcmpHolds_iff cmp _)⟩
  · rw [exec_fclass]
    exact perLane_result g o.d s _

/-- Settles O8: a bound on the exponent that no result shows, an integer that FP32 holds, the order of two patterns, and
classes by the fields of a pattern. -/
theorem floatMinMaxTestsAndScaling : Obligations.FloatMinMaxTestsAndScaling :=
  ⟨scalingAndIntegralRounding, minimumAndMaximum, floatTests⟩

end Sys2Proof.Machine
end

section
/-! SUPPORT. QNT, DQNT and FABSMAX, and group words that fail their check (spec/03 R62, spec/08 R142 to R144). -/

namespace Sys2Proof.Machine

/-! ## The group word (R62) -/

/-- An instruction whose only executing lane faults. -/
theorem perLane_trap {s : State} {g : Guard} {l : Nat} (alone : s.exec g = [l]) (d : Operand) {f : Nat → LaneRes}
    {t : Trap} (h : f l = .fault t) : perLane g d s f = .next (s.trap l t) := by
  have nothing : s.commit d [] = s := by rw [State.commit]; split <;> rfl
  simp only [perLane, State.perLane, alone, List.map_cons, List.map_nil, goodOf, badOf, h, List.filterMap_cons,
    List.filterMap_nil, nothing, State.noteFlags, List.foldl_cons, List.foldl_nil, State.trapEach]

/-- The model's check of a group word. -/
theorem groupWordOk_iff (f : Fmt) (w : W32) : ¬ Claims.groupWordOk f w ↔
    (w.toNat >>> 8 % 256 ≠ 0 ∨ (f = .int4 ∧ w.toNat >>> 4 % 16 ≠ 0)) := by
  simp only [Claims.groupWordOk, Nat.shiftRight_eq_div_pow, not_and_or, Classical.not_imp, ne_eq, Nat.reducePow]

theorem quantScale_of_ok {s : State} {l : Nat} {asym : Bool} {f : Fmt} {o : Operand}
    (h : asym → Claims.groupWordOk f (s.src l .int o)) :
    s.quantScale l asym f o = some (Claims.quantScale s l asym o, Claims.zeroPoint s l asym o) := by
  cases asym with
  | true =>
    have passes := mt (groupWordOk_iff f _).2 (not_not.2 (h rfl))
    rw [State.quantScale, if_pos rfl]
    dsimp only
    rw [if_neg passes, Nat.shiftRight_eq_div_pow]
    rfl
  | false => simp only [State.quantScale, Bool.false_eq_true, if_false, State.val_fp32]; rfl

theorem quantScale_of_not_ok {s : State} {l : Nat} {asym : Bool} {f : Fmt} {o : Operand} (on : asym = true)
    (h : ¬ Claims.groupWordOk f (s.src l .int o)) : s.quantScale l asym f o = none := by
  simp only [State.quantScale, on, if_true, if_pos ((groupWordOk_iff f _).1 h)]

/-! ## QNT (R142) -/

/-- The limits of QNT. -/
theorem quantRange_eq {asym : Bool} {f : Fmt} (h : asym → f = .uint8 ∨ f = .int4) :
    Claims.quantRange asym f =
      (if asym then 0 else f.range.1, if asym && f == .int4 then 15 else f.range.2) := by
  cases asym with
  | true => rcases h rfl with rfl | rfl <;> rfl
  | false => rfl

theorem flagIf_ne (q n : Int) {_ : Decidable (q ≠ n)} : flagIf (q ≠ n) flagOverflow = if q = n then 0 else 4 := by
  by_cases h : q = n
  · rw [if_pos h, flagIf, if_neg (by simpa using h)]
  · rw [if_neg h, flagIf, if_pos (decide_eq_true h)]
    rfl

/-- QNT into an integer format. -/
theorem quantized_of_int {s : State} {l : Nat} {o : Ops} {asym : Bool} {f : Fmt} {rm : Rm} (int : f.isInt = true)
    (h : asym → f = .uint8 ∨ f = .int4) :
    let r := quantInt (s.ctl l f rm).rm (s.rs l 0) (if asym then 0 else f.range.1)
      (if asym && f == .int4 then 15 else f.range.2)
      (Claims.fp s l o.a) (Claims.quantScale s l asym o.b) (Claims.zeroPoint s l asym o.b)
    Claims.quantized s l o asym f rm = ([BitVec.ofNat 32 (lowBits f.width r.1)], r.2, (s.ctl l f rm).isRs) := by
  simp only [Claims.quantized, quantInt, int, Bool.not_true, Bool.false_eq_true, if_false, quantRange_eq h]
  cases (exactDiv (Claims.fp s l o.a) (Claims.quantScale s l asym o.b)).1 with
  | nan => rfl
  | inf => rfl
  | fin neg m e =>
    dsimp only
    rw [flagIf_ne, BitVec.or_assoc]
    rfl

/-- QNT into a floating format rounds the quotient once. -/
theorem quantized_of_float {s : State} {l : Nat} {o : Ops} {asym : Bool} {f : Fmt} {rm : Rm} (float : f.isInt = false) :
    Claims.quantized s l o asym f rm =
      Claims.round1 s l f rm (exactDiv (Claims.fp s l o.a) (Claims.quantScale s l asym o.b)) := by
  simp only [Claims.quantized, float, Bool.not_false, if_true]

theorem quantization {s : State} {g : Guard} {o : Ops} {asym : Bool} {f : Fmt} (rm : Rm)
    (formats : asym → f = .uint8 ∨ f = .int4) (ok : ∀ l ∈ s.exec g, asym → Claims.groupWordOk f (s.src l .int o.b)) :
    ∃ t, exec (.qnt g o asym f rm) s = .next t ∧ Result s t g o.d (fun l => (Claims.quantized s l o asym f rm).1)
      (fun l => (Claims.quantized s l o asym f rm).2.1) (fun l => (Claims.quantized s l o asym f rm).2.2) := by
  refine ⟨s.perLane g o.d _, rfl, State.perLane_ok fun l hl => ?_⟩
  rw [quantScale_of_ok (ok l hl)]
  dsimp only
  rw [State.val_fp32]
  by_cases int : f.isInt = true
  · rw [if_pos int, quantized_of_int int formats]
  · rw [if_neg int, quantized_of_float (Bool.not_eq_true _ ▸ int), State.rounded_eq]

/-! ## DQNT (R143) -/

/-- The element that DQNT scales. -/
theorem dequantElem_eq (s : State) (l : Nat) (o : Ops) (asym : Bool) {f : Fmt} (notFp64 : f ≠ .fp64) :
    Claims.dequantElem s l o asym f =
      let bits := (s.src l (rtypeOf f) o.a).toNat % 2 ^ f.width
      if f.isInt then FVal.ofInt ((if asym then (bits : Int) else intOf f bits) - Claims.zeroPoint s l asym o.b)
      else flushIn (s.mode l) f (decodeFmt f bits) := by
  by_cases int : f.isInt = true
  · simp only [Claims.dequantElem, if_pos int]
  · simp only [Claims.dequantElem, if_neg int, flushIn_eq (Bool.not_eq_true _ ▸ int) notFp64]
    rfl

theorem dequantization {s : State} {g : Guard} {o : Ops} {asym : Bool} {f : Fmt} (rm : Rm) (notFp64 : f ≠ .fp64)
    (ok : ∀ l ∈ s.exec g, asym → Claims.groupWordOk f (s.src l .int o.b)) :
    ∃ t, exec (.dqnt g o asym f rm) s = .next t ∧
      let r := fun l => Claims.round1 s l .fp32 rm
        (exactMul (Claims.quantScale s l asym o.b) (Claims.dequantElem s l o asym f))
      Result s t g o.d (fun l => (r l).1) (fun l => (r l).2.1) (fun l => (r l).2.2) := by
  refine ⟨s.perLane g o.d _, rfl, State.perLane_ok fun l hl => ?_⟩
  dsimp only
  rw [quantScale_of_ok (ok l hl), dequantElem_eq s l o asym notFp64]
  rfl

/-! ## FABSMAX (R144) -/

theorem toNat_absMaxWord (a b : W32) : (absMaxWord a b).toNat = max (a.toNat % 2 ^ 31) (b.toNat % 2 ^ 31) := by
  have magnitude (x : W32) : (x &&& 0x7FFFFFFF).toNat = x.toNat % 2 ^ 31 := by
    rw [BitVec.toNat_and]
    exact Nat.and_two_pow_sub_one_eq_mod x.toNat 31
  simp only [absMaxWord, magnitude]
  split
  next h => rw [magnitude, max_eq_right h]
  next h => rw [magnitude, max_eq_left (not_le.1 h).le]

/-- Settles O4: the scale and zero point of a word that passes, QNT by the kind of its format, DQNT's element after
FTZI, and magnitudes as the low 31 bits. -/
theorem quantisation : Obligations.Quantisation := by
  refine ⟨fun s g o asym f rm formats => ⟨fun ok => ⟨fun _ => quantization rm formats ok,
    fun notFp64 => dequantization rm notFp64 ok⟩, fun l alone on bad => ⟨?_, ?_⟩⟩, fun s g o => ?_⟩
  · exact perLane_trap alone o.d (by rw [quantScale_of_not_ok on bad]; rfl)
  · exact perLane_trap alone o.d (by rw [quantScale_of_not_ok on bad]; rfl)
  · obtain ⟨t, run, result⟩ := perLane_result g o.d s fun l => [absMaxWord (s.src l .fp32 o.a) (s.src l .fp32 o.b)]
    exact ⟨t, _, run, result, fun l => toNat_absMaxWord _ _⟩

end Sys2Proof.Machine
end

section
/-! SUPPORT. Reciprocals and square roots: the integer square root, and results with a sticky bit (spec/03 R67, spec/08
R133). -/

namespace Sys2Proof.Machine

/-! ## The integer square root -/

/-- Newton's step from above stays at or above the root. -/
theorem sqrt_le_newton (n : Nat) {x : Nat} (hx : 0 < x) : Nat.sqrt n ≤ (x + n / x) / 2 := by
  have square : Nat.sqrt n * Nat.sqrt n ≤ n := Nat.sqrt_le n
  generalize Nat.sqrt n = s at square
  suffices 2 * s - x ≤ n / x by omega
  rw [Nat.le_div_iff_mul_le hx]
  refine le_trans ?_ square
  rcases le_total (2 * s) x with le | le
  · rw [Nat.sub_eq_zero_of_le le, zero_mul]; exact Nat.zero_le _
  · zify [le]
    nlinarith [sq_nonneg ((s : Int) - x)]

/-- Above the root it at least halves the distance to it. -/
theorem div_le_sqrt {n x : Nat} (above : Nat.sqrt n < x) : n / x ≤ Nat.sqrt n := by
  have next : n < (Nat.sqrt n + 1) * (Nat.sqrt n + 1) := Nat.lt_succ_sqrt n
  rw [← Nat.lt_add_one_iff, Nat.div_lt_iff_lt_mul (by omega)]
  exact next.trans_le (Nat.mul_le_mul_left _ above)

theorem isqrtLoop_eq {n : Nat} (hn : 0 < n) (k : Nat) :
    ∀ x, Nat.sqrt n ≤ x → x < Nat.sqrt n + 2 ^ k → isqrtLoop n k x = Nat.sqrt n := by
  have root : 0 < Nat.sqrt n := Nat.sqrt_pos.2 hn
  induction k with
  | zero =>
    intro x lo hi
    rw [isqrtLoop]
    omega
  | succ k ih =>
    intro x lo hi
    have newton := sqrt_le_newton n (root.trans_le lo)
    rw [isqrtLoop]
    split
    next stop =>
      exact le_antisymm (Nat.le_sqrt.2 ((Nat.le_div_iff_mul_le (root.trans_le lo)).1 (by omega))) lo
    next more =>
      have half := div_le_sqrt (show Nat.sqrt n < x by omega)
      exact ih _ newton (by rw [pow_succ] at hi; omega)

theorem isqrt_eq (n : Nat) : isqrt n = Nat.sqrt n := by
  rw [isqrt]
  split
  next zero => rw [zero, Nat.sqrt_zero]
  next nonzero =>
    have start : n < (2 ^ ((bitLen n + 1) / 2)) * 2 ^ ((bitLen n + 1) / 2) := by
      rw [← pow_add]
      exact (lt_two_pow_bitLen n).trans_le (Nat.pow_le_pow_right two_pos (by omega))
    refine isqrtLoop_eq (Nat.pos_of_ne_zero nonzero) _ _ (Nat.sqrt_lt.2 start).le ?_
    exact (Nat.pow_lt_pow_right one_lt_two (by omega)).trans_le (Nat.le_add_left _ _)

/-! ## Values near a real number -/

/-- Within 2^−60, relatively. -/
def Near (x y : ℝ) : Prop := |x - y| ≤ 2 ^ (-60 : ℤ) * |y|

theorem Near.of_eq {x y : ℝ} (h : x = y) : Near x y := by
  rw [Near, h, sub_self, abs_zero]
  positivity

theorem Near.mul {x y : ℝ} (h : Near x y) (t : ℝ) : Near (x * t) (y * t) := by
  rw [Near, ← sub_mul, abs_mul, abs_mul, ← mul_assoc]
  exact mul_le_mul_of_nonneg_right h (abs_nonneg t)

theorem Near.neg {x y : ℝ} (h : Near x y) : Near (-x) (-y) := by
  simpa using h.mul (-1)

/-- A finite value near a real number. -/
def FVal.Approx (v : FVal) (y : ℝ) : Prop := v.isFin = true ∧ Near (Claims.num v : ℚ) y

theorem cast_num_fin (neg : Bool) (m : Nat) (e : Int) :
    ((Claims.num (.fin neg m e) : ℚ) : ℝ) = FVal.int neg m * (2 : ℝ) ^ e := by
  rw [num_fin]
  push_cast
  rfl

theorem cast_num_pos (m : Nat) (e : Int) : ((Claims.num (.fin false m e) : ℚ) : ℝ) = m * (2 : ℝ) ^ e := by
  rw [cast_num_fin]
  simp [FVal.int]

/-- An integer part of 60 bits and more with half a unit added, unless it is exact. -/
def halfSticky (r : Nat) (exact : Prop) [Decidable exact] : Nat := 2 * r + if exact then 0 else 1

theorem near_halfSticky {r : Nat} {y : ℝ} {exact : Prop} [Decidable exact] (big : 2 ^ 60 ≤ r) (lo : (r : ℝ) ≤ y)
    (hi : y < r + 1) (h : exact → y = r) : Near (halfSticky r exact / 2 : ℝ) y := by
  by_cases on : exact
  · refine Near.of_eq ?_
    rw [halfSticky, if_pos on, h on]
    push_cast
    ring
  · have large : (2 : ℝ) ^ 60 ≤ y := le_trans (by exact_mod_cast big) lo
    have half : |(halfSticky r exact / 2 : ℝ) - y| ≤ 1 / 2 := by
      rw [halfSticky, if_neg on, abs_le]
      push_cast
      constructor <;> linarith
    refine half.trans ?_
    rw [abs_of_pos (lt_of_lt_of_le (by positivity) large)]
    calc (1 / 2 : ℝ) ≤ 2 ^ (-60 : ℤ) * 2 ^ 60 := by norm_num
      _ ≤ 2 ^ (-60 : ℤ) * y := mul_le_mul_of_nonneg_left large (by positivity)

/-- A sticky result of a positive number at its scale. -/
theorem approx_halfSticky {r : Nat} {y : ℝ} {exact : Prop} [Decidable exact] (t : Int) (big : 2 ^ 60 ≤ r)
    (lo : (r : ℝ) ≤ y) (hi : y < r + 1) (h : exact → y = r) :
    (FVal.fin false (halfSticky r exact) (t - 1)).Approx (y * (2 : ℝ) ^ t) := by
  refine ⟨rfl, ?_⟩
  have scaled := (near_halfSticky big lo hi h).mul ((2 : ℝ) ^ t)
  rwa [cast_num_pos, zpow_sub_one₀ two_ne_zero, ← mul_assoc, mul_right_comm, ← div_eq_mul_inv]

theorem num_halfSticky {r : Nat} {exact : Prop} [Decidable exact] (h : exact) (t : Int) :
    Claims.num (.fin false (halfSticky r exact) (t - 1)) = r * (2 : ℚ) ^ t := by
  rw [num_fin_sign, if_neg Bool.false_ne_true, halfSticky, if_pos h, zpow_sub_one₀ two_ne_zero]
  push_cast
  ring

theorem FVal.Approx.negate {v : FVal} {y : ℝ} (h : v.Approx y) : v.negate.Approx (-y) := by
  obtain ⟨fin, near⟩ := h
  obtain ⟨neg, m, e, rfl⟩ := FVal.isFin_iff.1 fin
  refine ⟨rfl, ?_⟩
  have opposite : Claims.num (FVal.fin neg m e).negate = -Claims.num (.fin neg m e) := by
    cases neg <;> simp [FVal.negate, Claims.num]
  rw [opposite, Rat.cast_neg]
  exact near.neg

/-! ## Reciprocals -/

/-- The reciprocal's bits: a power of two over the mantissa, with a sticky bit. -/
theorem exactDiv_one {neg : Bool} {m : Nat} (e : Int) (hm : m ≠ 0) :
    exactDiv (.fin false 1 0) (.fin neg m e) =
      (.fin neg (halfSticky (2 ^ (400 + bitLen m) / m) (2 ^ (400 + bitLen m) % m = 0))
        (-((400 + bitLen m : Nat) : Int) - e - 1), 0) := by
  have exponent : -((400 + bitLen m : Nat) : Int) - 1 + 0 - e = -((400 + bitLen m : Nat) : Int) - e - 1 := by ring
  rw [exactDiv_fin one_ne_zero hm, ← exponent]
  simp only [divBits, halfSticky, Nat.one_shiftLeft, Bool.false_bne]

theorem two_pow_le_div {j p m : Nat} (h : j ≤ p) (hm : 0 < m) : 2 ^ j ≤ 2 ^ (p + bitLen m) / m :=
  (Nat.pow_le_pow_right two_pos h).trans (by simpa using two_pow_le_shifted_div p one_ne_zero hm)

theorem approx_rcp {neg : Bool} {m : Nat} (e : Int) (hm : m ≠ 0) :
    (exactDiv (.fin false 1 0) (.fin neg m e)).1.Approx ((Claims.num (.fin neg m e) : ℚ) : ℝ)⁻¹ := by
  have pos : 0 < m := Nat.pos_of_ne_zero hm
  have real : (0 : ℝ) < m := by exact_mod_cast pos
  have parts : ((2 ^ (400 + bitLen m) : Nat) : ℝ) / m * 2 ^ (-((400 + bitLen m : Nat) : Int) - e) =
      ((m : ℝ) * 2 ^ e)⁻¹ := by
    rw [zpow_sub₀ two_ne_zero, zpow_neg, zpow_natCast, mul_inv]
    push_cast
    field_simp
  have large : 2 ^ 60 ≤ 2 ^ (400 + bitLen m) / m := two_pow_le_div (by norm_num) pos
  have approx := approx_halfSticky (exact := 2 ^ (400 + bitLen m) % m = 0)
    (y := ((2 ^ (400 + bitLen m) : Nat) : ℝ) / m) (-((400 + bitLen m : Nat) : Int) - e) large Nat.cast_div_le
    (by rw [div_lt_iff₀ real]; exact_mod_cast Nat.lt_mul_of_div_lt (Nat.lt_succ_self _) pos)
    (fun even => (Nat.cast_div (Nat.dvd_of_mod_eq_zero even) real.ne').symm)
  rw [parts] at approx
  rw [exactDiv_one e hm, cast_num_fin]
  cases neg
  · simpa [FVal.int] using approx
  · simpa [FVal.int, FVal.negate, neg_inv] using approx.negate

/-- The reciprocal of a power of two is exact: it stands to itself as the quotient does. -/
theorem num_rcp {neg : Bool} {m : Nat} {e : Int} {n k : Int} (hm : m ≠ 0) (hn : n.natAbs < 2 ^ 1)
    (h : (Claims.num (.fin neg m e))⁻¹ = n * (2 : ℚ) ^ k) :
    Claims.num (exactDiv (.fin false 1 0) (.fin neg m e)).1 = n * (2 : ℚ) ^ k := by
  have same := (exactDiv_sameSide false neg 0 e one_ne_zero hm).mono (r := 1) (by norm_num) n k hn
  have quotient : Claims.num (.fin false 1 0) / Claims.num (.fin neg m e) = n * (2 : ℚ) ^ k := by
    rw [← h, div_eq_mul_inv]; simp [Claims.num]
  rw [quotient, lt_self_iff_false, iff_false, iff_false, not_lt, not_lt] at same
  rw [exactDiv_fin one_ne_zero hm]
  exact le_antisymm same.2 same.1

/-! ## Square roots -/

/-- The integer square root of a floor encloses the real one. -/
theorem sqrt_bounds {n : Nat} {x : ℝ} (lo : (n : ℝ) ≤ x) (hi : x < n + 1) :
    (isqrt n : ℝ) ≤ Real.sqrt x ∧ Real.sqrt x < isqrt n + 1 := by
  have nonneg : 0 ≤ x := (Nat.cast_nonneg n).trans lo
  have square : (isqrt n : ℝ) ^ 2 ≤ n := by rw [isqrt_eq]; exact_mod_cast Nat.sqrt_le' n
  have next : (n : ℝ) + 1 ≤ (isqrt n + 1) ^ 2 := by
    rw [isqrt_eq]
    exact_mod_cast Nat.succ_le_of_lt (Nat.lt_succ_sqrt' n)
  exact ⟨Real.le_sqrt_of_sq_le (square.trans lo),
    (Real.sqrt_lt' (by positivity)).2 (hi.trans_le next)⟩

theorem two_pow_le_isqrt {n k : Nat} (h : 2 ^ (2 * k) ≤ n) : 2 ^ k ≤ isqrt n := by
  rw [isqrt_eq, Nat.le_sqrt, ← pow_add, ← two_mul]
  exact h

/-- The root of a scaled number, by an even part of its scale. -/
theorem sqrt_mul_zpow (x : ℝ) (t : Int) : Real.sqrt (x * 2 ^ (2 * t)) = Real.sqrt x * 2 ^ t := by
  have square : (2 : ℝ) ^ (2 * t) = (2 ^ t) ^ 2 := by rw [mul_comm, zpow_mul, zpow_ofNat]
  rw [square, Real.sqrt_mul' _ (sq_nonneg _), Real.sqrt_sq (zpow_pos two_pos _).le]

/-- The bits that √ shifts its mantissa up by, so that an even scale is left. -/
def sqrtShift (e : Int) : Nat := 200 + if (e - 200) % 2 = 0 then 0 else 1

theorem sqrtShift_even (e : Int) : e - sqrtShift e = 2 * ((e - sqrtShift e) / 2) := by
  rw [sqrtShift]
  split <;> push_cast <;> omega

theorem sqrtFin_eq (m : Nat) (e : Int) :
    sqrtFin m e = .fin false (halfSticky (isqrt (m * 2 ^ sqrtShift e))
      (isqrt (m * 2 ^ sqrtShift e) * isqrt (m * 2 ^ sqrtShift e) = m * 2 ^ sqrtShift e))
      ((e - sqrtShift e) / 2 - 1) := by
  simp only [sqrtFin, Nat.shiftLeft_eq]
  rfl

theorem mul_zpow_sqrtShift {α : Type} [Field α] [CharZero α] (m : Nat) (e : Int) : (m : α) * 2 ^ e =
    (m * 2 ^ sqrtShift e : Nat) * 2 ^ (2 * ((e - sqrtShift e) / 2)) := by
  rw [← sqrtShift_even, zpow_sub₀ two_ne_zero, zpow_natCast]
  push_cast
  field_simp

theorem approx_sqrt {m : Nat} (e : Int) (hm : m ≠ 0) : (sqrtFin m e).Approx (Real.sqrt (m * 2 ^ e)) := by
  obtain ⟨lo, hi⟩ := sqrt_bounds (n := m * 2 ^ sqrtShift e) le_rfl (lt_add_one _)
  rw [sqrtFin_eq, mul_zpow_sqrtShift, sqrt_mul_zpow]
  refine approx_halfSticky _ ?_ lo hi fun square => ?_
  · refine (Nat.pow_le_pow_right two_pos (by norm_num)).trans (two_pow_le_isqrt (k := 100) ?_)
    refine (Nat.pow_le_pow_right two_pos ?_).trans (Nat.le_mul_of_pos_left _ (Nat.pos_of_ne_zero hm))
    rw [sqrtShift]; omega
  · have real : ((m * 2 ^ sqrtShift e : Nat) : ℝ) = isqrt (m * 2 ^ sqrtShift e) * isqrt (m * 2 ^ sqrtShift e) := by
      exact_mod_cast square.symm
    rw [real]
    exact Real.sqrt_mul_self (Nat.cast_nonneg _)

/-- The root of a square of a binary fraction is exact. -/
theorem num_sqrt {m : Nat} {e : Int} {y : ℚ} (hy : 0 ≤ y) (h : (m : ℚ) * 2 ^ e = y ^ 2) :
    Claims.num (sqrtFin m e) = y := by
  rw [mul_zpow_sqrtShift] at h
  rw [sqrtFin_eq]
  generalize m * 2 ^ sqrtShift e = n at h ⊢
  generalize (e - sqrtShift e) / 2 = t at h ⊢
  have square : (2 : ℚ) ^ (2 * t) = (2 ^ t) ^ 2 := by rw [mul_comm, zpow_mul, zpow_ofNat]
  have root : (n : ℚ) = (y / 2 ^ t) ^ 2 := by
    rw [div_pow, ← h, ← square, mul_div_cancel_right₀ _ (zpow_pos two_pos _).ne']
  obtain ⟨a, ha⟩ := Rat.isSquare_natCast_iff.1 ⟨_, root.trans (sq _)⟩
  have isRoot : isqrt n = a := by rw [isqrt_eq, ha, Nat.sqrt_eq]
  have value : (a : ℚ) = y / 2 ^ t := by
    refine (sq_eq_sq₀ (Nat.cast_nonneg a) (div_nonneg hy (zpow_pos two_pos _).le)).1 ?_
    rw [← root, ha, sq]
    push_cast
    rfl
  rw [num_halfSticky (by rw [isRoot, ha]), isRoot, value, div_mul_cancel₀ _ (zpow_pos two_pos _).ne']

/-! ## Reciprocal square roots -/

/-- The power of two that 1/√ divides, with an even scale left. -/
def rsqrtShift (m : Nat) (e : Int) : Nat := 2 * (bitLen m + 120) + if e % 2 = 0 then 0 else 1

theorem rsqrtShift_even (m : Nat) (e : Int) : e + rsqrtShift m e = 2 * ((e + rsqrtShift m e) / 2) := by
  rw [rsqrtShift]
  split <;> push_cast <;> omega

theorem rsqrtFin_eq (m : Nat) (e : Int) :
    rsqrtFin m e = .fin false (halfSticky (isqrt (2 ^ rsqrtShift m e / m))
      (isqrt (2 ^ rsqrtShift m e / m) * isqrt (2 ^ rsqrtShift m e / m) * m = 2 ^ rsqrtShift m e))
      (-((e + rsqrtShift m e) / 2) - 1) := rfl

theorem inv_mul_zpow_rsqrtShift {α : Type} [Field α] [CharZero α] (m : Nat) (e : Int) : ((m : α) * 2 ^ e)⁻¹ =
    (2 ^ rsqrtShift m e : Nat) / m * 2 ^ (2 * -((e + rsqrtShift m e) / 2)) := by
  rw [mul_neg, ← rsqrtShift_even, neg_add, zpow_add₀ two_ne_zero, zpow_neg, zpow_neg, zpow_natCast, mul_inv]
  push_cast
  field_simp

theorem two_pow_le_rsqrtShift_div {m : Nat} (e : Int) (hm : m ≠ 0) : 2 ^ (2 * 120) ≤ 2 ^ rsqrtShift m e / m := by
  rw [Nat.le_div_iff_mul_le (Nat.pos_of_ne_zero hm)]
  calc 2 ^ (2 * 120) * m ≤ 2 ^ (2 * 120) * 2 ^ bitLen m := Nat.mul_le_mul_left _ (lt_two_pow_bitLen m).le
    _ = 2 ^ (2 * 120 + bitLen m) := (pow_add _ _ _).symm
    _ ≤ 2 ^ rsqrtShift m e := Nat.pow_le_pow_right two_pos (by rw [rsqrtShift]; omega)

theorem approx_rsqrt {m : Nat} (e : Int) (hm : m ≠ 0) : (rsqrtFin m e).Approx (Real.sqrt (m * 2 ^ e))⁻¹ := by
  have pos : 0 < m := Nat.pos_of_ne_zero hm
  have real : (0 : ℝ) < m := by exact_mod_cast pos
  obtain ⟨lo, hi⟩ := sqrt_bounds (n := 2 ^ rsqrtShift m e / m) (x := (2 ^ rsqrtShift m e : Nat) / m) Nat.cast_div_le
    (by rw [div_lt_iff₀ real]; exact_mod_cast Nat.lt_mul_of_div_lt (Nat.lt_succ_self _) pos)
  rw [rsqrtFin_eq, ← Real.sqrt_inv, inv_mul_zpow_rsqrtShift, sqrt_mul_zpow]
  refine approx_halfSticky _ ?_ lo hi fun square => ?_
  · exact (Nat.pow_le_pow_right two_pos (by norm_num)).trans (two_pow_le_isqrt (two_pow_le_rsqrtShift_div e hm))
  · have quotient : ((2 ^ rsqrtShift m e : Nat) : ℝ) / m =
        isqrt (2 ^ rsqrtShift m e / m) * isqrt (2 ^ rsqrtShift m e / m) := by
      rw [div_eq_iff real.ne']
      exact_mod_cast square.symm
    rw [quotient]
    exact Real.sqrt_mul_self (Nat.cast_nonneg _)

/-- The reciprocal root of a power of four is exact. -/
theorem num_rsqrt {m : Nat} {e n : Int} (hm : m ≠ 0) (h : (m : ℚ) * 2 ^ e = 4 ^ n) :
    Claims.num (rsqrtFin m e) = 2 ^ (-n) := by
  have pos : 0 < m := Nat.pos_of_ne_zero hm
  have real : (0 : ℚ) < m := by exact_mod_cast pos
  have large := two_pow_le_rsqrtShift_div e hm
  have inverse := inv_mul_zpow_rsqrtShift (α := ℚ) m e
  rw [h] at inverse
  rw [rsqrtFin_eq]
  generalize (e + rsqrtShift m e) / 2 = t at *
  generalize rsqrtShift m e = k at *
  have four (z : Int) : (4 : ℚ) ^ z = 2 ^ (2 * z) := by rw [zpow_mul]; norm_num
  have quotient : ((2 ^ k : Nat) : ℚ) / m = 4 ^ (t - n) := by
    rw [four, mul_sub, zpow_sub₀ two_ne_zero, ← four n, div_eq_mul_inv _ ((4 : ℚ) ^ n), inverse, mul_neg,
      zpow_neg]
    field_simp
  have one : (1 : ℚ) ≤ (2 ^ k : Nat) / m := by
    rw [one_le_div real]
    exact_mod_cast (Nat.one_le_div_iff pos).1 (le_trans (Nat.one_le_two_pow) large)
  have ordered : 0 ≤ t - n := by
    by_contra below
    rw [quotient] at one
    exact absurd one (zpow_lt_one_of_neg₀ (by norm_num) (not_le.1 below)).not_ge
  obtain ⟨j, hj⟩ := Int.eq_ofNat_of_zero_le ordered
  have product : 2 ^ j * 2 ^ j * m = 2 ^ k := by
    rw [hj, zpow_natCast, div_eq_iff real.ne'] at quotient
    rw [← mul_pow]
    exact_mod_cast quotient.symm
  have root : isqrt (2 ^ k / m) = 2 ^ j := by
    rw [isqrt_eq, ← product, Nat.mul_div_cancel _ pos, Nat.sqrt_eq]
  have exponent : -n = j + -t := by omega
  rw [num_halfSticky (by rw [root, product]), root, exponent, zpow_add₀ two_ne_zero, zpow_natCast]
  push_cast
  rfl

end Sys2Proof.Machine
end

section
/-! SUPPORT. Enclosures: the operations on them, and the loops that sum a series (spec/03 R67). -/

namespace Sys2Proof.Machine

/-! ## Operations -/

/-- An enclosure at precision p holds a real number. -/
def Encloses (p : Nat) (x : Encl) (y : ℝ) : Prop := (x.1 : ℝ) ≤ y * 2 ^ p ∧ y * 2 ^ p ≤ x.2

theorem ediv_le_div (a : Int) {b : Int} (hb : 0 < b) : ((a / b : Int) : ℝ) ≤ a / b := by
  rw [le_div_iff₀ (by exact_mod_cast hb)]
  exact_mod_cast Int.ediv_mul_le a hb.ne'

theorem div_le_neg_ediv (a : Int) {b : Int} (hb : 0 < b) : (a : ℝ) / b ≤ (-((-a) / b) : Int) := by
  have := ediv_le_div (-a) hb
  push_cast at this ⊢
  rw [neg_div] at this
  linarith

theorem floorShift_le (a : Int) (p : Nat) : (floorShift a p : ℝ) ≤ a / 2 ^ p := by
  have := ediv_le_div a (b := 2 ^ p) (by positivity)
  push_cast at this
  exact this

theorem le_ceilShift (a : Int) (p : Nat) : (a : ℝ) / 2 ^ p ≤ ceilShift a p := by
  have := div_le_neg_ediv a (b := 2 ^ p) (by positivity)
  push_cast at this
  simpa [ceilShift] using this

section Operations

variable {p : Nat} {x y : Encl} {a b : ℝ}

theorem Encloses.add (hx : Encloses p x a) (hy : Encloses p y b) : Encloses p (enclAdd x y) (a + b) := by
  obtain ⟨xlo, xhi⟩ := hx
  obtain ⟨ylo, yhi⟩ := hy
  simp only [Encloses, enclAdd, Int.cast_add, add_mul]
  exact ⟨add_le_add xlo ylo, add_le_add xhi yhi⟩

theorem Encloses.sub (hx : Encloses p x a) (hy : Encloses p y b) : Encloses p (enclSub x y) (a - b) := by
  obtain ⟨xlo, xhi⟩ := hx
  obtain ⟨ylo, yhi⟩ := hy
  simp only [Encloses, enclSub, Int.cast_sub, sub_mul]
  exact ⟨sub_le_sub xlo yhi, sub_le_sub xhi ylo⟩

theorem Encloses.scale (n : Int) (hx : Encloses p x a) : Encloses p (enclScale n x) (n * a) := by
  obtain ⟨lo, hi⟩ := hx
  simp only [Encloses, enclScale, mul_assoc]
  split
  next nonneg =>
    have real : (0 : ℝ) ≤ n := by exact_mod_cast nonneg
    push_cast
    exact ⟨mul_le_mul_of_nonneg_left lo real, mul_le_mul_of_nonneg_left hi real⟩
  next negative =>
    have real : (n : ℝ) ≤ 0 := by exact_mod_cast (not_le.1 negative).le
    push_cast
    exact ⟨mul_le_mul_of_nonpos_left hi real, mul_le_mul_of_nonpos_left lo real⟩

theorem Encloses.divNat {n : Nat} (hn : 0 < n) (hx : Encloses p x a) : Encloses p (enclDivNat n x) (a / n) := by
  obtain ⟨lo, hi⟩ := hx
  have pos : (0 : ℝ) < n := by exact_mod_cast hn
  have down := ediv_le_div x.1 (b := n) (by exact_mod_cast hn)
  have up := div_le_neg_ediv x.2 (b := n) (by exact_mod_cast hn)
  rw [Int.cast_natCast] at down up
  simp only [Encloses, enclDivNat, div_mul_eq_mul_div]
  exact ⟨down.trans (div_le_div_of_nonneg_right lo pos.le), (div_le_div_of_nonneg_right hi pos.le).trans up⟩

/-- A product lies between the products with the bounds of one factor. -/
theorem mul_between {lo hi t c : ℝ} (h : lo ≤ t ∧ t ≤ hi) :
    min (lo * c) (hi * c) ≤ t * c ∧ t * c ≤ max (lo * c) (hi * c) := by
  rcases le_total 0 c with nonneg | nonpos
  · exact ⟨min_le_of_left_le (mul_le_mul_of_nonneg_right h.1 nonneg),
      le_max_of_le_right (mul_le_mul_of_nonneg_right h.2 nonneg)⟩
  · exact ⟨min_le_of_right_le (mul_le_mul_of_nonpos_right h.2 nonpos),
      le_max_of_le_left (mul_le_mul_of_nonpos_right h.1 nonpos)⟩

/-- A product lies between the four products of its factors' bounds. -/
theorem mul_between_corners {xlo xhi ylo yhi s t : ℝ} (hs : xlo ≤ s ∧ s ≤ xhi) (ht : ylo ≤ t ∧ t ≤ yhi) :
    min (min (xlo * ylo) (xlo * yhi)) (min (xhi * ylo) (xhi * yhi)) ≤ s * t ∧
      s * t ≤ max (max (xlo * ylo) (xlo * yhi)) (max (xhi * ylo) (xhi * yhi)) := by
  obtain ⟨down, up⟩ := mul_between (c := t) hs
  have low := mul_between (c := xlo) ht
  have high := mul_between (c := xhi) ht
  simp only [mul_comm _ xlo, mul_comm _ xhi] at low high
  exact ⟨(min_le_min low.1 high.1).trans down, up.trans (max_le_max low.2 high.2)⟩

theorem Encloses.mul (hx : Encloses p x a) (hy : Encloses p y b) : Encloses p (enclMul p x y) (a * b) := by
  obtain ⟨down, up⟩ := mul_between_corners hx hy
  have pos : (0 : ℝ) < 2 ^ p := by positivity
  have scaled : a * b * 2 ^ p = a * 2 ^ p * (b * 2 ^ p) / 2 ^ p := by field_simp
  rw [Encloses, scaled]
  refine ⟨(floorShift_le _ p).trans ?_, le_trans ?_ (le_ceilShift _ p)⟩
  · push_cast
    exact div_le_div_of_nonneg_right down pos.le
  · push_cast
    exact div_le_div_of_nonneg_right up pos.le

/-- A quotient lies between the quotients by the bounds of a positive divisor. -/
theorem div_between {lo hi t c : ℝ} (pos : 0 < lo) (h : lo ≤ t ∧ t ≤ hi) :
    min (c / lo) (c / hi) ≤ c / t ∧ c / t ≤ max (c / lo) (c / hi) := by
  have inverse : hi⁻¹ ≤ t⁻¹ ∧ t⁻¹ ≤ lo⁻¹ := ⟨inv_anti₀ (pos.trans_le h.1) h.2, inv_anti₀ pos h.1⟩
  have between := mul_between (c := c) inverse
  simp only [mul_comm _ c, ← div_eq_mul_inv] at between
  rwa [min_comm, max_comm]

theorem Encloses.div (hx : Encloses p x a) (hy : Encloses p y b) (pos : 0 < y.1) :
    Encloses p (enclDiv p x y) (a / b) := by
  have low : (0 : ℝ) < y.1 := by exact_mod_cast pos
  have bpos : 0 < b * 2 ^ p := low.trans_le hy.1
  have pos2 : 0 < y.2 := by exact_mod_cast bpos.trans_le hy.2
  have p2 : (0 : ℝ) < 2 ^ p := by positivity
  have value : a / b = a * 2 ^ p / (b * 2 ^ p) := (mul_div_mul_right a b p2.ne').symm
  have floors {c : Int} (hc : 0 < c) : ((x.1 * 2 ^ p / c : Int) : ℝ) ≤ x.1 / c * 2 ^ p := by
    have := ediv_le_div (x.1 * 2 ^ p) hc
    push_cast at this
    rwa [div_mul_eq_mul_div]
  have ceilings {c : Int} (hc : 0 < c) : x.2 / c * 2 ^ p ≤ ((-(-x.2 * 2 ^ p / c) : Int) : ℝ) := by
    have := div_le_neg_ediv (x.2 * 2 ^ p) hc
    rw [← neg_mul] at this
    push_cast at this ⊢
    rwa [div_mul_eq_mul_div]
  rw [Encloses, value]
  simp only [enclDiv, Int.cast_min, Int.cast_max]
  constructor
  · refine (min_le_min (floors pos) (floors pos2)).trans ?_
    rw [← min_mul_of_nonneg _ _ p2.le]
    exact mul_le_mul_of_nonneg_right ((div_between low hy).1.trans (div_le_div_of_nonneg_right hx.1 bpos.le)) p2.le
  · refine le_trans ?_ (max_le_max (ceilings pos) (ceilings pos2))
    rw [← max_mul_of_nonneg _ _ p2.le]
    exact mul_le_mul_of_nonneg_right ((div_le_div_of_nonneg_right hx.2 bpos.le).trans (div_between low hy).2) p2.le

end Operations

theorem encloses_rat (p : Nat) (n : Int) {d : Nat} (hd : 0 < d) : Encloses p (enclRat p n d) (n / d) := by
  have down := ediv_le_div (n * 2 ^ p) (b := d) (by exact_mod_cast hd)
  have up := div_le_neg_ediv (n * 2 ^ p) (b := d) (by exact_mod_cast hd)
  rw [← neg_mul] at up
  push_cast at down up
  simp only [Encloses, enclRat, div_mul_eq_mul_div]
  push_cast
  exact ⟨down, up⟩

theorem encloses_dyadic (p : Nat) (m e : Int) : Encloses p (enclDyadic p m e) (m * 2 ^ e) := by
  have scaled : (m : ℝ) * 2 ^ e * 2 ^ p = m * 2 ^ (e + p) := by
    rw [mul_assoc, zpow_add₀ two_ne_zero, zpow_natCast]
  rw [Encloses, scaled, enclDyadic]
  split
  next nonneg =>
    obtain ⟨k, hk⟩ := Int.eq_ofNat_of_zero_le nonneg
    rw [hk, zpow_natCast, Int.toNat_natCast]
    push_cast
    exact ⟨le_rfl, le_rfl⟩
  next negative =>
    obtain ⟨k, hk⟩ := Int.eq_ofNat_of_zero_le (show 0 ≤ -(e + p) by omega)
    rw [hk, Int.toNat_natCast, ← neg_neg (e + (p : Int)), hk, zpow_neg, zpow_natCast, ← div_eq_mul_inv]
    exact ⟨floorShift_le m k, le_ceilShift m k⟩

/-- A number no farther off than an enclosure is widened by. -/
theorem Encloses.widen {p : Nat} {x : Encl} {a b : ℝ} {r : Int} (hx : Encloses p x a) (h : |b - a| * 2 ^ p ≤ r) :
    Encloses p (enclWiden r x) b := by
  obtain ⟨lo, hi⟩ := hx
  have pos : (0 : ℝ) < 2 ^ p := by positivity
  have off : |(b - a) * 2 ^ p| ≤ r := by rwa [abs_mul, abs_of_pos pos]
  rw [abs_le, sub_mul] at off
  simp only [Encloses, enclWiden, Int.cast_sub, Int.cast_add]
  exact ⟨by linarith, by linarith⟩

/-- The bound on a series' rest that the loops widen by. -/
theorem Encloses.abs_le {p : Nat} {x : Encl} {a : ℝ} (hx : Encloses p x a) :
    |a| * 2 ^ p ≤ (x.1.natAbs + x.2.natAbs + 1 : Int) := by
  obtain ⟨lo, hi⟩ := hx
  have pos : (0 : ℝ) < 2 ^ p := by positivity
  have first : |(x.1 : ℝ)| = x.1.natAbs := by rw [Nat.cast_natAbs, Int.cast_abs]
  have second : |(x.2 : ℝ)| = x.2.natAbs := by rw [Nat.cast_natAbs, Int.cast_abs]
  have inside : |a * 2 ^ p| ≤ max |(x.1 : ℝ)| |(x.2 : ℝ)| := abs_le_max_abs_abs lo hi
  rw [abs_mul, abs_of_pos pos] at inside
  rw [Int.cast_add, Int.cast_add, Int.cast_natCast, Int.cast_natCast, ← first, ← second, Int.cast_one]
  refine inside.trans (max_le ?_ ?_) <;> linarith [abs_nonneg (x.1 : ℝ), abs_nonneg (x.2 : ℝ)]

end Sys2Proof.Machine
end

section
/-! SUPPORT. The series behind FEXP2, FLOG2, FSINPI and FCOSPI: their rests, and the loops that enclose their sums
(spec/03 R67, spec/08 R133). -/

namespace Sys2Proof.Machine

open Finset (range)
open Nat (factorial)

/-! ## The loops -/

section Loops

variable {p : Nat} {x : Encl} {P : ℕ → ℝ} {S X : ℝ}

/-- The terms of e^x, each from the one before. -/
theorem expLoop_encloses (hx : Encloses p x X) (hP : ∀ i, P (i + 1) = P i * X / (i + 1 : ℕ)) (k : Nat) :
    ∀ (i : Nat) (pow acc : Encl), Encloses p pow (P i) → Encloses p acc (∑ j ∈ range i, P j) →
      |S - ∑ j ∈ range (i + k), P j| ≤ 2 * |P (i + k)| → Encloses p (expLoop p x k (i + 1) pow acc) S := by
  induction k with
  | zero =>
    intro i pow acc hpow hacc rest
    refine hacc.widen ?_
    have bound := mul_le_mul_of_nonneg_right rest (by positivity : (0 : ℝ) ≤ 2 ^ p)
    have last := hpow.abs_le
    push_cast at last ⊢
    simp only [Nat.add_zero] at bound
    linarith
  | succ k ih =>
    intro i pow acc hpow hacc rest
    refine ih (i + 1) _ _ ?_ ?_ ?_
    · rw [hP]
      exact (hpow.mul hx).divNat (Nat.succ_pos i)
    · rw [Finset.sum_range_succ]
      exact hacc.add hpow
    · rwa [Nat.add_right_comm]

/-- An alternating sum takes or leaves its next term. -/
theorem Encloses.alternate {acc t : Encl} {A T : ℝ} {neg : Bool} {i : Nat} (hacc : Encloses p acc A)
    (ht : Encloses p t T) (sign : (-1 : ℝ) ^ i = if neg then -1 else 1) :
    Encloses p (if neg then enclSub acc t else enclAdd acc t) (A + (-1) ^ i * T) := by
  rw [sign]
  cases neg
  · simpa using hacc.add ht
  · simpa [sub_eq_add_neg] using hacc.sub ht

theorem next_sign {neg : Bool} {i : Nat} (sign : (-1 : ℝ) ^ i = if neg then -1 else 1) :
    (-1 : ℝ) ^ (i + 1) = if !neg then -1 else 1 := by
  rw [pow_succ, sign]
  cases neg <;> simp

/-- The terms of a sine or cosine: `c` is the number that the first term's index stands before. -/
theorem trigLoop_encloses (hx : Encloses p x X) {c : Nat} (hc : 0 < c)
    (hP : ∀ i, P (i + 1) = P i * X / ((2 * i + c) * (2 * i + c + 1) : ℕ)) (k : Nat) :
    ∀ (i : Nat) (neg : Bool) (pow acc : Encl), (-1 : ℝ) ^ i = (if neg then -1 else 1) → Encloses p pow (P i) →
      Encloses p acc (∑ j ∈ range i, (-1) ^ j * P j) →
      |S - ∑ j ∈ range (i + k), (-1) ^ j * P j| ≤ 2 * |P (i + k)| →
      Encloses p (trigLoop p x k (2 * i + c) neg pow acc) S := by
  induction k with
  | zero =>
    intro i neg pow acc sign hpow hacc rest
    refine hacc.widen ?_
    have bound := mul_le_mul_of_nonneg_right rest (by positivity : (0 : ℝ) ≤ 2 ^ p)
    have last := hpow.abs_le
    push_cast at last ⊢
    simp only [Nat.add_zero] at bound
    linarith
  | succ k ih =>
    intro i neg pow acc sign hpow hacc rest
    have next := ih (i + 1) (!neg) (enclDivNat ((2 * i + c) * (2 * i + c + 1)) (enclMul p pow x))
      (if neg then enclSub acc pow else enclAdd acc pow) (next_sign sign)
      (by rw [hP]; exact (hpow.mul hx).divNat (by positivity))
      (by rw [Finset.sum_range_succ]; exact hacc.alternate hpow sign) (by rwa [Nat.add_right_comm])
    rwa [mul_add, Nat.add_right_comm] at next

/-- The terms of the area tangent, by odd powers. -/
theorem atanhLoop_encloses (hx : Encloses p x X) (hP : ∀ i, P (i + 1) = P i * X) (k : Nat) :
    ∀ (i : Nat) (pow acc : Encl), Encloses p pow (P i) →
      Encloses p acc (∑ j ∈ range i, P j / (2 * j + 1 : ℕ)) →
      |S - ∑ j ∈ range (i + k), P j / (2 * j + 1 : ℕ)| ≤ |P (i + k)| →
      Encloses p (atanhLoop p x k (2 * i + 1) pow acc) S := by
  induction k with
  | zero =>
    intro i pow acc hpow hacc rest
    exact hacc.widen ((mul_le_mul_of_nonneg_right rest (by positivity)).trans hpow.abs_le)
  | succ k ih =>
    intro i pow acc hpow hacc rest
    refine ih (i + 1) _ _ (by rw [hP]; exact hpow.mul hx) ?_ (by rwa [Nat.add_right_comm])
    rw [Finset.sum_range_succ]
    exact hacc.add (hpow.divNat (Nat.succ_pos _))

/-- The terms of the arc tangent of 1/k, by odd powers with alternating signs. -/
theorem atanLoop_encloses {k2 : Nat} (hk : 0 < k2) (hP : ∀ i, P (i + 1) = P i / k2) (k : Nat) :
    ∀ (i : Nat) (neg : Bool) (pow acc : Encl), (-1 : ℝ) ^ i = (if neg then -1 else 1) → Encloses p pow (P i) →
      Encloses p acc (∑ j ∈ range i, (-1) ^ j * (P j / (2 * j + 1 : ℕ))) →
      |S - ∑ j ∈ range (i + k), (-1) ^ j * (P j / (2 * j + 1 : ℕ))| ≤ |P (i + k)| →
      Encloses p (atanLoop p k2 k (2 * i + 1) neg pow acc) S := by
  induction k with
  | zero =>
    intro i neg pow acc sign hpow hacc rest
    exact hacc.widen ((mul_le_mul_of_nonneg_right rest (by positivity)).trans hpow.abs_le)
  | succ k ih =>
    intro i neg pow acc sign hpow hacc rest
    refine ih (i + 1) _ _ _ (next_sign sign) (by rw [hP]; exact hpow.divNat hk) ?_ (by rwa [Nat.add_right_comm])
    rw [Finset.sum_range_succ]
    exact hacc.alternate (hpow.divNat (Nat.succ_pos _)) sign

end Loops

theorem encloses_zero (p : Nat) : Encloses p (0, 0) 0 := by
  simp [Encloses]

theorem encloses_one (p : Nat) : Encloses p (2 ^ p, 2 ^ p) 1 := by
  simp [Encloses]

/-! ## The rest of a series -/

/-- Terms that shrink by a ratio from some index on leave a rest of the next term's order. -/
theorem series_rest {f : ℕ → ℝ} {S r : ℝ} (hS : HasSum f S) (K : Nat) (hr0 : 0 ≤ r) (hr : r < 1)
    (ratio : ∀ j, K ≤ j → |f (j + 1)| ≤ r * |f j|) : |S - ∑ j ∈ range K, f j| ≤ |f K| / (1 - r) := by
  have shifted : HasSum (fun j => f (j + K)) (S - ∑ j ∈ range K, f j) := (hasSum_nat_add_iff' K).2 hS
  have geometric (j : ℕ) : ‖f (j + K)‖ ≤ |f K| * r ^ j := by
    induction j with
    | zero => simp
    | succ j ih =>
      calc |f (j + 1 + K)| ≤ r * |f (j + K)| := by rw [Nat.add_right_comm]; exact ratio _ (Nat.le_add_left K j)
        _ ≤ r * (|f K| * r ^ j) := mul_le_mul_of_nonneg_left ih hr0
        _ = |f K| * r ^ (j + 1) := by ring
  rw [abs_sub_comm]
  simpa using norm_sub_le_of_geometric_bound_of_hasSum hr geometric shifted 0

theorem series_rest_half {f : ℕ → ℝ} {S : ℝ} (hS : HasSum f S) (K : Nat)
    (ratio : ∀ j, K ≤ j → |f (j + 1)| ≤ 1 / 2 * |f j|) : |S - ∑ j ∈ range K, f j| ≤ 2 * |f K| := by
  refine (series_rest hS K (by norm_num) (by norm_num) ratio).trans_eq ?_
  rw [div_eq_iff (by norm_num)]
  ring

/-- The rest of a series of odd powers over odd numbers, up to 1/2. -/
theorem odd_series_rest {f : ℕ → ℝ} {S z : ℝ} (hS : HasSum f S) (hz : |z| ≤ 1 / 2) {K : Nat} (hK : 1 ≤ K)
    (hf : ∀ j, |f j| = |z| ^ (2 * j + 1) / (2 * j + 1 : ℕ)) : |S - ∑ j ∈ range K, f j| ≤ |z ^ (2 * K + 1)| := by
  have square : |z| ^ 2 ≤ 1 / 4 := by nlinarith [abs_nonneg z]
  have ratio (j : ℕ) (_ : K ≤ j) : |f (j + 1)| ≤ 1 / 4 * |f j| := by
    rw [hf, hf]
    have step : |z| ^ (2 * (j + 1) + 1) = |z| ^ 2 * |z| ^ (2 * j + 1) := by ring
    rw [step, mul_div_assoc]
    refine mul_le_mul square ?_ (by positivity) (by norm_num)
    exact div_le_div_of_nonneg_left (by positivity) (by positivity) (by push_cast; linarith)
  have three : (3 : ℝ) ≤ (2 * K + 1 : ℕ) := by exact_mod_cast (by omega : 3 ≤ 2 * K + 1)
  have power : 0 ≤ |z| ^ (2 * K + 1) := by positivity
  refine (series_rest hS K (by norm_num) (by norm_num) ratio).trans ?_
  rw [hf, abs_pow, div_div, div_le_iff₀ (by positivity)]
  nlinarith

/-! ## Logarithms and π -/

theorem lnRatio_encloses {p : Nat} {x : Encl} {z : ℝ} (hx : Encloses p x z) (hz : |z| ≤ 1 / 2) :
    Encloses p (lnRatio p x) (Real.log (1 + z) - Real.log (1 - z)) := by
  have sum := (Real.hasSum_log_sub_log_of_abs_lt_one (hz.trans_lt (by norm_num))).div_const 2
  have term (j : ℕ) : 2 * (1 / (2 * (j : ℝ) + 1)) * z ^ (2 * j + 1) / 2 = z ^ (2 * j + 1) / (2 * j + 1 : ℕ) := by
    push_cast; field_simp
  simp only [term] at sum
  have rest := odd_series_rest sum hz (K := p / 2 + 8) (by omega) fun j => by rw [abs_div, abs_pow, Nat.abs_cast]
  have loop := atanhLoop_encloses (P := fun j => z ^ (2 * j + 1)) (hx.mul hx) (fun i => by ring) (p / 2 + 8) 0 x (0, 0)
    (by simpa using hx) (by simpa using encloses_zero p) (by simpa using rest)
  have twice := loop.scale 2
  rwa [Int.cast_ofNat, mul_div_cancel₀ _ (two_ne_zero : (2 : ℝ) ≠ 0)] at twice

theorem ln2_encloses (p : Nat) : Encloses p (ln2 p) (Real.log 2) := by
  have third := lnRatio_encloses (encloses_rat p 1 (d := 3) (by norm_num)) (by norm_num [abs_le])
  have value : Real.log 2 = Real.log (1 + ((1 : Int) : ℝ) / (3 : ℕ)) - Real.log (1 - ((1 : Int) : ℝ) / (3 : ℕ)) := by
    rw [← Real.log_div (by norm_num) (by norm_num)]
    norm_num
  rw [value]
  exact third

/-- The divisors of FLOG2 are positive: their lower bounds, evaluated at each precision that is tried. -/
theorem ln2_pos : ∀ p ∈ precisions, 0 < (ln2 p).1 := by decide +kernel

theorem atanInv_encloses (p : Nat) {k : Nat} (hk : 2 ≤ k) : Encloses p (atanInv p k) (Real.arctan (k : ℝ)⁻¹) := by
  have real : (2 : ℝ) ≤ k := by exact_mod_cast hk
  have half : |(k : ℝ)⁻¹| ≤ 1 / 2 := by
    rw [abs_of_nonneg (by positivity), one_div]
    exact inv_anti₀ two_pos real
  have sum := Real.hasSum_arctan (x := (k : ℝ)⁻¹) (by rw [Real.norm_eq_abs]; exact half.trans_lt (by norm_num))
  simp only [mul_div_assoc] at sum
  have rest := odd_series_rest sum half (K := p / 4 + 8) (by omega) fun j => by
    rw [abs_mul, abs_pow, abs_neg, abs_one, one_pow, one_mul, abs_div, abs_pow, Nat.abs_cast]
  have start : Encloses p (enclRat p 1 k) (k : ℝ)⁻¹ := by
    simpa using encloses_rat p 1 (d := k) (by omega)
  exact atanLoop_encloses (P := fun j => (k : ℝ)⁻¹ ^ (2 * j + 1)) (by positivity)
    (fun i => by rw [Nat.cast_mul, div_eq_mul_inv, mul_inv]; ring) (p / 4 + 8) 0 false _ _ (by simp)
    (by simpa using start) (by simpa using encloses_zero p) (by simpa using rest)

/-- Machin's formula. -/
theorem piEncl_encloses (p : Nat) : Encloses p (piEncl p) Real.pi := by
  have five := atanInv_encloses p (k := 5) (by norm_num)
  have far := atanInv_encloses p (k := 239) (by norm_num)
  have machin := ((five.scale 4).sub far).scale 4
  have value : Real.pi = (4 : Int) * ((4 : Int) * Real.arctan ((5 : ℕ) : ℝ)⁻¹ - Real.arctan ((239 : ℕ) : ℝ)⁻¹) := by
    have := Real.four_mul_arctan_inv_5_sub_arctan_inv_239
    push_cast
    linarith
  rw [value]
  exact machin

/-! ## Exponentials, sines and cosines -/

theorem expSmall_encloses {p : Nat} {x : Encl} {z : ℝ} (hx : Encloses p x z) (hz : |z| ≤ 1) :
    Encloses p (expSmall p x) (Real.exp z) := by
  have sum : HasSum (fun j => z ^ j / (factorial j : ℝ)) (Real.exp z) := by
    rw [Real.exp_eq_exp_ℝ]
    exact NormedSpace.expSeries_div_hasSum_exp z
  have next (j : ℕ) : z ^ (j + 1) / (factorial (j + 1) : ℝ) = z ^ j / (factorial j : ℝ) * z / (j + 1 : ℕ) := by
    rw [Nat.factorial_succ, pow_succ]
    push_cast
    field_simp
  have ratio (j : ℕ) (hj : p / 3 + 12 ≤ j) :
      |z ^ (j + 1) / (factorial (j + 1) : ℝ)| ≤ 1 / 2 * |z ^ j / (factorial j : ℝ)| := by
    rw [next, mul_div_assoc, abs_mul, mul_comm, abs_div, Nat.abs_cast]
    refine mul_le_mul_of_nonneg_right ?_ (abs_nonneg _)
    rw [div_le_iff₀ (by positivity)]
    have : (2 : ℝ) ≤ (j + 1 : ℕ) := by exact_mod_cast (by omega : 2 ≤ j + 1)
    linarith
  refine expLoop_encloses (P := fun j => z ^ j / (factorial j : ℝ)) hx next (p / 3 + 12) 0 _ _
    (by simpa using encloses_one p) (by simpa using encloses_zero p) ?_
  rw [Nat.zero_add]
  exact series_rest_half sum _ ratio

/-- The loop of both functions encloses the sum of alternating terms that shrink fast enough. -/
theorem trigSeries_encloses {p : Nat} {x pow : Encl} {z S : ℝ} {P : ℕ → ℝ} {c : Nat} (hc : 0 < c) (hx : Encloses p x z)
    (hz : |z| ≤ 2) (sum : HasSum (fun j => (-1) ^ j * P j) S) (hpow : Encloses p pow (P 0))
    (next : ∀ j, P (j + 1) = P j * (z * z) / ((2 * j + c) * (2 * j + c + 1) : ℕ)) :
    Encloses p (trigLoop p (enclMul p x x) (p / 6 + 12) c false pow (0, 0)) S := by
  have ratio (j : ℕ) (hj : p / 6 + 12 ≤ j) : |(-1) ^ (j + 1) * P (j + 1)| ≤ 1 / 2 * |(-1) ^ j * P j| := by
    rw [next, abs_mul, abs_mul, abs_pow, abs_pow, abs_neg, abs_one, one_pow, one_pow, one_mul, one_mul, mul_div_assoc,
      abs_mul, mul_comm, abs_div, Nat.abs_cast, abs_mul]
    refine mul_le_mul_of_nonneg_right ?_ (abs_nonneg _)
    rw [div_le_iff₀ (by positivity)]
    have : (8 : ℝ) ≤ ((2 * j + c) * (2 * j + c + 1) : ℕ) := by
      exact_mod_cast Nat.mul_le_mul (show 2 ≤ 2 * j + c by omega) (show 4 ≤ 2 * j + c + 1 by omega)
    nlinarith [abs_nonneg z]
  have rest := series_rest_half sum (p / 6 + 12) ratio
  rw [abs_mul, abs_pow, abs_neg, abs_one, one_pow, one_mul] at rest
  have loop := trigLoop_encloses (S := S) (hx.mul hx) hc next (p / 6 + 12) 0 false pow (0, 0) (by simp) hpow
    (by simpa using encloses_zero p) (by rwa [Nat.zero_add])
  rwa [Nat.mul_zero, Nat.zero_add] at loop

theorem sinEncl_encloses {p : Nat} {x : Encl} {z : ℝ} (hx : Encloses p x z) (hz : |z| ≤ 2) :
    Encloses p (sinEncl p x) (Real.sin z) := by
  have sum := Real.hasSum_sin z
  simp only [mul_div_assoc] at sum
  refine trigSeries_encloses (P := fun j => z ^ (2 * j + 1) / (factorial (2 * j + 1) : ℝ)) (by norm_num) hx hz sum
    (by simpa using hx) fun j => ?_
  have index : 2 * (j + 1) + 1 = 2 * j + 1 + 1 + 1 := by ring
  rw [index, Nat.factorial_succ, Nat.factorial_succ]
  push_cast
  field_simp
  ring

theorem cosEncl_encloses {p : Nat} {x : Encl} {z : ℝ} (hx : Encloses p x z) (hz : |z| ≤ 2) :
    Encloses p (cosEncl p x) (Real.cos z) := by
  have sum := Real.hasSum_cos z
  simp only [mul_div_assoc] at sum
  refine trigSeries_encloses (P := fun j => z ^ (2 * j) / (factorial (2 * j) : ℝ)) (by norm_num) hx hz sum
    (by simpa using encloses_one p) fun j => ?_
  have index : 2 * (j + 1) = 2 * j + 1 + 1 := by ring
  rw [index, Nat.factorial_succ, Nat.factorial_succ]
  push_cast
  field_simp
  ring

end Sys2Proof.Machine
end

section
/-! SUPPORT. From enclosures to values: what settles is near the number enclosed, for powers of two, logarithms, sines
and cosines (spec/03 R67, spec/08 R133). -/

namespace Sys2Proof.Machine

/-! ## Settling -/

/-- The one cell of a grid of 64 bits in which two bounds lie. -/
def settleCell (p : Nat) (neg : Bool) (lo hi : Nat) : Option FVal :=
  if bitLen hi < 70 then none
  else if lo >>> (bitLen hi - 64) = hi >>> (bitLen hi - 64) then
    some (.fin neg (2 * (lo >>> (bitLen hi - 64)) + 1) (((bitLen hi - 64 : Nat) : Int) - p - 1))
  else none

theorem settle_eq (p : Nat) (x : Encl) : settle p x =
    if 0 < x.1 then settleCell p false x.1.toNat x.2.toNat
    else if x.2 < 0 then settleCell p true (-x.2).toNat (-x.1).toNat else none := rfl

theorem two_pow_le_topBits {n : Nat} (large : ¬ bitLen n < 70) : 2 ^ 60 ≤ n >>> (bitLen n - 64) := by
  have nonzero : n ≠ 0 := by rintro rfl; exact large (by decide)
  have top : bitLen n - 1 = Nat.log2 n := by rw [bitLen, if_neg nonzero]; rfl
  rw [Nat.shiftRight_eq_div_pow, Nat.le_div_iff_mul_le (Nat.two_pow_pos _), ← pow_add]
  exact (Nat.pow_le_pow_right two_pos (by omega)).trans (Nat.log2_self_le nonzero)

/-- A number between the bounds of a cell of width 2^k, counted in cells. -/
theorem cell_bounds {lo hi k : Nat} {x : ℝ} (same : lo >>> k = hi >>> k) (below : (lo : ℝ) ≤ x) (above : x ≤ hi) :
    ((lo >>> k : Nat) : ℝ) ≤ x / 2 ^ k ∧ x / 2 ^ k < ((lo >>> k : Nat) : ℝ) + 1 := by
  have cell : (0 : ℝ) < 2 ^ k := by positivity
  rw [le_div_iff₀ cell, div_lt_iff₀ cell]
  constructor
  · refine le_trans ?_ below
    rw [Nat.shiftRight_eq_div_pow]
    exact_mod_cast Nat.div_mul_le_self lo (2 ^ k)
  · refine above.trans_lt ?_
    rw [same, Nat.shiftRight_eq_div_pow]
    exact_mod_cast Nat.lt_mul_of_div_lt (Nat.lt_succ_self _) (Nat.two_pow_pos k)

/-- A number between bounds of one cell is near the cell's middle. -/
theorem settleCell_approx {p : Nat} {neg : Bool} {lo hi : Nat} {v : FVal} {y : ℝ} (h : settleCell p neg lo hi = some v)
    (below : (lo : ℝ) ≤ y * 2 ^ p) (above : y * 2 ^ p ≤ hi) : v.Approx (if neg then -y else y) := by
  rw [settleCell] at h
  split at h
  · cases h
  next large =>
    split at h
    next same =>
      obtain rfl := Option.some.inj h
      obtain ⟨floor, ceiling⟩ := cell_bounds same below above
      have bits := two_pow_le_topBits large
      rw [← same] at bits
      generalize bitLen hi - 64 = k at *
      have scale : y * 2 ^ p / 2 ^ k * (2 : ℝ) ^ ((k : Int) - p) = y := by
        rw [zpow_sub₀ two_ne_zero, zpow_natCast, zpow_natCast]
        field_simp
      have approx := approx_halfSticky (exact := False) ((k : Int) - p) bits floor ceiling False.elim
      rw [scale, halfSticky, if_neg not_false] at approx
      cases neg
      · exact approx
      · exact approx.negate
    · cases h

/-- What an enclosure settles is near the number it holds. -/
theorem settle_approx {p : Nat} {x : Encl} {v : FVal} {y : ℝ} (h : settle p x = some v) (hx : Encloses p x y) :
    v.Approx y := by
  obtain ⟨lo, hi⟩ := hx
  have natural (z : Int) (nonneg : 0 ≤ z) : ((z.toNat : Nat) : ℝ) = z := by exact_mod_cast Int.toNat_of_nonneg nonneg
  rw [settle_eq] at h
  split at h
  next pos =>
    have ordered : x.1 ≤ x.2 := by exact_mod_cast lo.trans hi
    exact settleCell_approx h (by rwa [natural _ pos.le]) (by rwa [natural _ (pos.le.trans ordered)])
  next =>
    split at h
    next neg =>
      have ordered : x.1 ≤ x.2 := by exact_mod_cast lo.trans hi
      have approx := settleCell_approx (y := -y) h
        (by rw [natural _ (by omega), Int.cast_neg, neg_mul]; exact neg_le_neg hi)
        (by rw [natural _ (by omega), Int.cast_neg, neg_mul]; exact neg_le_neg lo)
      rwa [if_pos rfl, neg_neg] at approx
    · cases h

theorem settleAt_approx {f : Nat → Encl} {ps : List Nat} {v : FVal} {y : ℝ} (hf : ∀ p ∈ ps, Encloses p (f p) y)
    (h : settleAt f ps = some v) : v.Approx y := by
  induction ps with
  | nil => cases h
  | cons p ps ih =>
    rw [settleAt] at h
    split at h
    next w here =>
      obtain rfl := Option.some.inj h
      exact settle_approx here (hf p List.mem_cons_self)
    next => exact ih (fun q hq => hf q (List.mem_cons_of_mem _ hq)) h

theorem FVal.Approx.scale {v : FVal} {y : ℝ} (h : v.Approx y) (k : Int) : (v.scale k).Approx (y * 2 ^ k) := by
  obtain ⟨fin, near⟩ := h
  obtain ⟨neg, m, e, rfl⟩ := FVal.isFin_iff.1 fin
  refine ⟨rfl, ?_⟩
  have scaled := near.mul ((2 : ℝ) ^ k)
  rwa [cast_num_fin, mul_assoc, ← zpow_add₀ two_ne_zero, ← cast_num_fin] at scaled

/-! ## Powers of two -/

theorem splitDyadic_fst (p : Nat) (m e : Int) : (splitDyadic p m e).1 = ⌊(m : ℝ) * 2 ^ e⌋ := by
  rw [splitDyadic]
  split
  next nonneg =>
    obtain ⟨k, rfl⟩ := Int.eq_ofNat_of_zero_le nonneg
    have whole : (m : ℝ) * 2 ^ ((k : Nat) : Int) = ((m * 2 ^ k : Int) : ℝ) := by push_cast; rw [zpow_natCast]
    rw [whole, Int.floor_intCast, Int.toNat_natCast]
  next negative =>
    obtain ⟨k, hk⟩ := Int.eq_ofNat_of_zero_le (show 0 ≤ -e by omega)
    have quotient : (m : ℝ) * 2 ^ e = (m : ℝ) / ((2 ^ k : Nat) : ℝ) := by
      rw [← neg_neg e, hk, zpow_neg, zpow_natCast, ← div_eq_mul_inv]
      push_cast
      rfl
    rw [quotient, hk, Int.toNat_natCast]
    have := Int.floor_div_natCast (m : ℝ) (2 ^ k)
    simpa [floorShift] using this.symm

theorem splitDyadic_snd_encloses (p : Nat) (m e : Int) :
    Encloses p (splitDyadic p m e).2 ((m : ℝ) * 2 ^ e - ⌊(m : ℝ) * 2 ^ e⌋) := by
  have first := splitDyadic_fst p m e
  rw [splitDyadic] at first ⊢
  split at first
  next nonneg =>
    rw [if_pos nonneg]
    obtain ⟨k, rfl⟩ := Int.eq_ofNat_of_zero_le nonneg
    have whole : (m : ℝ) * 2 ^ ((k : Nat) : Int) = ((m * 2 ^ k : Int) : ℝ) := by push_cast; rw [zpow_natCast]
    rw [whole, Int.floor_intCast, sub_self]
    exact encloses_zero p
  next negative =>
    rw [if_neg negative, ← first]
    obtain ⟨k, hk⟩ := Int.eq_ofNat_of_zero_le (show 0 ≤ -e by omega)
    have rest := encloses_dyadic p (m - floorShift m k * 2 ^ k) e
    have value : (m : ℝ) * 2 ^ e - floorShift m k = ((m - floorShift m k * 2 ^ k : Int) : ℝ) * 2 ^ e := by
      have cancel : (2 : ℝ) ^ k * 2 ^ e = 1 := by
        rw [← neg_neg e, hk, zpow_neg, zpow_natCast, mul_inv_cancel₀ (by positivity)]
      push_cast
      rw [sub_mul, mul_assoc, cancel, mul_one]
    rw [hk, Int.toNat_natCast, value]
    exact rest

theorem exp2Fin_approx {m e : Int} {v : FVal} (h : exp2Fin m e = some v) : v.Approx ((2 : ℝ) ^ ((m : ℝ) * 2 ^ e)) := by
  rw [exp2Fin, Option.map_eq_some_iff] at h
  obtain ⟨w, settled, rfl⟩ := h
  have lower : 0 ≤ (m : ℝ) * 2 ^ e - ⌊(m : ℝ) * 2 ^ e⌋ := sub_nonneg.2 (Int.floor_le _)
  have upper : (m : ℝ) * 2 ^ e - ⌊(m : ℝ) * 2 ^ e⌋ < 1 := by linarith [Int.lt_floor_add_one ((m : ℝ) * 2 ^ e)]
  have log1 : Real.log 2 < 1 := Real.log_two_lt_d9.trans (by norm_num)
  have log0 : 0 < Real.log 2 := Real.log_pos (by norm_num)
  have small : |((m : ℝ) * 2 ^ e - ⌊(m : ℝ) * 2 ^ e⌋) * Real.log 2| ≤ 1 := by
    rw [abs_of_nonneg (mul_nonneg lower log0.le)]
    nlinarith
  have near := settleAt_approx (fun p _ =>
    expSmall_encloses ((splitDyadic_snd_encloses p m e).mul (ln2_encloses p)) small) settled
  have approx := near.scale (splitDyadic 0 m e).1
  have value : Real.exp (((m : ℝ) * 2 ^ e - ⌊(m : ℝ) * 2 ^ e⌋) * Real.log 2) * 2 ^ ⌊(m : ℝ) * 2 ^ e⌋ =
      (2 : ℝ) ^ ((m : ℝ) * 2 ^ e) := by
    rw [← Real.rpow_intCast 2 ⌊(m : ℝ) * 2 ^ e⌋, mul_comm _ (Real.log 2), ← Real.rpow_def_of_pos two_pos,
      ← Real.rpow_add two_pos, sub_add_cancel]
  rw [splitDyadic_fst] at approx ⊢
  rwa [value] at approx

/-! ## Logarithms -/

theorem two_pow_bitLen_pred_le {m : Nat} (hm : m ≠ 0) : 2 ^ (bitLen m - 1) ≤ m := by
  rw [bitLen, if_neg hm]
  exact Nat.log2_self_le hm

/-- Is a mantissa closer to the next power of two? -/
def logUp (m : Nat) : Nat := if 3 * 2 ^ (bitLen m - 1) ≤ 2 * m then 1 else 0

/-- The power of two that a mantissa is compared with lies within a factor 3 of it. -/
theorem logBase_bounds {m : Nat} (hm : m ≠ 0) :
    m ≤ 3 * 2 ^ (bitLen m - 1 + logUp m) ∧ 2 ^ (bitLen m - 1 + logUp m) ≤ 3 * m := by
  have low := two_pow_bitLen_pred_le hm
  have high := lt_two_pow_bitLen m
  have len : bitLen m = bitLen m - 1 + 1 := by
    have : bitLen m ≠ 0 := by rw [bitLen, if_neg hm]; exact Nat.succ_ne_zero _
    omega
  rw [len, pow_succ] at high
  rw [logUp, pow_add]
  split <;> simp only [pow_one, pow_zero] <;> omega

theorem log2Fin_eq (m : Nat) (e : Int) : log2Fin m e = settleAt (fun p =>
    enclAdd (enclScale (e + (bitLen m - 1 : Nat) + logUp m) (2 ^ p, 2 ^ p))
      (enclDiv p (lnRatio p (enclRat p ((m : Int) - (2 ^ (bitLen m - 1 + logUp m) : Nat))
        (m + 2 ^ (bitLen m - 1 + logUp m)))) (ln2 p))) precisions := rfl

/-- The area tangent's argument for a quotient of positive numbers. -/
theorem log_ratio {a b : ℝ} (ha : 0 < a) (hb : 0 < b) :
    Real.log (1 + (a - b) / (a + b)) - Real.log (1 - (a - b) / (a + b)) = Real.log a - Real.log b := by
  have sum : 0 < a + b := add_pos ha hb
  have up : 1 + (a - b) / (a + b) = 2 * a / (a + b) := by field_simp; ring
  have down : 1 - (a - b) / (a + b) = 2 * b / (a + b) := by field_simp; ring
  rw [up, down, Real.log_div (by positivity) sum.ne', Real.log_div (by positivity) sum.ne',
    Real.log_mul two_ne_zero ha.ne', Real.log_mul two_ne_zero hb.ne']
  ring

theorem log2Fin_approx {m : Nat} {e : Int} {v : FVal} (hm : m ≠ 0) (h : log2Fin m e = some v) :
    v.Approx (Real.logb 2 (m * 2 ^ e)) := by
  obtain ⟨hi, lo⟩ := logBase_bounds hm
  rw [log2Fin_eq] at h
  generalize hk : bitLen m - 1 + logUp m = k at *
  have mpos : (0 : ℝ) < m := by exact_mod_cast Nat.pos_of_ne_zero hm
  have hi' : (m : ℝ) ≤ 3 * 2 ^ k := by exact_mod_cast hi
  have lo' : (2 : ℝ) ^ k ≤ 3 * m := by exact_mod_cast lo
  have basepos : (0 : ℝ) < 2 ^ k := by positivity
  have sum := add_pos mpos basepos
  have log0 : 0 < Real.log 2 := Real.log_pos (by norm_num)
  have ratio : |((m : ℝ) - 2 ^ k) / (m + 2 ^ k)| ≤ 1 / 2 := by
    rw [abs_div, abs_of_pos sum, div_le_iff₀ sum, abs_le]
    constructor <;> linarith
  have exponent : ((e + (bitLen m - 1 : Nat) + logUp m : Int) : ℝ) = e + k := by
    rw [← hk]; push_cast; ring
  have value : Real.logb 2 (m * 2 ^ e) = ((e + (bitLen m - 1 : Nat) + logUp m : Int) : ℝ) * 1 +
      (Real.log (1 + (m - 2 ^ k) / (m + 2 ^ k)) - Real.log (1 - (m - 2 ^ k) / (m + 2 ^ k))) / Real.log 2 := by
    rw [log_ratio mpos basepos, exponent, Real.logb, Real.log_mul mpos.ne' (zpow_pos two_pos e).ne', Real.log_zpow,
      Real.log_pow]
    field_simp
    ring
  rw [value]
  refine settleAt_approx (fun p hp => ?_) h
  have quotient := encloses_rat p ((m : Int) - (2 ^ k : Nat)) (d := m + 2 ^ k) (by positivity)
  push_cast at quotient
  exact ((encloses_one p).scale _).add ((lnRatio_encloses quotient ratio).div (ln2_encloses p) (ln2_pos p hp))

/-! ## Sines and cosines -/

/-- A fraction of a half turn below 1/2, as an angle of at most 2. -/
theorem angle_bounds {r : Nat} {e : Int} (h : (r : ℝ) * 2 ^ e ≤ 1 / 2) : |(r : ℝ) * 2 ^ e * Real.pi| ≤ 2 := by
  have nonneg : (0 : ℝ) ≤ r * 2 ^ e := by positivity
  rw [abs_of_nonneg (mul_nonneg nonneg Real.pi_pos.le)]
  nlinarith [Real.pi_lt_d2, Real.pi_pos]

theorem angle_encloses (p : Nat) (r : Nat) (e : Int) :
    Encloses p (enclMul p (enclDyadic p r e) (piEncl p)) ((r : ℝ) * 2 ^ e * Real.pi) := by
  have dyadic := encloses_dyadic p (r : Int) e
  rw [Int.cast_natCast] at dyadic
  exact dyadic.mul (piEncl_encloses p)

theorem sinPiSmall_approx {r : Nat} {e : Int} {v : FVal} (small : (r : ℝ) * 2 ^ e ≤ 1 / 2)
    (h : sinPiSmall r e = some v) :
    v.Approx (Real.sin (r * 2 ^ e * Real.pi)) := by
  rw [sinPiSmall] at h
  exact settleAt_approx (fun p _ => sinEncl_encloses (angle_encloses p r e) (angle_bounds small)) h

theorem cosPiSmall_approx {r : Nat} {e : Int} {v : FVal} (small : (r : ℝ) * 2 ^ e ≤ 1 / 2)
    (h : cosPiSmall r e = some v) :
    v.Approx (Real.cos (r * 2 ^ e * Real.pi)) := by
  rw [cosPiSmall] at h
  exact settleAt_approx (fun p _ => cosEncl_encloses (angle_encloses p r e) (angle_bounds small)) h

/-- The sine of an angle after some quarter turns. -/
theorem sin_quarterTurns (n : Nat) (θ : ℝ) : Real.sin (n * (Real.pi / 2) + θ) =
    (if 2 ≤ n % 4 then -1 else 1) * if n % 4 % 2 = 0 then Real.sin θ else Real.cos θ := by
  have split : (n : ℝ) * (Real.pi / 2) + θ =
      ((n % 4 : Nat) : ℝ) * (Real.pi / 2) + θ + (n / 4 : Nat) * (2 * Real.pi) := by
    have parts : (n : ℝ) = 4 * (n / 4 : Nat) + (n % 4 : Nat) := by exact_mod_cast (Nat.div_add_mod n 4).symm
    rw [parts]
    ring
  rw [split, Real.sin_add_nat_mul_two_pi]
  have less : n % 4 < 4 := Nat.mod_lt n (by norm_num)
  generalize n % 4 = q at less
  interval_cases q
  · simp
  · have := Real.sin_add_pi_div_two θ
    simpa [add_comm] using this
  · have := Real.sin_add_pi θ
    have turn : ((2 : Nat) : ℝ) * (Real.pi / 2) + θ = θ + Real.pi := by push_cast; ring
    rw [turn, this]
    simp
  · have turn : ((3 : Nat) : ℝ) * (Real.pi / 2) + θ = θ + Real.pi / 2 + Real.pi := by push_cast; ring
    rw [turn, Real.sin_add_pi, Real.sin_add_pi_div_two]
    simp

/-- What is left of a magnitude in units of a half turn when its quarter turns are taken away. -/
def quarterRest (m : Nat) (e : Int) : Nat := m % 2 ^ ((-e).toNat - 1)

/-- A magnitude as quarter turns and a rest below one. -/
theorem quarterTurns_eq (m : Nat) {e : Int} (he : e < 0) :
    ((m : ℝ) * 2 ^ e) * Real.pi =
      (m / 2 ^ ((-e).toNat - 1) : Nat) * (Real.pi / 2) + quarterRest m e * 2 ^ e * Real.pi ∧
    (quarterRest m e : ℝ) * 2 ^ e ≤ 1 / 2 := by
  obtain ⟨k, rfl⟩ : ∃ k : Nat, e = -((k + 1 : Nat) : Int) := ⟨(-e).toNat - 1, by omega⟩
  have index : (- -((k + 1 : Nat) : Int)).toNat - 1 = k := by omega
  have half : (2 : ℝ) ^ k * 2 ^ (-((k + 1 : Nat) : Int)) = 1 / 2 := by
    rw [zpow_neg, zpow_natCast, pow_succ]
    field_simp
  rw [quarterRest, index]
  constructor
  · have parts : (m : ℝ) = 2 ^ k * (m / 2 ^ k : Nat) + (m % 2 ^ k : Nat) := by
      exact_mod_cast (Nat.div_add_mod m (2 ^ k)).symm
    calc (m : ℝ) * 2 ^ (-((k + 1 : Nat) : Int)) * Real.pi
        = (m / 2 ^ k : Nat) * (2 ^ k * 2 ^ (-((k + 1 : Nat) : Int))) * Real.pi +
          (m % 2 ^ k : Nat) * 2 ^ (-((k + 1 : Nat) : Int)) * Real.pi := by rw [parts]; ring
      _ = _ := by rw [half]; ring
  · rw [← half]
    refine mul_le_mul_of_nonneg_right ?_ (zpow_pos two_pos _).le
    exact_mod_cast (Nat.mod_lt m (Nat.two_pow_pos k)).le

/-- The quarter in which FSINPI or FCOSPI finds its argument: a cosine is a sine one quarter later. -/
def turnOf (cos : Bool) (m : Nat) (e : Int) : Nat := m / 2 ^ ((-e).toNat - 1) + if cos then 1 else 0

theorem trigPi_eq (cos neg : Bool) (m : Nat) (e : Int) : trigPi cos neg m e =
    (if turnOf cos m e % 4 % 2 = 0 then sinPiSmall (quarterRest m e) e else cosPiSmall (quarterRest m e) e).map
      fun x => if (2 ≤ turnOf cos m e % 4) != (neg && !cos) then x.negate else x := by
  cases cos with
  | false => rfl
  | true =>
    rw [trigPi]
    simp only [turnOf, quarterRest, if_true, Nat.mod_add_mod]

/-- The function's value on the reals. -/
noncomputable def trig (cos : Bool) (θ : ℝ) : ℝ := if cos then Real.cos θ else Real.sin θ

/-- A magnitude's sine or cosine, by the quarter it lies in. -/
theorem trig_of_turn (cos : Bool) (m : Nat) {e : Int} (he : e < 0) : trig cos (m * 2 ^ e * Real.pi) =
    (if 2 ≤ turnOf cos m e % 4 then -1 else 1) *
      trig (turnOf cos m e % 4 % 2 != 0) (quarterRest m e * 2 ^ e * Real.pi) := by
  have turns := sin_quarterTurns (turnOf cos m e) (quarterRest m e * 2 ^ e * Real.pi)
  simp only [trig, bne_iff_ne, ne_eq, ite_not]
  rw [← turns, (quarterTurns_eq m he).1]
  cases cos
  · simp [turnOf]
  · rw [if_pos rfl, ← Real.sin_add_pi_div_two]
    congr 1
    rw [turnOf, if_pos rfl]
    push_cast
    ring

/-- A sine has its argument's sign, and a cosine none. -/
theorem trig_of_sign (cos neg : Bool) (m : Nat) (e : Int) : trig cos (Real.pi * (FVal.int neg m * 2 ^ e)) =
    (if neg && !cos then -1 else 1) * trig cos (m * 2 ^ e * Real.pi) := by
  have angle : Real.pi * ((FVal.int neg m : ℝ) * 2 ^ e) =
      if neg then -(m * 2 ^ e * Real.pi) else m * 2 ^ e * Real.pi := by
    cases neg <;> simp [FVal.int, mul_comm]
  rw [angle]
  cases neg
  · simp
  · cases cos <;> simp [trig]

theorem trigPi_approx {cos neg : Bool} {m : Nat} {e : Int} {v : FVal} (he : e < 0) (h : trigPi cos neg m e = some v) :
    v.Approx (trig cos (Real.pi * (FVal.int neg m * 2 ^ e))) := by
  have small := (quarterTurns_eq m he).2
  rw [trigPi_eq, Option.map_eq_some_iff] at h
  obtain ⟨w, value, rfl⟩ := h
  have base : w.Approx (trig (turnOf cos m e % 4 % 2 != 0) (quarterRest m e * 2 ^ e * Real.pi)) := by
    simp only [trig, bne_iff_ne, ne_eq, ite_not]
    split at value
    next even => rw [if_pos even]; exact sinPiSmall_approx small value
    next odd => rw [if_neg odd]; exact cosPiSmall_approx small value
  rw [trig_of_sign, trig_of_turn cos m he]
  by_cases flip : 2 ≤ turnOf cos m e % 4
  · cases neg && !cos
    · simpa [flip] using base.negate
    · simpa [flip] using base
  · cases neg && !cos
    · simpa [flip] using base
    · simpa [flip] using base.negate

end Sys2Proof.Machine
end

section
/-! SUPPORT. The functions of R133: their fixed rows, and how near every other value is (spec/08 R133). -/

namespace Sys2Proof.Machine

/-! ## The integer part of a magnitude -/

/-- The integer part of m × 2^e. -/
def wholePart (m : Nat) (e : Int) : Nat := if 0 ≤ e then m * 2 ^ e.toNat else m / 2 ^ (-e).toNat

/-- Is m × 2^e an integer, as the functions test it? -/
def IsWhole (m : Nat) (e : Int) : Prop := 0 ≤ e ∨ m % 2 ^ (-e).toNat = 0

theorem mul_zpow_neg (m k : Nat) : (m : ℚ) * 2 ^ (-(k : Int)) = m / (2 ^ k : Nat) := by
  rw [zpow_neg, zpow_natCast, ← div_eq_mul_inv]
  push_cast
  rfl

/-- A magnitude is its integer part and a fraction. -/
theorem wholePart_bounds (m : Nat) (e : Int) :
    (wholePart m e : ℚ) ≤ m * 2 ^ e ∧ (m : ℚ) * 2 ^ e < wholePart m e + 1 := by
  rw [wholePart]
  split
  next nonneg =>
    obtain ⟨k, rfl⟩ := Int.eq_ofNat_of_zero_le nonneg
    rw [zpow_natCast, Int.toNat_natCast]
    push_cast
    exact ⟨le_rfl, lt_add_one _⟩
  next negative =>
    obtain ⟨k, rfl⟩ : ∃ k : Nat, e = -(k : Int) := ⟨(-e).toNat, by omega⟩
    rw [neg_neg, Int.toNat_natCast, mul_zpow_neg]
    refine ⟨Nat.cast_div_le, ?_⟩
    rw [div_lt_iff₀ (by positivity)]
    exact_mod_cast Nat.lt_mul_of_div_lt (Nat.lt_succ_self _) (Nat.two_pow_pos k)

/-- An integer that a magnitude is stands as its integer part. -/
theorem wholePart_eq {m : Nat} {e : Int} {n : Nat} (lo : (n : ℚ) ≤ m * 2 ^ e) (hi : (m : ℚ) * 2 ^ e < n + 1) :
    wholePart m e = n := by
  obtain ⟨below, above⟩ := wholePart_bounds m e
  have first : wholePart m e < n + 1 := by exact_mod_cast below.trans_lt hi
  have second : n < wholePart m e + 1 := by exact_mod_cast lo.trans_lt above
  omega

theorem isWhole_iff {m : Nat} {e : Int} : IsWhole m e ↔ (m : ℚ) * 2 ^ e = wholePart m e := by
  rw [IsWhole, wholePart]
  by_cases nonneg : 0 ≤ e
  · obtain ⟨k, rfl⟩ := Int.eq_ofNat_of_zero_le nonneg
    rw [if_pos nonneg, Int.toNat_natCast, zpow_natCast]
    push_cast
    exact iff_of_true (.inl nonneg) rfl
  · obtain ⟨k, rfl⟩ : ∃ k : Nat, e = -(k : Int) := ⟨(-e).toNat, by omega⟩
    have pos : (0 : ℚ) < (2 ^ k : Nat) := by positivity
    rw [if_neg nonneg, neg_neg, Int.toNat_natCast, mul_zpow_neg, or_iff_right nonneg, div_eq_iff pos.ne']
    rw [← Nat.dvd_iff_mod_eq_zero]
    constructor
    · intro h; exact_mod_cast (Nat.div_mul_cancel h).symm
    · intro h; exact ⟨_, by rw [mul_comm]; exact_mod_cast h⟩

/-- Of a magnitude that is no integer: is it an integer and a half? -/
theorem isHalf_iff {m : Nat} {e : Int} (h : ¬ IsWhole m e) :
    m % 2 ^ (-e - 1).toNat = 0 ↔ (m : ℚ) * 2 ^ e = wholePart m e + 1 / 2 := by
  rw [IsWhole, not_or, not_le] at h
  obtain ⟨negative, odd⟩ := h
  obtain ⟨k, rfl⟩ : ∃ k : Nat, e = -((k + 1 : Nat) : Int) := ⟨(-e).toNat - 1, by omega⟩
  have index : (- -((k + 1 : Nat) : Int) - 1).toNat = k := by omega
  rw [neg_neg, Int.toNat_natCast] at odd
  rw [wholePart, if_neg (by omega), index, neg_neg, Int.toNat_natCast, mul_zpow_neg,
    div_eq_add_mod_div m (2 ^ (k + 1)) (by positivity), add_right_inj, fraction_eq_half]
  have less : m % 2 ^ (k + 1) < 2 ^ (k + 1) := Nat.mod_lt _ (Nat.two_pow_pos _)
  have low : m % 2 ^ k = m % 2 ^ (k + 1) % 2 ^ k := (Nat.mod_mod_of_dvd m (pow_dvd_pow 2 (Nat.le_succ k))).symm
  rw [low, pow_succ] at *
  generalize m % (2 ^ k * 2) = r at *
  have pos := Nat.two_pow_pos k
  constructor
  · intro even
    obtain ⟨c, rfl⟩ := Nat.dvd_of_mod_eq_zero even
    have : c < 2 := by nlinarith
    interval_cases c
    · simp at odd
    · ring
  · intro h
    have : r = 2 ^ k := by omega
    rw [this, Nat.mod_self]

/-! ## Magnitudes that are integers, halves and powers of two -/

/-- A positive value is its magnitude. -/
theorem num_of_pos {neg : Bool} {m : Nat} {e : Int} (h : 0 < Claims.num (.fin neg m e)) :
    neg = false ∧ Claims.num (.fin neg m e) = m * 2 ^ e := by
  rw [num_fin_sign] at h ⊢
  cases neg
  · exact ⟨rfl, rfl⟩
  · have : (0 : ℚ) ≤ m * 2 ^ e := by positivity
    rw [if_pos rfl] at h
    linarith

/-- The magnitude of an integer is its own integer part. -/
theorem isWhole_of_num {neg : Bool} {m : Nat} {e n : Int} (h : Claims.num (.fin neg m e) = n) :
    IsWhole m e ∧ wholePart m e = n.natAbs := by
  have magnitude : (m : ℚ) * 2 ^ e = n.natAbs := by
    rw [← abs_num_fin neg, h, Nat.cast_natAbs, Int.cast_abs]
  have part := wholePart_eq magnitude.ge (by rw [magnitude]; exact lt_add_one _)
  exact ⟨isWhole_iff.2 (by rw [part, magnitude]), part⟩

theorem num_of_isWhole (neg : Bool) {m : Nat} {e : Int} (h : IsWhole m e) :
    Claims.num (.fin neg m e) = (FVal.int neg (wholePart m e) : Int) := by
  rw [num_fin_sign, isWhole_iff.1 h]
  cases neg <;> simp [FVal.int]

/-- The integer below a value that is an integer and a half. -/
def floorHalf (neg : Bool) (w : Nat) : Int := if neg then -(w : Int) - 1 else w

theorem num_of_half (neg : Bool) {m : Nat} {e : Int} (h : (m : ℚ) * 2 ^ e = wholePart m e + 1 / 2) :
    Claims.num (.fin neg m e) = (floorHalf neg (wholePart m e) : Int) + 1 / 2 := by
  rw [num_fin_sign, h, floorHalf]
  cases neg
  · simp
  · simp only [if_true]
    push_cast
    ring

theorem half_of_num {neg : Bool} {m : Nat} {e n : Int} (h : Claims.num (.fin neg m e) = n + 1 / 2) :
    ¬ IsWhole m e ∧ (m : ℚ) * 2 ^ e = wholePart m e + 1 / 2 ∧ n = floorHalf neg (wholePart m e) := by
  obtain ⟨w, hw⟩ : ∃ w : Nat, n = floorHalf neg w := by
    have nonneg : (0 : ℚ) ≤ m * 2 ^ e := by positivity
    rw [num_fin_sign] at h
    cases neg
    · rw [if_neg Bool.false_ne_true] at h
      have : (-1 : ℚ) < n := by linarith
      have : -1 < n := by exact_mod_cast this
      exact ⟨n.toNat, by simp only [floorHalf, Bool.false_eq_true, if_false]; omega⟩
    · rw [if_pos rfl] at h
      have : (n : ℚ) < 0 := by linarith
      have : n < 0 := by exact_mod_cast this
      exact ⟨(-n - 1).toNat, by simp only [floorHalf, if_true]; omega⟩
  have magnitude : (m : ℚ) * 2 ^ e = w + 1 / 2 := by
    rw [num_fin_sign, hw, floorHalf] at h
    cases neg
    · simpa using h
    · simp only [if_true] at h
      push_cast at h
      linarith
  have part : wholePart m e = w := wholePart_eq (by linarith) (by linarith)
  rw [isWhole_iff, part, magnitude]
  exact ⟨by intro same; linarith, rfl, hw⟩

/-- A magnitude that is a power of two is that of its leading bit. -/
theorem mantissa_of_two_zpow {m : Nat} {e n : Int} (hm : m ≠ 0) (h : (m : ℚ) * 2 ^ e = 2 ^ n) :
    m = 2 ^ (bitLen m - 1) ∧ e + (bitLen m - 1 : Nat) = n := by
  have mantissa : (m : ℚ) = 2 ^ (n - e) := by
    rw [zpow_sub₀ two_ne_zero, ← h, mul_div_cancel_right₀ _ (zpow_pos two_pos e).ne']
  have len : bitLen m = bitLen m - 1 + 1 := by
    have : bitLen m ≠ 0 := by rw [bitLen, if_neg hm]; exact Nat.succ_ne_zero _
    omega
  have lo : (2 : ℚ) ^ ((bitLen m - 1 : Nat) : Int) ≤ 2 ^ (n - e) := by
    rw [← mantissa, zpow_natCast]; exact_mod_cast two_pow_bitLen_pred_le hm
  have hi : (2 : ℚ) ^ (n - e) < 2 ^ ((bitLen m : Nat) : Int) := by
    rw [← mantissa, zpow_natCast]; exact_mod_cast lt_two_pow_bitLen m
  rw [zpow_le_zpow_iff_right₀ one_lt_two] at lo
  rw [zpow_lt_zpow_iff_right₀ one_lt_two] at hi
  have exponent : n - e = (bitLen m - 1 : Nat) := by omega
  rw [exponent, zpow_natCast] at mantissa
  exact ⟨by exact_mod_cast mantissa, by omega⟩

theorem neg_one_zpow_eq (n : Int) : (-1 : ℚ) ^ n = if n % 2 = 1 then -1 else 1 := by
  rcases Int.even_or_odd n with even | odd
  · rw [even.neg_one_zpow, if_neg (by have := Int.even_iff.1 even; omega)]
  · rw [odd.neg_one_zpow, if_pos (Int.odd_iff.1 odd)]

/-! ## What the functions do (R133) -/

section Branches

variable {neg : Bool} {m : Nat} {e : Int}

theorem beyond_whole_iff (k : Nat) :
    (0 ≤ e ∧ k ≤ m * 2 ^ e.toNat ∨ e < 0 ∧ k ≤ m >>> (-e).toNat) ↔ k ≤ wholePart m e := by
  rw [wholePart, Nat.shiftRight_eq_div_pow]
  by_cases nonneg : 0 ≤ e
  · rw [if_pos nonneg]; omega
  · rw [if_neg nonneg]; omega

theorem realFn_rcp (hm : m ≠ 0) : realFn .rcp (.fin neg m e) = some (exactDiv (.fin false 1 0) (.fin neg m e)) := by
  simp only [realFn, if_neg hm]

theorem realFn_rsq (hm : m ≠ 0) : realFn .rsq (.fin false m e) = some (rsqrtFin m e, 0) := by
  simp only [realFn, if_neg hm, Bool.false_eq_true, if_false]

theorem realFn_sqrt (hm : m ≠ 0) : realFn .sqrt (.fin false m e) = some (sqrtFin m e, 0) := by
  simp only [realFn, if_neg hm, Bool.false_eq_true, if_false]

theorem realFn_exp2_beyond (hm : m ≠ 0) (beyond : 400 ≤ wholePart m e) :
    realFn .exp2 (.fin neg m e) = some (.fin false 1 (if neg then -400 else 400), 0) := by
  simp only [realFn, if_neg hm, beyond_whole_iff, if_pos beyond]

theorem realFn_exp2_whole (hm : m ≠ 0) (within : ¬ 400 ≤ wholePart m e) (whole : IsWhole m e) :
    realFn .exp2 (.fin neg m e) = some (.fin false 1 (splitDyadic 0 (FVal.int neg m) e).1, 0) := by
  rw [IsWhole] at whole
  simp only [realFn, if_neg hm, beyond_whole_iff, if_neg within, if_pos whole]

theorem realFn_exp2_other (hm : m ≠ 0) (within : ¬ 400 ≤ wholePart m e) (other : ¬ IsWhole m e) :
    realFn .exp2 (.fin neg m e) = (exp2Fin (FVal.int neg m) e).map fun v => (v, 0) := by
  rw [IsWhole] at other
  simp only [realFn, if_neg hm, beyond_whole_iff, if_neg within, if_neg other]

theorem realFn_log2_power (hm : m ≠ 0) (power : m = 2 ^ (bitLen m - 1)) :
    realFn .log2 (.fin false m e) = some (FVal.ofInt (e + (bitLen m - 1 : Nat)), 0) := by
  simp only [realFn, if_neg hm, Bool.false_eq_true, if_false, if_pos power]

theorem realFn_log2_other (hm : m ≠ 0) (other : m ≠ 2 ^ (bitLen m - 1)) :
    realFn .log2 (.fin false m e) = (log2Fin m e).map fun v => (v, 0) := by
  simp only [realFn, if_neg hm, Bool.false_eq_true, if_false, if_neg other]

theorem realFn_sinpi_whole (hm : m ≠ 0) (whole : IsWhole m e) :
    realFn .sinpi (.fin neg m e) = some (.fin neg 0 0, 0) := by
  rw [IsWhole] at whole
  simp only [realFn, if_neg hm, if_pos whole]

/-- Below a half a magnitude shows its integer part by a shift. -/
theorem shiftRight_eq_wholePart (other : ¬ IsWhole m e) : m >>> (-e).toNat = wholePart m e := by
  rw [IsWhole, not_or] at other
  rw [wholePart, if_neg other.1, Nat.shiftRight_eq_div_pow]

theorem realFn_sinpi_half (hm : m ≠ 0) (other : ¬ IsWhole m e) (half : m % 2 ^ (-e - 1).toNat = 0) :
    realFn .sinpi (.fin neg m e) = some (.fin ((wholePart m e % 2 == 1) != neg) 1 0, 0) := by
  rw [← shiftRight_eq_wholePart other]
  rw [IsWhole] at other
  simp only [realFn, if_neg hm, if_neg other, if_pos half]

theorem realFn_sinpi_other (hm : m ≠ 0) (other : ¬ IsWhole m e) (notHalf : ¬ m % 2 ^ (-e - 1).toNat = 0) :
    realFn .sinpi (.fin neg m e) = (trigPi false neg m e).map fun v => (v, 0) := by
  rw [IsWhole] at other
  simp only [realFn, if_neg hm, if_neg other, if_neg notHalf]

theorem realFn_cospi_whole (hm : m ≠ 0) (whole : IsWhole m e) :
    realFn .cospi (.fin neg m e) = some (.fin (wholePart m e % 2 == 1) 1 0, 0) := by
  have part : (if 0 ≤ e then m * 2 ^ e.toNat % 2 == 1 else m >>> (-e).toNat % 2 == 1) = (wholePart m e % 2 == 1) := by
    rw [wholePart, Nat.shiftRight_eq_div_pow]
    split <;> rfl
  rw [IsWhole] at whole
  simp only [realFn, if_neg hm, if_pos whole, part]

theorem realFn_cospi_half (hm : m ≠ 0) (other : ¬ IsWhole m e) (half : m % 2 ^ (-e - 1).toNat = 0) :
    realFn .cospi (.fin neg m e) = some (.fin false 0 0, 0) := by
  rw [IsWhole] at other
  simp only [realFn, if_neg hm, if_neg other, if_pos half]

theorem realFn_cospi_other (hm : m ≠ 0) (other : ¬ IsWhole m e) (notHalf : ¬ m % 2 ^ (-e - 1).toNat = 0) :
    realFn .cospi (.fin neg m e) = (trigPi true neg m e).map fun v => (v, 0) := by
  rw [IsWhole] at other
  simp only [realFn, if_neg hm, if_neg other, if_neg notHalf]

end Branches

theorem realFn_of_special (f : RealFn) (a : FVal) (x : FVal × Flags) (h : Claims.functionSpecial f a = some x) :
    realFn f a = some x := by
  rcases a with ⟨neg, sig⟩ | neg | ⟨neg, m, e⟩
  · rw [← h]; rfl
  · cases neg <;> cases f <;> exact h
  · by_cases hm : m = 0
    · subst hm
      cases f <;> exact h
    · obtain ⟨k, rfl⟩ := Nat.exists_eq_succ_of_ne_zero hm
      cases neg
      · cases f <;> cases h
      · cases f
        case rsq | sqrt | log2 => rw [← h]; simp [realFn, Claims.functionSpecial, FVal.canonical, flagInvalid]
        all_goals cases h

end Sys2Proof.Machine
end

section
/-! SUPPORT. FRCP, FRSQ, FSQRT, FEXP2, FLOG2, FSINPI and FCOSPI: the table of R133 (spec/08 R133). -/

namespace Sys2Proof.Machine

/-! ## The fixed rows -/

/-- A function gives a value exactly, with no flag; a zero has a sign only with FSINPI, its operand's. -/
def GivesExactly (f : RealFn) (neg : Bool) (m : Nat) (e : Int) (y : ℚ) : Prop :=
  ∃ v : FVal, realFn f (.fin neg m e) = some (v, 0) ∧ v.isFin ∧ Claims.num v = y ∧
    (y = 0 → v.neg = (f == .sinpi && neg))

section Rows

variable {neg : Bool} {m : Nat} {e : Int}

theorem rcp_exact (hm : m ≠ 0) {s : Bool} {n : Int}
    (h : Claims.num (.fin neg m e) = (if s then -1 else 1) * 2 ^ n) :
    GivesExactly .rcp neg m e ((if s then -1 else 1) * 2 ^ (-n)) := by
  have inverse : (Claims.num (.fin neg m e))⁻¹ = ((if s then -1 else 1 : Int) : ℚ) * 2 ^ (-n) := by
    rw [h, mul_inv, zpow_neg]
    cases s <;> simp
  have value := num_rcp hm (by cases s <;> decide) inverse
  refine ⟨(exactDiv (.fin false 1 0) (.fin neg m e)).1, ?_, ?_, ?_, fun zero => absurd zero ?_⟩
  · rw [realFn_rcp hm, exactDiv_one e hm]
  · rw [exactDiv_one e hm]; rfl
  · rw [value]; cases s <;> simp
  · cases s <;> simp [(zpow_pos two_pos n : (0 : ℚ) < 2 ^ n).ne']

theorem rsq_exact (hm : m ≠ 0) {n : Int} (h : Claims.num (.fin neg m e) = 4 ^ n) :
    GivesExactly .rsq neg m e (2 ^ (-n)) := by
  obtain ⟨rfl, magnitude⟩ := num_of_pos (h ▸ zpow_pos (by norm_num) n : 0 < Claims.num (.fin neg m e))
  exact ⟨_, realFn_rsq hm, rfl, num_rsqrt hm (magnitude.symm.trans h),
    fun zero => absurd zero (zpow_pos two_pos _).ne'⟩

theorem sqrt_exact (hm : m ≠ 0) {a : Nat} {b : Int} (h : Claims.num (.fin neg m e) = (a * 2 ^ b) ^ 2) :
    GivesExactly .sqrt neg m e (a * 2 ^ b) := by
  have nonzero : Claims.num (.fin neg m e) ≠ 0 := by
    rw [← abs_pos, abs_num_fin]
    exact mul_pos (by exact_mod_cast Nat.pos_of_ne_zero hm) (zpow_pos two_pos e)
  have pos : 0 < Claims.num (.fin neg m e) := lt_of_le_of_ne (h ▸ sq_nonneg _) nonzero.symm
  obtain ⟨rfl, magnitude⟩ := num_of_pos pos
  exact ⟨_, realFn_sqrt hm, rfl, num_sqrt (by positivity) (magnitude.symm.trans h), fun _ => rfl⟩

theorem exp2_exact (hm : m ≠ 0) {n : Int} (bounds : -400 < n ∧ n < 400) (h : Claims.num (.fin neg m e) = n) :
    GivesExactly .exp2 neg m e (2 ^ n) := by
  obtain ⟨whole, part⟩ := isWhole_of_num h
  have floor : (splitDyadic 0 (FVal.int neg m) e).1 = n := by
    rw [splitDyadic_fst, ← cast_num_fin, h, Rat.cast_intCast, Int.floor_intCast]
  refine ⟨_, realFn_exp2_whole hm (by rw [part]; omega) whole, rfl, ?_,
    fun zero => absurd zero (zpow_pos two_pos _).ne'⟩
  rw [floor]
  simp [Claims.num]

theorem log2_exact (hm : m ≠ 0) {n : Int} (h : Claims.num (.fin neg m e) = 2 ^ n) : GivesExactly .log2 neg m e n := by
  obtain ⟨rfl, magnitude⟩ := num_of_pos (h ▸ zpow_pos two_pos n : 0 < Claims.num (.fin neg m e))
  obtain ⟨power, exponent⟩ := mantissa_of_two_zpow hm (magnitude.symm.trans h)
  have result := realFn_log2_power (e := e) hm power
  rw [exponent] at result
  refine ⟨_, result, rfl, ?_, fun zero => ?_⟩
  · rw [FVal.ofInt, num_fin, FVal.int_natAbs, zpow_zero, mul_one]
  · have : n = 0 := by exact_mod_cast zero
    rw [this]; rfl

theorem sinpi_exact_whole (hm : m ≠ 0) {n : Int} (h : Claims.num (.fin neg m e) = n) : GivesExactly .sinpi neg m e 0 :=
  ⟨_, realFn_sinpi_whole hm (isWhole_of_num h).1, rfl, num_zero _ _, fun _ => rfl⟩

/-- One with a sign. -/
theorem num_unit (neg : Bool) : Claims.num (.fin neg 1 0) = if neg then -1 else 1 := by
  cases neg <;> simp [Claims.num]

theorem sinpi_exact_half (hm : m ≠ 0) {n : Int} (h : Claims.num (.fin neg m e) = n + 1 / 2) :
    GivesExactly .sinpi neg m e ((-1) ^ n) := by
  obtain ⟨other, half, rfl⟩ := half_of_num h
  refine ⟨_, realFn_sinpi_half hm other ((isHalf_iff other).2 half), rfl, ?_, fun zero => absurd zero ?_⟩
  · rw [num_unit, neg_one_zpow_eq]
    generalize wholePart m e = w
    have parity : ((w % 2 == 1) != neg) = true ↔ floorHalf neg w % 2 = 1 := by
      cases neg
      · simp only [floorHalf, Bool.bne_false, beq_iff_eq, Bool.false_eq_true, if_false]; omega
      · simp only [floorHalf, Bool.bne_true, Bool.not_eq_true', beq_eq_false_iff_ne, if_true]; omega
    simp only [parity]
  · rw [neg_one_zpow_eq]; split <;> norm_num

theorem cospi_exact_whole (hm : m ≠ 0) {n : Int} (h : Claims.num (.fin neg m e) = n) :
    GivesExactly .cospi neg m e ((-1) ^ n) := by
  obtain ⟨whole, part⟩ := isWhole_of_num h
  refine ⟨_, realFn_cospi_whole hm whole, rfl, ?_, fun zero => absurd zero ?_⟩
  · rw [num_unit, neg_one_zpow_eq, part]
    have parity : (n.natAbs % 2 == 1) = true ↔ n % 2 = 1 := by rw [beq_iff_eq]; omega
    simp only [parity]
  · rw [neg_one_zpow_eq]; split <;> norm_num

theorem cospi_exact_half (hm : m ≠ 0) {n : Int} (h : Claims.num (.fin neg m e) = n + 1 / 2) :
    GivesExactly .cospi neg m e 0 := by
  obtain ⟨other, half, -⟩ := half_of_num h
  exact ⟨_, realFn_cospi_half hm other ((isHalf_iff other).2 half), rfl, num_zero _ _, fun _ => rfl⟩

theorem exact_of_fixedRow {f : RealFn} {y : ℚ} (hm : m ≠ 0) (row : Claims.FixedRow f (Claims.num (.fin neg m e)) y) :
    GivesExactly f neg m e y := by
  generalize hx : Claims.num (.fin neg m e) = x at row
  cases row with
  | rcp s n => exact rcp_exact hm hx
  | rsq n => exact rsq_exact hm hx
  | sqrt a b => exact sqrt_exact hm hx
  | exp2 n bounds => exact exp2_exact hm bounds hx
  | log2 n => exact log2_exact hm hx
  | sinpi n => exact sinpi_exact_whole hm hx
  | sinpiHalf n => exact sinpi_exact_half hm hx
  | cospi n => exact cospi_exact_whole hm hx
  | cospiHalf n => exact cospi_exact_half hm hx

end Rows

/-- A fixed row is the function's value on the reals. -/
theorem trueFn_of_fixedRow {f : RealFn} {x y : ℚ} (row : Claims.FixedRow f x y) : Claims.trueFn f x = y := by
  cases row with
  | rcp s n => cases s <;> simp [Claims.trueFn]
  | rsq n =>
    have four : (4 : ℝ) ^ n = 1 * 2 ^ (2 * n) := by rw [one_mul, zpow_mul]; norm_num
    simp only [Claims.trueFn]
    push_cast
    rw [four, sqrt_mul_zpow, Real.sqrt_one, one_mul, zpow_neg]
  | sqrt a b =>
    simp only [Claims.trueFn]
    push_cast
    exact Real.sqrt_sq (by positivity)
  | exp2 n bounds => simp [Claims.trueFn]
  | log2 n =>
    simp only [Claims.trueFn]
    push_cast
    rw [← Real.rpow_intCast, Real.logb_rpow two_pos one_lt_two.ne']
  | sinpi n => simp [Claims.trueFn, mul_comm Real.pi, Real.sin_int_mul_pi]
  | sinpiHalf n =>
    have angle : Real.pi * (n + 1 / 2) = n * Real.pi + Real.pi / 2 := by ring
    simp only [Claims.trueFn]
    push_cast
    rw [angle, Real.sin_add_pi_div_two, Real.cos_int_mul_pi]
  | cospi n =>
    simp only [Claims.trueFn]
    push_cast
    rw [mul_comm, Real.cos_int_mul_pi]
  | cospiHalf n =>
    have angle : Real.pi * (n + 1 / 2) = n * Real.pi + Real.pi / 2 := by ring
    simp only [Claims.trueFn]
    push_cast
    rw [angle, Real.cos_add_pi_div_two, Real.sin_int_mul_pi, neg_zero]

/-! ## Every other value -/

section Approximations

variable {neg : Bool} {m : Nat} {e : Int} {v : FVal} {fl : Flags}

/-- A function's value is near the real one, with no flag. -/
def GivesNear (f : RealFn) (a : FVal) (v : FVal) (fl : Flags) : Prop :=
  fl = 0 ∧ v.Approx (Claims.trueFn f (Claims.num a))

theorem near_of_fixedRow {f : RealFn} {y : ℚ} (hm : m ≠ 0) (row : Claims.FixedRow f (Claims.num (.fin neg m e)) y)
    (h : realFn f (.fin neg m e) = some (v, fl)) : GivesNear f (.fin neg m e) v fl := by
  obtain ⟨w, result, fin, value, -⟩ := exact_of_fixedRow hm row
  obtain ⟨rfl, rfl⟩ : w = v ∧ 0 = fl := by simpa using result.symm.trans h
  exact ⟨rfl, fin, Near.of_eq (by rw [value, trueFn_of_fixedRow row])⟩

/-- What a settled enclosure gives is near. -/
theorem near_of_map {f : RealFn} {a : FVal} {x : Option FVal} (h : x.map (fun v => (v, (0 : Flags))) = some (v, fl))
    (near : ∀ w, x = some w → w.Approx (Claims.trueFn f (Claims.num a))) : GivesNear f a v fl := by
  obtain ⟨w, hw, pair⟩ := Option.map_eq_some_iff.1 h
  obtain ⟨rfl, rfl⟩ := Prod.mk.inj pair
  exact ⟨rfl, near w hw⟩

theorem near_rcp (hm : m ≠ 0) (h : realFn .rcp (.fin neg m e) = some (v, fl)) : GivesNear .rcp (.fin neg m e) v fl := by
  have pair := Option.some.inj ((realFn_rcp hm).symm.trans h)
  have approx := approx_rcp (neg := neg) e hm
  rw [pair] at approx
  refine ⟨?_, approx⟩
  rw [exactDiv_one e hm] at pair
  exact (Prod.mk.inj pair).2.symm

theorem near_rsq (hm : m ≠ 0) (h : realFn .rsq (.fin false m e) = some (v, fl)) :
    GivesNear .rsq (.fin false m e) v fl := by
  obtain ⟨rfl, rfl⟩ : rsqrtFin m e = v ∧ 0 = fl := by simpa using (realFn_rsq hm).symm.trans h
  refine ⟨rfl, ?_⟩
  rw [cast_num_pos]
  exact approx_rsqrt e hm

theorem near_sqrt (hm : m ≠ 0) (h : realFn .sqrt (.fin false m e) = some (v, fl)) :
    GivesNear .sqrt (.fin false m e) v fl := by
  obtain ⟨rfl, rfl⟩ : sqrtFin m e = v ∧ 0 = fl := by simpa using (realFn_sqrt hm).symm.trans h
  refine ⟨rfl, ?_⟩
  rw [cast_num_pos]
  exact approx_sqrt e hm

/-- Below 400 in magnitude the integer part is, too. -/
theorem wholePart_within {k : Nat} (h : |Claims.num (.fin neg m e)| < k) : ¬ k ≤ wholePart m e := by
  rw [abs_num_fin] at h
  have : wholePart m e < k := by exact_mod_cast (wholePart_bounds m e).1.trans_lt h
  omega

theorem near_exp2 (hm : m ≠ 0) (within : |Claims.num (.fin neg m e)| < 400)
    (h : realFn .exp2 (.fin neg m e) = some (v, fl)) : GivesNear .exp2 (.fin neg m e) v fl := by
  have small : ¬ 400 ≤ wholePart m e := wholePart_within (by exact_mod_cast within)
  by_cases whole : IsWhole m e
  · have value := num_of_isWhole neg whole
    refine near_of_fixedRow hm (y := 2 ^ FVal.int neg (wholePart m e)) ?_ h
    rw [value]
    refine .exp2 _ ?_
    cases neg <;> simp only [FVal.int, if_true, Bool.false_eq_true, if_false] <;> omega
  · rw [realFn_exp2_other hm small whole] at h
    refine near_of_map h fun w hw => ?_
    rw [cast_num_fin]
    exact exp2Fin_approx hw

theorem near_log2 (hm : m ≠ 0) (h : realFn .log2 (.fin false m e) = some (v, fl)) :
    GivesNear .log2 (.fin false m e) v fl := by
  by_cases power : m = 2 ^ (bitLen m - 1)
  · have value : Claims.num (.fin false m e) = 2 ^ (e + (bitLen m - 1 : Nat)) := by
      rw [num_fin_sign, if_neg Bool.false_ne_true, zpow_add₀ two_ne_zero, zpow_natCast, mul_comm]
      congr 1
      exact_mod_cast power
    refine near_of_fixedRow hm (y := (e + (bitLen m - 1 : Nat) : Int)) ?_ h
    rw [value]
    exact .log2 _
  · rw [realFn_log2_other hm power] at h
    refine near_of_map h fun w hw => ?_
    rw [cast_num_pos]
    exact log2Fin_approx hm hw

theorem negative_of_not_whole (other : ¬ IsWhole m e) : e < 0 := by
  rw [IsWhole, not_or] at other
  exact not_le.1 other.1

theorem near_sinpi (hm : m ≠ 0) (h : realFn .sinpi (.fin neg m e) = some (v, fl)) :
    GivesNear .sinpi (.fin neg m e) v fl := by
  by_cases whole : IsWhole m e
  · refine near_of_fixedRow hm (y := 0) ?_ h
    rw [num_of_isWhole neg whole]
    exact .sinpi _
  by_cases half : m % 2 ^ (-e - 1).toNat = 0
  · refine near_of_fixedRow hm (y := (-1) ^ floorHalf neg (wholePart m e)) ?_ h
    rw [num_of_half neg ((isHalf_iff whole).1 half)]
    exact .sinpiHalf _
  · rw [realFn_sinpi_other hm whole half] at h
    refine near_of_map h fun w hw => ?_
    rw [cast_num_fin]
    exact trigPi_approx (negative_of_not_whole whole) hw

theorem near_cospi (hm : m ≠ 0) (h : realFn .cospi (.fin neg m e) = some (v, fl)) :
    GivesNear .cospi (.fin neg m e) v fl := by
  by_cases whole : IsWhole m e
  · refine near_of_fixedRow hm (y := (-1) ^ FVal.int neg (wholePart m e)) ?_ h
    rw [num_of_isWhole neg whole]
    exact .cospi _
  by_cases half : m % 2 ^ (-e - 1).toNat = 0
  · refine near_of_fixedRow hm (y := 0) ?_ h
    rw [num_of_half neg ((isHalf_iff whole).1 half)]
    exact .cospiHalf _
  · rw [realFn_cospi_other hm whole half] at h
    refine near_of_map h fun w hw => ?_
    rw [cast_num_fin]
    exact trigPi_approx (negative_of_not_whole whole) hw

/-- An operand of FRSQ, FSQRT or FLOG2 that is no special one is positive. -/
theorem positive_of_not_special {f : RealFn} (hf : f = .rsq ∨ f = .sqrt ∨ f = .log2) (hm : m ≠ 0)
    (h : Claims.functionSpecial f (.fin neg m e) = none) : neg = false := by
  obtain ⟨k, rfl⟩ := Nat.exists_eq_succ_of_ne_zero hm
  cases neg
  · rfl
  · rcases hf with rfl | rfl | rfl <;> cases h

theorem near_of_not_special {f : RealFn} (hm : m ≠ 0) (special : Claims.functionSpecial f (.fin neg m e) = none)
    (within : f = .exp2 → |Claims.num (.fin neg m e)| < 400) (h : realFn f (.fin neg m e) = some (v, fl)) :
    GivesNear f (.fin neg m e) v fl := by
  cases f with
  | rcp => exact near_rcp hm h
  | rsq => obtain rfl := positive_of_not_special (by simp) hm special; exact near_rsq hm h
  | sqrt => obtain rfl := positive_of_not_special (by simp) hm special; exact near_sqrt hm h
  | exp2 => exact near_exp2 hm (within rfl) h
  | log2 => obtain rfl := positive_of_not_special (by simp) hm special; exact near_log2 hm h
  | sinpi => exact near_sinpi hm h
  | cospi => exact near_cospi hm h

end Approximations

theorem functionTable : Claims.FunctionTable := by
  refine ⟨realFn_of_special, fun f neg m e y hm row => exact_of_fixedRow hm row,
    fun f neg m e v fl hm special within h => ?_, fun neg m e beyond => ?_⟩
  · obtain ⟨flags, fin, near⟩ := near_of_not_special hm special within h
    exact ⟨flags, fin, near⟩
  · rw [abs_num_fin] at beyond
    have hm : m ≠ 0 := by rintro rfl; norm_num at beyond
    have part : 400 ≤ wholePart m e := by
      have : (400 : ℚ) < (wholePart m e : ℚ) + 1 := beyond.trans_lt (wholePart_bounds m e).2
      have : 400 < wholePart m e + 1 := by exact_mod_cast this
      omega
    exact realFn_exp2_beyond hm part

end Sys2Proof.Machine
end

section
/-! SUPPORT. The instructions of R133: what FEXP2 gives an integer exactly, and one rounding of every other value
(spec/08 R133). -/

namespace Sys2Proof.Machine

/-! ## FEXP2 of an integer -/

/-- The integer that the model takes a value for is its number. -/
theorem integer_eq_some_iff {a : FVal} {n : Int} : a.integer = some n ↔ a.isFin = true ∧ Claims.num a = n := by
  rcases a with _ | _ | ⟨neg, m, e⟩
  · simp [FVal.integer, FVal.isFin]
  · simp [FVal.integer, FVal.isFin]
  · have model : (FVal.fin neg m e).integer = some n ↔ IsWhole m e ∧ FVal.int neg (wholePart m e) = n := by
      rw [FVal.integer, IsWhole, wholePart]
      by_cases nonneg : 0 ≤ e
      · simp [nonneg]
      · by_cases even : m % 2 ^ (-e).toNat = 0
        · simp [nonneg, even]
        · simp [nonneg, even]
    rw [model]
    constructor
    · rintro ⟨whole, rfl⟩
      exact ⟨rfl, num_of_isWhole neg whole⟩
    · rintro ⟨-, value⟩
      have whole := (isWhole_of_num value).1
      exact ⟨whole, by exact_mod_cast (num_of_isWhole neg whole).symm.trans value⟩

theorem decode_subnormalPower {j : Nat} (h : j ≤ 23) : decodeFmt .fp32 (2 ^ j) = .fin false (2 ^ j) (-149) :=
  decodeFmt_of_le_firstNormal (f := .fp32) (by decide) false (Nat.pow_le_pow_right two_pos h)

theorem decode_normalPower {k : Nat} (lo : 1 ≤ k) (hi : k ≤ 254) :
    decodeFmt .fp32 (k * 2 ^ 23) = .fin false (2 ^ 23) (k - 150) := by
  have field : k * 2 ^ 23 / 2 ^ 23 % 2 ^ 8 = k := by omega
  have fraction : k * 2 ^ 23 % 2 ^ 23 = 0 := by omega
  have sign : k * 2 ^ 23 / 2 ^ 31 % 2 ≠ 1 := by omega
  rw [decodeFmt_fp32, field, fraction, if_neg (by omega), if_neg (by omega), decide_eq_false sign, Nat.add_zero]

/-- The exact bits stand for the power of two. -/
theorem decode_exactExp2 {n : Int} (lo : -149 ≤ n) (hi : n ≤ 127) : ∃ b : W32, exactExp2 n = some b ∧
    (decodeFmt .fp32 b.toNat).isFin ∧ Claims.num (decodeFmt .fp32 b.toNat) = 2 ^ n := by
  refine ⟨_, by rw [exactExp2, if_neg (by omega)], ?_⟩
  split
  next subnormal =>
    obtain ⟨j, rfl⟩ : ∃ j : Nat, n = j - 149 := ⟨(n + 149).toNat, by omega⟩
    have bits : BitVec.ofInt 32 (2 ^ ((j : Int) - 149 + 149).toNat) = BitVec.ofNat 32 (2 ^ j) := by
      rw [sub_add_cancel, Int.toNat_natCast, ← BitVec.ofInt_natCast]
      push_cast
      rfl
    rw [bits, decodeFmt_fp32_ofNat, decode_subnormalPower (by omega)]
    refine ⟨rfl, ?_⟩
    rw [num_fin_sign, if_neg Bool.false_ne_true, sub_eq_add_neg, zpow_add₀ two_ne_zero, zpow_natCast, Nat.cast_pow,
      Nat.cast_ofNat]
  next normal =>
    obtain ⟨k, rfl⟩ : ∃ k : Nat, n = k - 127 := ⟨(n + 127).toNat, by omega⟩
    have bits : BitVec.ofInt 32 (((k : Int) - 127 + 127) * 2 ^ 23) = BitVec.ofNat 32 (k * 2 ^ 23) := by
      rw [sub_add_cancel, ← BitVec.ofInt_natCast]
      push_cast
      rfl
    rw [bits, decodeFmt_fp32_ofNat, decode_normalPower (by omega) (by omega)]
    refine ⟨rfl, ?_⟩
    rw [num_fin_sign, if_neg Bool.false_ne_true, zpow_sub₀ two_ne_zero, zpow_sub₀ two_ne_zero]
    norm_num
    ring

/-- FEXP2 of an integer in range. -/
def ExactPower (f : RealFn) (a : FVal) : Prop :=
  f = .exp2 ∧ a.isFin ∧ ∃ n : Int, -149 ≤ n ∧ n ≤ 127 ∧ Claims.num a = n

theorem exactResult_of_exactPower {f : RealFn} {a : FVal} (h : ExactPower f a) : ∃ b : W32, exactResult f a = some b ∧
    (decodeFmt .fp32 b.toNat).isFin ∧ Claims.num (decodeFmt .fp32 b.toNat) = 2 ^ ⌊Claims.num a⌋ := by
  obtain ⟨rfl, fin, n, lo, hi, value⟩ := h
  obtain ⟨b, bits, decoded⟩ := decode_exactExp2 lo hi
  refine ⟨b, ?_, ?_⟩
  · rw [exactResult, integer_eq_some_iff.2 ⟨fin, value⟩]
    exact bits
  · rwa [value, Int.floor_intCast]

theorem exactResult_of_not_exactPower {f : RealFn} {a : FVal} (h : ¬ ExactPower f a) : exactResult f a = none := by
  cases f with
  | exp2 =>
    rw [exactResult, Option.bind_eq_none_iff]
    intro n value
    obtain ⟨fin, number⟩ := integer_eq_some_iff.1 value
    by_contra given
    refine h ⟨rfl, fin, n, ?_⟩
    rw [exactExp2] at given
    split at given
    · exact absurd rfl given
    next within => exact ⟨by omega, by omega, number⟩
  | _ => rfl

/-! ## The instructions -/

/-- What an instruction of R133 gives a lane: its word and flags. -/
def functionWord (f : RealFn) (s : State) (l : Nat) (o : Operand) (rm : Rm) : W32 × Flags :=
  match exactResult f (Claims.fp s l o) with
  | some b => (b, 0)
  | none => match realFn f (Claims.fp s l o) with
    | some x =>
      let r := x.1.round .fp32 (s.ctl l .fp32 rm) (s.rs l 0)
      (BitVec.ofNat 32 r.1, x.2 ||| r.2)
    | none => (Config.unsettled f.number (s.src l .fp32 o), flagInexact)

theorem functionOf_eq (f : RealFn) (g : Guard) (o : Ops) (rm : Rm) (s : State) :
    functionOf f g o rm s = perLane g o.d s fun l => .ok [(functionWord f s l o.a rm).1] (functionWord f s l o.a rm).2
      (Claims.rm32 s l rm == .rs) := by
  simp only [functionOf, State.val_fp32]
  congr 1
  funext l
  rw [functionWord]
  cases exactResult f (Claims.fp s l o.a) with
  | some b => rfl
  | none => cases realFn f (Claims.fp s l o.a) <;> rfl

theorem exec_of_functionRule (i : Instr) (s : State) (g : Guard) (o : Ops) (rm : Rm) (f : RealFn)
    (h : Claims.functionRule i = some (g, o, rm, f)) : exec i s = functionOf f g o rm s := by
  cases i with
  | frcp | frsq | fsqrt | fexp2 | flog2 | fsinpi | fcospi => cases h; rfl
  | _ => cases h

/-- Settles O3: the fixed rows from the bits that each function computes, the bound from enclosures of its series, and
one rounding of what they settle. -/
theorem realFunctions : Obligations.RealFunctions := by
  refine ⟨functionTable, fun i s g o rm f h => ?_⟩
  obtain ⟨t, run, result⟩ := perLane_given g o.d s fun l =>
    ([(functionWord f s l o.a rm).1], (functionWord f s l o.a rm).2, Claims.rm32 s l rm == .rs)
  refine ⟨t, _, _, ((exec_of_functionRule i s g o rm f h).trans (functionOf_eq f g o rm s)).trans run, result,
    fun l => ⟨fun whole => ?_, fun other x given => ?_⟩⟩
  · obtain ⟨b, bits, fin, value⟩ := exactResult_of_exactPower whole
    simp only [functionWord, bits]
    exact ⟨fin, value, trivial⟩
  · simp only [functionWord, exactResult_of_not_exactPower other, given]
    rfl

end Sys2Proof.Machine
end

section
/-! SUPPORT. Groups: the issue key, the lead, and the lanes that go with it (spec/09 R149, R150, R162, R165; spec/24
R357). -/

namespace Sys2Proof.Machine
open Claims

/-! ## Lanes in rising order -/

theorem insertLane_perm (l : Nat) (ls : List Nat) : (insertLane l ls).Perm (l :: ls) := by
  induction ls with
  | nil => exact .refl _
  | cons m ls ih =>
    rw [insertLane]
    split
    · exact .refl _
    · exact (ih.cons m).trans (.swap l m ls)

theorem sortLanes_perm (ls : List Nat) : (sortLanes ls).Perm ls := by
  induction ls with
  | nil => exact .refl _
  | cons l ls ih => exact (insertLane_perm l _).trans (ih.cons l)

@[simp] theorem mem_sortLanes {l : Nat} {ls : List Nat} : l ∈ sortLanes ls ↔ l ∈ ls := (sortLanes_perm ls).mem_iff

/-! ## The issue key (R149) -/

/-- The key as one number orders lanes as R149 does. -/
theorem State.issueKey_le_iff (s : State) (l m : Nat) : s.issueKey l ≤ s.issueKey m ↔ goesFirst s l m := by
  have hdl := (s.lane l).depth.isLt
  have hdm := (s.lane m).depth.isLt
  have hpl := (s.lane l).pc.isLt
  have hpm := (s.lane m).pc.isLt
  simp only [State.issueKey, goesFirst, BitVec.lt_def, ← BitVec.toNat_inj]
  cases (s.lane l).defer <;> cases (s.lane m).defer <;> simp <;> omega

/-- The lane of lowest key is one of the lanes, and goes before each of them. -/
theorem State.lowestKey_eq_some {s : State} {ls : List Nat} {l : Nat} (h : s.lowestKey ls = some l) :
    l ∈ ls ∧ ∀ m ∈ ls, goesFirst s l m := by
  simp only [← s.issueKey_le_iff]
  induction ls generalizing l with
  | nil => cases h
  | cons a ls ih =>
    rw [State.lowestKey] at h
    split at h
    next hnone =>
      obtain rfl := Option.some.inj h
      cases ls with
      | nil => simp
      | cons b ls =>
        rw [State.lowestKey] at hnone
        split at hnone <;> cases hnone
    next m hm =>
      obtain ⟨hmem, hle⟩ := ih hm
      obtain rfl := Option.some.inj h
      split
      next hlt => exact ⟨List.mem_cons_of_mem _ hmem, List.forall_mem_cons.2 ⟨hlt.le, hle⟩⟩
      next hge =>
        exact ⟨List.mem_cons_self, List.forall_mem_cons.2 ⟨le_rfl, fun k hk => (not_lt.1 hge).trans (hle k hk)⟩⟩

theorem State.lowestKey_eq_none_iff {s : State} {ls : List Nat} : s.lowestKey ls = none ↔ ls = [] := by
  cases ls with
  | nil => exact iff_of_true rfl rfl
  | cons a ls =>
    rw [State.lowestKey]
    split <;> simp

/-- Where a list holds a lane, some lane of it has the lowest key. -/
theorem State.exists_lowestKey {s : State} {ls : List Nat} {m : Nat} (h : m ∈ ls) : ∃ l, s.lowestKey ls = some l :=
  Option.ne_none_iff_exists'.1 fun hn => by
    rw [State.lowestKey_eq_none_iff] at hn
    subst hn
    cases h

/-! ## The lead (R150, spec/24 R357) -/

theorem State.resumed_iff (s : State) (l : Nat) : (s.lane l).resumed = true ↔ midClause s l := by
  simp [Lane.resumed, midClause]

theorem State.lead_spec {s : State} {ready : List Nat} {l : Nat} (h : s.lead ready = some l) :
    l ∈ ready ∧ ((∀ m ∈ ready, ¬ midClause s m) → ∀ m ∈ ready, goesFirst s l m) ∧
    ((∃ m ∈ ready, midClause s m) → midClause s l ∧ ∀ m ∈ ready, midClause s m → goesFirst s l m) := by
  rw [State.lead] at h
  split at h
  next k hk =>
    obtain rfl := Option.some.inj h
    obtain ⟨hmem, hfirst⟩ := State.lowestKey_eq_some hk
    simp only [List.mem_filter, s.resumed_iff] at hmem hfirst
    exact ⟨hmem.1, fun hnone => absurd hmem.2 (hnone k hmem.1), fun _ => ⟨hmem.2, fun m hm hmid => hfirst m ⟨hm, hmid⟩⟩⟩
  next hk =>
    obtain ⟨hmem, hfirst⟩ := State.lowestKey_eq_some h
    rw [State.lowestKey_eq_none_iff, List.filter_eq_nil_iff] at hk
    exact ⟨hmem, fun _ => hfirst, fun ⟨m, hm, hmid⟩ => absurd ((s.resumed_iff m).2 hmid) (hk m hm)⟩

/-! ## The members (R150, spec/02 R22) -/

theorem Lane.midway_iff (x : Lane) : x.midway = true ↔ partWay x := by
  simp [Lane.midway, partWay, Option.isSome_iff_ne_none]

/-- A lane of a group of one for each position: of the candidates of its position, the one of lowest key. -/
theorem State.mem_onePerPosition {s : State} {c : List Nat} {m : Nat} :
    m ∈ s.onePerPosition c ↔ s.lowestKey (c.filter fun l => homeLane l == homeLane m) = some m := by
  simp only [State.onePerPosition, mem_sortLanes, List.mem_filterMap, List.mem_range]
  constructor
  · rintro ⟨p, -, hp⟩
    have hpos : homeLane m = p := by
      simpa using (List.mem_filter.1 (State.lowestKey_eq_some hp).1).2
    rwa [hpos]
  · intro h
    exact ⟨homeLane m, Nat.mod_lt _ (by decide), h⟩

theorem State.onePerPosition_pairwise (s : State) (c : List Nat) :
    (s.onePerPosition c).Pairwise fun a b => a % 32 ≠ b % 32 := by
  refine ((sortLanes_perm _).pairwise_iff fun h => h.symm).2 (List.pairwise_filterMap.2 ?_)
  refine List.nodup_range.imp fun {p q} hne a ha b hb hab => hne ?_
  have ha : homeLane a = p := by simpa using (List.mem_filter.1 (State.lowestKey_eq_some ha).1).2
  have hb : homeLane b = q := by simpa using (List.mem_filter.1 (State.lowestKey_eq_some hb).1).2
  exact ha.symm.trans (Eq.trans hab hb)

/-- A lane that stands where the lead does, at another position. -/
def besideLead (s : State) (ready : List Nat) (l m : Nat) : Prop :=
  m ∈ ready ∧ m % 32 ≠ l % 32 ∧ (s.lane m).status = .idle ∧ (s.lane m).rslot = 0 ∧ (s.lane m).kept = none ∧
    (s.lane m).depth = (s.lane l).depth ∧ (s.lane m).pc = (s.lane l).pc

theorem State.members_of_partWay {s : State} {l : Nat} (ready : List Nat) (hidle : (s.lane l).status = .idle)
    (hmid : ¬ midClause s l) (hpart : partWay (s.lane l)) : s.members ready l = [l] := by
  simp [State.members, hidle, (s.resumed_iff l).not.2 hmid, (Lane.midway_iff _).2 hpart]

/-- Which lanes may go with a lead that stands before a clause. -/
theorem State.members_of_before {s : State} {l : Nat} (ready : List Nat) (hidle : (s.lane l).status = .idle)
    (hmid : ¬ midClause s l) (hpart : ¬ partWay (s.lane l)) :
    ∃ c, s.members ready l = s.onePerPosition c ∧ ∀ m, m ∈ c ↔ m ∈ ready ∧ (m = l ∨ besideLead s ready l m) := by
  refine ⟨_, by simp only [State.members, hidle, (s.resumed_iff l).not.2 hmid, (Lane.midway_iff _).not.2 hpart]; rfl,
    fun m => ?_⟩
  have hnot : (s.lane m).midway = false ↔ (s.lane m).rslot = 0 ∧ (s.lane m).kept = none := by
    rw [← Bool.not_eq_true, Lane.midway_iff, partWay, not_or, not_not, not_not]
  simp only [List.mem_filter, besideLead, homeLane, Bool.or_eq_true, Bool.and_eq_true, bne_iff_ne, beq_iff_eq,
    Bool.not_eq_true', hnot]
  tauto

theorem State.members_spec {s : State} {l : Nat} (ready : List Nat) (hidle : (s.lane l).status = .idle)
    (hmid : ¬ midClause s l) (hslot : (s.lane l).rslot = 0) (hkept : (s.lane l).kept = none) (hl : l ∈ ready) :
    l ∈ s.members ready l ∧ (∀ m ∈ s.members ready l, m = l ∨ besideLead s ready l m) ∧
    (s.members ready l).Pairwise (fun a b => a % 32 ≠ b % 32) ∧
    ∀ c, besideLead s ready l c → ∃ m ∈ s.members ready l, m % 32 = c % 32 ∧ goesFirst s m c := by
  obtain ⟨cs, hmembers, hcs⟩ := State.members_of_before ready hidle hmid (by simp [partWay, hslot, hkept])
  rw [hmembers]
  have hfirst : ∀ c ∈ cs, ∃ m ∈ s.onePerPosition cs, m ∈ cs ∧ m % 32 = c % 32 ∧ goesFirst s m c := fun c hc => by
    have hin : c ∈ cs.filter fun k => homeLane k == homeLane c := List.mem_filter.2 ⟨hc, beq_self_eq_true _⟩
    obtain ⟨m, hm⟩ := State.exists_lowestKey (s := s) hin
    obtain ⟨hmem, hle⟩ := State.lowestKey_eq_some hm
    obtain ⟨hmcs, hpos⟩ := List.mem_filter.1 hmem
    have hpos : homeLane m = homeLane c := beq_iff_eq.1 hpos
    exact ⟨m, State.mem_onePerPosition.2 (hpos ▸ hm), hmcs, hpos, hle c hin⟩
  refine ⟨?_, fun m hm => ?_, s.onePerPosition_pairwise cs, fun c hc => ?_⟩
  · obtain ⟨m, hm, hmcs, hpos, -⟩ := hfirst l ((hcs l).2 ⟨hl, .inl rfl⟩)
    obtain ⟨-, rfl | hbeside⟩ := (hcs m).1 hmcs
    · exact hm
    · exact absurd hpos hbeside.2.1
  · have hm := (State.lowestKey_eq_some (State.mem_onePerPosition.1 hm)).1
    exact ((hcs m).1 (List.mem_filter.1 hm).1).2
  · obtain ⟨m, hm, -, hpos, hle⟩ := hfirst c ((hcs c).2 ⟨hc.1, .inr hc⟩)
    exact ⟨m, hm, hpos, hle⟩

/-! ## The progress promise (R164, R165) -/

theorem Lane.meeting_iff (x : Lane) :
    x.meeting = true ↔ x.status = .idle ∧ x.meet ≠ 0 ∧ x.pc = x.meet ∧ x.rslot = 0 := by
  simp [Lane.meeting, and_assoc]

theorem Lane.runnable_iff (x : Lane) :
    x.runnable = true ↔ x.helper = false ∧ ¬ (x.status = .idle ∧ x.meet ≠ 0 ∧ x.pc = x.meet ∧ x.rslot = 0) ∧
      (x.status = .idle ∨ x.status = .inFlight ∨ (∃ m, x.status = .held m) ∨ x.status = .refining) := by
  rw [← Lane.meeting_iff, Bool.not_eq_true, Lane.runnable]
  cases x.status <;> simp

theorem State.lowestThread_le {s : State} {ls : List Nat} {l : Nat} (h : s.lowestThread ls = some l) :
    ∀ m ∈ ls, (s.gtid l).toNat ≤ (s.gtid m).toNat := by
  induction ls generalizing l with
  | nil => cases h
  | cons a ls ih =>
    rw [State.lowestThread] at h
    split at h
    next hnone =>
      obtain rfl := Option.some.inj h
      cases ls with
      | nil => simp
      | cons b ls =>
        rw [State.lowestThread] at hnone
        split at hnone <;> cases hnone
    next m hm =>
      obtain rfl := Option.some.inj h
      split
      next hlt => exact List.forall_mem_cons.2 ⟨hlt.le, ih hm⟩
      next hge => exact List.forall_mem_cons.2 ⟨le_rfl, fun k hk => (not_lt.1 hge).trans (ih hm k hk)⟩

theorem State.firstThread_le {s : State} {x : Launch} {l : Nat} (h : s.firstThread x = some l) :
    ∀ c ∈ x.cores, ∀ m ∈ s.coreLanes c, (s.lane m).runnable = true → (s.gtid l).toNat ≤ (s.gtid m).toNat :=
  fun c hc m hm hrun => State.lowestThread_le h m (List.mem_filter.2 ⟨List.mem_flatMap.2 ⟨c, hc, hm⟩, hrun⟩)

/-- The lead that R165 forces on a partition. -/
theorem State.forcedLead_eq_some_iff (s : State) (core part l : Nat) :
    s.forcedLead core part = some l ↔ forced s core part l := by
  rw [State.forcedLead, Option.filter_eq_some_iff, Option.bind_eq_some_iff, State.mustLead_iff]
  rfl

/-- A partition's next group, led by its forced lead. -/
theorem exec_issueGroupForm_of_forced {s : State} {core part l : Nat} (hcore : core < 1536) (hpart : part < 4)
    (h : forced s core part l) :
    exec (.issueGroupForm core part) s = .next (s.form core part ((s.pool core part).filter s.ready) l) ∧
    exec (.progressForcedLead core part) s = .next (s.form core part ((s.pool core part).filter s.ready) l) := by
  have hissues : s.issues core = true := h.2.2.2.1
  have hlead := (s.forcedLead_eq_some_iff core part l).2 h
  constructor
  · change execIssueGroupForm core part s = _
    simp [execIssueGroupForm, Config.cores, hcore, hpart, hissues, hlead]
  · change execProgressForcedLead core part s = _
    simp [execProgressForcedLead, Config.cores, hcore, hpart, hlead]

/-- A partition's next group, led by the first by the issue key. -/
theorem exec_issueGroupForm_of_lead {s : State} {core part l : Nat} (hcore : core < 1536) (hpart : part < 4)
    (hissues : s.issues core = true) (hnone : ∀ k, ¬ forced s core part k)
    (h : s.lead ((s.pool core part).filter s.ready) = some l) :
    exec (.issueGroupForm core part) s = .next (s.form core part ((s.pool core part).filter s.ready) l) := by
  have hlead : s.forcedLead core part = none :=
    Option.eq_none_iff_forall_ne_some.2 fun k hk => hnone k ((s.forcedLead_eq_some_iff core part k).1 hk)
  change execIssueGroupForm core part s = _
  simp [execIssueGroupForm, Config.cores, hcore, hpart, hissues, hlead, h]

end Sys2Proof.Machine
end

section
/-! SUPPORT. Translation: what the answer of a translation depends on (spec/24 R366, R367). -/

namespace Sys2Proof.Machine

section Translation
variable {s t : State} (hmem : t.mem = s.mem)

include hmem in
theorem State.dwordAt_congr (pa : Nat) : t.dwordAt pa = s.dwordAt pa := by
  rw [State.dwordAt, State.dwordAt, hmem]

theorem State.tlbFind_congr (htlb : t.tlb = s.tlb) (c capx va : Nat) : t.tlbFind c capx va = s.tlbFind c capx va := by
  rw [State.tlbFind, State.tlbFind, htlb]

theorem State.sealed_congr (hseals : t.seals = s.seals) (pa : Nat) : t.sealed pa = s.sealed pa := by
  rw [State.sealed, State.sealed, hseals]

variable (hfails : ∀ a n, t.failsHome a n = s.failsHome a n)
include hmem hfails

theorem State.tableEntry_congr (level va table : Nat) : t.tableEntry level va table = s.tableEntry level va table := by
  simp only [State.tableEntry, State.dwordAt_congr hmem, hfails]

theorem State.walkFrom_congr (va table level : Nat) : t.walkFrom va table level = s.walkFrom va table level := by
  induction level generalizing table with
  | zero => simp only [State.walkFrom, State.tableEntry_congr hmem hfails]
  | succ n ih => simp only [State.walkFrom, State.tableEntry_congr hmem hfails, ih]

theorem State.walk_congr (hroots : t.roots = s.roots) (capx va : Nat) : t.walk capx va = s.walk capx va := by
  simp only [State.walk, hroots, State.walkFrom_congr hmem hfails]

theorem State.translate_congr (htlb : t.tlb = s.tlb) (hroots : t.roots = s.roots) (hseals : t.seals = s.seals)
    (c capx : Nat) (ask : Ask) (va : W64) : t.translate c capx ask va = s.translate c capx ask va := by
  simp only [State.translate, State.tlbFind_congr htlb, State.walk_congr hmem hfails hroots, State.sealed_congr hseals]

/-- An access is checked by the cached translations, the tables and the seals alone. -/
theorem State.checkVa_congr (htlb : t.tlb = s.tlb) (hroots : t.roots = s.roots) (hseals : t.seals = s.seals)
    (c capx : Nat) (ask : Ask) (align : Nat) (va : W64) :
    t.checkVa c capx ask align va = s.checkVa c capx ask align va := by
  simp only [State.checkVa, State.translate_congr hmem hfails htlb hroots hseals]

end Translation

end Sys2Proof.Machine
end

section
/-! SUPPORT. Fetching a clause: what the instruction cache takes in, the fault of a clause that cannot be run, and when
a lane is Ready (spec/01 R15; spec/04 R70 to R72, R79, R85; spec/09 R148, R162). -/

namespace Sys2Proof.Machine
open Claims

/-! ## Where no error is outstanding -/

theorem State.failsHome_of_clean {s : State} (h : s.upsets = []) (pa n : Nat) : s.failsHome pa n = none := by
  simp [State.failsHome, h]

theorem State.consumeHome_of_clean {s : State} (h : s.upsets = []) (p : Nat → Nat → Site → Bool) (pa n core : Nat)
    (launch : W32) : s.consumeHome p pa n core launch = (s, false) := by
  simp [State.consumeHome, h]

theorem State.overwrite_of_clean {s : State} (h : s.upsets = []) (p : Site → Bool) : s.overwrite p = s := by
  simp [State.overwrite, h]

/-- A fetch gives what memory holds, or the fault of its address. -/
theorem State.fetchAt_of_clean {s : State} (h : s.upsets = []) (l : Nat) (va : W64) :
    s.fetchAt l va = (s.laneVa l .fetch 8 va).map s.dwordAt id := by
  rw [State.fetchAt]
  cases s.laneVa l .fetch 8 va <;> simp [State.failsHome_of_clean h]

/-! ## The instruction cache (spec/01 R15) -/

/-- A core's instruction cache with a line, the oldest of a full one dropped. -/
def Core.cacheLine (k : Core) (line : Nat) : Core := { k with icache := (line :: k.icache).take 512 }

/-- The fetch of a doubleword, where no error is outstanding: its line is in the cache already, or comes in. -/
theorem State.meetFetch_of_clean {s : State} (h : s.upsets = []) {l : Nat} {va : W64} {pa : Nat}
    (hpa : s.laneVa l .fetch 8 va = .inl pa) :
    s.meetFetch l va = if s.holdsCode (coreOf l) (lineOf pa) then s
      else s.modCore (coreOf l) (·.cacheLine (lineOf pa)) := by
  have hparity : s.parity (coreOf l) (canonPa pa / 8) = s := by simp [State.parity, h]
  simp only [State.meetFetch, hpa, hparity, State.consumeHome_of_clean h]
  by_cases hheld : s.holdsCode (coreOf l) (lineOf pa) = true
  · simp [hheld]
  · simp only [State.cacheCode, hheld, State.failsHome_of_clean h, State.overwrite_of_clean h]
    rfl

/-- A core's instruction cache has taken in up to `n` lines, and keeps what it held while it has room; nothing else has
changed. -/
structure CodeTaken (s u : State) (c n : Nat) : Prop where
  rest : u = { s with cores := u.cores }
  others : ∀ d, d ≠ c → u.core d = s.core d
  core : { u.core c with icache := (s.core c).icache } = s.core c
  size : (s.core c).icache.length ≤ 512 → (u.core c).icache.length ≤ 512
  length : (u.core c).icache.length ≤ (s.core c).icache.length + n
  kept : (s.core c).icache.length + n ≤ 512 → (s.core c).icache ⊆ (u.core c).icache

theorem CodeTaken.refl (s : State) (c n : Nat) : CodeTaken s s c n :=
  ⟨rfl, fun _ _ => rfl, rfl, id, Nat.le_add_right _ _, fun _ _ => id⟩

theorem CodeTaken.trans {s t u : State} {c n m : Nat} (h : CodeTaken s t c n) (k : CodeTaken t u c m) :
    CodeTaken s u c (n + m) where
  rest := by rw [k.rest, h.rest]
  others d hd := (k.others d hd).trans (h.others d hd)
  core := by
    have hcore : { t.core c with icache := (s.core c).icache } = s.core c := h.core
    rw [← k.core] at hcore
    exact hcore
  size hs := k.size (h.size hs)
  length := by have := h.length; have := k.length; omega
  kept hroom := by
    have := h.length
    exact fun line hline => k.kept (by omega) (h.kept (by omega) hline)

theorem CodeTaken.cacheLine (s : State) (c line : Nat) : CodeTaken s (s.modCore c (·.cacheLine line)) c 1 where
  rest := rfl
  others d hd := by simp [hd]
  core := by simp [Core.cacheLine]
  size _ := by simp [Core.cacheLine]
  length := by simp [Core.cacheLine]
  kept hroom k hk := by
    rw [State.core_modCore, if_pos rfl, Core.cacheLine, List.take_of_length_le (by simpa using hroom)]
    exact List.mem_cons_of_mem _ hk

theorem CodeTaken.meetFetch {s : State} (h : s.upsets = []) (l : Nat) (va : W64) :
    CodeTaken s (s.meetFetch l va) (coreOf l) 1 := by
  cases hpa : s.laneVa l .fetch 8 va with
  | inr e =>
    have hsame : s.meetFetch l va = s := by simp only [State.meetFetch, hpa]
    rw [hsame]
    exact .refl ..
  | inl pa =>
    rw [State.meetFetch_of_clean h hpa]
    split
    · exact .refl ..
    · exact .cacheLine ..

/-- The line of a doubleword that is fetched is in the cache. -/
theorem State.mem_icache_meetFetch {s : State} (h : s.upsets = []) {l : Nat} {va : W64} {pa : Nat}
    (hpa : s.laneVa l .fetch 8 va = .inl pa) : pa / 256 ∈ ((s.meetFetch l va).core (coreOf l)).icache := by
  rw [State.meetFetch_of_clean h hpa]
  split
  next hheld => exact List.contains_iff_mem.1 hheld
  next => simp [Core.cacheLine, lineOf]

theorem CodeTaken.upsets {s u : State} {c n : Nat} (h : CodeTaken s u c n) : u.upsets = s.upsets := by rw [h.rest]

theorem CodeTaken.foldl_meetFetch {s : State} (h : s.upsets = []) (l : Nat) (va : Nat → W64) (is : List Nat) :
    CodeTaken s (is.foldl (fun t i => t.meetFetch l (va i)) s) (coreOf l) is.length := by
  induction is generalizing s with
  | nil => exact .refl ..
  | cons i is ih =>
    have hone := CodeTaken.meetFetch h l (va i)
    rw [List.foldl_cons, List.length_cons, Nat.add_comm]
    exact hone.trans (ih (hone.upsets.trans h))

/-- The words of a lane's next clause that are fetched after its header: none where the header is not fetched, or not
right. -/
def State.wordsAhead (s : State) (l : Nat) : Nat :=
  match s.fetchAt l ((s.lane l).pc.setWidth 64) with
  | .inr _ => 0
  | .inl h => if headerOk h then nslot h + 1 else 0

theorem State.wordsAhead_le (s : State) (l : Nat) : s.wordsAhead l ≤ 16 := by
  rw [State.wordsAhead]
  split
  · exact Nat.zero_le _
  · split
    · rw [nslot_eq]; omega
    · exact Nat.zero_le _

theorem State.fetchMeets_of_kept {s : State} {l : Nat} (h : (s.lane l).kept ≠ none) : s.fetchMeets l = s := by
  rw [State.fetchMeets, if_pos (Option.isSome_iff_ne_none.2 h)]

/-- A lane that keeps no clause fetches the header of its next one, then the words. -/
theorem State.fetchMeets_of_not_kept {s : State} {l : Nat} (h : (s.lane l).kept = none)
    (hlane : (s.meetFetch l ((s.lane l).pc.setWidth 64)).lane l = s.lane l) :
    s.fetchMeets l = (List.range ((s.meetFetch l ((s.lane l).pc.setWidth 64)).wordsAhead l)).foldl
      (fun t i => t.meetFetch l ((s.lane l).pc.setWidth 64 + 8 + BitVec.ofNat 64 (8 * i)))
      (s.meetFetch l ((s.lane l).pc.setWidth 64)) := by
  simp only [State.fetchMeets, h, State.wordsAhead, hlane]
  cases State.fetchAt _ l _ <;> rfl

theorem CodeTaken.lane {s u : State} {c n : Nat} (h : CodeTaken s u c n) (l : Nat) : u.lane l = s.lane l := by
  rw [h.rest]; rfl

/-- What the fetch of a lane's next clause leaves: its header's line in the cache, with those of its words. -/
theorem codeCached_fetchMeets {s : State} (h : s.upsets = []) (l : Nat) : CodeCached s (s.fetchMeets l) l := by
  by_cases hkept : (s.lane l).kept = none
  · have hhead := CodeTaken.meetFetch h l ((s.lane l).pc.setWidth 64)
    rw [State.fetchMeets_of_not_kept hkept (hhead.lane l)]
    have hwords := CodeTaken.foldl_meetFetch (hhead.upsets.trans h) l
      (fun i => (s.lane l).pc.setWidth 64 + 8 + BitVec.ofNat 64 (8 * i))
      (List.range ((s.meetFetch l ((s.lane l).pc.setWidth 64)).wordsAhead l))
    have hall := hhead.trans hwords
    refine ⟨hall.rest, hall.others, hall.core, hall.size, fun hroom _ pa hpa => ?_⟩
    have hlen := hhead.length
    have hcount := (s.meetFetch l ((s.lane l).pc.setWidth 64)).wordsAhead_le l
    exact hwords.kept (by rw [List.length_range]; omega) (State.mem_icache_meetFetch h hpa)
  · rw [State.fetchMeets_of_kept hkept]
    exact ⟨rfl, fun _ _ => rfl, rfl, id, fun _ hnone => absurd hnone hkept⟩

/-! ## What the instruction cache does not decide -/

section Cached
variable {s u : State} {l : Nat} (h : CodeCached s u l)
include h

theorem State.upsets_cached : u.upsets = s.upsets := by rw [h.rest]

theorem State.lane_cached (m : Nat) : u.lane m = s.lane m := by rw [h.rest]; rfl

theorem State.launch_cached (c : Nat) : (u.core c).launch = (s.core c).launch := by
  by_cases hc : c = coreOf l
  · subst hc
    rw [← h.core]
  · rw [h.others c hc]

theorem State.laneVa_cached (m : Nat) (ask : Ask) (align : Nat) (va : W64) :
    u.laneVa m ask align va = s.laneVa m ask align va := by
  have hcapx : u.capxOf (coreOf m) = s.capxOf (coreOf m) := by
    have hlaunches : u.launches = s.launches := by rw [h.rest]
    rw [State.capxOf, State.capxOf, State.launchOf, State.launchOf, State.launch_cached h, hlaunches]
  rw [State.laneVa, State.laneVa, hcapx]
  refine State.checkVa_congr ?_ (fun a n => ?_) ?_ ?_ ?_ _ _ _ _ _
  all_goals rw [h.rest]
  rfl

variable (hclean : s.upsets = [])
include hclean

theorem State.fetchAt_cached (m : Nat) (va : W64) : u.fetchAt m va = s.fetchAt m va := by
  have hdword : u.dwordAt = s.dwordAt := funext fun pa => State.dwordAt_congr (by rw [h.rest]) pa
  rw [State.fetchAt_of_clean hclean, State.fetchAt_of_clean ((State.upsets_cached h).trans hclean),
    State.laneVa_cached h, hdword]

theorem State.fetchRun_cached (m : Nat) (va : W64) (n : Nat) : u.fetchRun m va n = s.fetchRun m va n := by
  induction n generalizing va with
  | zero => rfl
  | succ n ih => simp only [State.fetchRun, State.fetchAt_cached h hclean, ih]

theorem State.nextClauseOf_cached (m : Nat) : u.nextClauseOf m = s.nextClauseOf m := by
  simp only [State.nextClauseOf, State.lane_cached h, State.fetchClause, State.fetchAt_cached h hclean,
    State.fetchRun_cached h hclean]

end Cached

/-- The members of a group depend on the lanes alone. -/
theorem State.members_cached {s u : State} {l : Nat} (h : CodeCached s u l) (ready : List Nat) (m : Nat) :
    u.members ready m = s.members ready m := by
  rw [h.rest]
  have hkey : ∀ ls, State.lowestKey { s with cores := u.cores } ls = s.lowestKey ls := fun ls => by
    induction ls with
    | nil => rfl
    | cons a ls ih => simp only [State.lowestKey, ih]; rfl
  simp only [State.members, State.onePerPosition, hkey]
  rfl

/-! ## Forming a group (R150) -/

theorem State.form_of_fault {s : State} {l : Nat} {f : FaultRec} (hclean : s.upsets = []) (core part : Nat)
    (ready : List Nat) (hf : clauseAhead s l = .inr f) :
    s.form core part ready l =
      ((s.members ready l).foldl (fun t m => t.failClause m f) (s.fetchMeets l)).meet (s.members ready l) := by
  have hcached := codeCached_fetchMeets hclean l
  have hnext : (s.fetchMeets l).nextClauseOf l = .inr f := (State.nextClauseOf_cached hcached hclean l).trans hf
  simp only [State.form, hnext, State.members_cached hcached]

/-- The state in which some lanes have joined a group. -/
def State.joined (s : State) (ls : List Nat) : State := ls.foldl (fun t m => t.modLane m (·.join s.cycles)) s

theorem State.joined_only (s : State) (ls : List Nat) : s.joined ls = { s with lanes := (s.joined ls).lanes } :=
  onlyLanes_foldl (fun t m => t.modLane m (·.join s.cycles)) (fun t m => onlyLanes_modLane t m _) ls s

theorem State.lane_joined {s : State} {ls : List Nat} (h : ∀ m ∈ ls, (s.lane m).status ≠ .retired) (m : Nat) :
    (s.joined ls).lane m = if m ∈ ls then (s.lane m).join s.cycles else s.lane m :=
  State.lane_foldl_modLane ls (fun _ x => x.join s.cycles) (fun _ _ => rfl) s
    (fun k hk => State.hasLane_of_status (h k hk)) m

/-- The state in which a group has formed. -/
def State.withGroup (s : State) (key : Nat) (g : Group) : State :=
  { s.joined g.lanes with groups := tset s.groups key g }

theorem State.withGroup_only (s : State) (key : Nat) (g : Group) :
    s.withGroup key g = { s with lanes := (s.withGroup key g).lanes, groups := (s.withGroup key g).groups } :=
  congrArg (fun t : State => { t with groups := tset s.groups key g }) (s.joined_only g.lanes)

theorem State.form_of_clause {s : State} {l : Nat} {h : W64} {ws : List W64} (hclean : s.upsets = []) (core part : Nat)
    (ready : List Nat) (hf : clauseAhead s l = .inl (h, ws)) (hslot : (s.lane l).rslot ≤ h.toNat / 2 ^ 52 % 16)
    (hfree : tfind s.groups (pathAt core part (classPath (h.toNat / 2 ^ 56 % 16))) = none) :
    s.form core part ready l = (s.fetchMeets l).withGroup (pathAt core part (classPath (h.toNat / 2 ^ 56 % 16)))
      { lanes := s.members ready l, pc := (s.lane l).pc, header := h, words := ws, slot := (s.lane l).rslot } := by
  have hcached := codeCached_fetchMeets hclean l
  have hnext : (s.fetchMeets l).nextClauseOf l = .inl (h, ws) := (State.nextClauseOf_cached hcached hclean l).trans hf
  have hgroups : (s.fetchMeets l).groups = s.groups := by rw [hcached.rest]
  have hjoined : ((s.fetchMeets l).joined (s.members ready l)).groups = (s.fetchMeets l).groups := by
    rw [State.joined_only]
  have hkey : groupKey core part (pathOf (classOf h)) = pathAt core part (classPath (h.toNat / 2 ^ 56 % 16)) := by
    rw [classOf_eq]; rfl
  simp only [State.withGroup, ← hjoined]
  simp only [State.form, hnext, State.members_cached hcached, nslot_eq, if_neg (Nat.not_lt.2 hslot), hkey, hgroups,
    hfree]
  rfl

/-! ## What a fetch faults with (spec/04 R70, R71, R79, R85) -/

section Fetch
variable {s : State} {l : Nat} {pc : Addr48}

theorem State.fetchClause_of_unfetched {e : Trap} (h : s.laneVa l .fetch 8 (pc.setWidth 64) = .inr e) :
    s.fetchClause l pc = .inr (fetchFault pc e) := by
  have hhead : s.fetchAt l (pc.setWidth 64) = .inr e := by simp only [State.fetchAt, h]
  simp only [State.fetchClause, hhead]
  rfl

theorem State.fetchRun_of_unfetched (hclean : s.upsets = []) {n j : Nat} {va : W64} {e : Trap} (hj : j < n)
    (hfirst : ∀ i < j, ∃ a, s.laneVa l .fetch 8 (va + BitVec.ofNat 64 (8 * i)) = .inl a)
    (he : s.laneVa l .fetch 8 (va + BitVec.ofNat 64 (8 * j)) = .inr e) : s.fetchRun l va n = .inr e := by
  induction n generalizing va j with
  | zero => exact absurd hj (Nat.not_lt_zero j)
  | succ n ih =>
    have hnext : ∀ i, va + BitVec.ofNat 64 (8 * (i + 1)) = va + 8 + BitVec.ofNat 64 (8 * i) := fun i => by
      rw [BitVec.add_assoc, Nat.mul_succ, Nat.add_comm, BitVec.ofNat_add]; rfl
    cases j with
    | zero =>
      rw [Nat.mul_zero, BitVec.add_zero] at he
      simp [State.fetchRun, State.fetchAt_of_clean hclean, he]
    | succ j =>
      obtain ⟨a, ha⟩ := hfirst 0 (Nat.succ_pos j)
      rw [Nat.mul_zero, BitVec.add_zero] at ha
      have hrest := ih (Nat.lt_of_succ_lt_succ hj) (fun i hi => hnext i ▸ hfirst (i + 1) (Nat.succ_lt_succ hi))
        (hnext j ▸ he)
      simp only [State.fetchRun, State.fetchAt_of_clean hclean, ha, Sum.map_inl, hrest]

theorem State.fetchRun_of_fetched (hclean : s.upsets = []) {n : Nat} {va : W64}
    (h : ∀ j < n, ∃ a, s.laneVa l .fetch 8 (va + BitVec.ofNat 64 (8 * j)) = .inl a) :
    ∃ ws, s.fetchRun l va n = .inl ws := by
  induction n generalizing va with
  | zero => exact ⟨[], rfl⟩
  | succ n ih =>
    obtain ⟨a, ha⟩ := h 0 (Nat.succ_pos n)
    rw [Nat.mul_zero, BitVec.add_zero] at ha
    obtain ⟨ws, hws⟩ := ih (va := va + 8) fun j hj => by
      obtain ⟨b, hb⟩ := h (j + 1) (Nat.succ_lt_succ hj)
      refine ⟨b, ?_⟩
      rw [← hb, BitVec.add_assoc, Nat.mul_succ, Nat.add_comm (8 * j), BitVec.ofNat_add]
      rfl
    exact ⟨s.dwordAt a :: ws, by
      simp only [State.fetchRun, State.fetchAt_of_clean hclean, ha, Sum.map_inl, hws]⟩

theorem headerOk_eq_false_iff (h : W64) : headerOk h = false ↔ ¬ headerRight h := by
  rw [← Bool.not_eq_true, headerOk_iff]; rfl

theorem field_low_ne_zero_iff (h : W64) : field h 0 40 ≠ 0 ↔ h.toNat % 2 ^ 40 ≠ 0 := by
  rw [field_eq_div_mod, pow_zero, Nat.div_one]

variable (hclean : s.upsets = []) {pa : Nat} (hpa : s.laneVa l .fetch 8 (pc.setWidth 64) = .inl pa)
include hclean hpa

theorem State.fetchAt_header : s.fetchAt l (pc.setWidth 64) = .inl (s.dwordAt pa) := by
  rw [State.fetchAt_of_clean hclean, hpa]; rfl

theorem State.fetchClause_of_wrong_header (h : ¬ headerRight (s.dwordAt pa)) : s.fetchClause l pc = .inr
    { code := 0x04, cls := (s.dwordAt pa).toNat / 2 ^ 56 % 16, pc := pc, word := s.dwordAt pa,
      info := (s.dwordAt pa).toNat / 2 ^ 56 % 16 } := by
  simp only [State.fetchClause, State.fetchAt_header hclean hpa, (headerOk_eq_false_iff _).2 h, classOf_eq]
  rfl

theorem State.fetchClause_of_reserved (h : headerRight (s.dwordAt pa)) (hlow : (s.dwordAt pa).toNat % 2 ^ 40 ≠ 0) :
    ∃ w, s.fetchClause l pc = .inr { code := 0x05, cls := (s.dwordAt pa).toNat / 2 ^ 56 % 16, pc := pc, word := w,
                                     addr := pc.setWidth 64, info := 0xFFFF } := by
  simp only [State.fetchClause, State.fetchAt_header hclean hpa, (headerOk_iff _).2 h, classOf_eq,
    if_pos ((field_low_ne_zero_iff _).2 hlow)]
  exact ⟨_, rfl⟩

/-- A clause with a right header is as its words are fetched. -/
theorem State.fetchClause_of_right (h : headerRight (s.dwordAt pa)) (hlow : (s.dwordAt pa).toNat % 2 ^ 40 = 0) :
    s.fetchClause l pc = (s.fetchRun l (pc.setWidth 64 + 8) (nslot (s.dwordAt pa) + 1)).map (s.dwordAt pa, ·)
      (fetchFault pc) := by
  have hlow : ¬ field (s.dwordAt pa) 0 40 ≠ 0 := (field_low_ne_zero_iff _).not.2 (not_not.2 hlow)
  simp only [State.fetchClause, State.fetchAt_header hclean hpa, (headerOk_iff _).2 h, if_neg hlow]
  cases s.fetchRun l (pc.setWidth 64 + 8) (nslot (s.dwordAt pa) + 1) <;> rfl

end Fetch

/-! ## When a lane is Ready (spec/04 R72, spec/09 R148, R162) -/

theorem State.ready_iff (s : State) (l : Nat) : s.ready l = true ↔
    ((s.lane l).status = .idle ∧
      ¬ ((s.lane l).meet ≠ 0 ∧ (s.lane l).pc = (s.lane l).meet ∧ (s.lane l).rslot = 0) ∧
      ((s.lane l).runFaults = [] ∨ partWay (s.lane l) ∨ (s.lane l).runHandler ≠ .normal) ∧ s.clauseOpen l = true) ∨
    ∃ m, (s.lane l).status = .held m ∧ s.awaits (s.heldAt (warpOf l) (s.lane l).pc (s.lane l).rslot
      (s.lane l).depth.toNat) (s.lane l).depth.toNat (s.lane l).pc (warpOf l) m = false := by
  have hmeet := (s.lane l).meeting_iff
  rw [State.ready]
  cases hst : (s.lane l).status with
  | idle =>
    rw [hst] at hmeet
    simp only [Bool.and_eq_true, Bool.or_eq_true, Bool.not_eq_true', ← Bool.not_eq_true (Lane.meeting _), hmeet,
      List.isEmpty_iff, Lane.midway_iff, decide_eq_true_eq, reduceCtorEq, false_and, exists_false, or_false, true_and,
      and_assoc, or_assoc]
  | held m => simp [State.heldReady, hst]
  | _ => simp

theorem meetsThreshold_iff (n t : Nat) : meetsThreshold n t = true ↔ t = 7 ∨ n ≤ t := by
  simp [meetsThreshold]

theorem thresholdsMet_iff (w : Warp) (h : W64) : thresholdsMet w h = true ↔ thresholdsHold w h := by
  simp [thresholdsMet, thresholdsHold, meetsThreshold_iff, field_eq_div_mod, and_assoc]

theorem State.clauseOpen_of_partWay {s : State} {l : Nat} (h : partWay (s.lane l)) : s.clauseOpen l = true := by
  simp [State.clauseOpen, (Lane.midway_iff _).2 h]

theorem State.clauseOpen_of_unfetched {s : State} {l : Nat} {e : Trap}
    (h : s.laneVa l .fetch 8 ((s.lane l).pc.setWidth 64) = .inr e) : s.clauseOpen l = true := by
  have hhead : s.fetchAt l ((s.lane l).pc.setWidth 64) = .inr e := by simp only [State.fetchAt, h]
  simp [State.clauseOpen, hhead]

theorem State.clauseOpen_iff {s : State} {l pa : Nat} (hpart : ¬ partWay (s.lane l)) (hclean : s.upsets = [])
    (hpa : s.laneVa l .fetch 8 ((s.lane l).pc.setWidth 64) = .inl pa) :
    s.clauseOpen l = true ↔ ¬ headerRight (s.dwordAt pa) ∨ thresholdsHold (s.warp (warpOf l)) (s.dwordAt pa) := by
  simp [State.clauseOpen, (Lane.midway_iff _).not.2 hpart, State.fetchAt_header hclean hpa, headerOk_eq_false_iff,
    thresholdsMet_iff]

/-! ## The obligation -/

theorem groupsAreFormed : GroupsAreFormed := by
  refine ⟨fun s core part l hcore hpart hissues => ⟨exec_issueGroupForm_of_lead hcore hpart hissues,
      exec_issueGroupForm_of_forced hcore hpart⟩, Lane.runnable_iff, fun s x l => State.firstThread_le,
    fun s ready l => State.lead_spec, fun s ready l hidle hmid => ⟨?_, State.members_spec ready hidle hmid⟩,
    fun s core part ready l f hclean hf => ⟨s.fetchMeets l, codeCached_fetchMeets hclean l,
      State.form_of_fault hclean core part ready hf⟩,
    fun s core part ready l h ws hclean hf hslot hfree hlive => ?_⟩
  · exact State.members_of_partWay ready hidle hmid
  · have hcached := codeCached_fetchMeets hclean l
    have hlive : ∀ m ∈ s.members ready l, ((s.fetchMeets l).lane m).status ≠ .retired := fun m hm => by
      rw [State.lane_cached hcached]
      exact hlive m hm
    have hcycles : (s.fetchMeets l).cycles = s.cycles := by rw [hcached.rest]
    have hgroups : (s.fetchMeets l).groups = s.groups := by rw [hcached.rest]
    refine ⟨_, s.fetchMeets l, State.form_of_clause hclean core part ready hf hslot hfree, hcached,
      State.withGroup_only _ _ _, congrArg (tset · _ _) hgroups, fun m => ?_⟩
    refine (State.lane_joined hlive m).trans ?_
    rw [State.lane_cached hcached, hcycles]
    rfl

theorem fetchAndReadiness : FetchAndReadiness := by
  refine ⟨fun s l pc => ⟨fun e => State.fetchClause_of_unfetched, fun pa hpa hclean => ?_⟩, State.ready_iff,
    fun s l => ⟨State.clauseOpen_of_partWay, fun e => State.clauseOpen_of_unfetched,
      fun pa hpart hclean hpa => State.clauseOpen_iff hpart hclean hpa⟩⟩
  refine ⟨State.fetchClause_of_wrong_header hclean hpa, State.fetchClause_of_reserved hclean hpa,
    fun hright hlow j e hj he hfirst => ?_, fun hright hlow hall => ?_⟩
  · rw [State.fetchClause_of_right hclean hpa hright hlow,
      State.fetchRun_of_unfetched hclean (by rwa [nslot_eq]) hfirst he]
    rfl
  · obtain ⟨ws, hws⟩ := State.fetchRun_of_fetched hclean hall
    exact ⟨ws, by rw [State.fetchClause_of_right hclean hpa hright hlow, nslot_eq, hws]; rfl⟩

/-- Settles O40: each part from what the meanings do with the lanes of a partition, and with the words of a clause. -/
theorem groupsForm : Obligations.GroupsForm := ⟨groupsAreFormed, fetchAndReadiness⟩

end Sys2Proof.Machine
end

section
/-! SUPPORT. Launch records: what the checks of a record are, and the launch that a packet asks for (spec/23 R335, R340,
R341). -/

namespace Sys2Proof.Machine
open Claims

/-! ## Pointers (R333) -/

theorem canonical_iff (va : W64) : canonical va = true ↔ va.toNat / 2 ^ 56 = 0 ∨ va.toNat / 2 ^ 56 = 255 := by
  have hbit : va.getLsbD 56 = decide (va.toNat / 2 ^ 56 % 2 = 1) := by
    rw [← BitVec.testBit_toNat, Nat.testBit_eq_decide_div_mod_eq]
  have hlt := va.isLt
  rw [canonical, field_top va rfl, hbit]
  simp only [Bool.or_eq_true, Bool.and_eq_true, Bool.not_eq_true', decide_eq_true_eq, decide_eq_false_iff_not]
  omega

theorem State.pointerOk_iff (s : State) (capx align : Nat) (va : W64) :
    s.pointerOk capx align va = true ↔ pointsTo s capx align va := by
  simp [State.pointerOk, pointsTo, canonical_iff, and_assoc]

theorem State.pointerOr0_iff (s : State) (capx align : Nat) (va : W64) :
    s.pointerOr0 capx align va = true ↔ va = 0 ∨ pointsTo s capx align va := by
  simp [State.pointerOr0, s.pointerOk_iff]

theorem field_eq_bitsAt (w : W64) (lo n : Nat) : field w lo n = bitsAt w lo n := field_eq_div_mod w lo n

/-! ## The cores of a record (R340) -/

theorem State.coreSet_eq_some_iff (s : State) (capx : Nat) (r : List W64) (cs : List Nat) :
    s.coreSet capx r = some cs ↔ coresNamed s capx r cs := by
  simp only [State.coreSet, coresNamed, field_eq_bitsAt, Config.cores]
  cases (dword r 12).getLsbD 63 with
  | false =>
    simp only [Bool.not_false, if_true, Bool.and_eq_true, decide_eq_true_eq, beq_iff_eq, and_assoc]
    split
    next h => simp [h, eq_comm]
    next h => exact iff_of_false nofun fun hn => h ⟨hn.1, hn.2.1, hn.2.2.1⟩
  | true =>
    simp only [Bool.not_true, Bool.false_eq_true, if_false, reduceCtorEq, ← s.pointerOk_iff, Bool.or_eq_true,
      decide_eq_true_eq, Bool.not_eq_true']
    split
    next h => exact iff_of_false nofun fun hn => h.elim (· hn.1) fun hptr => by simp [hn.2.1] at hptr
    next h =>
      obtain ⟨hfield, hptr⟩ := not_or.1 h
      cases s.readVa cpAgent capx .read (dword r 13) 192 with
      | none => simp
      | some bs =>
        have hptr : s.pointerOk capx 64 (dword r 13) = true := by simpa using hptr
        simp only [not_not.1 hfield, hptr, true_and, Option.some.injEq, exists_eq_left', List.isEmpty_iff]
        split
        next hnil => exact iff_of_false nofun fun hn => hn.1 (hn.2.trans hnil)
        next hcs =>
          exact ⟨fun h => Option.some.inj h ▸ ⟨hcs, rfl⟩, fun h => congrArg some h.2.symm⟩

/-! ## The checks of a record (R341) -/

section Checks
variable (x : Launch)

theorem recordReserved_iff (r : List W64) : recordReserved r = true ↔
    bitsAt (dword r 0) 48 16 = 0 ∧ bitsAt (dword r 1) 54 10 = 0 ∧ bitsAt (dword r 1) 13 3 = 0 ∧
    bitsAt (dword r 2) 40 24 = 0 ∧ bitsAt (dword r 2) 15 1 = 0 ∧ bitsAt (dword r 5) 32 32 = 0 ∧
    bitsAt (dword r 7) 32 32 = 0 ∧ bitsAt (dword r 10) 48 16 = 0 ∧ bitsAt (dword r 12) 22 41 = 0 ∧
    bitsAt (dword r 14) 2 62 = 0 ∧ ∀ i, 15 ≤ i → i < 32 → dword r i = 0 := by
  have htail : (∀ i < 17, dword r (15 + i) = 0) ↔ ∀ i, 15 ≤ i → i < 32 → dword r i = 0 :=
    ⟨fun h i hlo hhi => by simpa [Nat.add_sub_cancel' hlo] using h (i - 15) (by omega),
      fun h i hi => h (15 + i) (by omega) (by omega)⟩
  rw [← htail]
  simp [recordReserved, field_eq_bitsAt, and_assoc]

theorem Launch.paired_iff : x.paired = true ↔ (dword x.record 14).getLsbD 0 = true := by
  rw [← BitVec.testBit_toNat, Nat.testBit_zero]
  simp [Launch.paired, field_eq_div_mod]

theorem Launch.spaceOk_iff : x.spaceOk = true ↔
    (∀ i < 3, 1 ≤ extentOf x.packet x.record i ∧ extentOf x.packet x.record i ≤ 0xFFFFFFFE) ∧
    extentOf x.packet x.record 0 * extentOf x.packet x.record 1 * extentOf x.packet x.record 2 ≤ 2 ^ 48 := by
  have hextent : ∀ i < 3, x.extent i = extentOf x.packet x.record i := fun i hi => by
    have hi : i = 0 ∨ i = 1 ∨ i = 2 := by omega
    rcases hi with rfl | rfl | rfl <;> simp [Launch.extent, extentOf, field_eq_bitsAt]
  have hall : (∀ i < 3, 1 ≤ x.extent i ∧ x.extent i ≤ 0xFFFFFFFE) ↔
      ∀ i < 3, 1 ≤ extentOf x.packet x.record i ∧ extentOf x.packet x.record i ≤ 0xFFFFFFFE :=
    forall₂_congr fun i hi => by rw [hextent i hi]
  simp [Launch.spaceOk, Launch.items, ← hall, hextent]

/-- The ranges and alignments of a record's fields, and what must fit together. -/
def recordFits (w : Nat → W64) : Prop :=
  let threads := bitsAt (w 1) 0 13
  let nv := bitsAt (w 1) 16 9
  let ng := bitsAt (w 1) 25 7
  let ns := bitsAt (w 1) 32 8
  let kib := bitsAt (w 1) 40 9
  let nodes := bitsAt (w 2) 0 15
  let spill := bitsAt (w 2) 16 24
  let pooln := bitsAt (w 5) 0 32
  ns ≤ 64 ∧ ns % 8 = 0 ∧ ng ≤ 64 ∧ 8 ≤ nv ∧ nv ≤ 384 ∧ nv % 8 = 0 ∧ 1 ≤ threads ∧ threads ≤ 4096 ∧
  (2048 < threads → (w 14).getLsbD 0 = true) ∧
  (ng = 0 → nodes = 0 ∧ spill = 0) ∧ (ng ≠ 0 → 8192 ≤ nodes ∧ nodes ≤ 16384 ∧ nodes % 32 = 0 ∧ spill ≤ 2 ^ 24 - nodes) ∧
  (spill = 0 → w 3 = 0) ∧ (spill ≠ 0 → (w 3).toNat % 4096 = 0) ∧ (pooln = 0 → w 4 = 0) ∧
  (pooln ≠ 0 → (w 4).toNat % 128 = 0) ∧ (w 10).toNat % 8 = 0 ∧ (w 11).toNat % 8 = 0 ∧ (w 0).toNat % 256 = 0 ∧
  kib ≤ 448 ∧ kib * 1024 + 16 * nodes ≤ 448 * 1024

theorem Launch.fieldsOk_iff : x.fieldsOk = true ↔ recordFits (dword x.record) := by
  have hpair : (x.threads ≤ 2048 ∨ x.paired = true) ↔ (2048 < x.threads → x.paired = true) := by
    rw [← not_le, ← or_iff_not_imp_left]
  rw [Launch.paired_iff] at hpair
  simp only [Launch.fieldsOk, Bool.and_eq_true, Bool.or_eq_true, decide_eq_true_eq, beq_iff_eq,
    Bool.ite_eq_true_distrib, ite_prop_iff_and, and_assoc, Launch.paired_iff, hpair]
  simp only [Launch.alloc, Launch.threads, Launch.nchip, Launch.nspill, Launch.poolN, field_eq_bitsAt, recordFits]

theorem Launch.fits_iff : x.fits = true ↔
    (if (dword x.record 14).getLsbD 0 then ((bitsAt (dword x.record 1) 0 13 + 31) / 32 + 1) / 2
      else (bitsAt (dword x.record 1) 0 13 + 31) / 32) *
        (32 * (bitsAt (dword x.record 1) 16 9 + 3 * bitsAt (dword x.record 1) 25 7)) ≤ 262144 := by
  have hpair : x.paired = (dword x.record 14).getLsbD 0 := Bool.eq_iff_iff.2 x.paired_iff
  simp only [Launch.fits, Launch.warps, Launch.warpWords, Launch.threads, Launch.alloc, field_eq_bitsAt, hpair,
    decide_eq_true_eq]

theorem State.recordPointers_iff (s : State) (capx : Nat) : s.recordPointers capx x = true ↔
    pointsTo s capx 1 (dword x.record 0) ∧
    (bitsAt (dword x.record 2) 16 24 ≠ 0 → pointsTo s capx 1 (dword x.record 3)) ∧
    (bitsAt (dword x.record 5) 0 32 ≠ 0 → pointsTo s capx 1 (dword x.record 4)) ∧
    ∀ i ∈ [8, 10, 11], dword x.record i = 0 ∨ pointsTo s capx 1 (dword x.record i) := by
  simp only [State.recordPointers, Launch.nspill, Launch.poolN, field_eq_bitsAt, Bool.and_eq_true, Bool.or_eq_true,
    beq_iff_eq, s.pointerOk_iff, s.pointerOr0_iff, List.all_eq_true, and_assoc, or_iff_not_imp_left, ne_eq]

theorem wholePairs_iff (cs : List Nat) : wholePairs cs = true ↔ ∀ c ∈ cs, c / 2 * 2 ∈ cs ∧ c / 2 * 2 + 1 ∈ cs := by
  simp [wholePairs]

end Checks

/-- The launch that a packet asks for with a record. -/
def Act.asked (a : Act) (d q : Nat) (y : Queue) (r : List W64) (cs : List Nat) : Launch :=
  { record := r, packet := a.packet, queue := some (d, q), index := a.idx, capx := y.capx, cores := cs
    prio := min (field (dword r 1) 49 3) y.prioCap }

/-- A record passes R341 as the command processor checks it: of the launch `x` that it asks for. -/
theorem recordPasses_iff {x : Launch} {p r : List W64} (hp : x.packet = p) (hr : x.record = r) (s : State) (capx : Nat)
    (cs : List Nat) : recordPasses s capx p r cs ↔ coresNamed s capx r cs ∧
      (recordReserved r && x.fieldsOk && x.fits && x.spaceOk && s.recordPointers capx x &&
        (!x.paired || wholePairs cs)) = true := by
  subst hp hr
  have hpairs : (!x.paired || wholePairs cs) = true ↔
      ((dword x.record 14).getLsbD 0 = true → ∀ c ∈ cs, c / 2 * 2 ∈ cs ∧ c / 2 * 2 + 1 ∈ cs) := by
    rw [Bool.or_eq_true, Bool.not_eq_true', ← Bool.not_eq_true, x.paired_iff, wholePairs_iff, ← imp_iff_not_or]
  simp only [Bool.and_eq_true, hpairs, recordReserved_iff, x.fieldsOk_iff, x.fits_iff, x.spaceOk_iff,
    State.recordPointers_iff, recordPasses, recordFits, and_assoc, iff_eq_eq]
  ac_rfl

theorem State.launchOfPacket_eq_some_iff (s : State) (d q : Nat) (y : Queue) (a : Act) (r : List W64) (x : Launch) :
    s.launchOfPacket d q y a r = some x ↔ ∃ cs, recordPasses s y.capx a.packet r cs ∧ x = a.asked d q y r cs := by
  have hpasses := fun cs => recordPasses_iff (x := a.asked d q y r cs) (p := a.packet) (r := r) rfl rfl s y.capx cs
  simp only [hpasses, ← s.coreSet_eq_some_iff, and_assoc]
  rw [State.launchOfPacket]
  cases s.coreSet y.capx r with
  | none => simp
  | some cs =>
    simp only [Option.some.injEq, exists_eq_left']
    split
    next hok => exact ⟨fun h => ⟨hok, (Option.some.inj h).symm⟩, fun h => congrArg some h.2.symm⟩
    next hok => exact iff_of_false nofun fun h => hok h.1

end Sys2Proof.Machine
end

section
/-! SUPPORT. Requests for cores: the LAUNCH packet that asks for its first one, the request that goes first at a core,
and the grant (spec/23 R339 to R341; spec/26 R383). -/

namespace Sys2Proof.Machine
open Claims

/-! ## Asking for a core (R339) -/

theorem insertLane_pairwise {l : Nat} {ls : List Nat} (h : ls.Pairwise (· ≤ ·)) :
    (insertLane l ls).Pairwise (· ≤ ·) := by
  induction ls with
  | nil => simp [insertLane]
  | cons m ls ih =>
    obtain ⟨hm, hls⟩ := List.pairwise_cons.1 h
    rw [insertLane]
    split
    next hle => exact List.pairwise_cons.2 ⟨List.forall_mem_cons.2 ⟨hle, fun k hk => hle.trans (hm k hk)⟩, h⟩
    next hgt =>
      refine List.pairwise_cons.2 ⟨fun k hk => ?_, ih hls⟩
      rcases List.mem_cons.1 ((insertLane_perm l ls).mem_iff.1 hk) with rfl | hk
      · omega
      · exact hm k hk

theorem sortLanes_pairwise (ls : List Nat) : (sortLanes ls).Pairwise (· ≤ ·) := by
  induction ls with
  | nil => exact .nil
  | cons l ls ih => exact insertLane_pairwise ih

/-- Of lanes or cores in rising order that all pass a test, the lowest is found first. -/
theorem find?_sortLanes {ls : List Nat} {p : Nat → Bool} {l : Nat} (hp : ∀ m ∈ ls, p m = true) (hl : l ∈ ls)
    (hle : ∀ m ∈ ls, l ≤ m) : (sortLanes ls).find? p = some l := by
  have hsorted := sortLanes_pairwise ls
  cases hs : sortLanes ls with
  | nil => exact absurd (mem_sortLanes.2 hl) (by simp [hs])
  | cons m ms =>
    rw [hs] at hsorted
    have hm : m ∈ ls := mem_sortLanes.1 (by simp [hs])
    have hlm : l ∈ m :: ms := hs ▸ mem_sortLanes.2 hl
    have hml : m ≤ l := by
      rcases List.mem_cons.1 hlm with rfl | hlm
      · exact le_rfl
      · exact (List.pairwise_cons.1 hsorted).1 l hlm
    rw [List.find?_cons_of_pos (hp m hm), le_antisymm hml (hle m hm)]

/-- A core with one more request. -/
def Core.asked (k : Core) (i : Nat) : Core := { k with requests := k.requests ++ [i] }

/-- A launch asks at most one core, one that is not its own. -/
theorem State.askNext_cases (s : State) (i : Nat) :
    s.askNext i = s ∨ ∃ c, (s.core c).launch ≠ some i ∧ s.askNext i = s.modCore c (·.asked i) := by
  rw [State.askNext]
  split
  · exact .inl rfl
  · split
    · exact .inl rfl
    · split
      · exact .inl rfl
      next c hc => exact .inr ⟨c, by simpa using List.find?_some hc, rfl⟩

/-- A new launch asks for its lowest core. -/
theorem State.askNext_of_new {s : State} {i c : Nat} {x : Launch} (hx : tfind s.launches i = some x) (hc : c ∈ x.all)
    (hle : ∀ k ∈ x.all, c ≤ k) (hnew : ∀ k ∈ x.all, (s.core k).launch ≠ some i ∧ i ∉ (s.core k).requests) :
    s.askNext i = s.modCore c (·.asked i) := by
  have hnone : (x.all.any fun k => (s.core k).requests.contains i) = false :=
    List.any_eq_false.2 fun k hk => by simpa using (hnew k hk).2
  have hfind : (sortLanes x.all).find? (fun k => (s.core k).launch != some i) = some c :=
    find?_sortLanes (fun k hk => by simpa using (hnew k hk).1) hc hle
  rw [State.askNext]
  simp only [hx, hnone, hfind]
  rfl

/-! ## The LAUNCH packet (R340, R341) -/

theorem State.cpErrors_of_clean {s : State} (h : s.upsets = []) (capx : Nat) (va : W64) (n : Nat) :
    s.cpErrors capx va n = (s, false) := by
  rw [State.cpErrors]
  split
  · exact State.consumeHome_of_clean h ..
  · rfl

section LaunchPacket
variable {s : State} {d q : Nat} {y : Queue} {a : Act} (hq : queueAt s d q y) (hhead : y.head = some a)
  (htype : (dword a.packet 0).toNat / 2 ^ 8 % 2 ^ 8 = 1) (hnone : a.launch = none)
include hq hhead htype

/-- The LAUNCH packet at a queue's head. -/
theorem State.launchHead : ((s.queue d q).bind fun y => (y.head.filter fun a => packetType a.packet == 1).map
    fun a => (y, a)) = some (y, a) := by
  have hp : packetType a.packet = 1 := (field_eq_div_mod _ 8 8).trans htype
  simp [hq.2.2, hhead, hp, Option.filter]

include hnone

theorem exec_launchPacket_of_denied
    (hcap : ((s.die d).loadCap (recordSlot q)).allows 3 .read (dword a.packet 1) 256 = false) :
    exec (.launchPacket d q) s = .next (s.stopQueue d q 0x03 y.qread) := by
  change execLaunchPacket d q s = _
  have hcap : ((s.die d).loadCap (recordSlot q)).allows capRecord .read (dword a.packet 1) 256 = false := hcap
  simp [execLaunchPacket, Config.dies, hq.1, hq.2.1, State.launchHead hq hhead htype, hnone, hcap]

/-- The state in which a queue's head packet has its launch. -/
def State.withLaunch (s : State) (d q : Nat) (a : Act) (x : Launch) : State :=
  ({ s with nextId := s.nextId + 1, launches := tset s.launches s.nextId x } : State).modQueue d q fun y =>
    { y with head := some { a with launch := some s.nextId } }

variable (hcap : ((s.die d).loadCap (recordSlot q)).allows 3 .read (dword a.packet 1) 256 = true)
  (hclean : s.upsets = []) {r : List W64} (hr : s.cpDwords y.capx (dword a.packet 1) 32 = some r)
include hcap hclean hr

theorem exec_launchPacket_of_refused (hx : s.launchOfPacket d q y a r = none) :
    exec (.launchPacket d q) s = .next (s.stopQueue d q 0x04 y.qread) := by
  change execLaunchPacket d q s = _
  have hcap : ((s.die d).loadCap (recordSlot q)).allows capRecord .read (dword a.packet 1) 256 = true := hcap
  simp [execLaunchPacket, Config.dies, hq.1, hq.2.1, State.launchHead hq hhead htype, hnone, hcap,
    State.cpErrors_of_clean hclean, hr, hx]

theorem exec_launchPacket_of_right {x : Launch} (hx : s.launchOfPacket d q y a r = some x) :
    exec (.launchPacket d q) s = .next ((s.withLaunch d q a x).askNext s.nextId) := by
  change execLaunchPacket d q s = _
  have hcap : ((s.die d).loadCap (recordSlot q)).allows capRecord .read (dword a.packet 1) 256 = true := hcap
  simp [execLaunchPacket, Config.dies, hq.1, hq.2.1, State.launchHead hq hhead htype, hnone, hcap,
    State.cpErrors_of_clean hclean, hr, hx]
  rfl

end LaunchPacket

/-! ## Queues -/

theorem State.queue_modDie (s : State) (d e q : Nat) (f : Die → Die) :
    (s.modDie d f).queue e q = if e = d then tfind (f (s.die d)).queues q else s.queue e q := by
  rw [State.queue, State.die_modDie]
  split <;> rfl

theorem State.queue_modQueue (s : State) (d q : Nat) (f : Queue → Queue) :
    (s.modQueue d q f).queue d q = (s.queue d q).map f := by
  rw [State.modQueue, State.queue_modDie, if_pos rfl, tfind_tmod, if_pos rfl]
  rfl

/-- The LAUNCH packet's launch is known and asks for its lowest core. -/
theorem State.withLaunch_asks {s : State} {d q c : Nat} {y : Queue} {a : Act} {x : Launch} (hq : s.queue d q = some y)
    (hheld : x.held = []) (hc : c ∈ x.cores) (hle : ∀ k ∈ x.cores, c ≤ k)
    (hnew : ∀ k ∈ x.cores, (s.core k).launch ≠ some s.nextId ∧ s.nextId ∉ (s.core k).requests) :
    let t := (s.withLaunch d q a x).askNext s.nextId
    t.mem = s.mem ∧ t.lanes = s.lanes ∧ t.nextId = s.nextId + 1 ∧ tfind t.launches s.nextId = some x ∧
    t.queue d q = some { y with head := some { a with launch := some s.nextId } } ∧
    ∀ k, t.core k = if k = c then (s.core k).asked s.nextId else s.core k := by
  have hall : x.all = x.cores := by rw [Launch.all, hheld, List.append_nil]
  have hx : tfind (s.withLaunch d q a x).launches s.nextId = some x := (tfind_tset ..).trans (if_pos rfl)
  have hask : (s.withLaunch d q a x).askNext s.nextId = (s.withLaunch d q a x).modCore c (·.asked s.nextId) :=
    State.askNext_of_new hx (hall ▸ hc) (hall ▸ hle) (hall ▸ hnew)
  intro t
  have ht : t = (s.withLaunch d q a x).modCore c (·.asked s.nextId) := hask
  rw [ht]
  refine ⟨rfl, rfl, rfl, hx, ?_, fun k => ?_⟩
  · have hqueue : (s.withLaunch d q a x).queue d q = _ := State.queue_modQueue _ d q _
    exact hqueue.trans (congrArg (Option.map _) hq)
  · rw [State.core_modCore]
    split
    next h => subst h; rfl
    next => rfl

/-! ## The request that goes first (R339) -/

theorem Launch.resumes_iff (x : Launch) : x.resumes = true ↔ ∃ k, x.state = .halted k := by
  rw [Launch.resumes]
  cases x.state <;> simp

theorem State.yields_iff (s : State) (i core : Nat) : s.yields i core = true ↔ givesWay s i core := by
  simp only [State.yields, givesWay, Bool.and_eq_true, Bool.or_eq_true, List.any_eq_true, List.all_eq_true, beq_iff_eq,
    decide_eq_true_eq, List.contains_iff_mem, Option.isNone_iff_eq_none, Launch.resumes_iff, Launch.all, and_assoc]

/-- The place of a request: by the launch's priority, then a resumed launch before a new one. -/
def State.requestRank (s : State) (i : Nat) : Nat :=
  2 * (s.launchAt i).prio + if (s.launchAt i).resumes then 1 else 0

theorem State.goesBefore_iff (s : State) (i j : Nat) : s.goesBefore i j = true ↔ s.requestRank j < s.requestRank i := by
  simp only [State.goesBefore, State.requestRank, Bool.or_eq_true, Bool.and_eq_true, decide_eq_true_eq, beq_iff_eq,
    Bool.not_eq_true']
  cases (s.launchAt i).resumes <;> cases (s.launchAt j).resumes <;> simp <;> omega

/-- The better of the request found so far and one that arrived later. -/
def State.betterRequest (s : State) (best : Option Nat) (i : Nat) : Option Nat :=
  match best with
  | none => some i
  | some j => if s.goesBefore i j then some i else best

theorem State.firstRequest_eq (s : State) (core : Nat) (is : List Nat) :
    s.firstRequest core is = (is.filter fun i => !s.yields i core).foldl s.betterRequest none := rfl

/-- The best of some requests is one of them, and none of them has a higher rank. -/
theorem State.foldl_betterRequest (s : State) (is : List Nat) (j : Nat) :
    ∃ i, is.foldl s.betterRequest (some j) = some i ∧ i ∈ j :: is ∧
      ∀ k ∈ j :: is, s.requestRank k ≤ s.requestRank i := by
  induction is generalizing j with
  | nil => exact ⟨j, rfl, by simp, by simp⟩
  | cons l is ih =>
    rw [List.foldl_cons, State.betterRequest]
    split
    next hlt =>
      obtain ⟨i, hi, hmem, hle⟩ := ih l
      have hjl := (s.goesBefore_iff l j).1 hlt
      refine ⟨i, hi, List.mem_cons_of_mem _ hmem, List.forall_mem_cons.2 ⟨?_, hle⟩⟩
      exact hjl.le.trans (hle l List.mem_cons_self)
    next hge =>
      obtain ⟨i, hi, hmem, hle⟩ := ih j
      have hlj := not_lt.1 ((s.goesBefore_iff l j).not.1 hge)
      obtain ⟨hj, his⟩ := List.forall_mem_cons.1 hle
      exact ⟨i, hi, by simp only [List.mem_cons] at hmem ⊢; tauto,
        List.forall_mem_cons.2 ⟨hj, List.forall_mem_cons.2 ⟨hlj.trans hj, his⟩⟩⟩

theorem State.firstRequest_eq_none {s : State} {core : Nat} {is : List Nat} (h : s.firstRequest core is = none) :
    ∀ j ∈ is, givesWay s j core := by
  rw [State.firstRequest_eq] at h
  cases hs : is.filter fun i => !s.yields i core with
  | nil => exact fun j hj => (s.yields_iff j core).1 (by simpa using List.filter_eq_nil_iff.1 hs j hj)
  | cons k ks =>
    obtain ⟨i, hi, -⟩ := s.foldl_betterRequest ks k
    rw [hs] at h
    exact absurd (hi.symm.trans h) nofun

theorem State.firstRequest_eq_some {s : State} {core : Nat} {is : List Nat} {i : Nat}
    (h : s.firstRequest core is = some i) : i ∈ is ∧ ¬ givesWay s i core ∧
      ∀ j ∈ is, ¬ givesWay s j core → s.requestRank j ≤ s.requestRank i := by
  rw [State.firstRequest_eq] at h
  have hfilter : ∀ j, j ∈ (is.filter fun i => !s.yields i core) ↔ j ∈ is ∧ ¬ givesWay s j core := fun j => by
    rw [List.mem_filter, Bool.not_eq_true', ← Bool.not_eq_true, s.yields_iff]
  cases hs : is.filter fun i => !s.yields i core with
  | nil => rw [hs] at h; cases h
  | cons k ks =>
    obtain ⟨m, hm, hmem, hle⟩ := s.foldl_betterRequest ks k
    rw [hs] at h
    obtain rfl : m = i := Option.some.inj (hm.symm.trans h)
    rw [← hs] at hmem hle
    obtain ⟨hi, hway⟩ := (hfilter m).1 hmem
    exact ⟨hi, hway, fun j hj hjway => hle j ((hfilter j).2 ⟨hj, hjway⟩)⟩

theorem State.prio_le_of_requestRank_le {s : State} {i j : Nat} (h : s.requestRank j ≤ s.requestRank i) :
    (s.launchAt j).prio ≤ (s.launchAt i).prio ∧ ((s.launchAt j).prio = (s.launchAt i).prio →
      (∃ k, (s.launchAt j).state = .halted k) → ∃ k, (s.launchAt i).state = .halted k) := by
  simp only [← Launch.resumes_iff]
  revert h
  rw [State.requestRank, State.requestRank]
  cases (s.launchAt i).resumes <;> cases (s.launchAt j).resumes <;> simp <;> omega

/-! ## The grant (R339) -/

/-- A core granted to a launch, and the launch's next request: the core is not asked again. -/
theorem State.grantCore_spec (s : State) (c i : Nat) : s.grantCore c i = { s with cores := (s.grantCore c i).cores } ∧
    ((s.grantCore c i).core c).launch = some i ∧ i ∉ ((s.grantCore c i).core c).requests := by
  have hgranted : ∀ t, t = s.modCore c (fun k => { k with launch := some i, requests := k.requests.filter (· ≠ i) }) →
      t = { s with cores := t.cores } ∧ (t.core c).launch = some i ∧ i ∉ (t.core c).requests := by
    rintro t rfl
    exact ⟨rfl, by simp, by simp⟩
  obtain ⟨hrest, hlaunch, hrequests⟩ := hgranted _ rfl
  rw [State.grantCore]
  rcases State.askNext_cases (s.modCore c fun k => { k with launch := some i, requests := k.requests.filter (· ≠ i) }) i
    with h | ⟨k, hk, h⟩
  · rw [h]
    exact ⟨hrest, hlaunch, hrequests⟩
  · have hck : c ≠ k := by
      rintro rfl
      exact hk hlaunch
    rw [h]
    refine ⟨rfl, ?_, ?_⟩ <;> rw [State.core_modCore, if_neg hck]
    · exact hlaunch
    · exact hrequests

section Grant
variable {s : State} {c i : Nat} (hc : c < 1536) (hfirst : s.firstRequest c (s.core c).requests = some i)
  (hready : (s.die (c / 192)).state = .ready)
include hc hfirst hready

theorem exec_coreGrant_of_free (hfree : (s.core c).launch = none) :
    exec (.coreGrant c) s = .next (s.grantCore c i) := by
  change execCoreGrant c s = _
  simp [execCoreGrant, Config.cores, dieOf, hc, hfirst, hready, hfree]

variable {j : Nat} (hheld : (s.core c).launch = some j) (hprio : (s.launchAt j).prio < (s.launchAt i).prio)
include hheld hprio

theorem exec_coreGrant_of_running (hstate : (s.launchAt j).state = .running) :
    exec (.coreGrant c) s = .next (s.requestHalt j) := by
  change execCoreGrant c s = _
  simp [execCoreGrant, Config.cores, dieOf, hc, hfirst, hready, hheld, hprio, hstate]

theorem exec_coreGrant_of_unplaced
    (hstate : (s.launchAt j).state = .waiting ∨ ∃ k, (s.launchAt j).state = .halted k) :
    exec (.coreGrant c) s = .next (s.takeCore c i j) := by
  change execCoreGrant c s = _
  rcases hstate with hstate | ⟨k, hstate⟩ <;>
    simp [execCoreGrant, Config.cores, dieOf, hc, hfirst, hready, hheld, hprio, hstate]

end Grant

/-- A core taken for another launch, whose request then stands first. -/
theorem State.takeCore_spec (s : State) (c i j : Nat) :
    s.takeCore c i j = { s with cores := (s.takeCore c i j).cores } ∧
    ((s.takeCore c i j).core c).launch = some i ∧ ((s.takeCore c i j).core c).requests.head? = some j := by
  obtain ⟨hrest, hlaunch, -⟩ := s.grantCore_spec c i
  refine ⟨?_, ?_, ?_⟩
  · rw [State.takeCore, hrest]; rfl
  · simp [State.takeCore, hlaunch]
  · simp [State.takeCore]

end Sys2Proof.Machine
end

section
/-! SUPPORT. A write at home by an agent of the device: what stands beside the bytes that it writes (spec/11 R199;
spec/12 R203, R219 to R221; spec/17 R313; spec/23 R338; spec/26 R371, R372). -/

namespace Sys2Proof.Machine
open Claims

/-- Nothing has changed but what a write at home can meet: errors and their log, lines on their way to HBM, and the
watches of sleeping lanes, parked records and queues. -/
structure WatchesOnly (s t : State) : Prop where
  mem : t.mem = s.mem
  cores : t.cores = s.cores
  blocks : t.blocks = s.blocks
  warps : t.warps = s.warps
  lane : ∀ l, (∀ w, (s.lane l).status ≠ .asleepWaitw true w) → t.lane l = s.lane l
  queue : ∀ d q y, s.queue d q = some y → queueNow t d q y
  launch : ∀ i x, tfind s.launches i = some x → ∃ p, tfind t.launches i = some { x with pool := p }

theorem WatchesOnly.of_fields {s t : State} (hmem : t.mem = s.mem) (hcores : t.cores = s.cores)
    (hblocks : t.blocks = s.blocks) (hwarps : t.warps = s.warps) (hlanes : t.lanes = s.lanes) (hdies : t.dies = s.dies)
    (hlaunches : t.launches = s.launches) : WatchesOnly s t where
  mem := hmem
  cores := hcores
  blocks := hblocks
  warps := hwarps
  lane l _ := by rw [State.lane, State.lane, hlanes]
  queue d q y hy := ⟨y.watch, by rw [State.queue, State.die_congr hdies]; exact hy⟩
  launch i x hx := ⟨x.pool, by rw [hlaunches]; exact hx⟩

theorem WatchesOnly.refl (s : State) : WatchesOnly s s := .of_fields rfl rfl rfl rfl rfl rfl rfl

theorem WatchesOnly.trans {s t u : State} (h : WatchesOnly s t) (k : WatchesOnly t u) : WatchesOnly s u where
  mem := k.mem.trans h.mem
  cores := k.cores.trans h.cores
  blocks := k.blocks.trans h.blocks
  warps := k.warps.trans h.warps
  lane l hl := by
    have hlane := h.lane l hl
    exact (k.lane l (hlane ▸ hl)).trans hlane
  queue d q y hy := by
    obtain ⟨v, hv⟩ := h.queue d q y hy
    obtain ⟨w, hw⟩ := k.queue d q _ hv
    exact ⟨w, hw⟩
  launch i x hx := by
    obtain ⟨o, ho⟩ := h.launch i x hx
    obtain ⟨p, hp⟩ := k.launch i _ ho
    exact ⟨p, hp⟩

theorem WatchesOnly.foldl {α : Type} {f : State → α → State} (h : ∀ t a, WatchesOnly t (f t a)) (as : List α)
    (s : State) : WatchesOnly s (as.foldl f s) :=
  List.foldlRecOn (motive := WatchesOnly s) as f (.refl s) fun t ht a _ => ht.trans (h t a)

/-- A change to dies that leaves their queues alone. -/
theorem WatchesOnly.of_queues {s t : State} (hmem : t.mem = s.mem) (hcores : t.cores = s.cores)
    (hblocks : t.blocks = s.blocks) (hwarps : t.warps = s.warps) (hlanes : t.lanes = s.lanes)
    (hlaunches : t.launches = s.launches) (hqueues : ∀ d, (t.die d).queues = (s.die d).queues) : WatchesOnly s t where
  mem := hmem
  cores := hcores
  blocks := hblocks
  warps := hwarps
  lane l _ := by rw [State.lane, State.lane, hlanes]
  queue d q y hy := ⟨y.watch, by rw [State.queue, hqueues]; exact hy⟩
  launch i x hx := ⟨x.pool, by rw [hlaunches]; exact hx⟩

/-! ## Errors met (R371, R372) -/

theorem WatchesOnly.logError (s : State) (site : Site) (unc : Bool) (synd : W32) (core : Nat) (launch : W32) :
    WatchesOnly s (s.logError site unc synd core launch) := by
  obtain ⟨ts, rows, h⟩ := s.logError_eq site unc synd core launch
  rw [h]
  refine .of_queues rfl rfl rfl rfl rfl rfl fun d => ?_
  have hdie : (s.noted site unc synd core launch).die d = _ := s.die_noted site unc synd core launch d
  have hqueues : ((s.noted site unc synd core launch).die d).queues = (s.die d).queues := by
    rw [hdie]
    split
    · obtain ⟨cs, e⟩ := ((s.die d).log (s.logEntry site unc synd core launch) unc).wear_eq site unc
      rw [e]; rfl
    · rfl
  exact hqueues

theorem WatchesOnly.consume (s : State) (p : Site → Bool) (core : Nat) (launch : W32) :
    WatchesOnly s (s.consume p core launch).1 :=
  have hups : WatchesOnly s { s with upsets := s.upsets.filter fun u => u.unc || !p u.site } :=
    .of_fields rfl rfl rfl rfl rfl rfl rfl
  hups.trans (.foldl (fun t _ => .logError t ..) _ _)

theorem WatchesOnly.correct (s : State) (p : Site → Bool) (core : Nat) : WatchesOnly s (s.correct p core) := by
  rw [State.correct]
  split
  · exact .refl s
  · exact .consume ..

theorem WatchesOnly.overwrite (s : State) (p : Site → Bool) : WatchesOnly s (s.overwrite p) := by
  rw [State.overwrite]
  split
  · exact .refl s
  · exact .of_fields rfl rfl rfl rfl rfl rfl rfl

theorem WatchesOnly.fails (s : State) (site : Site) (e : W32 × Site) : WatchesOnly s (s.fails site e) := by
  rw [State.fails]
  split
  · exact .refl s
  · exact .of_fields rfl rfl rfl rfl rfl rfl rfl

theorem WatchesOnly.fillL2 (s : State) (line : Nat) : WatchesOnly s (s.fillL2 line) := by
  rw [State.fillL2]
  split
  · exact .refl s
  · exact (WatchesOnly.correct s _ _).trans (.foldl (fun t _ => .foldl (fun t _ => .fails t ..) _ t) _ _)

theorem WatchesOnly.merge (s : State) (pa n : Nat) : WatchesOnly s (s.merge pa n) := by
  rw [State.merge]
  split
  · exact .refl s
  · exact (WatchesOnly.foldl .fillL2 _ s).trans (.correct ..)

/-! ## Lines written back (R219 to R221) -/

theorem WatchesOnly.sendErrors (s : State) (line : Nat) : WatchesOnly s (s.sendErrors line) := by
  rw [State.sendErrors]
  split
  · exact .refl s
  · refine (WatchesOnly.overwrite s _).trans ((WatchesOnly.correct _ _ _).trans (.foldl (fun t u => ?_) _ _))
    split
    · exact .fails ..
    · exact .refl t

theorem WatchesOnly.writeBack (s : State) (line : Nat) : WatchesOnly s (s.writeBack line) := by
  rw [State.writeBack]
  split
  · exact .refl s
  · exact (WatchesOnly.sendErrors s line).trans (.of_fields rfl rfl rfl rfl rfl rfl rfl)

theorem WatchesOnly.roomL2 (s : State) (d line : Nat) : WatchesOnly s (s.roomL2 d line) := by
  simp only [State.roomL2]
  split
  · exact .refl s
  · split
    · exact .refl s
    · split
      · exact .of_fields rfl rfl rfl rfl rfl rfl rfl
      · exact .writeBack ..
      · exact .refl s

/-! ## Watches tested (spec/11 R199, spec/17 R313, spec/23 R338) -/

theorem State.lane_modLane_of_ne {s : State} {l j : Nat} (f : Lane → Lane) (h : j ≠ l) :
    (s.modLane l f).lane j = s.lane j := by
  rw [State.lane, State.lane, State.modLane, tget_eq, tget_eq, tfind_tmod, if_neg h]

/-- A lane that sleeps alone changes. -/
theorem WatchesOnly.modLane {s : State} {l : Nat} {w : Watch} (hl : (s.lane l).status = .asleepWaitw true w)
    (f : Lane → Lane) : WatchesOnly s (s.modLane l f) where
  mem := rfl
  cores := rfl
  blocks := rfl
  warps := rfl
  lane _ hj := State.lane_modLane_of_ne f fun e => hj w (e ▸ hl)
  queue _ _ y hy := ⟨y.watch, hy⟩
  launch _ x hx := ⟨x.pool, hx⟩

theorem WatchesOnly.testWatch (s : State) (l : Nat) : WatchesOnly s (s.testWatch l) := by
  simp only [State.testWatch]
  split
  next w hl =>
    split
    · split
      · exact .modLane hl _
      · exact .refl s
    · exact .refl s
  next => exact .refl s

theorem WatchesOnly.modLaunch (s : State) (i : Nat) (f : Launch → Tab Continuation) :
    WatchesOnly s (s.modLaunch i fun x => { x with pool := f x }) where
  mem := rfl
  cores := rfl
  blocks := rfl
  warps := rfl
  lane _ _ := rfl
  queue _ _ y hy := ⟨y.watch, hy⟩
  launch j x hx := by
    rw [State.find_modLaunch]
    split
    next h => subst h; exact ⟨f x, by rw [hx]; rfl⟩
    next => exact ⟨x.pool, hx⟩

theorem WatchesOnly.modDie (s : State) (d : Nat) {f : Die → Die} (hf : ∀ x, (f x).queues = x.queues) :
    WatchesOnly s (s.modDie d f) := by
  refine .of_queues rfl rfl rfl rfl rfl rfl fun e => ?_
  rw [State.die_modDie]
  split
  next h => rw [hf, h]
  next => rfl

theorem WatchesOnly.testRecord (s : State) (i k : Nat) : WatchesOnly s (s.testRecord i k) := by
  simp only [State.testRecord]
  split
  · split
    · exact (WatchesOnly.modLaunch s i _).trans (.modDie _ _ fun _ => rfl)
    · exact .refl s
  · exact .refl s

/-- A queue whose watch of its head's counter is tested by a write. -/
def Queue.testWatch (y : Queue) (s : State) (pa n : Nat) : Queue :=
  { y with watch := y.watch.map fun w => if meets w.pa 8 pa n then w.test (s.dwordAt w.pa) else w }

theorem State.die_testHeads (s : State) (pa n d : Nat) : (s.testHeads pa n).die d =
    { s.die d with queues := (s.die d).queues.map fun q => (q.1, q.2.testWatch s pa n) } := by
  have hfind := tfind_mapValues s.dies
    (fun x => ({ x with queues := x.queues.map fun q => (q.1, q.2.testWatch s pa n) } : Die)) d
  have hdie : (s.testHeads pa n).die d = _ := congrArg (Option.getD · ({} : Die)) hfind
  rw [hdie, State.die, tget_eq]
  cases tfind s.dies d <;> rfl

theorem WatchesOnly.testHeads (s : State) (pa n : Nat) : WatchesOnly s (s.testHeads pa n) where
  mem := rfl
  cores := rfl
  blocks := rfl
  warps := rfl
  lane _ _ := rfl
  queue d q y hy := by
    refine ⟨(y.testWatch s pa n).watch, ?_⟩
    rw [State.queue, State.die_testHeads]
    exact (tfind_mapValues (s.die d).queues (·.testWatch s pa n) q).trans (congrArg (Option.map _) hy)
  launch _ x hx := ⟨x.pool, hx⟩

theorem WatchesOnly.retest (s : State) (pa n : Nat) : WatchesOnly s (s.retest pa n) := by
  have htested := (WatchesOnly.foldl .testWatch (s.watchers pa n) s).trans
    (.foldl (fun t (p : Nat × Nat) => .testRecord t p.1 p.2)
      (((s.watchers pa n).foldl State.testWatch s).parkedOn pa n) _)
  simp only [State.retest]
  split
  · exact htested.trans (.testHeads ..)
  · exact htested

/-! ## The write -/

theorem WatchesOnly.with_mem {s t : State} (h : WatchesOnly s t) (m : List Host.Cell) :
    WatchesOnly { s with mem := m } { t with mem := m } where
  mem := rfl
  cores := h.cores
  blocks := h.blocks
  warps := h.warps
  lane := h.lane
  queue := h.queue
  launch := h.launch

/-- Bytes put in place at home: in memory, with the record of their write, in a line that is dirty where HBM holds
it. -/
def State.putHome (s : State) (r : WriteRec) (launch : W32) (a : Nat) (data : List Byte) : State :=
  { s with mem := Memory.writeBytes s.mem a data
           writes := setRange s.writes a r data.length
           dirty := if decide (regionOf a = Region.hbm) then tset s.dirty (lineOf a) launch else s.dirty }

/-- A line that HBM holds comes in before a part of it is written. -/
def State.filledHome (s : State) (a : Nat) : State :=
  if decide (regionOf a = Region.hbm) then s.fillL2 (lineOf a) else s

/-- The slice that holds a written line keeps within its lines. -/
def State.roomedHome (s : State) (a : Nat) : State :=
  if decide (regionOf a = Region.hbm) then s.roomL2 (s.homeOf a) (lineOf a) else s

theorem State.writeHome_of_memory {pa : Nat} (h : isMemory pa = true) (s : State) (r : WriteRec) (launch : W32)
    (data : List Byte) : s.writeHome r launch pa data =
      (((((s.filledHome (canonPa pa)).overwrite (coversSite (canonPa pa) data.length)).putHome r launch (canonPa pa)
        data).retest (canonPa pa) data.length).roomedHome (canonPa pa)) := by
  simp only [State.writeHome, h, Bool.not_true, Bool.false_eq_true, if_false]
  rfl

theorem WatchesOnly.filledHome (s : State) (a : Nat) : WatchesOnly s (s.filledHome a) := by
  rw [State.filledHome]
  split
  · exact .fillL2 ..
  · exact .refl s

theorem WatchesOnly.roomedHome (s : State) (a : Nat) : WatchesOnly s (s.roomedHome a) := by
  rw [State.roomedHome]
  split
  · exact .roomL2 ..
  · exact .refl s

theorem WatchesOnly.putHome (s : State) (r : WriteRec) (launch : W32) (a : Nat) (data : List Byte) :
    WatchesOnly { s with mem := Memory.writeBytes s.mem a data } (s.putHome r launch a data) :=
  .of_fields rfl rfl rfl rfl rfl rfl rfl

/-- A write at home puts its bytes in place where the address names memory. -/
theorem WatchesOnly.writeHome (s : State) (r : WriteRec) (launch : W32) (pa : Nat) (data : List Byte) :
    WatchesOnly (if isMemory pa then { s with mem := Memory.writeBytes s.mem (canonPa pa) data } else s)
      (s.writeHome r launch pa data) := by
  cases h : isMemory pa with
  | false =>
    have hsame : s.writeHome r launch pa data = s := by simp [State.writeHome, h]
    rw [hsame]
    exact .refl s
  | true =>
    have hover := (WatchesOnly.filledHome s (canonPa pa)).trans (.overwrite _ (coversSite (canonPa pa) data.length))
    have hput := hover.with_mem (Memory.writeBytes s.mem (canonPa pa) data)
    rw [State.writeHome_of_memory h, if_pos rfl]
    rw [← hover.mem] at hput ⊢
    exact hput.trans ((WatchesOnly.putHome ..).trans ((WatchesOnly.retest ..).trans (.roomedHome ..)))

theorem WatchesOnly.agentWrite (s : State) (launch : W32) (pa : Nat) (data : List Byte) :
    WatchesOnly (if isMemory pa then { s with mem := Memory.writeBytes s.mem (canonPa pa) data } else s)
      (s.agentWrite launch pa data).1 := by
  have hfresh : WatchesOnly s (s.merge pa data.length).fresh.2 :=
    (WatchesOnly.merge s pa data.length).trans (.of_fields rfl rfl rfl rfl rfl rfl rfl)
  have hwrite := WatchesOnly.writeHome (s.merge pa data.length).fresh.2
    ((s.merge pa data.length).fresh.2.recordAt (s.merge pa data.length).fresh.1 none 0 (canonPa pa)) launch pa data
  have hstep : ∀ t, (if isMemory pa then ({ (s.merge pa data.length).fresh.2 with
      mem := Memory.writeBytes (s.merge pa data.length).fresh.2.mem (canonPa pa) data } : State)
      else (s.merge pa data.length).fresh.2) = t →
      WatchesOnly (if isMemory pa then { s with mem := Memory.writeBytes s.mem (canonPa pa) data } else s) t := by
    rintro t rfl
    split
    · rw [hfresh.mem]
      exact hfresh.with_mem _
    · exact hfresh
  exact (hstep _ rfl).trans hwrite

/-! ## A slot freed (spec/23 R336) -/

/-- Freeing a packet's slot writes 0 over its Q0, where the address names memory that the command processor may
write. -/
theorem WatchesOnly.freeSlot (s : State) (d : Nat) (y : Queue) (i : W64) :
    (∀ pa, s.checkVa cpAgent y.capx .write 1 (y.slotVa i) = .inl pa → isMemory pa = true →
      WatchesOnly { s with mem := Memory.writeBytes s.mem (canonPa pa) (toLe 0 8) } (s.freeSlot d y i)) ∧
    ((∀ pa, s.checkVa cpAgent y.capx .write 1 (y.slotVa i) = .inl pa → isMemory pa = false) →
      WatchesOnly s (s.freeSlot d y i)) := by
  have hwritten : ∀ pa, s.checkVa cpAgent y.capx .write 1 (y.slotVa i) = .inl pa →
      WatchesOnly (if isMemory pa then { s with mem := Memory.writeBytes s.mem (canonPa pa) (toLe 0 8) } else s)
        (s.freeSlot d y i) := fun pa hpa => by
    rw [State.freeSlot, State.storeVa, hpa]
    exact (WatchesOnly.agentWrite s 0 pa (toLe 0 8)).trans (.modDie _ _ fun _ => rfl)
  constructor
  · intro pa hpa hmem
    have h := hwritten pa hpa
    rwa [if_pos hmem] at h
  · intro hnone
    cases hpa : s.checkVa cpAgent y.capx .write 1 (y.slotVa i) with
    | inl pa =>
      have h := hwritten pa hpa
      rwa [if_neg (by simp [hnone pa hpa])] at h
    | inr e =>
      rw [State.freeSlot, State.storeVa, hpa]
      exact .refl s

end Sys2Proof.Machine
end

section
/-! SUPPORT. Placement: the blocks of a launch on their cores, their warps and their lanes (spec/09 R145 to R147;
spec/14 R244; spec/23 R342, R343). -/

namespace Sys2Proof.Machine
open Claims

/-- A fold over a list that holds `a` establishes `P`, when the step at `a` makes it out of `I`, every step keeps `I`,
and every other step keeps `P`. -/
theorem foldl_makes {α β : Type} {I P : β → Prop} {op : β → α → β} {a : α} {l : List α} (ha : a ∈ l)
    (inv : ∀ t, ∀ b ∈ l, I t → I (op t b)) (make : ∀ t, I t → P (op t a))
    (keep : ∀ t, ∀ b ∈ l, b ≠ a → P t → P (op t b)) {s : β} (h : I s) : P (l.foldl op s) := by
  have hsub : ∀ k, k ⊆ l → ∀ t, I t → (a ∈ k ∨ P t) → P (k.foldl op t) := fun k => by
    induction k with
    | nil => exact fun _ t _ hor => hor.resolve_left List.not_mem_nil
    | cons b k ih =>
      intro hk t ht hor
      obtain ⟨hb, hk⟩ := List.cons_subset.1 hk
      refine ih hk _ (inv t b hb ht) ?_
      by_cases e : b = a
      · exact .inr (e ▸ make t ht)
      · rcases hor with hmem | hp
        · exact .inl ((List.mem_cons.1 hmem).resolve_left fun h => e h.symm)
        · exact .inr (keep t b hb e hp)
  exact hsub l (List.Subset.refl l) s h (.inl ha)

/-! ## What placing leaves alone -/

/-- An error stands in no place of memory at its home. -/
def offHome (site : Site) : Prop := ∀ a n, touchesSite a n site = false ∧ hbmSite a n site = false

theorem State.failsHome_eq (s : State) (pa n : Nat) : s.failsHome pa n = s.badSite fun x =>
    touchesSite (canonPa pa) n x || (tfind s.dirty (lineOf pa)).isNone && hbmSite (canonPa pa) n x := by
  rw [State.failsHome]
  split
  next h => rw [State.badSite, List.isEmpty_iff.1 h]; rfl
  next => rfl

/-- Errors that go away from places other than memory's leave what a use of memory meets. -/
theorem State.failsHome_overwrite (s : State) {p : Site → Bool} (hp : ∀ x, p x = true → offHome x) (pa n : Nat) :
    (s.overwrite p).failsHome pa n = s.failsHome pa n := by
  rw [State.overwrite]
  split
  · rfl
  · rw [State.failsHome_eq, State.failsHome_eq, State.badSite, State.badSite, List.find?_filter]
    generalize (tfind s.dirty (lineOf pa)).isNone = clean
    congr 2
    funext u
    cases hu : p u.site with
    | false => simp
    | true =>
      obtain ⟨htouch, hhbm⟩ := hp u.site hu (canonPa pa) n
      simp [htouch, hhbm]

/-- Nothing has changed but cores, blocks, engines, warps and lanes, what launches hold beside their own cores, and
errors that no use of memory meets. -/
structure PlacesOnly (s t : State) : Prop where
  frame : t = { s with cores := t.cores, blocks := t.blocks, launches := t.launches, upsets := t.upsets,
                       pairs := t.pairs, warps := t.warps, lanes := t.lanes }
  fails : ∀ pa n, t.failsHome pa n = s.failsHome pa n
  launch : ∀ i x, tfind s.launches i = some x → ∃ h, tfind t.launches i = some { x with held := h }

theorem PlacesOnly.refl (s : State) : PlacesOnly s s := ⟨rfl, fun _ _ => rfl, fun _ x hx => ⟨x.held, hx⟩⟩

theorem PlacesOnly.trans {s t u : State} (h : PlacesOnly s t) (k : PlacesOnly t u) : PlacesOnly s u where
  frame := by rw [k.frame, h.frame]
  fails pa n := (k.fails pa n).trans (h.fails pa n)
  launch i x hx := by
    obtain ⟨a, ha⟩ := h.launch i x hx
    obtain ⟨b, hb⟩ := k.launch i _ ha
    exact ⟨b, hb⟩

theorem PlacesOnly.cycles {s t : State} (h : PlacesOnly s t) : t.cycles = s.cycles := by rw [h.frame]

/-- Placing on the cores `cs` leaves alone the launch's other cores, `own` with these, their blocks, warps and lanes. -/
structure PlacesOn (own cs : List Nat) (s t : State) : Prop extends PlacesOnly s t where
  core : ∀ k ∈ own, k ∉ cs → t.core k = s.core k
  block : ∀ k, k ∉ cs → tfind t.blocks k = tfind s.blocks k
  warp : ∀ w, w / 128 ∉ cs → t.warp w = s.warp w
  lane : ∀ l, l / 4096 ∉ cs → t.lane l = s.lane l

theorem PlacesOn.refl (own cs : List Nat) (s : State) : PlacesOn own cs s s :=
  ⟨.refl s, fun _ _ _ => rfl, fun _ _ => rfl, fun _ _ => rfl, fun _ _ => rfl⟩

theorem PlacesOn.trans {own cs : List Nat} {s t u : State} (h : PlacesOn own cs s t) (k : PlacesOn own cs t u) :
    PlacesOn own cs s u where
  toPlacesOnly := h.toPlacesOnly.trans k.toPlacesOnly
  core c hown hc := (k.core c hown hc).trans (h.core c hown hc)
  block c hc := (k.block c hc).trans (h.block c hc)
  warp w hw := (k.warp w hw).trans (h.warp w hw)
  lane l hl := (k.lane l hl).trans (h.lane l hl)

theorem PlacesOn.foldl {α : Type} {own cs : List Nat} {f : State → α → State} {as : List α}
    (h : ∀ t, ∀ a ∈ as, PlacesOn own cs t (f t a)) (s : State) : PlacesOn own cs s (as.foldl f s) :=
  List.foldlRecOn (motive := PlacesOn own cs s) as f (.refl own cs s) fun t ht a ha => ht.trans (h t a ha)

/-- A core that is one of these, or none of the launch's, starts. -/
theorem PlacesOn.startCore {own cs : List Nat} {c : Nat} (hc : c ∈ own → c ∈ cs) (s : State) (i : Nat)
    (block : Option Nat) : PlacesOn own cs s (s.startCore c i block) where
  frame := rfl
  fails _ _ := rfl
  launch _ x hx := ⟨x.held, hx⟩
  core k hown hk := by
    have hne : k ≠ c := fun e => hk (e ▸ hc (e ▸ hown))
    rw [State.startCore, State.core_setCore, if_neg hne]
  block _ _ := rfl
  warp _ _ := rfl
  lane _ _ := rfl

theorem State.overwrite_only (s : State) (p : Site → Bool) :
    s.overwrite p = { s with upsets := (s.overwrite p).upsets } := by
  rw [State.overwrite]
  split <;> rfl

/-- Errors of other places than memory's go away. -/
theorem PlacesOn.overwrite (own cs : List Nat) (s : State) {p : Site → Bool} (hp : ∀ x, p x = true → offHome x) :
    PlacesOn own cs s (s.overwrite p) := by
  refine ⟨⟨?_, s.failsHome_overwrite hp, fun i x hx => ⟨x.held, ?_⟩⟩, fun _ _ _ => ?_, fun _ _ => ?_, fun _ _ => ?_,
    fun _ _ => ?_⟩ <;>
    rw [s.overwrite_only]
  · exact hx
  all_goals rfl

/-! ## The lanes of a warp (R147) -/

/-- `m` lanes from `k` upward start, the first `n` of them threads. -/
def State.startLanes (s : State) (x : Launch) (k n m : Nat) : State :=
  (List.range m).foldl (fun t i =>
    t.setLane (k + i) (t.newLane x (k + i) (n ≤ i) false ((dword x.record 0).setWidth 48))) s

theorem State.startLanes_succ (s : State) (x : Launch) (k n m : Nat) : s.startLanes x k n (m + 1) =
    (s.startLanes x k n m).setLane (k + m)
      ((s.startLanes x k n m).newLane x (k + m) (n ≤ m) false ((dword x.record 0).setWidth 48)) := by
  rw [State.startLanes, List.range_succ, List.foldl_append]; rfl

theorem onlyLanes_setLane (s : State) (l : Nat) (x : Lane) : onlyLanes s (s.setLane l x) := rfl

theorem State.startLanes_only (s : State) (x : Launch) (k n m : Nat) : onlyLanes s (s.startLanes x k n m) :=
  onlyLanes_foldl _ (fun t _ => onlyLanes_setLane t _ _) _ s

theorem onlyLanes.newLane {s t : State} (h : onlyLanes s t) : t.newLane = s.newLane := by rw [h]; rfl

theorem State.lane_startLanes (s : State) (x : Launch) (k n m l : Nat) : (s.startLanes x k n m).lane l =
    if k ≤ l ∧ l < k + m then s.newLane x l (n ≤ l - k) false ((dword x.record 0).setWidth 48) else s.lane l := by
  induction m with
  | zero => rw [if_neg (by omega)]; rfl
  | succ m ih =>
    rw [State.startLanes_succ, State.lane_setLane, ih, (s.startLanes_only x k n m).newLane]
    by_cases e : l = k + m
    · subst e
      rw [if_pos rfl, if_pos (by omega), Nat.add_sub_cancel_left]
    · rw [if_neg e]
      exact if_congr (by omega) rfl rfl

/-- A launch's warp as it starts, with its KERNARG. -/
def Launch.firstWarp (x : Launch) (kernarg : W64) : Warp :=
  { newWarp x with s := putRun [] 0 [kernarg.setWidth 32, kernarg.extractLsb' 32 32] }

theorem Launch.firstWarp_kernarg (x : Launch) (kernarg : W64) :
    (tget 0 (x.firstWarp kernarg).s 0, tget 0 (x.firstWarp kernarg).s 1) =
      (kernarg.setWidth 32, kernarg.extractLsb' 32 32) :=
  Prod.ext (tget_putRun [] 0 0 _) (tget_putRun [] 0 1 _)

/-- The threads of a block's home warp. -/
def Launch.warpThreads (x : Launch) (hw : Nat) : Nat := min 32 (x.threads - 32 * hw)

theorem State.startWarp_eq (s : State) (x : Launch) (kernarg : W64) (c hw : Nat) : s.startWarp x kernarg c hw =
    ((s.overwrite (warpSite (c * 128 + hw))).setWarp (c * 128 + hw) (x.firstWarp kernarg)).startLanes x
      ((c * 128 + hw) * 32) (x.warpThreads hw) ((x.warpThreads hw + 3) / 4 * 4) := rfl

theorem offHome_of_warpSite {w : Nat} {site : Site} (h : warpSite w site = true) : offHome site := by
  cases site with
  | lane l o => exact fun _ _ => ⟨rfl, rfl⟩
  | loaded l o => exact fun _ _ => ⟨rfl, rfl⟩
  | _ => cases h

section StartWarp
variable (s : State) (x : Launch) (kernarg : W64) (c hw : Nat)

theorem State.startWarp_frame : s.startWarp x kernarg c hw = { s with
    upsets := (s.startWarp x kernarg c hw).upsets
    warps := (s.startWarp x kernarg c hw).warps
    lanes := (s.startWarp x kernarg c hw).lanes } := by
  rw [State.startWarp_eq, State.startLanes_only, s.overwrite_only]
  rfl

theorem State.warp_startWarp (w : Nat) : (s.startWarp x kernarg c hw).warp w =
    if w = c * 128 + hw then x.firstWarp kernarg else s.warp w := by
  have hover : (s.overwrite (warpSite (c * 128 + hw))).warp w = s.warp w := by rw [s.overwrite_only]; rfl
  rw [State.startWarp_eq, State.warp, (State.startLanes_only ..).warps, ← State.warp, State.warp_setWarp, hover]

theorem State.lane_startWarp (l : Nat) : (s.startWarp x kernarg c hw).lane l =
    if (c * 128 + hw) * 32 ≤ l ∧ l < (c * 128 + hw) * 32 + (x.warpThreads hw + 3) / 4 * 4
      then s.newLane x l (x.warpThreads hw ≤ l - (c * 128 + hw) * 32) false ((dword x.record 0).setWidth 48)
      else s.lane l := by
  have hlane : ((s.overwrite (warpSite (c * 128 + hw))).setWarp (c * 128 + hw) (x.firstWarp kernarg)).lane l =
      s.lane l := by rw [s.overwrite_only]; rfl
  have hnew : ((s.overwrite (warpSite (c * 128 + hw))).setWarp (c * 128 + hw) (x.firstWarp kernarg)).newLane =
      s.newLane := by rw [s.overwrite_only]; rfl
  rw [State.startWarp_eq, State.lane_startLanes, hlane, hnew]

/-- A warp of a block of less than 128 warps starts on its core alone. -/
theorem PlacesOn.startWarp {own cs : List Nat} {c hw : Nat} (hc : c ∈ cs) (hhw : hw < 128) (s : State) (x : Launch)
    (kernarg : W64) : PlacesOn own cs s (s.startWarp x kernarg c hw) where
  frame := by rw [s.startWarp_frame x kernarg c hw]
  fails pa n := by
    have hover := s.failsHome_overwrite (p := warpSite (c * 128 + hw)) (fun _ => offHome_of_warpSite) pa n
    rw [State.startWarp_eq, State.startLanes_only]
    exact hover
  launch i x hx := ⟨x.held, by rw [State.startWarp_frame]; exact hx⟩
  core _ _ _ := by rw [State.startWarp_frame]; rfl
  block _ _ := by rw [State.startWarp_frame]
  warp w hw' := by
    have hne : w ≠ c * 128 + hw := by
      rintro rfl
      exact hw' (by rwa [show (c * 128 + hw) / 128 = c by omega])
    rw [State.warp_startWarp, if_neg hne]
  lane l hl := by
    have hne : ¬ ((c * 128 + hw) * 32 ≤ l ∧ l < (c * 128 + hw) * 32 + (x.warpThreads hw + 3) / 4 * 4) := by
      have hle : x.warpThreads hw ≤ 32 := Nat.min_le_left ..
      rintro ⟨hlo, hhi⟩
      exact hl (by rwa [show l / 4096 = c by omega])
    rw [State.lane_startWarp, if_neg hne]

end StartWarp

/-! ## A thread's lane and warp (R145, R147) -/

/-- Thread `n` of a launch's block `b` stands in warp `w` before the launch's first clause. -/
def ThreadStands (now : Nat) (x : Launch) (kernarg : W64) (b n w : Nat) (t : State) : Prop :=
  (tget 0 (t.warp w).s 0, tget 0 (t.warp w).s 1) = (kernarg.setWidth 32, kernarg.extractLsb' 32 32) ∧
  (t.warp w).mode = modeReset ∧ (t.warp w).trapv = dword x.record 10 ∧ (t.warp w).seed = dword x.record 9 ∧
  t.lane (w * 32 + n % 32) =
    { helper := decide (x.threads ≤ n), member := decide (n < x.threads), pc := (dword x.record 0).setWidth 48,
      readyAt := now,
      rsb := dword x.record 11 + BitVec.ofNat 64 (8192 * (BitVec.ofNat 32 (b * 4096 + n)).toNat) }

/-- A home warp that starts puts its threads in place. -/
theorem threadStands_startWarp {s : State} {x : Launch} {b c n : Nat} (kernarg : W64) (hb : s.blockId c = b)
    (hx : x.threads ≤ 4096) (hn : n < (x.threads + 3) / 4 * 4) :
    ThreadStands s.cycles x kernarg b n (c * 128 + n / 32) (s.startWarp x kernarg c (n / 32)) := by
  have hin : (c * 128 + n / 32) * 32 ≤ (c * 128 + n / 32) * 32 + n % 32 ∧ (c * 128 + n / 32) * 32 + n % 32 <
      (c * 128 + n / 32) * 32 + (x.warpThreads (n / 32) + 3) / 4 * 4 := by
    rw [Launch.warpThreads]; omega
  have hhelper : x.warpThreads (n / 32) ≤ n % 32 ↔ x.threads ≤ n := by rw [Launch.warpThreads]; omega
  have hgtid : s.gtid ((c * 128 + n / 32) * 32 + n % 32) = BitVec.ofNat 32 (b * 4096 + n) := by
    have hcore : coreOf ((c * 128 + n / 32) * 32 + n % 32) = c := by rw [coreOf]; omega
    have hthread : threadId ((c * 128 + n / 32) * 32 + n % 32) = n := by rw [threadId, homeWarp, homeLane]; omega
    rw [State.gtid, hcore, hthread, hb]
  rw [ThreadStands, State.warp_startWarp, if_pos rfl, State.lane_startWarp, if_pos hin, State.newLane, hgtid,
    Nat.add_sub_cancel_left]
  refine ⟨?_, rfl, rfl, rfl, ?_⟩
  · exact x.firstWarp_kernarg kernarg
  · have hmember : (!decide (x.threads ≤ n)) = decide (n < x.threads) := by
      rw [← decide_not]
      exact decide_eq_decide.2 Nat.not_le
    simp only [hhelper, Bool.not_false, Bool.and_true, hmember]

/-- A thread stays in place while its warp and its lane do. -/
theorem ThreadStands.congr {now b n w : Nat} {x : Launch} {kernarg : W64} {s t : State}
    (h : ThreadStands now x kernarg b n w s) (hwarp : t.warp w = s.warp w)
    (hlane : t.lane (w * 32 + n % 32) = s.lane (w * 32 + n % 32)) : ThreadStands now x kernarg b n w t := by
  rwa [ThreadStands, hwarp, hlane]

/-! ## The warps of a block -/

/-- The core of a block whose first core is `c` that has a home warp (R147). -/
def Launch.warpCore (x : Launch) (c hw : Nat) : Nat := if x.paired then c + hw % 2 else c

/-- The cores of a block whose first core is `c`. -/
def Launch.coresFrom (x : Launch) (c : Nat) : List Nat := if x.paired then [c, c + 1] else [c]

theorem Launch.warpCore_mem (x : Launch) (c hw : Nat) : x.warpCore c hw ∈ x.coresFrom c := by
  rw [Launch.warpCore, Launch.coresFrom]
  split
  · rcases Nat.mod_two_eq_zero_or_one hw with h | h <;> simp [h]
  · simp

/-- The home warps of a block start. -/
def State.startWarps (s : State) (x : Launch) (kernarg : W64) (c : Nat) : State :=
  (List.range x.warps).foldl (fun t hw => t.startWarp x kernarg (x.warpCore c hw) hw) s

theorem Launch.warps_le {x : Launch} (h : x.threads ≤ 4096) : x.warps ≤ 128 := by rw [Launch.warps]; omega

theorem PlacesOn.startWarps {x : Launch} (hx : x.threads ≤ 4096) (own : List Nat) (s : State) (kernarg : W64)
    (c : Nat) : PlacesOn own (x.coresFrom c) s (s.startWarps x kernarg c) :=
  .foldl (fun t hw hhw => .startWarp (x.warpCore_mem c hw)
    ((List.mem_range.1 hhw).trans_le (Launch.warps_le hx)) t x kernarg) s

/-- Warps that start leave cores and blocks alone. -/
theorem State.startWarps_frame (s : State) (x : Launch) (kernarg : W64) (c : Nat) :
    (s.startWarps x kernarg c).cores = s.cores ∧ (s.startWarps x kernarg c).blocks = s.blocks :=
  List.foldlRecOn (motive := fun t : State => t.cores = s.cores ∧ t.blocks = s.blocks) _ _ ⟨rfl, rfl⟩
    fun t ht hw _ => by
      rw [State.startWarp_frame]
      exact ht

/-- Every thread of a block stands in place once its warps have started. -/
theorem threadStands_startWarps {s : State} {x : Launch} {b c : Nat} (hx : x.threads ≤ 4096) (kernarg : W64)
    (hb : ∀ k ∈ x.coresFrom c, s.blockId k = b) {n : Nat} (hn : n < (x.threads + 3) / 4 * 4) :
    ThreadStands s.cycles x kernarg b n (x.warpCore c (n / 32) * 128 + n / 32) (s.startWarps x kernarg c) := by
  refine foldl_makes (I := fun t : State => t.cores = s.cores ∧ t.blocks = s.blocks ∧ t.cycles = s.cycles)
    (a := n / 32) (List.mem_range.2 (by rw [Launch.warps]; omega)) (fun t hw _ ht => ?_) (fun t ht => ?_)
    (fun t hw hhw hne ht => ?_) ⟨rfl, rfl, rfl⟩
  · rw [State.startWarp_frame]
    exact ht
  · obtain ⟨hcores, hblocks, hcycles⟩ := ht
    have hid : t.blockId (x.warpCore c (n / 32)) = b := by
      rw [← hb _ (x.warpCore_mem c (n / 32))]
      simp only [State.blockId, State.blockOf, State.core, hcores, hblocks]
    exact hcycles ▸ threadStands_startWarp kernarg hid hx hn
  · have hlt : hw < 128 := (List.mem_range.1 hhw).trans_le (Launch.warps_le hx)
    have hle : x.warpThreads hw ≤ 32 := Nat.min_le_left ..
    refine ht.congr ?_ ?_
    · rw [State.warp_startWarp, if_neg (by omega)]
    · rw [State.lane_startWarp, if_neg (by omega)]

/-! ## A block (R145, spec/14 R244) -/

/-- The first cores of a launch's blocks, by block number. -/
def Launch.firsts (x : Launch) : List Nat := if x.paired then x.cores.filter (· % 2 == 0) else x.cores

theorem Launch.blockSets_eq (x : Launch) : x.blockSets = x.firsts.map x.coresFrom := by
  have hcores : ∀ c, x.coresFrom c = if x.paired then [c, c + 1] else [c] := fun _ => rfl
  rw [Launch.blockSets, Launch.firsts]
  simp only [funext hcores]
  cases x.paired <;> rfl

theorem blockCore_eq (x : Launch) (b : Nat) : blockCore x b = x.firsts[b]? := by
  rw [blockCore, Launch.firsts]
  split <;> rfl

theorem Launch.mem_cores_of_mem_firsts {x : Launch} {c : Nat} (h : c ∈ x.firsts) : c ∈ x.cores := by
  rw [Launch.firsts] at h
  split at h
  · exact List.mem_of_mem_filter h
  · exact h

/-- The cores of two blocks are apart. -/
theorem Launch.not_mem_coresFrom {x : Launch} {c e k : Nat} (hc : c ∈ x.firsts) (he : e ∈ x.firsts) (hne : c ≠ e)
    (hk : k ∈ x.coresFrom c) : k ∉ x.coresFrom e := by
  rw [Launch.coresFrom] at hk ⊢
  rw [Launch.firsts] at hc he
  cases hpair : x.paired with
  | false =>
    simp only [hpair, Bool.false_eq_true, if_false, List.mem_singleton] at hk ⊢
    omega
  | true =>
    simp only [hpair, if_true, List.mem_filter, beq_iff_eq, List.mem_cons, List.not_mem_nil, or_false] at hc he hk ⊢
    omega

/-- A block's cores start, and it stands in the table; a core held beside it starts too. -/
def State.takeBlock (s : State) (i : Nat) (x : Launch) (id : Nat) (cs : List Nat) : State :=
  let c := cs.headD 0
  let whole := s.takesWhole x cs
  let t := cs.foldl (fun t k => t.startCore k i (some c)) s
  let t : State := { t with
    blocks := tset t.blocks c { launch := i, id := id, cores := cs, threads := x.threads, whole := whole } }
  if whole && cs.length == 1 then
    (t.startCore (partner c) i none).modLaunch i fun y => { y with held := y.held ++ [partner c] }
  else t

theorem State.startBlock_eq (s : State) (i : Nat) (x : Launch) (kernarg : W64) (id c : Nat) :
    s.startBlock i x kernarg id (x.coresFrom c) =
      ((s.takeBlock i x id (x.coresFrom c)).clearEngine c).startWarps x kernarg c := by
  have hhead : (x.coresFrom c).headD 0 = c := by
    rw [Launch.coresFrom]
    split <;> rfl
  simp only [State.startBlock, hhead]
  simp only [State.takeBlock, hhead]
  rfl

theorem PlacesOn.clearEngine (own cs : List Nat) (s : State) (c : Nat) : PlacesOn own cs s (s.clearEngine c) := by
  have hsite : ∀ site, s.engineSite [c] site = true → offHome site := fun site h => by
    cases site with
    | acc p r k => exact fun _ _ => ⟨rfl, rfl⟩
    | fifo p st f w => exact fun _ _ => ⟨rfl, rfl⟩
    | _ => cases h
  have hover := PlacesOn.overwrite own cs s hsite
  have hpair : ∀ t : State, ∀ f, PlacesOn own cs t (t.modPair (pairOf c) f) := fun t f =>
    ⟨⟨rfl, fun _ _ => rfl, fun _ x hx => ⟨x.held, hx⟩⟩, fun _ _ _ => rfl, fun _ _ => rfl, fun _ _ => rfl,
      fun _ _ => rfl⟩
  rw [State.clearEngine]
  exact hover.trans (hpair _ _)

theorem State.clearEngine_frame (s : State) (c : Nat) :
    (s.clearEngine c).cores = s.cores ∧ (s.clearEngine c).blocks = s.blocks := by
  have hover : ∀ p, (s.overwrite p).cores = s.cores ∧ (s.overwrite p).blocks = s.blocks := fun p => by
    rw [s.overwrite_only]
    exact ⟨rfl, rfl⟩
  exact hover _

/-- A block's entry in the table. -/
theorem PlacesOn.setBlock {own cs : List Nat} {c : Nat} (hc : c ∈ cs) (s : State) (b : Block) :
    PlacesOn own cs s { s with blocks := tset s.blocks c b } where
  frame := rfl
  fails _ _ := rfl
  launch _ x hx := ⟨x.held, hx⟩
  core _ _ _ := rfl
  block k hk := by
    have hne : k ≠ c := fun e => hk (e ▸ hc)
    exact (tfind_tset ..).trans (if_neg hne)
  warp _ _ := rfl
  lane _ _ := rfl

/-- A launch holds one more core beside its own. -/
theorem PlacesOn.hold (own cs : List Nat) (s : State) (i c : Nat) :
    PlacesOn own cs s (s.modLaunch i fun y => { y with held := y.held ++ [c] }) where
  frame := rfl
  fails _ _ := rfl
  launch j x hx := by
    rw [State.find_modLaunch]
    split
    next h => subst h; exact ⟨x.held ++ [c], by rw [hx]; rfl⟩
    next => exact ⟨x.held, hx⟩
  core _ _ _ := rfl
  block _ _ := rfl
  warp _ _ := rfl
  lane _ _ := rfl

/-- What a block takes: each of its cores runs the launch and carries the block of that number. -/
structure BlockTaken (i : Nat) (x : Launch) (b c : Nat) (t : State) : Prop where
  launch : ∀ k ∈ x.coresFrom c, (t.core k).launch = some i
  block : ∀ k ∈ x.coresFrom c, (t.core k).block = some c
  id : (tfind t.blocks c).map (·.id) = some b

theorem BlockTaken.blockId {i b c : Nat} {x : Launch} {t : State} (h : BlockTaken i x b c t) :
    ∀ k ∈ x.coresFrom c, t.blockId k = b := fun k hk => by
  rw [State.blockId, State.blockOf, h.block k hk, h.id]; rfl

theorem BlockTaken.congr {i b c : Nat} {x : Launch} {s t : State} (h : BlockTaken i x b c s)
    (hcore : ∀ k ∈ x.coresFrom c, t.core k = s.core k) (hblock : tfind t.blocks c = tfind s.blocks c) :
    BlockTaken i x b c t where
  launch k hk := hcore k hk ▸ h.launch k hk
  block k hk := hcore k hk ▸ h.block k hk
  id := hblock ▸ h.id

/-- Each of some cores that start runs the launch, and carries the block. -/
theorem State.core_startCores (s : State) (i : Nat) (block : Option Nat) {cs : List Nat} {k : Nat} (hk : k ∈ cs) :
    (((cs.foldl (fun t k => t.startCore k i block) s)).core k).launch = some i ∧
    (((cs.foldl (fun t k => t.startCore k i block) s)).core k).block = block := by
  refine foldl_makes (I := fun _ => True) (P := fun t : State => (t.core k).launch = some i ∧ (t.core k).block = block)
    hk (fun _ _ _ _ => trivial) (fun t _ => ?_) (fun t e _ hne ht => ?_) trivial
  · rw [State.startCore, State.core_setCore, if_pos rfl]
    exact ⟨rfl, rfl⟩
  · rw [State.startCore, State.core_setCore, if_neg hne.symm]
    exact ht

/-- The core that a block holds beside its own is none of its launch's. -/
theorem State.partner_not_mem {s : State} {x : Launch} {c : Nat}
    (h : (s.takesWhole x (x.coresFrom c) && (x.coresFrom c).length == 1) = true) :
    partner c ∉ x.cores ∧ x.coresFrom c = [c] := by
  rw [Launch.coresFrom] at h ⊢
  cases hpair : x.paired with
  | false =>
    simp only [hpair, State.takesWhole] at h
    simp at h
    exact ⟨h.1, rfl⟩
  | true => simp [hpair] at h

theorem partner_ne (c : Nat) : partner c ≠ c := by
  rw [partner]
  split <;> omega

theorem Launch.mem_coresFrom (x : Launch) (c : Nat) : c ∈ x.coresFrom c := by
  rw [Launch.coresFrom]
  split <;> simp

/-- The cores of a block, and its entry, without the core that it may hold beside them. -/
def State.takeCores (s : State) (i : Nat) (x : Launch) (id c : Nat) : State :=
  let t := (x.coresFrom c).foldl (fun t k => t.startCore k i (some c)) s
  { t with blocks := tset t.blocks c { launch := i, id := id, cores := x.coresFrom c, threads := x.threads,
                                       whole := s.takesWhole x (x.coresFrom c) } }

theorem State.takeBlock_eq (s : State) (i : Nat) (x : Launch) (id c : Nat) : s.takeBlock i x id (x.coresFrom c) =
    if s.takesWhole x (x.coresFrom c) && (x.coresFrom c).length == 1 then
      ((s.takeCores i x id c).startCore (partner c) i none).modLaunch i fun y =>
        { y with held := y.held ++ [partner c] }
    else s.takeCores i x id c := by
  have hhead : (x.coresFrom c).headD 0 = c := by
    rw [Launch.coresFrom]
    split <;> rfl
  simp only [State.takeBlock, hhead]
  rfl

theorem PlacesOn.takeCores (s : State) (i : Nat) (x : Launch) (id c : Nat) :
    PlacesOn x.cores (x.coresFrom c) s (s.takeCores i x id c) := by
  refine .trans (.foldl (fun t k hk => ?_) s) (.setBlock (x.mem_coresFrom c) _ _)
  exact .startCore (fun _ => hk) t i (some c)

theorem blockTaken_takeCores (s : State) (i : Nat) (x : Launch) (id c : Nat) :
    BlockTaken i x id c (s.takeCores i x id c) where
  launch _ hk := (s.core_startCores i (some c) hk).1
  block _ hk := (s.core_startCores i (some c) hk).2
  id := by rw [State.takeCores, tfind_tset, if_pos rfl]; rfl

theorem PlacesOn.takeBlock (s : State) (i : Nat) (x : Launch) (id c : Nat) :
    PlacesOn x.cores (x.coresFrom c) s (s.takeBlock i x id (x.coresFrom c)) := by
  rw [State.takeBlock_eq]
  split
  next h =>
    have hown := (State.partner_not_mem h).1
    exact (PlacesOn.takeCores ..).trans ((PlacesOn.startCore (fun hp => absurd hp hown) _ i none).trans (.hold ..))
  next => exact .takeCores ..

theorem blockTaken_takeBlock (s : State) (i : Nat) (x : Launch) (id c : Nat) :
    BlockTaken i x id c (s.takeBlock i x id (x.coresFrom c)) := by
  have hcores := blockTaken_takeCores s i x id c
  rw [State.takeBlock_eq]
  split
  next h =>
    refine hcores.congr (fun k hk => ?_) rfl
    rw [(State.partner_not_mem h).2, List.mem_singleton] at hk
    have hne : k ≠ partner c := hk ▸ (partner_ne c).symm
    exact (State.core_setCore ..).trans (if_neg hne)
  next => exact hcores

/-- A block stands: its first core runs the launch and carries it, and every thread of it stands before the launch's
first clause. -/
structure BlockStands (now i : Nat) (x : Launch) (kernarg : W64) (b c : Nat) (t : State) : Prop where
  launch : (t.core c).launch = some i
  block : (t.core c).block = some c
  id : (tfind t.blocks c).map (·.id) = some b
  thread : ∀ n < (x.threads + 3) / 4 * 4, ThreadStands now x kernarg b n (x.warpCore c (n / 32) * 128 + n / 32) t

theorem PlacesOn.startBlock {x : Launch} (hx : x.threads ≤ 4096) (s : State) (i : Nat) (kernarg : W64) (id c : Nat) :
    PlacesOn x.cores (x.coresFrom c) s (s.startBlock i x kernarg id (x.coresFrom c)) := by
  rw [State.startBlock_eq]
  exact (PlacesOn.takeBlock ..).trans ((PlacesOn.clearEngine ..).trans (.startWarps hx ..))

/-- A block that starts stands. -/
theorem blockStands_startBlock {x : Launch} (hx : x.threads ≤ 4096) (s : State) (i : Nat) (kernarg : W64) (b c : Nat) :
    BlockStands s.cycles i x kernarg b c (s.startBlock i x kernarg b (x.coresFrom c)) := by
  rw [State.startBlock_eq]
  have hstart := (PlacesOn.takeBlock s i x b c).trans (.clearEngine _ _ _ c)
  obtain ⟨hcores, hblocks⟩ := (s.takeBlock i x b (x.coresFrom c)).clearEngine_frame c
  have htaken : BlockTaken i x b c ((s.takeBlock i x b (x.coresFrom c)).clearEngine c) :=
    (blockTaken_takeBlock s i x b c).congr (fun k _ => by rw [State.core, State.core, hcores]) (by rw [hblocks])
  obtain ⟨hcores', hblocks'⟩ := ((s.takeBlock i x b (x.coresFrom c)).clearEngine c).startWarps_frame x kernarg c
  have hafter := htaken.congr (t := ((s.takeBlock i x b (x.coresFrom c)).clearEngine c).startWarps x kernarg c)
    (fun k _ => by rw [State.core, State.core, hcores']) (by rw [hblocks'])
  refine ⟨hafter.launch c (x.mem_coresFrom c), hafter.block c (x.mem_coresFrom c), hafter.id, fun n hn => ?_⟩
  rw [← hstart.cycles]
  exact threadStands_startWarps hx kernarg htaken.blockId hn

/-- A block stands while others start on other cores. -/
theorem BlockStands.keep {now i b c : Nat} {x : Launch} {kernarg : W64} {cs : List Nat} {s t : State}
    (h : BlockStands now i x kernarg b c s) (hx : x.threads ≤ 4096) (hc : c ∈ x.cores)
    (hcs : ∀ k ∈ x.coresFrom c, k ∉ cs) (hst : PlacesOn x.cores cs s t) : BlockStands now i x kernarg b c t := by
  have hapart := hcs c (x.mem_coresFrom c)
  have hcore := hst.core c hc hapart
  refine ⟨hcore ▸ h.launch, hcore ▸ h.block, hst.block c hapart ▸ h.id, fun n hn => ?_⟩
  have hwarp := hcs _ (x.warpCore_mem c (n / 32))
  refine (h.thread n hn).congr (hst.warp _ ?_) (hst.lane _ ?_)
  · rwa [show (x.warpCore c (n / 32) * 128 + n / 32) / 128 = x.warpCore c (n / 32) by omega]
  · rwa [show ((x.warpCore c (n / 32) * 128 + n / 32) * 32 + n % 32) / 4096 = x.warpCore c (n / 32) by omega]

/-- A block stands after a write at home. -/
theorem BlockStands.watches {now i b c : Nat} {x : Launch} {kernarg : W64} {s t : State}
    (h : BlockStands now i x kernarg b c s) (hcores : t.cores = s.cores) (hblocks : t.blocks = s.blocks)
    (hwarps : t.warps = s.warps)
    (hlane : ∀ l, (∀ w, (s.lane l).status ≠ .asleepWaitw true w) → t.lane l = s.lane l) :
    BlockStands now i x kernarg b c t := by
  have hcore : t.core c = s.core c := by rw [State.core, State.core, hcores]
  refine ⟨hcore ▸ h.launch, hcore ▸ h.block, hblocks ▸ h.id, fun n hn => ?_⟩
  have hthread := h.thread n hn
  refine hthread.congr (by rw [State.warp, State.warp, hwarps]) (hlane _ fun w => ?_)
  obtain ⟨-, -, -, -, hstands⟩ := hthread
  rw [hstands]
  exact nofun

end Sys2Proof.Machine
end

section
/-! SUPPORT. The launch that is placed: its number, its acquires and its blocks; then its queue goes on (spec/23 R336,
R342, R343). -/

namespace Sys2Proof.Machine
open Claims

/-! ## The blocks of a launch (R343) -/

theorem Launch.nodup_firsts {x : Launch} (h : x.cores.Nodup) : x.firsts.Nodup := by
  rw [Launch.firsts]
  split
  · exact h.filter _
  · exact h

/-- A launch's blocks with their numbers: each takes the cores from its first one. -/
theorem Launch.mem_blocks_iff {x : Launch} {p : List Nat × Nat} :
    p ∈ x.blockSets.zipIdx ↔ ∃ c, x.firsts[p.2]? = some c ∧ p.1 = x.coresFrom c := by
  rw [List.mem_zipIdx_iff_getElem?, Launch.blockSets_eq, List.getElem?_map, Option.map_eq_some_iff]
  simp only [eq_comm]

/-- The blocks of a launch start, in ascending order. -/
def State.startBlocks (s : State) (i : Nat) (x : Launch) (kernarg : W64) : State :=
  x.blockSets.zipIdx.foldl (fun t p => t.startBlock i x kernarg p.2 p.1) s

section Blocks
variable {x : Launch} (hx : x.threads ≤ 4096) (s : State) (i : Nat) (kernarg : W64)
include hx

theorem PlacesOnly.startBlocks : PlacesOnly s (s.startBlocks i x kernarg) :=
  List.foldlRecOn (motive := PlacesOnly s) _ _ (.refl s) fun t ht p hp => by
    obtain ⟨c, -, hc⟩ := Launch.mem_blocks_iff.1 hp
    rw [hc]
    exact ht.trans (PlacesOn.startBlock hx ..).toPlacesOnly

/-- Once all blocks have started, each of them stands. -/
theorem blockStands_startBlocks (hcores : x.cores.Nodup) {b c : Nat} (hbc : x.firsts[b]? = some c) :
    BlockStands s.cycles i x kernarg b c (s.startBlocks i x kernarg) := by
  have hc := List.mem_of_getElem? hbc
  refine foldl_makes (I := fun t : State => t.cycles = s.cycles) (a := (x.coresFrom c, b))
    (Launch.mem_blocks_iff.2 ⟨c, hbc, rfl⟩) (fun t p hp ht => ?_) (fun t ht => ?_) (fun t p hp hne ht => ?_) rfl
  · obtain ⟨e, -, he⟩ := Launch.mem_blocks_iff.1 hp
    rw [he]
    exact (PlacesOn.startBlock hx t i kernarg p.2 e).cycles.trans ht
  · rw [← ht]
    exact blockStands_startBlock hx t i kernarg b c
  · obtain ⟨e, hpe, he⟩ := Launch.mem_blocks_iff.1 hp
    have hce : c ≠ e := by
      rintro rfl
      have hnum : b = p.2 := (List.getElem?_inj (List.getElem?_eq_some_iff.1 hbc).1 (Launch.nodup_firsts hcores)).1
        (hbc.trans hpe.symm)
      exact hne (Prod.ext he hnum.symm)
    rw [he]
    exact ht.keep hx (Launch.mem_cores_of_mem_firsts hc)
      (fun k => Launch.not_mem_coresFrom hc (List.mem_of_getElem? hpe) hce) (.startBlock hx ..)

end Blocks

/-! ## The launch (R342) -/

/-- A launch that runs under a number, with the ranges of its items. -/
def Launch.runsAs (x : Launch) (num : W32) : Launch := { x with num := num, state := .running, disp := x.ranges }

@[simp] theorem Launch.blockSets_runsAs (x : Launch) (num : W32) : (x.runsAs num).blockSets = x.blockSets := rfl
@[simp] theorem Launch.threads_runsAs (x : Launch) (num : W32) : (x.runsAs num).threads = x.threads := rfl
@[simp] theorem Launch.cores_runsAs (x : Launch) (num : W32) : (x.runsAs num).cores = x.cores := rfl
@[simp] theorem Launch.firsts_runsAs (x : Launch) (num : W32) : (x.runsAs num).firsts = x.firsts := rfl

theorem Launch.runsAs_fields (x : Launch) (num : W32) (held : List Nat) :
    let z : Launch := { x.runsAs num with held := held }
    z.state = .running ∧ z.record = x.record ∧ z.disp = x.ranges ∧ z.num = num := ⟨rfl, rfl, rfl, rfl⟩

theorem blockStands_runsAs {x : Launch} {now i b c : Nat} {kernarg : W64} {t : State} (num : W32) :
    BlockStands now i (x.runsAs num) kernarg b c t ↔ BlockStands now i x kernarg b c t :=
  ⟨fun h => ⟨h.launch, h.block, h.id, h.thread⟩, fun h => ⟨h.launch, h.block, h.id, h.thread⟩⟩

/-- The next launch number of a die. -/
def State.nextNumber (s : State) (d : Nat) : W32 := (s.number d).1

/-- KERNARG of a launch: its packet's, or its record's where the packet names none. -/
def Launch.kernarg (x : Launch) : W64 := if dword x.packet 4 = 0 then dword x.record 8 else dword x.packet 4

/-- A launch that runs, before its cores acquire. -/
def State.withNumber (s : State) (d i : Nat) (x : Launch) : State :=
  { (s.number d).2 with launches := tset s.launches i (x.runsAs (s.nextNumber d)) }

/-- The cores of a launch acquire. -/
def State.acquireAll (s : State) (x : Launch) : State :=
  x.cores.foldl (fun t c => t.acquire c (packetAscope x.packet)) s

theorem State.placeLaunch_eq (s : State) (d i : Nat) (x : Launch) : s.placeLaunch d i x =
    ((s.withNumber d i x).acquireAll x).startBlocks i (x.runsAs (s.nextNumber d)) x.kernarg := by
  rw [State.startBlocks, Launch.blockSets_runsAs]
  rfl

theorem State.acquire_only (s : State) (c : Nat) (sc : Scope) :
    s.acquire c sc = { s with copies := (s.acquire c sc).copies } := by
  cases sc with
  | block => rw [State.acquire]; split <;> rfl
  | _ => rfl

theorem State.acquireAll_only (s : State) (x : Launch) :
    s.acquireAll x = { s with copies := (s.acquireAll x).copies } :=
  List.foldlRecOn (motive := fun t : State => t = { s with copies := t.copies }) _ _ rfl fun t ht c _ => by
    rw [State.acquire_only, ht]

theorem State.queue_withNumber (s : State) (d i q : Nat) (x : Launch) :
    (s.withNumber d i x).queue d q = s.queue d q := by
  have hqueue : (s.withNumber d i x).queue d q = _ :=
    s.queue_modDie d d q fun e => { e with placed := (s.die d).placed + 1 }
  rw [hqueue, if_pos rfl]
  rfl

section Placed
variable {x : Launch} (hx : x.threads ≤ 4096) (s : State) (d i : Nat)
include hx

theorem PlacesOnly.placeLaunch : PlacesOnly ((s.withNumber d i x).acquireAll x) (s.placeLaunch d i x) := by
  rw [State.placeLaunch_eq]
  exact .startBlocks (by rwa [Launch.threads_runsAs]) ..

theorem State.placeLaunch_frame : s.placeLaunch d i x = { s.withNumber d i x with
    cores := (s.placeLaunch d i x).cores, blocks := (s.placeLaunch d i x).blocks
    launches := (s.placeLaunch d i x).launches, upsets := (s.placeLaunch d i x).upsets
    pairs := (s.placeLaunch d i x).pairs, warps := (s.placeLaunch d i x).warps
    lanes := (s.placeLaunch d i x).lanes, copies := (s.placeLaunch d i x).copies } := by
  rw [(PlacesOnly.placeLaunch hx s d i).frame, State.acquireAll_only]

theorem State.queue_placeLaunch (q : Nat) : (s.placeLaunch d i x).queue d q = s.queue d q := by
  rw [State.placeLaunch_frame hx]
  exact s.queue_withNumber d i q x

/-- Where an access goes is not a matter of the launch that is placed. -/
theorem State.checkVa_placeLaunch (c capx : Nat) (ask : Ask) (align : Nat) (va : W64) :
    (s.placeLaunch d i x).checkVa c capx ask align va = s.checkVa c capx ask align va := by
  have hframe := State.placeLaunch_frame hx s d i
  have hfails : ∀ pa n, (s.placeLaunch d i x).failsHome pa n = s.failsHome pa n := fun pa n => by
    rw [(PlacesOnly.placeLaunch hx s d i).fails, State.acquireAll_only]
    rfl
  exact State.checkVa_congr (by rw [hframe]; rfl) hfails (by rw [hframe]; rfl) (by rw [hframe]; rfl)
    (by rw [hframe]; rfl) c capx ask align va

theorem State.find_placeLaunch :
    ∃ z, tfind (s.placeLaunch d i x).launches i = some z ∧ z.state = .running ∧ z.record = x.record ∧
      z.disp = x.ranges ∧ z.num = s.nextNumber d := by
  have hnumbered : tfind ((s.withNumber d i x).acquireAll x).launches i = some (x.runsAs (s.nextNumber d)) := by
    rw [State.acquireAll_only]
    exact (tfind_tset ..).trans (if_pos rfl)
  obtain ⟨held, hheld⟩ := (PlacesOnly.placeLaunch hx s d i).launch i _ hnumbered
  exact ⟨_, hheld, x.runsAs_fields _ held⟩

theorem blockStands_placeLaunch (hcores : x.cores.Nodup) {b c : Nat} (hbc : x.firsts[b]? = some c) :
    BlockStands s.cycles i x x.kernarg b c (s.placeLaunch d i x) := by
  have hcycles : ((s.withNumber d i x).acquireAll x).cycles = s.cycles := by rw [State.acquireAll_only]; rfl
  rw [← hcycles, State.placeLaunch_eq, ← blockStands_runsAs (s.nextNumber d)]
  exact blockStands_startBlocks (x := x.runsAs (s.nextNumber d)) (by rwa [Launch.threads_runsAs]) _ i x.kernarg
    (by rwa [Launch.cores_runsAs]) (by rwa [Launch.firsts_runsAs])

end Placed

/-! ## The queue goes on (R336) -/

theorem slotAt_eq (y : Queue) : slotAt y = y.slotVa y.qread := by
  rw [slotAt, Queue.slotVa, Queue.slots, field_eq_div_mod]
  simp

theorem writtenAt_writeBytes (m : List Host.Cell) (a : Nat) (bs : List Byte) :
    writtenAt m (Memory.writeBytes m a bs) a bs :=
  fun b => Memory.read_writeBytes m a b bs

theorem State.advance_eq {s : State} {d q : Nat} {y : Queue} (hq : s.queue d q = some y) (a : Act) :
    s.advance d q a = (s.freeSlot d y y.qread).modQueue d q fun z => wentOn z a := by
  rw [State.advance, hq]
  rfl

/-- Freeing the slot of a queue's next packet writes no more than its Q0, which is 0 then, and tests watches. -/
theorem State.freeSlot_next (s : State) (d : Nat) (y : Queue) :
    ∃ m, WatchesOnly { s with mem := m } (s.freeSlot d y y.qread) ∧ slotFreed s { s with mem := m } y := by
  obtain ⟨hmemory, hother⟩ := WatchesOnly.freeSlot s d y y.qread
  rw [← slotAt_eq] at hmemory hother
  by_cases h : ∃ pa, s.checkVa cpAgent y.capx .write 1 (slotAt y) = .inl pa ∧ isMemory pa = true
  · obtain ⟨pa, hpa, hmem⟩ := h
    refine ⟨_, hmemory pa hpa hmem, fun pb hpb _ => ?_, fun hnone => ?_⟩
    · obtain rfl : pa = pb := Sum.inl.inj (hpa.symm.trans hpb)
      exact writtenAt_writeBytes s.mem (canonPa pa) (toLe 0 8)
    · exact absurd (hnone pa hpa) (by simp [hmem])
  · have hnone : ∀ pa, s.checkVa cpAgent y.capx .write 1 (slotAt y) = .inl pa → isMemory pa = false := fun pa hpa =>
      Bool.eq_false_iff.2 fun hmem => h ⟨pa, hpa, hmem⟩
    exact ⟨s.mem, hother hnone, fun pa hpa hmem => absurd (hnone pa hpa) (by simp [hmem]), fun _ => rfl⟩

/-! ## The step (R342, R343) -/

theorem exec_launchPlace {s : State} {d q i : Nat} {x : Launch} {y : Queue} {a : Act} (hq : queueAt s d q y)
    (hhead : y.head = some a) (hgranted : s.grantedLaunch d q = some (i, x)) (hstate : x.state = .waiting) :
    exec (.launchPlace d q) s = .next ((s.placeLaunch d i x).advance d q a) := by
  obtain ⟨hd, hqn, hqueue⟩ := hq
  change execLaunchPlace d q s = _
  simp [execLaunchPlace, Config.dies, hd, hqn, hgranted, hstate, hqueue, hhead]

theorem BlockStands.blockId {now i b c : Nat} {x : Launch} {kernarg : W64} {t : State}
    (h : BlockStands now i x kernarg b c t) : t.blockId c = b := by
  rw [State.blockId, State.blockOf, h.block, h.id]
  rfl

/-- With all its cores granted, a launch is placed, and its queue goes on. -/
theorem launchPlaced {s : State} {d q i : Nat} {x : Launch} {y : Queue} {a : Act} (hq : queueAt s d q y)
    (hhead : y.head = some a) (hgranted : s.grantedLaunch d q = some (i, x)) (hstate : x.state = .waiting)
    (hcores : x.cores.Nodup) (hx : x.threads ≤ 4096) :
    ∃ t, exec (.launchPlace d q) s = .next t ∧ t.queue d q = some (wentOn y a) ∧ slotFreed s t y ∧
      (∃ z, tfind t.launches i = some z ∧ z.state = .running ∧ z.record = x.record ∧ z.disp = x.ranges ∧
        z.num = s.nextNumber d) ∧
      ∀ b c, x.firsts[b]? = some c → BlockStands s.cycles i x x.kernarg b c t := by
  have hqueue : (s.placeLaunch d i x).queue d q = some y := (State.queue_placeLaunch hx s d i q).trans hq.2.2
  obtain ⟨m, hwatches, hfreed⟩ := (s.placeLaunch d i x).freeSlot_next d y
  obtain ⟨w, hw⟩ := hwatches.queue d q y hqueue
  obtain ⟨z, hz, hfields⟩ := State.find_placeLaunch hx s d i
  obtain ⟨pool, hpool⟩ := hwatches.launch i z hz
  have hmem : (s.placeLaunch d i x).mem = s.mem := by rw [State.placeLaunch_frame hx]; rfl
  refine ⟨_, exec_launchPlace hq hhead hgranted hstate, ?_⟩
  rw [State.advance_eq hqueue]
  refine ⟨?_, ?_, ⟨{ z with pool := pool }, hpool, hfields⟩, fun b c hbc => ?_⟩
  · rw [State.queue_modQueue, hw]
    rfl
  · have hmod : (((s.placeLaunch d i x).freeSlot d y y.qread).modQueue d q fun z => wentOn z a).mem = m :=
      hwatches.mem
    simpa only [slotFreed, State.checkVa_placeLaunch hx, hmem, hmod] using hfreed
  · exact (blockStands_placeLaunch hx s d i hcores hbc).watches hwatches.cores hwatches.blocks hwatches.warps
      hwatches.lane

end Sys2Proof.Machine
end

section
/-! SUPPORT. O49 settled, from the record (R341), the requests (R339) and the placement (R342, R343). -/

namespace Sys2Proof.Machine
open Claims

/-- A LAUNCH packet whose record is right asks for its lowest core (R339, R340). -/
theorem launchAsks {s : State} {d q : Nat} {y : Queue} {a : Act} (hq : queueAt s d q y) (hhead : y.head = some a)
    (htype : (dword a.packet 0).toNat / 2 ^ 8 % 2 ^ 8 = 1) (hnone : a.launch = none)
    (hcap : ((s.die d).loadCap (recordSlot q)).allows 3 .read (dword a.packet 1) 256 = true) (hclean : s.upsets = [])
    {r : List W64} (hr : s.cpDwords y.capx (dword a.packet 1) 32 = some r) :
    ((∀ cs, ¬ recordPasses s y.capx a.packet r cs) →
      exec (.launchPacket d q) s = .next (s.stopQueue d q 0x04 y.qread)) ∧
    ∀ cs, recordPasses s y.capx a.packet r cs → s.launchOfPacket d q y a r = some (a.asked d q y r cs) ∧
      exec (.launchPacket d q) s = .next ((s.withLaunch d q a (a.asked d q y r cs)).askNext s.nextId) := by
  refine ⟨fun hrefused => ?_, fun cs hpasses => ?_⟩
  · refine exec_launchPacket_of_refused hq hhead htype hnone hcap hclean hr (Option.eq_none_iff_forall_ne_some.2 ?_)
    intro x hx
    obtain ⟨cs, hpasses, -⟩ := (s.launchOfPacket_eq_some_iff d q y a r x).1 hx
    exact hrefused cs hpasses
  · have hx := (s.launchOfPacket_eq_some_iff d q y a r _).2 ⟨cs, hpasses, rfl⟩
    exact ⟨hx, exec_launchPacket_of_right hq hhead htype hnone hcap hclean hr hx⟩

/-- Settles O49: each part from what the command processor asks of a record, from the rank of the requests at a core,
and from the placement of a launch's blocks on the cores it was granted. -/
theorem launchesStart : Obligations.LaunchesStart := by
  refine ⟨fun s d q y a hq hhead htype hnone => ⟨exec_launchPacket_of_denied hq hhead htype hnone,
    fun r hcap hclean hr => ?_⟩, fun s core is => ⟨State.firstRequest_eq_none, fun i hi => ?_⟩,
    fun s c i hc hfirst hready => ⟨fun hfree => ?_, fun j hheld hprio => ⟨?_, fun hstate => ?_⟩⟩,
    fun s d q i x y a hq hhead hgranted hstate hcores hx => ?_⟩
  · obtain ⟨hrefused, hright⟩ := launchAsks hq hhead htype hnone hcap hclean hr
    refine ⟨hrefused, fun cs hpasses => ⟨a.asked d q y r cs, (hright cs hpasses).1, rfl, fun c hc hle hnew => ?_⟩⟩
    have hprio : field (dword r 1) 49 3 = (dword r 1).toNat / 2 ^ 49 % 8 := field_eq_div_mod ..
    exact ⟨rfl, rfl, rfl, rfl, rfl, congrArg (min · y.prioCap) hprio, _, (hright cs hpasses).2,
      State.withLaunch_asks hq.2.2 rfl hc hle hnew⟩
  · obtain ⟨hmem, hway, hrank⟩ := State.firstRequest_eq_some hi
    exact ⟨hmem, hway, fun j hj hjway => State.prio_le_of_requestRank_le (hrank j hj hjway)⟩
  · exact ⟨_, exec_coreGrant_of_free hc hfirst hready hfree, s.grantCore_spec c i⟩
  · exact exec_coreGrant_of_running hc hfirst hready hheld hprio
  · exact ⟨_, exec_coreGrant_of_unplaced hc hfirst hready hheld hprio hstate, s.takeCore_spec c i j⟩
  · obtain ⟨t, hexec, hqueue, hfreed, hlaunch, hblocks⟩ := launchPlaced hq hhead hgranted hstate hcores hx
    refine ⟨t, hexec, hqueue, hfreed, hlaunch, fun b c hbc => ?_⟩
    have hstands := hblocks b c ((blockCore_eq x b).symm.trans hbc)
    exact ⟨hstands.launch, hstands.blockId, hstands.thread⟩

end Sys2Proof.Machine
end

section
/-! SUPPORT. Branches: where the lanes that branch stand, and what must stand in a clause's last slot (spec/04 R77, R84;
spec/10 R166, R167). -/

namespace Sys2Proof.Machine
open Claims

/-! ## The clause's last slot and the targets -/

theorem State.atEnd_iff (s : State) : s.atEnd = true ↔ inLastSlot s := by
  rw [State.atEnd, decide_eq_true_iff, nslot_eq]; rfl

/-- An offset's target lies below 2^48 and not below 0, or the lane takes ACCESS at it (R84). -/
theorem State.offsetTarget_eq (s : State) (off : BitVec 30) : s.offsetTarget off = offsetTo s off := by
  simp only [State.offsetTarget, offsetTo]
  by_cases h : 0 ≤ (s.group.pc.toNat : Int) + 8 * off.toInt ∧ (s.group.pc.toNat : Int) + 8 * off.toInt < 2 ^ 48
  · rw [if_pos h, if_neg (by omega)]
  · rw [if_neg h, if_pos (by omega)]; rfl

/-- A pair's target fits 48 bits and is a multiple of 8, or the lane takes ACCESS or ALIGN (R167). -/
theorem pairTarget_eq (v : W64) : pairTarget v = pairTo v := by
  have hv := v.isLt
  have high : field v 48 16 ≠ 0 ↔ 2 ^ 48 ≤ v.toNat := by rw [field_eq_div_mod]; omega
  have low : field v 0 3 ≠ 0 ↔ v.toNat % 8 ≠ 0 := by rw [field_eq_div_mod]; omega
  simp only [pairTarget, pairTo, high, low]
  rfl

/-! ## Lanes that stand at their targets -/

theorem without_without (s t : State) {ls : List Nat} (h : t.groups = without s ls) (ks : List Nat) :
    without t ks = without s (ls ++ ks) := by
  simp only [without, h, List.map_map]
  refine List.map_congr_left fun p _ => ?_
  simp only [Function.comp, List.filter_filter]
  congr 2
  refine List.filter_congr fun l _ => ?_
  by_cases hl : l ∈ ls <;> by_cases hk : l ∈ ks <;> simp [hl, hk]

/-- A lane that has branched to an address, deferred under .Y. -/
def branched (s : State) (y : Bool) (x : Lane) (a : Addr48) : Lane :=
  { standsAt s x a with defer := x.defer || y }

theorem branched_branched (s : State) (y : Bool) (x : Lane) (a : Addr48) :
    branched s y (branched s y x a) a = branched s y x a := by
  simp [branched, standsAt]

theorem State.modLane_modLane (s : State) (l : Nat) (f g : Lane → Lane) :
    (s.modLane l f).modLane l g = s.modLane l (g ∘ f) := by
  have : tmod (tmod s.lanes l f) l g = tmod s.lanes l (g ∘ f) := by
    unfold tmod
    cases h : tfind s.lanes l with
    | none => simp [h]
    | some x => simp [tset_tset_self]
  unfold State.modLane
  simp only [this]

theorem State.branch_eq (s : State) (y : Bool) (l : Nat) (a : Addr48) :
    s.branch y l a = { s.modLane l (branched s y · a) with groups := without s [l] } := by
  rw [State.branch, State.goTo, State.modLane_modLane, State.leaveGroup_eq]; rfl

/-- Lanes that branch, each to its address, leave their groups and stand there. -/
theorem State.foldl_branch (s : State) (y : Bool) (a : Nat → Addr48) (ls : List Nat) (h : ∀ l ∈ ls, s.hasLane l) :
    let t := ls.foldl (fun t l => t.branch y l (a l)) s
    t = { s with lanes := t.lanes, groups := without s ls } ∧
      ∀ l, t.lane l = if l ∈ ls then branched s y (s.lane l) (a l) else s.lane l := by
  induction ls generalizing s with
  | nil => exact ⟨by simp [without], fun l => by simp⟩
  | cons k ls ih =>
    have hfirst := s.branch_eq y k (a k)
    have hk : (s.branch y k (a k)).lane = (s.modLane k (branched s y · (a k))).lane := by rw [hfirst]; rfl
    have hcycles : branched (s.branch y k (a k)) = branched s := by rw [hfirst]; rfl
    obtain ⟨rest, lanes⟩ := ih (s.branch y k (a k)) fun l hl => by
      rw [hfirst]; exact (s.hasLane_modLane k l _).2 (h l (List.mem_cons_of_mem _ hl))
    refine ⟨?_, fun l => ?_⟩
    · rw [List.foldl_cons, rest, without_without s _ (ls := [k]) (by rw [hfirst]), hfirst]; rfl
    · rw [List.foldl_cons, lanes, hk, hcycles, s.lane_modLane k l _ (h k (List.mem_cons_self ..))]
      by_cases e : l = k
      · subst e; simp [branched_branched]
      · simp [e]

/-! ## What the lanes' targets come to -/

theorem leftsOf_map {α β : Type} (ls : List Nat) (f : Nat → α ⊕ β) (d : α) :
    leftsOf (ls.map fun l => (l, f l)) = (ls.filter fun l => (f l).isLeft).map fun l => (l, (f l).getLeft?.getD d) := by
  induction ls with
  | nil => rfl
  | cons l ls ih =>
    rw [List.map_cons, leftsOf, List.filterMap_cons, List.filter_cons]
    cases h : f l with
    | inl a => simp [← ih, leftsOf, h]
    | inr b => simp [← ih, leftsOf]

theorem rightsOf_map {α β : Type} (ls : List Nat) (f : Nat → α ⊕ β) :
    rightsOf (ls.map fun l => (l, f l)) = ls.filterMap fun l => (f l).getRight?.map fun e => (l, e) := by
  rw [rightsOf, List.filterMap_map]
  refine List.filterMap_congr fun l _ => ?_
  cases h : f l <;> simp [h]

/-- The executing lanes of a branch in the last slot stand at their targets, or take their faults. -/
theorem State.branchAll_spec {s : State} (hlast : inLastSlot s) (g : Guard) (y : Bool) (target : Nat → Addr48 ⊕ Trap) :
    let good := (s.exec g).filter fun l => (target l).isLeft
    ∃ t, s.branchAll g y target = (State.trapEach t ((s.exec g).filterMap fun l =>
        (target l).getRight?.map fun e => (l, e))).meet (s.exec g) ∧
      t = { s with lanes := t.lanes, groups := without s good } ∧
      ∀ l, t.lane l = if l ∈ good then branched s y (s.lane l) ((target l).getLeft?.getD 0) else s.lane l := by
  obtain ⟨rest, lanes⟩ := s.foldl_branch y (fun l => (target l).getLeft?.getD 0)
    ((s.exec g).filter fun l => (target l).isLeft) fun l hl => State.hasLane_of_mem_exec (List.mem_filter.1 hl).1
  refine ⟨_, ?_, rest, lanes⟩
  rw [State.branchAll, if_neg (by simp [s.atEnd_iff.2 hlast])]
  simp only [leftsOf_map _ _ (0 : Addr48), rightsOf_map, List.foldl_map]

/-! ## PLACEMENT -/

theorem State.atEnd_eq_false {s : State} (h : ¬ inLastSlot s) : s.atEnd = false :=
  Bool.eq_false_iff.2 (mt s.atEnd_iff.1 h)

/-- A control transfer before the last slot takes PLACEMENT in every lane of the group (R77). -/
theorem exec_misplaced {i : Instr} {s : State} (hi : lastOnly i) (h : ¬ inLastSlot s) :
    exec i s = .next s.misplaced := by
  have hend : (!s.atEnd) = true := by rw [State.atEnd_eq_false h]; rfl
  cases i with
  | bra g off y => exact congrArg _ (if_pos hend)
  | brx g o y => exact congrArg _ (if_pos hend)
  | call g off => exact congrArg _ (if_pos hend)
  | callx g o => exact congrArg _ (if_pos hend)
  | ret g => exact if_pos hend
  | exit g => exact if_pos hend
  | bar g idx level => exact if_pos hend
  | _ => cases hi

/-- RTT finds no lane that it denies where each is privileged or in the user handler. -/
theorem State.denyRtt_eq_self {s : State}
    (h : ∀ l ∈ s.group.lanes, (s.lane l).priv.getLsbD 0 = true ∨ (s.lane l).hmode = .user) : s.denyRtt = s := by
  have none : (s.group.lanes.filter fun l => !(s.lane l).privileged && (s.lane l).hmode != .user) = [] := by
    refine List.filter_eq_nil_iff.2 fun l hl => ?_
    rcases h l hl with h | h
    · simp [Lane.privileged, h]
    · simp [h]
  rw [State.denyRtt, none]; rfl

theorem exec_rtt_misplaced {s : State} {g : Guard} (h : ¬ inLastSlot s)
    (hmode : ∀ l ∈ s.group.lanes, (s.lane l).priv.getLsbD 0 = true ∨ (s.lane l).hmode = .user) :
    exec (.rtt g) s = .next s.misplaced := by
  change execRtt g s = _
  rw [execRtt, State.denyRtt_eq_self hmode]
  exact if_pos (by rw [State.atEnd_eq_false h]; rfl)

/-- Is the operand a literal? -/
def isLit : Operand → Bool
  | .lit _ => true
  | _ => false

theorem isLit_eq_false {x : Operand} (h : ∀ v, x = .lit v → False) : isLit x = false := by
  cases x with
  | lit v => exact (h v rfl).elim
  | _ => rfl

/-- The last slot of an instruction with operands: a literal is a slot more (R77). -/
theorem State.lastSlot_iff (s : State) (o : Ops) :
    s.lastSlot o = true ↔ s.group.slot + (if [o.a, o.b, o.c].any isLit then 1 else 0)
      = s.group.header.toNat / 2 ^ 52 % 16 := by
  rw [← nslot_eq, State.lastSlot, decide_eq_true_iff]
  split
  next ha => simp [ha, isLit]
  next hb _ => simp [hb, isLit]
  next hc _ _ => simp [hc, isLit]
  next ha hb hc => simp [isLit_eq_false ha, isLit_eq_false hb, isLit_eq_false hc]

/-- A branch moves its executing lanes to the targets that its rule names. -/
theorem exec_branch {i : Instr} {s : State} {g : Guard} {target : Nat → Addr48 ⊕ Trap} {y : Bool}
    (h : branchRule s i = some (g, target, y)) : exec i s = .next (s.branchAll g y target) := by
  cases i with
  | bra g off y =>
    cases h
    change execBra g off y s = _
    simp only [execBra, State.offsetTarget_eq]
  | brx g o y =>
    cases h
    change execBrx g o y s = _
    simp only [execBrx, pairTarget_eq]
  | _ => cases h

/-- Settles O32: a branch by the state in which its lanes stand at their targets; PLACEMENT by the test of the last slot
that each of the instructions begins with. -/
theorem branches : Obligations.Branches := by
  refine ⟨fun i s g target y hi hlast => ?_, fun i s hi h => exec_misplaced hi h,
    fun s g h hmode => exec_rtt_misplaced h hmode, fun s g o sc w64 cmp try_ => ⟨s.lastSlot_iff o, fun h => ?_⟩⟩
  · obtain ⟨t, hbranch, hrest⟩ := State.branchAll_spec hlast g y target
    exact ⟨t, by rw [exec_branch hi, hbranch], hrest⟩
  · have misplaced : (!s.lastSlot o) = true := by rw [h]; rfl
    exact ⟨if_pos misplaced, if_pos misplaced⟩

end Sys2Proof.Machine
end

section
/-! SUPPORT. BAR of a block whose leader no barrier key can hold (spec/10 R171, R172). -/

namespace Sys2Proof.Machine
open Claims

/-! ## Meetings change lanes alone -/

theorem onlyLanes_evalMeeting (s : State) (w : Nat) (m : Addr48) : onlyLanes s (s.evalMeeting w m) := by
  simp only [State.evalMeeting]
  split
  · exact onlyLanes_foldl _ (fun t l => onlyLanes_modLane t l _) _ s
  · exact .refl s

theorem onlyLanes_meet (s : State) (ls : List Nat) : onlyLanes s (s.meet ls) :=
  onlyLanes_foldl _ (fun t w => onlyLanes_foldl _ (fun u m => onlyLanes_evalMeeting u w m) _ t) _ s

theorem State.copies_meet (s : State) (ls : List Nat) : (s.meet ls).copies = s.copies := by rw [onlyLanes_meet s ls]

/-! ## A leader of 2^20 -/

/-- A core alone in its block, whose leader is numbered 2^20: its one lane, a member, stands at the last slot of a
clause with its release done, and its L1 holds a line under a lease. -/
def farLeader : State where
  lanes := [(0, { status := .inFlight, member := true })]
  cores := [(0, { launch := some 0, block := some (2 ^ 20) })]
  launches := [(0, { cores := [0] })]
  groups := [(0, { lanes := [0], pc := 0, header := 0, words := [], released := true })]
  copies := [{ cache := .l1 0, line := 0, leaseEnd := 0 }]
  cur := some 0

theorem barMembers_farLeader : barMembers farLeader ⟨false, 7⟩ = [0] := by decide

theorem mayIssue_farLeader (ws : List Nat) (sc : Scope) : mayIssue farLeader ws [] 0 (some sc) :=
  ⟨fun _ _ => ⟨nofun, rfl⟩, by decide, fun _ _ => .inl rfl⟩

/-- The key of this block's barrier reads as a cluster's, whose acquire drops the lease. -/
theorem exec_bar_farLeader : ∃ t, exec (.bar ⟨false, 7⟩ 0 .block) farLeader = .next t ∧ t.copies = [] :=
  ⟨_, rfl, by decide⟩

/-- An acquire at BLOCK scope drops nothing at a core that is alone in its block (R208). -/
theorem dropped_block_of_alone {s : State} {c : Nat} (h : s.blockCores c = [c]) (d : Nat) :
    dropped s d .block (.l1 c) = false := by
  by_cases e : c = d
  · subst e; simp [dropped, h]
  · simp [dropped, e]

/-- A block's barrier that is tested drops no lease of a core that is alone in its block. -/
theorem copies_of_opened {s t : State} {i key c : Nat} (h : Opened s i .block key t) (hc : s.blockCores c = [c])
    (hcopies : ∀ x ∈ s.copies, x.cache = .l1 c) : t.copies = s.copies := by
  by_cases harrived : allArrived s i key
  · obtain ⟨v, rfl, hv, -, -⟩ := h.2 harrived
    rw [State.copies_meet, hv]
    refine List.filter_eq_self.2 fun x hx => ?_
    simp [hcopies x hx, dropped_block_of_alone hc]
  · rw [h.1 harrived]

/-- Refutes O33, by its clause on BAR: a barrier's key holds its level above 20 bits of the warp, leader or cluster, and
the statement binds no core's leader to 20 bits there. With a leader of 2^20 the key of BAR.BLOCK reads back as a
cluster barrier's, so its opening acquires at CLUSTER scope, which drops the L1 leases that an acquire at BLOCK scope
keeps for a block on one core. -/
theorem not_meetingsAndBarriers : ¬ Obligations.MeetingsAndBarriers := by
  unfold Obligations.MeetingsAndBarriers
  rintro ⟨-, -, -, bar, -⟩
  obtain ⟨u, v, hexec, harrived, hopened⟩ := bar farLeader ⟨false, 7⟩ 0 .block 0 rfl rfl rfl (mayIssue_farLeader ..)
  obtain ⟨t, ht, hdropped⟩ := exec_bar_farLeader
  rw [barMembers_farLeader] at harrived hopened
  have hcopies : u.copies = farLeader.copies := by rw [harrived.rest]
  have halone : u.blockCores 0 = [0] := by rw [harrived.rest]; rfl
  have hkept : v.copies = u.copies := by
    cases hopened with
    | lane act rest =>
      cases rest
      exact copies_of_opened act halone fun x hx => by
        rw [hcopies] at hx
        rw [List.mem_singleton.1 hx]
  cases ht.symm.trans hexec
  rw [State.copies_meet, hkept, hcopies] at hdropped
  cases hdropped

end Sys2Proof.Machine
end

section
/-! SUPPORT. The dispenser's ranges: what a position taken leaves, and whose range it comes from (spec/10 R175, R177,
R178). -/

namespace Sys2Proof.Machine
open Claims

/-! ## The ranges -/

/-- The range of a number; an empty one where the dispenser has none. -/
def Launch.range (x : Launch) (j : Nat) : Nat × Nat := x.disp.getD j (0, 0)

/-- The range from which a request of a core is served first: its own die's under DIE. -/
def Launch.ownRange (x : Launch) (core : Nat) : Nat := if x.order = 3 then x.dies.findIdx (· == core / 192) else 0

/-- Is there a position left in a range? -/
def Launch.rangeLeft (x : Launch) (j : Nat) : Bool := (x.range j).1 < (x.range j).2

/-- A range that is not empty is one of the dispenser's. -/
theorem Launch.lt_of_rangeLeft {x : Launch} {j : Nat} (h : x.rangeLeft j = true) : j < x.disp.length := by
  by_contra hj
  rw [Launch.rangeLeft, Launch.range, List.getD_eq_default _ _ (Nat.not_lt.1 hj)] at h
  cases h

theorem Launch.range_eq_getElem {x : Launch} {j : Nat} (h : j < x.disp.length) : x.range j = x.disp[j] :=
  List.getD_eq_getElem ..

/-- A position is still to be given when some range of the dispenser holds it. -/
theorem toGive_iff (x : Launch) (n : Nat) :
    toGive x n ↔ ∃ j, j < x.disp.length ∧ (x.range j).1 ≤ n ∧ n < (x.range j).2 := by
  simp only [toGive, List.mem_iff_getElem]
  constructor
  · rintro ⟨r, ⟨j, hj, rfl⟩, hn⟩
    exact ⟨j, hj, by rwa [Launch.range_eq_getElem hj]⟩
  · rintro ⟨j, hj, hn⟩
    exact ⟨_, ⟨j, hj, rfl⟩, by rwa [← Launch.range_eq_getElem hj]⟩

/-! ## The other ranges in their order (R177) -/

theorem triedDie_even (k j i : Nat) : triedDie k j (2 * i) = (j + i + 1) % k := by
  rw [triedDie, if_pos (by omega), Nat.mul_div_cancel_left _ (by decide)]

theorem triedDie_odd {k : Nat} (hk : 0 < k) (j i : Nat) : triedDie k j (2 * i + 1) = (j + k - (i + 1) % k) % k := by
  have hhalf : (2 * i + 1) / 2 = i := by omega
  have hmod : (i + 1) % k < k := Nat.mod_lt _ hk
  have hdiv : (i + 1) / k * k + (i + 1) % k = i + 1 := Nat.div_add_mod' ..
  have hle : i + 1 ≤ k * (i + 1) := Nat.le_mul_of_pos_left _ hk
  have hquot : (i + 1) / k ≤ i + 1 := Nat.div_le_self ..
  rw [triedDie, if_neg (by omega), hhalf]
  have hsum : j + k * (2 * i + 1 + 1) - (i + 1) = (j + k - (i + 1) % k) + k * (2 * i + 1 - (i + 1) / k) := by
    have hsplit : k * (2 * i + 1 + 1) = k + k * (2 * i + 1 - (i + 1) / k) + (i + 1) / k * k := by
      rw [Nat.mul_sub, Nat.mul_comm ((i + 1) / k) k]
      have : k * ((i + 1) / k) ≤ k * (2 * i + 1) := Nat.mul_le_mul_left _ (by omega)
      rw [Nat.mul_add k (2 * i + 1) 1]
      omega
    omega
  rw [hsum, Nat.add_mul_mod_self_left]

/-- The ranges that a request tries once its own is empty, as the statement numbers them. -/
theorem otherDies_eq_map (k j : Nat) : otherDies k j = (List.range (2 * k)).map (triedDie k j) := by
  have hpairs : ∀ m, m ≤ k → ((List.range m).flatMap fun i => [(j + i + 1) % k, (j + k - (i + 1) % k) % k]) =
      (List.range (2 * m)).map (triedDie k j) := by
    intro m
    induction m with
    | zero => intro; rfl
    | succ m ih =>
      intro hm
      rw [List.range_succ, List.flatMap_append, ih (by omega), Nat.mul_succ, List.range_succ, List.range_succ]
      simp [triedDie_even, triedDie_odd (show 0 < k by omega)]
  exact hpairs k (Nat.le_refl k)

/-- Every range is tried. -/
theorem mem_otherDies {k i : Nat} (j : Nat) (h : i < k) : i ∈ otherDies k j := by
  refine List.mem_flatMap.2 ⟨(i + k - (j + 1) % k) % k, List.mem_range.2 (Nat.mod_lt _ (by omega)), ?_⟩
  have hmod : (j + 1) % k < k := Nat.mod_lt _ (by omega)
  have hcongr : j + (i + k - (j + 1) % k) % k + 1 ≡ i [MOD k] := by
    have hdiv : (j + 1) / k * k + (j + 1) % k = j + 1 := Nat.div_add_mod' ..
    calc j + (i + k - (j + 1) % k) % k + 1
        ≡ j + (i + k - (j + 1) % k) + 1 [MOD k] := ((Nat.mod_modEq _ _).add_left j).add_right 1
      _ = i + k * ((j + 1) / k + 1) := by rw [Nat.mul_add, Nat.mul_comm k]; omega
      _ ≡ i [MOD k] := by rw [Nat.ModEq, Nat.add_mul_mod_self_left]
  have hfirst : (j + (i + k - (j + 1) % k) % k + 1) % k = i := Eq.trans hcongr (Nat.mod_eq_of_lt h)
  rw [hfirst]
  exact List.mem_cons_self ..

/-! ## What a request takes -/

/-- A dispenser without the front position of a range. -/
def Launch.takeFront (x : Launch) (j : Nat) : Launch :=
  { x with disp := x.disp.set j ((x.range j).1 + 1, (x.range j).2) }

/-- A dispenser without the back position of a range. -/
def Launch.takeBack (x : Launch) (j : Nat) : Launch :=
  { x with disp := x.disp.set j ((x.range j).1, (x.range j).2 - 1) }

theorem Launch.take_eq (x : Launch) (core : Nat) :
    x.take core = if x.rangeLeft (x.ownRange core) then
        some ((x.range (x.ownRange core)).1, x.takeFront (x.ownRange core))
      else ((otherDies x.disp.length (x.ownRange core)).find? x.rangeLeft).map fun j =>
        ((x.range j).2 - 1, x.takeBack j) := by
  change (if x.rangeLeft (x.ownRange core) = true then _ else _) = _
  split
  · rfl
  · change (match (otherDies x.disp.length (x.ownRange core)).find? x.rangeLeft with
      | some i => some ((x.range i).2 - 1, x.takeBack i)
      | none => none) = _
    cases (otherDies x.disp.length (x.ownRange core)).find? x.rangeLeft <;> rfl

/-- A request is served from the front of its own range, or from the back of the first of the others that is not
empty. -/
theorem Launch.take_cases {x y : Launch} {core n : Nat} (h : x.take core = some (n, y)) :
    (x.rangeLeft (x.ownRange core) = true ∧ n = (x.range (x.ownRange core)).1 ∧ y = x.takeFront (x.ownRange core)) ∨
    (x.rangeLeft (x.ownRange core) = false ∧
      ∃ j, (otherDies x.disp.length (x.ownRange core)).find? x.rangeLeft = some j ∧
        n = (x.range j).2 - 1 ∧ y = x.takeBack j) := by
  rw [Launch.take_eq] at h
  split at h
  next hown => cases h; exact .inl ⟨hown, rfl, rfl⟩
  next hown =>
    obtain ⟨j, hj, he⟩ := Option.map_eq_some_iff.1 h
    cases he
    exact .inr ⟨Bool.eq_false_iff.2 hown, j, hj, rfl, rfl⟩

/-- No range is left when a request finds nothing. -/
theorem Launch.rangeLeft_of_take_eq_none {x : Launch} {core : Nat} (h : x.take core = none) (j : Nat) :
    x.rangeLeft j = false := by
  rw [Launch.take_eq] at h
  split at h
  · cases h
  · refine Bool.eq_false_iff.2 fun hleft => ?_
    have hnone := List.find?_eq_none.1 (Option.map_eq_none_iff.1 h)
    exact hnone j (mem_otherDies _ (Launch.lt_of_rangeLeft hleft)) hleft

theorem not_toGive_of_take_eq_none {x : Launch} {core : Nat} (h : x.take core = none) (n : Nat) : ¬ toGive x n := by
  rw [toGive_iff]
  rintro ⟨j, -, hle, hlt⟩
  have := x.rangeLeft_of_take_eq_none h j
  rw [Launch.rangeLeft, decide_eq_false_iff_not] at this
  omega

/-- The position found by trying the other ranges in turn. -/
theorem exists_triedDie {x : Launch} {j i : Nat} (h : (otherDies x.disp.length j).find? x.rangeLeft = some i) :
    ∃ q, i = triedDie x.disp.length j q ∧ x.rangeLeft i = true ∧
      ∀ p < q, x.rangeLeft (triedDie x.disp.length j p) = false := by
  rw [otherDies_eq_map] at h
  obtain ⟨hleft, q, hq, hi, hbefore⟩ := List.find?_eq_some_iff_getElem.1 h
  refine ⟨q, by simpa using hi.symm, hleft, fun p hp => ?_⟩
  simpa using hbefore p hp

/-! ## A position is given once -/

theorem Launch.range_set {x : Launch} {j : Nat} (h : j < x.disp.length) (r : Nat × Nat) (i : Nat) :
    ({ x with disp := x.disp.set j r } : Launch).range i = if i = j then r else x.range i := by
  simp only [Launch.range, List.getD_eq_getElem?_getD, List.getElem?_set]
  by_cases e : i = j
  · subst e; simp [h]
  · simp [e, Ne.symm e]

/-- No two ranges of the dispenser hold the same position. -/
def Launch.rangesApart (x : Launch) : Prop :=
  x.disp.Pairwise fun a b => ∀ k, ¬ (a.1 ≤ k ∧ k < a.2 ∧ b.1 ≤ k ∧ k < b.2)

/-- A position stands in one range only. -/
theorem Launch.rangesApart.eq {x : Launch} (h : x.rangesApart) {i j k : Nat} (hi : i < x.disp.length)
    (hj : j < x.disp.length) (hik : (x.range i).1 ≤ k ∧ k < (x.range i).2)
    (hjk : (x.range j).1 ≤ k ∧ k < (x.range j).2) :
    i = j := by
  rw [Launch.range_eq_getElem hi] at hik
  rw [Launch.range_eq_getElem hj] at hjk
  have apart := List.pairwise_iff_getElem.1 h
  rcases Nat.lt_trichotomy i j with hlt | rfl | hlt
  · exact absurd ⟨hik.1, hik.2, hjk.1, hjk.2⟩ (apart i j hi hj hlt k)
  · rfl
  · exact absurd ⟨hjk.1, hjk.2, hik.1, hik.2⟩ (apart j i hj hi hlt k)

/-- A range that loses one position, its others kept, takes that position from what is to be given, and no other. -/
theorem toGive_set {x : Launch} (apart : x.rangesApart) {j n : Nat} {r : Nat × Nat} (hj : j < x.disp.length)
    (hn : (x.range j).1 ≤ n ∧ n < (x.range j).2)
    (hr : ∀ m, r.1 ≤ m ∧ m < r.2 ↔ ((x.range j).1 ≤ m ∧ m < (x.range j).2) ∧ m ≠ n) (m : Nat) :
    toGive { x with disp := x.disp.set j r } m ↔ toGive x m ∧ m ≠ n := by
  simp only [toGive_iff, Launch.range_set hj, List.length_set]
  constructor
  · rintro ⟨i, hi, him⟩
    by_cases e : i = j
    · rw [if_pos e] at him
      obtain ⟨hm, hne⟩ := (hr m).1 him
      exact ⟨⟨j, hj, hm⟩, hne⟩
    · rw [if_neg e] at him
      refine ⟨⟨i, hi, him⟩, ?_⟩
      rintro rfl
      exact e (apart.eq hi hj him hn)
  · rintro ⟨⟨i, hi, him⟩, hne⟩
    by_cases e : i = j
    · subst e; exact ⟨i, hi, by rw [if_pos rfl]; exact (hr m).2 ⟨him, hne⟩⟩
    · exact ⟨i, hi, by rwa [if_neg e]⟩

/-- The position that a request is given was still to be given, and alone is so no more. -/
theorem Launch.take_gives {x y : Launch} {core n : Nat} (apart : x.rangesApart) (h : x.take core = some (n, y)) :
    y = { x with disp := y.disp } ∧ toGive x n ∧ ∀ m, toGive y m ↔ toGive x m ∧ m ≠ n := by
  rcases Launch.take_cases h with ⟨hleft, rfl, rfl⟩ | ⟨-, j, hfind, rfl, rfl⟩
  · have hj := Launch.lt_of_rangeLeft hleft
    have hlt := of_decide_eq_true hleft
    refine ⟨rfl, (toGive_iff ..).2 ⟨_, hj, by omega⟩, toGive_set apart hj (by omega) fun m => ?_⟩
    dsimp only; omega
  · have hleft := List.find?_some hfind
    have hj := Launch.lt_of_rangeLeft hleft
    have hlt := of_decide_eq_true hleft
    refine ⟨rfl, (toGive_iff ..).2 ⟨j, hj, by omega⟩, toGive_set apart hj (by omega) fun m => ?_⟩
    dsimp only; omega

/-- Whose range the position given comes from (R177). -/
theorem Launch.take_from {x y : Launch} {core n : Nat} (h : x.take core = some (n, y)) :
    let own := x.ownRange core
    let other := triedDie x.disp.length own
    ((x.range own).1 < (x.range own).2 → n = (x.range own).1) ∧
    ((x.range own).2 ≤ (x.range own).1 → ∃ q, n = (x.range (other q)).2 - 1 ∧
      (x.range (other q)).1 < (x.range (other q)).2 ∧ ∀ p < q, (x.range (other p)).2 ≤ (x.range (other p)).1) := by
  rcases Launch.take_cases h with ⟨hleft, hn, -⟩ | ⟨hempty, j, hfind, hn, -⟩
  · have hlt := of_decide_eq_true hleft
    exact ⟨fun _ => hn, fun hle => absurd hlt (Nat.not_lt.2 hle)⟩
  · have hnlt := of_decide_eq_false hempty
    obtain ⟨q, rfl, hleft, hbefore⟩ := exists_triedDie hfind
    exact ⟨fun hlt => absurd hlt hnlt, fun _ => ⟨q, hn, of_decide_eq_true hleft,
      fun p hp => Nat.not_lt.1 (of_decide_eq_false (hbefore p hp))⟩⟩

end Sys2Proof.Machine
end

section
/-! SUPPORT. The launch's order: the dies' ranges, the items by position, and the plane in Morton order (spec/10 R176,
R177). -/

namespace Sys2Proof.Machine
open Claims

/-! ## The dies and their ranges (R177) -/

theorem eraseDups_pairwise_lt {ls : List Nat} (h : ls.Pairwise (· ≤ ·)) : ls.eraseDups.Pairwise (· < ·) := by
  match ls with
  | [] => simp
  | l :: ls =>
    obtain ⟨hle, hrest⟩ := List.pairwise_cons.1 h
    rw [List.eraseDups_cons, List.pairwise_cons]
    refine ⟨fun m hm => ?_, eraseDups_pairwise_lt (hrest.filter _)⟩
    obtain ⟨hmem, hne⟩ := List.mem_filter.1 (List.mem_eraseDups.1 hm)
    have hne : m ≠ l := by simpa using hne
    have := hle m hmem
    omega
termination_by ls.length
decreasing_by
  have := List.length_filter_le (fun b => !b == l) ls
  simp only [List.length_cons]; omega

theorem Launch.dies_pairwise (x : Launch) : x.dies.Pairwise (· < ·) := eraseDups_pairwise_lt (sortLanes_pairwise _)

theorem Launch.mem_dies (x : Launch) (d : Nat) : d ∈ x.dies ↔ ∃ c ∈ x.cores ++ x.held, c / 192 = d := by
  rw [Launch.dies, List.mem_eraseDups, mem_sortLanes, List.mem_map]; rfl

theorem Launch.ranges_of_die {x : Launch} (h : x.order = 3) :
    x.ranges = (List.range x.dies.length).map fun j =>
      (x.items * j / x.dies.length, x.items * (j + 1) / x.dies.length) :=
  if_pos h

theorem Launch.ranges_of_not_die {x : Launch} (h : x.order ≠ 3) : x.ranges = [(0, x.items)] := if_neg h

/-! ## The items by position (R176) -/

theorem Launch.item_row {x : Launch} (h : x.order = 0) (n : Nat) :
    x.item n = [BitVec.ofNat 32 (n % x.extent 0), BitVec.ofNat 32 (n / x.extent 0 % x.extent 1),
      BitVec.ofNat 32 (n / (x.extent 0 * x.extent 1))] := by simp only [Launch.item, h, List.map]

theorem Launch.item_col {x : Launch} (h : x.order = 1) (n : Nat) :
    x.item n = [BitVec.ofNat 32 (n / x.extent 1 % x.extent 0), BitVec.ofNat 32 (n % x.extent 1),
      BitVec.ofNat 32 (n / (x.extent 0 * x.extent 1))] := by simp only [Launch.item, h, List.map]

/-- MORTON and DIE give the plane in Morton order. -/
theorem Launch.item_morton {x : Launch} (h : 2 ≤ x.order) (n : Nat) :
    let p := mortonAt (x.extent 0) (x.extent 1) 32 0 0 (n % (x.extent 0 * x.extent 1))
    x.item n = [BitVec.ofNat 32 p.1, BitVec.ofNat 32 p.2, BitVec.ofNat 32 (n / (x.extent 0 * x.extent 1))] := by
  obtain ⟨k, hk⟩ := Nat.exists_eq_add_of_le h
  rw [Nat.add_comm] at hk
  simp only [Launch.item, hk, List.map]

/-! ## The Morton code, bit by bit -/

/-- A coordinate's bits spread to the even places of a code. -/
def spread (x : Nat) : Nat := ∑ k ∈ Finset.range 32, if x.testBit k then 4 ^ k else 0

theorem morton_eq (x y : Nat) : morton x y = spread x + 2 * spread y := by
  have hsum : morton x y = ∑ k ∈ Finset.range 32, ((if x.testBit k then 4 ^ k else 0) +
      if y.testBit k then 2 * 4 ^ k else 0) := rfl
  rw [hsum, Finset.sum_add_distrib, spread, spread, Finset.mul_sum]
  simp only [mul_ite, mul_zero]

/-- A bit set above a coordinate's lower bits adds its place in the code. -/
theorem spread_add {x k : Nat} (hk : k < 32) (h : 2 ^ (k + 1) ∣ x) : spread (x + 2 ^ k) = spread x + 4 ^ k := by
  obtain ⟨m, rfl⟩ := h
  have hbit (j : Nat) : (2 ^ (k + 1) * m + 2 ^ k).testBit j = ((2 ^ (k + 1) * m).testBit j || decide (k = j)) := by
    rw [Nat.two_pow_add_eq_or_of_lt (Nat.pow_lt_pow_right (by decide) (Nat.lt_succ_self k)), Nat.testBit_or,
      Nat.testBit_two_pow]
  have hclear : (2 ^ (k + 1) * m).testBit k = false := by
    rw [Nat.testBit_two_pow_mul]; simp
  have hplace : (4 : Nat) ^ k = ∑ j ∈ Finset.range 32, if j = k then 4 ^ j else 0 := by
    rw [Finset.sum_ite_eq' (Finset.range 32) k, if_pos (Finset.mem_range.2 hk)]
  rw [spread, spread, hplace, ← Finset.sum_add_distrib]
  refine Finset.sum_congr rfl fun j _ => ?_
  by_cases e : j = k
  · subst e; simp [hbit, hclear]
  · simp [hbit, e, Ne.symm e]

/-! ## Squares of the plane -/

/-- The code of the point at a position of a square. -/
def codeAt (ex ey k x0 y0 n : Nat) : Nat := morton (mortonAt ex ey k x0 y0 n).1 (mortonAt ex ey k x0 y0 n).2

/-- A position within a square's count names a point of the square that lies in the plane, and later positions have
higher codes. -/
structure SquareOrdered (ex ey k x0 y0 : Nat) : Prop where
  inside : ∀ n < mortonCount ex ey k x0 y0, (mortonAt ex ey k x0 y0 n).1 < ex ∧ (mortonAt ex ey k x0 y0 n).2 < ey ∧
    morton x0 y0 ≤ codeAt ex ey k x0 y0 n ∧ codeAt ex ey k x0 y0 n < morton x0 y0 + 4 ^ k
  rising : ∀ n m, n < m → m < mortonCount ex ey k x0 y0 → codeAt ex ey k x0 y0 n < codeAt ex ey k x0 y0 m

/-- A square's points are those of its quarters. -/
theorem mortonCount_succ (ex ey k x0 y0 : Nat) : mortonCount ex ey (k + 1) x0 y0 =
    mortonCount ex ey k x0 y0 + mortonCount ex ey k (x0 + 2 ^ k) y0 + mortonCount ex ey k x0 (y0 + 2 ^ k) +
      mortonCount ex ey k (x0 + 2 ^ k) (y0 + 2 ^ k) := by
  have halves (e a : Nat) : min (2 ^ (k + 1)) (e - a) = min (2 ^ k) (e - a) + min (2 ^ k) (e - (a + 2 ^ k)) := by
    rw [Nat.pow_succ]; omega
  simp only [mortonCount, halves]
  ring

theorem squareOrdered_zero (ex ey x0 y0 : Nat) : SquareOrdered ex ey 0 x0 y0 := by
  have hcount {n : Nat} (h : n < mortonCount ex ey 0 x0 y0) : n = 0 ∧ x0 < ex ∧ y0 < ey := by
    have hle : mortonCount ex ey 0 x0 y0 ≤ 1 := Nat.mul_le_mul (Nat.min_le_left 1 _) (Nat.min_le_left 1 _)
    have hpos : 0 < mortonCount ex ey 0 x0 y0 := by omega
    have hx := Nat.pos_of_mul_pos_right hpos
    have hy := Nat.pos_of_mul_pos_left hpos
    omega
  refine ⟨fun n hn => ?_, fun n m hnm hm => ?_⟩
  · obtain ⟨-, hx, hy⟩ := hcount hn
    exact ⟨hx, hy, Nat.le_refl _, Nat.lt_succ_self _⟩
  · have := (hcount hm).1
    omega

section Quarters
variable (ex ey k x0 y0 : Nat)

/-- The corner of a square's quarter; the quarters are numbered as the square's code takes them, x first. -/
def corner (q : Nat) : Nat × Nat := (x0 + q % 2 * 2 ^ k, y0 + q / 2 * 2 ^ k)

/-- Points of a quarter that lie in the plane. -/
def quarterCount (q : Nat) : Nat := mortonCount ex ey k (corner k x0 y0 q).1 (corner k x0 y0 q).2

/-- The position at which a quarter begins. -/
def quarterStart (q : Nat) : Nat := ((List.range q).map (quarterCount ex ey k x0 y0)).sum

theorem quarterStart_succ (q : Nat) :
    quarterStart ex ey k x0 y0 (q + 1) = quarterStart ex ey k x0 y0 q + quarterCount ex ey k x0 y0 q := by
  rw [quarterStart, List.range_succ, List.map_append, List.sum_append]; simp [quarterStart]

theorem quarterStart_mono : Monotone (quarterStart ex ey k x0 y0) :=
  monotone_nat_of_le_succ fun q => by rw [quarterStart_succ]; exact Nat.le_add_right ..

/-- A position of a square is a position of one of its quarters. -/
theorem exists_quarter {n : Nat} (h : n < mortonCount ex ey (k + 1) x0 y0) : ∃ q < 4,
    quarterStart ex ey k x0 y0 q ≤ n ∧ n < quarterStart ex ey k x0 y0 q + quarterCount ex ey k x0 y0 q ∧
    mortonAt ex ey (k + 1) x0 y0 n =
      mortonAt ex ey k (corner k x0 y0 q).1 (corner k x0 y0 q).2 (n - quarterStart ex ey k x0 y0 q) := by
  rw [mortonCount_succ] at h
  have h0 : quarterStart ex ey k x0 y0 0 = 0 := rfl
  have c0 : quarterCount ex ey k x0 y0 0 = mortonCount ex ey k x0 y0 := by simp [quarterCount, corner]
  have c1 : quarterCount ex ey k x0 y0 1 = mortonCount ex ey k (x0 + 2 ^ k) y0 := by simp [quarterCount, corner]
  have c2 : quarterCount ex ey k x0 y0 2 = mortonCount ex ey k x0 (y0 + 2 ^ k) := by simp [quarterCount, corner]
  have c3 : quarterCount ex ey k x0 y0 3 = mortonCount ex ey k (x0 + 2 ^ k) (y0 + 2 ^ k) := by
    simp [quarterCount, corner]
  have s1 : quarterStart ex ey k x0 y0 1 = _ := quarterStart_succ ex ey k x0 y0 0
  have s2 : quarterStart ex ey k x0 y0 2 = _ := quarterStart_succ ex ey k x0 y0 1
  have s3 : quarterStart ex ey k x0 y0 3 = _ := quarterStart_succ ex ey k x0 y0 2
  simp only [mortonAt]
  split
  next => exact ⟨0, by decide, by omega, by omega, by simp [corner, h0]⟩
  next =>
    split
    next => exact ⟨1, by decide, by omega, by omega, by simp [corner, s1, h0, c0]⟩
    next =>
      split
      next => exact ⟨2, by decide, by omega, by omega, by simp [corner, s2, s1, h0, c0, c1, Nat.sub_sub]⟩
      next => exact ⟨3, by decide, by omega, by omega, by simp [corner, s3, s2, s1, h0, c0, c1, c2, Nat.sub_sub]⟩

variable {k x0 y0}

/-- Each quarter's codes begin 4^k after those of the one before. -/
theorem morton_corner (hk : k < 32) (hx : 2 ^ (k + 1) ∣ x0) (hy : 2 ^ (k + 1) ∣ y0) {q : Nat} (hq : q < 4) :
    morton (corner k x0 y0 q).1 (corner k x0 y0 q).2 = morton x0 y0 + q * 4 ^ k := by
  have hxs := spread_add hk hx
  have hys := spread_add hk hy
  interval_cases q <;> simp [corner, morton_eq, hxs, hys] <;> ring

theorem dvd_corner (hx : 2 ^ (k + 1) ∣ x0) (hy : 2 ^ (k + 1) ∣ y0) (q : Nat) :
    2 ^ k ∣ (corner k x0 y0 q).1 ∧ 2 ^ k ∣ (corner k x0 y0 q).2 :=
  ⟨((pow_dvd_pow 2 k.le_succ).trans hx).add (Dvd.intro_left _ rfl),
    ((pow_dvd_pow 2 k.le_succ).trans hy).add (Dvd.intro_left _ rfl)⟩

/-- A square is ordered when its quarters are: within a quarter by the quarter, between two by their corners' codes. -/
theorem squareOrdered_succ (hk : k < 32) (hx : 2 ^ (k + 1) ∣ x0) (hy : 2 ^ (k + 1) ∣ y0)
    (ih : ∀ q, SquareOrdered ex ey k (corner k x0 y0 q).1 (corner k x0 y0 q).2) :
    SquareOrdered ex ey (k + 1) x0 y0 := by
  refine ⟨fun n hn => ?_, fun n m hnm hm => ?_⟩
  · obtain ⟨q, hq, hle, hlt, hat⟩ := exists_quarter ex ey k x0 y0 hn
    rw [quarterCount] at hlt
    obtain ⟨hxin, hyin, hlow, hhigh⟩ := (ih q).inside (n - quarterStart ex ey k x0 y0 q) (by omega)
    rw [morton_corner hk hx hy hq] at hlow hhigh
    have hbound : q * 4 ^ k + 4 ^ k ≤ 4 ^ (k + 1) := by
      rw [← Nat.succ_mul, Nat.pow_succ', Nat.succ_eq_add_one]; exact Nat.mul_le_mul_right _ hq
    rw [codeAt, hat, ← codeAt]
    exact ⟨hxin, hyin, by omega, by omega⟩
  · obtain ⟨p, hp, hple, hplt, hpat⟩ := exists_quarter ex ey k x0 y0 (Nat.lt_trans hnm hm)
    obtain ⟨q, hq, hqle, hqlt, hqat⟩ := exists_quarter ex ey k x0 y0 hm
    rw [codeAt, codeAt, hpat, hqat, ← codeAt, ← codeAt]
    rcases Nat.lt_trichotomy p q with hpq | rfl | hqp
    · rw [quarterCount] at hplt hqlt
      have hhigh := ((ih p).inside (n - quarterStart ex ey k x0 y0 p) (by omega)).2.2.2
      have hlow := ((ih q).inside (m - quarterStart ex ey k x0 y0 q) (by omega)).2.2.1
      rw [morton_corner hk hx hy hp] at hhigh
      rw [morton_corner hk hx hy hq] at hlow
      have hcorners : p * 4 ^ k + 4 ^ k ≤ q * 4 ^ k := by rw [← Nat.succ_mul]; exact Nat.mul_le_mul_right _ hpq
      omega
    · rw [quarterCount] at hqlt
      exact (ih p).rising _ _ (by omega) (by omega)
    · have hstart := quarterStart_mono ex ey k x0 y0 (show q + 1 ≤ p from hqp)
      rw [quarterStart_succ] at hstart
      omega

end Quarters

theorem squareOrdered (ex ey : Nat) {k x0 y0 : Nat} (hk : k ≤ 32) (hx : 2 ^ k ∣ x0) (hy : 2 ^ k ∣ y0) :
    SquareOrdered ex ey k x0 y0 := by
  induction k generalizing x0 y0 with
  | zero => exact squareOrdered_zero ex ey x0 y0
  | succ k ih =>
    exact squareOrdered_succ ex ey hk hx hy fun q =>
      ih (Nat.le_of_lt hk) (dvd_corner hx hy q).1 (dvd_corner hx hy q).2

/-- The plane in Morton order: each position a point of it, in rising codes (R176). -/
theorem mortonAt_ordered {ex ey a b : Nat} (hex : ex < 2 ^ 32) (hey : ey < 2 ^ 32) (hab : a < b) (hb : b < ex * ey) :
    let p := mortonAt ex ey 32 0 0 a
    let q := mortonAt ex ey 32 0 0 b
    p.1 < ex ∧ p.2 < ey ∧ q.1 < ex ∧ q.2 < ey ∧ morton p.1 p.2 < morton q.1 q.2 := by
  have plane := squareOrdered ex ey (Nat.le_refl 32) (dvd_zero (2 ^ 32)) (dvd_zero (2 ^ 32))
  have hcount : mortonCount ex ey 32 0 0 = ex * ey := by
    rw [mortonCount, Nat.sub_zero, Nat.sub_zero, Nat.min_eq_right hex.le, Nat.min_eq_right hey.le]
  rw [← hcount] at hb
  obtain ⟨hpx, hpy, -, -⟩ := plane.inside a (Nat.lt_trans hab hb)
  obtain ⟨hqx, hqy, -, -⟩ := plane.inside b hb
  exact ⟨hpx, hpy, hqx, hqy, plane.rising a b hab hb⟩

end Sys2Proof.Machine
end

section
/-! SUPPORT. FETCHT: what its lanes receive (spec/10 R175). -/

namespace Sys2Proof.Machine
open Claims

/-! ## Items for some lanes -/

theorem Launch.takeAll_cons (x : Launch) (core l : Nat) (ls : List Nat) :
    x.takeAll core (l :: ls) = match x.take core with
      | some (n, y) => ((y.takeAll core ls).1, (l, x.item n) :: (y.takeAll core ls).2)
      | none => ((x.takeAll core ls).1, (l, noItem) :: (x.takeAll core ls).2) := rfl

/-- Each of the lanes is answered, in order. -/
theorem Launch.lanes_takeAll (x : Launch) (core : Nat) (ls : List Nat) : (x.takeAll core ls).2.map (·.1) = ls := by
  induction ls generalizing x with
  | nil => rfl
  | cons l ls ih =>
    rw [Launch.takeAll_cons]
    split <;> simp only [List.map_cons, ih]

/-- Among answers to different lanes, a lane's is the one that is found under its number. -/
theorem answers_eq_map {rs : List (Nat × List W32)} (h : (rs.map (·.1)).Nodup) :
    rs = (rs.map (·.1)).map fun l => (l, ((rs.find? fun p => p.1 == l).map (·.2)).getD []) := by
  have found (p : Nat × List W32) (hp : p ∈ rs) : (p.1, ((rs.find? fun q => q.1 == p.1).map (·.2)).getD []) = p := by
    obtain ⟨q, hq⟩ := Option.isSome_iff_exists.1 (List.find?_isSome (p := fun q => q.1 == p.1).2 ⟨p, hp, by simp⟩)
    have hkey : q.1 = p.1 := by simpa using List.find?_some hq
    rw [hq, List.inj_on_of_nodup_map h (List.mem_of_find?_eq_some hq) hp hkey]; rfl
  rw [List.map_map]
  conv_lhs => rw [← List.map_id rs]
  exact List.map_congr_left fun p hp => (found p hp).symm

/-- What FETCHT gives an executing lane: a thread its item, a helper none (R159). -/
def received (s : State) (x : Launch) (g : Guard) (l : Nat) : List W32 :=
  if (s.lane l).helper then noItem
  else (((x.takeAll s.curCore (s.execThreads g)).2.find? fun p => p.1 == l).map (·.2)).getD []

/-- The helpers that execute. -/
def State.execHelpers (s : State) (g : Guard) : List Nat := (s.exec g).filter fun l => (s.lane l).helper

/-- The answers of FETCHT: those of the threads, and then those of the helpers. -/
theorem answers_fetcht {s : State} {g : Guard} (h : (s.exec g).Nodup) (x : Launch) :
    (x.takeAll s.curCore (s.execThreads g)).2 ++ (s.execHelpers g).map (fun l => (l, noItem)) =
      (s.execThreads g ++ s.execHelpers g).map fun l => (l, received s x g l) := by
  have threads := x.lanes_takeAll s.curCore (s.execThreads g)
  have apart : ((x.takeAll s.curCore (s.execThreads g)).2.map (·.1)).Nodup := by rw [threads]; exact h.filter _
  rw [List.map_append, answers_eq_map apart, threads]
  congr 1
  · refine List.map_congr_left fun l hl => ?_
    have thread : (s.lane l).helper = false := by simpa using (List.mem_filter.1 hl).2
    rw [received, thread]; rfl
  · refine List.map_congr_left fun l hl => ?_
    rw [received, if_pos (List.mem_filter.1 hl).2]

theorem mem_threads_append_helpers (s : State) (g : Guard) (l : Nat) :
    l ∈ s.execThreads g ++ s.execHelpers g ↔ l ∈ s.exec g := by
  simp only [State.execThreads, State.execHelpers, List.mem_append, List.mem_filter]
  cases (s.lane l).helper <;> simp

/-! ## The launch and the lanes afterwards -/

theorem State.modLaunch_of_find {s : State} {i : Nat} {x : Launch} (h : tfind s.launches i = some x)
    (f : Launch → Launch) : s.modLaunch i f = { s with launches := tset s.launches i (f x) } := by
  rw [State.modLaunch, tmod, h]

theorem onlyLanes_commit {d : Operand} (h : isSReg d = false) (s : State) (rs : List (Nat × List W32)) :
    onlyLanes s (s.commit d rs) := by
  rw [State.commit, if_neg (by simp [h])]
  exact onlyLanes_foldl _ (fun t p => onlyLanes_modLane t p.1 _) rs s

/-- The state in which a launch has given its items to the executing threads. -/
def State.dispensed (s : State) (g : Guard) (i : Nat) (x : Launch) : State :=
  { s with launches := tset s.launches i (x.takeAll s.curCore (s.execThreads g)).1 }

/-- FETCHT in a core that runs a launch: the launch has given the threads' items, and each executing lane has received
its own. -/
theorem exec_fetcht {s : State} {g : Guard} {o : Ops} {i : Nat} {x : Launch} (hi : (s.core s.curCore).launch = some i)
    (hx : tfind s.launches i = some x) (hd : isSReg o.d = false) (hn : (s.exec g).Nodup) :
    ∃ t, exec (.fetcht g o) s = .next t ∧
      t = { s with lanes := t.lanes, launches := tset s.launches i (x.takeAll s.curCore (s.execThreads g)).1 } ∧
      ∀ l, t.lane l = if l ∈ s.exec g then (s.lane l).put o.d (received s x g l) else s.lane l := by
  have run : exec (.fetcht g o) s = .next ((s.dispensed g i x).commit o.d
      ((s.execThreads g ++ s.execHelpers g).map fun l => (l, received s x g l))) := by
    change execFetcht g o s = _
    simp only [execFetcht, hi, hx, State.modLaunch_of_find hx, ← answers_fetcht hn]
    rfl
  have changed := ((s.dispensed g i x).commit_map (s.execThreads g ++ s.execHelpers g)
    (fun l hl => State.hasLane_of_mem_exec ((mem_threads_append_helpers s g l).1 hl)) o.d (received s x g)).1
  refine ⟨_, run, onlyLanes_commit hd .., fun l => ?_⟩
  rw [changed.lane, if_congr (mem_threads_append_helpers s g l) rfl rfl]
  rfl

/-- Settles O34: FETCHT by the items its lanes are given, the dispenser by its ranges, the orders by the positions'
items, and Morton order by the quarters of the plane. -/
theorem fetchedItems : Obligations.FetchedItems :=
  ⟨fun _ _ _ _ _ hi hx hd hn => exec_fetcht hi hx hd hn,
    fun x core l ls => x.takeAll_cons core l ls,
    fun _ _ _ _ apart h => Launch.take_gives apart h,
    fun _ _ h n => not_toGive_of_take_eq_none h n,
    fun _ _ _ _ h => Launch.take_from h,
    fun x => ⟨x.dies_pairwise, x.mem_dies, Launch.ranges_of_not_die, Launch.ranges_of_die⟩,
    fun _ n => ⟨fun h => Launch.item_row h n, fun h => Launch.item_col h n, fun h => Launch.item_morton h n⟩,
    fun _ _ _ _ hex hey hab hb => mortonAt_ordered hex hey hab hb⟩

end Sys2Proof.Machine
end

section
/-! SUPPORT. Placement of tiles: room and budget on the cores of a level, and the lowest place (spec/11 R187, R188). -/

namespace Sys2Proof.Machine
open Claims

/-! ## One core (R187) -/

theorem meets_iff_overlap (a n b m : Nat) : meets a n b m = true ↔ overlap a n b m := by simp [meets, overlap]

/-- Granules are free on a core where they end below its log and meet none of its tiles. -/
theorem State.granulesFree_iff (s : State) (c b n : Nat) : s.granulesFree c b n = true ↔
    b + n + s.logGranules c ≤ 896 ∧
      ∀ x ∈ s.tiles, c ∈ tileCores x.1 x.2 → ¬ overlap b n x.2.base (tileGranules x.1 x.2 c) := by
  simp only [State.granulesFree, State.tilesOn, Bool.and_eq_true, decide_eq_true_eq, List.all_eq_true,
    List.mem_filter, List.contains_iff_mem, and_imp, Bool.not_eq_true', ← Bool.not_eq_true, meets_iff_overlap]

theorem State.budgetFree_iff (s : State) (c n : Nat) : s.budgetFree c n = true ↔
    (((s.tilesOn c).map fun x => tileGranules x.1 x.2 c).sum + n) * 512
      ≤ ((s.launchOf c).map Launch.tileBytes).getD 0 := by
  rw [State.budgetFree, List.sum_eq_foldl, List.foldl_map, decide_eq_true_iff]

/-! ## The cores of a level -/

theorem levelCores_eq (lvl : TileLevel) :
    levelCores lvl = (match lvl with | .core => 1 | .pair => 2 | .cluster => 8) := by cases lvl <;> rfl

/-- Do all cores of a level have room for their shares of `n` granules from `b` on? -/
def State.fitsAt (s : State) (lvl : TileLevel) (c n b : Nat) : Bool :=
  (List.range (levelCores lvl)).all fun p => s.granulesFree (levelHome lvl c + p) b (granulesAt n (levelCores lvl) p)

/-- Do all cores of a level have budget for their shares of `n` granules? -/
def State.affords (s : State) (lvl : TileLevel) (c n : Nat) : Bool :=
  (List.range (levelCores lvl)).all fun p => s.budgetFree (levelHome lvl c + p) (granulesAt n (levelCores lvl) p)

theorem State.placeTile_eq (s : State) (lvl : TileLevel) (c n : Nat) : s.placeTile lvl c n =
    if s.affords lvl c n then (List.range 896).find? (s.fitsAt lvl c n) else none := by
  simp only [State.placeTile, State.affords, State.fitsAt, List.all_map]
  rfl

theorem State.fitsAt_iff (s : State) (lvl : TileLevel) (c n b : Nat) : s.fitsAt lvl c n b = true ↔
    ∀ p < levelCores lvl, b + granulesAt n (levelCores lvl) p + s.logGranules (levelHome lvl c + p) ≤ 896 ∧
      ∀ x ∈ s.tiles, levelHome lvl c + p ∈ tileCores x.1 x.2 →
        ¬ overlap b (granulesAt n (levelCores lvl) p) x.2.base (tileGranules x.1 x.2 (levelHome lvl c + p)) := by
  simp only [State.fitsAt, List.all_eq_true, List.mem_range, State.granulesFree_iff]

theorem State.affords_iff (s : State) (lvl : TileLevel) (c n : Nat) : s.affords lvl c n = true ↔
    ∀ p < levelCores lvl, (((s.tilesOn (levelHome lvl c + p)).map fun x =>
        tileGranules x.1 x.2 (levelHome lvl c + p)).sum + granulesAt n (levelCores lvl) p) * 512
      ≤ ((s.launchOf (levelHome lvl c + p)).map Launch.tileBytes).getD 0 := by
  simp only [State.affords, List.all_eq_true, List.mem_range, State.budgetFree_iff]

/-! ## The lowest place (R188) -/

theorem State.placeTile_eq_some_iff {s : State} {lvl : TileLevel} {c n base : Nat} :
    s.placeTile lvl c n = some base ↔ s.affords lvl c n = true ∧ base < 896 ∧ s.fitsAt lvl c n base = true ∧
      ∀ b < base, ¬ s.fitsAt lvl c n b = true := by
  rw [State.placeTile_eq]
  split
  next h =>
    simp only [List.find?_range_eq_some, List.mem_range, h, true_and, Bool.not_eq_true', Bool.not_eq_true]
    exact and_left_comm
  next h => simp [h]

theorem State.placeTile_eq_none_iff {s : State} {lvl : TileLevel} {c n : Nat} :
    s.placeTile lvl c n = none ↔ (s.affords lvl c n = true → ∀ b < 896, ¬ s.fitsAt lvl c n b = true) := by
  rw [State.placeTile_eq]
  split
  next h => simp [h]
  next h => simp [h]

/-- Settles O29: the place is the first of the 896 at which all cores have room, each with budget for its share. -/
theorem tilePlacement : Obligations.TilePlacement := by
  intro s lvl c n m home free budget
  have hm : levelCores lvl = m := levelCores_eq lvl
  have hhome : levelHome lvl c = home := by rw [levelHome, hm]
  have hfits : ∀ b, s.fitsAt lvl c n b = true ↔ free b := fun b => by
    rw [State.fitsAt_iff, hm, hhome]; rfl
  have haffords : s.affords lvl c n = true ↔ budget := by
    rw [State.affords_iff, hm, hhome]; rfl
  constructor
  · intro base h
    obtain ⟨hb, hlt, hfree, hlow⟩ := State.placeTile_eq_some_iff.1 h
    exact ⟨hlt, (hfits base).1 hfree, fun b hb => (hfits b).not.1 (hlow b hb), haffords.1 hb⟩
  · intro h hb b hlt hfree
    exact State.placeTile_eq_none_iff.1 h (haffords.2 hb) b hlt ((hfits b).2 hfree)

end Sys2Proof.Machine
end

section
/-! SUPPORT. A GATHER that goes on at a tile whose tag is not the one its run met (spec/13 R237, spec/15 R260). -/

namespace Sys2Proof.Machine
open Claims

/-- A tensor of eight FP32 columns and four rows at address 0, whose elements out of range load as 7. -/
def sevensRecord : List W32 := [0, 0, 272, 7, 8, 4, 0, 0, 0, 32, 0, 0, 0, 0, 0, 0, 0, 4104, 0, 0, 0, 0, 0, 0]

/-- A gather under way, one element moved, that met its tile spatial; the index of its row is −1. -/
def gatherUnderWay : CopyOp :=
  { id := 0, kind := .gather, org := { lane := 0, warp := 0, core := 0, launch := 0 }, tile := 5, record := sevensRecord,
    started := true, pos := 1, idx := -1 }

/-- The gather's core, and its tile, of one row of two elements, since then a Haar tile whose row is absent. -/
def retaggedTile : State where
  tiles := [(5, { rows := 1, cols := 2, dom := true, pv := true })]
  launches := [(0, { state := .running })]
  cores := [(0, { launch := some 0, copy0 := [gatherUnderWay] })]

theorem copyTurn_retaggedTile : CopyTurn retaggedTile 0 false gatherUnderWay := by constructor <;> decide

/-- The tile by the tag that the run met. -/
def metTile : Tile := (retaggedTile.tile 5).withTag (tagOf retaggedTile gatherUnderWay)

/-- By the tag that the run met the row is present, so its element out of range takes the fill value. -/
theorem found_gatherUnderWay : found gatherUnderWay metTile (-1) [] 1 = .inr 7 := by
  have hinvalid : ¬ indexValid (recFields gatherUnderWay.record) (-1) := fun h => absurd h.1 (by decide)
  simp only [found]
  rw [if_pos (by decide), if_neg (by decide), if_neg fun h => hinvalid h.1]
  decide

/-- By the tag that stands now the row is absent, and the element takes +0. -/
theorem exec_retaggedTile : ∃ t, exec (.copyEngineRun 0 false 1) retaggedTile = .next t ∧ (t.tile 5).elem 1 = 0 :=
  ⟨_, rfl, by decide⟩

theorem not_loadRuns : ¬ LoadRuns := by
  intro h
  have hindex : indexNow retaggedTile 0 false gatherUnderWay 2 (-1) := by
    unfold indexNow
    rw [if_neg (by decide)]
    rfl
  have hready : retaggedTile.piecesReady gatherUnderWay
      (((found gatherUnderWay metTile (-1) [] 1).getLeft?).getD [] ++ []) = true := by
    rw [found_gatherUnderWay]
    decide
  have hbits : foundBits retaggedTile 0 false (found gatherUnderWay metTile (-1) [] 1) = some 7 := by
    rw [found_gatherUnderWay]
    rfl
  have hfound : ∀ i < 1, foundBits retaggedTile 0 false (found gatherUnderWay metTile (-1) [] (1 + i)) ≠ none := by
    intro i hi
    rw [Nat.lt_one_iff.1 hi, hbits]
    exact Option.some_ne_none 7
  obtain ⟨t, p, ht, -, -, -, helem, -⟩ := h retaggedTile 0 1 false gatherUnderWay (-1) [] copyTurn_retaggedTile (.inr rfl)
    (by decide) (fun _ => hindex) nofun hready hfound
  obtain ⟨u, hu, hzero⟩ := exec_retaggedTile
  cases ht.symm.trans hu
  have hseven : (t.tile 5).elem 1 = 7 :=
    (helem 1 (by decide)).trans ((if_pos (by decide)).trans (congrArg (Option.getD · 0) hbits))
  exact absurd (hzero.symm.trans hseven) (by decide)

/-- Refutes O43, by its clause on loads and gathers: a step of a gather asks the tile as it stands whether a row is
present (R237), and the statement asks the tag that the run met. Where the two differ, and only the first says that the
row is absent, an element out of range becomes +0 and not the fill value. -/
theorem not_copiesAndFeedsRun : ¬ Obligations.CopiesAndFeedsRun := fun h => not_loadRuns h.1

end Sys2Proof.Machine
end

section
/-! SUPPORT. Lanes by their warps: each warp once, and its lowest lane first (spec/02 R22, spec/13 R224). -/

namespace Sys2Proof.Machine
open Claims

theorem nodup_eraseDups (ls : List Nat) : ls.eraseDups.Nodup := by
  match ls with
  | [] => simp
  | l :: ls =>
    rw [List.eraseDups_cons, List.nodup_cons]
    refine ⟨fun hm => ?_, nodup_eraseDups _⟩
    simpa using (List.mem_filter.1 (List.mem_eraseDups.1 hm)).2
termination_by ls.length
decreasing_by
  have := List.length_filter_le (fun b => !b == l) ls
  simp only [List.length_cons]; omega

theorem nodup_warpsOf (ls : List Nat) : (warpsOf ls).Nodup := nodup_eraseDups _

/-- The lanes of other warps than one's. -/
def otherWarps (l : Nat) (ls : List Nat) : List Nat := ls.filter fun k => !(warpOf k == warpOf l)

theorem warpsOf_cons (l : Nat) (ls : List Nat) : warpsOf (l :: ls) = warpOf l :: warpsOf (otherWarps l ls) := by
  rw [warpsOf, List.map_cons, List.eraseDups_cons, List.filter_map]; rfl

/-- Another warp's first lane is sought among the lanes of other warps. -/
theorem find_otherWarps {l w : Nat} (h : w ≠ warpOf l) (ls : List Nat) :
    ls.find? (fun k => warpOf k == w) = (otherWarps l ls).find? fun k => warpOf k == w := by
  rw [otherWarps, List.find?_filter]
  congr 1
  funext k
  by_cases hk : warpOf k = w
  · simp [hk, h]
  · simp [hk]

theorem lowestOf_cons (l : Nat) (ls : List Nat) : lowestOf (l :: ls) = l :: lowestOf (otherWarps l ls) := by
  have hother : ∀ w ∈ warpsOf (otherWarps l ls), (l :: ls).find? (fun k => warpOf k == w) =
      (otherWarps l ls).find? fun k => warpOf k == w := by
    intro w hw
    obtain ⟨k, hk, rfl⟩ := mem_warpsOf.1 hw
    have hne : warpOf k ≠ warpOf l := by simpa using (List.mem_filter.1 hk).2
    rw [List.find?_cons_of_neg (by simpa using hne.symm), find_otherWarps hne]
  have hfirst : (l :: ls).find? (fun k => warpOf k == warpOf l) = some l := List.find?_cons_of_pos (by simp)
  rw [lowestOf, warpsOf_cons, List.filterMap_cons, hfirst, List.filterMap_congr hother]
  rfl

/-- Of lanes listed once each, the lowest of their warps are those that come first among their warp's. -/
theorem lowestOf_eq_filter {ls : List Nat} (h : ls.Nodup) :
    lowestOf ls = ls.filter fun l => ls.find? (fun x => warpOf x == warpOf l) == some l := by
  match ls with
  | [] => rfl
  | l :: ls =>
    obtain ⟨hl, hls⟩ := List.nodup_cons.1 h
    have hfirst : ∀ k ∈ ls, ((l :: ls).find? (fun x => warpOf x == warpOf k) == some k) =
        ((otherWarps l ls).find? (fun x => warpOf x == warpOf k) == some k && !(warpOf k == warpOf l)) := by
      intro k hk
      by_cases e : warpOf k = warpOf l
      · have hne : l ≠ k := fun e => hl (e ▸ hk)
        simp [e, hne]
      · rw [List.find?_cons_of_neg (by simpa using Ne.symm e), find_otherWarps e]
        simp [e]
    have hrest : lowestOf (otherWarps l ls) = _ := lowestOf_eq_filter (hls.filter _)
    rw [lowestOf_cons, hrest, List.filter_cons_of_pos (by simp), List.filter_congr hfirst, ← List.filter_filter]
    rfl
termination_by ls.length
decreasing_by
  have := List.length_filter_le (fun k => !(warpOf k == warpOf l)) ls
  simp only [otherWarps, List.length_cons]; omega

/-- The lanes that act for their warps, as the machine lists them. -/
theorem State.servants_eq {s : State} {g : Guard} (h : ordered s g) : s.servants g = perWarpLanes s g :=
  lowestOf_eq_filter (h.imp fun {_ _} => Nat.ne_of_lt)

end Sys2Proof.Machine
end

section
/-! SUPPORT. The tile table: which tile a handle names, and what counting, freeing and results for all lanes leave
(spec/02 R22, R37, spec/11 R186 to R191). -/

namespace Sys2Proof.Machine
open Claims

/-! ## The tile of a handle (R186, R188) -/

theorem State.find_of_tileEntry {s : State} {c h k : Nat} (e : s.tileEntry c h = some k) :
    (tfind s.tiles k).isSome = true := by
  simpa using List.find?_some e

theorem State.tileBound_eq_some_iff {s : State} {c h k : Nat} :
    s.tileBound c h = some k ↔ s.tileEntry c h = some k ∧ (s.tile k).freeing = false := by
  rw [State.tileBound, Option.filter_eq_some_iff, Bool.not_eq_true']

theorem State.tileOf_of_bound {s : State} {l k : Nat} {a : Operand} (h : s.tileBound (coreOf l) (handleOf a) = some k) :
    tileOf s l a = k := by rw [tileOf, h]; rfl

theorem State.tile_modTile {s : State} {k : Nat} (h : (tfind s.tiles k).isSome = true) (f : Tile → Tile) (j : Nat) :
    (s.modTile k f).tile j = if j = k then f (s.tile k) else s.tile j := by
  obtain ⟨x, hx⟩ := Option.isSome_iff_exists.1 h
  by_cases e : j = k <;> simp [State.tile, State.modTile, tget, hx, e]

/-! ## Errors that a write covers (spec/26 R372) -/

theorem State.overwrite_eq (s : State) (p : Site → Bool) :
    s.overwrite p = { s with upsets := s.upsets.filter fun u => !p u.site } := by
  rw [State.overwrite]
  split
  next h => rw [List.isEmpty_iff.1 h, List.filter_nil, ← List.isEmpty_iff.1 h]
  next => rfl

/-! ## Counters raised (spec/02 R37) -/

theorem Warp.count_up (x : Warp) : x.count 3 true = raised x [3] := by simp [Warp.count, raised]

theorem State.countAll_only (s : State) (ws : List Nat) (k : Nat) :
    s.countAll ws k = { s with warps := (s.countAll ws k).warps } := by
  induction ws generalizing s with
  | nil => rfl
  | cons w ws ih => exact ih (s.countUp w k)

/-- Each of some warps, named once, has its TLC raised. -/
theorem State.warp_countAll {ws : List Nat} (h : ws.Nodup) (s : State) (w : Nat) :
    (s.countAll ws 3).warp w = if w ∈ ws then raised (s.warp w) [3] else s.warp w := by
  induction ws generalizing s with
  | nil => rfl
  | cons v ws ih =>
    obtain ⟨hv, hws⟩ := List.nodup_cons.1 h
    have hstep : (s.countAll (v :: ws) 3).warp w = ((s.countUp v 3).countAll ws 3).warp w := rfl
    rw [hstep, ih hws, State.countUp, State.warp_modWarp, Warp.count_up]
    by_cases e : w = v
    · subst e; simp [hv]
    · simp [e]

theorem State.counterFull_of_room {s : State} {ws : List Nat} (h : ∀ w ∈ ws, (s.warp w).tlc < 1023) :
    s.counterFull ws 3 = false := by
  simp only [State.counterFull, List.any_eq_false, decide_eq_true_eq, Nat.not_le]
  exact h

/-! ## One value for every executing lane (spec/02 R22) -/

theorem Lane.after_nothing (x : Lane) (c : W32) : x.after 0 false c = x := by
  simp [Lane.after, Lane.sticky]

theorem State.commitAll_result (s : State) (g : Guard) (d : Operand) (vals : List W32) :
    Result s (s.commitAll g d vals) g d (fun _ => vals) (fun _ => 0) (fun _ => false) := by
  have h := (s.commit_map (s.exec g) (fun l hl => State.hasLane_of_mem_exec hl) d fun _ => vals).1
  rw [Result]
  simp only [Lane.after_nothing]
  exact h

/-! ## A tile freed (R191) -/

theorem State.countDowns_only (s : State) (ws : List Nat) (k : Nat) :
    ws.foldl (fun s w => s.countDown w k) s = { s with warps := (ws.foldl (fun s w => s.countDown w k) s).warps } := by
  induction ws generalizing s with
  | nil => rfl
  | cons w ws ih => exact ih (s.countDown w k)

/-- A tile that settles has gone, with its freers' counters lowered, or nothing has changed. -/
theorem State.settleTile_cases (s : State) (k : Nat) :
    s.settleTile k = s ∨ ∃ ws, s.settleTile k = { s with warps := ws, tiles := tdel s.tiles k } := by
  simp only [State.settleTile]
  split
  · exact .inr ⟨_, State.countDowns_only _ _ _⟩
  · exact .inl rfl

/-- Only a FREEING tile settles. -/
theorem State.settleTile_of_bound {s : State} {k : Nat} (h : (s.tile k).freeing = false) : s.settleTile k = s := by
  simp [State.settleTile, h]

/-- Some lanes that run their slot again. -/
def State.wakeAll (s : State) (ls : List Nat) : State :=
  ls.foldl (fun s l => s.modLane l fun x => { x with status := .idle }) s

theorem State.wakeAll_only (s : State) (ls : List Nat) : onlyLanes s (s.wakeAll ls) :=
  onlyLanes_foldl _ (fun t l => onlyLanes_modLane t l _) ls s

theorem State.lane_wake (s : State) (l j : Nat) :
    ∃ x, (s.modLane l fun x => { x with status := .idle }).lane j = { s.lane j with status := x } := by
  by_cases hl : s.hasLane l
  · rw [State.lane_modLane s l j _ hl]
    split
    next e => exact ⟨.idle, by rw [e]⟩
    next => exact ⟨(s.lane j).status, rfl⟩
  · have hnone : tfind s.lanes l = none := by simpa [State.hasLane] using hl
    exact ⟨(s.lane j).status, by simp [State.modLane, tmod, hnone]⟩

/-- Lanes that wake keep all but their status. -/
theorem State.lane_wakeAll (s : State) (ls : List Nat) (j : Nat) :
    { (s.wakeAll ls).lane j with status := (s.lane j).status } = s.lane j := by
  obtain ⟨x, hx⟩ := List.foldlRecOn (motive := fun t : State => ∃ x, t.lane j = { s.lane j with status := x }) ls
    (fun s l => s.modLane l fun x => { x with status := .idle }) ⟨(s.lane j).status, rfl⟩ fun t ⟨x, hx⟩ l _ => by
      obtain ⟨y, hy⟩ := t.lane_wake l j
      exact ⟨y, by rw [hy, hx]⟩
  rw [State.wakeAll, hx]

/-- A tile marked as FREEING, with the warps that wait for it. -/
def State.markFreeing (s : State) (k : Nat) (ws : List Nat) : State :=
  s.modTile k fun t => { t with freeing := true, freers := ws }

theorem State.freeTile_eq (s : State) (k : Nat) (ws : List Nat) :
    s.freeTile k ws = ((s.markFreeing k ws).wakeAll (s.tileWatchers k)).settleTile k := rfl

/-- A freed tile is bound no more, and of the lanes none but sleepers' status changes. -/
theorem State.freeTile_unbinds {s : State} {c h k : Nat} (hk : s.tileBound c h = some k) (ws : List Nat) :
    (s.freeTile k ws).tileBound c h ≠ some k ∧
      ∀ j, { (s.freeTile k ws).lane j with status := (s.lane j).status } = s.lane j := by
  have hfound := State.find_of_tileEntry (State.tileBound_eq_some_iff.1 hk).1
  have hfreeing : (((s.markFreeing k ws).wakeAll (s.tileWatchers k)).tile k).freeing = true := by
    rw [State.wakeAll_only]
    have htile : (s.markFreeing k ws).tile k = _ := State.tile_modTile hfound _ k
    exact (congrArg Tile.freeing htile).trans (by rw [if_pos rfl])
  have hlanes := (s.markFreeing k ws).lane_wakeAll (s.tileWatchers k)
  rw [State.freeTile_eq]
  rcases State.settleTile_cases ((s.markFreeing k ws).wakeAll (s.tileWatchers k)) k with hstays | ⟨vs, hgone⟩
  · rw [hstays]
    refine ⟨fun hbound => ?_, hlanes⟩
    rw [(State.tileBound_eq_some_iff.1 hbound).2] at hfreeing
    cases hfreeing
  · rw [hgone]
    refine ⟨fun hbound => ?_, hlanes⟩
    have hstands := State.find_of_tileEntry (State.tileBound_eq_some_iff.1 hbound).1
    rw [tfind_tdel, if_pos rfl] at hstands
    cases hstands

end Sys2Proof.Machine
end

section
/-! SUPPORT. TALLOC, TFREE, TTAG.W and the reads of the tile table (spec/11 R185 to R191, spec/13 R241, R242). -/

namespace Sys2Proof.Machine
open Claims

/-! ## The shape that TALLOC asks for (R241) -/

/-- Is a shape in order: the reserved bits of B zero, the extents in their bounds, and room on the cores of the level? -/
def wellShaped (f : Fmt) (lvl : TileLevel) (b cols : Nat) : Prop :=
  b = b % 2048 + b / 2 ^ 16 % 8 * 2 ^ 16 + b / 2 ^ 20 % 16 * 2 ^ 20 ∧ f ≠ .aq64 ∧ b / 2 ^ 16 % 8 ≤ 3 ∧
  (if b / 2 ^ 16 % 8 = 0 then b / 2 ^ 20 % 16 = 0 else 3 ≤ b / 2 ^ 20 % 16 ∧ b / 2 ^ 20 % 16 ≤ 10) ∧
  1 ≤ b % 2048 ∧ b % 2048 ≤ 1024 ∧ 1 ≤ cols ∧ cols ≤ 4096 ∧ (f = .int4 → 2 ∣ cols) ∧
  ((b % 2048 * cols * elemNibbles f + 1) / 2 + 511) / 512 ≤ 896 * levelCores lvl

theorem reservedBits_iff (b : Nat) : b = b % 2048 + b / 2 ^ 16 % 8 * 2 ^ 16 + b / 2 ^ 20 % 16 * 2 ^ 20 ↔
    b / 2 ^ 24 = 0 ∧ b / 2 ^ 19 % 2 = 0 ∧ b / 2 ^ 11 % 32 = 0 := by omega

theorem granulesAt_first_le (n : Nat) (lvl : TileLevel) :
    granulesAt n (levelCores lvl) 0 ≤ 896 ↔ n ≤ 896 * levelCores lvl := by
  cases lvl <;> simp only [granulesAt, levelCores] <;> omega

theorem tallocShape_eq (f : Fmt) (lvl : TileLevel) (b cols : Nat) :
    (wellShaped f lvl b cols →
      tallocShape f b cols lvl = some (b % 2048, cols, b / 2 ^ 16 % 8, b / 2 ^ 20 % 16)) ∧
    (¬ wellShaped f lvl b cols → tallocShape f b cols lvl = none) := by
  have key : ∀ ok : Bool, (ok = true ↔ wellShaped f lvl b cols) → ∀ x : Nat × Nat × Nat × Nat,
      (wellShaped f lvl b cols → (if ok then some x else none) = some x) ∧
      (¬ wellShaped f lvl b cols → (if ok then some x else none) = none) := by
    intro ok h x
    exact ⟨fun hw => if_pos (h.2 hw), fun hw => if_neg (mt h.1 hw)⟩
  rw [tallocShape]
  refine key _ ?_ _
  have hint4 : ((f ≠ .int4 || cols % 2 = 0) = true) ↔ (f = .int4 → 2 ∣ cols) := by
    simp [Nat.dvd_iff_mod_eq_zero, imp_iff_not_or]
  have higran : ((if b / 2 ^ 16 % 8 = 0 then decide (b / 2 ^ 20 % 16 = 0)
      else decide (3 ≤ b / 2 ^ 20 % 16) && decide (b / 2 ^ 20 % 16 ≤ 10)) = true) ↔
      if b / 2 ^ 16 % 8 = 0 then b / 2 ^ 20 % 16 = 0 else 3 ≤ b / 2 ^ 20 % 16 ∧ b / 2 ^ 20 % 16 ≤ 10 := by
    split <;> simp
  simp only [wellShaped, reservedBits_iff, Bool.and_eq_true, decide_eq_true_eq, granulesAt_first_le, granulesOf,
    tileBytes, and_assoc, hint4, higran]

/-! ## TALLOC (R188, R241) -/

/-- The cores that hold a tile of a level bound at core `c`. -/
def levelSpan (lvl : TileLevel) (c : Nat) : List Nat := (List.range (levelCores lvl)).map (levelHome lvl c + ·)

/-- A state with a tile bound, which has taken the next number. -/
def State.withTile (s : State) (key : Nat) (x : Tile) : State :=
  { s with nextId := s.nextId + 1, tiles := tset s.tiles key x }

/-- The tile that a TALLOC binds at core `c`, its clear counted by some warps (R189). -/
def State.newTile (s : State) (c : Nat) (f : Fmt) (lvl : TileLevel) (b cols base : Nat) (ws : List Nat) : Tile :=
  { launch := (s.core c).launch.getD 0, lvl := lvl, fmt := f, rows := b % 2048, cols := cols, imode := b / 2 ^ 16 % 8,
    igran := b / 2 ^ 20 % 16, base := base, bind := s.nextId, clearing := true, binders := ws }

/-- The state after a tile is bound, its bytes' errors gone and its clear counted. -/
def State.bindTile (s : State) (key : Nat) (x : Tile) (ws : List Nat) : State :=
  ((s.withTile key x).overwrite (tileSite key 0 x.bytes)).countAll ws 3

theorem State.bindTile_only (s : State) (key : Nat) (x : Tile) (ws : List Nat) : s.bindTile key x ws =
    { s with warps := (s.bindTile key x ws).warps, nextId := s.nextId + 1, tiles := tset s.tiles key x
             upsets := s.upsets.filter fun u => !tileSite key 0 x.bytes u.site } := by
  rw [State.bindTile, State.countAll_only, State.overwrite_eq]; rfl

theorem State.warp_bindTile {ws : List Nat} (h : ws.Nodup) (s : State) (key : Nat) (x : Tile) (w : Nat) :
    (s.bindTile key x ws).warp w = if w ∈ ws then raised (s.warp w) [3] else s.warp w := by
  rw [State.bindTile, State.warp_countAll h, State.overwrite_eq]; rfl

section Actor
variable {s : State} {g : Guard} {o : Ops} {l : Nat} (hl : (s.execThreads g).head? = some l) {f : Fmt} {lvl : TileLevel}
include hl

theorem exec_talloc_of_badShape (h : ¬ wellShaped f lvl (s.src l .int o.b).toNat (s.src l .int o.c).toNat) :
    exec (.talloc g o f lvl) s = .next (s.trap l { code := 0x05 }) := by
  have hactor : s.actor g = some l := hl
  change execTalloc g o f lvl s = _
  rw [execTalloc, hactor]
  simp only [(tallocShape_eq f lvl _ _).2 h]
  rfl

variable (hshape : wellShaped f lvl (s.src l .int o.b).toNat (s.src l .int o.c).toNat)
include hshape

theorem exec_talloc_of_bound (h : ∃ x ∈ levelSpan lvl (coreOf l), s.tileBound x (handleOf o.a) ≠ none) :
    exec (.talloc g o f lvl) s = .next (s.trap l { code := 0x13, info := handleOf o.a }) := by
  have hactor : s.actor g = some l := hl
  have hany : ((levelSpan lvl (coreOf l)).any fun x => (s.tileBound x (handleOf o.a)).isSome) = true := by
    simpa only [List.any_eq_true, Option.isSome_iff_ne_none] using h
  change execTalloc g o f lvl s = _
  rw [execTalloc, hactor]
  simp only [(tallocShape_eq f lvl _ _).1 hshape]
  exact if_pos hany

/-- A handle unbound on every core of the level takes the lowest place, or there is a shortage. -/
theorem exec_talloc_of_free (hfree : ∀ x ∈ levelSpan lvl (coreOf l), s.tileEntry x (handleOf o.a) = none)
    (hroom : ∀ w ∈ warpsOf (s.exec g), (s.warp w).tlc < 1023) : exec (.talloc g o f lvl) s = .next
      (match s.placeTile lvl (coreOf l)
          (granulesOf (tileBytes f ((s.src l .int o.b).toNat % 2048 * (s.src l .int o.c).toNat))) with
        | none => s.commitAll g o.d [0]
        | some base => (s.bindTile (tileKey lvl (coreOf l) (handleOf o.a))
            (s.newTile (coreOf l) f lvl (s.src l .int o.b).toNat (s.src l .int o.c).toNat base (warpsOf (s.exec g)))
            (warpsOf (s.exec g))).commitAll g o.d [1]) := by
  have hactor : s.actor g = some l := hl
  have hbound : ¬ ((levelSpan lvl (coreOf l)).any fun x => (s.tileBound x (handleOf o.a)).isSome) = true := by
    simp only [List.any_eq_true, not_exists, not_and]
    intro x hx
    rw [State.tileBound, hfree x hx]
    exact Bool.false_ne_true
  have hentry : ¬ (((levelSpan lvl (coreOf l)).any fun x => (s.tileEntry x (handleOf o.a)).isSome) ||
      s.counterFull (warpsOf (s.exec g)) 3) = true := by
    rw [State.counterFull_of_room hroom, Bool.or_false]
    simp only [List.any_eq_true, not_exists, not_and]
    intro x hx
    rw [hfree x hx]
    exact Bool.false_ne_true
  change execTalloc g o f lvl s = _
  rw [execTalloc, hactor]
  simp only [(tallocShape_eq f lvl _ _).1 hshape]
  refine (if_neg hbound).trans ((if_neg hentry).trans ?_)
  cases s.placeTile lvl (coreOf l)
    (granulesOf (tileBytes f ((s.src l .int o.b).toNat % 2048 * (s.src l .int o.c).toNat))) <;> rfl

end Actor

/-- What TALLOC leaves where it binds: the tile, the clear counted by the executing warps, and 1 for their lanes. -/
theorem State.bindTile_commit (s : State) (g : Guard) (d : Operand) (key : Nat) (x : Tile) :
    let ws := warpsOf (s.exec g)
    let t := (s.bindTile key x ws).commitAll g d [1]
    t = { s with lanes := t.lanes, warps := t.warps, nextId := s.nextId + 1, tiles := tset s.tiles key x
                 upsets := s.upsets.filter fun u => !tileSite key 0 x.bytes u.site } ∧
    (∀ j, t.lane j = if j ∈ s.exec g then (s.lane j).put d [1] else s.lane j) ∧
    ∀ w, t.warp w = let y := if w ∈ ws then raised (s.warp w) [3] else s.warp w
      match s.sourceOf (s.exec g) w with
      | some _ => y.put d [1]
      | none => y := by
  intro ws t
  have honly := s.bindTile_only key x ws
  have hexec : (s.bindTile key x ws).exec g = s.exec g := by rw [honly]; rfl
  have hlane : ∀ j, (s.bindTile key x ws).lane j = s.lane j := fun j => by rw [honly]; rfl
  obtain ⟨hrest, hlanes, hwarps⟩ := (s.bindTile key x ws).commitAll_result g d [1]
  simp only [Lane.after_nothing, hexec, hlane] at hlanes
  refine ⟨?_, hlanes, fun w => ?_⟩
  · have h : t = { s.bindTile key x ws with lanes := t.lanes, warps := t.warps } := hrest
    rw [h, honly]
  · have hsource : (s.bindTile key x ws).sourceOf (s.exec g) w = s.sourceOf (s.exec g) w := by rw [honly]; rfl
    have h := hwarps w
    rw [hexec, hsource, State.warp_bindTile (nodup_warpsOf _)] at h
    exact h

/-! ## TFREE (R191) -/

section Freeing
variable {s : State} {g : Guard} {o : Ops} {l : Nat} (hl : (s.execThreads g).head? = some l)
include hl

theorem exec_tfree_of_unbound (h : s.tileBound (coreOf l) (handleOf o.a) = none) :
    exec (.tfree g o) s = .next (s.trap l { code := 0x13, info := handleOf o.a }) := by
  have hactor : s.actor g = some l := hl
  change execTfree g o s = _
  simp only [execTfree, hactor, h]
  rfl

theorem exec_tfree_of_bound {k : Nat} (h : s.tileBound (coreOf l) (handleOf o.a) = some k)
    (hroom : ∀ w ∈ warpsOf (s.exec g), (s.warp w).tlc < 1023) :
    exec (.tfree g o) s = .next ((s.countAll (warpsOf (s.exec g)) 3).freeTile k (warpsOf (s.exec g))) := by
  have hactor : s.actor g = some l := hl
  change execTfree g o s = _
  simp [execTfree, hactor, h, State.counterFull_of_room hroom]

theorem exec_ttagW_of_unbound (h : s.tileBound (coreOf l) (handleOf o.a) = none) :
    exec (.ttagW g o) s = .next (s.trap l { code := 0x13, info := handleOf o.a }) := by
  have hactor : s.actor g = some l := hl
  change execTtagW g o s = _
  simp only [execTtagW, hactor, h]
  rfl

/-- TTAG.W at a tile that is neither CLEAR nor ENGINE (R242). -/
theorem exec_ttagW_of_bound {k : Nat} (h : s.tileBound (coreOf l) (handleOf o.a) = some k)
    (hclear : (s.tile k).clearing = false) (hengine : (s.tile k).engine = false) :
    exec (.ttagW g o) s = .next (if (s.tile k).tagOk (s.src l .int o.b).toNat
      then s.modTile k fun t => t.setTag ((s.src l .int o.b).toNat / 64 = 1) ((s.src l .int o.b).toNat / 8 % 8)
        ((s.src l .int o.b).toNat / 2 % 4) ((s.src l .int o.b).toNat % 2 = 1)
      else s.trap l { code := 0x05 }) := by
  have hactor : s.actor g = some l := hl
  change execTtagW g o s = _
  simp only [execTtagW, hactor, h, hclear, hengine, Bool.or_self, Bool.false_eq_true, if_false]
  split <;> rfl

end Freeing

/-! ## TTAG.W (R242, spec/15 R260) -/

theorem Tile.tagOk_iff (t : Tile) (v : Nat) : t.tagOk v = true ↔
    v < 128 ∧ if v / 64 = 0 then v = 0 else 1 ≤ v / 8 % 8 ∧ v / 8 % 8 ≤ 6 ∧ 2 ^ (v / 8 % 8) ∣ t.rows := by
  rw [Tile.tagOk, Bool.and_eq_true, decide_eq_true_eq]
  refine and_congr_right fun _ => ?_
  split <;> simp [Nat.dvd_iff_mod_eq_zero, and_assoc]

theorem tget_allPresent {rows r : Nat} (h : r < rows) :
    tget 0 (allPresent rows) (r / 64) = BitVec.ofNat 64 (2 ^ min 64 (rows - 64 * (r / 64)) - 1) := by
  have hkeys : ((allPresent rows).map (·.1)).Nodup := by
    rw [allPresent, List.map_map]
    exact (List.map_id (List.range _)).symm ▸ List.nodup_range
  have hmem : (r / 64, BitVec.ofNat 64 (2 ^ min 64 (rows - 64 * (r / 64)) - 1)) ∈ allPresent rows :=
    List.mem_map.2 ⟨r / 64, List.mem_range.2 (by omega), rfl⟩
  rw [tget_eq, tfind_of_mem hkeys hmem]
  rfl

/-- PV 1 makes every row present. -/
theorem Tile.present_setTag (t : Tile) (dom : Bool) (hlev thk : Nat) {r : Nat} (h : r < t.rows) :
    (t.setTag dom hlev thk true).present r = true := by
  have hbit : (tget 0 (allPresent t.rows) (r / 64)).getLsbD (r % 64) = true := by
    rw [tget_allPresent h, BitVec.getLsbD_ofNat, Nat.testBit_two_pow_sub_one]
    have := Nat.mod_lt r (by decide : 0 < 64)
    simp only [Bool.and_eq_true, decide_eq_true_eq]
    omega
  have hpres : (t.setTag dom hlev thk true).pres = allPresent t.rows := rfl
  rw [Tile.present, hpres, hbit, Bool.or_true]

/-! ## The obligation -/

theorem tileRecords : TileRecords := by
  intro s g o l hl c h k t0
  refine ⟨fun f lvl => ?_, fun hnone => ⟨exec_tfree_of_unbound hl hnone, exec_ttagW_of_unbound hl hnone⟩,
    fun hk hroom => ?_, fun hk hclear hengine => ?_⟩
  · intro n cores b cols rows im ig shape
    have hshape : shape = wellShaped f lvl b cols := by cases lvl <;> rfl
    have hcores : cores = levelSpan lvl c := by cases lvl <;> rfl
    rw [hshape, hcores]
    refine ⟨exec_talloc_of_badShape hl, fun hgood => ⟨exec_talloc_of_bound hl hgood, fun hfree hroom => ?_⟩⟩
    refine ⟨_, exec_talloc_of_free hl hgood hfree hroom, ?_⟩
    have hplace : s.placeTile lvl (coreOf l) (granulesOf (tileBytes f ((s.src l .int o.b).toNat % 2048 *
        (s.src l .int o.c).toNat))) = s.placeTile lvl c (granulesOf (tileBytes f (rows * cols))) := rfl
    rw [hplace]
    cases s.placeTile lvl c (granulesOf (tileBytes f (rows * cols))) with
    | none => exact s.commitAll_result g o.d [0]
    | some base => exact s.bindTile_commit g o.d _ _
  · refine ⟨_, exec_tfree_of_bound hl hk hroom, ?_⟩
    have honly := s.countAll_only (warpsOf (s.exec g)) 3
    have hbound : (s.countAll (warpsOf (s.exec g)) 3).tileBound c h = some k := by rw [honly]; exact hk
    obtain ⟨hgone, hlanes⟩ := State.freeTile_unbinds hbound (warpsOf (s.exec g))
    refine ⟨hgone, fun j => ?_⟩
    have hlane : (s.countAll (warpsOf (s.exec g)) 3).lane j = s.lane j := by rw [honly]; rfl
    have hj := hlanes j
    rwa [hlane] at hj
  · intro v ok
    have hok : (s.tile k).tagOk v = true ↔ ok := (s.tile k).tagOk_iff v
    have hexec := exec_ttagW_of_bound hl hk hclear hengine
    have hfound := State.find_of_tileEntry (State.tileBound_eq_some_iff.1 hk).1
    constructor
    · intro hbad
      rw [hexec, if_neg (mt hok.1 hbad)]
    · intro hgood
      have htile := State.tile_modTile hfound fun t => t.setTag (v / 64 = 1) (v / 8 % 8) (v / 2 % 4) (v % 2 = 1)
      refine ⟨_, hexec, ?_⟩
      rw [if_pos (hok.2 hgood)]
      refine ⟨rfl, fun j hj => by rw [htile, if_neg hj], ?_⟩
      rw [htile k, if_pos rfl]
      refine ⟨rfl, ?_⟩
      split
      next hv =>
        rw [decide_eq_true hv]
        exact fun r hr => Tile.present_setTag _ _ _ _ hr
      next hv =>
        rw [decide_eq_false hv]
        rfl

/-- What TINFO reads at a core: the entry of a handle, 0 where it is unbound. -/
def State.tinfo (s : State) (c h : Nat) : W64 := ((s.tileBound c h).map fun k => (s.tile k).entry).getD 0

theorem tileReads : TileReads := by
  intro s g o tile
  refine ⟨⟨_, fun l => s.tinfo (coreOf l) (handleOf o.a), rfl, State.perLane_ok fun l _ => ?_, fun l => ?_⟩,
    fun hbound => ⟨_, rfl, State.perLane_ok fun l hl => ?_⟩, fun l alone hnone => perLane_trap alone o.d ?_⟩
  · have hzero : wordsOf 0 = [0, 0] := by decide
    dsimp only [State.tinfo]
    cases s.tileBound (coreOf l) (handleOf o.a) with
    | none => exact (congrArg (LaneRes.ok · 0 false) hzero).symm
    | some k => rfl
  · dsimp only [tile, State.tinfo]
    cases s.tileBound (coreOf l) (handleOf o.a) <;> rfl
  · obtain ⟨k, hk⟩ := Option.ne_none_iff_exists'.1 (hbound l hl)
    have hk' : s.tileBound (coreOf l) (handleOf o.a) = some k := hk
    dsimp only [tile]
    rw [hk']
    rfl
  · have hnone' : s.tileBound (coreOf l) (handleOf o.a) = none := hnone
    rw [hnone']
    rfl

/-- Settles O31: TALLOC by its checks in order, TFREE by what marking a tile as FREEING leaves, TTAG.W by the bits of the
presence it writes, and the reads lane by lane. -/
theorem tileTable : Obligations.TileTable := ⟨tileRecords, tileReads⟩

end Sys2Proof.Machine
end

section
/-! SUPPORT. Instructions that act lane by lane, or once for each warp in order (spec/13 R224). -/

namespace Sys2Proof.Machine
open Claims

/-- Each lane of a list acts by `f`. -/
theorem oneByOne_foldl {R : State → Nat → State → Prop} {f : State → Nat → State} (h : ∀ t l, R t l (f t l))
    (ls : List Nat) (s : State) : OneByOne R s ls (ls.foldl f s) := by
  induction ls generalizing s with
  | nil => exact .done s
  | cons l ls ih => exact .lane (h s l) (ih (f s l))

/-- One warp's turn at an instruction that acts once for each warp: a turn that must wait ends the others'. -/
def warpTurn (f : State → Nat → State × Bool) (part : Nat → List Nat) (acc : State × Bool) (l : Nat) : State × Bool :=
  if acc.2 then acc else if (f acc.1 l).2 then (acc.1, true) else ((f acc.1 l).1.serve (part l), false)

theorem State.perWarp_eq (s : State) (g : Guard) (f : State → Nat → State × Bool) : s.perWarp g f =
    if ((s.servants g).foldl (warpTurn f (warpPart s g)) (s, false)).2
    then ((s.servants g).foldl (warpTurn f (warpPart s g)) (s, false)).1.hold .retry
    else ((s.servants g).foldl (warpTurn f (warpPart s g)) (s, false)).1 := rfl

section Turns
variable {R : State → Nat → State → Prop} {P : List Nat → State → Prop} {f : State → Nat → State × Bool}
  {part : Nat → List Nat}

/-- Where `P` holds of the lanes still to act and the state, the next acts without a wait, and `P` holds of the rest. -/
theorem inTurn_foldl_warpTurn
    (act : ∀ t l ls, P (l :: ls) t → ∃ u, f t l = (u, false) ∧ R t l u ∧ P ls (u.serve (part l)))
    {ls : List Nat} {s : State} (h : P ls s) :
    ∃ t, ls.foldl (warpTurn f part) (s, false) = (t, false) ∧ InTurn R part s ls t := by
  induction ls generalizing s with
  | nil => exact ⟨s, rfl, .done s⟩
  | cons l ls ih =>
    obtain ⟨u, hu, hact, hrest⟩ := act s l ls h
    obtain ⟨t, ht, hturns⟩ := ih hrest
    have hturn : warpTurn f part (s, false) l = (u.serve (part l), false) := by simp [warpTurn, hu]
    exact ⟨t, by rw [List.foldl_cons, hturn, ht], .lane hact hturns⟩

/-- An instruction that acts once for each warp, and at which no warp waits. -/
theorem State.perWarp_inTurn {s : State} {g : Guard} (hordered : ordered s g)
    (act : ∀ t l ls, P (l :: ls) t → ∃ u, f t l = (u, false) ∧ R t l u ∧ P ls (u.serve (warpPart s g l)))
    (h : P (perWarpLanes s g) s) : InTurn R (warpPart s g) s (perWarpLanes s g) (s.perWarp g f) := by
  obtain ⟨t, ht, hturns⟩ := inTurn_foldl_warpTurn act h
  have hend : s.perWarp g f = t := by
    rw [State.perWarp_eq, State.servants_eq hordered, ht]
    rfl
  rwa [hend]

end Turns

/-! ## Lanes served -/

theorem State.serve_only (s : State) (ls : List Nat) : s.serve ls = { s with groups := (s.serve ls).groups } := by
  unfold State.serve State.modGroup
  split <;> rfl

end Sys2Proof.Machine
end

section
/-! SUPPORT. Accumulators: windows and rows, cleared rows, and single elements (spec/11 R195, R196, spec/14 R251 to
R253). -/

namespace Sys2Proof.Machine
open Claims

/-! ## Windows (R195, R196, R250) -/

theorem firstOutside_eq_none_iff {lo hi a n : Nat} : firstOutside lo hi a n = none ↔ n = 0 ∨ lo ≤ a ∧ a + n ≤ hi := by
  unfold firstOutside
  split_ifs <;> simp <;> omega

theorem firstOutside_eq_some {lo hi a n r : Nat} (h : firstOutside lo hi a n = some r) :
    a ≤ r ∧ r < a + n ∧ (r < lo ∨ hi ≤ r) := by
  unfold firstOutside at h
  split_ifs at h <;> cases h <;> omega

theorem State.outside_eq_none_iff {s : State} {l a n : Nat} (hn : 0 < n) : s.outside l a n = none ↔ inWindow s l a n := by
  rw [State.outside, firstOutside_eq_none_iff]
  simp only [inWindow, Nat.reducePow]
  omega

theorem windowTrap_of_lt {r : Nat} (h : r < 65536) : windowTrap r = { code := 0x15, info := r } := by
  rw [windowTrap, Nat.mod_eq_of_lt h]; rfl

/-! ## MXWIN (R251) -/

/-- One lane's MXWIN: the leader's alone grants a window, and inside the block's rows. -/
def windowGranted (o : Ops) (s : State) (l : Nat) (t : State) : Prop :=
  let c := coreOf l
  let w := (s.src l .int o.a).toNat
  let base := (s.src l .int o.b).toNat
  let lim := (s.src l .int o.c).toNat
  let warp := s.blockWarp c w
  if l ≠ s.leader c * 4096 then t = s.trap l { code := 0x15, info := 0xFFFF }
  else if 128 ≤ w ∨ s.warpLanes warp = [] ∨ 2047 < base ∨ 2048 < lim then t = s.trap l { code := 0x05 }
  else if lim ≤ base ∨ (ownRows s c).1 ≤ base ∧ lim ≤ (ownRows s c).2 then
    t = { s with warps := t.warps } ∧
    ∀ x, t.warp x = if x = warp then { s.warp x with acwin := BitVec.ofNat 32 (lim * 2 ^ 16 + base) } else s.warp x
  else ∃ r, t = s.trap l { code := 0x15, info := r } ∧ base ≤ r ∧ r < lim ∧ (r < (ownRows s c).1 ∨ (ownRows s c).2 ≤ r)

theorem State.windowGranted (o : Ops) (s : State) (l : Nat) : windowGranted o s l (s.grantWindow o l) := by
  have hrows : s.blockRows (coreOf l) = ownRows s (coreOf l) := rfl
  dsimp only [Machine.windowGranted, State.grantWindow]
  rw [hrows]
  generalize (s.src l .int o.b).toNat = base, (s.src l .int o.c).toNat = lim, (s.src l .int o.a).toNat = w
  split
  next => rfl
  next =>
    have hbad : (decide (128 ≤ w) || (s.warpLanes (s.blockWarp (coreOf l) w)).isEmpty || decide (2047 < base) ||
        decide (2048 < lim)) = true ↔
        128 ≤ w ∨ s.warpLanes (s.blockWarp (coreOf l) w) = [] ∨ 2047 < base ∨ 2048 < lim := by
      simp [or_assoc]
    simp only [hbad]
    split
    next => rfl
    next hgood =>
      cases h : firstOutside (ownRows s (coreOf l)).1 (ownRows s (coreOf l)).2 base (lim - base) with
      | none =>
        have hin := firstOutside_eq_none_iff.1 h
        rw [if_pos (by omega)]
        refine ⟨rfl, fun x => ?_⟩
        rw [State.warp_modWarp]
        split
        next e => rw [e]
        next => rfl
      | some r =>
        obtain ⟨hle, hlt, hout⟩ := firstOutside_eq_some h
        rw [if_neg (by omega)]
        exact ⟨r, congrArg (s.trap l) (windowTrap_of_lt (by omega)), hle, by omega, hout⟩

/-! ## Cleared rows (R252) -/

/-- Nothing but accumulators, errors and the lanes served differs. -/
structure AccsOnly (s t : State) : Prop where
  rest : t = { s with pairs := t.pairs, upsets := t.upsets, groups := t.groups }
  pair : ∀ p, t.pair p = { s.pair p with acc := (t.pair p).acc }

theorem AccsOnly.refl (s : State) : AccsOnly s s := ⟨rfl, fun _ => rfl⟩

theorem AccsOnly.trans {s t u : State} (h : AccsOnly s t) (k : AccsOnly t u) : AccsOnly s u where
  rest := by rw [k.rest, h.rest]
  pair p := by rw [k.pair, h.pair]

theorem AccsOnly.src {s t : State} (h : AccsOnly s t) (l : Nat) (ty : RType) (o : Operand) :
    t.src l ty o = s.src l ty o := by
  rw [h.rest]; rfl

theorem AccsOnly.outside {s t : State} (h : AccsOnly s t) (l a n : Nat) : t.outside l a n = s.outside l a n := by
  rw [h.rest]; rfl

theorem AccsOnly.mmaMeets {s t : State} (h : AccsOnly s t) (w a n : Nat) :
    t.mmaMeets w t.nextId a n = s.mmaMeets w s.nextId a n := by
  have hid : t.nextId = s.nextId := by rw [h.rest]
  rw [State.mmaMeets, State.mmaMeets, hid, h.pair]

theorem AccsOnly.drainMeets {s t : State} (h : AccsOnly s t) (w a n : Nat) : t.drainMeets w a n = s.drainMeets w a n := by
  rw [State.drainMeets, State.drainMeets, h.pair]

theorem AccsOnly.serve {s t : State} (h : AccsOnly s t) (ls : List Nat) : AccsOnly s (t.serve ls) := by
  refine h.trans ⟨?_, fun p => ?_⟩ <;> rw [t.serve_only]
  rfl

/-- The state with some rows of a pair's accumulators cleared, and the errors there gone. -/
def State.clearAccs (s : State) (p a n : Nat) : State :=
  (s.overwrite (accSite p a n)).modPair p fun x => { x with acc := clearRows x.acc a n }

theorem State.clearAccs_only (s : State) (p a n : Nat) : s.clearAccs p a n =
    { s with pairs := (s.clearAccs p a n).pairs, upsets := s.upsets.filter fun u => !accSite p a n u.site } := by
  rw [State.clearAccs, State.overwrite_eq]; rfl

theorem State.pair_clearAccs (s : State) (p a n j : Nat) : (s.clearAccs p a n).pair j =
    if j = p then { s.pair p with acc := clearRows (s.pair p).acc a n } else s.pair j := by
  rw [State.clearAccs, State.overwrite_eq, State.pair_modPair]; rfl

theorem AccsOnly.clearAccs (s : State) (p a n : Nat) : AccsOnly s (s.clearAccs p a n) where
  rest := by rw [State.clearAccs_only]
  pair j := by
    rw [State.pair_clearAccs]
    split
    next e => rw [e]
    next => rfl

/-- An element after rows are cleared. -/
theorem tget_clearRows (acc : Tab W32) (a n row : Nat) {col : Nat} (h : col < 64) :
    tget 0 (clearRows acc a n) (row * 64 + col) = if a ≤ row ∧ row < a + n then 0 else tget 0 acc (row * 64 + col) := by
  have hkept : (!(decide (64 * a ≤ row * 64 + col) && decide (row * 64 + col < 64 * a + 64 * n))) = true ↔
      ¬ (a ≤ row ∧ row < a + n) := by
    simp only [Bool.not_eq_true', ← Bool.not_eq_true, Bool.and_eq_true, decide_eq_true_eq]
    omega
  have hfind := tfind_filterKeys acc (fun k => !(decide (64 * a ≤ k) && decide (k < 64 * a + 64 * n))) (row * 64 + col)
  rw [tget_eq, clearRows, tclear]
  by_cases hin : a ≤ row ∧ row < a + n
  · rw [if_pos hin, hfind, if_neg (mt hkept.1 (not_not.2 hin))]
    rfl
  · rw [if_neg hin, hfind, if_pos (hkept.2 hin), tget_eq]

/-- One warp's MXZERO inside its window, at rows that no operation of the warp holds. -/
theorem State.zeroRows_of_free {s : State} {o : Ops} {l : Nat} {a n : Nat} (ha : (s.src l .int o.a).toNat = a)
    (hn : (s.src l .int o.b).toNat = n) (hsize : 1 ≤ n ∧ n ≤ 2048) (hin : s.outside l a n = none)
    (hmma : s.mmaMeets (warpOf l) s.nextId a n = false) (hdrain : s.drainMeets (warpOf l) a n = false) :
    s.zeroRows o l = (s.clearAccs (pairOf (coreOf l)) a n, false) := by
  simp only [State.zeroRows, ha, hn, hin, hmma, hdrain]
  rw [if_neg (by omega)]
  rfl

/-- What a warp's MXZERO does, its operands as read in `s0`. -/
def rowsCleared (s0 : State) (o : Ops) (s : State) (l : Nat) (t : State) : Prop :=
  let a := (s0.src l .int o.a).toNat
  let n := (s0.src l .int o.b).toNat
  t = { s with pairs := t.pairs, upsets := s.upsets.filter fun u => !accSite (pairOf (coreOf l)) a n u.site } ∧
  ∀ p row col, col < 64 →
    tget 0 (t.pair p).acc (row * 64 + col) = if p = pairOf (coreOf l) ∧ a ≤ row ∧ row < a + n then 0
      else tget 0 (s.pair p).acc (row * 64 + col)

theorem State.rowsCleared_clearAccs (s0 : State) (o : Ops) (s : State) (l : Nat) : rowsCleared s0 o s l
    (s.clearAccs (pairOf (coreOf l)) (s0.src l .int o.a).toNat (s0.src l .int o.b).toNat) := by
  refine ⟨s.clearAccs_only _ _ _, fun p row col h => ?_⟩
  rw [State.pair_clearAccs]
  by_cases e : p = pairOf (coreOf l)
  · simp only [e, if_true, true_and]
    exact tget_clearRows _ _ _ _ h
  · simp [e]

theorem exec_mxzero {s : State} {g : Guard} {o : Ops} (hordered : ordered s g)
    (hfree : ∀ l ∈ perWarpLanes s g, let a := (s.src l .int o.a).toNat; let n := (s.src l .int o.b).toNat
      1 ≤ n ∧ n ≤ 2048 ∧ inWindow s l a n ∧ s.mmaMeets (warpOf l) s.nextId a n = false ∧
        s.drainMeets (warpOf l) a n = false) :
    InTurn (rowsCleared s o) (warpPart s g) s (perWarpLanes s g) (s.perWarp g (State.zeroRows o)) := by
  refine State.perWarp_inTurn (P := fun ls t => ls ⊆ perWarpLanes s g ∧ AccsOnly s t) hordered
    (fun t l ls ⟨hls, haccs⟩ => ?_) ⟨List.Subset.refl _, .refl s⟩
  obtain ⟨hl, hls⟩ := List.cons_subset.1 hls
  obtain ⟨hpos, hsize, hwindow, hmma, hdrain⟩ := hfree l hl
  have hcleared := State.zeroRows_of_free (s := t) (congrArg BitVec.toNat (haccs.src l .int o.a))
    (congrArg BitVec.toNat (haccs.src l .int o.b)) ⟨hpos, hsize⟩
    (by rw [haccs.outside]; exact (State.outside_eq_none_iff hpos).2 hwindow)
    (by rw [haccs.mmaMeets]; exact hmma) (by rw [haccs.drainMeets]; exact hdrain)
  exact ⟨_, hcleared, State.rowsCleared_clearAccs s o t l, hls, (haccs.trans (.clearAccs ..)).serve _⟩

/-! ## Single elements (R253) -/

/-- The key of the element that a lane names. -/
def accKeyOf (s : State) (o : Ops) (l : Nat) : Nat := (s.src l .int o.a).toNat * 64 + (s.src l .int o.b).toNat % 64

theorem State.accAt_of_inWindow {s : State} {o : Ops} {l : Nat} (h : inWindow s l (s.src l .int o.a).toNat 1) :
    s.accAt l o = .inl (accKeyOf s o l) := by
  simp only [State.accAt, (State.outside_eq_none_iff Nat.one_pos).2 h]
  rfl

theorem State.accAt_of_outside {s : State} {o : Ops} {l : Nat} (h : ¬ inWindow s l (s.src l .int o.a).toNat 1) :
    s.accAt l o = .inr { code := 0x15, info := (s.src l .int o.a).toNat % 65536 } := by
  obtain ⟨r, hr⟩ := Option.ne_none_iff_exists'.1 (mt (State.outside_eq_none_iff Nat.one_pos).1 h)
  simp only [State.accAt, hr]
  rfl

theorem leftsOf_of_lefts {α β : Type} {ls : List Nat} {f : Nat → α ⊕ β} {k : Nat → α} (h : ∀ l ∈ ls, f l = .inl (k l)) :
    leftsOf (ls.map fun l => (l, f l)) = ls.map fun l => (l, k l) := by
  rw [leftsOf, List.filterMap_map, ← List.filterMap_eq_map]
  exact List.filterMap_congr fun l hl => by simp [h l hl]

theorem rightsOf_of_lefts {α β : Type} {ls : List Nat} {f : Nat → α ⊕ β} {k : Nat → α} (h : ∀ l ∈ ls, f l = .inl (k l)) :
    rightsOf (ls.map fun l => (l, f l)) = [] := by
  rw [rightsOf, List.filterMap_map, List.filterMap_eq_nil_iff]
  exact fun l hl => by simp [h l hl]

theorem State.accHeld_of_free {s : State} {o : Ops} {ls : List Nat}
    (h : ∀ l ∈ ls, s.mmaMeets (warpOf l) s.nextId (s.src l .int o.a).toNat 1 = false) :
    s.accHeld (ls.map fun l => (l, accKeyOf s o l)) = false := by
  rw [State.accHeld, List.any_map, List.any_eq_false]
  intro l hl
  have hrow : accKeyOf s o l / 64 = (s.src l .int o.a).toNat := by rw [accKeyOf]; omega
  simp [hrow, h l hl]

theorem exec_mxld {s : State} {g : Guard} {o : Ops}
    (h : ∀ l ∈ s.exec g, inWindow s l (s.src l .int o.a).toNat 1 ∧
      s.mmaMeets (warpOf l) s.nextId (s.src l .int o.a).toNat 1 = false) :
    ∃ t, exec (.mxld g o) s = .next t ∧ Result s t g o.d
      (fun l => [tget 0 (s.pair (pairOf (coreOf l))).acc (accKeyOf s o l)]) (fun _ => 0) (fun _ => false) := by
  have hat : ∀ l ∈ s.exec g, s.accAt l o = .inl (accKeyOf s o l) := fun l hl => State.accAt_of_inWindow (h l hl).1
  refine ⟨s.perLane g o.d fun l => match s.accAt l o with
    | .inr t => .fault t
    | .inl k => .ok [tget 0 (s.pair (pairOf (coreOf l))).acc k], ?_, State.perLane_ok fun l hl => by rw [hat l hl]⟩
  change execMxld g o s = _
  rw [execMxld, leftsOf_of_lefts hat, State.accHeld_of_free fun l hl => (h l hl).2]
  rfl

/-- The state with an element written for each of some lanes, in order. -/
def State.storeAccs (s : State) (ls : List Nat) (key : Nat → Nat) (v : Nat → W32) : State :=
  ls.foldl (fun t l => t.modPair (pairOf (coreOf l)) fun x => { x with acc := tput 0 x.acc (key l) (v l) }) s

theorem State.storeAccs_only (s : State) (ls : List Nat) (key : Nat → Nat) (v : Nat → W32) :
    s.storeAccs ls key v = { s with pairs := (s.storeAccs ls key v).pairs } := by
  induction ls generalizing s with
  | nil => rfl
  | cons l ls ih => exact ih _

/-- An element holds what the last of the lanes that name it has written. -/
theorem State.acc_storeAccs (s : State) (ls : List Nat) (key : Nat → Nat) (v : Nat → W32) (p k : Nat) :
    tget 0 ((s.storeAccs ls key v).pair p).acc k =
      match ls.reverse.find? fun l => pairOf (coreOf l) == p && key l == k with
      | some l => v l
      | none => tget 0 (s.pair p).acc k := by
  induction ls using List.reverseRecOn with
  | nil => rfl
  | append_singleton ls l ih =>
    have hlast : s.storeAccs (ls ++ [l]) key v = (s.storeAccs ls key v).modPair (pairOf (coreOf l)) fun x =>
        { x with acc := tput 0 x.acc (key l) (v l) } := by
      rw [State.storeAccs, List.foldl_append]; rfl
    rw [hlast, List.reverse_append, List.reverse_singleton, List.singleton_append, List.find?_cons, State.pair_modPair]
    by_cases hp : p = pairOf (coreOf l)
    · subst hp
      by_cases hk : k = key l
      · simp [hk]
      · have hkey : (key l == k) = false := by simpa using Ne.symm hk
        simpa [hk, hkey] using ih
    · have hpair : (pairOf (coreOf l) == p) = false := by simpa using Ne.symm hp
      simpa [hp, hpair] using ih

/-- An error goes with a granule of two elements that the lanes write whole. -/
theorem accWhole_eq_true {ls : List Nat} {key : Nat → Nat} {site : Site}
    (h : accWhole (ls.map fun l => (l, key l)) site = true) : ∃ p r c, site = .acc p r c ∧
      ∀ j ∈ [c, c + 1], ∃ l ∈ ls, pairOf (coreOf l) = p ∧ key l = r * 64 + j % 64 := by
  cases site with
  | acc p r c =>
    refine ⟨p, r, c, rfl, fun j hj => ?_⟩
    simp only [accWhole, List.any_map, Bool.and_eq_true, List.any_eq_true, Function.comp_apply, beq_iff_eq] at h
    simp only [List.mem_cons, List.not_mem_nil, or_false] at hj
    rcases hj with rfl | rfl
    · exact h.1
    · exact h.2
  | _ => cases h

theorem exec_mxst {s : State} {g : Guard} {o : Ops}
    (h : ∀ l ∈ s.execThreads g, inWindow s l (s.src l .int o.a).toNat 1 ∧
      s.mmaMeets (warpOf l) s.nextId (s.src l .int o.a).toNat 1 = false) :
    exec (.mxst g o) s = .next ((s.overwrite (accWhole ((s.execThreads g).map fun l => (l, accKeyOf s o l)))).storeAccs
      (s.execThreads g) (accKeyOf s o) fun l => s.src l .fp32 o.c) := by
  have hat : ∀ l ∈ s.execThreads g, s.accAt l o = .inl (accKeyOf s o l) :=
    fun l hl => State.accAt_of_inWindow (h l hl).1
  change execMxst g o s = _
  simp only [execMxst, leftsOf_of_lefts hat, rightsOf_of_lefts hat, State.accHeld_of_free fun l hl => (h l hl).2,
    List.foldl_map]
  rfl

/-- What MXST leaves: the elements written, and no error but those of granules written whole is gone. -/
theorem State.storeAccs_overwrite (s : State) (ls : List Nat) (key : Nat → Nat) (v : Nat → W32) :
    let t := (s.overwrite (accWhole (ls.map fun l => (l, key l)))).storeAccs ls key v
    t = { s with pairs := t.pairs, upsets := t.upsets } ∧ (∀ u ∈ t.upsets, u ∈ s.upsets) ∧
      (∀ u ∈ s.upsets, u ∉ t.upsets → ∃ p r c, u.site = .acc p r c ∧ ∀ j ∈ [c, c + 1], ∃ l ∈ ls,
        pairOf (coreOf l) = p ∧ key l = r * 64 + j % 64) ∧
      ∀ p k, tget 0 (t.pair p).acc k = match ls.reverse.find? fun l => pairOf (coreOf l) == p && key l == k with
        | some l => v l
        | none => tget 0 (s.pair p).acc k := by
  intro t
  have hover := s.overwrite_eq (accWhole (ls.map fun l => (l, key l)))
  have hups : t.upsets = s.upsets.filter fun u => !accWhole (ls.map fun l => (l, key l)) u.site := by
    dsimp only [t]
    rw [State.storeAccs_only, hover]
  refine ⟨?_, fun u hu => ?_, fun u hu hgone => ?_, fun p k => ?_⟩
  · dsimp only [t]
    rw [State.storeAccs_only, hover]
  · rw [hups] at hu
    exact (List.mem_filter.1 hu).1
  · rw [hups, List.mem_filter] at hgone
    exact accWhole_eq_true (by simpa [hu] using hgone)
  · have hsame : (s.overwrite (accWhole (ls.map fun l => (l, key l)))).pair p = s.pair p := by rw [hover]; rfl
    rw [← hsame]
    exact State.acc_storeAccs _ ls key v p k

/-! ## Elements outside the window -/

theorem State.overwrite_nothing (s : State) : s.overwrite (accWhole []) = s := by
  have hnone : ∀ u ∈ s.upsets, (!accWhole [] u.site) = true := by
    intro u _
    cases u.site <;> rfl
  rw [State.overwrite_eq, List.filter_eq_self.2 hnone]

section Alone
variable {s : State} {g : Guard} {o : Ops} {l : Nat} (alone : s.exec g = [l])
  (hout : ¬ inWindow s l (s.src l .int o.a).toNat 1)
include alone hout

theorem exec_mxld_of_outside :
    exec (.mxld g o) s = .next (s.trap l { code := 0x15, info := (s.src l .int o.a).toNat % 65536 }) := by
  have hat := State.accAt_of_outside hout
  have hfree : s.accHeld (leftsOf ((s.exec g).map fun l => (l, s.accAt l o))) = false := by
    rw [alone, List.map_singleton, hat]; rfl
  change execMxld g o s = _
  rw [execMxld, hfree, if_neg Bool.false_ne_true]
  exact perLane_trap alone o.d (by rw [hat])

theorem exec_mxst_of_outside (thread : (s.lane l).helper = false) :
    exec (.mxst g o) s = .next (s.trap l { code := 0x15, info := (s.src l .int o.a).toNat % 65536 }) := by
  have hat := State.accAt_of_outside hout
  have hthreads : s.execThreads g = [l] := by simp [State.execThreads, alone, thread]
  have hlefts : leftsOf [(l, s.accAt l o)] = [] := by rw [hat]; rfl
  have hrights : rightsOf [(l, s.accAt l o)] = [(l, { code := 0x15, info := (s.src l .int o.a).toNat % 65536 })] := by
    rw [hat]; rfl
  change execMxst g o s = _
  simp only [execMxst, hthreads, List.map_singleton, hlefts, hrights, List.foldl_nil, State.overwrite_nothing]
  rfl

end Alone

/-- Settles O27: windows by the first row outside the block's, MXZERO warp by warp over a state that differs in
accumulators alone, and MXLD and MXST element by element. -/
theorem accumulators : Obligations.Accumulators := by
  refine ⟨fun s g o => ⟨_, rfl, oneByOne_foldl (State.windowGranted o) _ s⟩,
    fun s g o hordered hfree => ⟨_, rfl, exec_mxzero hordered hfree⟩, fun s g o hfree => ⟨exec_mxld hfree, _,
      exec_mxst fun l hl => hfree l (List.mem_filter.1 hl).1, s.storeAccs_overwrite _ _ _⟩,
    fun s g o l alone thread hout => ⟨exec_mxld_of_outside alone hout, exec_mxst_of_outside alone hout thread⟩⟩

end Sys2Proof.Machine
end

section
/-! SUPPORT. Copy commands: what an earlier warp's command leaves a later one to read, and room in the buffer pool
(spec/11 R200, R201, spec/13 R233 to R237). -/

namespace Sys2Proof.Machine
open Claims

/-! ## Room in the buffer pool (R200, R201) -/

/-- A queue is granted an entry where there is room for one. -/
theorem State.granted?_iff (s : State) (c q : Nat) : s.granted? c q = true ↔ poolRoom s c q 1 := by
  have hused : (List.range 20).foldl (fun n j => n + s.poolCount c j) 0 = ((List.range 20).map (s.poolCount c)).sum := by
    rw [List.sum_eq_foldl, List.foldl_map]
  have howed : (List.range 20).foldl (fun n j => if j = q then n else n + (s.poolMin c j - s.poolCount c j)) 0 =
      ((List.range 20).map fun j => if j = q then 0 else s.poolMin c j - s.poolCount c j).sum := by
    rw [List.sum_eq_foldl, List.foldl_map]
    congr 1
    funext n j
    split <;> rfl
  simp only [State.granted?, hused, howed, poolRoom, Bool.and_eq_true, Bool.or_eq_true, decide_eq_true_eq]
  rfl

/-- A core with copy commands joined to an engine's queue. -/
def Core.queueCopies (x : Core) (eng : Bool) (ops : List CopyOp) : Core :=
  if eng then { x with copy1 := x.copy1 ++ ops } else { x with copy0 := x.copy0 ++ ops }

theorem Core.queueCopies_nil (x : Core) (eng : Bool) : x.queueCopies eng [] = x := by
  cases eng <;> simp [Core.queueCopies]

theorem Core.queueCopies_append (x : Core) (eng : Bool) (ops ops' : List CopyOp) :
    (x.queueCopies eng ops).queueCopies eng ops' = x.queueCopies eng (ops ++ ops') := by
  cases eng <;> simp [Core.queueCopies]

@[simp] theorem Core.queueCopies_launch (x : Core) (eng : Bool) (ops : List CopyOp) :
    (x.queueCopies eng ops).launch = x.launch := by cases eng <;> rfl
@[simp] theorem Core.queueCopies_block (x : Core) (eng : Bool) (ops : List CopyOp) :
    (x.queueCopies eng ops).block = x.block := by cases eng <;> rfl
@[simp] theorem Core.queueCopies_poolMin (x : Core) (eng : Bool) (ops : List CopyOp) :
    (x.queueCopies eng ops).poolMin = x.poolMin := by cases eng <;> rfl
@[simp] theorem Core.queueCopies_poolCap (x : Core) (eng : Bool) (ops : List CopyOp) :
    (x.queueCopies eng ops).poolCap = x.poolCap := by cases eng <;> rfl

/-- The queue of a buffer pool in which a copy engine's commands count (R201). -/
def copyQueue (eng : Bool) : Nat := if eng then 18 else 17

theorem State.poolCount_queueCopies {s t : State} {c : Nat} {eng : Bool} {ops : List CopyOp} (hlanes : t.lanes = s.lanes)
    (hcore : t.core c = (s.core c).queueCopies eng ops) (hnew : ∀ x ∈ ops, x.moved = false) (q : Nat) :
    t.poolCount c q = s.poolCount c q + if q = copyQueue eng then ops.length else 0 := by
  have hkept : (ops.filter fun x => !x.moved) = ops := List.filter_eq_self.2 fun x hx => by rw [hnew x hx]; rfl
  simp only [State.poolCount, State.coreLanes, State.lane, hlanes, hcore, copyQueue]
  cases eng <;> simp only [Core.queueCopies, if_true, Bool.false_eq_true, if_false, List.filter_append, hkept,
    List.length_append] <;> split_ifs <;> omega

/-! ## A state in which some warps' commands have joined (R224) -/

/-- Of the state in which an instruction found the machine, up to `n` of its commands have joined an engine's queue. -/
structure CopiesQueued (s : State) (eng : Bool) (n : Nat) (t : State) : Prop where
  rest : t = { s with warps := t.warps, cores := t.cores, nextId := t.nextId, groups := t.groups }
  warp : ∀ w, ∃ k ≤ n, t.warp w = { s.warp w with tlc := (s.warp w).tlc + k }
  core : ∀ c, ∃ ops : List CopyOp, ops.length ≤ n ∧ (∀ x ∈ ops, x.moved = false) ∧
    t.core c = (s.core c).queueCopies eng ops
  group : ∃ ls, t.group = { s.group with served := ls }

theorem CopiesQueued.refl (s : State) (eng : Bool) : CopiesQueued s eng 0 s where
  rest := rfl
  warp _ := ⟨0, le_rfl, rfl⟩
  core c := ⟨[], le_rfl, by simp, ((s.core c).queueCopies_nil eng).symm⟩
  group := ⟨_, rfl⟩

theorem State.originOf_eq (s : State) (l : Nat) : s.originOf l = from_ s l := by
  rw [State.originOf, classOf_eq]; rfl

namespace CopiesQueued
variable {s t : State} {eng : Bool} {k : Nat} (h : CopiesQueued s eng k t)
include h

theorem lane (l : Nat) : t.lane l = s.lane l := by rw [h.rest]; rfl

theorem tile (j : Nat) : t.tile j = s.tile j := by rw [h.rest]; rfl

theorem tileBound (c hd : Nat) : t.tileBound c hd = s.tileBound c hd := by rw [h.rest]; rfl

theorem launchOf (c : Nat) : t.launchOf c = s.launchOf c := by
  obtain ⟨ops, -, -, hcore⟩ := h.core c
  have hlaunches : t.launches = s.launches := by rw [h.rest]
  simp only [State.launchOf, hcore, Core.queueCopies_launch, hlaunches]

theorem capxOf (c : Nat) : t.capxOf c = s.capxOf c := by rw [State.capxOf, State.capxOf, h.launchOf]

theorem blockId (c : Nat) : t.blockId c = s.blockId c := by
  obtain ⟨ops, -, -, hcore⟩ := h.core c
  have hblocks : t.blocks = s.blocks := by rw [h.rest]
  simp only [State.blockId, State.blockOf, hcore, Core.queueCopies_block, hblocks]

theorem sreg (l i : Nat) : t.sreg l i = s.sreg l i := by
  obtain ⟨n, -, hwarp⟩ := h.warp (warpOf l)
  rw [State.sreg, State.sreg, hwarp]

theorem vreg (l i : Nat) : t.vreg l i = s.vreg l i := by rw [State.vreg, State.vreg, h.lane]

theorem special (l : Nat) (x : Special) : t.special l x = s.special l x := by
  have hgt : ∀ c, t.coreGt c = s.coreGt c := fun c => by rw [h.rest]; rfl
  simp only [State.special, h.lane, h.launchOf, h.blockId, hgt]

theorem src (l : Nat) (ty : RType) (o : Operand) : t.src l ty o = s.src l ty o := by
  cases o <;> simp only [State.src, h.vreg, h.sreg, h.special, h.lane]

theorem src64 (l : Nat) (o : Operand) : t.src64 l o = s.src64 l o := by
  cases o <;> simp only [State.src64, h.vreg, h.sreg, h.src]

theorem srcRun (l n : Nat) (o : Operand) : t.srcRun l n o = s.srcRun l n o := by
  cases o <;> simp only [State.srcRun, h.vreg, h.sreg, h.src]

theorem translate (c capx : Nat) (ask : Ask) (va : W64) : t.translate c capx ask va = s.translate c capx ask va := by
  rw [h.rest]
  exact State.translate_congr rfl (fun _ _ => rfl) rfl rfl rfl c capx ask va

theorem laneVa (l : Nat) (ask : Ask) (align : Nat) (va : W64) : t.laneVa l ask align va = s.laneVa l ask align va := by
  simp only [State.laneVa, State.checkVa, h.translate, h.capxOf]

theorem originOf (l : Nat) : t.originOf l = s.originOf l := by
  obtain ⟨n, -, hwarp⟩ := h.warp (warpOf l)
  obtain ⟨ops, -, -, hcore⟩ := h.core (coreOf l)
  obtain ⟨ls, hgroup⟩ := h.group
  simp only [State.originOf, hwarp, hcore, hgroup, Core.queueCopies_launch, State.gtid, h.blockId, h.lane, Group.word]

theorem completionOf (l : Nat) (o : Operand) (w64 : Bool) (sc : Scope) :
    t.completionOf l o w64 sc = s.completionOf l o w64 sc := by
  obtain ⟨n, -, hwarp⟩ := h.warp (warpOf l)
  simp only [State.completionOf, hwarp, h.src64, h.srcRun, h.tileBound, h.tile, h.laneVa]

theorem windowOf (l : Nat) (kind : CopyKind) (b : Operand) (ly : Layout) :
    t.windowOf l kind b ly = s.windowOf l kind b ly := by
  have hrun : ∀ n, t.runAllocated l n b = s.runAllocated l n b := fun n => by
    simp only [State.runAllocated, h.launchOf]
  simp only [State.windowOf, hrun, h.src64, h.srcRun]

theorem from_ (l : Nat) : from_ t l = from_ s l := by rw [← State.originOf_eq, h.originOf, State.originOf_eq]

theorem unsealed {c : Nat} {ps : List Piece} (hs : unsealed s c ps) : unsealed t c ps := by
  have hseals : t.seals = s.seals := by rw [h.rest]
  simpa only [Claims.unsealed, h.translate, h.capxOf, hseals] using hs

/-- A later warp's command is checked as if none had joined. -/
theorem checked {l : Nat} {kind : CopyKind} {o : Ops} {sc : Scope} {w64 : Bool} {ly : Layout} {org : List Int}
    {list : W64} {n rows j : Nat} {done : Option Completion}
    (hc : CopyChecked s l kind o sc w64 ly org list n rows j done) :
    CopyChecked t l kind o sc w64 ly org list n rows j done where
  record := by rw [h.srcRun]; exact hc.record
  window := by rw [h.windowOf]; exact hc.window
  bound := by rw [h.tileBound]; exact hc.bound
  shape := by rw [h.tile]; exact hc.shape
  banks := by rw [h.tile]; exact hc.banks
  word := by rw [h.completionOf]; exact hc.word
  unsealed := by rw [h.tile, h.srcRun, h.from_]; exact h.unsealed hc.unsealed

theorem acquireFree (w : Nat) : t.acquireFree w = s.acquireFree w := by rw [h.rest]; rfl

theorem poolRoom {c n : Nat} (hroom : poolRoom s c (copyQueue eng) n) (hn : k + 1 ≤ n) :
    poolRoom t c (copyQueue eng) 1 := by
  obtain ⟨ops, hlength, hnew, hcore⟩ := h.core c
  have hcount := State.poolCount_queueCopies (by rw [h.rest]) hcore hnew
  have hmin : ∀ j, t.poolMin c j = s.poolMin c j := fun j => by rw [State.poolMin, State.poolMin, hcore]; simp
  have hcap : ∀ j, t.poolCap c j = s.poolCap c j := fun j => by rw [State.poolCap, State.poolCap, hcore]; simp
  have hused : ((List.range 20).map (t.poolCount c)).sum = ((List.range 20).map (s.poolCount c)).sum + ops.length := by
    have hone : ((List.range 20).map fun j => if j = copyQueue eng then ops.length else 0).sum = ops.length := by
      cases eng <;> simp [copyQueue, List.range_succ]
    rw [List.map_congr_left fun j _ => hcount j, List.sum_map_add, hone]
  have howed : ((List.range 20).map fun j => if j = copyQueue eng then 0 else t.poolMin c j - t.poolCount c j) =
      (List.range 20).map fun j => if j = copyQueue eng then 0 else s.poolMin c j - s.poolCount c j := by
    refine List.map_congr_left fun j _ => ?_
    split
    next => rfl
    next hj => rw [hmin, hcount, if_neg hj, Nat.add_zero]
  obtain ⟨hunder, hgrant⟩ := hroom
  have hown := hcount (copyQueue eng)
  rw [if_pos rfl] at hown
  rw [Claims.poolRoom, hused, howed, hmin, hcap, hown]
  omega

theorem counterFull {w n : Nat} (hfree : (s.warp w).counter 3 + n ≤ 1023) (hn : k + 1 ≤ n) :
    t.counterFull [w] 3 = false := by
  obtain ⟨j, hj, hwarp⟩ := h.warp w
  have htlc : (s.warp w).tlc + n ≤ 1023 := hfree
  refine State.counterFull_of_room fun v hv => ?_
  rw [List.mem_singleton.1 hv, hwarp]
  dsimp only
  omega

end CopiesQueued

/-! ## One command joins (R235, R237) -/

theorem State.enqueueCopy_queued {s : State} {l : Nat} {eng : Bool} {op : CopyOp} (hcore : op.org.core = coreOf l)
    (hwarp : op.org.warp = warpOf l) : Queued s (s.enqueueCopy eng op) l 3 (s.modCore (coreOf l) fun x =>
      if eng then { x with copy1 := x.copy1 ++ [{ op with id := s.nextId }] }
      else { x with copy0 := x.copy0 ++ [{ op with id := s.nextId }] }) := by
  refine ⟨by rw [← hcore]; rfl, fun w => ?_⟩
  rw [← hwarp]
  dsimp only [State.enqueueCopy, State.countUp]
  rw [State.warp_modWarp, Warp.count_up]
  split
  next e => rw [e]; rfl
  next => rfl

theorem State.group_serve (s : State) (ls : List Nat) : ∃ ks, (s.serve ls).group = { s.group with served := ks } := by
  cases hcur : s.cur with
  | none => exact ⟨_, by rw [State.serve, State.modGroup, hcur]⟩
  | some k =>
    simp only [State.serve, State.modGroup, hcur, State.group]
    cases hg : tfind s.groups k with
    | none => exact ⟨[], by simp [tmod, tget, hg]⟩
    | some g => exact ⟨g.served ++ ls, by simp [tget, hg]⟩

/-- A command joins after the others, and its warp's lanes have been served. -/
theorem CopiesQueued.step {s t u : State} {eng : Bool} {k l : Nat} {op : CopyOp} (h : CopiesQueued s eng k t)
    (hmoved : op.moved = false) (hjoin : Queued t u l 3 (t.modCore (coreOf l) fun x =>
      if eng then { x with copy1 := x.copy1 ++ [op] } else { x with copy0 := x.copy0 ++ [op] })) (ls : List Nat) :
    CopiesQueued s eng (k + 1) (u.serve ls) where
  rest := by
    rw [u.serve_only, hjoin.rest, h.rest]
    rfl
  warp w := by
    obtain ⟨j, hj, hwarp⟩ := h.warp w
    have hserved : (u.serve ls).warp w = u.warp w := by rw [u.serve_only]; rfl
    rw [hserved, hjoin.warp, hwarp]
    split
    · exact ⟨j + 1, by omega, by simp [raised, Nat.add_assoc]⟩
    · exact ⟨j, by omega, rfl⟩
  core c := by
    obtain ⟨ops, hlength, hnew, hcore⟩ := h.core c
    have hserved : (u.serve ls).core c = (t.modCore (coreOf l) fun x => x.queueCopies eng [op]).core c := by
      rw [u.serve_only, hjoin.rest]; rfl
    rw [hserved, State.core_modCore]
    split
    next e =>
      refine ⟨ops ++ [op], by simpa using hlength, fun x hx => ?_, ?_⟩
      · rcases List.mem_append.1 hx with hold | hlast
        · exact hnew x hold
        · rw [List.mem_singleton.1 hlast, hmoved]
      · rw [← e, hcore, Core.queueCopies_append]
    next => exact ⟨ops, by omega, hnew, hcore⟩
  group := by
    obtain ⟨ks, hks⟩ := u.group_serve ls
    obtain ⟨js, hjs⟩ := h.group
    have hsame : u.group = t.group := by rw [hjoin.rest]; rfl
    exact ⟨ks, by rw [hks, hsame, hjs]⟩

/-! ## The checks of a command (R233, R235, R323, spec/12 R222) -/

theorem State.sealedTrap_of_unsealed {s : State} {c : Nat} {ps : List Piece} (h : unsealed s c ps) :
    s.sealedTrap c (s.capxOf c) ps = none := by
  rw [State.sealedTrap]
  split
  next => rfl
  next =>
    rw [Option.map_eq_none_iff, List.find?_eq_none]
    intro p hp
    cases hpa : s.translate c (s.capxOf c) (.sys false) (BitVec.ofNat 64 (p.bit / 8)) with
    | ok pa => simpa [State.sealed] using h p hp pa hpa
    | _ => simp

/-- The command that a lane issues, before it has a number. -/
def copyCommand (s : State) (l : Nat) (kind : CopyKind) (o : Ops) (k : Nat) (org : List Int) (list : W64) (n : Nat)
    (done : Option Completion) : CopyOp :=
  { id := 0, kind := kind, org := from_ s l, tile := k, record := s.srcRun l 24 o.a, origin := org, index := list,
    count := n, done := done }

theorem State.copyOf?_of_checked {s : State} {l : Nat} {kind : CopyKind} {o : Ops} {sc : Scope} {w64 : Bool} {ly : Layout}
    {org : List Int} {list : W64} {n rows k : Nat} {done : Option Completion}
    (h : CopyChecked s l kind o sc w64 ly org list n rows k done) :
    s.copyOf? l kind o sc w64 = .inl (copyCommand s l kind o k org list n done) := by
  obtain ⟨hfmt, hcols, hrows⟩ := h.shape
  obtain ⟨himode, higran⟩ := h.banks
  have hrecord := h.record
  -- The checks are unfolded outside their application, and the reader of records stands as a variable: else the kernel
  -- runs it on the lane's words.
  generalize hcopy : @State.copyOf? = copy
  delta State.copyOf? at hcopy
  subst hcopy
  generalize parseRecord = parse at hrecord ⊢
  simp only [hrecord, h.window, h.bound, hfmt, hcols, hrows, himode, higran, h.word, State.originOf_eq,
    State.sealedTrap_of_unsealed h.unsealed, ne_eq, not_true_eq_false, or_self, if_false]
  rfl

/-- What a warp's command does: it joins its engine's queue with the operands as read in `s0`. -/
def copyJoined (s0 : State) (kind : CopyKind) (o : Ops) (sc : Scope) (w64 eng : Bool) (s : State) (l : Nat) (t : State) :
    Prop := ∃ ly org list n rows k done, CopyChecked s0 l kind o sc w64 ly org list n rows k done ∧
  let op : CopyOp := { id := s.nextId, kind := kind, org := from_ s0 l, tile := k, record := s0.srcRun l 24 o.a,
                       origin := org, index := list, count := n, done := done }
  Queued s t l 3 (s.modCore (coreOf l) fun x =>
    if eng then { x with copy1 := x.copy1 ++ [op] } else { x with copy0 := x.copy0 ++ [op] })

section Command
variable {s : State} {g : Guard} {kind : CopyKind} {o : Ops} {sc : Scope} {w64 eng : Bool}

theorem State.copyOne_of_passes {l : Nat} {op : CopyOp} (hcopy : s.copyOf? l kind o sc w64 = .inl op)
    (hgrant : s.granted? (coreOf l) (if eng then 18 else 17) = true) (hroom : s.counterFull [warpOf l] 3 = false)
    (hfree : s.acquireFree (warpOf l) = true) : s.copyOne l kind o sc w64 eng = (s.enqueueCopy eng op, false) := by
  -- As in `State.copyOf?_of_checked`, the checks stand as a variable.
  generalize hone : @State.copyOne = one
  delta State.copyOne at hone
  subst hone
  generalize @State.copyOf? = copy at hcopy ⊢
  simp [hcopy, hgrant, hroom, hfree]

/-- A checked command joins after fewer others than there is room for. -/
theorem CopiesQueued.copyOne {t : State} {j l m : Nat} (h : CopiesQueued s eng j t) (hm : j + 1 ≤ m)
    (hfree : (s.warp (warpOf l)).counter 3 + m ≤ 1023 ∧ s.acquireFree (warpOf l) = true)
    (hroom : Claims.poolRoom s (coreOf l) (copyQueue eng) m)
    (hchecked : ∃ ly org list n rows k done, CopyChecked s l kind o sc w64 ly org list n rows k done) (ls : List Nat) :
    ∃ u, t.copyOne l kind o sc w64 eng = (u, false) ∧ copyJoined s kind o sc w64 eng t l u ∧
      CopiesQueued s eng (j + 1) (u.serve ls) := by
  obtain ⟨ly, org, list, n, rows, k, done, hc⟩ := hchecked
  have hgrant : t.granted? (coreOf l) (if eng then 18 else 17) = true :=
    (t.granted?_iff _ _).2 (h.poolRoom hroom hm)
  have hcopy := State.copyOf?_of_checked (h.checked hc)
  have hsame : copyCommand t l kind o k org list n done = copyCommand s l kind o k org list n done := by
    rw [copyCommand, copyCommand, h.from_, h.srcRun]
  rw [hsame] at hcopy
  have hjoin := t.enqueueCopy_queued (eng := eng) (l := l) (op := copyCommand s l kind o k org list n done) rfl rfl
  exact ⟨_, State.copyOne_of_passes hcopy hgrant (h.counterFull hfree.1 hm) ((h.acquireFree _).trans hfree.2),
    ⟨ly, org, list, n, rows, k, done, hc, hjoin⟩, h.step rfl hjoin ls⟩

/-- Every warp's command joins, in order. -/
theorem State.perWarp_copyOne (hordered : ordered s g) (hfree : warpsFree s (perWarpLanes s g) 3)
    (hready : ∀ l ∈ perWarpLanes s g, Claims.poolRoom s (coreOf l) (copyQueue eng) (perWarpLanes s g).length ∧
      ∃ ly org list n rows k done, CopyChecked s l kind o sc w64 ly org list n rows k done) :
    InTurn (copyJoined s kind o sc w64 eng) (warpPart s g) s (perWarpLanes s g)
      (s.perWarp g fun s l => s.copyOne l kind o sc w64 eng) := by
  refine State.perWarp_inTurn (P := fun ls t => ls ⊆ perWarpLanes s g ∧
    ∃ j, j + ls.length = (perWarpLanes s g).length ∧ CopiesQueued s eng j t) hordered
    (fun t l ls ⟨hls, j, hj, hqueued⟩ => ?_) ⟨List.Subset.refl _, 0, Nat.zero_add _, .refl s eng⟩
  obtain ⟨hl, hls⟩ := List.cons_subset.1 hls
  rw [List.length_cons] at hj
  obtain ⟨u, hu, hjoined, hnext⟩ := hqueued.copyOne (by omega) (hfree l hl) (hready l hl).1 (hready l hl).2
    (warpPart s g l)
  exact ⟨u, hu, hjoined, hls, j + 1, by omega, hnext⟩

theorem exec_of_copyRule {i : Instr} (h : copyRule i = some (g, o, sc, w64, eng, kind)) :
    exec i s = .next (s.perWarp g fun s l => s.copyOne l kind o sc w64 eng) := by
  cases i <;> cases h <;> rfl

end Command

/-- Settles O26: each warp's command is checked over a state in which only earlier commands have joined, and those leave
it its operands and its room in the pool. -/
theorem copyCommands : Obligations.CopyCommands := by
  intro i s g o sc w64 eng kind hi hordered hfree hready
  exact ⟨_, exec_of_copyRule hi, State.perWarp_copyOne hordered hfree hready⟩

end Sys2Proof.Machine
end
